-- ==== Sys2Proof/Word.lean ====
section
/-! DEFINITION. The word types of the machine and nothing else (R31, R32, R43, R89). -/

namespace Sys2Proof

/-- A byte of memory. -/
abbrev Byte := BitVec 8
/-- A Surveyor register, an address before it is looked up, a control word (R89). -/
abbrev Word := BitVec 64
/-- One 32-bit lane of a link word or lane register (R32). -/
abbrev Lane := BitVec 32
/-- A Surveyor register number (R108). -/
abbrev Reg := BitVec 5

end Sys2Proof
end

