-- ==== Sys2Proof/Syntax.lean ====
section
/-! DEFINITION. The instructions: every row of the opcode table is one constructor of `Instr`.
Three kinds of row stand in it: Surveyor words (R108-R111), cell operations (R210-R215) and the part's
own steps (deliveries, completions, host and debugger actions). -/

namespace Sys2Proof

/-- Memory scopes (R11, R108). -/
inductive Scope where
  | c | p | s | q | v | d | y
  deriving DecidableEq, Repr, Inhabited

/-- Operand widths of `AMO` (R123). -/
inductive AmoWidth where
  | n32 | n64 | n128
  deriving DecidableEq, Repr, Inhabited

/-- Rounding modes (R45). -/
inductive Rounding where
  | rne | rz | ru | rd | rs
  deriving DecidableEq, Repr, Inhabited

/-- The special operands of a cell (R213). -/
inductive Special where
  | lane | cx | cy | cell | parcel | merlo | merhi | ctx
  deriving DecidableEq, Repr, Inhabited

/-- A cell operand field (R211). -/
inductive Operand where
  | reg (i : BitVec 4)
  | iq (q : BitVec 2) (j : BitVec 3)
  | oq (q : BitVec 2)
  | pred (k : BitVec 3)
  | const (k : BitVec 3)
  | ap
  | handle (h : BitVec 7)
  | special (x : Special)
  | none
  deriving DecidableEq, Repr, Inhabited

/-- The fields of a cell operation word besides its opcode (R210). Source C is kept as its 12 bits:
an operand, an immediate or modifiers, as each entry says. -/
structure CellWord where
  ty : BitVec 4
  dst : Operand
  a : Operand
  b : Operand
  rnd : Rounding
  pop : Bool
  c : BitVec 12
  deriving DecidableEq, Repr, Inhabited

/-- A link word: payload and sideband (R43). -/
structure LinkWord where
  payload : BitVec 512
  scale : BitVec 32
  fmt : BitVec 4
  ctx : BitVec 3
  phase : BitVec 2
  last : Bool
  token : Bool
  kind : BitVec 5
  deriving DecidableEq, Repr, Inhabited

/-- Where a link word in a route comes from: a cell's output queue or the inbound side of a port (R216, R217). -/
inductive LinkSource where
  | cell (p m q : Nat)
  | port (p port : Nat)
  deriving DecidableEq, Repr, Inhabited

/-- Who makes an access through a window (R107, R203, R439). -/
inductive Writer where
  | core (p : Nat)
  | cell (p m : Nat)
  | engine (p : Nat)
  | graticule (p : Nat)
  | host
  | debugger
  | cartouche
  deriving DecidableEq, Repr, Inhabited

/-- Completion status of a request to the host (R466). -/
inductive CompletionStatus where
  | success | poisoned | unsupported | aborted
  deriving DecidableEq, Repr, Inhabited

/-- What a stream's home and a place of one of its ends on another device tell each other (R303-R311): an item with its
number; the numbers below `n` are delivered; stop, and where the place stopped; begin at a number, with the numbers delivered and the capacity code;
the producer's last item has entered, `n` items in all; the other side is dead; the side is free; the place's holder is dead;
the place's kernel stands at another parcel. -/
inductive EndNote where
  | item (seq : Nat) (word : LinkWord)
  | delivered (n : Nat)
  | stop
  | stopped (n : Nat)
  | start (n delivered : Nat) (cap : BitVec 3)
  | closed (n : Nat)
  | orphan
  | gone
  | dead
  | moved (parcel : Nat)
  deriving DecidableEq, Repr, Inhabited

/-- An end at a place, as a home and the place name it to each other: the home's device and parcel, the stream's number, the
end's kind and serial, and the place's parcel and port (R300, R304). -/
structure EndName where
  device : Nat
  home : Nat
  number : Nat
  consumer : Bool
  serial : BitVec 16
  parcel : Nat
  port : Nat
  deriving DecidableEq, Repr, Inhabited

/-- What a MoLink packet carries (R309, R467, R470): a note between a stream's home and a place of an end, what an end
instruction (1 bind, 2 close, 3 status) asks of a home and its answer, a store, an acknowledgement, a re-send notice. -/
inductive MoBody where
  | toHome (x : EndName) (note : EndNote)
  | toPlace (x : EndName) (note : EndNote)
  | ask (tag op : Nat) (handle : Word) (parcel port : Nat)
  | answer (tag op : Nat) (handle : Word) (code : Byte) (value : Word)
  | write (pa : Nat) (bytes : List Byte)
  | acknowledge (seq : Nat)
  | resend (seq : Nat)
  deriving DecidableEq, Repr, Inhabited

/-- A MoLink packet: source, destination, source sequence and body (R467). -/
structure MoPacket where
  src : Nat
  dst : Nat
  seq : Nat
  body : MoBody
  deriving DecidableEq, Repr, Inhabited

/-- Flit types (R467). -/
inductive FlitKind where
  | data | hole | acknowledge | replay | idle | reserved
  deriving DecidableEq, Repr, Inhabited

/-- A flit as its receiver finds it after FEC: `crcOk` says whether its CRC passes (R467, R468).
`packets` are the packets that end in it, `tags` the (source, sequence) pairs with a byte in it, and `cont` says that its payload
begins with more of a packet that an earlier flit began. -/
structure Flit where
  kind : FlitKind
  seq : Nat
  ack : Nat
  credits : Nat
  crcOk : Bool
  packets : List MoPacket
  tags : List (Nat × Nat)
  cont : Bool
  deriving DecidableEq, Repr, Inhabited

/-- One constructor per row of the opcode table. -/
inductive Instr where
  | add (rd : Reg) (ra : Reg) (rb : Reg)
  | sub (rd : Reg) (ra : Reg) (rb : Reg)
  | mul (rd : Reg) (ra : Reg) (rb : Reg)
  | mulh (rd : Reg) (ra : Reg) (rb : Reg)
  | mulhn (rd : Reg) (ra : Reg) (rb : Reg)
  | div (rd : Reg) (ra : Reg) (rb : Reg)
  | divn (rd : Reg) (ra : Reg) (rb : Reg)
  | rem (rd : Reg) (ra : Reg) (rb : Reg)
  | remn (rd : Reg) (ra : Reg) (rb : Reg)
  | and (rd : Reg) (ra : Reg) (rb : Reg)
  | or (rd : Reg) (ra : Reg) (rb : Reg)
  | xor (rd : Reg) (ra : Reg) (rb : Reg)
  | sll (rd : Reg) (ra : Reg) (rb : Reg)
  | srl (rd : Reg) (ra : Reg) (rb : Reg)
  | sra (rd : Reg) (ra : Reg) (rb : Reg)
  | slt (rd : Reg) (ra : Reg) (rb : Reg)
  | sltn (rd : Reg) (ra : Reg) (rb : Reg)
  | min (rd : Reg) (ra : Reg) (rb : Reg)
  | max (rd : Reg) (ra : Reg) (rb : Reg)
  | minn (rd : Reg) (ra : Reg) (rb : Reg)
  | maxn (rd : Reg) (ra : Reg) (rb : Reg)
  | clz (rd : Reg) (ra : Reg)
  | ctz (rd : Reg) (ra : Reg)
  | popc (rd : Reg) (ra : Reg)
  | addImmediate (rd : Reg) (ra : Reg) (imm : BitVec 16)
  | andImmediate (rd : Reg) (ra : Reg) (imm : BitVec 16)
  | orImmediate (rd : Reg) (ra : Reg) (imm : BitVec 16)
  | xorImmediate (rd : Reg) (ra : Reg) (imm : BitVec 16)
  | sllImmediate (rd : Reg) (ra : Reg) (sh : BitVec 6)
  | srlImmediate (rd : Reg) (ra : Reg) (sh : BitVec 6)
  | sraImmediate (rd : Reg) (ra : Reg) (sh : BitVec 6)
  | sltImmediate (rd : Reg) (ra : Reg) (imm : BitVec 16)
  | sltnImmediate (rd : Reg) (ra : Reg) (imm : BitVec 16)
  | mulImmediate (rd : Reg) (ra : Reg) (imm : BitVec 16)
  | lih (rd : Reg) (ra : Reg) (imm : BitVec 16)
  | csrr (rd : Reg) (num : BitVec 16)
  | csrw (rd : Reg) (ra : Reg) (num : BitVec 16)
  | csrs (rd : Reg) (ra : Reg) (num : BitVec 16)
  | csrc (rd : Reg) (ra : Reg) (num : BitVec 16)
  | ldS8 (rd : Reg) (ra : Reg) (scope : Scope) (off : BitVec 12)
  | ldN8 (rd : Reg) (ra : Reg) (scope : Scope) (off : BitVec 12)
  | ldS16 (rd : Reg) (ra : Reg) (scope : Scope) (off : BitVec 12)
  | ldN16 (rd : Reg) (ra : Reg) (scope : Scope) (off : BitVec 12)
  | ldS32 (rd : Reg) (ra : Reg) (scope : Scope) (off : BitVec 12)
  | ldN32 (rd : Reg) (ra : Reg) (scope : Scope) (off : BitVec 12)
  | ldN64 (rd : Reg) (ra : Reg) (scope : Scope) (off : BitVec 12)
  | stN8 (rd : Reg) (ra : Reg) (scope : Scope) (off : BitVec 12)
  | stN16 (rd : Reg) (ra : Reg) (scope : Scope) (off : BitVec 12)
  | stN32 (rd : Reg) (ra : Reg) (scope : Scope) (off : BitVec 12)
  | stN64 (rd : Reg) (ra : Reg) (scope : Scope) (off : BitVec 12)
  | ldvGe (rd : Reg) (ra : Reg) (rb : Reg) (sx : Bool) (size : BitVec 2) (scope : Scope)
  | ldvEq (rd : Reg) (ra : Reg) (rb : Reg) (sx : Bool) (size : BitVec 2) (scope : Scope)
  | stv (rd : Reg) (ra : Reg) (rb : Reg) (size : BitVec 2) (scope : Scope)
  | stvKeep (rd : Reg) (ra : Reg) (rb : Reg) (size : BitVec 2) (scope : Scope)
  | reclaim (rd : Reg) (ra : Reg) (rb : Reg)
  | amoAdd (rd : Reg) (ra : Reg) (rb : Reg) (width : AmoWidth) (scope : Scope)
  | amoSwp (rd : Reg) (ra : Reg) (rb : Reg) (width : AmoWidth) (scope : Scope)
  | amoCas (rd : Reg) (ra : Reg) (rb : Reg) (width : AmoWidth) (scope : Scope)
  | amoMin (rd : Reg) (ra : Reg) (rb : Reg) (width : AmoWidth) (scope : Scope)
  | amoMax (rd : Reg) (ra : Reg) (rb : Reg) (width : AmoWidth) (scope : Scope)
  | amoMinn (rd : Reg) (ra : Reg) (rb : Reg) (width : AmoWidth) (scope : Scope)
  | amoMaxn (rd : Reg) (ra : Reg) (rb : Reg) (width : AmoWidth) (scope : Scope)
  | amoAnd (rd : Reg) (ra : Reg) (rb : Reg) (width : AmoWidth) (scope : Scope)
  | amoOr (rd : Reg) (ra : Reg) (rb : Reg) (width : AmoWidth) (scope : Scope)
  | amoXor (rd : Reg) (ra : Reg) (rb : Reg) (width : AmoWidth) (scope : Scope)
  | pref (ra : Reg) (scope : Scope) (off : BitVec 12)
  | fence (scope : Scope)
  | fenceAcq (scope : Scope)
  | fenceRel (scope : Scope)
  | beq (ra : Reg) (rb : Reg) (off : BitVec 16)
  | bne (ra : Reg) (rb : Reg) (off : BitVec 16)
  | blt (ra : Reg) (rb : Reg) (off : BitVec 16)
  | bge (ra : Reg) (rb : Reg) (off : BitVec 16)
  | bltn (ra : Reg) (rb : Reg) (off : BitVec 16)
  | bgen (ra : Reg) (rb : Reg) (off : BitVec 16)
  | jal (rd : Reg) (off : BitVec 21)
  | jalr (rd : Reg) (ra : Reg) (imm : BitVec 16)
  | post (rd : Reg) (ra : Reg) (rb : Reg)
  | bindl (rd : Reg) (ra : Reg) (rb : Reg)
  | armt (rd : Reg) (ra : Reg) (rb : Reg)
  | armb (rd : Reg) (ra : Reg)
  | arms (rd : Reg) (ra : Reg)
  | chp (ra : Reg) (rb : Reg)
  | ecall (ra : Reg) (rb : Reg)
  | merid (rd : Reg)
  | stnInit (ra : Reg) (rb : Reg)
  | stnArv (ra : Reg)
  | stnExp (ra : Reg) (rb : Reg)
  | stnDone (ra : Reg)
  | stnTest (rd : Reg) (ra : Reg)
  | trvCopy (rd : Reg) (ra : Reg) (rb : Reg)
  | trvGath (rd : Reg) (ra : Reg) (rb : Reg)
  | trvScat (rd : Reg) (ra : Reg) (rb : Reg)
  | trvRed (rd : Reg) (ra : Reg) (rb : Reg)
  | trvFill (rd : Reg) (ra : Reg) (rb : Reg)
  | trvFeed (rd : Reg) (ra : Reg) (rb : Reg)
  | trvFollow (ra : Reg)
  | trvPub (rd : Reg) (ra : Reg)
  | trvXst (rd : Reg) (ra : Reg) (rb : Reg)
  | trvCanc (ra : Reg)
  | trvStat (rd : Reg) (ra : Reg)
  | bufSet (ra : Reg) (rb : Reg)
  | bufFree (ra : Reg)
  | bufStat (rd : Reg) (ra : Reg)
  | endMake (rd : Reg) (ra : Reg)
  | endBind (rd : Reg) (ra : Reg) (rb : Reg)
  | endClose (ra : Reg)
  | endStat (rd : Reg) (ra : Reg)
  | grLdw (rd : Reg) (ra : Reg) (rb : Reg)
  | grMm (rd : Reg) (ra : Reg) (rb : Reg)
  | grScan (rd : Reg) (ra : Reg) (rb : Reg)
  | grDrn (rd : Reg) (ra : Reg) (rb : Reg)
  | grZero (ra : Reg)
  | grSave (rd : Reg) (ra : Reg) (rb : Reg)
  | grRest (rd : Reg) (ra : Reg) (rb : Reg)
  | grStat (rd : Reg) (ra : Reg)
  | twSeek (rd : Reg) (ra : Reg) (rb : Reg)
  | twRead (rd : Reg) (ra : Reg)
  | twEnc (rd : Reg) (ra : Reg) (rb : Reg)
  | twStat (rd : Reg) (ra : Reg)
  | cpOpen (ra : Reg)
  | cpOper (ra : Reg) (rb : Reg)
  | cpExpl (ra : Reg)
  | cpObs (rd : Reg) (ra : Reg)
  | cpFix (ra : Reg)
  | cpJoin (ra : Reg) (rb : Reg)
  | cpClose (ra : Reg)
  | scrOpen (rd : Reg) (ra : Reg) (rb : Reg)
  | scrCnt (rd : Reg) (ra : Reg)
  | segName (rd : Reg) (ra : Reg) (rb : Reg)
  | segAtt (rd : Reg) (ra : Reg) (rb : Reg)
  | segDet (ra : Reg)
  | segPin (ra : Reg) (rb : Reg)
  | segEvt (ra : Reg) (rb : Reg)
  | segDrop (ra : Reg)
  | segStat (rd : Reg) (ra : Reg)
  | projInv (ra : Reg) (rb : Reg)
  | projProbe (rd : Reg) (ra : Reg) (rb : Reg)
  | pageDup (ra : Reg) (rb : Reg)
  | sndSet (ra : Reg) (rb : Reg)
  | sndOut (rd : Reg) (ra : Reg)
  | sndIn (rd : Reg) (ra : Reg)
  | sndStat (rd : Reg) (ra : Reg)
  | qKick (ra : Reg) (rb : Reg)
  | strmIn (rd : Reg) (ra : Reg) (rb : Reg)
  | strmOut (rd : Reg) (ra : Reg) (rb : Reg)
  | strmBar (ra : Reg)
  | strmStop (ra : Reg)
  | strmStat (rd : Reg) (ra : Reg)
  | illegalInstructionWord (word : BitVec 32)
  | instructionFetchFault (code : Byte)
  | iadd (w : CellWord)
  | isub (w : CellWord)
  | iadds (w : CellWord)
  | isubs (w : CellWord)
  | imul (w : CellWord)
  | imulh (w : CellWord)
  | imad (w : CellWord)
  | imin (w : CellWord)
  | imax (w : CellWord)
  | iabs (w : CellWord)
  | ineg (w : CellWord)
  | iavg (w : CellWord)
  | shl (w : CellWord)
  | shr (w : CellWord)
  | sar (w : CellWord)
  | rot (w : CellWord)
  | cellAnd (w : CellWord)
  | cellOr (w : CellWord)
  | cellXor (w : CellWord)
  | andn (w : CellWord)
  | not (w : CellWord)
  | cellClz (w : CellWord)
  | cellCtz (w : CellWord)
  | ffs (w : CellWord)
  | cellPopc (w : CellWord)
  | brev (w : CellWord)
  | bfx (w : CellWord)
  | bfi (w : CellWord)
  | icmp (w : CellWord)
  | sel (w : CellWord)
  | mov (w : CellWord)
  | movc (w : CellWord)
  | bcst (w : CellWord)
  | lprm (w : CellWord)
  | lshf (w : CellWord)
  | redi (w : CellWord)
  | scni (w : CellWord)
  | dot4 (w : CellWord)
  | dot2 (w : CellWord)
  | kop (w : CellWord)
  | enq (w : CellWord)
  | deq (w : CellWord)
  | adv (w : CellWord)
  | peek (w : CellWord)
  | qstat (w : CellWord)
  | cellLd (w : CellWord)
  | cellSt (w : CellWord)
  | walk (w : CellWord)
  | atom (w : CellWord)
  | cellLdv (w : CellWord)
  | cellStv (w : CellWord)
  | fadd (w : CellWord)
  | fsub (w : CellWord)
  | fmul (w : CellWord)
  | ffma (w : CellWord)
  | fmin (w : CellWord)
  | fmax (w : CellWord)
  | fabs (w : CellWord)
  | fneg (w : CellWord)
  | fcmp (w : CellWord)
  | frcp (w : CellWord)
  | frsq (w : CellWord)
  | fsqrt (w : CellWord)
  | fexp2 (w : CellWord)
  | flog2 (w : CellWord)
  | ftanh (w : CellWord)
  | fsigm (w : CellWord)
  | fsinp (w : CellWord)
  | frnd (w : CellWord)
  | fcls (w : CellWord)
  | redf (w : CellWord)
  | scnf (w : CellWord)
  | topk (w : CellWord)
  | cvt (w : CellWord)
  | bq (w : CellWord)
  | bdq (w : CellWord)
  | sclb (w : CellWord)
  | wadp (w : CellWord)
  | gate (w : CellWord)
  | dly (w : CellWord)
  | mrg (w : CellWord)
  | str (w : CellWord)
  | tag (w : CellWord)
  | proj (w : CellWord)
  | widn (w : CellWord)
  | hin (w : CellWord)
  | hout (w : CellWord)
  | rdon (w : CellWord)
  | rrte (w : CellWord)
  | pois (w : CellWord)
  | halt (w : CellWord)
  | trap (w : CellWord)
  | nop (w : CellWord)
  | endt
  | tret
  | powerUp
  | deviceReset
  | stagedImageLengthWrite (image : List Byte) (len : Nat)
  | securityVersionRaise (version : Nat)
  | spdmMeasurementRequest (index : Nat) (nonce : Nat)
  | regionFatalError (origin : Nat) (code : Byte) (parcel : Nat)
  | deviceFatalError (code : Byte)
  | parcelPowerGate (p : Nat)
  | parcelWake (p : Nat)
  | kickRegisterWrite (q : Nat) (size : Nat) (value : Word) (writer : Writer)
  | dependenceCounterCheck (launch : Nat)
  | regionSchedulerDecision
  | configurationPacket (origin : Nat)
  | parcelLoad (p : Nat)
  | startPacket (origin : Nat)
  | preemptionDrained (origin : Nat)
  | regionExit (origin : Nat)
  | packetArrival (k : Nat)
  | outboundPacketSend (p : Nat) (dest : Nat)
  | taskDispatch (p : Nat)
  | channelPromotion (p : Nat) (ch : Nat)
  | timeWakeupFire (p : Nat) (ch : Nat)
  | controlRegisterWrite (p : Nat) (num : Nat) (value : Word)
  | bindingWrite (p : Nat) (ch : Nat) (handler : Word) (arg : Word)
  | readyBitsWrite (p : Nat) (value : Word)
  | wakeupSlotArmTime (p : Nat) (ch : Nat) (value : Word)
  | wakeupSlotArmBuffer (p : Nat) (ch : Nat) (value : Word)
  | wakeupSlotArmStation (p : Nat) (ch : Nat) (value : Word)
  | wakeupSlotDisarm (p : Nat) (ch : Nat) (value : Word)
  | wakeupSlotArgumentWrite (p : Nat) (ch : Nat) (arg : Word) (time : Word)
  | laneRegisterWindowWrite (p : Nat) (m : Nat) (off : Nat) (bytes : List Byte)
  | contextStoreWrite (p : Nat) (m : Nat) (off : Nat) (bytes : List Byte) (writer : Writer)
  | queueWindowWrite (p : Nat) (m : Nat) (off : Nat) (bytes : List Byte) (writer : Writer)
  | cellContinue (p : Nat) (m : Nat)
  | cellSkip (p : Nat) (m : Nat)
  | resumeRegion (p : Nat) (m : Nat)
  | inputWordArrival (src : LinkSource)
  | outputWordSend (p : Nat) (m : Nat) (q : Nat)
  | delayExpiry (p : Nat) (m : Nat) (q : Nat)
  | cellHalt (p : Nat) (m : Nat)
  | cellPoisoned (p : Nat) (m : Nat)
  | addressPortResponse (p : Nat) (m : Nat)
  | lateFault (p : Nat) (m : Nat)
  | walkNode (p : Nat) (m : Nat)
  | widenerReleaseComplete (p : Nat) (m : Nat)
  | hangMonitorFire (origin : Nat)
  | heldLdvComplete (p : Nat) (m : Nat)
  | stationArrival (k : Nat)
  | stationBytes (k : Nat)
  | exchangeWriteArrival (k : Nat)
  | fenceMarkerArrival (k : Nat)
  | publish (k : Nat)
  | streamStart (p : Nat) (slot : Nat)
  | loaderWord (p : Nat) (slot : Nat)
  | storerWord (p : Nat) (slot : Nat)
  | streamComplete (p : Nat) (slot : Nat)
  | streamFault (p : Nat) (slot : Nat) (code : Byte)
  | traverseBytesLand (p : Nat) (slot : Nat)
  | traverseComplete (p : Nat) (slot : Nat)
  | traverseFault (p : Nat) (slot : Nat) (code : Byte)
  | freedSlotNotice (p : Nat) (handle : Nat)
  | followOnIssue (p : Nat) (slot : Nat)
  | reductionTile (k : Nat)
  | skipMarker (k : Nat)
  | graticuleCommandStart (p : Nat)
  | tileDone (p : Nat)
  | aStreamWord (p : Nat)
  | drainComplete (p : Nat)
  | graticuleCommandComplete (p : Nat)
  | graticuleFault (p : Nat) (code : Byte)
  | graticulePause (p : Nat)
  | encoderRow (prov : Nat)
  | encoderFault (prov : Nat) (code : Byte)
  | bindRequest (k : Nat)
  | itemEntry (p : Nat) (port : Nat)
  | itemDelivery (p : Nat) (port : Nat)
  | itemAcknowledge (p : Nat) (number : Nat)
  | migrationMarker (p : Nat) (number : Nat)
  | recordAdmission (sheet : Nat)
  | recordReturn (sheet : Nat)
  | joinRecord (sheet : Nat)
  | queryClosed (sheet : Nat)
  | scribeItem (p : Nat)
  | scribeSourceComplete (p : Nat)
  | spillComplete (seg : Nat)
  | reloadComplete (seg : Nat)
  | segmentTransferFault (seg : Nat) (code : Byte)
  | tableWalk (prov : Nat) (asid : Nat) (va : Nat)
  | invalidateComplete (k : Nat)
  | collapse (asid : Nat) (va : Nat) (prov : Nat)
  | pageDupComplete (k : Nat)
  | soundingPageLand (set : Nat) (entry : Nat)
  | soundingOutComplete (set : Nat)
  | soundingInComplete (set : Nat)
  | soundingFault (set : Nat) (code : Byte) (word1 : Word)
  | doorbellWrite (off : Nat) (size : Nat) (value : Word)
  | hostIngressDeliver (origin : Nat) (db : Nat)
  | bar4Read (off : Nat) (size : Nat)
  | bar4Write (off : Nat) (bytes : List Byte)
  | bar2Read (off : Nat)
  | hostAtomicopRequest (bar : Nat) (off : Nat)
  | hostCompletion (tag : Nat) (status : CompletionStatus) (data : List Byte)
  | hostTimeout (tag : Nat)
  | flitReceive (port : Nat) (flit : Flit)
  | replayRequest (port : Nat) (seq : Nat)
  | resendNotice (dest : Nat) (seq : Nat)
  | packetAcknowledge (dest : Nat) (seq : Nat)
  | portRetrainFailure (port : Nat)
  | debugRun
  | debugCont
  | debugStep
  | breakTask (ch : Nat)
  | breakCell (p : Nat) (m : Nat) (slot : Nat)
  | breakFault
  | breakPromise
  | breakKick (q : Nat)
  | printRegister (n : Nat)
  | printControlRegister (num : Nat)
  | printLaneRegister (n : Nat)
  | printPredicates
  | printWindowRegister (n : Nat)
  | showQueues
  | showBuffers
  | showStations
  | showStreams
  | showCompass
  | showSegments
  | showQueue (q : Nat)
  | printMeridian
  | parcelReset (p : Nat)
  | deviceControlRangeWrite (off : Nat) (bytes : List Byte) (writer : Writer)
  | correctedSoftError (parcel : Nat) (value : Word)
  | systemConfiguration (x : Nat) (y : Nat) (z : Nat) (number : Nat)
  | ideKeyProgramming (stream : Nat) (config : Nat)
  | pcieConfigurationWrite (reg : Nat) (value : Word)
  deriving DecidableEq, Repr, Inhabited

/-- Which agent acts in a step. A step with `cell` judges the cell's guards and, when a slot may fire,
fires it as `firing`; the other agents' steps are `event`s. -/
inductive Turn where
  | core (p : Nat)
  | cell (p m : Nat)
  | firing (p m ctx slot : Nat)
  | event (i : Instr)
  deriving DecidableEq, Repr, Inhabited

end Sys2Proof
end

