-- ==== Sys2Proof/Config.lean ====
section
/-! DEFINITION. What the manual leaves open: uninterpreted constants without a body, so that a statement about
one holds for every value of it. The log entry of each is named beside it. -/

namespace Sys2Proof.Config

/-- Which agent acts after step `n`: the manual orders the agents only by its memory and queue rules (log 1). -/
opaque nextTurn : Nat → Turn
/-- How many f-cycles pass with step `n` (log 2). -/
opaque cycles : Nat → Nat
/-- Whether a load at step `n` is served by a clean copy in a slice, where R71 allows either (log 3). -/
opaque useCopy : Nat → Bool
/-- Which held sector (holder, sector number) is written on or dropped after step `n`: R69 and R70 say only that a
store goes on toward the device home, and eviction is not stated (log 3). -/
opaque evict : Nat → Option (Nat × Nat)
/-- How many pages the walker of a page gather runs ahead of the copy at step `n`, up to 32 (R419, log 3). -/
opaque runAhead : Nat → Nat
/-- Which bytes of an encoder's row, and past them of its scale, are written by the first of its two steps, at step `n`: a reader
in between finds each byte old or new (R357, log 115). -/
opaque rowByte : Nat → Nat → Bool
/-- What a read of host memory by an engine or the Cartouche finds at step `n`: the host writes its own memory at
will (log 10). -/
opaque hostByte : Nat → Nat → Byte
/-- How far after issue + 16 the promise made at step `n` lies (R150, log 4). -/
opaque promise : Nat → Nat
/-- Which of its decoded samples the Scribe sends on at step `n`, or that it decodes on: samples reach the target in
any order (R374, log 6). -/
opaque scribeOrder : Nat → Nat
/-- The parts of a firmware image: the signed bytes, the vendor's public key and the signature; where they stand in it is not
stated (R476, log 7). -/
opaque imageParts : List Byte → List Byte × List Byte × List Byte
/-- The security version an image states (R476, R477, log 7). -/
opaque imageVersion : List Byte → Nat
/-- The image that firmware installs as it raises the fused version, whose bytes the event does not give (R477, log 14). -/
opaque installedImage : Nat → List Byte
/-- The three 32-byte seeds of the device identity key, derived from the fused seed; how is not stated (R478, log 7). -/
opaque identitySeeds : List Byte → List Byte × List Byte × List Byte
/-- The seeds of the attestation key, derived from the identity key's and the firmware measurement (R478, log 7). -/
opaque attestSeeds : List Byte × List Byte × List Byte → BitVec 512 → List Byte × List Byte × List Byte
/-- The bytes that the answer to a measurement request signs: index, measurement and the requester's nonce (R478, log 7). -/
opaque spdmMessage : Nat → BitVec 512 → Nat → List Byte
/-- The 32 random bytes of a signature made at step `n` (R478, log 7). -/
opaque signRandom : Nat → List Byte
/-- The default value of a value the manual states no result for, at step `n` (log 8). -/
opaque freeWord : Nat → Word
/-- The generator value before the step of an `.rs` rounding of an invalid element, as a function of the cell's generator and of how many
elements follow: R44 and R46 say only that such a rounding does not step the generator (log 8). -/
opaque invalidGen : BitVec 32 → Nat → BitVec 32

/-- Whether SECDED finds an uncorrectable error in the replay slot of a sequence (`step × 4,096 + sequence`) that must be
sent again (R469, log 9). -/
opaque slotUnreadable : Nat → Bool

/-- Whether a spare port is cabled to the neighbour of a port (R471, log 9). -/
opaque spareCabled : Nat → Nat → Bool
/-- Which of the working ports of a hop a packet takes, by its source device and sequence (R471, log 57). -/
opaque hopPort : Nat → Nat → Nat
/-- The 32-byte units of a packet beyond its first, by its source device and sequence (R467, log 57). -/
opaque packetUnits : Nat → Nat → Nat
/-- The credits that the `n`th flit sent by a port returns (R467, log 57). -/
opaque creditsReturned : Nat → Nat
/-- The hop (device and direction) between other devices that has lost its last working port by the end of step `n` (R472, log 57). -/
opaque hopFails : Nat → Option (Nat × Nat)
/-- CRC-64 of 240 bytes, Reed-Solomon parity of 248, and the payload of a flit by its tags, none of which the manual defines (R467, log 57). -/
opaque flitCrc : List Byte → BitVec 64
opaque flitParity : List Byte → BitVec 64
opaque flitPayload : List (Nat × Nat) → Nat → Byte
/-- What the user of the debugger names at the `run` of step `n`: image, argument block, completion record, save area, ASID
and shape (R298, log 52). -/
opaque session : Nat → Word × Word × Word × Word × Nat × Nat
/-- The segment names in the kernel of the session's image, which `swasm` puts into it (R424, log 52). -/
opaque sessionNames : Nat → List Word

/-- A byte of a dump begun at meridian `n`, by its address, where the manual names what stands there and not its layout (R482, log
48). -/
opaque dumpByte : Nat → Nat → Byte
/-- The pages that the set table and the directory fill in a dump begun at step `n` (R482, log 48). -/
opaque dumpTail : Nat → Nat
/-- The pages of a dump that firmware writes at the end of step `n` (R482, log 48). -/
opaque dumpPace : Nat → Nat
/-- A byte of a parcel's slot of a save area written at a tick, whose layout the manual does not give (R454, log 48). -/
opaque imageByte : Nat → Nat → Byte

/-- Whether a strip takes its turn at the end of step `n` (R446, log 122). -/
opaque stripTakes : Nat → Nat → Bool

/-- Whether the region scheduler leaves out the stream stops at a quiescent point (R415). -/
opaque skipsStops : Nat → Bool

end Sys2Proof.Config
end

