-- ==== Sys2Proof/WellFormed.lean ====
section
/-! DEFINITION. When an instruction is well formed: what the reference refuses in an operand, beside what the
types already rule out (R110, R120, R123, R224, and each cell entry's own limits). -/

namespace Sys2Proof

/-- Special operand codes (R213); 8-511 are refused. -/
def specialOf (code : Nat) : Option Special :=
  match code with
  | 0 => some .lane | 1 => some .cx | 2 => some .cy | 3 => some .cell
  | 4 => some .parcel | 5 => some .merlo | 6 => some .merhi | 7 => some .ctx
  | _ => none

/-- The code of a special operand (R213). -/
def specialCode : Special → Nat
  | .lane => 0 | .cx => 1 | .cy => 2 | .cell => 3 | .parcel => 4 | .merlo => 5 | .merhi => 6 | .ctx => 7

/-- The register pairs of an `n128` compare-and-swap (R123): rd even and nonzero, rb even. -/
def amoPairOk (rd rb : Reg) : Bool := rd.toNat % 2 = 0 && rd.toNat ≠ 0 && rb.toNat % 2 = 0

namespace CellWord

/-! ### Shapes of operands (R231) -/

/-- A lane register or an output queue. -/
def isRO : Operand → Bool
  | .reg _ | .oq _ => true
  | _ => false
/-- A default source: register, input queue, constant or special. -/
def isSrc : Operand → Bool
  | .reg _ | .iq _ _ | .const _ | .special _ => true
  | _ => false
def isIq : Operand → Bool
  | .iq _ _ => true
  | _ => false
def isIq0 : Operand → Bool
  | .iq _ 0 => true
  | _ => false
def isOq : Operand → Bool
  | .oq _ => true
  | _ => false
def isPred : Operand → Bool
  | .pred _ => true
  | _ => false
def isReg : Operand → Bool
  | .reg _ => true
  | _ => false
def isConst : Operand → Bool
  | .const _ => true
  | _ => false
def isHandle : Operand → Bool
  | .handle _ => true
  | _ => false

/-- Bits `lo + n - 1 : lo` of source C. -/
def cf (w : CellWord) (lo n : Nat) : Nat := (w.c.extractLsb' lo n).toNat

/-- Whether source C, read as an operand field, is a default source (R211, R231). -/
def cIsSrc (w : CellWord) : Bool :=
  match w.cf 9 3 with
  | 0 => w.cf 4 5 = 0
  | 1 => w.cf 5 4 = 0
  | 4 => w.cf 3 6 = 0
  | 6 => w.cf 0 9 < 8
  | _ => false
/-- Whether source C is a selector of `SEL` (R240). -/
def cIsSelector (w : CellWord) : Bool :=
  match w.cf 9 3 with
  | 0 => w.cf 4 5 = 0
  | 1 => w.cf 5 4 = 0
  | 3 => w.cf 3 6 = 0
  | 4 => w.cf 3 6 = 0
  | _ => false

/-- Integer types (R230). -/
def intTy (t : Nat) : Bool := t ∈ [0, 1, 3, 4, 5, 6, 9, 10]
/-- Floating types (R262). -/
def floatTy (t : Nat) : Bool := t ∈ [2, 7, 8]
/-- Element width in bits of types 0-14 (R212, R230, R262). -/
def width (t : Nat) : Nat :=
  if t ∈ [0, 1, 2] then 32 else if t ∈ [3, 4] then 64 else if t ∈ [5, 6, 7, 8] then 16 else 8
/-- Elements in a word of types 0-14. -/
def count (t : Nat) : Nat := 512 / width t
/-- The tag modifier of memory reads: 3-7 for type 15, otherwise 0 (R254). -/
def tagOk (t tag : Nat) : Bool := if t = 15 then 3 ≤ tag && tag ≤ 7 else tag = 0

/-- The parts of `WADP` by direction (R279). -/
def wadpParts (dir : Nat) : Nat :=
  match dir with
  | 0 => 2 | 1 => 1 | 2 => 8 | _ => 5

/-- What each opcode's entry accepts (R224, R229-R292). -/
def ok (op : Nat) (w : CellWord) : Bool :=
  let t := w.ty.toNat
  let rne := w.rnd == .rne
  match op with
  | 0x00 | 0x01 | 0x02 | 0x03 | 0x04 | 0x05 | 0x07 | 0x08 | 0x0B
  | 0x0C | 0x0D | 0x0E | 0x0F | 0x10 | 0x11 | 0x12 | 0x13 =>          -- R235, R236
      intTy t && isRO w.dst && isSrc w.a && isSrc w.b && rne && w.c == 0
  | 0x06 => intTy t && isRO w.dst && isSrc w.a && isSrc w.b && rne && w.cIsSrc
  | 0x09 => t ∈ [0, 3, 5, 9] && isRO w.dst && isSrc w.a && w.b == .none && rne && w.c == 0
  | 0x0A | 0x14 | 0x15 | 0x16 | 0x17 | 0x18 | 0x19 =>                 -- R235-R237
      intTy t && isRO w.dst && isSrc w.a && w.b == .none && rne && w.c == 0
  | 0x1A => intTy t && isRO w.dst && isSrc w.a && w.b == .none && rne && w.cf 0 6 + w.cf 6 6 + 1 ≤ width t
  | 0x1B => intTy t && isRO w.dst && isSrc w.a && isSrc w.b && rne && w.cf 0 6 + w.cf 6 6 + 1 ≤ width t
  | 0x40 => intTy t && (isRO w.dst || isPred w.dst) && isSrc w.a && isSrc w.b && rne &&
      w.cf 0 3 ≤ 5 && w.cf 4 8 = 0 && (isPred w.dst || w.cf 3 1 = 0)  -- R239
  | 0x41 => intTy t && isRO w.dst && isSrc w.a && isSrc w.b && rne && w.cIsSelector
  | 0x42 => t = 0 && isRO w.dst && isSrc w.a && w.b == .none && rne && w.c == 0
  | 0x43 => intTy t && isRO w.dst && w.a == .none && w.b == .none && rne
  | 0x44 => intTy t && isRO w.dst && isSrc w.a && w.b == .none && rne && w.cf 0 6 < count t && w.cf 6 6 = 0
  | 0x45 => intTy t && isRO w.dst && isSrc w.a && isSrc w.b && rne && w.c == 0
  | 0x46 => intTy t && isRO w.dst && isSrc w.a && (isSrc w.b || w.b == .none) && rne &&
      w.cf 0 7 ≤ count t && w.cf 7 5 = 0
  | 0x47 | 0x48 => intTy t && isRO w.dst && isSrc w.a && w.b == .none && rne && w.cf 0 3 ≤ 6 && w.cf 3 9 = 0
  | 0x49 => t ∈ [9, 10] && isRO w.dst && isSrc w.a && isSrc w.b && rne && w.cIsSrc
  | 0x4A => t ∈ [5, 6] && isRO w.dst && isSrc w.a && isSrc w.b && rne && w.cIsSrc
  | 0x4B => t = 0 && isPred w.dst && (isPred w.a || w.a == .none) && (isPred w.b || w.b == .none) && rne &&
      w.cf 4 8 = 0
  | 0x60 => t = 0 && isOq w.dst && isSrc w.a && w.b == .none && rne && w.cf 7 5 = 0 &&
      (if w.cf 1 1 = 1 then w.cf 2 5 ∈ [0, 8] else w.cf 2 5 = 0)      -- R247
  | 0x61 => t = 0 && isRO w.dst && isIq w.a && w.b == .none && rne && w.c == 0 && !w.pop
  | 0x62 => t = 0 && ((isIq0 w.a && w.dst == .none) || (isOq w.dst && w.a == .none)) && w.b == .none && rne &&
      1 ≤ w.cf 0 4 && w.cf 0 4 ≤ 8 && w.cf 4 8 = 0 && !w.pop
  | 0x63 => t = 1 && isReg w.dst && isIq w.a && w.b == .none && rne && w.c == 0
  | 0x64 => t = 1 && isRO w.dst && w.a == .none && w.b == .none && rne && w.c == 0
  | 0x65 => isRO w.dst && rne && tagOk t (w.cf 3 3) && w.cf 6 6 = 0 &&
      (if isHandle w.a then (isSrc w.b || w.b == .none) && w.cf 0 3 = 0
       else isSrc w.a && w.b == .none && w.cf 0 3 ≤ 6)                -- R254
  | 0x66 => w.dst == .ap && isSrc w.a && isSrc w.b && rne && w.cf 0 3 ≤ 6 && w.cf 3 9 = 0
  | 0x67 => isOq w.dst && isSrc w.a && isSrc w.b && rne && w.cf 0 3 ≤ 6 && tagOk t (w.cf 6 3) && w.cf 9 3 = 0
  | 0x68 => t ∈ [0, 1, 3, 4] && (isRO w.dst || w.dst == .ap) && isSrc w.a && isSrc w.b && rne &&
      w.cf 0 3 ≤ 6 && w.cf 6 6 = 0
  | 0x69 => isRO w.dst && isSrc w.a && isSrc w.b && rne && w.cf 0 3 ≤ 6 && tagOk t (w.cf 3 3) && w.cf 7 5 = 0
  | 0x6A => (isRO w.dst || w.dst == .ap) && isSrc w.a && isSrc w.b && rne && w.cf 0 3 ≤ 6 &&
      w.cf 3 3 = 0 && w.cf 7 5 = 0
  | 0x80 | 0x81 | 0x82 => floatTy t && isRO w.dst && isSrc w.a && isSrc w.b && w.c == 0
  | 0x83 => floatTy t && isRO w.dst && isSrc w.a && isSrc w.b && w.cIsSrc
  | 0x84 | 0x85 => floatTy t && isRO w.dst && isSrc w.a && isSrc w.b && rne && w.c == 0
  | 0x86 | 0x87 => floatTy t && isRO w.dst && isSrc w.a && w.b == .none && rne && w.c == 0
  | 0x88 => floatTy t && (isRO w.dst || isPred w.dst) && isSrc w.a && isSrc w.b && rne && w.cf 4 8 = 0 &&
      (isPred w.dst || w.cf 3 1 = 0)
  | 0x89 | 0x8A | 0x8B | 0x8C | 0x8D | 0x8E | 0x8F | 0x90 | 0x91 =>
      floatTy t && isRO w.dst && isSrc w.a && w.b == .none && w.c == 0
  | 0x92 => floatTy t && (isRO w.dst || isPred w.dst) && isSrc w.a && w.b == .none && rne && w.cf 11 1 = 0 &&
      (isPred w.dst || w.cf 10 1 = 0)
  | 0x93 | 0x94 => floatTy t && isRO w.dst && isSrc w.a && w.b == .none && w.cf 0 2 ≤ 2 && w.cf 2 10 = 0 &&
      (w.cf 0 2 = 0 || rne)
  | 0x95 => t ∈ [0, 1, 2] && isReg w.dst && isSrc w.a && isSrc w.b && rne && w.cf 5 7 = 0
  | 0x96 =>                                                           -- R274
      let st := w.cf 0 4
      t ≤ 14 && st ≤ 14 && t ≠ st && isRO w.dst && isSrc w.a && w.cf 7 5 = 0 &&
      w.cf 4 3 < (max (count st) (count t)) / (min (count st) (count t)) &&
      (if count st < count t then isSrc w.b || w.b == .none else w.b == .none)
  | 0xC0 => t = 15 && isReg w.dst && isSrc w.a && (isSrc w.b || w.b == .none) && w.cf 8 4 = 0 &&
      w.cf 6 2 ≠ 3 && w.cf 2 2 ≠ 3 && (w.cf 2 2 = 0 || w.cf 4 2 ≠ 3)
  | 0xC1 => t = 2 && isRO w.dst && isSrc w.a && w.b == .none && rne && w.cf 3 9 = 0
  | 0xC2 => t = 15 && isRO w.dst && isSrc w.a && rne && w.cf 0 2 ≠ 3 && w.cf 4 8 = 0 &&
      (w.cf 0 2 = 1 || w.cf 2 2 = 0) && (if w.cf 0 2 = 0 then w.b == .none else isSrc w.b)
  | 0xC3 => t = 15 && isRO w.dst && isIq0 w.a && w.b == .none && w.cf 7 5 = 0 &&
      w.cf 0 3 < wadpParts (w.cf 3 2) && (w.cf 3 2 ≠ 0 || (w.cf 5 2 = 0 && rne)) &&
      (w.cf 3 2 ≠ 2 || w.cf 5 2 ≠ 3)
  | 0xE0 => t = 0 && isOq w.dst && isIq0 w.a && isIq0 w.b && rne && w.cf 3 9 = 0 && !w.pop
  | 0xE1 => t ≤ 14 && isOq w.dst && isSrc w.a && (isConst w.b || w.b == .none) && rne && w.cf 6 6 = 0
  | 0xE2 => t = 0 && isOq w.dst && isIq0 w.a && isIq0 w.b && rne && w.c == 0 && !w.pop
  | 0xE3 => t = 0 && isOq w.dst && isSrc w.a && (isPred w.b || isReg w.b || isIq w.b || isConst w.b) && rne &&
      w.cf 2 10 = 0
  | 0xE4 => t = 0 && isOq w.dst && isSrc w.a && w.b == .none && rne && w.cf 3 9 = 0
  | 0xE5 => t = 0 && isRO w.dst && isSrc w.a && w.b == .none && rne && w.cf 0 2 ≤ 1 && w.cf 2 10 = 0
  | 0xE6 => t = 0 && isOq w.dst && isSrc w.a && w.b == .none && rne && w.cf 0 3 ≤ 6 && w.cf 4 8 = 0
  | 0xE7 => t = 0 && isOq w.dst && isIq0 w.a && w.b == .none && rne && w.cf 6 6 = 0 && !w.pop
  | 0xE8 => t = 0 && w.dst == .ap && isSrc w.a && isSrc w.b && rne && w.c == 0
  | 0xE9 => t = 15 && isOq w.dst && isSrc w.a && w.b == .none && rne && w.cf 9 3 = 0
  | 0xEA => t = 15 && w.dst == .none && isSrc w.a && w.b == .none && rne && w.c == 0
  | 0xEB => t = 0 && isOq w.dst && w.a == .none && w.b == .none && rne && w.c == 0
  | 0xEC => t = 0 && w.dst == .none && w.a == .none && w.b == .none && rne && w.c == 0
  | 0xED => t = 0 && w.dst == .none && w.a == .none && w.b == .none && rne && w.c ≠ 0
  | 0xEE => t = 0 && w.dst == .none && (isIq w.a || w.a == .none) && w.b == .none && rne && w.c == 0
  | _ => false

end CellWord

/-- Well-formedness of every row. The types rule out the other refusals of the Surveyor's words; the part's own
steps take any arguments. -/
def Instr.wellFormed : Instr → Bool
  | .ldvGe _ _ _ sx size _ => !(sx && size == 3)
  | .ldvEq _ _ _ sx size _ => !(sx && size == 3)
  | .amoAdd _ _ _ wd _ => wd != .n128
  | .amoSwp _ _ _ wd _ => wd != .n128
  | .amoCas rd _ rb wd _ => wd != .n128 || amoPairOk rd rb
  | .amoMin _ _ _ wd _ => wd != .n128
  | .amoMax _ _ _ wd _ => wd != .n128
  | .amoMinn _ _ _ wd _ => wd != .n128
  | .amoMaxn _ _ _ wd _ => wd != .n128
  | .amoAnd _ _ _ wd _ => wd != .n128
  | .amoOr _ _ _ wd _ => wd != .n128
  | .amoXor _ _ _ wd _ => wd != .n128
  | .iadd w => CellWord.ok 0x00 w
  | .isub w => CellWord.ok 0x01 w
  | .iadds w => CellWord.ok 0x02 w
  | .isubs w => CellWord.ok 0x03 w
  | .imul w => CellWord.ok 0x04 w
  | .imulh w => CellWord.ok 0x05 w
  | .imad w => CellWord.ok 0x06 w
  | .imin w => CellWord.ok 0x07 w
  | .imax w => CellWord.ok 0x08 w
  | .iabs w => CellWord.ok 0x09 w
  | .ineg w => CellWord.ok 0x0a w
  | .iavg w => CellWord.ok 0x0b w
  | .shl w => CellWord.ok 0x0c w
  | .shr w => CellWord.ok 0x0d w
  | .sar w => CellWord.ok 0x0e w
  | .rot w => CellWord.ok 0x0f w
  | .cellAnd w => CellWord.ok 0x10 w
  | .cellOr w => CellWord.ok 0x11 w
  | .cellXor w => CellWord.ok 0x12 w
  | .andn w => CellWord.ok 0x13 w
  | .not w => CellWord.ok 0x14 w
  | .cellClz w => CellWord.ok 0x15 w
  | .cellCtz w => CellWord.ok 0x16 w
  | .ffs w => CellWord.ok 0x17 w
  | .cellPopc w => CellWord.ok 0x18 w
  | .brev w => CellWord.ok 0x19 w
  | .bfx w => CellWord.ok 0x1a w
  | .bfi w => CellWord.ok 0x1b w
  | .icmp w => CellWord.ok 0x40 w
  | .sel w => CellWord.ok 0x41 w
  | .mov w => CellWord.ok 0x42 w
  | .movc w => CellWord.ok 0x43 w
  | .bcst w => CellWord.ok 0x44 w
  | .lprm w => CellWord.ok 0x45 w
  | .lshf w => CellWord.ok 0x46 w
  | .redi w => CellWord.ok 0x47 w
  | .scni w => CellWord.ok 0x48 w
  | .dot4 w => CellWord.ok 0x49 w
  | .dot2 w => CellWord.ok 0x4a w
  | .kop w => CellWord.ok 0x4b w
  | .enq w => CellWord.ok 0x60 w
  | .deq w => CellWord.ok 0x61 w
  | .adv w => CellWord.ok 0x62 w
  | .peek w => CellWord.ok 0x63 w
  | .qstat w => CellWord.ok 0x64 w
  | .cellLd w => CellWord.ok 0x65 w
  | .cellSt w => CellWord.ok 0x66 w
  | .walk w => CellWord.ok 0x67 w
  | .atom w => CellWord.ok 0x68 w
  | .cellLdv w => CellWord.ok 0x69 w
  | .cellStv w => CellWord.ok 0x6a w
  | .fadd w => CellWord.ok 0x80 w
  | .fsub w => CellWord.ok 0x81 w
  | .fmul w => CellWord.ok 0x82 w
  | .ffma w => CellWord.ok 0x83 w
  | .fmin w => CellWord.ok 0x84 w
  | .fmax w => CellWord.ok 0x85 w
  | .fabs w => CellWord.ok 0x86 w
  | .fneg w => CellWord.ok 0x87 w
  | .fcmp w => CellWord.ok 0x88 w
  | .frcp w => CellWord.ok 0x89 w
  | .frsq w => CellWord.ok 0x8a w
  | .fsqrt w => CellWord.ok 0x8b w
  | .fexp2 w => CellWord.ok 0x8c w
  | .flog2 w => CellWord.ok 0x8d w
  | .ftanh w => CellWord.ok 0x8e w
  | .fsigm w => CellWord.ok 0x8f w
  | .fsinp w => CellWord.ok 0x90 w
  | .frnd w => CellWord.ok 0x91 w
  | .fcls w => CellWord.ok 0x92 w
  | .redf w => CellWord.ok 0x93 w
  | .scnf w => CellWord.ok 0x94 w
  | .topk w => CellWord.ok 0x95 w
  | .cvt w => CellWord.ok 0x96 w
  | .bq w => CellWord.ok 0xc0 w
  | .bdq w => CellWord.ok 0xc1 w
  | .sclb w => CellWord.ok 0xc2 w
  | .wadp w => CellWord.ok 0xc3 w
  | .gate w => CellWord.ok 0xe0 w
  | .dly w => CellWord.ok 0xe1 w
  | .mrg w => CellWord.ok 0xe2 w
  | .str w => CellWord.ok 0xe3 w
  | .tag w => CellWord.ok 0xe4 w
  | .proj w => CellWord.ok 0xe5 w
  | .widn w => CellWord.ok 0xe6 w
  | .hin w => CellWord.ok 0xe7 w
  | .hout w => CellWord.ok 0xe8 w
  | .rdon w => CellWord.ok 0xe9 w
  | .rrte w => CellWord.ok 0xea w
  | .pois w => CellWord.ok 0xeb w
  | .halt w => CellWord.ok 0xec w
  | .trap w => CellWord.ok 0xed w
  | .nop w => CellWord.ok 0xee w
  | _ => true

end Sys2Proof
end

