-- ==== Sys2Proof/Decode.lean ====
section
/-! DEFINITION. The decoder, total on any word and refusing by name, and the encoder written from the same
tables (R108-R111, R115-R136, R210-R215 and the engine chapters). -/

namespace Sys2Proof

/-- Why a Surveyor or cell word is refused (R110, R224). -/
inductive DecodeError where
  | unassignedMajor | unassignedFunction | unassignedEngine | badScope | unusedField | badOperand
  | unassignedOpcode | badRounding | illFormed
  deriving DecidableEq, Repr

namespace Decode

/-! ### Fields and codes -/

/-- Bits `lo + n - 1 : lo` of a word. -/
def fld {w : Nat} (x : BitVec w) (lo n : Nat) : BitVec n := x.extractLsb' lo n

/-- Scope codes (R108); 7-15 name no scope. -/
def scopeOf (code : Nat) : Option Scope :=
  match code with
  | 0 => some .c | 1 => some .p | 2 => some .s | 3 => some .q | 4 => some .v | 5 => some .d | 6 => some .y
  | _ => none

/-- The code of a scope (R108). -/
def scopeCode : Scope → Nat
  | .c => 0 | .p => 1 | .s => 2 | .q => 3 | .v => 4 | .d => 5 | .y => 6

/-- Size codes of `AMO` (R123). -/
def amoWidthOf (code : Nat) : Option AmoWidth :=
  match code with
  | 0 => some .n32 | 1 => some .n64 | 2 => some .n128 | _ => none

/-- The code of an `AMO` size (R123). -/
def amoWidthCode : AmoWidth → Nat
  | .n32 => 0 | .n64 => 1 | .n128 => 2

/-! ### Formats: each reads its fields and hands them to a constructor -/

/-- Format R with all three registers and every other field fixed. -/
def rrr (w : BitVec 32) (k : Reg → Reg → Reg → Instr) : Except DecodeError Instr :=
  .ok (k (fld w 21 5) (fld w 16 5) (fld w 11 5))

/-- Format R with rb unused. -/
def rr (w : BitVec 32) (k : Reg → Reg → Instr) : Except DecodeError Instr :=
  if fld w 11 5 = 0 then .ok (k (fld w 21 5) (fld w 16 5)) else .error .unusedField

/-- Format R with rd unused. -/
def rab (w : BitVec 32) (k : Reg → Reg → Instr) : Except DecodeError Instr :=
  if fld w 21 5 = 0 then .ok (k (fld w 16 5) (fld w 11 5)) else .error .unusedField

/-- Format I. -/
def immI (w : BitVec 32) (k : Reg → Reg → BitVec 16 → Instr) : Except DecodeError Instr :=
  .ok (k (fld w 21 5) (fld w 16 5) (fld w 0 16))

/-- Format I holding a shift count: bits 15:6 must be 0 (R117). -/
def immSh (w : BitVec 32) (k : Reg → Reg → BitVec 6 → Instr) : Except DecodeError Instr :=
  if fld w 6 10 = 0 then .ok (k (fld w 21 5) (fld w 16 5) (fld w 0 6)) else .error .unusedField

/-- Format M (R108): a scope code of 7-15 is illegal (R110). -/
def fmtM (w : BitVec 32) (k : Reg → Reg → Scope → BitVec 12 → Instr) : Except DecodeError Instr :=
  match scopeOf (fld w 12 4).toNat with
  | some sc => .ok (k (fld w 21 5) (fld w 16 5) sc (fld w 0 12))
  | none => .error .badScope

/-- Format B. -/
def fmtB (w : BitVec 32) (k : Reg → Reg → BitVec 16 → Instr) : Except DecodeError Instr :=
  .ok (k (fld w 21 5) (fld w 16 5) (fld w 0 16))

/-- Format E with the three registers. -/
def eng3 (w : BitVec 32) (k : Reg → Reg → Reg → Instr) : Except DecodeError Instr :=
  .ok (k (fld w 17 5) (fld w 12 5) (fld w 7 5))

/-- Format E with rb unused. -/
def engDA (w : BitVec 32) (k : Reg → Reg → Instr) : Except DecodeError Instr :=
  if fld w 7 5 = 0 then .ok (k (fld w 17 5) (fld w 12 5)) else .error .unusedField

/-- Format E with rd unused. -/
def engAB (w : BitVec 32) (k : Reg → Reg → Instr) : Except DecodeError Instr :=
  if fld w 17 5 = 0 then .ok (k (fld w 12 5) (fld w 7 5)) else .error .unusedField

/-- Format E with only ra used. -/
def engA (w : BitVec 32) (k : Reg → Instr) : Except DecodeError Instr :=
  if fld w 17 5 = 0 ∧ fld w 7 5 = 0 then .ok (k (fld w 12 5)) else .error .unusedField

/-! ### The majors -/

/-- Major 0x01 (R115). -/
def arith (w : BitVec 32) : Except DecodeError Instr :=
  match (fld w 0 11).toNat with
  | 0x000 => rrr w .add
  | 0x001 => rrr w .sub
  | 0x002 => rrr w .mul
  | 0x003 => rrr w .mulh
  | 0x004 => rrr w .mulhn
  | 0x005 => rrr w .div
  | 0x006 => rrr w .divn
  | 0x007 => rrr w .rem
  | 0x008 => rrr w .remn
  | 0x010 => rrr w .and
  | 0x011 => rrr w .or
  | 0x012 => rrr w .xor
  | 0x018 => rrr w .sll
  | 0x019 => rrr w .srl
  | 0x01a => rrr w .sra
  | 0x020 => rrr w .slt
  | 0x021 => rrr w .sltn
  | 0x022 => rrr w .min
  | 0x023 => rrr w .max
  | 0x024 => rrr w .minn
  | 0x025 => rrr w .maxn
  | 0x030 => rr w .clz
  | 0x031 => rr w .ctz
  | 0x032 => rr w .popc
  | _ => .error .unassignedFunction

/-- Major 0x02 (R128-R132). -/
def task (w : BitVec 32) : Except DecodeError Instr :=
  match (fld w 0 11).toNat with
  | 0x000 => rrr w .post
  | 0x001 => rrr w .bindl
  | 0x002 => rrr w .armt
  | 0x003 => rr w .armb
  | 0x004 => rr w .arms
  | 0x005 => if fld w 11 15 = 0 then .ok .endt else .error .unusedField
  | 0x006 => rab w .chp
  | _ => .error .unassignedFunction

/-- `FENCE` functions: 0x100 + kind * 16 + scope (R125). -/
def fence (w : BitVec 32) : Except DecodeError Instr :=
  if fld w 11 15 = 0 then
    match scopeOf (fld w 0 4).toNat, (fld w 4 4).toNat with
    | some sc, 0 => .ok (.fence sc)
    | some sc, 1 => .ok (.fenceAcq sc)
    | some sc, 2 => .ok (.fenceRel sc)
    | none, _ => .error .badScope
    | _, _ => .error .unassignedFunction
  else .error .unusedField

/-- Major 0x03 (R134). -/
def system (w : BitVec 32) : Except DecodeError Instr :=
  match (fld w 0 11).toNat with
  | 0x000 => rab w .ecall
  | 0x001 => if fld w 11 15 = 0 then .ok .tret else .error .unusedField
  | 0x002 => if fld w 11 10 = 0 then .ok (.merid (fld w 21 5)) else .error .unusedField
  | f => if f / 256 = 1 then fence w else .error .unassignedFunction

/-- Major 0x24, `LDV` (R120). -/
def ldv (w : BitVec 32) : Except DecodeError Instr :=
  if fld w 9 2 = 0 ∧ fld w 6 1 = 0 then
    match scopeOf (fld w 0 4).toNat with
    | some sc =>
      if fld w 7 1 = 1 ∧ fld w 4 2 = 3 then .error .badOperand
      else if fld w 8 1 = 0
        then .ok (.ldvGe (fld w 21 5) (fld w 16 5) (fld w 11 5) (fld w 7 1 == 1) (fld w 4 2) sc)
        else .ok (.ldvEq (fld w 21 5) (fld w 16 5) (fld w 11 5) (fld w 7 1 == 1) (fld w 4 2) sc)
    | none => .error .badScope
  else .error .unassignedFunction

/-- Major 0x25, `STV` (R121). -/
def stv (w : BitVec 32) : Except DecodeError Instr :=
  if fld w 9 2 = 0 ∧ fld w 6 2 = 0 then
    match scopeOf (fld w 0 4).toNat with
    | some sc =>
      if fld w 8 1 = 0
        then .ok (.stv (fld w 21 5) (fld w 16 5) (fld w 11 5) (fld w 4 2) sc)
        else .ok (.stvKeep (fld w 21 5) (fld w 16 5) (fld w 11 5) (fld w 4 2) sc)
    | none => .error .badScope
  else .error .unassignedFunction

/-- Major 0x27, `AMO` (R123). -/
def amo (w : BitVec 32) : Except DecodeError Instr :=
  if fld w 10 1 = 0 then
    match scopeOf (fld w 0 4).toNat, amoWidthOf (fld w 4 2).toNat with
    | some sc, some wd =>
      let rd : Reg := fld w 21 5
      let ra : Reg := fld w 16 5
      let rb : Reg := fld w 11 5
      if wd = .n128 ∧ ¬ ((fld w 6 4).toNat = 2 ∧ amoPairOk rd rb) then .error .badOperand
      else match (fld w 6 4).toNat with
      | 0 => .ok (.amoAdd rd ra rb wd sc)
      | 1 => .ok (.amoSwp rd ra rb wd sc)
      | 2 => .ok (.amoCas rd ra rb wd sc)
      | 3 => .ok (.amoMin rd ra rb wd sc)
      | 4 => .ok (.amoMax rd ra rb wd sc)
      | 5 => .ok (.amoMinn rd ra rb wd sc)
      | 6 => .ok (.amoMaxn rd ra rb wd sc)
      | 7 => .ok (.amoAnd rd ra rb wd sc)
      | 8 => .ok (.amoOr rd ra rb wd sc)
      | 9 => .ok (.amoXor rd ra rb wd sc)
      | _ => .error .unassignedFunction
    | none, _ => .error .badScope
    | _, none => .error .badOperand
  else .error .unassignedFunction

/-- Major 0x3E: the engine in bits 25:22 and its function in 6:0 (R111). -/
def engine (w : BitVec 32) : Except DecodeError Instr :=
  match (fld w 22 4).toNat, (fld w 0 7).toNat with
  | 0, 0x00 => engAB w .stnInit
  | 0, 0x01 => engA w .stnArv
  | 0, 0x02 => engAB w .stnExp
  | 0, 0x03 => engA w .stnDone
  | 0, 0x04 => engDA w .stnTest
  | 1, 0x00 => eng3 w .trvCopy
  | 1, 0x01 => eng3 w .trvGath
  | 1, 0x02 => eng3 w .trvScat
  | 1, 0x03 => eng3 w .trvRed
  | 1, 0x04 => eng3 w .trvFill
  | 1, 0x05 => eng3 w .trvFeed
  | 1, 0x06 => engA w .trvFollow
  | 1, 0x07 => engDA w .trvPub
  | 1, 0x08 => eng3 w .trvXst
  | 1, 0x09 => engA w .trvCanc
  | 1, 0x0a => engDA w .trvStat
  | 2, 0x00 => engAB w .bufSet
  | 2, 0x01 => engA w .bufFree
  | 2, 0x02 => engDA w .bufStat
  | 3, 0x00 => engDA w .endMake
  | 3, 0x01 => eng3 w .endBind
  | 3, 0x02 => engA w .endClose
  | 3, 0x03 => engDA w .endStat
  | 4, 0x00 => eng3 w .grLdw
  | 4, 0x01 => eng3 w .grMm
  | 4, 0x02 => eng3 w .grScan
  | 4, 0x03 => eng3 w .grDrn
  | 4, 0x04 => engA w .grZero
  | 4, 0x05 => eng3 w .grSave
  | 4, 0x06 => eng3 w .grRest
  | 4, 0x07 => engDA w .grStat
  | 5, 0x00 => eng3 w .twSeek
  | 5, 0x01 => engDA w .twRead
  | 5, 0x02 => eng3 w .twEnc
  | 5, 0x03 => engDA w .twStat
  | 6, 0x00 => engA w .cpOpen
  | 6, 0x01 => engAB w .cpOper
  | 6, 0x02 => engA w .cpExpl
  | 6, 0x03 => engDA w .cpObs
  | 6, 0x04 => engA w .cpFix
  | 6, 0x05 => engAB w .cpJoin
  | 6, 0x06 => engA w .cpClose
  | 7, 0x00 => eng3 w .scrOpen
  | 7, 0x01 => engDA w .scrCnt
  | 8, 0x00 => eng3 w .segName
  | 8, 0x01 => eng3 w .segAtt
  | 8, 0x02 => engA w .segDet
  | 8, 0x03 => engAB w .segPin
  | 8, 0x04 => engAB w .segEvt
  | 8, 0x05 => engA w .segDrop
  | 8, 0x06 => engDA w .segStat
  | 9, 0x00 => engAB w .projInv
  | 9, 0x01 => eng3 w .projProbe
  | 9, 0x02 => engAB w .pageDup
  | 10, 0x00 => engAB w .sndSet
  | 10, 0x01 => engDA w .sndOut
  | 10, 0x02 => engDA w .sndIn
  | 10, 0x03 => engDA w .sndStat
  | 11, 0x00 => engAB w .qKick
  | 12, 0x00 => eng3 w .strmIn
  | 12, 0x01 => eng3 w .strmOut
  | 12, 0x02 => engA w .strmBar
  | 12, 0x03 => engA w .strmStop
  | 12, 0x04 => engDA w .strmStat
  | e, _ => if e < 13 then .error .unassignedFunction else .error .unassignedEngine

/-- A Surveyor word (R109, R110). -/
def surveyor (w : BitVec 32) : Except DecodeError Instr :=
  match (fld w 26 6).toNat with
  | 0x01 => arith w
  | 0x02 => task w
  | 0x03 => system w
  | 0x04 => if fld w 16 5 = 0 then .ok (.csrr (fld w 21 5) (fld w 0 16)) else .error .unusedField
  | 0x05 => immI w .csrw
  | 0x06 => immI w .csrs
  | 0x07 => immI w .csrc
  | 0x08 => immI w .addImmediate
  | 0x09 => immI w .andImmediate
  | 0x0a => immI w .orImmediate
  | 0x0b => immI w .xorImmediate
  | 0x0c => immSh w .sllImmediate
  | 0x0d => immSh w .srlImmediate
  | 0x0e => immSh w .sraImmediate
  | 0x0f => immI w .sltImmediate
  | 0x10 => immI w .sltnImmediate
  | 0x11 => immI w .mulImmediate
  | 0x12 => immI w .lih
  | 0x18 => fmtM w .ldS8
  | 0x19 => fmtM w .ldN8
  | 0x1a => fmtM w .ldS16
  | 0x1b => fmtM w .ldN16
  | 0x1c => fmtM w .ldS32
  | 0x1d => fmtM w .ldN32
  | 0x1e => fmtM w .ldN64
  | 0x20 => fmtM w .stN8
  | 0x21 => fmtM w .stN16
  | 0x22 => fmtM w .stN32
  | 0x23 => fmtM w .stN64
  | 0x24 => ldv w
  | 0x25 => stv w
  | 0x26 => if fld w 0 11 = 0 then rrr w .reclaim else .error .unassignedFunction
  | 0x27 => amo w
  | 0x28 => if fld w 21 5 = 0 then fmtM w (fun _ ra sc off => .pref ra sc off) else .error .unusedField
  | 0x30 => fmtB w .beq
  | 0x31 => fmtB w .bne
  | 0x32 => fmtB w .blt
  | 0x33 => fmtB w .bge
  | 0x34 => fmtB w .bltn
  | 0x35 => fmtB w .bgen
  | 0x36 => .ok (.jal (fld w 21 5) (fld w 0 21))
  | 0x37 => immI w .jalr
  | 0x3E => engine w
  | _ => .error .unassignedMajor

/-! ### Cell operation words -/

/-- An operand field (R211); index bits that the kind does not list must be 0. -/
def operandOf (x : BitVec 12) : Option Operand :=
  match (fld x 9 3).toNat with
  | 0 => if fld x 4 5 = 0 then some (.reg (fld x 0 4)) else none
  | 1 => if fld x 5 4 = 0 then some (.iq (fld x 0 2) (fld x 2 3)) else none
  | 2 => if fld x 2 7 = 0 then some (.oq (fld x 0 2)) else none
  | 3 => if fld x 3 6 = 0 then some (.pred (fld x 0 3)) else none
  | 4 => if fld x 3 6 = 0 then some (.const (fld x 0 3)) else none
  | 5 => if fld x 8 1 = 0 then (if fld x 0 8 = 0 then some .ap else none)
         else (if fld x 7 1 = 0 then some (.handle (fld x 0 7)) else none)
  | 6 => (specialOf (fld x 0 9).toNat).map .special
  | _ => if fld x 0 9 = 0 then some .none else none

/-- Rounding codes (R45); 101-111 are reserved. -/
def roundingOf (code : Nat) : Option Rounding :=
  match code with
  | 0 => some .rne | 1 => some .rz | 2 => some .ru | 3 => some .rd | 4 => some .rs | _ => none

/-- The code of a rounding mode (R45). -/
def roundingCode : Rounding → Nat
  | .rne => 0 | .rz => 1 | .ru => 2 | .rd => 3 | .rs => 4

/-- The constructor of a cell opcode (R215). -/
def ofOpcode (op : Nat) (w : CellWord) : Option Instr :=
  match op with
  | 0x00 => some (.iadd w)
  | 0x01 => some (.isub w)
  | 0x02 => some (.iadds w)
  | 0x03 => some (.isubs w)
  | 0x04 => some (.imul w)
  | 0x05 => some (.imulh w)
  | 0x06 => some (.imad w)
  | 0x07 => some (.imin w)
  | 0x08 => some (.imax w)
  | 0x09 => some (.iabs w)
  | 0x0a => some (.ineg w)
  | 0x0b => some (.iavg w)
  | 0x0c => some (.shl w)
  | 0x0d => some (.shr w)
  | 0x0e => some (.sar w)
  | 0x0f => some (.rot w)
  | 0x10 => some (.cellAnd w)
  | 0x11 => some (.cellOr w)
  | 0x12 => some (.cellXor w)
  | 0x13 => some (.andn w)
  | 0x14 => some (.not w)
  | 0x15 => some (.cellClz w)
  | 0x16 => some (.cellCtz w)
  | 0x17 => some (.ffs w)
  | 0x18 => some (.cellPopc w)
  | 0x19 => some (.brev w)
  | 0x1a => some (.bfx w)
  | 0x1b => some (.bfi w)
  | 0x40 => some (.icmp w)
  | 0x41 => some (.sel w)
  | 0x42 => some (.mov w)
  | 0x43 => some (.movc w)
  | 0x44 => some (.bcst w)
  | 0x45 => some (.lprm w)
  | 0x46 => some (.lshf w)
  | 0x47 => some (.redi w)
  | 0x48 => some (.scni w)
  | 0x49 => some (.dot4 w)
  | 0x4a => some (.dot2 w)
  | 0x4b => some (.kop w)
  | 0x60 => some (.enq w)
  | 0x61 => some (.deq w)
  | 0x62 => some (.adv w)
  | 0x63 => some (.peek w)
  | 0x64 => some (.qstat w)
  | 0x65 => some (.cellLd w)
  | 0x66 => some (.cellSt w)
  | 0x67 => some (.walk w)
  | 0x68 => some (.atom w)
  | 0x69 => some (.cellLdv w)
  | 0x6a => some (.cellStv w)
  | 0x80 => some (.fadd w)
  | 0x81 => some (.fsub w)
  | 0x82 => some (.fmul w)
  | 0x83 => some (.ffma w)
  | 0x84 => some (.fmin w)
  | 0x85 => some (.fmax w)
  | 0x86 => some (.fabs w)
  | 0x87 => some (.fneg w)
  | 0x88 => some (.fcmp w)
  | 0x89 => some (.frcp w)
  | 0x8a => some (.frsq w)
  | 0x8b => some (.fsqrt w)
  | 0x8c => some (.fexp2 w)
  | 0x8d => some (.flog2 w)
  | 0x8e => some (.ftanh w)
  | 0x8f => some (.fsigm w)
  | 0x90 => some (.fsinp w)
  | 0x91 => some (.frnd w)
  | 0x92 => some (.fcls w)
  | 0x93 => some (.redf w)
  | 0x94 => some (.scnf w)
  | 0x95 => some (.topk w)
  | 0x96 => some (.cvt w)
  | 0xc0 => some (.bq w)
  | 0xc1 => some (.bdq w)
  | 0xc2 => some (.sclb w)
  | 0xc3 => some (.wadp w)
  | 0xe0 => some (.gate w)
  | 0xe1 => some (.dly w)
  | 0xe2 => some (.mrg w)
  | 0xe3 => some (.str w)
  | 0xe4 => some (.tag w)
  | 0xe5 => some (.proj w)
  | 0xe6 => some (.widn w)
  | 0xe7 => some (.hin w)
  | 0xe8 => some (.hout w)
  | 0xe9 => some (.rdon w)
  | 0xea => some (.rrte w)
  | 0xeb => some (.pois w)
  | 0xec => some (.halt w)
  | 0xed => some (.trap w)
  | 0xee => some (.nop w)
  | _ => none

/-- A cell operation word (R210, R215, R224): unassigned opcodes, reserved roundings and operands that the
entry does not accept are refused. -/
def cell (w : BitVec 64) : Except DecodeError Instr :=
  match roundingOf (fld w 13 3).toNat, operandOf (fld w 40 12), operandOf (fld w 28 12), operandOf (fld w 16 12) with
  | some r, some d, some a, some b =>
    let cw : CellWord := ⟨fld w 52 4, d, a, b, r, fld w 12 1 == 1, fld w 0 12⟩
    match ofOpcode (fld w 56 8).toNat cw with
    | some i => if i.wellFormed then .ok i else .error .illFormed
    | none => .error .unassignedOpcode
  | none, _, _, _ => .error .badRounding
  | _, _, _, _ => .error .badOperand

/-! ### Byte order -/

/-- The number that little-endian bytes hold (R2). -/
def leNat : List Byte → Nat
  | [] => 0
  | b :: bs => b.toNat + 256 * leNat bs

/-- The `n` little-endian bytes of a number (R2). -/
def leBytes : Nat → Nat → List Byte
  | 0, _ => []
  | n + 1, x => BitVec.ofNat 8 x :: leBytes n (x / 256)

/-- The instruction in the bytes of one Surveyor word (R89). -/
def bytes32 (bs : List Byte) : Except DecodeError Instr := surveyor (BitVec.ofNat 32 (leNat bs))

/-- The instruction in the bytes of one operation word (R219). -/
def bytes64 (bs : List Byte) : Except DecodeError Instr := cell (BitVec.ofNat 64 (leNat bs))

end Decode

/-- The instruction of a word numbered as the opcode table numbers it: up to 32 bits a Surveyor word, more a
cell operation word. -/
def decodeTableWord (nbits w : Nat) : Option Instr :=
  if nbits ≤ 32 then (Decode.bytes32 (Decode.leBytes 4 w)).toOption
  else (Decode.bytes64 (Decode.leBytes 8 w)).toOption

/-! ### The encoder -/

namespace Encode

/-- Format R. -/
def r (major : BitVec 6) (rd ra rb : Reg) (f : BitVec 11) : BitVec 32 := major ++ rd ++ ra ++ rb ++ f
/-- Format I. -/
def i (major : BitVec 6) (rd ra : Reg) (imm : BitVec 16) : BitVec 32 := major ++ rd ++ ra ++ imm
/-- Format J. -/
def j (major : BitVec 6) (rd : Reg) (off : BitVec 21) : BitVec 32 := major ++ rd ++ off
/-- Format M. -/
def m (major : BitVec 6) (rd ra : Reg) (sc : Scope) (off : BitVec 12) : BitVec 32 :=
  major ++ rd ++ ra ++ BitVec.ofNat 4 (Decode.scopeCode sc) ++ off
/-- Format E. -/
def e (eng : BitVec 4) (rd ra rb : Reg) (f : BitVec 7) : BitVec 32 := 0x3E#6 ++ eng ++ rd ++ ra ++ rb ++ f
/-- Function field of `LDV` and `STV` (R120, R121). -/
def vf (b8 b7 : Bool) (size : BitVec 2) (sc : Scope) : BitVec 11 :=
  0#2 ++ BitVec.ofBool b8 ++ BitVec.ofBool b7 ++ 0#1 ++ size ++ BitVec.ofNat 4 (Decode.scopeCode sc)
/-- Function field of `AMO` (R123). -/
def af (op : BitVec 4) (wd : AmoWidth) (sc : Scope) : BitVec 11 :=
  0#1 ++ op ++ BitVec.ofNat 2 (Decode.amoWidthCode wd) ++ BitVec.ofNat 4 (Decode.scopeCode sc)
/-- Function field of `FENCE` (R125). -/
def ff (kind : BitVec 2) (sc : Scope) : BitVec 11 := 1#3 ++ 0#2 ++ kind ++ BitVec.ofNat 4 (Decode.scopeCode sc)

/-- An operand field (R211). -/
def operand : Operand → BitVec 12
  | .reg n => 0#3 ++ 0#5 ++ n
  | .iq q w => 1#3 ++ 0#4 ++ w ++ q
  | .oq q => 2#3 ++ 0#7 ++ q
  | .pred k => 3#3 ++ 0#6 ++ k
  | .const k => 4#3 ++ 0#6 ++ k
  | .ap => 5#3 ++ 0#9
  | .handle h => 5#3 ++ 1#1 ++ 0#1 ++ h
  | .special x => 6#3 ++ BitVec.ofNat 9 (specialCode x)
  | .none => 7#3 ++ 0#9

/-- A cell operation word (R210). -/
def cellWord (op : BitVec 8) (w : CellWord) : BitVec 64 :=
  op ++ w.ty ++ operand w.dst ++ operand w.a ++ operand w.b ++
    BitVec.ofNat 3 (Decode.roundingCode w.rnd) ++ BitVec.ofBool w.pop ++ w.c

end Encode

/-- The word of a Surveyor instruction; none for any other row. -/
def encode32 : Instr → Option (BitVec 32)
  | .add rd ra rb => some (Encode.r 0x1#6 rd ra rb 0x0#11)
  | .sub rd ra rb => some (Encode.r 0x1#6 rd ra rb 0x1#11)
  | .mul rd ra rb => some (Encode.r 0x1#6 rd ra rb 0x2#11)
  | .mulh rd ra rb => some (Encode.r 0x1#6 rd ra rb 0x3#11)
  | .mulhn rd ra rb => some (Encode.r 0x1#6 rd ra rb 0x4#11)
  | .div rd ra rb => some (Encode.r 0x1#6 rd ra rb 0x5#11)
  | .divn rd ra rb => some (Encode.r 0x1#6 rd ra rb 0x6#11)
  | .rem rd ra rb => some (Encode.r 0x1#6 rd ra rb 0x7#11)
  | .remn rd ra rb => some (Encode.r 0x1#6 rd ra rb 0x8#11)
  | .and rd ra rb => some (Encode.r 0x1#6 rd ra rb 0x10#11)
  | .or rd ra rb => some (Encode.r 0x1#6 rd ra rb 0x11#11)
  | .xor rd ra rb => some (Encode.r 0x1#6 rd ra rb 0x12#11)
  | .sll rd ra rb => some (Encode.r 0x1#6 rd ra rb 0x18#11)
  | .srl rd ra rb => some (Encode.r 0x1#6 rd ra rb 0x19#11)
  | .sra rd ra rb => some (Encode.r 0x1#6 rd ra rb 0x1a#11)
  | .slt rd ra rb => some (Encode.r 0x1#6 rd ra rb 0x20#11)
  | .sltn rd ra rb => some (Encode.r 0x1#6 rd ra rb 0x21#11)
  | .min rd ra rb => some (Encode.r 0x1#6 rd ra rb 0x22#11)
  | .max rd ra rb => some (Encode.r 0x1#6 rd ra rb 0x23#11)
  | .minn rd ra rb => some (Encode.r 0x1#6 rd ra rb 0x24#11)
  | .maxn rd ra rb => some (Encode.r 0x1#6 rd ra rb 0x25#11)
  | .clz rd ra => some (Encode.r 0x1#6 rd ra 0 0x30#11)
  | .ctz rd ra => some (Encode.r 0x1#6 rd ra 0 0x31#11)
  | .popc rd ra => some (Encode.r 0x1#6 rd ra 0 0x32#11)
  | .addImmediate rd ra imm => some (Encode.i 0x8#6 rd ra imm)
  | .andImmediate rd ra imm => some (Encode.i 0x9#6 rd ra imm)
  | .orImmediate rd ra imm => some (Encode.i 0xa#6 rd ra imm)
  | .xorImmediate rd ra imm => some (Encode.i 0xb#6 rd ra imm)
  | .sllImmediate rd ra sh => some (Encode.i 0xc#6 rd ra (0#10 ++ sh))
  | .srlImmediate rd ra sh => some (Encode.i 0xd#6 rd ra (0#10 ++ sh))
  | .sraImmediate rd ra sh => some (Encode.i 0xe#6 rd ra (0#10 ++ sh))
  | .sltImmediate rd ra imm => some (Encode.i 0xf#6 rd ra imm)
  | .sltnImmediate rd ra imm => some (Encode.i 0x10#6 rd ra imm)
  | .mulImmediate rd ra imm => some (Encode.i 0x11#6 rd ra imm)
  | .lih rd ra imm => some (Encode.i 0x12#6 rd ra imm)
  | .csrr rd num => some (Encode.i 4#6 rd 0 num)
  | .csrw rd ra num => some (Encode.i 5#6 rd ra num)
  | .csrs rd ra num => some (Encode.i 6#6 rd ra num)
  | .csrc rd ra num => some (Encode.i 7#6 rd ra num)
  | .ldS8 rd ra scope off => some (Encode.m 0x18#6 rd ra scope off)
  | .ldN8 rd ra scope off => some (Encode.m 0x19#6 rd ra scope off)
  | .ldS16 rd ra scope off => some (Encode.m 0x1a#6 rd ra scope off)
  | .ldN16 rd ra scope off => some (Encode.m 0x1b#6 rd ra scope off)
  | .ldS32 rd ra scope off => some (Encode.m 0x1c#6 rd ra scope off)
  | .ldN32 rd ra scope off => some (Encode.m 0x1d#6 rd ra scope off)
  | .ldN64 rd ra scope off => some (Encode.m 0x1e#6 rd ra scope off)
  | .stN8 rd ra scope off => some (Encode.m 0x20#6 rd ra scope off)
  | .stN16 rd ra scope off => some (Encode.m 0x21#6 rd ra scope off)
  | .stN32 rd ra scope off => some (Encode.m 0x22#6 rd ra scope off)
  | .stN64 rd ra scope off => some (Encode.m 0x23#6 rd ra scope off)
  | .ldvGe rd ra rb sx size scope => some (Encode.r 0x24#6 rd ra rb (Encode.vf false sx size scope))
  | .ldvEq rd ra rb sx size scope => some (Encode.r 0x24#6 rd ra rb (Encode.vf true sx size scope))
  | .stv rd ra rb size scope => some (Encode.r 0x25#6 rd ra rb (Encode.vf false false size scope))
  | .stvKeep rd ra rb size scope => some (Encode.r 0x25#6 rd ra rb (Encode.vf true false size scope))
  | .reclaim rd ra rb => some (Encode.r 0x26#6 rd ra rb 0#11)
  | .amoAdd rd ra rb width scope => some (Encode.r 0x27#6 rd ra rb (Encode.af 0#4 width scope))
  | .amoSwp rd ra rb width scope => some (Encode.r 0x27#6 rd ra rb (Encode.af 1#4 width scope))
  | .amoCas rd ra rb width scope => some (Encode.r 0x27#6 rd ra rb (Encode.af 2#4 width scope))
  | .amoMin rd ra rb width scope => some (Encode.r 0x27#6 rd ra rb (Encode.af 3#4 width scope))
  | .amoMax rd ra rb width scope => some (Encode.r 0x27#6 rd ra rb (Encode.af 4#4 width scope))
  | .amoMinn rd ra rb width scope => some (Encode.r 0x27#6 rd ra rb (Encode.af 5#4 width scope))
  | .amoMaxn rd ra rb width scope => some (Encode.r 0x27#6 rd ra rb (Encode.af 6#4 width scope))
  | .amoAnd rd ra rb width scope => some (Encode.r 0x27#6 rd ra rb (Encode.af 7#4 width scope))
  | .amoOr rd ra rb width scope => some (Encode.r 0x27#6 rd ra rb (Encode.af 8#4 width scope))
  | .amoXor rd ra rb width scope => some (Encode.r 0x27#6 rd ra rb (Encode.af 9#4 width scope))
  | .pref ra scope off => some (Encode.m 0x28#6 0 ra scope off)
  | .fence scope => some (Encode.r 3#6 0 0 0 (Encode.ff 0#2 scope))
  | .fenceAcq scope => some (Encode.r 3#6 0 0 0 (Encode.ff 1#2 scope))
  | .fenceRel scope => some (Encode.r 3#6 0 0 0 (Encode.ff 2#2 scope))
  | .beq ra rb off => some (Encode.i 0x30#6 ra rb off)
  | .bne ra rb off => some (Encode.i 0x31#6 ra rb off)
  | .blt ra rb off => some (Encode.i 0x32#6 ra rb off)
  | .bge ra rb off => some (Encode.i 0x33#6 ra rb off)
  | .bltn ra rb off => some (Encode.i 0x34#6 ra rb off)
  | .bgen ra rb off => some (Encode.i 0x35#6 ra rb off)
  | .jal rd off => some (Encode.j 0x36#6 rd off)
  | .jalr rd ra imm => some (Encode.i 0x37#6 rd ra imm)
  | .post rd ra rb => some (Encode.r 0x2#6 rd ra rb 0x0#11)
  | .bindl rd ra rb => some (Encode.r 0x2#6 rd ra rb 0x1#11)
  | .armt rd ra rb => some (Encode.r 0x2#6 rd ra rb 0x2#11)
  | .armb rd ra => some (Encode.r 0x2#6 rd ra 0 0x3#11)
  | .arms rd ra => some (Encode.r 0x2#6 rd ra 0 0x4#11)
  | .endt => some (Encode.r 0x2#6 0 0 0 0x5#11)
  | .chp ra rb => some (Encode.r 0x2#6 0 ra rb 0x6#11)
  | .ecall ra rb => some (Encode.r 3#6 0 ra rb 0#11)
  | .tret => some (Encode.r 3#6 0 0 0 1#11)
  | .merid rd => some (Encode.r 3#6 rd 0 0 2#11)
  | .stnInit ra rb => some (Encode.e 0#4 0 ra rb 0x0#7)
  | .stnArv ra => some (Encode.e 0#4 0 ra 0 0x1#7)
  | .stnExp ra rb => some (Encode.e 0#4 0 ra rb 0x2#7)
  | .stnDone ra => some (Encode.e 0#4 0 ra 0 0x3#7)
  | .stnTest rd ra => some (Encode.e 0#4 rd ra 0 0x4#7)
  | .trvCopy rd ra rb => some (Encode.e 1#4 rd ra rb 0x0#7)
  | .trvGath rd ra rb => some (Encode.e 1#4 rd ra rb 0x1#7)
  | .trvScat rd ra rb => some (Encode.e 1#4 rd ra rb 0x2#7)
  | .trvRed rd ra rb => some (Encode.e 1#4 rd ra rb 0x3#7)
  | .trvFill rd ra rb => some (Encode.e 1#4 rd ra rb 0x4#7)
  | .trvFeed rd ra rb => some (Encode.e 1#4 rd ra rb 0x5#7)
  | .trvFollow ra => some (Encode.e 1#4 0 ra 0 0x6#7)
  | .trvPub rd ra => some (Encode.e 1#4 rd ra 0 0x7#7)
  | .trvXst rd ra rb => some (Encode.e 1#4 rd ra rb 0x8#7)
  | .trvCanc ra => some (Encode.e 1#4 0 ra 0 0x9#7)
  | .trvStat rd ra => some (Encode.e 1#4 rd ra 0 0xa#7)
  | .bufSet ra rb => some (Encode.e 2#4 0 ra rb 0x0#7)
  | .bufFree ra => some (Encode.e 2#4 0 ra 0 0x1#7)
  | .bufStat rd ra => some (Encode.e 2#4 rd ra 0 0x2#7)
  | .endMake rd ra => some (Encode.e 3#4 rd ra 0 0x0#7)
  | .endBind rd ra rb => some (Encode.e 3#4 rd ra rb 0x1#7)
  | .endClose ra => some (Encode.e 3#4 0 ra 0 0x2#7)
  | .endStat rd ra => some (Encode.e 3#4 rd ra 0 0x3#7)
  | .grLdw rd ra rb => some (Encode.e 4#4 rd ra rb 0x0#7)
  | .grMm rd ra rb => some (Encode.e 4#4 rd ra rb 0x1#7)
  | .grScan rd ra rb => some (Encode.e 4#4 rd ra rb 0x2#7)
  | .grDrn rd ra rb => some (Encode.e 4#4 rd ra rb 0x3#7)
  | .grZero ra => some (Encode.e 4#4 0 ra 0 0x4#7)
  | .grSave rd ra rb => some (Encode.e 4#4 rd ra rb 0x5#7)
  | .grRest rd ra rb => some (Encode.e 4#4 rd ra rb 0x6#7)
  | .grStat rd ra => some (Encode.e 4#4 rd ra 0 0x7#7)
  | .twSeek rd ra rb => some (Encode.e 5#4 rd ra rb 0x0#7)
  | .twRead rd ra => some (Encode.e 5#4 rd ra 0 0x1#7)
  | .twEnc rd ra rb => some (Encode.e 5#4 rd ra rb 0x2#7)
  | .twStat rd ra => some (Encode.e 5#4 rd ra 0 0x3#7)
  | .cpOpen ra => some (Encode.e 6#4 0 ra 0 0x0#7)
  | .cpOper ra rb => some (Encode.e 6#4 0 ra rb 0x1#7)
  | .cpExpl ra => some (Encode.e 6#4 0 ra 0 0x2#7)
  | .cpObs rd ra => some (Encode.e 6#4 rd ra 0 0x3#7)
  | .cpFix ra => some (Encode.e 6#4 0 ra 0 0x4#7)
  | .cpJoin ra rb => some (Encode.e 6#4 0 ra rb 0x5#7)
  | .cpClose ra => some (Encode.e 6#4 0 ra 0 0x6#7)
  | .scrOpen rd ra rb => some (Encode.e 7#4 rd ra rb 0x0#7)
  | .scrCnt rd ra => some (Encode.e 7#4 rd ra 0 0x1#7)
  | .segName rd ra rb => some (Encode.e 8#4 rd ra rb 0x0#7)
  | .segAtt rd ra rb => some (Encode.e 8#4 rd ra rb 0x1#7)
  | .segDet ra => some (Encode.e 8#4 0 ra 0 0x2#7)
  | .segPin ra rb => some (Encode.e 8#4 0 ra rb 0x3#7)
  | .segEvt ra rb => some (Encode.e 8#4 0 ra rb 0x4#7)
  | .segDrop ra => some (Encode.e 8#4 0 ra 0 0x5#7)
  | .segStat rd ra => some (Encode.e 8#4 rd ra 0 0x6#7)
  | .projInv ra rb => some (Encode.e 9#4 0 ra rb 0x0#7)
  | .projProbe rd ra rb => some (Encode.e 9#4 rd ra rb 0x1#7)
  | .pageDup ra rb => some (Encode.e 9#4 0 ra rb 0x2#7)
  | .sndSet ra rb => some (Encode.e 10#4 0 ra rb 0x0#7)
  | .sndOut rd ra => some (Encode.e 10#4 rd ra 0 0x1#7)
  | .sndIn rd ra => some (Encode.e 10#4 rd ra 0 0x2#7)
  | .sndStat rd ra => some (Encode.e 10#4 rd ra 0 0x3#7)
  | .qKick ra rb => some (Encode.e 11#4 0 ra rb 0x0#7)
  | .strmIn rd ra rb => some (Encode.e 12#4 rd ra rb 0x0#7)
  | .strmOut rd ra rb => some (Encode.e 12#4 rd ra rb 0x1#7)
  | .strmBar ra => some (Encode.e 12#4 0 ra 0 0x2#7)
  | .strmStop ra => some (Encode.e 12#4 0 ra 0 0x3#7)
  | .strmStat rd ra => some (Encode.e 12#4 rd ra 0 0x4#7)
  | _ => none

/-- The opcode and fields of a cell operation; none for any other row. -/
def Instr.cellParts? : Instr → Option (BitVec 8 × CellWord)
  | .iadd w => some (0x00#8, w)
  | .isub w => some (0x01#8, w)
  | .iadds w => some (0x02#8, w)
  | .isubs w => some (0x03#8, w)
  | .imul w => some (0x04#8, w)
  | .imulh w => some (0x05#8, w)
  | .imad w => some (0x06#8, w)
  | .imin w => some (0x07#8, w)
  | .imax w => some (0x08#8, w)
  | .iabs w => some (0x09#8, w)
  | .ineg w => some (0x0a#8, w)
  | .iavg w => some (0x0b#8, w)
  | .shl w => some (0x0c#8, w)
  | .shr w => some (0x0d#8, w)
  | .sar w => some (0x0e#8, w)
  | .rot w => some (0x0f#8, w)
  | .cellAnd w => some (0x10#8, w)
  | .cellOr w => some (0x11#8, w)
  | .cellXor w => some (0x12#8, w)
  | .andn w => some (0x13#8, w)
  | .not w => some (0x14#8, w)
  | .cellClz w => some (0x15#8, w)
  | .cellCtz w => some (0x16#8, w)
  | .ffs w => some (0x17#8, w)
  | .cellPopc w => some (0x18#8, w)
  | .brev w => some (0x19#8, w)
  | .bfx w => some (0x1a#8, w)
  | .bfi w => some (0x1b#8, w)
  | .icmp w => some (0x40#8, w)
  | .sel w => some (0x41#8, w)
  | .mov w => some (0x42#8, w)
  | .movc w => some (0x43#8, w)
  | .bcst w => some (0x44#8, w)
  | .lprm w => some (0x45#8, w)
  | .lshf w => some (0x46#8, w)
  | .redi w => some (0x47#8, w)
  | .scni w => some (0x48#8, w)
  | .dot4 w => some (0x49#8, w)
  | .dot2 w => some (0x4a#8, w)
  | .kop w => some (0x4b#8, w)
  | .enq w => some (0x60#8, w)
  | .deq w => some (0x61#8, w)
  | .adv w => some (0x62#8, w)
  | .peek w => some (0x63#8, w)
  | .qstat w => some (0x64#8, w)
  | .cellLd w => some (0x65#8, w)
  | .cellSt w => some (0x66#8, w)
  | .walk w => some (0x67#8, w)
  | .atom w => some (0x68#8, w)
  | .cellLdv w => some (0x69#8, w)
  | .cellStv w => some (0x6a#8, w)
  | .fadd w => some (0x80#8, w)
  | .fsub w => some (0x81#8, w)
  | .fmul w => some (0x82#8, w)
  | .ffma w => some (0x83#8, w)
  | .fmin w => some (0x84#8, w)
  | .fmax w => some (0x85#8, w)
  | .fabs w => some (0x86#8, w)
  | .fneg w => some (0x87#8, w)
  | .fcmp w => some (0x88#8, w)
  | .frcp w => some (0x89#8, w)
  | .frsq w => some (0x8a#8, w)
  | .fsqrt w => some (0x8b#8, w)
  | .fexp2 w => some (0x8c#8, w)
  | .flog2 w => some (0x8d#8, w)
  | .ftanh w => some (0x8e#8, w)
  | .fsigm w => some (0x8f#8, w)
  | .fsinp w => some (0x90#8, w)
  | .frnd w => some (0x91#8, w)
  | .fcls w => some (0x92#8, w)
  | .redf w => some (0x93#8, w)
  | .scnf w => some (0x94#8, w)
  | .topk w => some (0x95#8, w)
  | .cvt w => some (0x96#8, w)
  | .bq w => some (0xc0#8, w)
  | .bdq w => some (0xc1#8, w)
  | .sclb w => some (0xc2#8, w)
  | .wadp w => some (0xc3#8, w)
  | .gate w => some (0xe0#8, w)
  | .dly w => some (0xe1#8, w)
  | .mrg w => some (0xe2#8, w)
  | .str w => some (0xe3#8, w)
  | .tag w => some (0xe4#8, w)
  | .proj w => some (0xe5#8, w)
  | .widn w => some (0xe6#8, w)
  | .hin w => some (0xe7#8, w)
  | .hout w => some (0xe8#8, w)
  | .rdon w => some (0xe9#8, w)
  | .rrte w => some (0xea#8, w)
  | .pois w => some (0xeb#8, w)
  | .halt w => some (0xec#8, w)
  | .trap w => some (0xed#8, w)
  | .nop w => some (0xee#8, w)
  | _ => none

/-- The operation word of a cell operation; none for any other row. -/
def encode64 (i : Instr) : Option (BitVec 64) :=
  match i.cellParts? with
  | some (op, w) => some (Encode.cellWord op w)
  | none => none

end Sys2Proof
end

