-- ==== Sys2Proof/Machine/State.lean ====
section
/-! DEFINITION. The state of the part as plain data, the fault and refusal names, and the state after reset.
Indexed pieces that most programs leave at their load value (parcels, cells, channels, slots) are held as lists
of (index, value) pairs sorted by index; an index that is not listed holds the reset value. -/

namespace Sys2Proof.Machine

/-- A sparse table: pairs of index and value, indices rising; unlisted indices hold a stated default. -/
abbrev Table (α : Type) := List (Nat × α)

/-- Memory: pairs of address and byte in rising order, no byte equal to what an unlisted address reads as. -/
abbrev Memory := List Host.Cell

/-! ### Surveyor core (chapter 4) -/

/-- A packet on its way or in a packet store (R97, R100, R128). `fences` counts, for each scope level, the releases of
that level or wider that its sender had made before it (R82). -/
structure Packet where
  dest : Nat
  ch : BitVec 7
  two : Bool
  word0 : Word
  word1 : Word
  device : BitVec 16
  source : Nat
  frontEnd : Bool
  fences : Vector Nat 6
  deriving DecidableEq, Repr, Inhabited

/-- An event in a channel's FIFO: an arrived packet, or a fired wakeup with its kind (1 time, 2 buffer,
3 station), firing time, argument word and control word (R96, R99, R102). -/
inductive ChannelEvent where
  | packet (p : Packet) (shared : Bool)
  | wakeup (kind : BitVec 2) (time arg : Word) (control : BitVec 16)
  deriving DecidableEq, Repr, Inhabited

/-- A wakeup slot (R102, R488). `armed` is the meridian of its arming, `count` the completions that its station
had then. -/
structure Wakeup where
  cond : BitVec 2
  control : BitVec 16
  arg : Word
  time : Word
  armed : Word
  count : Nat
  pending : Bool
  deriving DecidableEq, Repr, Inhabited

/-- A channel: binding, FIFO, wakeup slot and what the pick needs (R96-R98). `age` is the age counted so far,
`since` the meridian from which it counts on while the channel is ready, `boost` its promotions, `rebind` a binding
(handler and argument) that takes effect at the next pick (R129). -/
structure Channel where
  bound : Bool
  handler : Word
  arg : Word
  fifo : List ChannelEvent
  age : Nat
  since : Nat
  boost : Nat
  wake : Wakeup
  rebind : Option (Word × Word)
  deriving DecidableEq, Repr, Inhabited

/-- A Surveyor core (R89-R101). `waiting` is the tag of the host request its instruction waits for (R465), `quiet`
whether it picks no further channel before a pre-emption (R453), `fences` its releases by scope level (R82),
`since` the count of steps at which its waiting `SEG.DET` began (R398), `gathered` the bytes that its `TW` instruction has read
so far (R358). -/
structure Core where
  regs : Vector Word 32
  pc : Word
  tcause : Word
  tval : Word
  tepc : Word
  hangiv : Word
  asid : BitVec 14
  chprio : Word
  flags : Word
  trap : Bool
  wake : Bool
  cls : BitVec 2
  ch : BitVec 7
  running : Bool
  stopped : Bool
  waiting : Option Nat
  quiet : Bool
  channels : Table Channel
  last : Vector Nat 4
  outbound : List Packet
  icache : Table (List Byte)
  fences : Vector Nat 6
  since : Option Nat
  gathered : List (Nat × Byte)
  deriving DecidableEq, Repr, Inhabited

/-- A `Q.KICK` that must land after earlier packets of its core (R82, R457). -/
structure LateKick where
  parcel : Nat
  asid : BitVec 14
  queue : Nat
  value : Word
  fences : Vector Nat 6
  deriving DecidableEq, Repr, Inhabited

/-! ### Cells (chapters 7 and 8) -/

/-- A lane register: payload, scale lane and format tag (R44, R179). -/
structure LaneReg where
  payload : BitVec 512
  scale : BitVec 32
  tag : BitVec 4
  deriving DecidableEq, Repr, Inhabited

/-- A queue: its words from the head, the words in its delay buffer with the meridian of their push, the
places that outstanding memory reads reserve with the words pushed behind them, and the circular index of the head
(R188, R202, R252). -/
structure Queue where
  words : List LinkWord
  delay : List (LinkWord × Nat)
  waiting : List (Option (LinkWord × Nat))
  head : BitVec 3
  deriving DecidableEq, Repr, Inhabited

/-- Cell modes (R181). -/
inductive CellMode where
  | running | frozen | poisoned | halted
  deriving DecidableEq, Repr, Inhabited

/-- Where a response of the address port goes (R252). -/
inductive PortDest where
  | reg (i : BitVec 4)
  | queue (q : BitVec 2) (ctx : BitVec 3)
  | drop
  deriving DecidableEq, Repr, Inhabited

/-- A request at the address port (R193, R254-R259, R286, R289). A buffer read carries the scratchpad address of its word, and
the word itself where it was read at the firing. -/
inductive PortOp where
  | load (tag : BitVec 4)
  | buffer (handle : BitVec 7) (pa : Nat) (data : Option (BitVec 512)) (tag : BitVec 4) (free : Bool)
  | store (word : LaneReg) (ty : BitVec 4)
  | walk (tag : BitVec 4) (field : Nat) (offset : Word) (limit count : Nat)
  | atom (op : Nat) (wide signed : Bool) (v cmp : Word)
  | ldv (tag : BitVec 4) (eq : Bool) (version : BitVec 12)
  | stv (word : LaneReg) (ty : BitVec 4) (keep : Bool)
  | proj (write : Bool)
  | hout (word : LaneReg)
  deriving DecidableEq, Repr, Inhabited

/-- A reorder entry: the request, its address and scope, its destination, the firing that issued it, the
tag of a host request it waits for, and the count of steps at that firing, which tells earlier requests from later ones
(R77, R81, R193, R201, R397, R465). -/
structure PortEntry where
  op : PortOp
  va : Word
  scope : Scope
  dest : PortDest
  ctx : BitVec 3
  slot : BitVec 3
  hostTag : Option Nat
  stamp : Nat
  deriving DecidableEq, Repr, Inhabited

/-- A word that a widener has taken and not yet forwarded, and the count of steps when it took it (R77, R287). -/
structure Widening where
  word : LinkWord
  queue : BitVec 2
  out : Bool
  scope : Scope
  stamp : Nat
  deriving DecidableEq, Repr, Inhabited

/-- A cell's exposed state and its configured words (R179, R209-R219). `replay` is a follower's next firing and `handed` the
meridian at which its leader handed it on, `faulting` the index and the words of the slot whose precise fault froze the cell,
`hung` the mode a hang froze the cell from, `select` the select word of its queue window, `wires` the word of each
output queue that is on its route. -/
structure Cell where
  v : Vector LaneReg 16
  k : BitVec 8
  iq : Vector Queue 4
  oq : Vector Queue 4
  named : BitVec 3
  fired : Bool
  fireCtx : BitVec 3
  fireSlot : BitVec 3
  flags : BitVec 5
  gen : BitVec 32
  mode : CellMode
  faultReg : Word
  faultAddr : Word
  port : List PortEntry
  widening : Option Widening
  replay : Option (BitVec 3 × BitVec 3)
  handed : Nat
  faulting : Option (Nat × BitVec 64 × BitVec 64)
  hung : Option CellMode
  select : Word
  slots : Table (BitVec 64 × BitVec 64)
  consts : Table (BitVec 32)
  routes : Vector Word 4
  config : Word
  wires : Vector (Option LinkWord) 4
  deriving DecidableEq, Repr, Inhabited

/-! ### Parcel engines (chapters 5, 6, 12-14, 16) -/

/-- A stream slot (R137-R145). `serial` is its order of issue, `waits` the serials a barrier makes it wait for,
`pos` the words moved by this stream since the pattern's first, `sent` those already counted before it. -/
structure Stream where
  state : BitVec 2
  outbound : Bool
  control : Word
  starts : Word
  counts : Word
  pos : Nat
  reason : BitVec 2
  code : Byte
  serial : Nat
  waits : List Nat
  deriving DecidableEq, Repr, Inhabited

/-- Who holds one side of a wide port (R302, R333, R363, R383): the Graticule by the command of that serial. -/
inductive PortHolder where
  | free | stream (slot : Nat) | endOf (home number : Nat) | graticule (serial : Nat) | query | source
  deriving DecidableEq, Repr, Inhabited

/-- A wide port: words on its inbound and outbound side and who holds each side. -/
structure WidePort where
  inbound : List LinkWord
  outbound : List LinkWord
  inHolder : PortHolder
  outHolder : PortHolder
  deriving DecidableEq, Repr, Inhabited

/-- A staged follow-on command: an engine-4 word and the captured register values (R157). -/
structure Staged where
  word : BitVec 32
  a : Word
  b : Word
  deriving DecidableEq, Repr, Inhabited

/-- Traverse request kinds (R149, R178). -/
inductive TravKind where
  | copy | gath | scat | red | fill | feed | xst
  deriving DecidableEq, Repr, Inhabited

/-- A Traverse request slot (R146-R156, R419). `stopped` tells that it has faulted or was cancelled and only waits for bytes in
flight, `pages` are the pages that the walker has translated for it (virtual page, physical address, leaf). `serial` is its place in the order of issue, `pos` the units already sent
and `total` all of them; `done` tells that its completion is over and only its follow-on command is still to issue,
`published` that its publish is performed, `notices` the ring entries whose freed-slot notice is still to be used. -/
structure TravSlot where
  kind : TravKind
  control : Word
  desc : List Byte
  serial : Nat
  ftz : Bool
  pos : Nat
  total : Nat
  promise : Word
  done : Bool
  published : Bool
  follow : Option Staged
  notices : List Nat
  stopped : Bool
  pages : List (Nat × Nat × BitVec 128)
  deriving DecidableEq, Repr, Inhabited

/-- A Graticule command: its place in the core's order of issue, function, control word, captured descriptor, save
address, and flush-to-zero as it stood at issue (R316, R323). -/
structure GrCommand where
  serial : Nat
  fn : Nat
  control : Word
  desc : List Byte
  va : Word
  ftz : Bool
  deriving DecidableEq, Repr, Inhabited

/-- The running command and where it stands (R325). `tile` is the C tile's index, `chunk` the K-chunk or step,
`begun` whether the C tile is FILLING. -/
structure GrRun where
  cmd : GrCommand
  tile : Nat
  chunk : Nat
  staged : Nat
  begun : Bool
  deriving DecidableEq, Repr, Inhabited

/-- A drain on the drain path: tile, its command, and the span it writes (R323, R327). `final` tells that its command
completes with it. -/
structure GrDrain where
  tile : Nat
  cmd : GrCommand
  legend : Nat
  word : BitVec 32
  tileRow : Nat
  tileCol : Nat
  rows : Nat
  cols : Nat
  row0 : Nat
  col0 : Nat
  final : Bool
  deriving DecidableEq, Repr, Inhabited

/-- A Graticule engine (R317-R338). `lanes` holds the scale lanes of staged A words, by their offset in the scratchpad: like the
staging area itself they are no part of a saved image (R333, R337). -/
structure Graticule where
  slots : Vector Word 4
  tiles : Vector (BitVec 2) 2
  flags : BitVec 5
  gen : BitVec 32
  queue : List GrCommand
  running : Option GrRun
  drains : List GrDrain
  finishing : List GrCommand
  saving : Option GrCommand
  saved : Bool
  lanes : Table (BitVec 32)
  deriving DecidableEq, Repr, Inhabited

/-- A parcel's trellis-encoder request (R351, R356). `rest` are the bytes of the row in progress that are still to be written,
with their offsets (R357). -/
structure EncRequest where
  state : BitVec 2
  rowsDone : Nat
  control : Word
  desc : List Byte
  rest : List (Nat × Byte)
  ftz : Bool
  deriving DecidableEq, Repr, Inhabited

/-- Where an end is bound (R300, R304). -/
structure EndLoc where
  device : Nat
  parcel : Nat
  port : Nat
  deriving DecidableEq, Repr, Inhabited

/-- One end of a stream at its home (R299, R304). -/
structure EndRec where
  serial : BitVec 16
  loc : Option EndLoc
  closed : Bool
  deriving DecidableEq, Repr, Inhabited

/-- A move of an end away from a place (R305, R306): the serial of the binding there, whether that place had begun, whether it
was asked to stop, and the number where it stopped: of a producer the next item, of a consumer the first not delivered. -/
structure EndMove where
  consumer : Bool
  serial : BitVec 16
  old : EndLoc
  begun : Bool
  asked : Bool
  mark : Option Nat
  deriving DecidableEq, Repr, Inhabited

/-- A stream record with its items (R299-R311): the home's, or that of a place whose home is another device. `next` is the next
sequence number of the producer end, `delivered` the next one to deliver, `acked` the first not acknowledged, `retained` the
producer's copies, `early` items from another device that came ahead of their turn, `arrived` the items at the consumer's
side, `moves` the moves not yet finished, `begun` whether the producer place on another device was told to begin (at a place:
whether it was told), `given` the next item that goes to a consumer place on another device, none before it was told to begin,
`ended` the number of all items once the producer's last has entered, `discarded` the words a side discards after a death. -/
structure EndStream where
  cap : BitVec 3
  orphaned : Bool
  prod : EndRec
  cons : EndRec
  next : Nat
  delivered : Nat
  acked : Nat
  retained : List (Nat × LinkWord)
  early : List (Nat × LinkWord)
  arrived : List (Nat × LinkWord)
  moves : List EndMove
  begun : Bool
  given : Option Nat
  ended : Option Nat
  discarded : Nat
  deriving DecidableEq, Repr, Inhabited

/-- A Scribe source and its counters (R374, R383, R384). `seq` is the next sequence number, `passed` the maps that have
passed, `pending` the records not yet in the target, `lost` whether the target query has closed. -/
structure Scribe where
  state : BitVec 2
  control : Word
  desc : List Byte
  schema : List Byte
  offset : Nat
  seq : Nat
  passed : Nat
  pending : List LinkWord
  lost : Bool
  counts : Vector Nat 6
  deriving DecidableEq, Repr, Inhabited

/-- Exchange bookkeeping (R163-R167): which bank set is visible, the writes sent per destination in this phase,
the writes arrived per source × 4 + phase, the sectors written in the phase, the markers that wait (source, phase,
count, station), and the parked writes (source, phase, runs of bytes by their offset). -/
structure Exchange where
  swapped : Bool
  sent : Table Nat
  counts : Table Nat
  written : List Nat
  markers : List (Nat × Nat × Nat × Nat)
  parked : List (Nat × Nat × List (Nat × List Byte))
  deriving DecidableEq, Repr, Inhabited

/-- One parcel (R8, R17). `emits` are the end handles that wait to enter the inbound side of a port (R313); `wasReset` tells
that the parcel was reset and no region has been placed on it since (R162), `inits` which stations `STN.INIT` has written (R298). -/
structure Parcel where
  core : Core
  cells : Table Cell
  ingress : Vector Word 4
  ports : Vector WidePort 4
  buffers : Table (BitVec 128)
  stations : Table (BitVec 128)
  travs : Table TravSlot
  staged : Option Staged
  trvFlags : BitVec 5
  trvFault : List (TravKind × Nat × Nat × Nat)
  streams : Table Stream
  serial : Nat
  barrier : List Nat
  gr : Graticule
  windows : Vector Word 8
  enc : EncRequest
  endCount : Nat
  ends : Table EndStream
  scribe : Scribe
  credits : Nat
  emits : List (Nat × Word)
  exch : Exchange
  gated : Bool
  wasReset : Bool
  inits : List Nat
  deriving DecidableEq, Repr, Inhabited

/-! ### Memory hierarchy (chapter 3) -/

/-- A sector that a unit, a parcel's request arbiter or a slice's cache ways hold: its 32 bytes, which of them are
dirty, how many writes it has still to hand on (a later wider store may have overwritten all their bytes), the scope
level its clean bytes were fetched from, 0 when it holds none, and the units whose stores the dirty bytes are, each
with its bytes (R62, R69-R73). -/
structure Line where
  bytes : List Byte
  dirty : BitVec 32
  merges : Nat
  source : Nat
  owners : List (Writer × BitVec 32)
  deriving DecidableEq, Repr, Inhabited

/-- An `LDV.EQ` that waits at the version home: its unit, the sector and the version, and the sector's bytes as they
stood in the home cycle in which the version was reached (R65). -/
structure VersionHold where
  unit : Writer
  sector : Nat
  version : BitVec 12
  data : Option (List Byte)
  deriving DecidableEq, Repr, Inhabited

/-- An open overlay of a target: its requester, the entry of the scale that an encoder's output takes with it, the hidden bytes, and
the virtual address of each hidden sector that has one (R78, R79, R152, R355). -/
structure Overlay where
  parcel : Nat
  buffer : Bool
  index : Nat
  scale : Option Nat
  bytes : Table Byte
  vas : Table Word
  deriving DecidableEq, Repr, Inhabited

/-- A reduction tile on its way or held at a home (R168, R169): the 64-byte block it goes to, the
elements it brings (offset and bytes, in pattern order), its virtual address, and the destination legend whose overlay it goes
into in shadow mode. A skip marker brings none. -/
structure RedTile where
  pa : Nat
  leaf : BitVec 128
  va : Word
  order : Nat
  count : Nat
  op : Nat
  fmt : Nat
  rnd : Nat
  ordered : Bool
  items : List (Nat × List Byte)
  skip : Bool
  ftz : Bool
  scope : Scope
  parcel : Nat
  slot : Nat
  shadow : Option Nat
  deriving DecidableEq, Repr, Inhabited

/-- Ordered-mode state of a destination word, with the tiles held for it (R169). -/
structure RedHome where
  pa : Nat
  next : Nat
  count : Nat
  op : Nat
  fmt : Nat
  rnd : Nat
  held : List RedTile
  deriving DecidableEq, Repr, Inhabited

/-- A signal on its way to a station, or an exchange write with the runs of bytes it brings (R161, R163, R165, R487). `sender`
holds the sending parcel, engine number and slot; for the Traverse engine the last names the request, its handle and its
serial as well. -/
inductive Signal where
  | arrive (parcel station : Nat) (sender : Nat × Nat × Nat)
  | bytes (parcel station n : Nat) (sender : Nat × Nat × Nat)
  | write (parcel : Nat) (runs : List (Nat × List Byte)) (source phase : Nat) (sender : Nat × Nat × Nat)
  | marker (parcel station source phase count : Nat)
  deriving DecidableEq, Repr, Inhabited

/-- A publish that waits for earlier shadow writes of its core: the serials it waits for, and the serial of the request whose
publish bit made it (R159). -/
structure Publish where
  parcel : Nat
  buffer : Bool
  index : Nat
  waits : List Nat
  request : Option Nat
  deriving DecidableEq, Repr, Inhabited

/-! ### Sheets and provinces (chapters 14, 16, 19) -/

/-- An operator slot of a query (R363, R367, R378, R379). -/
structure Operator where
  join : Bool
  prereq : BitVec 8
  sides : BitVec 2
  parcel : Nat
  cell : Nat
  queue : Nat
  ctx : BitVec 3
  p : Nat
  c : Nat
  visits : BitVec 16
  keyOff : Nat
  keyLen : Nat
  matchParcel : Nat
  matchPort : Nat
  area : Nat
  size : Nat
  stamp : Nat
  fill0 : Nat
  fill1 : Nat
  deriving DecidableEq, Repr, Inhabited

/-- A record in a query: its word, the slot it is away at with the meridian of the send, and whether it still waits
for a place in that slot's entry queue; a held record has no slot (R363, R365, R366, R369). -/
structure QueryRecord where
  word : LinkWord
  away : Option Nat
  sent : Nat
  waits : Bool
  deriving DecidableEq, Repr, Inhabited

/-- The open query of a sheet's Compass (R363-R369, R382). -/
structure Query where
  opener : Nat
  mask0 : BitVec 8
  mask1 : BitVec 8
  inParcel : Nat
  inPort : Nat
  outParcel : Nat
  outPort : Nat
  shift : Nat
  explore : Nat
  decisions : BitVec 32
  rr : Nat
  fixed : Option (List Nat)
  slots : Table Operator
  records : List QueryRecord
  joinQueue : List LinkWord
  admitted : BitVec 32
  emitted : BitVec 32
  discarded : BitVec 32
  joined : BitVec 32
  stray : BitVec 32
  halted : Bool
  stopped : Bool
  poisoned : Bool
  closing : Option (Nat × Nat × Bool)
  deriving DecidableEq, Repr, Inhabited

/-- A Compass: its query and the words that `RRTE` has returned to it (R291, R363). -/
structure Compass where
  query : Option Query
  returns : List (Nat × LinkWord)
  deriving DecidableEq, Repr, Inhabited

/-- A translation kept in a region's partition of a projection cache cluster (R16, R414): the region's origin, the page,
its frame and rights. -/
structure Translation where
  region : Nat
  asid : Nat
  identity : Nat
  page : Nat
  size : Nat
  frame : Nat
  leaf : BitVec 128
  deriving DecidableEq, Repr, Inhabited

/-- A province's encoder queue and projection cache, and the parcel whose source its Scribe served last (R351, R374, R414). -/
structure Province where
  encQueue : List Nat
  proj : List Translation
  scribe : Nat
  deriving DecidableEq, Repr, Inhabited

/-! ### Regions, launches and queues (chapter 22) -/

/-- Where a region stands (R26, R453, R456). -/
inductive RegionPhase where
  | setup | loading | loaded | running | preempting | held | exiting
  deriving DecidableEq, Repr, Inhabited

/-- A live region with its kernel (R13, R16, R26, R91, R206, R223). `hang` is its hang counter,
`active` whether something that sets it to 0 has happened in this step; `loadPos` and `loadParcel` are the loader's place,
`loadedParcels` how many have reported loaded. `calm` counts the f-cycles since `active`; `halted` holds the stream slots
and `idle` the cells (relative parcel, index) that pre-emption halted and that stood halted before it (R453, R455), `unstopped` whether it was pre-empted at a
quiescent point with no stream stopped (R415), `under` the segments (directory index, name) that stood in its parcels when it was
saved, whose bytes its save area leaves out (R400). -/
structure Region where
  shape : Nat
  asid : BitVec 14
  identity : BitVec 16
  launch : Nat
  image : Nat
  arg : Word
  save : Word
  record : Word
  priority : Nat
  ways : Nat × Nat × Nat
  phase : RegionPhase
  legend : Table (BitVec 256)
  legendCount : Nat
  hang : Nat
  active : Bool
  loadPos : Nat
  loadParcel : Nat
  loadedParcels : Nat
  seen : List Nat
  status : BitVec 32
  exitAsked : Bool
  debugStop : Bool
  hungUp : Bool
  calm : Nat
  halted : List (Nat × Nat)
  idle : List (Nat × Nat)
  unstopped : Bool
  under : List (Nat × Word)
  deriving DecidableEq, Repr, Inhabited

/-- A launch (R448, R449, R451): `placed` while its kernel has a region, `former` the origin it was pre-empted from, `block`
the block that was pre-empted for it. -/
structure Launch where
  queue : Nat
  asid : BitVec 14
  shape : Nat
  priority : Nat
  preemptive : Bool
  image : Word
  arg : Word
  record : Word
  depKind : Nat
  dep : Word
  save : Word
  ways : Nat × Nat × Nat
  names : List Word
  ready : Bool
  order : Nat
  age : Nat
  placed : Bool
  former : Option Nat
  block : Option Nat
  deriving DecidableEq, Repr, Inhabited

/-- A queue's privileged shadow half (R441). `rest` holds its reserved bits. -/
structure QueueShadow where
  user : Word
  ring : Word
  read : BitVec 32
  kick : BitVec 32
  asid : BitVec 14
  size : BitVec 5
  cap : BitVec 3
  shapes : BitVec 10
  state : BitVec 2
  fault : Byte
  rest : BitVec 278
  deriving DecidableEq, Repr, Inhabited

/-- A segment's place (R390, R391). -/
structure SegmentPlace where
  slice : Bool
  level : Nat
  j : Nat
  r0 : Nat
  off : Nat
  size : Nat
  deriving DecidableEq, Repr, Inhabited

/-- Segment states (R392). -/
inductive SegState where
  | resident | attached | spilling | spilled | reloading
  deriving DecidableEq, Repr, Inhabited

/-- An attach that waits for a reload or an evict that waits for its spill, with its region, station and count bit (R394,
R402). -/
structure PendingAttach where
  origin : Nat
  parcel : Nat
  station : Nat
  count : Bool
  evict : Bool
  deriving DecidableEq, Repr, Inhabited

/-- A directory entry of the Gazetteer (R389-R404). `origin` is the origin its bytes stand at, `holder` the region that
holds it, `target` the origin a reload goes to, `waiting` the attaches and evicts that wait, in order of arrival, `asked` whether
the first of them started the running spill, `needers` the units whose accesses its spill holds, `failed` those for which a spill has
failed (R405). -/
structure Segment where
  asid : BitVec 14
  name : Word
  place : SegmentPlace
  backing : Word
  state : SegState
  count : Nat
  version : BitVec 16
  stamp : Word
  pinned : Bool
  torn : Bool
  tornClear : Bool
  origin : Nat
  holder : Option Nat
  target : Option Nat
  waiting : List PendingAttach
  asked : Bool
  needers : List Writer
  failed : List Writer
  deriving DecidableEq, Repr, Inhabited

/-- An invalidate or page duplication that waits for its acknowledgements (R420). `dup` holds a duplication's first
replica frame, `leaf` the address of the page's table entry and `old` that entry as it stood before, `copying` that its first invalidate is over, `told` whether the issuing
kernel still runs to be told of a fault. -/
structure Invalidate where
  parcel : Nat
  asid : BitVec 14
  first : Nat
  pages : Nat
  station : Nat
  count : Bool
  dup : Option Nat
  leaf : Nat
  old : BitVec 128
  copying : Bool
  told : Bool
  deriving DecidableEq, Repr, Inhabited

/-- A page set (R427, R428, R437). `identity` is the configuration identity of the kernel that issued the transfer (R412),
`entries` are the table's entries as the transfer's issue read them, `offset` the next
stored byte ÷ 64, `landed` the entries finished, `failed` the first that failed, `told` whether the issuing kernel still
runs to be told of a fault. -/
structure PageSet where
  state : BitVec 3
  asid : BitVec 14
  identity : BitVec 16
  table : Word
  count : Nat
  first : Nat
  pages : Nat
  entries : List (BitVec 128)
  used : Nat
  code : Byte
  flags : BitVec 5
  parcel : Nat
  station : Nat
  counted : Bool
  told : Bool
  landed : List Nat
  offset : Nat
  failed : Option Nat
  deriving DecidableEq, Repr, Inhabited

/-! ### Host port, MoLink, boot, field book and debugger (chapters 11, 24, 26) -/

/-- The AtomicOp requests of PCIe (R124). -/
inductive HostAtomic where
  | fetchAdd | swap | cas
  deriving DecidableEq, Repr, Inhabited

/-- What an outstanding non-posted request to the host is for (R124, R465, R466), or an end instruction whose home is
on another device (R309, R313); the last is one whose answer came while its region stands stopped for the debugger (R297). -/
inductive HostRequest where
  | coreLoad (p : Nat) (rd : Reg) (size : Nat) (signed : Bool) (va : Word) (address : Nat)
  | coreAmo (p : Nat) (rd : Reg) (size : Nat) (signed : Bool) (va : Word) (address : Nat) (op : HostAtomic) (operand compare : Nat)
  | cellEntry (p m address : Nat)
  | endAsk (p : Nat) (rd : Reg) (op : Nat) (handle ports : Word)
  | endDone (p : Nat) (rd : Reg) (op : Nat) (handle ports : Word) (code : Byte) (value : Word)
  deriving DecidableEq, Repr, Inhabited

/-- The parcel whose core or cell waits for a request. -/
def HostRequest.parcel : HostRequest → Nat
  | .coreLoad p _ _ _ _ _ | .coreAmo p _ _ _ _ _ _ _ _ | .cellEntry p _ _ | .endAsk p _ _ _ _ | .endDone p _ _ _ _ _ _ => p
/-- A non-posted request to the host: the host address that it names (R465). -/
def HostRequest.address : HostRequest → Option Nat
  | .coreLoad _ _ _ _ _ a | .coreAmo _ _ _ _ _ a _ _ _ | .cellEntry _ _ a => some a
  | .endAsk _ _ _ _ _ | .endDone _ _ _ _ _ _ _ => none

/-- What the host port answers to a host read or AtomicOp (R463). -/
inductive HostAnswer where
  | data (bytes : List Byte)
  | unsupported
  deriving DecidableEq, Repr, Inhabited

/-- A request that the device sends to the host: its host address and its bytes (R465). -/
inductive HostSend where
  | read (address bytes : Nat)
  | write (address bytes : Nat)
  | atomic (address bytes : Nat)
  deriving DecidableEq, Repr, Inhabited

/-- The host port (R462-R466): doorbell FIFOs, requests outstanding and answers given, the requests sent, and the configuration
registers: Device Control, of Device Control 2 what governs requests, and the others as written. -/
structure HostPort where
  doorbells : Table (List Word)
  discarded : Nat
  requests : Table HostRequest
  nextTag : Nat
  answers : List HostAnswer
  atomicEnable : Bool
  timeoutRange : BitVec 4
  control : BitVec 16
  registers : Table Word
  sent : List HostSend
  deriving DecidableEq, Repr, Inhabited

/-- One MoLink port (R467-R469, R471). `torn` says that a packet begun in a hole or before it may go on in the next flit,
`failed` that the port did not retrain, `waiting` are the flits that find the replay buffer full, `again` is a replay that runs: the
sequence asked for and those still to be sent, and `out` the flits sent. -/
structure LinkPort where
  replay : List Flit
  sent : Nat
  expected : Nat
  torn : Bool
  working : Bool
  failed : Bool
  spareFor : Option Nat
  credits : Nat
  waiting : List Flit
  again : Option (Nat × List Nat)
  out : List Flit
  deriving DecidableEq, Repr, Inhabited

/-- MoLink as a whole (R470-R472): retained packets, accepted (source, sequence) pairs, the torus shape,
this device's number, the end requests of other devices (tag, operation, handle, binder), and the hops of other devices (device,
direction) that have no working port. -/
structure MoLink where
  ports : Table LinkPort
  retained : List MoPacket
  accepted : List (Nat × Nat)
  nextSeq : Nat
  shape : Nat × Nat × Nat
  number : Nat
  asks : List (Nat × Nat × Word × EndLoc)
  dead : List (Nat × Nat)
  deriving DecidableEq, Repr, Inhabited

/-- Where the boot stands (R476, R479). -/
inductive BootPhase where
  | off | running | recovery | held
  deriving DecidableEq, Repr, Inhabited

/-- An event of the field book (R483). -/
structure BookEvent where
  meridian : Word
  kind : Nat
  code : Byte
  parcel : Nat
  asid : BitVec 14
  value : Word
  deriving DecidableEq, Repr, Inhabited

/-- What the dump of a device-fatal error holds (R482): its codes, its length, how much of it firmware has written, the part's state
as it stood when the dump began (R485). Scratchpad bytes and direct ways stay in memory. -/
structure Dump where
  codes : List Byte
  meridian : Word
  measurement : BitVec 512
  length : Nat
  written : Nat
  book : List BookEvent
  parcels : Table Parcel
  slices : Table (Table Line)
  queues : Table QueueShadow
  sets : Table PageSet
  segments : Table Segment
  deriving DecidableEq, Repr, Inhabited

/-- Boot ROM, fuses and security engine (R476-R478). The fuses hold the hash of the vendor's key, the seed of the device identity
key and its certificate, the security version and the configuration fuses. -/
structure Boot where
  phase : BootPhase
  flash : List Byte
  rom : List Byte
  fuses : List Byte
  image : List Byte
  fused : Nat
  ide : Table Nat
  measures : Table (BitVec 512)
  vendor : BitVec 512
  seed : List Byte
  certificate : List Byte
  answers : List (Nat × BitVec 512 × Nat × List Byte)
  dump : Option Dump
  deriving DecidableEq, Repr, Inhabited

/-- A breakpoint of `swdbg` (R297, R298, R461). -/
inductive Break where
  | task (ch : Nat) | cell (p m slot : Nat) | fault | promise | kick (q : Nat)
  deriving DecidableEq, Repr, Inhabited

/-- Why and where a region stopped (R297, R298, R461, R474). -/
inductive StopPlace where
  | task (p : Nat) (pc : Word)
  | cell (p m ctx slot : Nat)
  | fault (p : Nat) (word0 word1 : Word)
  | promise (p : Nat) (tval : Word)
  | kick (q parcel : Nat) (value : Word)
  | ended (kind code : Nat) (status : Word)
  deriving DecidableEq, Repr, Inhabited

/-- A line that the debugger prints (R298, R361, R461, R474); parcels are region-relative. A stop names the channel of its task
and the instruction that comes next or has fired, a trap the address and the instruction that raised it, a window register its raw
value and then its fields valid, legend, row, scope, j
and window. -/
inductive Printed where
  | launch (shape origin : Nat) (arg : Word)
  | stop (place : StopPlace) (channel : Nat) (shown : Option Instr) (meridian : Word)
  | trap (cause tval tepc : Word) (raised : Option Instr)
  | stored (va : Word) (bytes : List (Nat × Byte))
  | window (n : Nat) (raw : Word) (valid : Bool) (legend row scope j window : Nat)
  | value (name : String) (index : Nat) (v : Word)
  | lanes (p m index : Nat) (v : BitVec 512) (tag : BitVec 4)
  | preds (p m : Nat) (k : BitVec 8)
  | cell (p m : Nat) (mode : CellMode) (ctx slot : BitVec 3) (k : BitVec 8) (counts : List Nat)
  | buffer (p h : Nat) (e : BitVec 128)
  | station (p n : Nat) (e : BitVec 128)
  | stream (p slot : Nat) (status : Word) (legend : Nat)
  | compass (sheet : Nat) (obs : List Word)
  | segment (name status : Word)
  | queue (q : Nat) (shadow : QueueShadow) (mirror write : BitVec 32)
  deriving DecidableEq, Repr, Inhabited

/-- The debugger (R297, R298): what its session names, the launch it runs, breakpoints, last stop, last cell, whether one step is
granted, what it printed, the code of its last refused write, and the kicks that a breakpoint holds (queue, value,
issuing parcel). -/
structure Debugger where
  session : Option Launch
  launch : Option Nat
  breaks : List Break
  stop : Option StopPlace
  lastCell : Nat × Nat
  stepping : Bool
  out : List Printed
  fault : Byte
  held : List (Nat × Word × Option Nat)
  deriving DecidableEq, Repr, Inhabited

/-! ### The whole part -/

/-- The fault packet of a cell that froze in this f-cycle: the cell, the origin core it goes to, and its two words (R197, R198). -/
structure CellReport where
  parcel : Nat
  cell : Nat
  origin : Nat
  asid : BitVec 14
  code : Byte
  word0 : Word
  word1 : Word
  deriving DecidableEq, Repr, Inhabited

/-- The state of the part. `reports` holds the packets of cells that have frozen in this f-cycle (R197), `considered` the ready
launches and the regions that the last decision of the region scheduler found (R451), `images` the scale lanes of the words staged when a
Graticule was saved, by the address of its image (R325, R337, log 41). `next` is the agent that acts in the coming step, `tick` the count of steps that the
free values of `Config` are applied to (the model's own fields). `collapses` holds the pages (ASID, virtual page,
requesting province) whose collapse is asked for (R417), `tests` the stations (parcel, station) that an event of this f-cycle has
reached and whose completion test is still to come (R161), `stripTurns` the queues that wait for their strip, in turn order (R439,
R446), `heldWalks` the translations held at a migrating leaf (unit, ASID,
page number), which walk again when an invalidate covers their page (R416), `frontWrites` the Cartouche's writes that such
a page or a collapse holds back (ASID, province, address, bytes). `slices` is keyed by the holder of the sectors. -/
structure State where
  meridian : Word
  tick : Nat
  next : Turn
  mem : Memory
  deep : Memory
  versions : Table (BitVec 12)
  kept : Table (List (BitVec 12 × List Byte))
  holds : List VersionHold
  slices : Table (Table Line)
  overlays : List Overlay
  reds : List RedHome
  tiles : List RedTile
  signals : List Signal
  publishes : List Publish
  flight : List Packet
  reports : List CellReport
  lateKicks : List LateKick
  parcels : Table Parcel
  compasses : Table Compass
  provinces : Table Province
  regions : Table Region
  launches : Table Launch
  launchCount : Nat
  decisions : Nat
  considered : List Nat × List Nat
  queues : Table QueueShadow
  stripTurns : List Nat
  asids : Table Word
  grants : Table (Word × Word)
  dropped : Word
  segments : Table Segment
  sets : Table PageSet
  invalidates : List Invalidate
  collapses : List (Nat × Nat × Nat)
  tests : List (Nat × Nat)
  heldWalks : List (Writer × Nat × Nat)
  frontWrites : List (Nat × Nat × Word × List Byte)
  host : HostPort
  link : MoLink
  boot : Boot
  book : List BookEvent
  debugger : Debugger
  images : Table (Table (BitVec 32))
  deriving DecidableEq, Repr, Inhabited

/-- Why the machine stops with a fault. -/
inductive Fault where
  /-- Raised by every step after a device-fatal error: firmware holds the device until the next reset (R479).
  Safe: the manual says no region runs on. -/
  | deviceHeld
  deriving DecidableEq, Repr

/-- Why an instruction has no meaning here. -/
inductive Refusal where
  /-- An instruction whose arm has no meaning yet. Safe: nothing can be shown about a next state. -/
  | notModelled (mnemonic : String)
  deriving DecidableEq, Repr

/-! ### Reset values -/

/-- The default `CHPRIO` (R91). -/
def chprioDefault : Word := 0xC000000000000000
/-- The default `HANGIV` (R91). -/
def hangDefault : Word := 0x04000000

def Wakeup.reset : Wakeup := ⟨0, 0, 0, 0, 0, 0, false⟩
def Channel.reset : Channel := ⟨false, 0, 0, [], 0, 0, 0, Wakeup.reset, none⟩
/-- A core as it stands before a kernel is loaded. -/
def Core.reset : Core :=
  { regs := Vector.replicate 32 0, pc := 0, tcause := 0, tval := 0, tepc := 0, hangiv := hangDefault, asid := 0,
    chprio := chprioDefault, flags := 0, trap := false, wake := false, cls := 0, ch := 0, running := false,
    stopped := false, waiting := none, quiet := false, channels := [], last := Vector.replicate 4 0, outbound := [], icache := [],
    fences := Vector.replicate 6 0, since := none, gathered := [] }
/-- A lane register at load: payload 0, tag 0, every lane valid (R179). -/
def LaneReg.reset : LaneReg := ⟨0, 0xFFFF, 0⟩
def Queue.reset : Queue := ⟨[], [], [], 0⟩
/-- An empty slot (R214): operation word `0xFF00_0000_0000_0000`, guard word 0. -/
def emptySlot : BitVec 64 × BitVec 64 := (0xFF00000000000000, 0)
/-- A cell before any image is loaded (R179, R221). -/
def Cell.reset : Cell :=
  { v := Vector.replicate 16 LaneReg.reset, k := 0, iq := Vector.replicate 4 Queue.reset,
    oq := Vector.replicate 4 Queue.reset, named := 0, fired := false, fireCtx := 0, fireSlot := 0, flags := 0,
    gen := 0x6A09E667, mode := .running, faultReg := 0, faultAddr := 0, port := [], widening := none,
    replay := none, handed := 0, faulting := none, hung := none, select := 0, slots := [], consts := [], routes := Vector.replicate 4 0,
    config := 2, wires := Vector.replicate 4 none }
def WidePort.reset : WidePort := ⟨[], [], .free, .free⟩
def Stream.reset : Stream := ⟨0, false, 0, 0, 0, 0, 0, 0, 0, []⟩
def Graticule.reset : Graticule :=
  { slots := Vector.replicate 4 0, tiles := Vector.replicate 2 0, flags := 0, gen := 0xBB67AE85, queue := [],
    running := none, drains := [], finishing := [], saving := none, saved := false, lanes := [] }
def EncRequest.reset : EncRequest := ⟨0, 0, 0, [], [], false⟩
def Scribe.reset : Scribe := ⟨0, 0, [], [], 0, 0, 0, [], false, Vector.replicate 6 0⟩
def Exchange.reset : Exchange := ⟨false, [], [], [], [], []⟩
/-- A parcel after device reset; 8 return credits stand at the Compass's disposal (R291). -/
def Parcel.reset : Parcel :=
  { core := Core.reset, cells := [], ingress := Vector.replicate 4 0, ports := Vector.replicate 4 WidePort.reset,
    buffers := [], stations := [], travs := [], staged := none, trvFlags := 0, trvFault := [], streams := [], serial := 0,
    barrier := [], gr := Graticule.reset, windows := Vector.replicate 8 0, enc := EncRequest.reset, endCount := 0,
    ends := [], scribe := Scribe.reset, credits := 8, emits := [], exch := Exchange.reset, gated := false, wasReset := false,
    inits := [] }
def Compass.reset : Compass := ⟨none, []⟩
def Province.reset : Province := ⟨[], [], 511⟩
def QueueShadow.reset : QueueShadow := ⟨0, 0, 0, 0, 0, 0, 0, 0, 0, 0, 0⟩
def HostPort.reset : HostPort := ⟨[], 0, [], 0, [], false, 0, 0x2810, [], []⟩
def LinkPort.reset : LinkPort := ⟨[], 0, 0, false, false, false, none, 0, [], none, []⟩
def MoLink.reset : MoLink := ⟨[], [], [], 0, (1, 1, 1), 0, [], []⟩
def Boot.reset : Boot :=
  { phase := .off, flash := [], rom := [], fuses := [], image := [], fused := 0, ide := [], measures := [], vendor := 0,
    seed := [], certificate := [], answers := [], dump := none }
def Debugger.reset : Debugger := ⟨none, none, [], none, (0, 0), false, [], 0, []⟩

/-- The part right after reset: every counter, version and station at the value the manual states, memory with
nothing listed. The first step starts the boot ROM (R476). -/
def State.reset : State :=
  { meridian := 0, tick := 0, next := .event .powerUp, mem := [], deep := [], versions := [], kept := [], holds := [],
    slices := [], overlays := [], reds := [], tiles := [], signals := [], publishes := [], flight := [], reports := [], lateKicks := [],
    parcels := [], compasses := [], provinces := [], regions := [], launches := [], launchCount := 0,
    decisions := 0, considered := ([], []), queues := [], stripTurns := [], asids := [], grants := [], dropped := 0, segments := [], sets := [],
    invalidates := [], collapses := [], tests := [], heldWalks := [], frontWrites := [], host := HostPort.reset, link := MoLink.reset, boot := Boot.reset, book := [],
    debugger := Debugger.reset, images := [] }

end Sys2Proof.Machine
end

