-- ==== Sys2Proof/Machine/Maps.lean ====
section
/-! DEFINITION. Sparse tables, memory as a canonical list of cells, bytes and numbers, and the shape of a
meaning that may fault or wait. -/

namespace Sys2Proof.Machine

/-! ### Tables -/

/-- The value at an index, `d` where none is listed. -/
def Table.look {α : Type} (d : α) : Table α → Nat → α
  | [], _ => d
  | (i, v) :: t, k => if i = k then v else Table.look d t k

/-- The value at an index, if one is listed. -/
def Table.find {α : Type} : Table α → Nat → Option α
  | [], _ => none
  | (i, v) :: t, k => if i = k then some v else Table.find t k

/-- Store a value at an index, keeping indices rising. -/
def Table.put {α : Type} : Table α → Nat → α → Table α
  | [], k, x => [(k, x)]
  | (i, v) :: t, k, x =>
    if k < i then (k, x) :: (i, v) :: t else if k = i then (k, x) :: t else (i, v) :: Table.put t k x

/-- Take an index out of the list. -/
def Table.drop {α : Type} (t : Table α) (k : Nat) : Table α := t.filter fun e => e.1 ≠ k

/-- Apply a function to the value at an index, starting from `d` where none is listed. -/
def Table.alter {α : Type} (d : α) (t : Table α) (k : Nat) (f : α → α) : Table α := t.put k (f (t.look d k))

/-- Apply a function to every listed value. -/
def Table.each {α : Type} (t : Table α) (f : Nat → α → α) : Table α := t.map fun (e : Nat × α) => (e.1, f e.1 e.2)

/-- Keep the listed values that pass. -/
def Table.only {α : Type} (t : Table α) (f : Nat → α → Bool) : Table α := t.filter fun (e : Nat × α) => f e.1 e.2

/-- The lowest of some indices that a table does not list. -/
def Table.free {α : Type} (t : Table α) : List Nat → Option Nat
  | [] => none
  | k :: ks => match t.find k with
    | none => some k
    | some _ => t.free ks

/-! ### Memory -/

/-- What an unlisted byte reads as: the manual gives no contents of memory after reset (log 11, DESIGN CHOICE). -/
def blank : Byte := 0

/-- One byte. -/
def Memory.get (m : Memory) (a : Nat) : Byte := Table.look blank m a

/-- Store one byte; a byte equal to `blank` is not listed. -/
def Memory.set (m : Memory) (a : Nat) (b : Byte) : Memory :=
  match m with
  | [] => if b = blank then [] else [(a, b)]
  | (i, v) :: t =>
    if a < i then (if b = blank then (i, v) :: t else (a, b) :: (i, v) :: t)
    else if a = i then (if b = blank then t else (a, b) :: t)
    else (i, v) :: Memory.set t a b

/-- `n` bytes from `a`. -/
def Memory.bytes (m : Memory) (a n : Nat) : List Byte := (List.range n).map fun i => m.get (a + i)

/-- Store bytes one after another. -/
def Memory.write (m : Memory) (a : Nat) : List Byte → Memory
  | [] => m
  | b :: bs => Memory.write (m.set a b) (a + 1) bs

/-- The canonical form: addresses rise, and no listed byte is `blank`. -/
def Memory.wf : Memory → Bool
  | [] => true
  | (a, b) :: t => b ≠ blank && (match t with | [] => true | (c, _) :: _ => a < c) && Memory.wf t

/-! ### Numbers -/

/-- The word of eight little-endian bytes, or of fewer, extended with zeros. -/
def wordOf (bs : List Byte) : Word := BitVec.ofNat 64 (Decode.leNat bs)

/-- Bits `hi`..`lo` of a number (R1). -/
def bits (x hi lo : Nat) : Nat := x / 2 ^ lo % 2 ^ (hi + 1 - lo)

/-- Bits of a 64-bit word. -/
def wbits (x : Word) (hi lo : Nat) : Nat := bits x.toNat hi lo

/-- Bit `i` of a word. -/
def wbit (x : Word) (i : Nat) : Bool := x.getLsbD i

/-- `n` bytes of a list from `off`, zeros past its end. -/
def slice (bs : List Byte) (off n : Nat) : List Byte := (List.range n).map fun i => bs.getD (off + i) 0

/-- A little-endian field of a descriptor. -/
def field (bs : List Byte) (off n : Nat) : Nat := Decode.leNat (slice bs off n)

/-- Replace the bytes of a list from `off`. -/
def patch (bs : List Byte) (off : Nat) (new : List Byte) : List Byte :=
  bs.take off ++ new ++ bs.drop (off + new.length)

/-- Split into pieces of `n`, at most `k` of them. -/
def pieces {α : Type} (n : Nat) : Nat → List α → List (List α)
  | 0, _ => []
  | k + 1, l => if l.isEmpty then [] else l.take n :: pieces n k (l.drop n)

/-- Round up to a whole number of units. -/
def ceilDiv (a b : Nat) : Nat := (a + b - 1) / b

/-! ### Meanings that may stop -/

/-- Why an access ends early: a fault code with the value that goes with it, or a wait. -/
inductive Stop where
  | fault (code : Byte) (value : Word)
  | hold
  deriving DecidableEq, Repr, Inhabited

/-- A piece of an instruction's effect: it changes the state, and may fault or wait. -/
abbrev Act := EStateM Stop State

/-- End with a fault. -/
def raise {α : Type} (code : Byte) (value : Word) : Act α := throw (.fault code value)

/-- Fault unless a condition holds. -/
def check (ok : Bool) (code : Byte) (value : Word) : Act Unit := if ok then pure () else raise code value

/-- Fault codes (R6). -/
def codeIllegalContext : Byte := 0x01
def codeRouteConflict : Byte := 0x02
def codeIllegal : Byte := 0x03
def codeMisaligned : Byte := 0x04
def codePrivilege : Byte := 0x05
def codeScope : Byte := 0x08
def codeFpOverflow : Byte := 0x10
def codeFpInvalid : Byte := 0x11
def codeFpDivzero : Byte := 0x12
def codeIntDivzero : Byte := 0x13
def codeAbsent : Byte := 0x20
def codePermission : Byte := 0x21
def codeIdentity : Byte := 0x22
def codeHostUr : Byte := 0x28
def codeHostAbort : Byte := 0x29
def codeHostTimeout : Byte := 0x2A
def codeLatePromise : Byte := 0x30
def codeStationRange : Byte := 0x31
def codeBufferState : Byte := 0x32
def codeStationGone : Byte := 0x33
def codeAttachMiss : Byte := 0x38
def codeSegmentBusy : Byte := 0x39
def codeSegmentSpace : Byte := 0x3A
def codeQueueLength : Byte := 0x40
def codeKickRange : Byte := 0x41
def codeQueueHeader : Byte := 0x42
def codeOrphaned : Byte := 0x48
def codeEndStale : Byte := 0x49
def codeHang : Byte := 0x50
def codePoison : Byte := 0x51
def codeVersionGone : Byte := 0x58
def codeVersionWindow : Byte := 0x59
def codeLinkHole : Byte := 0x60
def codeTrellisRange : Byte := 0x68
def codeRecordSchema : Byte := 0x70
def codeDeepMedia : Byte := 0x78

end Sys2Proof.Machine
end

