-- ==== Sys2Proof/Machine/Memory.lean ====
section
/-! DEFINITION. Parcels and regions in the state, the physical map, sectors and versions, and the scoped homes of
HBM with release and acquire (chapters 1 and 3). -/

namespace Sys2Proof.Machine

/-! ### Finding a unit -/

def State.parcel (s : State) (p : Nat) : Parcel := s.parcels.look Parcel.reset p
def State.onParcel (s : State) (p : Nat) (f : Parcel → Parcel) : State :=
  { s with parcels := s.parcels.put p (f (s.parcel p)) }
def State.core (s : State) (p : Nat) : Core := (s.parcel p).core
def State.onCore (s : State) (p : Nat) (f : Core → Core) : State :=
  s.onParcel p fun x => { x with core := f x.core }
def State.cell (s : State) (p m : Nat) : Cell := (s.parcel p).cells.look Cell.reset m
def State.onCell (s : State) (p m : Nat) (f : Cell → Cell) : State :=
  s.onParcel p fun x => { x with cells := x.cells.put m (f (x.cells.look Cell.reset m)) }

/-- The parcel a unit stands in. -/
def unitParcel : Writer → Option Nat
  | .core p | .cell p _ | .engine p | .graticule p => some p
  | _ => none

/-- The live region that holds a parcel, with its origin (R13). -/
def State.regionOf (s : State) (p : Nat) : Option (Nat × Region) :=
  s.regions.find? fun e => e.1 ≤ p && p < e.1 + 2 ^ e.2.shape

def State.onRegion (s : State) (o : Nat) (f : Region → Region) : State :=
  { s with regions := s.regions.map fun e => if e.1 = o then (e.1, f e.2) else e }

/-- The parcels of a region. -/
def regionParcels (o : Nat) (r : Region) : List Nat := (List.range (2 ^ r.shape)).map (o + ·)

/-- The region a unit belongs to. -/
def State.unitRegion (s : State) (u : Writer) : Option (Nat × Region) := (unitParcel u).bind s.regionOf

/-- The province of a unit; the front end stands at the atlas and is given province 0. -/
def unitProvince (u : Writer) : Nat := ((unitParcel u).getD 0) / 64

/-! ### The physical map -/

/-- What stands at a physical address (R55, R57). -/
inductive Place where
  | hbm
  | parcel (n off : Nat)
  | bank (level node off : Nat)
  | control (off : Nat)
  | host (a : Nat)
  | reserved
  deriving DecidableEq, Repr, Inhabited

def windowBase : Nat := 0x010000000000
def sheetBase : Nat := 0x018000000000
def quadBase : Nat := 0x018010000000
def provinceBase : Nat := 0x018020000000
def controlBase : Nat := 0x01C000000000
def hostBase : Nat := 0x400000000000

/-- The physical map (R55). Slice banks are levels 2 (sheet), 3 (quadrangle) and 4 (province). -/
def placeOf (pa : Nat) : Place :=
  if pa < 0x00C000000000 then .hbm
  else if pa < windowBase then .reserved
  else if pa < 0x010080000000 then .parcel ((pa - windowBase) / 0x400000) ((pa - windowBase) % 0x400000)
  else if pa < sheetBase then .reserved
  else if pa < quadBase then .bank 2 ((pa - sheetBase) / 0x200000) ((pa - sheetBase) % 0x200000)
  else if pa < provinceBase then .bank 3 ((pa - quadBase) / 0x800000) ((pa - quadBase) % 0x800000)
  else if pa < 0x018030000000 then .bank 4 ((pa - provinceBase) / 0x2000000) ((pa - provinceBase) % 0x2000000)
  else if pa < controlBase then .reserved
  else if pa < 0x01C100000000 then .control (pa - controlBase)
  else if pa < hostBase then .reserved
  else if pa < 0x1000000000000 then .host (pa - hostBase)
  else .reserved

/-- Bytes of one way of a bank (R486). -/
def wayBytes : Nat → Nat
  | 2 => 0x8000 | 3 => 0x20000 | _ => 0x60000
/-- Parcels under a bank's node (R486). -/
def bankParcels : Nat → Nat
  | 2 => 4 | 3 => 16 | _ => 64
/-- First way and number of ways of a region's share of a bank (R486). -/
def bankShare (level o shape : Nat) : Nat × Nat :=
  let n := bankParcels level
  if n ≤ 2 ^ shape then (0, 64) else (64 * (o % n) / n, 64 * 2 ^ shape / n)
/-- The direct ways a region holds in each bank of a level (R448). -/
def directWays (r : Region) : Nat → Nat
  | 2 => r.ways.1 | 3 => r.ways.2.1 | _ => r.ways.2.2
/-- Whether a region keeps cache ways in the banks of a level (R486). -/
def hasCache (o : Nat) (r : Region) (level : Nat) : Bool := directWays r level < (bankShare level o r.shape).2
/-- Whether a bank offset lies in a direct way that the region holds there (R60). -/
def heldWay (o : Nat) (r : Region) (level node off : Nat) : Bool :=
  let sh := bankShare level o r.shape
  let w := off / wayBytes level
  let n := bankParcels level
  o < (node + 1) * n && node * n < o + 2 ^ r.shape && sh.1 ≤ w && w < sh.1 + directWays r level
/-- The physical address of an offset of a region's direct-way space in a node's bank (R486). -/
def directAddress (o shape level node x : Nat) : Nat :=
  let base := match level with
    | 2 => sheetBase + node * 0x200000 | 3 => quadBase + node * 0x800000 | _ => provinceBase + node * 0x2000000
  base + (bankShare level o shape).1 * wayBytes level + x

/-- The stack that holds an HBM address (R56). -/
def stackOf (pa : Nat) : Nat := bits pa 14 12
/-- The address within its stack of an HBM address (R56). -/
def stackAddress (pa : Nat) : Nat := bits pa 39 15 * 4096 + bits pa 11 0
/-- The HBM address that stands at an address within a stack (R56). -/
def stackPlace (stack a : Nat) : Nat := a / 4096 * 32768 + stack * 4096 + a % 4096

/-- Where the byte at a physical address is kept: the visible exchange half is one of two bank sets (R58). -/
def State.resolve (s : State) (pa : Nat) : Nat :=
  match placeOf pa with
  | .parcel n off =>
    if 0x60000 ≤ off && off < 0x70000 && (s.parcel n).exch.swapped then pa + 0x10000 else pa
  | _ => pa

/-- The shadow bank set's place for an exchange offset (R58). -/
def State.shadowAddress (s : State) (n off : Nat) : Nat :=
  windowBase + n * 0x400000 + (if (s.parcel n).exch.swapped then 0x60000 else 0x70000) + off

/-- Memory that carries versions: HBM, scratchpad banks and slice banks (R62). -/
def versioned (pa : Nat) : Bool :=
  match placeOf pa with
  | .hbm => true
  | .parcel _ off => off < 0x70000
  | .bank _ _ _ => true
  | _ => false

/-! ### Sectors and versions at the version home -/

/-- The sectors that `n` bytes from an address touch. -/
def sectorsOf (pa n : Nat) : List Nat :=
  if n = 0 then [] else (List.range ((pa + n - 1) / 32 + 1 - pa / 32)).map (pa / 32 + ·)

/-- The version of the sector at a physical address (R62). -/
def State.version (s : State) (pa : Nat) : BitVec 12 := s.versions.look 0 (s.resolve pa / 32)

/-- The distance of a named version from the current one (R63). -/
def distance (v c : BitVec 12) : Int := ((v.toNat : Int) - c.toNat + 2048) % 4096 - 2048

/-- Serve the held `LDV.EQ`s of a sector whose version the last `k` writes reached: they read the sector in the home
cycle of that write. Where several writes were merged on their way, each of them finds the merged bytes (R65, log 107). -/
def State.serveHolds (s : State) (sector k : Nat) : State :=
  let c := s.versions.look 0 sector
  if s.holds.isEmpty then s else
  { s with holds := s.holds.map fun h =>
      if h.sector = sector && h.data.isNone && distance h.version c ≤ 0 && -(k : Int) < distance h.version c
      then { h with data := some (s.mem.bytes (sector * 32) 32) } else h }

/-- Raise the version of a sector `k` times; kept versions 2,048 behind retire, and held reads of a version now reached
are served (R62, R65, R66). -/
def State.bump (s : State) (sector k : Nat) : State :=
  let c := s.versions.look 0 sector + BitVec.ofNat 12 k
  ({ s with
    versions := s.versions.put sector c
    kept := match s.kept.find sector with
      | none => s.kept
      | some l => s.kept.put sector (l.filter fun e => decide (-(2048 : Int) + k < distance e.1 (c - BitVec.ofNat 12 k))) }
    : State).serveHolds sector k

/-- One write performed at the place that holds the bytes: each sector's version grows by one (R62). -/
def State.homeWrite (s : State) (pa : Nat) (data : List Byte) : State :=
  let a := s.resolve pa
  let s1 := { s with mem := s.mem.write a data }
  if versioned pa then (sectorsOf a data.length).foldl (fun t x => t.bump x 1) s1 else s1

/-- Bytes as the place that holds them has them. -/
def State.homeRead (s : State) (pa n : Nat) : List Byte := s.mem.bytes (s.resolve pa) n

/-! ### Scoped homes of HBM (R69-R73) -/

/-- The level of a scope's home: 0 the cell, 1 the parcel's arbiter, 2-4 the slices, 5 the device home. A Surveyor
core and an engine treat `.c` as `.p` (R69, R114). -/
def scopeLevel (u : Writer) : Scope → Nat
  | .c => match u with | .cell _ _ => 0 | _ => 1
  | .p => 1 | .s => 2 | .q => 3 | .v => 4 | .d | .y => 5

/-- The key of a holder: level, node and region origin. -/
def holderKey (level node o : Nat) : Nat := (node * 8 + level) * 512 + o

/-- The holders on the path of a parcel's unit towards the stack that holds `pa`, narrowest first: the cell itself,
the arbiter, and the slices in which the region has cache ways; the province slice of the owning stack is the
device home (R69, R486). -/
def holders (u : Writer) (o : Nat) (r : Region) (pa : Nat) : List (Nat × Nat) :=
  match unitParcel u with
  | none => []
  | some p =>
    (match u with | .cell _ m => [(0, holderKey 0 (p * 16 + m) o)] | _ => []) ++
    [(1, holderKey 1 p o)] ++
    (if hasCache o r 2 then [(2, holderKey 2 (p / 4) o)] else []) ++
    (if hasCache o r 3 then [(3, holderKey 3 (p / 16) o)] else []) ++
    (if hasCache o r 4 && stackOf pa ≠ p / 64 then [(4, holderKey 4 (p / 64) o)] else [])

def emptyLine : Line := ⟨List.replicate 32 0, 0, 0, 0, []⟩

/-- A line that holds nothing: no dirty byte, no clean copy, no write to hand on. -/
def Line.empty (l : Line) : Bool := l.dirty = 0 && l.source = 0 && l.merges = 0

/-- The bytes of a held sector that a unit stored. -/
def ownMask (u : Writer) (l : List (Writer × BitVec 32)) : BitVec 32 :=
  (l.filter fun e => e.1 = u).foldl (fun m e => m ||| e.2) 0
/-- A unit has stored bytes of a sector: they are its stores beside whoever stored them before. -/
def addOwner (u : Writer) (m : BitVec 32) (l : List (Writer × BitVec 32)) : List (Writer × BitVec 32) :=
  (l.filter fun e => e.1 ≠ u) ++ [(u, ownMask u l ||| m)]
/-- Bytes of a sector are dirty no more. -/
def clearOwners (m : BitVec 32) (l : List (Writer × BitVec 32)) : List (Writer × BitVec 32) :=
  (l.map fun e => (e.1, e.2 &&& ~~~m)).filter fun e => e.2 ≠ 0

/-- What a holder holds. -/
def State.holding (s : State) (key : Nat) : Table Line := Table.look ([] : Table Line) s.slices key
def State.line (s : State) (key sector : Nat) : Line := (s.holding key).look emptyLine sector
def State.setLine (s : State) (key sector : Nat) (l : Line) : State :=
  let t : Table Line := s.holding key
  let t' : Table Line := if l.empty then t.drop sector else t.put sector l
  { s with slices := s.slices.put key t' }

/-- The path of a unit, empty where its accesses go straight to the device home. -/
def State.path (s : State) (u : Writer) (noalloc : Bool) (pa : Nat) : List (Nat × Nat) :=
  if noalloc then [] else
  match s.unitRegion u with
  | none => []
  | some (o, r) => holders u o r pa

/-- One byte of a sector as a load of level `lvl` finds it along a path. Dirty bytes at the home of the level or
beyond it are found, and so are the unit's own below it: always where R84 and R86 keep a store before a load of a common
sector, else where the free choice says so (R70). A clean copy below the home is found where the free choice says so
(R71); otherwise the byte is the device home's. -/
def State.pathByte (s : State) (u : Writer) (lvl sector i : Nat) : List (Nat × Nat) → Byte
  | [] => s.mem.get (sector * 32 + i)
  | (h, key) :: rest =>
    let l := s.line key sector
    let own := (ownMask u l.owners).getLsbD i && (lvl < 2 || lvl = 5 || Config.useCopy s.tick)
    if l.dirty.getLsbD i && (lvl ≤ h || own) then l.bytes.getD i 0
    else if h ≥ 2 && !l.dirty.getLsbD i && l.source ≠ 0 && (lvl ≤ l.source || lvl ≤ h) && Config.useCopy s.tick then l.bytes.getD i 0
    else s.pathByte u lvl sector i rest

/-- A whole sector along a path. -/
def State.pathSector (s : State) (u : Writer) (lvl sector : Nat) (path : List (Nat × Nat)) : List Byte :=
  (List.range 32).map fun i => s.pathByte u lvl sector i path

/-- The level of the nearest holder of a sector on a path, the device home's 5 when none holds it. -/
def State.foundAt (s : State) (sector : Nat) (path : List (Nat × Nat)) : Nat :=
  match path.find? fun e => (s.line e.2 sector).dirty ≠ 0 || (s.line e.2 sector).source ≠ 0 with
  | some e => e.1
  | none => 5

/-- Leave clean copies of the home's value of a sector in the slices up to the home (R71, R119). -/
def State.fill (s : State) (u : Writer) (lvl sector : Nat) : List (Nat × Nat) → State
  | [] => s
  | (h, key) :: rest =>
    let s1 := s.fill u lvl sector rest
    if h < 2 || lvl < h then s1 else
      let l := s1.line key sector
      let home := rest.filter fun e => lvl ≤ e.1
      let v := s1.pathSector u lvl sector home
      let bs := (List.range 32).map fun i => if l.dirty.getLsbD i then l.bytes.getD i 0 else v.getD i 0
      s1.setLine key sector { l with bytes := bs, source := if h < lvl then lvl else s1.foundAt sector home }

/-- A load of HBM at a scope (R71): the bytes, and the copies it leaves. -/
def State.scopedRead (s : State) (u : Writer) (sc : Scope) (noalloc : Bool) (pa n : Nat) : List Byte × State :=
  let path := s.path u noalloc pa
  let lvl := scopeLevel u sc
  let bs := (List.range n).map fun i => s.pathByte u lvl ((pa + i) / 32) ((pa + i) % 32) path
  (bs, if lvl < 2 then s else (sectorsOf pa n).foldl (fun t x => t.fill u lvl x path) s)

/-- Mask of bytes `i` to `i + n - 1` of a sector. -/
def byteMask (i n : Nat) : BitVec 32 := BitVec.ofNat 32 ((2 ^ n - 1) * 2 ^ i)

/-- The level of a holder's key. -/
def keyLevel (key : Nat) : Nat := key / 512 % 8
/-- The level that a clean copy counts as fetched from, once bytes have come to it that are accepted at a level only. -/
def Line.nearer (l : Line) (lvl : Nat) : Nat := min l.source lvl

/-- Put bytes into a held sector: dirty at the home of level `lvl`, clean below it, where the copy is then no older than that
home's and comes from no wider one (R71). A write whose bytes are all overwritten below the home still counts where it goes
on to (R62, R69, R70). -/
def lineStore (u : Writer) (l : Line) (i : Nat) (data : List Byte) (home : Bool) (lvl : Nat) : Line :=
  let m := byteMask i data.length
  if home then { l with bytes := patch l.bytes i data, dirty := l.dirty ||| m, merges := l.merges + 1,
                         owners := addOwner u m l.owners }
  else { l with bytes := patch l.bytes i data, dirty := l.dirty &&& ~~~m, source := l.nearer lvl,
                owners := clearOwners m l.owners }

/-- A store of bytes of one sector at the home of its level; narrower holders that keep the sector take the new
bytes after it (R70). -/
def State.storeSector (s : State) (u : Writer) (lvl pa : Nat) (data : List Byte) : List (Nat × Nat) → State
  | [] => s.homeWrite pa data
  | (h, key) :: rest =>
    let sector := pa / 32
    if lvl ≤ h then s.setLine key sector (lineStore u (s.line key sector) (pa % 32) data true lvl)
    else
      let s1 := s.storeSector u lvl pa data rest
      let l := s1.line key sector
      if l.empty then s1
      else s1.setLine key sector (lineStore u l (pa % 32) data false lvl)

/-- Further bytes of a write that already counts in their sector: they follow it, and no version or merge count
changes (R62). -/
def State.extendSector (s : State) (u : Writer) (lvl pa : Nat) (data : List Byte) : List (Nat × Nat) → State
  | [] => { s with mem := s.mem.write (s.resolve pa) data }
  | (h, key) :: rest =>
    let sector := pa / 32
    let l := s.line key sector
    if lvl ≤ h then s.setLine key sector { lineStore u l (pa % 32) data true lvl with merges := l.merges }
    else
      let s1 := s.extendSector u lvl pa data rest
      if l.empty then s1
      else s1.setLine key sector (lineStore u (s1.line key sector) (pa % 32) data false lvl)

/-- Cut a run of bytes at sector boundaries. -/
def sectorPieces (pa : Nat) : Nat → List Byte → List (Nat × List Byte)
  | 0, _ => []
  | k + 1, data =>
    if data.isEmpty then [] else
      let n := 32 - pa % 32
      (pa, data.take n) :: sectorPieces (pa + n) k (data.drop n)

/-- Runs of dirty bytes of a held sector. -/
def dirtyBytes (l : Line) : List (Nat × Byte) :=
  (List.range 32).filterMap fun i => if l.dirty.getLsbD i then some (i, l.bytes.getD i 0) else none

/-- Write the dirty bytes of a held sector on to the next holder of the path, or to the device home, where each
merged write counts (R62, R69). What stays is a clean copy of that holder's bytes, and of no wider home's (R71). -/
def State.writeOn (s : State) (key sector : Nat) (up : Option Nat) : State :=
  let l := s.line key sector
  if l.dirty = 0 && l.merges = 0 then s else
    let s1 := s.setLine key sector { l with dirty := 0, merges := 0, owners := [], source := l.nearer ((up.map keyLevel).getD 5) }
    match up with
    | some k =>
      let t := s1.line k sector
      s1.setLine k sector
        { t with
          bytes := (dirtyBytes l).foldl (fun (b : List Byte) (e : Nat × Byte) => b.set e.1 e.2) t.bytes,
          dirty := t.dirty ||| l.dirty,
          merges := t.merges + l.merges,
          owners := l.owners.foldl (fun w e => addOwner e.1 e.2 w) t.owners }
    | none =>
      let mem := (dirtyBytes l).foldl (fun (m : Memory) (e : Nat × Byte) => m.set (sector * 32 + e.1) e.2) s1.mem
      ({ s1 with mem := mem }).bump sector l.merges

/-- A unit's own narrower stores of a sector go on to the home of a level before its wider store there, where the
matrices keep the two in order: inside the parcel and at device scope (R84-R86, R88 note f). -/
def State.pushOwn (s : State) (u : Writer) (lvl sector : Nat) : List (Nat × Nat) → State
  | [] => s
  | (h, key) :: rest =>
    if lvl ≤ h then s else
    let s1 := if (lvl < 2 || lvl = 5) && ownMask u (s.line key sector).owners ≠ 0
      then s.writeOn key sector (rest.head?.map (·.2)) else s
    s1.pushOwn u lvl sector rest

/-- A store to HBM at a scope (R70). A store of 64 bytes is performed in both its sectors in one step: no unit acts between
them, where R61 promises atomicity in each sector only (log 108). -/
def State.scopedWrite (s : State) (u : Writer) (sc : Scope) (noalloc : Bool) (pa : Nat) (data : List Byte) : State :=
  let path := s.path u noalloc pa
  let lvl := scopeLevel u sc
  (sectorPieces pa (data.length / 32 + 2) data).foldl
    (fun t e => (t.pushOwn u lvl (e.1 / 32) path).storeSector u lvl e.1 e.2 path) s

/-- Write every dirty sector of a holder on. -/
def State.drainHolder (s : State) (key : Nat) (up : Option Nat) : State :=
  (s.holding key).foldl (fun t e => t.writeOn key e.1 up) s

/-- Where the holder after level `h` for a sector is. -/
def nextHolder (u : Writer) (o : Nat) (r : Region) (h pa : Nat) : Option Nat :=
  ((holders u o r pa).find? fun e => h < e.1).map (·.2)

/-- A release of a core stands between its earlier and its later enqueues, at every level up to its scope (R82). -/
def Core.fence (c : Core) (lvl : Nat) : Core :=
  { c with fences := c.fences.zipWith (fun n i => if i ≤ lvl then n + 1 else n) (Vector.range 6) }
def State.fenceEnqueues (s : State) (u : Writer) (lvl : Nat) : State :=
  match u with
  | .core p => s.onCore p fun c => c.fence lvl
  | _ => s

/-- The writes and the dirty sectors below a scope on a unit's path reach its home there (R72). -/
def State.drainPath (s : State) (u : Writer) (sc : Scope) : State :=
  match s.unitRegion u, unitParcel u with
  | some (o, r), some p =>
    let lvl := scopeLevel u sc
    let keys := (match u with | .cell _ m => [(0, holderKey 0 (p * 16 + m) o)] | _ => []) ++
      [(1, holderKey 1 p o), (2, holderKey 2 (p / 4) o), (3, holderKey 3 (p / 16) o), (4, holderKey 4 (p / 64) o)]
    (keys.filter fun e => e.1 < lvl).foldl
      (fun t e => (t.holding e.2).foldl
        (fun t2 x => t2.writeOn e.2 x.1 (nextHolder u o r e.1 (x.1 * 32))) t) s
  | _, _ => s

/-- A release at a scope: the writes and the dirty sectors below it on the issuer's path reach its home there, and a core's
enqueues are ordered (R72, R82). -/
def State.release (s : State) (u : Writer) (sc : Scope) : State :=
  (s.drainPath u sc).fenceEnqueues u (scopeLevel u sc)

/-- Invalidate every clean copy that a holder keeps. -/
def State.invalidate (s : State) (key : Nat) : State :=
  let kept : Table Line := (s.holding key).filterMap fun x =>
    if x.2.dirty = 0 && x.2.merges = 0 then none else some (x.1, { x.2 with source := 0 })
  { s with slices := s.slices.put key kept }

/-- An acquire at a scope: clean copies below it on the issuer's path are invalidated (R73). -/
def State.acquire (s : State) (u : Writer) (sc : Scope) : State :=
  match s.unitRegion u, unitParcel u with
  | some (o, _), some p =>
    let lvl := scopeLevel u sc
    let keys := [(2, holderKey 2 (p / 4) o), (3, holderKey 3 (p / 16) o), (4, holderKey 4 (p / 64) o)]
    (keys.filter fun e => e.1 < lvl).foldl (fun t e => t.invalidate e.2) s
  | _, _ => s

/-- The holder of a key: its level, and a parcel under its node. -/
def holderParcel (key : Nat) : Nat × Nat :=
  let level := key / 512 % 8
  let node := key / 4096
  (level, match level with
    | 0 => node / 16 | 1 => node | 2 => node * 4 | 3 => node * 16 | _ => node * 64)

/-- What a cache does by itself: a held sector is written on and its clean copy dropped. It changes no value at the
home of any scope that a unit was promised (R69, R70). -/
def State.evictLine (s : State) (key sector : Nat) : State :=
  let (level, p) := holderParcel key
  match s.regionOf p with
  | none => s
  | some (o, r) =>
    let s1 := s.writeOn key sector (nextHolder (.engine p) o r level (sector * 32))
    s1.setLine key sector { s1.line key sector with source := 0 }

/-- Everything a region's caches hold is written on, as when its ways are taken from it (R16, R456). -/
def State.flushRegion (s : State) (o : Nat) : State :=
  if 512 ≤ o then s else
  let mine := s.slices.filter fun e => e.1 % 512 = o
  let byLevel := fun k => mine.filter fun e => e.1 / 512 % 8 = k
  let s1 := ([0, 1, 2, 3, 4].flatMap byLevel).foldl (fun t e =>
    (t.holding e.1).foldl (fun t2 x =>
      let (level, p) := holderParcel e.1
      t2.writeOn e.1 x.1 (match t2.regions.find o with
        | some r => nextHolder (.engine p) o r level (x.1 * 32)
        | none => none)) t) s
  { s1 with slices := s1.slices.filter fun e => e.1 % 512 ≠ o }

end Sys2Proof.Machine
end

