-- ==== Sys2Proof/Machine/Translate.lean ====
section
/-! DEFINITION. Address translation: walks, leaf checks, projection caches, segment views and the reservation of
segment bytes (chapters 18 and 19). -/

namespace Sys2Proof.Machine

/-- What an access needs of a leaf (R411, R417). -/
inductive AccessKind where
  | read | versionRead | write | reclaim | atomic | fetch
  deriving DecidableEq, Repr, Inhabited

/-- A translated address with its leaf entry and the log of the page size. -/
structure Mapping where
  pa : Nat
  leaf : BitVec 128
  size : Nat
  deriving DecidableEq, Repr, Inhabited

/-- What comes of a translation: an address, a fault code, or a wait (R411, R416, R417). -/
inductive Translated where
  | ok (m : Mapping)
  | bad (code : Byte)
  | wait
  deriving DecidableEq, Repr, Inhabited

/-! ### The walk (R408-R411) -/

/-- A 16-byte table entry as the walker reads it at `.d`. -/
def State.tableEntry (s : State) (node idx : Nat) : BitVec 128 :=
  BitVec.ofNat 128 (Decode.leNat (s.mem.bytes (node + 16 * idx) 16))

def leafValid (e : BitVec 128) : Bool := e.getLsbD 0
def leafIsLeaf (e : BitVec 128) : Bool := e.getLsbD 1
def leafRun (e : BitVec 128) : Nat := (e.extractLsb' 8 3).toNat
def leafFrame (e : BitVec 128) : Nat := (e.extractLsb' 64 52).toNat
def leafIdentity (e : BitVec 128) : BitVec 16 := e.extractLsb' 16 16
def leafKind (e : BitVec 128) : Nat := (e.extractLsb' 6 2).toNat
def leafDup (e : BitVec 128) : Bool := e.getLsbD 11
def leafMigrating (e : BitVec 128) : Bool := e.getLsbD 12
def leafTracked (e : BitVec 128) : Bool := e.getLsbD 13
def leafNoAllocate (e : BitVec 128) : Bool := e.getLsbD 14

/-- The run codes a level lists, largest first (R410). -/
def runCodes : Nat → List Nat
  | 0 => [6, 4, 2] | 1 => [7, 5, 3, 1] | 2 => [2] | _ => []

/-- `Select` (R410): the entry a walk uses, none where it ends with `PAGE_ABSENT`. -/
def State.selectEntry (s : State) (node level idx : Nat) : Option (BitVec 128 × Nat) :=
  let run := (runCodes level).findSome? fun r =>
    let i := idx / 2 ^ r * 2 ^ r
    let e := s.tableEntry node i
    if leafValid e && leafIsLeaf e && leafRun e = r then some (e, i) else none
  match run with
  | some x => some x
  | none =>
    let e := s.tableEntry node idx
    if leafValid e && leafIsLeaf e && leafRun e ≠ 0 then none else some (e, idx)

/-- The log of the size a leaf maps, where level and run code are legal (R410). -/
def leafSize (level run : Nat) : Option Nat :=
  if level = 0 && run ∈ [0, 2, 4, 6] then some (12 + run)
  else if level = 1 && run ∈ [0, 1, 3, 5, 7] then some (20 + run)
  else if level = 2 && run = 2 then some 30 else none

/-- Whether a memory kind matches what stands at a frame (R409, R411). -/
def kindMatches (kind : Nat) : Place → Bool
  | .hbm => kind = 0
  | .parcel _ _ | .bank _ _ _ | .control _ => kind = 1
  | .host _ => kind = 2
  | .reserved => false

/-- The HBM that firmware reserves for the dump, which no leaf may map: from here to the end of HBM (R482, log 106). -/
def firmwareBase : Nat := 0x00BF00000000
def hbmEnd : Nat := 0x00C000000000
/-- The checks on a leaf that end a walk with `PAGE_ABSENT` (R409, R411, R417, R482). -/
def leafOk (level : Nat) (e : BitVec 128) : Option Nat :=
  match leafSize level (leafRun e) with
  | none => none
  | some sz =>
    let pa := leafFrame e * 4096
    if e.extractLsb' 116 12 = 0 && e.extractLsb' 100 16 = 0 && e.extractLsb' 32 32 = 0 &&
       !e.getLsbD 15 && !e.getLsbD 5 && pa % 2 ^ sz = 0 && kindMatches (leafKind e) (placeOf pa) &&
       (pa + 2 ^ sz ≤ firmwareBase || hbmEnd ≤ pa) && (!leafDup e || (sz = 12 && leafKind e = 0 && leafFrame e % 8 = 0))
    then some sz else none

/-- A walk from a node of level `n - 1` down (R408): the leaf, its size, and where the entry stands. -/
def State.walkFrom (s : State) (va : Nat) : Nat → Nat → Option (BitVec 128 × Nat × Nat)
  | 0, _ => none
  | level + 1, node =>
    let idx := if level = 5 then bits va 56 52 else bits va (19 + 8 * level) (12 + 8 * level)
    match s.selectEntry node level idx with
    | none => none
    | some (e, i) =>
      if !leafValid e then none
      else if leafIsLeaf e then (leafOk level e).map fun sz => (e, sz, node + 16 * i)
      else
        let next := leafFrame e * 4096
        if level ≠ 0 && e.extractLsb' 116 12 = 0 && e.extractLsb' 2 62 = 0 && placeOf next = .hbm
        then s.walkFrom va level next else none

/-- The root node of an ASID, where its table entry is valid (R406). -/
def State.rootOf (s : State) (asid : Nat) : Option Nat :=
  let e := s.asids.look 0 asid
  if e.getLsbD 0 then some ((e.extractLsb' 12 36).toNat * 4096) else none

/-- The whole walk of a virtual address outside the view space. -/
def State.walk (s : State) (asid va : Nat) : Option (BitVec 128 × Nat × Nat) :=
  match s.rootOf asid with
  | none => none
  | some root => s.walkFrom va 6 root

/-- The access check on a leaf (R411, R412). The front end carries no identity. -/
def leafAllows (k : AccessKind) (identity : Option (BitVec 16)) (e : BitVec 128) : Option Byte :=
  let r := e.getLsbD 4
  let w := e.getLsbD 3
  let x := e.getLsbD 2
  let right := match k with
    | .read | .versionRead => r
    | .write | .reclaim => w
    | .atomic => r && w
    | .fetch => x
  if !right then some codePermission
  else match identity with
    | none => none
    | some i => if leafIdentity e = 0 || leafIdentity e = i then none else some codeIdentity

/-- Which accesses collapse a read-duplicated page (R417). -/
def collapsing : AccessKind → Bool
  | .read | .fetch => false
  | _ => true

/-! ### Projection caches (R414) -/

def State.province (s : State) (v : Nat) : Province := s.provinces.look Province.reset v

/-- Keep a translation in the cluster of a province. -/
def State.keepTranslation (s : State) (v : Nat) (t : Translation) : State :=
  let pr := s.province v
  let rest := pr.proj.filter fun x =>
    !(x.region = t.region && x.asid = t.asid && x.identity = t.identity && x.page = t.page)
  { s with provinces := s.provinces.put v { pr with proj := t :: rest } }

/-- A translation that a region's partition of a cluster holds: it stays valid until an invalidate covers it, or until the
partition is freed (R414). -/
def State.cached (s : State) (v region asid identity va : Nat) : Option Translation :=
  (s.province v).proj.find? fun t =>
    t.region = region && t.asid = asid && t.identity = identity && t.page ≤ va && va < t.page + 2 ^ t.size

/-- Judge a leaf for an access by a unit of province `v` (R411, R416, R417). -/
def judgeLeaf (v va : Nat) (k : AccessKind) (identity : Option (BitVec 16)) (e : BitVec 128) (sz : Nat) :
    Translated :=
  if leafMigrating e then .wait
  else match leafAllows k identity e with
    | some c => .bad c
    | none =>
      if leafDup e then
        if collapsing k then .wait else .ok ⟨(leafFrame e + v) * 4096 + va % 4096, e, sz⟩
      else .ok ⟨leafFrame e * 4096 + va % 2 ^ sz, e, sz⟩

/-- Remember that a unit of a province asks for a page's collapse (R417). -/
def State.askCollapse (s : State) (asid page v : Nat) : State :=
  if (asid, page, v) ∈ s.collapses then s else { s with collapses := s.collapses ++ [(asid, page, v)] }

/-- Ask for the collapse of a page where an access needs it (R417). -/
def State.askAccess (s : State) (v asid va : Nat) (k : AccessKind) (identity : Option (BitVec 16)) (e : BitVec 128) : State :=
  if leafDup e && collapsing k && !leafMigrating e && leafAllows k identity e = none
  then s.askCollapse asid (va / 4096 * 4096) v else s

/-- Whether a unit's translation of a page is held (R416). -/
def State.walkHeld (s : State) (u : Writer) (asid va : Nat) : Bool := (u, asid, va / 4096) ∈ s.heldWalks
/-- Hold a unit's translation at a migrating leaf (R416). -/
def State.holdWalk (s : State) (u : Writer) (asid va : Nat) : State :=
  if s.walkHeld u asid va then s else { s with heldWalks := s.heldWalks ++ [(u, asid, va / 4096)] }

/-- Translate in an address space's tables through a region's partition of a cluster. A migrating leaf holds the
translation; a fault is not kept (R407, R411, R414, R416). -/
def State.lookup (s : State) (u : Writer) (region v asid va : Nat) (k : AccessKind) (identity : Option (BitVec 16)) :
    Translated × State :=
  let id := (identity.getD 0).toNat
  if s.walkHeld u asid va then (.wait, s) else
  match s.cached v region asid id va with
  | some t => (judgeLeaf v va k identity t.leaf t.size, s.askAccess v asid va k identity t.leaf)
  | none =>
    match s.walk asid va with
    | none => (.bad codeAbsent, s)
    | some (e, sz, _) =>
      if leafMigrating e then (.wait, s.holdWalk u asid va) else
      let s1 := if leafAllows k identity e = none
        then s.keepTranslation v ⟨region, asid, id, va / 2 ^ sz * 2 ^ sz, sz, leafFrame e, e⟩ else s
      (judgeLeaf v va k identity e sz, s1.askAccess v asid va k identity e)

/-- Drop from every cluster, from the walker's run-ahead and from the ASID's instruction caches what overlaps a range of
pages; 0 pages means every page (R420). -/
def State.dropTranslations (s : State) (asid first pages : Nat) : State :=
  let hit := fun (a n : Nat) => pages = 0 || (a < first + 4096 * pages && first < a + n)
  let s1 := { s with provinces := s.provinces.each fun _ x =>
    { x with proj := x.proj.filter fun t => !(t.asid = asid && hit t.page (2 ^ t.size)) } }
  { s1 with parcels := s1.parcels.each fun _ x =>
    if x.core.asid.toNat = asid
    then { x with core := { x.core with icache := x.core.icache.only fun l _ => !hit (l * 64) 64 }
                  travs := x.travs.each fun _ t => { t with pages := t.pages.filter fun e => !hit e.1 4096 } }
    else x }

/-- Held translations of a range of pages walk again (R416). -/
def State.resumeWalks (s : State) (asid first pages : Nat) : State :=
  { s with heldWalks := s.heldWalks.filter fun h =>
      !(h.2.1 = asid && (pages = 0 || (first ≤ h.2.2 * 4096 && h.2.2 * 4096 < first + 4096 * pages))) }

/-! ### Segments as places (R389-R396) -/

/-- The first parcel of a segment in the region it is resident in (R391). -/
def Segment.firstParcel (g : Segment) : Nat := g.origin + g.place.r0

/-- Parcels a segment's unit stands for. -/
def segUnits (g : Segment) : Nat := if g.place.slice then 1 else 2 ^ g.place.j

/-- A segment's size in bytes (R390). -/
def Segment.bytes (g : Segment) : Nat := segUnits g * g.place.size

/-- The node of a bank level that holds a parcel. -/
def nodeOf (level p : Nat) : Nat := p / bankParcels level

/-- The physical address of a byte of a segment placed at an origin (R390, R391, R486). -/
def segmentByte (g : Segment) (origin b : Nat) : Nat :=
  let p := origin + g.place.r0
  if g.place.slice then
    let lv := g.place.level + 1
    directAddress origin 0 lv (nodeOf lv p) (g.place.off + b)
  else windowBase + (p + b / g.place.size) * 0x400000 + g.place.off + b % g.place.size

/-- Whether a segment's bytes lie on chip (R392). -/
def segResident (g : Segment) : Bool :=
  match g.state with
  | .resident | .attached | .spilling => true
  | _ => false

/-- Whether a segment's place, where it stands or stood last, covers a physical address. -/
def segPlaced (g : Segment) (pa : Nat) : Bool :=
  if g.place.slice then
    let a := segmentByte g g.origin 0
    a ≤ pa && pa < a + g.place.size
  else match placeOf pa with
    | .parcel n off => g.firstParcel ≤ n && n < g.firstParcel + 2 ^ g.place.j &&
        g.place.off ≤ off && off < g.place.off + g.place.size
    | _ => false
/-- Whether a resident segment covers a physical address. -/
def segCovers (g : Segment) (pa : Nat) : Bool := segResident g && segPlaced g pa
/-- Whether the spill that a unit's access to `n` bytes needed has failed (R405). -/
def State.spillFailed (s : State) (u : Writer) (pa n : Nat) : Bool :=
  s.segments.any fun (e : Nat × Segment) => u ∈ e.2.failed && (segPlaced e.2 pa || segPlaced e.2 (pa + n - 1))

/-- The resident segments that an access to `n` bytes touches and the unit's kernel does not hold (R396). -/
def State.reservers (s : State) (u : Writer) (pa n : Nat) : List (Nat × Segment) :=
  let mine := (s.unitRegion u).map (·.1)
  s.segments.filter fun e =>
    (segCovers e.2 pa || segCovers e.2 (pa + n - 1)) && !(e.2.state = .attached && e.2.holder = mine && mine ≠ none)

/-- Whether a reserved segment refuses an access: an attached or pinned one, and a spilling one but for the units whose
accesses its spill holds; a pin set during a spill acts on later spills only (R396, R402). -/
def Segment.refuses (g : Segment) (u : Writer) : Bool :=
  match g.state with
  | .attached => true
  | .spilling => u ∉ g.needers
  | _ => g.pinned

/-- The segment with the oldest detach stamp (R396). -/
def oldestOf (l : List (Nat × Segment)) : Option (Nat × Segment) :=
  l.foldl (fun (b : Option (Nat × Segment)) e =>
    match b with
    | none => some e
    | some x => if e.2.stamp.toNat < x.2.stamp.toNat then some e else b) none

/-- What R396 does with an access to reserved bytes by a unit whose kernel holds no attachment; after a spill that
failed, the unit that needed the bytes takes `SEGMENT_SPACE` (R405). -/
def State.reserved (s : State) (u : Writer) (pa n : Nat) : Option Stop × State :=
  let hits := s.reservers u pa n
  if s.spillFailed u pa n then (some (.fault codeSegmentSpace 0), s)
  else if hits.isEmpty then (none, s)
  else if hits.any fun e => e.2.refuses u then (some (.fault codePermission 0), s)
  else if hits.any fun e => e.2.state = .spilling then (some .hold, s)
  else match oldestOf hits with
    | some (d, g) => (some .hold, { s with segments := s.segments.put d { g with state := .spilling, asked := false,
                                                                                 needers := u :: g.needers } })
    | none => (some .hold, s)

/-- A unit whose access failed with `SEGMENT_SPACE` needs the bytes no more: a later access starts a spill anew
(R396, R405). -/
def State.needMet (s : State) (u : Writer) (code : Byte) : State :=
  if code = codeSegmentSpace then
    { s with segments := s.segments.each fun _ g => { g with failed := g.failed.filter (· ≠ u) } }
  else s

/-- The view of a segment: its directory index and byte, from a virtual address with bit 56 set (R395). -/
def viewOf (va : Nat) : Nat × Nat := ((va - 2 ^ 56) / 2 ^ 28, (va - 2 ^ 56) % 2 ^ 28)

/-- The view address of a directory entry (R395). -/
def viewAddress (d : Nat) : Word := BitVec.ofNat 64 (2 ^ 56 + d * 2 ^ 28)

/-- Translate an address of the view space for a kernel (R395). -/
def State.viewLookup (s : State) (o : Nat) (asid : BitVec 14) (va : Nat) (k : AccessKind) : Translated :=
  let (d, b) := viewOf va
  match s.segments.find d with
  | none => .bad codeAttachMiss
  | some g =>
    if !(g.state = .attached && g.holder = some o && g.asid = asid) then .bad codeAttachMiss
    else if g.bytes ≤ b then .bad codeAbsent
    else match k with
      | .fetch => .bad codePermission
      | _ => .ok ⟨segmentByte g g.origin b, 0x5B, 12⟩

/-! ### Translation for a unit -/

/-- Take the outcome of a translation: its state, and its mapping, fault or wait. -/
def settle (x : Translated × State) (va : Word) : Act Mapping := do
  set x.2
  match x.1 with
  | .ok m => pure m
  | .bad c => raise c va
  | .wait => throw .hold

/-- Translate an address for a unit of a kernel (R407). -/
def translate (u : Writer) (va : Word) (k : AccessKind) : Act Mapping := do
  let s ← get
  match s.unitRegion u with
  | none => raise codeAbsent va
  | some (o, r) =>
    if wbits va 63 57 ≠ 0 then raise codeAbsent va
    else if va.getLsbD 56 then
      settle (s.viewLookup o r.asid va.toNat k, s) va
    else settle (s.lookup u o (unitProvince u) r.asid.toNat va.toNat k (some r.identity)) va

/-! ### Translation without access (R286, R420) -/

/-- Code, log of the page size and address of a virtual address, without access to data; none while the page migrates.
A read-duplicated page is reported at its replica and does not collapse (R286, R416, R420). -/
def State.probe (s : State) (u : Writer) (va : Word) (k : AccessKind) : Option (Byte × Nat × Nat) × State :=
  match s.unitRegion u with
  | none => (some (codeAbsent, 0, 0), s)
  | some (o, r) =>
    if wbits va 63 57 ≠ 0 then (some (codeAbsent, 0, 0), s)
    else if va.getLsbD 56 then
      match s.viewLookup o r.asid va.toNat k with
      | .ok m => (some (0, m.size, m.pa), s)
      | .bad c => (some (c, 0, 0), s)
      | .wait => (none, s)
    else
      let v := unitProvince u
      let a := va.toNat
      let id := r.identity.toNat
      if s.walkHeld u r.asid.toNat a then (none, s) else
      let known := s.cached v o r.asid.toNat id a
      let found := match known with
        | some t => some (t.leaf, t.size)
        | none => (s.walk r.asid.toNat a).map fun e => (e.1, e.2.1)
      match found with
      | none => (some (codeAbsent, 0, 0), s)
      | some (e, sz) =>
        if leafMigrating e then (none, s) else
        match leafAllows k (some r.identity) e with
        | some c => (some (c, sz, 0), s)
        | none =>
          let s1 := if known.isSome then s
            else s.keepTranslation v ⟨o, r.asid.toNat, id, a / 2 ^ sz * 2 ^ sz, sz, leafFrame e, e⟩
          (some (0, sz, (if leafDup e then leafFrame e + v else leafFrame e) * 4096 + a % 2 ^ sz), s1)

/-- Translate for a unit that has no partition of a cluster, by a walk of its own at a province (R407, R416, R417). -/
def State.bareLookup (s : State) (u : Writer) (v asid : Nat) (va : Word) (k : AccessKind) (identity : Option (BitVec 16)) :
    Translated × State :=
  if wbits va 63 57 ≠ 0 then (.bad codeAbsent, s)
  else if va.getLsbD 56 then (.bad codeAttachMiss, s)
  else if s.walkHeld u asid va.toNat then (.wait, s)
  else match s.walk asid va.toNat with
    | none => (.bad codeAbsent, s)
    | some (e, sz, _) =>
      if leafMigrating e then (.wait, s.holdWalk u asid va.toNat)
      else (judgeLeaf v va.toNat k identity e sz, s.askAccess v asid va.toNat k identity e)

/-- Translate for the front end or the Gazetteer: for a queue, at the province of its strip (R416, R417, R441, R442). -/
def State.frontLookup (s : State) (v asid : Nat) (va : Word) (k : AccessKind) : Translated × State :=
  s.bareLookup .cartouche v asid va k none

end Sys2Proof.Machine
end

