-- ==== Sys2Proof/Machine/LinkSend.lean ====
section
/-! DEFINITION. Sending over MoLink: the way of a packet in the torus, flits and the replay buffer (R467, R468, R470-R472). -/

namespace Sys2Proof.Machine

/-! ### The torus (R471, R472) -/

/-- Coordinates of a device number. -/
def MoLink.coords (l : MoLink) (n : Nat) : Nat × Nat × Nat :=
  (n % l.shape.1, n / l.shape.1 % l.shape.2.1, n / (l.shape.1 * l.shape.2.1))
/-- The number of devices. -/
def MoLink.devices (l : MoLink) : Nat := l.shape.1 * l.shape.2.1 * l.shape.2.2

/-- One dimension's next hop: + when both ways are equally long; none where the coordinates agree (R472). -/
def ringHop (size from_ dest : Nat) : Option Bool :=
  let d := (dest + size - from_) % size
  if d = 0 then none else some (2 * d ≤ size)

/-- The direction in which a device sends on to another: 0 to 5 for +x, -x, +y, -y, +z, -z (R471, R472). -/
def MoLink.direction (l : MoLink) (at_ dst : Nat) : Option Nat :=
  let a := l.coords at_
  let b := l.coords dst
  match ringHop l.shape.1 a.1 b.1, ringHop l.shape.2.1 a.2.1 b.2.1, ringHop l.shape.2.2 a.2.2 b.2.2 with
  | some plus, _, _ => some (if plus then 0 else 1)
  | none, some plus, _ => some (if plus then 2 else 3)
  | none, none, some plus => some (if plus then 4 else 5)
  | none, none, none => none

/-- The neighbour of a device in a direction. -/
def MoLink.neighbour (l : MoLink) (at_ d : Nat) : Nat :=
  let (x, y, z) := l.coords at_
  let go := fun (size n : Nat) => (n + (if d % 2 = 0 then 1 else size - 1)) % size
  let (x1, y1, z1) := match d / 2 with
    | 0 => (go l.shape.1 x, y, z)
    | 1 => (x, go l.shape.2.1 y, z)
    | _ => (x, y, go l.shape.2.2 z)
  x1 + l.shape.1 * (y1 + l.shape.2.1 * z1)

/-- The hops (device and direction) of the one path from a device to another, at most `fuel` of them (R472). -/
def MoLink.hops (l : MoLink) (dst : Nat) : Nat → Nat → List (Nat × Nat)
  | 0, _ => []
  | fuel + 1, at_ => match l.direction at_ dst with
    | none => []
    | some d => (at_, d) :: l.hops dst fuel (l.neighbour at_ d)

def MoLink.port (l : MoLink) (n : Nat) : LinkPort := l.ports.look LinkPort.reset n
def MoLink.onPort (l : MoLink) (n : Nat) (f : LinkPort → LinkPort) : MoLink := { l with ports := l.ports.put n (f (l.port n)) }

/-- The spare ports (R471). -/
def sparePorts : List Nat := [6, 7, 14, 15]
/-- The working ports of a direction: its two ports, and spares that stand in for one of them (R471). -/
def MoLink.portsOf (l : MoLink) (d : Nat) : List Nat :=
  ([d, d + 8] ++ sparePorts.filter fun k => (l.port k).spareFor = some d || (l.port k).spareFor = some (d + 8)).filter
    fun k => (l.port k).working

/-- No path is longer: half of each of three rings of 32 (R471). -/
def longestPath : Nat := 48

/-- The working ports of the first hop to a device; none where a hop of the path has no working port (R472). -/
def MoLink.way (l : MoLink) (dst : Nat) : List Nat :=
  if l.devices ≤ dst then [] else
  match l.hops dst longestPath l.number with
  | [] => []
  | (n, d) :: rest => if rest.any (fun h => h ∈ l.dead) || n ≠ l.number then [] else l.portsOf d

/-- A port of the path to a device, none where the device is lost (R472). -/
def MoLink.route (l : MoLink) (dst : Nat) : Option Nat := (l.way dst).head?

/-- The port by which a packet leaves: a hop uses all its working ports (R471). -/
def MoLink.portFor (l : MoLink) (k : MoPacket) : Option Nat :=
  let w := l.way k.dst
  w[Config.hopPort k.src k.seq % w.length]?

/-! ### Flits (R467, R468) -/

/-- The type code of a flit. -/
def flitCode : FlitKind → Nat
  | .data => 0 | .hole => 1 | .acknowledge => 2 | .replay => 3 | .idle => 4 | .reserved => 5

/-- The header of a flit: type, sequence, acknowledged sequence and credits returned (R467). -/
def flitHeader (f : Flit) : BitVec 32 :=
  BitVec.ofNat 32 (flitCode f.kind + f.seq % 4096 * 2 ^ 3 + f.ack % 4096 * 2 ^ 15 + f.credits % 32 * 2 ^ 27)

/-- The bytes of a packet: a multiple of 32, at least 32 (R467). -/
def packetSize (k : MoPacket) : Nat := 32 * (1 + Config.packetUnits k.src k.seq)
/-- Bytes of payload in a flit. -/
def flitPayloadBytes : Nat := 236

/-- A flit on the lanes: header, payload, CRC over both, and parity over all of it (R467). A hole's payload is zero (R469). -/
def flitImage (f : Flit) : List Byte :=
  let payload := (List.range flitPayloadBytes).map fun i => if f.kind = .data then Config.flitPayload f.tags i else 0
  let body := Decode.leBytes 4 (flitHeader f).toNat ++ payload
  let sealed_ := body ++ Decode.leBytes 8 (Config.flitCrc body).toNat
  sealed_ ++ Decode.leBytes 8 (Config.flitParity sealed_).toNat

/-- The flits of a packet: it begins a flit of its own, runs across as many as it needs and ends in the last (R467). -/
def packetFlits (k : MoPacket) : List Flit :=
  let n := (packetSize k + flitPayloadBytes - 1) / flitPayloadBytes
  (List.range n).map fun i =>
    ⟨.data, 0, 0, 0, true, if i + 1 = n then [k] else [], [(k.src, k.seq)], decide (0 < i)⟩

/-- Slots of the replay buffer. -/
def replaySlots : Nat := 512

/-- A flit that a port sends now: it also acknowledges and returns credits (R467). -/
def LinkPort.stamp (x : LinkPort) (f : Flit) : Flit :=
  { f with ack := (x.expected + 4095) % 4096, credits := Config.creditsReturned x.out.length % 32 }
/-- A flit without packets. -/
def LinkPort.bare (x : LinkPort) (kind : FlitKind) (seq : Nat) : Flit := x.stamp ⟨kind, seq, 0, 0, true, [], [], false⟩

/-- A data flit takes its sequence and a slot of the replay buffer and is sent, or waits while the buffer is full; while a replay
runs it follows the flits of that (R468). -/
def LinkPort.put (x : LinkPort) (f : Flit) : LinkPort :=
  if replaySlots ≤ x.replay.length then { x with waiting := x.waiting ++ [f] }
  else
    let g := { x.stamp f with seq := x.sent }
    let y := { x with replay := x.replay ++ [g], sent := (x.sent + 1) % 4096 }
    match x.again with
    | some (n, l) => { y with again := some (n, l ++ [g.seq]) }
    | none => { y with out := x.out ++ [g] }

/-- An idle flit while the replay buffer is full and flits wait (R468). -/
def LinkPort.idle (x : LinkPort) : LinkPort :=
  if x.working && replaySlots ≤ x.replay.length && !x.waiting.isEmpty then { x with out := x.out ++ [x.bare .idle 0] } else x

/-- Send a packet. -/
def LinkPort.send (x : LinkPort) (k : MoPacket) : LinkPort := ((packetFlits k).foldl (fun (y : LinkPort) f => y.put f) x).idle

/-- Put a packet on its way; one whose way is lost stays retained (R470, R472). -/
def MoLink.transmit (l : MoLink) (k : MoPacket) : MoLink :=
  match l.portFor k with
  | some n => l.onPort n fun x => x.send k
  | none => l

/-- Send a body to another device: the source retains its packet until the destination acknowledges it (R470). -/
def State.moSend (s : State) (dst : Nat) (b : MoBody) : State :=
  let k : MoPacket := ⟨s.link.number, dst, s.link.nextSeq, b⟩
  { s with link := { s.link with retained := s.link.retained ++ [k], nextSeq := s.link.nextSeq + 1 }.transmit k }

end Sys2Proof.Machine
end

