-- ==== Sys2Proof/Machine/Region.lean ====
section
/-! DEFINITION. Packets, the field book, wakeups, and the end of a region (R96, R102, R106, R450, R456, R483). -/

namespace Sys2Proof.Machine

/-! ### Bit fields -/

/-- A field of a bit vector as a number. -/
def getF {n : Nat} (x : BitVec n) (hi lo : Nat) : Nat := (x.extractLsb' lo (hi + 1 - lo)).toNat
/-- A bit vector with one field replaced. -/
def setF {n : Nat} (x : BitVec n) (hi lo v : Nat) : BitVec n :=
  (x &&& ~~~(BitVec.ofNat n ((2 ^ (hi + 1 - lo) - 1) * 2 ^ lo))) |||
    BitVec.ofNat n (v % 2 ^ (hi + 1 - lo) * 2 ^ lo)

/-! ### The field book (R483) -/

/-- Put an event into the book, newest first: those of one f-cycle stand in ascending parcel order. -/
def bookInsert (e : BookEvent) : List BookEvent → List BookEvent
  | [] => [e]
  | x :: xs => if x.meridian = e.meridian && e.parcel < x.parcel then x :: bookInsert e xs else e :: x :: xs

/-- Record an event; the book keeps the last 16,384. -/
def State.log (s : State) (kind : Nat) (code : Byte) (p : Nat) (asid : BitVec 14) (value : Word) : State :=
  { s with book := ((bookInsert ⟨s.meridian, kind, code, p, asid, value⟩ s.book.reverse).take 16384).reverse }

/-! ### Packets (R97, R100, R106) -/

/-- A packet that the device itself sends. -/
def State.post (s : State) (dest ch : Nat) (two : Bool) (w0 w1 : Word) : State :=
  { s with flight := s.flight ++
      [⟨dest, BitVec.ofNat 7 ch, two, w0, w1, BitVec.ofNat 16 s.link.number, 0, true, Vector.replicate 6 0⟩] }

/-- A fault packet of an engine to a core's `ch127` (R142, R152, R487). -/
def State.tell (s : State) (p : Nat) (code : Byte) (engine slot : Nat) (handle : Option Nat) (w1 : Word) : State :=
  let h := match handle with
    | some h => h * 2 ^ 18 + 2 ^ 25
    | none => 0
  (s.needMet (.engine p) code).post p 127 true (BitVec.ofNat 64 (code.toNat + engine * 2 ^ 8 + slot * 2 ^ 12 + h)) w1

/-- An engine's fault: its entry in the field book, and its packet to the core (R106, R483). -/
def State.report (s : State) (p : Nat) (code : Byte) (engine slot : Nat) (handle : Option Nat) (w1 : Word) : State :=
  (s.log 1 code p (s.core p).asid w1).tell p code engine slot handle w1

/-- The codes with which the host or a link ends an engine's access (R466, R470). -/
def outsideCode (code : Byte) : Bool := code ∈ [codeHostAbort, codeHostTimeout, codeLinkHole]

/-! ### Buffer and station words (R154, R160) -/

def State.buffer (s : State) (p h : Nat) : BitVec 128 := (s.parcel p).buffers.look 0 h
def State.setBuffer (s : State) (p h : Nat) (b : BitVec 128) : State :=
  s.onParcel p fun x => { x with buffers := x.buffers.put h b }
def State.station (s : State) (p n : Nat) : BitVec 128 := (s.parcel p).stations.look 0 n
def State.setStation (s : State) (p n : Nat) (b : BitVec 128) : State :=
  s.onParcel p fun x => { x with stations := x.stations.put n b }
/-- `STN.INIT` writes a station's entry; the debugger then knows the station as initialised (R170, R298). -/
def State.initStation (s : State) (p n : Nat) (b : BitVec 128) : State :=
  (s.setStation p n b).onParcel p fun x => { x with inits := if n ∈ x.inits then x.inits else x.inits ++ [n] }
/-- Buffer states: 0 FREE, 1 FILLING, 2 FULL, 3 DRAINING. -/
def bufState (b : BitVec 128) : Nat := getF b 63 62
def bufSlot (b : BitVec 128) : Nat := getF b 61 56
def bufShadow (b : BitVec 128) : Bool := b.getLsbD 55
def bufFeed (b : BitVec 128) : Bool := b.getLsbD 54
def bufSize (b : BitVec 128) : Nat := getF b 38 20
def bufBase (b : BitVec 128) : Nat := getF b 18 0
def stnExpected (x : BitVec 128) : Nat := getF x 127 112
def stnArrivals (x : BitVec 128) : Nat := getF x 111 96
def stnPending (x : BitVec 128) : Nat := getF x 95 60
def stnPhase (x : BitVec 128) : Nat := getF x 59 58
def stnExchange (x : BitVec 128) : Bool := x.getLsbD 57
def stnReload (x : BitVec 128) : Bool := x.getLsbD 56
def stnScope (x : BitVec 128) : Nat := getF x 55 53
def stnComplete (x : BitVec 128) : Bool := x.getLsbD 52
def stnFault (x : BitVec 128) : Bool := x.getLsbD 51
def stnForced (x : BitVec 128) : Bool := x.getLsbD 50
def stnReloadBytes (x : BitVec 128) : Nat := getF x 47 12
def stnCompletions (x : BitVec 128) : Nat := getF x 11 0
/-- The scope of a code 0-6; a code that no station holds is read as `.y`. -/
def scopeOfCode (n : Nat) : Scope := (Decode.scopeOf n).getD .y

/-! ### Wakeups (R102) -/

def Core.channel (c : Core) (ch : Nat) : Channel := c.channels.look Channel.reset ch
def Core.onChannel (c : Core) (ch : Nat) (f : Channel → Channel) : Core :=
  { c with channels := c.channels.put ch (f (c.channel ch)) }

/-- A channel is ready when it is bound and its FIFO is not empty (R96). -/
def Channel.ready (c : Channel) : Bool := c.bound && !c.fifo.isEmpty

/-- Put an event into a channel's FIFO; a channel that becomes ready begins to age (R96, R98). -/
def Channel.push (c : Channel) (now : Nat) (e : ChannelEvent) : Channel :=
  let c1 := { c with fifo := c.fifo ++ [e] }
  if c1.ready && !c.ready then { c1 with since := now } else c1

/-- What a channel's binding becomes: a channel that stops being ready keeps the age it has counted, and one that becomes
ready begins to count (R96, R98). -/
def Channel.bindTo (c : Channel) (now : Nat) (handler arg : Word) : Channel :=
  let c1 := { c with bound := handler ≠ 0, handler := handler, arg := arg, rebind := none }
  if c.ready && !c1.ready then { c1 with age := c.age + 2 * (now - c.since) }
  else if c1.ready && !c.ready then { c1 with since := now } else c1
/-- A binding that waited for the next pick takes effect (R129). -/
def Channel.settleBinding (c : Channel) (now : Nat) : Channel :=
  match c.rebind with
  | some (handler, arg) => c.bindTo now handler arg
  | none => c

/-- The meridian of a firing: no earlier than the f-cycle after the arming (R102). -/
def wakeTime (w : Wakeup) (now : Word) : Word :=
  if now.toNat ≤ w.armed.toNat then w.armed + 1 else now

/-- Fire a channel's wakeup: it leaves the slot and enters the FIFO (R102). -/
def Channel.fire (c : Channel) (now : Nat) (kind : BitVec 2) (time : Word) : Channel :=
  ({ c with wake := { c.wake with cond := 0, pending := true } }).push now
    (.wakeup kind time c.wake.arg c.wake.control)

/-- Whether the buffer or station condition of an armed slot holds (R102). -/
def State.wakeHolds (s : State) (p : Nat) (w : Wakeup) : Bool :=
  if w.pending then false
  else if w.cond = 2 then bufState (s.buffer p (getF w.control 14 8)) = 2
  else if w.cond = 3 then
    let x := s.station p (getF w.control 13 8)
    stnComplete x || stnCompletions x ≠ w.count
  else false

/-- Fire every buffer and station wakeup of a parcel whose condition holds; a station gives its scope's acquire to
each waiter; the numbers past 511 are those of a saved kernel, whose wakeups wait for its restore (R102, R161, R162). -/
def State.pollWakes (s : State) (p : Nat) : State :=
  if 512 ≤ p then s else
  let due := (s.core p).channels.filter fun (e : Nat × Channel) => s.wakeHolds p e.2.wake
  due.foldl (fun (t : State) (e : Nat × Channel) =>
    let w := e.2.wake
    let t1 := if w.cond = 3 then t.acquire (.core p) (scopeOfCode (stnScope (t.station p (getF w.control 13 8)))) else t
    t1.onCore p fun c => c.onChannel e.1 fun h => h.fire s.meridian.toNat w.cond (wakeTime w s.meridian)) s

/-- Set a buffer entry and fire the wakeups that wait for it to be FULL. -/
def State.putBuffer (s : State) (p h : Nat) (b : BitVec 128) : State := (s.setBuffer p h b).pollWakes p

/-! ### Ends of streams that die with their holder (R311) -/

/-- An orphan token (kind 3). -/
def tokenWord (kind : Nat) (payload : Nat) : LinkWord :=
  ⟨BitVec.ofNat 512 payload, 0xFFFF, 0, 0, 0, false, true, BitVec.ofNat 5 kind⟩

/-- The handle of an end (R300). -/
def endHandle (device home number : Nat) (consumer : Bool) (e : EndRec) : Word :=
  BitVec.ofNat 64 (e.serial.toNat * 2 ^ 48 + number % 2 ^ 20 * 2 ^ 28 + (if consumer then 2 ^ 27 else 0) +
    (match e.loc with | some l => l.port % 4 | none => 0) * 2 ^ 25 + home % 512 * 2 ^ 16 + device % 2 ^ 16)

/-- Items with consecutive numbers from `n`, in order, from those that have arrived. -/
def inOrder (items : List (Nat × LinkWord)) : Nat → Nat → List (Nat × LinkWord)
  | 0, _ => []
  | k + 1, n =>
    match items.find? fun (e : Nat × LinkWord) => e.1 = n with
    | none => []
    | some e => e :: inOrder items k (n + 1)

def EndStream.end_ (e : EndStream) (consumer : Bool) : EndRec := if consumer then e.cons else e.prod
def EndStream.setEnd (e : EndStream) (consumer : Bool) (r : EndRec) : EndStream :=
  if consumer then { e with cons := r } else { e with prod := r }

def State.endRecord (s : State) (h n : Nat) : Option EndStream := (s.parcel h).ends.find n
def State.setEndRecord (s : State) (h n : Nat) (e : EndStream) : State :=
  s.onParcel h fun x => { x with ends := x.ends.put n e }

/-- The number under which a place keeps the record of an end whose home is another device; those of homes are below. -/
def foreignNumber (x : EndName) : Nat :=
  ((((x.device * 512 + x.home) * 2 ^ 20 + x.number) * 2 + (if x.consumer then 1 else 0)) * 2 ^ 16 + x.serial.toNat) * 4 +
    x.port % 4 + 2 ^ 20
/-- The end of such a record, without its parcel; none for the record of a home. -/
def foreignOf (n : Nat) : Option EndName :=
  if n < 2 ^ 20 then none
  else
    let v := n - 2 ^ 20
    some ⟨v / 2 ^ 48, v / 2 ^ 39 % 512, v / 2 ^ 19 % 2 ^ 20, v / 2 ^ 18 % 2 = 1, BitVec.ofNat 16 (v / 4), 0, v % 4⟩

/-- The handle of a record's end (R300). -/
def State.handleOf (s : State) (h n : Nat) (consumer : Bool) (r : EndRec) : Word :=
  match foreignOf n with
  | some x => endHandle x.device x.home x.number consumer r
  | none => endHandle s.link.number h n consumer r

/-- A home tells a place of another device (R309). -/
def State.tellPlace (s : State) (h n : Nat) (consumer : Bool) (serial : BitVec 16) (l : EndLoc) (note : EndNote) : State :=
  s.moSend l.device (.toPlace ⟨s.link.number, h, n, consumer, serial, l.parcel, l.port⟩ note)
/-- A place tells its home on another device (R309). -/
def State.tellHome (s : State) (n : Nat) (note : EndNote) : State :=
  match foreignOf n with
  | some x => s.moSend x.device (.toHome x note)
  | none => s

/-- Change a port. -/
def State.onPort (s : State) (p port : Nat) (f : WidePort → WidePort) : State :=
  s.onParcel p fun x =>
    match x.ports.toList[port]? with
    | some w => { x with ports := x.ports.setIfInBounds port (f w) }
    | none => x

/-- The side that an end holds at a place is free again (R305, R306, R310). -/
def State.freePlace (s : State) (h n : Nat) (consumer : Bool) (serial : BitVec 16) (l : EndLoc) : State :=
  if l.device ≠ s.link.number then s.tellPlace h n consumer serial l .gone
  else s.onPort l.parcel l.port fun w =>
    if consumer then (if w.inHolder = .endOf h n then { w with inHolder := .free } else w)
    else if w.outHolder = .endOf h n then { w with outHolder := .free } else w
/-- The side of the place where an end is bound. -/
def State.freeEnd (s : State) (h n : Nat) (consumer : Bool) (r : EndRec) : State :=
  match r.loc with
  | some l => s.freePlace h n consumer r.serial l
  | none => s

/-- Free a record and the sides of its ends (R310). -/
def State.dropStream (s : State) (h n : Nat) (e : EndStream) : State :=
  let s1 := (s.freeEnd h n false e.prod).freeEnd h n true e.cons
  (e.moves.foldl (fun (t : State) m => t.freePlace h n m.consumer m.serial m.old) s1).onParcel h fun x =>
    { x with ends := x.ends.drop n }

/-- What a stream becomes when an end's holder or its home dies: a surviving consumer gets the items that reached it
and then the orphan token, a surviving producer's side discards what comes (R311). -/
def EndStream.orphan (e : EndStream) (prodDead consDead homeDead : Bool) : EndStream :=
  let ready := inOrder e.arrived e.arrived.length e.delivered
  let last := e.delivered + ready.length
  let shut := fun (dead : Bool) (r : EndRec) => if dead then { r with closed := true, loc := none } else r
  { e with orphaned := true, prod := shut prodDead e.prod, cons := shut consDead e.cons, retained := [], early := [],
           arrived := if consDead || !(prodDead || homeDead) then [] else ready ++ [(last, tokenWord 3 0)],
           next := if prodDead || homeDead then last + 1 else e.next }

/-- A record becomes orphaned: its survivors are told, a producer's core with a packet, those of other devices with a note; a
record none of whose ends lives on is freed (R310, R311). -/
def State.orphanStream (s : State) (h n : Nat) (e : EndStream) (prodDead consDead homeDead : Bool) : State :=
  let e1 := e.orphan prodDead consDead homeDead
  if e1.prod.closed && e1.cons.closed || homeDead && e1.prod.loc.isNone && e1.cons.loc.isNone then s.dropStream h n e1
  else
    let s1 := s.setEndRecord h n e1
    let s2 := match (if (prodDead || homeDead) && !e1.cons.closed then e1.cons.loc else none) with
      | some l => if l.device = s.link.number then s1 else s1.tellPlace h n true e.cons.serial l .orphan
      | none => s1
    match (if (consDead || homeDead) && !e1.prod.closed then e1.prod.loc else none) with
    | some l =>
      if l.device = s.link.number then s2.report l.parcel codeOrphaned 3 0 none (s.handleOf h n false e.prod)
      else s2.tellPlace h n false e.prod.serial l .orphan
    | none => s2

/-- Whether the end is open and stands where a test says. -/
def EndRec.gone (r : EndRec) (dead : EndLoc → Bool) : Bool :=
  !r.closed && (match r.loc with | some l => dead l | none => false)
/-- An end that stood at a place that dies has no place. -/
def EndRec.away (r : EndRec) (dead : EndLoc → Bool) : EndRec :=
  match r.loc with
  | some l => if dead l then { r with loc := none } else r
  | none => r

/-- Judge one record when places or its home die. A move whose old consumer place dies goes on, one whose old producer place
dies before it has stopped, with its items passed on, orphans the stream; a place tells its home (R310-R312). -/
def State.killStream (s : State) (dead : EndLoc → Bool) (hd : Bool) (h n : Nat) (e : EndStream) : State :=
  let pd := e.prod.gone dead
  let cd := e.cons.gone dead
  let cut := e.moves.any fun m => dead m.old && !m.consumer && !(m.mark.any fun k => k ≤ e.next)
  let moves := e.moves.filter fun m => !dead m.old
  let e0 : EndStream :=
    { e with prod := if pd then e.prod else e.prod.away dead, cons := if cd then e.cons else e.cons.away dead, moves := moves }
  if (foreignOf n).isSome then
    if pd || cd || moves.length < e.moves.length then (s.tellHome n .dead).onParcel h fun x => { x with ends := x.ends.drop n }
    else if hd && !e.orphaned then s.orphanStream h n e0 false false true
    else s.setEndRecord h n e0
  else if e.orphaned then
    let e1 : EndStream := { e0 with prod := e0.prod.away dead, cons := e0.cons.away dead }
    if (pd || cd) && e1.prod.loc.isNone && e1.cons.loc.isNone then s.dropStream h n e1 else s.setEndRecord h n e1
  else if pd || cd || cut || hd then s.orphanStream h n e0 pd cd (hd || cut)
  else s.setEndRecord h n e0

/-- Judge every stream when places or homes die (R311, R312). -/
def State.killEnds (s : State) (dead : EndLoc → Bool) (deadHome : Nat → Bool) : State :=
  s.parcels.foldl (fun (t : State) (hp : Nat × Parcel) =>
    hp.2.ends.foldl (fun (t : State) (ne : Nat × EndStream) =>
      t.killStream dead (deadHome hp.1 && (foreignOf ne.1).isNone) hp.1 ne.1 ne.2) t) s

/-! ### The completion record (R450) -/

/-- The 32 bytes of a completion record. -/
def recordBytes (kind : Nat) (code : Byte) (status : BitVec 32) (parcel : Nat) (value now : Word) : List Byte :=
  Decode.leBytes 8 (2 ^ 63 + code.toNat * 256 + kind) ++
  Decode.leBytes 8 (status.toNat + parcel % 512 * 2 ^ 32) ++
  Decode.leBytes 8 value.toNat ++ Decode.leBytes 8 now.toNat

/-- The Cartouche's write to a virtual address of an ASID for a strip's province; one that cannot be translated is not made,
and one that a migrating page or a collapse holds waits, with all later ones to its page (R416, R417). -/
def State.frontWrite (s : State) (v asid : Nat) (va : Word) (data : List Byte) : State :=
  if s.frontWrites.any fun w => w.1 = asid && w.2.2.1.toNat / 4096 = va.toNat / 4096
  then { s with frontWrites := s.frontWrites ++ [(asid, v, va, data)] }
  else match s.frontLookup v asid va .write with
    | (.ok m, s1) => s1.homeWrite m.pa data
    | (.bad _, s1) => s1
    | (.wait, s1) => { s1 with frontWrites := s1.frontWrites ++ [(asid, v, va, data)] }

/-- The Cartouche's held writes are tried again, in their order. -/
def State.retryWrites (s : State) : State :=
  s.frontWrites.foldl (fun t w => t.frontWrite w.2.1 w.1 w.2.2.1 w.2.2.2) { s with frontWrites := [] }

/-! ### A stop for the debugger (R297, R298) -/

/-- Whether the region of the session runs at this origin. -/
def State.debugged (s : State) (o : Nat) : Bool :=
  match s.regions.find o with
  | some r => s.debugger.launch = some r.launch
  | none => false

/-- The cell that a stop names: that of a firing, or the one in a fault packet (R298). -/
def StopPlace.cellAt (o : Nat) : StopPlace → Option (Nat × Nat)
  | .cell p m _ _ => some (p, m)
  | .fault _ w _ => if (w.toNat / 2 ^ 8) % 16 = 15 then some (o + w.toNat / 2 ^ 16 % 512, w.toNat / 2 ^ 12 % 16) else none
  | _ => none

/-- A stop's place with region-relative parcels, as it is printed (R298). -/
def StopPlace.shown (o : Nat) : StopPlace → StopPlace
  | .task p pc => .task (p - o) pc
  | .cell p m x k => .cell (p - o) m x k
  | .fault p w v => .fault (p - o) w v
  | .promise p v => .promise (p - o) v
  | .kick q p v => .kick q (p - o) v
  | x => x

/-- The instruction of a core at an address, from its instruction cache or from memory, without any effect. -/
def State.instrAt (s : State) (p : Nat) (pc : Word) : Option Instr :=
  let bytes := match (s.core p).icache.find (pc.toNat / 64) with
    | some bs => some (slice bs (pc.toNat % 64) 4)
    | none => match translate (.core p) pc .fetch s with
      | .ok m s1 => some (s1.homeRead m.pa 4)
      | .error _ _ => none
  bytes.bind fun bs => match Decode.surveyor (BitVec.ofNat 32 (Decode.leNat bs)) with
    | .ok i => some i
    | .error _ => none

/-- The instruction that a stop shows: the task's next one, or the one that a cell has fired (R298). -/
def State.stopInstr (s : State) : StopPlace → Option Instr
  | .task p pc => s.instrAt p pc
  | .cell p m x k => match Decode.cell ((s.cell p m).slots.look emptySlot (x * 8 + k)).1 with
    | .ok i => some i
    | .error _ => none
  | _ => none

/-- The channel of a core's task; a task inside a trap runs on `ch127` (R104). -/
def Core.taskChannel (c : Core) : Nat := if c.trap then 127 else c.ch.toNat

/-- The channel of the task that a stop names (R298, R474). -/
def State.stopChannel (s : State) : StopPlace → Nat
  | .task p _ => (s.core p).taskChannel
  | .promise p _ => (s.core p).taskChannel
  | _ => 0

/-- Stop a region and print why and where. -/
def State.stopAt (s : State) (o : Nat) (place : StopPlace) : State :=
  let s1 := s.onRegion o fun r => { r with debugStop := true }
  { s1 with debugger := { s1.debugger with
      stop := some place, stepping := false, lastCell := (place.cellAt o).getD s1.debugger.lastCell,
      out := s1.debugger.out ++ [.stop (place.shown o) (s.stopChannel place) (s.stopInstr place) s.meridian] } }

/-! ### The end of a region (R399, R456) -/

/-- What a parcel keeps when its region ends: stations, exchange sets, and the running counts of its stream ends;
scratchpad bytes stay in memory (R162). -/
def Parcel.cleared (x : Parcel) : Parcel :=
  { Parcel.reset with stations := x.stations, inits := x.inits, exch := x.exch, gated := x.gated, endCount := x.endCount,
                      ends := x.ends, serial := x.serial }

/-- One attachment after another of a segment ends (R392, R393, R399). -/
def Segment.leave (g : Segment) (torn : Bool) (now : Word) : Segment :=
  { g with state := .resident, count := 0, version := g.version + BitVec.ofNat 16 g.count, stamp := now,
           holder := none, torn := torn || (g.torn && !g.tornClear), tornClear := false }

/-- The number under which what an ended kernel asked for still takes place: the reduction tiles of a cancelled request, and
evicts that wait for a spill (R402, R456). -/
def strayParcel : Nat := 512

/-- Attachments of a region end; pending attaches of it are left to their reload, and an evict's
arrival is still made (R162, R399). -/
def State.leaveSegments (s : State) (o : Nat) (mine : List Nat) (torn : Bool) : State :=
  { s with segments := s.segments.each fun _ (g : Segment) =>
      let away := fun (u : Writer) => (unitParcel u).all fun p => p ∉ mine
      let g1 := { g with needers := g.needers.filter away, failed := g.failed.filter away,
                         asked := g.asked && !(g.waiting.head?.any fun (w : PendingAttach) => !w.evict && w.origin = o) }
      if g.state = .attached && g.holder = some o then g1.leave torn s.meridian
      else { g1 with holder := if g.holder = some o then none else g.holder, waiting := (g.waiting.filter fun (w : PendingAttach) => w.evict || w.origin ≠ o).map fun (w : PendingAttach) =>
                 if w.origin = o then { w with origin := strayParcel } else w } }

/-- Tiles after the parcels of a region have gone: what is in flight still lands; held tiles are discarded with the state of
their destination word (R169, R456, log 105). -/
def State.strayTiles (s : State) (mine : List Nat) : List RedTile :=
  (s.tiles.filter fun v => v.parcel ∉ mine) ++
    (s.tiles.filter fun v => v.parcel ∈ mine && !v.skip).map fun v => { v with ordered := false, parcel := strayParcel }

/-- A destination word once held tiles of ended requests are discarded: its state is freed where they touch it, and what other
regions have sent there opens it anew (R169). -/
def RedHome.without (d : RedHome) (mine : List Nat) : Option RedHome :=
  if !(d.held.any fun v => v.parcel ∈ mine) then some d else
  match d.held.filter fun v => v.parcel ∉ mine with
  | [] => none
  | v :: l => some ⟨d.pa, 0, v.count, v.op, v.fmt, v.rnd, v :: l⟩

/-- Cut a region out: resources go back and nothing of its kernel runs on (R456). -/
def State.freeRegion (s : State) (o : Nat) (r : Region) : State :=
  let mine := regionParcels o r
  let s1 := s.flushRegion o
  let s2 := s1.killEnds (fun l => l.device = s.link.number && l.parcel ∈ mine) (fun _ => false)
  { s2 with
    regions := s2.regions.drop o
    parcels := s2.parcels.each fun n x => if n ∈ mine then x.cleared else x
    overlays := s2.overlays.filter fun v => v.parcel ∉ mine
    publishes := s2.publishes.filter fun v => v.parcel ∉ mine
    tiles := s2.strayTiles mine
    reds := s2.reds.filterMap (·.without mine)
    flight := s2.flight.filter fun v => v.dest ∉ mine
    invalidates := s2.invalidates.map fun v => if v.parcel ∈ mine && v.told then { v with count := false, told := false } else v
    compasses := s2.compasses.each fun _ c =>
      { query := c.query.filter fun q => q.opener ∉ mine, returns := c.returns.filter fun e => e.1 ∉ mine }
    provinces := s2.provinces.each fun _ v =>
      { v with encQueue := v.encQueue.filter (· ∉ mine), proj := v.proj.filter fun t => t.region ≠ o }
    heldWalks := s2.heldWalks.filter fun h => (unitParcel h.1).all fun p => p ∉ mine
    holds := s2.holds.filter fun h => (unitParcel h.unit).all fun p => p ∉ mine
    host := { s2.host with
      doorbells := s2.host.doorbells.only fun k _ => k / 64 ≠ o
      discarded := s2.host.discarded +
        (s2.host.doorbells.foldl (fun n (e : Nat × List Word) => if e.1 / 64 = o then n + e.2.length else n) 0)
      requests := s2.host.requests.only fun _ q => q.parcel ∉ mine } }

/-- Whether the completion record of an ended region is still to be written. -/
def State.recordWaits (s : State) (r : Region) : Bool :=
  s.frontWrites.any fun w => w.1 = r.asid.toNat && w.2.2.1 = r.record

/-- An ended region keeps its parcels until its record is written; nothing of it runs any more (R456). -/
def State.keepTaken (s : State) (o : Nat) (r : Region) : State :=
  if s.recordWaits r && o < 512 then { s with regions := s.regions.put o { r with phase := .exiting } } else s

/-- The parcels of ended regions whose records have been written are free (R456). -/
def State.freeRecorded (s : State) : State :=
  s.regions.foldl (fun (t : State) e =>
    if e.2.phase ≠ .exiting || t.recordWaits e.2 then t else
      { t with regions := t.regions.drop e.1
               parcels := t.parcels.each fun n x => if n ∈ regionParcels e.1 e.2 then x.cleared else x }) s

/-- End a region: its completion record is written after a release at `.y`, and its parcels are freed once it is (R450,
R456). -/
def State.endRegion (s : State) (o kind : Nat) (code : Byte) (status : BitVec 32) (parcel : Nat) (value : Word)
    (torn : Bool) : State :=
  match s.regions.find o with
  | none => s
  | some r =>
    if r.phase = .exiting then s else
    let mine := regionParcels o r
    let away : State := { s with sets := s.sets.each fun _ x =>
      if x.parcel ∈ mine && x.told then { x with told := false, counted := x.counted && !torn } else x }
    let s1 := (away.leaveSegments o mine torn).freeRegion o r
    let s2 := (s1.frontWrite 0 r.asid.toNat r.record (recordBytes kind code status parcel value s.meridian)).keepTaken o r
    let s3 := s2.log 6 code parcel r.asid r.record
    let s4 : State := { s3 with launches := s3.launches.only fun k _ => k ≠ r.launch }
    if s4.debugger.launch = some r.launch then
      let place : StopPlace := .ended kind code.toNat (if kind = 2 then value else status.setWidth 64)
      { s4 with debugger := { s4.debugger with
          launch := none, stop := some place, out := s4.debugger.out ++ [.stop place 0 none s.meridian] } }
    else s4

/-- Abort the region of a parcel by a trap or fault found there (R104, R106, R456). -/
def State.abortAt (s : State) (p : Nat) (code : Byte) (value : Word) : State :=
  match s.regionOf p with
  | none => s.onCore p fun c => { c with stopped := true, running := false }
  | some (o, _) => s.endRegion o 2 code 0 p value true

end Sys2Proof.Machine
end

