-- ==== Sys2Proof/Machine/Cartouche.lean ====
section
/-! DEFINITION. The Cartouche's queues: shadow halves, kicks, the examination of a ring, packets, dependences
(R439-R449, R456). -/

namespace Sys2Proof.Machine

/-! ### Reading memory for the front end -/

/-- Bytes at a physical address: what the host memory holds is the host's own (log 10). -/
def State.plainRead (s : State) (pa n : Nat) : List Byte :=
  match placeOf pa with
  | .host _ => (List.range n).map fun i => Config.hostByte s.tick (pa + i)
  | _ => s.homeRead pa n

/-- Bytes at a virtual address of a queue's address space, read for a strip's province: a fault, or a wait at a migrating
page (R416, R417). -/
def frontRead (v asid : Nat) (va : Word) (n : Nat) : Act (List Byte) := do
  let s ← get
  let m ← settle (s.frontLookup v asid va .read) va
  let s1 ← get
  pure (s1.plainRead m.pa n)

/-- The province of a queue's strip (R440). -/
def stripOf (q : Nat) : Nat := q % 8

/-! ### Queue records (R441, R442) -/

def State.shadow (s : State) (q : Nat) : QueueShadow := s.queues.look QueueShadow.reset q
def State.onShadow (s : State) (q : Nat) (f : QueueShadow → QueueShadow) : State :=
  { s with queues := s.queues.put q (f (s.shadow q)) }

/-- A queue stops with a code (R442, R444). -/
def State.stopQueue (s : State) (q : Nat) (code : Byte) : State :=
  (s.onShadow q fun x => { x with state := 2, fault := code }).log 2 code 0 (s.shadow q).asid (BitVec.ofNat 64 q)

/-- The position of an index after the read index (R445). -/
def QueueShadow.ahead (x : QueueShadow) (i : BitVec 32) : Nat := (i - x.read).toNat

/-! ### Ending a launch (R448, R450) -/

/-- The completion record of a launch that never ran. -/
def State.failLaunch (s : State) (asid : BitVec 14) (record : Word) (kind : Nat) (code : Byte) : State :=
  let s1 := if record.toNat % 32 = 0 then
      s.frontWrite 0 asid.toNat record (recordBytes kind code 0 0 0 s.meridian) else s
  s1.log 6 code 0 asid record

/-- A dependence that has failed ends its launch with end kind 5 (R449). -/
def State.failDependence (s : State) (k : Nat) (code : Byte) : State :=
  match s.launches.find k with
  | none => s
  | some l => ({ s with launches := s.launches.drop k }).failLaunch l.asid l.record 5 code

/-! ### Dependences (R449) -/

/-- The keys of held kernels: past every parcel number, and past every address once multiplied by a parcel's window
(R453). -/
def heldKey (launch : Nat) : Nat := 512 * (0x100000 + launch)

/-- The origin a held kernel was pre-empted from. -/
def State.formerOf (s : State) (r : Region) : Nat :=
  ((s.launches.find r.launch).bind fun (l : Launch) => l.former).getD 0

/-- The device's name for a parcel of a running or a held kernel. -/
def State.seenAt (s : State) (p : Nat) : Nat :=
  match s.regionOf p with
  | some (o, r) => if 512 ≤ o then s.formerOf r + (p - o) else p
  | none => p

/-- A station as a dependence sees it: the one in the save area while a pre-empted region holds the parcel and no kernel
runs on it (R162, R449). -/
def State.seenStation (s : State) (p n : Nat) : BitVec 128 :=
  match s.regionOf p with
  | some _ => s.station p n
  | none =>
    match s.regions.find? fun e => e.2.phase = .held && s.formerOf e.2 ≤ p && p < s.formerOf e.2 + 2 ^ e.2.shape with
    | some (o, r) => s.station (o + (p - s.formerOf r)) n
    | none => s.station p n

/-- Whether a launch's dependence is met now. -/
def State.dependenceMet (s : State) (l : Launch) : Bool :=
  match l.depKind with
  | 0 => true
  | 1 => stnCompletions (s.seenStation (wbits l.dep 8 0) (wbits l.dep 14 9)) = wbits l.dep 26 15
  | 2 =>
    match frontRead (stripOf l.queue) l.asid.toNat l.dep 16 s with
    | .ok bs _ => field bs 8 8 ≤ field bs 0 8
    | .error _ _ => false
  | _ => match s.sets.find (wbits l.dep 11 0) with
    | some x => x.state = 5
    | none => false

/-- A launch becomes ready. -/
def State.makeReady (s : State) (k : Nat) : State :=
  match s.launches.find k with
  | none => s
  | some l => { s with launches := s.launches.put k { l with ready := true, order := s.tick, age := 0 } }

/-- Judge the launches that wait for one kind of dependence and whose word a test names. -/
def State.pollLaunches (s : State) (kind : Nat) (names : Word → Bool) : State :=
  s.launches.foldl (fun (t : State) (e : Nat × Launch) =>
    if !e.2.ready && !e.2.placed && e.2.depKind = kind && names e.2.dep && t.dependenceMet e.2 then t.makeReady e.1 else t) s

/-! ### Packets (R443, R448, R456) -/

/-- The largest share of a bank level that a region of a shape has (R486). -/
def shareOf (level shape : Nat) : Nat := (bankShare level 0 shape).2

/-- Reserved bits of a dependence word (R449). -/
def dependenceOk (kind : Nat) (dep : Word) : Bool :=
  match kind with
  | 0 => dep = 0
  | 1 => wbits dep 63 27 = 0
  | 2 => dep.toNat % 16 = 0
  | _ => wbits dep 63 12 = 0

/-- Why a launch packet ends its launch at once, if it does (R448). -/
def launchRefusal (x : QueueShadow) (h : Nat) (bs : List Byte) : Option Byte :=
  let shape := bits h 47 44
  let names := (List.range 8).map fun i => field bs (64 + 8 * i) 8
  let n := bits h 39 36
  if shape ≤ 9 && !x.shapes.getLsbD shape then some codePrivilege
  else if 9 < shape || 8 < n || shareOf 2 shape < field bs 48 1 || shareOf 3 shape < field bs 49 1 ||
      shareOf 4 shape < field bs 50 1 || field bs 51 13 ≠ 0 ||
      field bs 8 8 % 4096 ≠ 0 || field bs 24 8 % 32 ≠ 0 || field bs 40 8 % 65536 ≠ 0 ||
      !dependenceOk (bits h 35 34) (BitVec.ofNat 64 (field bs 32 8)) ||
      names.drop (min n 8) ≠ List.replicate (8 - min n 8) 0 || 0 ∈ names.take (min n 8)
  then some codeIllegal else none

/-- A launch packet: refused with its record, or waiting (R448, R449). -/
def State.launchPacket (s : State) (q h : Nat) (bs : List Byte) : State :=
  let x := s.shadow q
  let w := fun (off : Nat) => BitVec.ofNat 64 (field bs off 8)
  match launchRefusal x h bs with
  | some c => s.failLaunch x.asid (w 24) 3 c
  | none =>
    let l : Launch :=
      { queue := q, asid := x.asid, shape := bits h 47 44, priority := min (bits h 43 41) x.cap.toNat,
        preemptive := bits h 40 40 = 1, image := w 8, arg := w 16, record := w 24, depKind := bits h 35 34,
        dep := w 32, save := w 40, ways := (field bs 48 1, field bs 49 1, field bs 50 1),
        names := (List.range (bits h 39 36)).map fun i => w (64 + 8 * i),
        ready := false, order := 0, age := 0, placed := false, former := none, block := none }
    let k := s.launchCount
    let s1 := { s with launches := s.launches.put k l, launchCount := k + 1 }
    if l.depKind = 1 && (s.parcel (wbits l.dep 8 0)).wasReset then s1.failDependence k codeStationGone
    else if s1.dependenceMet l then s1.makeReady k else s1

/-- An abort packet ends the launch or the region of its ASID whose record it names (R456). -/
def State.abortPacket (s : State) (asid : BitVec 14) (record : Word) : State :=
  match s.regions.find? fun e => e.2.asid = asid && e.2.record = record with
  | some (o, _) => s.endRegion o 4 0 0 0 0 true
  | none =>
    match s.launches.find? fun e => e.2.asid = asid && e.2.record = record with
    | some (k, l) => ({ s with launches := s.launches.drop k }).failLaunch l.asid l.record 4 0
    | none => s

/-- A queue's header and user half as an examination finds them (R442). -/
structure Examined where
  flags : Nat
  unit0 : List Byte
  units : List Byte
  deriving DecidableEq, Repr, Inhabited

/-- Read what an examination needs: the user half, the next header, and the units of its packet once the kick maximum
passes it (R442-R445). -/
def readPacket (q : Nat) : Act Examined := do
  let s ← get
  let x := s.shadow q
  let v := stripOf q
  let asid := x.asid.toNat
  let size := 2 ^ x.size.toNat
  let unit := fun (j : Nat) => frontRead v asid (x.ring + BitVec.ofNat 64 (64 * ((x.read.toNat + j) % size))) 64
  let user ← frontRead v asid x.user 8
  let flags := field user 0 8
  if bits flags 63 32 ≠ 0 || x.read = x.kick then pure ⟨flags, [], []⟩ else do
    let u0 ← unit 0
    let len := bits (field u0 0 8) 55 48
    if bits (field u0 0 8) 63 63 ≠ (x.read.toNat / size + 1) % 2 || len = 0 || size < len || x.ahead x.kick < len then pure ⟨flags, u0, []⟩ else do
      let us ← (List.range len).mapM unit
      pure ⟨flags, u0, us.flatten⟩

/-- A queue waits for its strip, which turns among the queues that wait (R439, R446). -/
def State.wakeQueue (s : State) (q : Nat) : State := if q ∈ s.stripTurns then s else { s with stripTurns := s.stripTurns ++ [q] }

/-- Whether a write of the front end ends in a fault. -/
def State.frontRefuses (s : State) (v asid : Nat) (va : Word) : Bool :=
  match (s.frontLookup v asid va .write).1 with
  | .bad _ => true
  | _ => false

/-- Examine a queue and consume at most one packet, after which the queue waits for its strip's next turn; a read that a
migrating page holds leaves the queue for a later examination (R416, R442, R444, R446). -/
def State.examine (s : State) (q : Nat) : State :=
  let x := s.shadow q
  if x.state = 3 || (x.state = 1 && (x.size.toNat < 4 || 16 < x.size.toNat || x.rest ≠ 0))
  then s.stopQueue q codeQueueHeader
  else if x.state ≠ 1 then s else
  match readPacket q s with
  | .error .hold s1 => s1
  | .error (.fault _ _) s1 => s1.stopQueue q codeQueueHeader
  | .ok e s1 =>
    if bits e.flags 63 33 ≠ 0 then s1.stopQueue q codeQueueHeader
    else if bits e.flags 32 32 = 1 || x.read = x.kick then s1 else
    let size := 2 ^ x.size.toNat
    let h := field e.unit0 0 8
    let len := bits h 55 48
    let type := bits h 62 56
    if bits h 63 63 ≠ (x.read.toNat / size + 1) % 2 then s1
    else if size < len then s1.stopQueue q codeQueueLength
    else if len = 0 || !(type = 1 || type = 2 || type = 3) || (type = 1 && len < 2) ||
        (if type = 1 then bits h 33 0 ≠ 0 else bits h 47 0 ≠ 0) then s1.stopQueue q codeQueueHeader
    else if x.ahead x.kick < len then s1
    else if s1.frontRefuses (stripOf q) x.asid.toNat (x.user + 8) then s1.stopQueue q codeQueueHeader
    else
      let s2 := match type with
        | 1 => s1.launchPacket q h e.units
        | 3 => s1.abortPacket x.asid (BitVec.ofNat 64 (field e.units 8 8))
        | _ => s1
      let r := x.read + BitVec.ofNat 32 len
      let s3 := s2.onShadow q fun y => { y with read := r }
      let s4 := s3.frontWrite (stripOf q) x.asid.toNat (x.user + 8) (Decode.leBytes 4 r.toNat)
      s4.wakeQueue q

/-- A strip turns to the queue that has waited longest among its own (R439, R446). -/
def State.stripTurn (s : State) (v : Nat) : State :=
  match s.stripTurns.find? fun q => stripOf q = v with
  | some q => ({ s with stripTurns := s.stripTurns.erase q } : State).examine q
  | none => s
/-- The strips that take a turn in this step do so; none does on a held device (R479, log 122). -/
def State.stripsTurn (s : State) : State :=
  if s.boot.phase = .held then s else
  (List.range 8).foldl (fun t v => if Config.stripTakes s.tick v then t.stripTurn v else t) s

/-- What the front end was held at in a range of pages is taken up again: its writes are made, and the queues whose records
or rings a held page has are examined (R416, R442). -/
def State.resumeFront (s : State) (asid first pages : Nat) : State :=
  let s1 := (s.resumeWalks asid first pages).retryWrites.freeRecorded
  let woken := (s.heldWalks.filter fun h => h.1 = .cartouche && h ∉ s1.heldWalks).map fun h => h.2.2
  s1.queues.foldl (fun (t : State) (e : Nat × QueueShadow) =>
    if e.2.state = 1 && e.2.asid.toNat = asid && woken.any fun n =>
        n = e.2.user.toNat / 4096 || (e.2.ring.toNat / 4096 ≤ n && n * 4096 < e.2.ring.toNat + 64 * 2 ^ e.2.size.toNat)
    then t.wakeQueue e.1 else t) s1

/-! ### Kicks (R445, R457) -/

/-- Apply a kick at the strip; a refusal changes nothing except last fault (R445). -/
def State.applyKick (s : State) (q : Nat) (v : Word) : Option Byte × State :=
  let x := s.shadow q
  let i : BitVec 32 := v.setWidth 32
  if wbits v 63 32 ≠ 0 || 2 ^ x.size.toNat < x.ahead i then
    (some codeKickRange,
      (s.onShadow q fun y => { y with fault := codeKickRange }).log 2 codeKickRange 0 x.asid v)
  else
    let s1 := if x.ahead x.kick < x.ahead i then s.onShadow q fun y => { y with kick := i } else s
    (none, s1.wakeQueue q)

/-- A kick reaches its strip: `issuer` is the parcel of a `Q.KICK`, whose refusal is the queue's last fault and is reported there
(R441, R445, R457). -/
def State.strip (s : State) (q : Nat) (v : Word) (issuer : Option (Nat × BitVec 14)) : State :=
  match issuer with
  | none => (s.applyKick q v).2
  | some (p, asid) =>
    let x := s.shadow q
    if x.asid ≠ asid || x.state = 0 then
      ((s.onShadow q fun y => { y with fault := codePrivilege }).log 2 codePrivilege p asid v).tell p codePrivilege 11 0 none v
    else match s.applyKick q v with
      | (some c, s1) => s1.tell p c 11 0 none v
      | (none, s1) => s1

/-- The region of the issuer, and the issuer, that a breakpoint on a queue stops at a kick (R461). -/
def State.kickBreak (s : State) (q : Nat) (from_ : Option Nat) : Option (Nat × Nat) :=
  match from_ with
  | none => none
  | some p => match s.regionOf p with
    | some (o, _) => if s.debugger.breaks.any (fun b => b = .kick q) then some (o, p) else none
    | none => none

/-- A kick, which a breakpoint may hold before it is applied (R445, R461). -/
def State.kick (s : State) (q : Nat) (v : Word) (from_ : Option Nat) (issuer : Option (Nat × BitVec 14)) : State :=
  match s.kickBreak q from_ with
  | some (o, p) =>
    let s1 := s.stopAt o (.kick q p v)
    { s1 with debugger := { s1.debugger with held := s1.debugger.held ++ [(q, v, issuer.map (·.1))] } }
  | none => s.strip q v issuer

/-! ### The device control range (R439) -/

/-- The 64 bytes of a shadow half (R441). -/
def QueueShadow.toNat (x : QueueShadow) : Nat :=
  x.rest.toNat + x.fault.toNat * 2 ^ 278 + x.state.toNat * 2 ^ 286 + x.shapes.toNat * 2 ^ 288 +
  x.cap.toNat * 2 ^ 298 + x.size.toNat * 2 ^ 301 + x.asid.toNat * 2 ^ 306 + x.kick.toNat * 2 ^ 320 +
  x.read.toNat * 2 ^ 352 + x.ring.toNat * 2 ^ 384 + x.user.toNat * 2 ^ 448
def shadowOfNat (n : Nat) : QueueShadow :=
  ⟨BitVec.ofNat 64 (n / 2 ^ 448), BitVec.ofNat 64 (n / 2 ^ 384), BitVec.ofNat 32 (n / 2 ^ 352),
   BitVec.ofNat 32 (n / 2 ^ 320), BitVec.ofNat 14 (n / 2 ^ 306), BitVec.ofNat 5 (n / 2 ^ 301),
   BitVec.ofNat 3 (n / 2 ^ 298), BitVec.ofNat 10 (n / 2 ^ 288), BitVec.ofNat 2 (n / 2 ^ 286),
   BitVec.ofNat 8 (n / 2 ^ 278), BitVec.ofNat 278 n⟩

/-- Whether a writer is the Cartouche core or the debugger. -/
def privileged : Writer → Bool
  | .cartouche | .debugger => true
  | _ => false

/-- The 8-byte word of the privileged tables at an offset of the control range. -/
def State.controlWord (s : State) (off : Nat) : Nat :=
  if off < 0x1040000 then (s.shadow ((off - 0x1000000) / 64)).toNat / 2 ^ (off % 64 / 8 * 64) % 2 ^ 64
  else if off < 0x1060000 then (s.asids.look 0 ((off - 0x1040000) / 8)).toNat
  else if off < 0x10A0000 then
    let g := s.grants.look (0, 0) ((off - 0x1060000) / 16)
    if off % 16 < 8 then g.1.toNat else g.2.toNat
  else s.dropped.toNat

/-- Write an 8-byte word of the privileged tables. -/
def State.setControlWord (s : State) (off v : Nat) : State :=
  if off < 0x1040000 then
    s.onShadow ((off - 0x1000000) / 64) fun x =>
      let k := off % 64 / 8 * 64
      let old := x.toNat
      shadowOfNat (old - old / 2 ^ k % 2 ^ 64 * 2 ^ k + v * 2 ^ k)
  else if off < 0x1060000 then { s with asids := s.asids.put ((off - 0x1040000) / 8) (BitVec.ofNat 64 v) }
  else if off < 0x10A0000 then
    let a := (off - 0x1060000) / 16
    let g := s.grants.look (0, 0) a
    { s with grants := s.grants.put a (if off % 16 < 8 then (BitVec.ofNat 64 v, g.2) else (g.1, BitVec.ofNat 64 v)) }
  else { s with dropped := BitVec.ofNat 64 v }

/-- A read of the control range: a kick register gives the kick maximum (R439). -/
def State.controlRead (s : State) (u : Writer) (off n : Nat) : Except Byte (List Byte) :=
  if off < 0x1000000 then
    if off % 0x1000 < 8 && off % 0x1000 + n ≤ 8 then
      .ok (slice (Decode.leBytes 8 (s.shadow (off / 0x1000)).kick.toNat) (off % 0x1000) n)
    else .error codePermission
  else if 0x10A0008 < off + n then .error codePermission
  else if off < 0x10A0000 && !privileged u then .error codePrivilege
  else .ok ((List.range n).map fun i =>
    BitVec.ofNat 8 (s.controlWord ((off + i) / 8 * 8) / 2 ^ (8 * ((off + i) % 8))))

/-- A write to the control range: only the Cartouche core writes shadow halves and the counter (R439, R441). -/
def State.controlWrite (s : State) (u : Writer) (off : Nat) (data : List Byte) : Except Byte State :=
  if off < 0x1000000 then
    if 8 ≤ off % 0x1000 then .error codePermission
    else if off % 0x1000 ≠ 0 || data.length ≠ 8 then .error codeMisaligned
    else .ok (s.kick (off / 0x1000) (wordOf data) (unitParcel u) none)
  else if 0x10A0008 < off + data.length then .error codePermission
  else
    let allowed := if 0x1040000 ≤ off && off < 0x10A0000 then privileged u else u = .cartouche
    if !allowed then .error codePrivilege
    else .ok ((List.range ((off + data.length + 7) / 8 - off / 8)).foldl (fun t k =>
      let a := (off / 8 + k) * 8
      let old := Decode.leBytes 8 (t.controlWord a)
      let new := (List.range 8).map fun b =>
        if off ≤ a + b && a + b < off + data.length then data.getD (a + b - off) 0 else old.getD b 0
      t.setControlWord a (Decode.leNat new)) s)

end Sys2Proof.Machine
end

