-- ==== Sys2Proof/Machine/Operands.lean ====
section
/-! DEFINITION. The cell's operands, guards, queues, firing and freezing (chapters 7 and 8), and the Surveyor's
register operands. -/

namespace Sys2Proof.Machine

/-! ### Surveyor registers (R89, R113) -/

/-- Read a register; `x0` reads as zero. -/
def Core.get (c : Core) (r : Reg) : Word := if r = 0 then 0 else c.regs[r.toNat]
/-- Write a register; a write to `x0` is discarded. -/
def Core.put (c : Core) (r : Reg) (v : Word) : Core := if r = 0 then c else { c with regs := c.regs.set r.toNat v }

/-! ### Words and lanes (R32, R43, R44) -/

/-- Elements of `w` bits of a 512-bit payload, as natural numbers, lowest first. -/
def elems (w : Nat) (x : BitVec 512) : List Nat := (List.range (512 / w)).map fun i => x.toNat / 2 ^ (w * i) % 2 ^ w
/-- The payload that holds these elements. -/
def packNat (w : Nat) : List Nat → Nat
  | [] => 0
  | e :: es => e % 2 ^ w + 2 ^ w * packNat w es
def pack (w : Nat) (l : List Nat) : BitVec 512 := BitVec.ofNat 512 (packNat w l)
/-- Lane `l` of a payload. -/
def laneOf (x : BitVec 512) (l : Nat) : BitVec 32 := x.extractLsb' (32 * l) 32
/-- A payload with the same 32-bit value in every lane. -/
def spread (v : BitVec 32) : BitVec 512 := pack 32 (List.replicate 16 v.toNat)
/-- The lane-valid mask of a word: tags 3-5 have none and count as valid (R44). -/
def laneMask (tag : BitVec 4) (scale : BitVec 32) : BitVec 16 :=
  if tag = 3 || tag = 4 || tag = 5 then 0xFFFF else scale.setWidth 16
/-- Bytes of a payload. -/
def payloadBytes (x : BitVec 512) : List Byte := Decode.leBytes 64 x.toNat
/-- The payload of up to 64 bytes. -/
def bytesPayload (bs : List Byte) : BitVec 512 := BitVec.ofNat 512 (Decode.leNat bs)
/-- The lane-valid mask of a link word. -/
def linkMask (x : LinkWord) : BitVec 16 := laneMask x.fmt x.scale
/-- The lane register that holds a word. -/
def toLane (x : LinkWord) : LaneReg := ⟨x.payload, x.scale, x.fmt⟩
/-- A data word with a payload, scale lane and format tag (R234). -/
def dataWord (payload : BitVec 512) (scale : BitVec 32) (tag : BitVec 4) : LinkWord :=
  ⟨payload, scale, tag, 0, 0, false, false, 0⟩

/-! ### Where a cell fires -/

/-- A firing's cell, context and slot. -/
structure Site where
  p : Nat
  m : Nat
  ctx : Nat
  slot : Nat
  deriving DecidableEq, Repr, Inhabited

/-- The site that the state's turn names. -/
def State.site (s : State) : Site :=
  match s.next with
  | .firing p m c k => ⟨p, m, c, k⟩
  | .cell p m => ⟨p, m, 0, 0⟩
  | .core p => ⟨p, 0, 0, 0⟩
  | .event _ => ⟨0, 0, 0, 0⟩

/-- A constant of a context (R211). -/
def Cell.const (c : Cell) (ctx i : Nat) : BitVec 32 := c.consts.look 0 (ctx * 8 + i)
/-- The mode word of a context (R180). -/
def Cell.modeWord (c : Cell) (ctx : Nat) : BitVec 32 := c.const ctx 7
/-- A slot's operation word and guard word (R209, R214). -/
def Cell.slotWords (c : Cell) (ctx slot : Nat) : BitVec 64 × BitVec 64 := c.slots.look emptySlot (ctx * 8 + slot)
/-- Delay depth of an output queue, and whether it has a route (R216). -/
def Cell.depth (c : Cell) (q : BitVec 2) : Nat := getF c.routes[q.toNat] 53 48
def Cell.routed (c : Cell) (q : BitVec 2) : Bool := c.routes[q.toNat].getLsbD 63
def Cell.follower (c : Cell) : Bool := c.config.getLsbD 0
/-- Subgraph scope code of a cell (R218). -/
def Cell.subgraph (c : Cell) : Nat := getF c.config 3 1
/-- Filled words of an input queue, a stop token and all behind it counted as absent (R189). -/
def Queue.filled (q : Queue) : Nat := (q.words.takeWhile fun x => !(x.token && x.kind = 1)).length
/-- Free places of an output queue (R183). -/
def Cell.room (c : Cell) (q : BitVec 2) : Nat :=
  8 + c.depth q - (c.oq[q.toNat].words.length + c.oq[q.toNat].delay.length +
    c.oq[q.toNat].waiting.length)
/-- The current context (R182). -/
def Cell.context (c : Cell) : Nat :=
  match (c.iq.toList.filterMap fun q => q.words.head?).head? with
  | some x => x.ctx.toNat
  | none => c.named.toNat

/-! ### Sources (R211, R213) -/

/-- A source as an instruction reads it: `word` is the link word when it comes from a queue, `scalar` the value of a
constant or special that stands in every lane. -/
structure Source where
  payload : BitVec 512
  scale : BitVec 32
  tag : BitVec 4
  word : Option LinkWord
  scalar : Option (BitVec 32)
  isReg : Bool
  deriving DecidableEq, Repr, Inhabited

/-- The mask that a source contributes to a result: only queue words carry one (R44). -/
def Source.mask (x : Source) : BitVec 16 := if x.word.isSome then laneMask x.tag x.scale else 0xFFFF
/-- The mask of the word itself, a register's own included (R44, R255). -/
def Source.ownMask (x : Source) : BitVec 16 :=
  if x.word.isSome || x.isReg then laneMask x.tag x.scale else 0xFFFF

def scalarSource (v : BitVec 32) : Source := ⟨spread v, 0xFFFF, 0, none, some v, false⟩

/-- What a firing works on. -/
structure Firing where
  s : State
  t : Site
  c : Cell
  op : Nat
  w : CellWord

/-- A special operand (R213). -/
def Firing.special (f : Firing) : Special → Source
  | .lane => ⟨pack 32 (List.range 16), 0xFFFF, 0, none, none, false⟩
  | .cx => scalarSource (BitVec.ofNat 32 (f.t.m % 4))
  | .cy => scalarSource (BitVec.ofNat 32 (f.t.m / 4))
  | .cell => scalarSource (BitVec.ofNat 32 f.t.m)
  | .parcel => scalarSource (BitVec.ofNat 32 (f.t.p - (match f.s.regionOf f.t.p with | some (o, _) => o | none => 0)))
  | .merlo => scalarSource (f.s.meridian.setWidth 32)
  | .merhi => scalarSource ((f.s.meridian >>> 32).setWidth 32)
  | .ctx => scalarSource (BitVec.ofNat 32 f.t.ctx)

/-- A word of an input queue by window index. -/
def Cell.queueWord (c : Cell) (q : BitVec 2) (j : Nat) : LinkWord :=
  c.iq[q.toNat].words.getD j (dataWord 0 0 0)

/-- An operand as it stands, without the checks of R44 and R189. A predicate that is set is nonzero in every element of
every type (R240, R284). -/
def Firing.raw (f : Firing) : Operand → Source
  | .reg i => let v := f.c.v[i.toNat]; ⟨v.payload, v.scale, v.tag, none, none, true⟩
  | .iq q j => let x := f.c.queueWord q j.toNat; ⟨x.payload, x.scale, x.fmt, some x, none, false⟩
  | .pred k => scalarSource (if f.c.k.getLsbD k.toNat then 0xFFFFFFFF else 0)
  | .const i => scalarSource (f.c.const f.t.ctx i.toNat)
  | .special x => f.special x
  | .oq _ | .ap | .handle _ | .none => ⟨0, 0, 0, none, none, false⟩

/-- A precise fault of a firing: its code, word 1 of the packet, the lanes that raised it, and whether word 1 is an
address (R196, R198). -/
structure CellStop where
  code : Byte
  word1 : Word
  lanes : BitVec 16
  addr : Bool
  deriving DecidableEq, Repr, Inhabited

def cellIllegal : CellStop := ⟨codeIllegal, 0, 0, false⟩

/-- Opcodes that move words unchanged (R44, R280). -/
def moves (op : Nat) : Bool := op ∈ [0x42, 0x60, 0x61, 0xE0, 0xE1, 0xE2, 0xE3, 0xE4, 0xE6]
/-- Opcodes that are defined to take a format tag 6-8 (R301, R362). -/
def takesTag (op tag : Nat) : Bool :=
  moves op || (tag = 7 && op ∈ [0x66, 0xE9, 0xEA]) || (tag = 8 && op = 0x66)

/-- The checks on a word that an instruction reads. A cell with poison at a head does not fire; poison that a window index above
0 reads is an illegal token (R44, R189, log 132). -/
def Firing.checkWord (f : Firing) (x : Source) : Except CellStop Unit :=
  match x.word with
  | some l =>
    if l.token then
      if l.kind = 3 then .error ⟨codeOrphaned, 0, 0, false⟩
      else if (l.kind = 0 || l.kind = 6 || l.kind = 8) && (moves f.op || f.op = 0xE7) then .ok ()
      else .error cellIllegal
    else if 9 ≤ x.tag.toNat || (6 ≤ x.tag.toNat && !takesTag f.op x.tag.toNat) then .error cellIllegal
    else .ok ()
  | none =>
    if 9 ≤ x.tag.toNat || (6 ≤ x.tag.toNat && !takesTag f.op x.tag.toNat) then .error cellIllegal else .ok ()

/-- Read a source operand. -/
def Firing.read (f : Firing) (o : Operand) : Except CellStop Source :=
  match f.checkWord (f.raw o) with
  | .error e => .error e
  | .ok _ => .ok (f.raw o)

/-- Source C as an operand, for the instructions that make it one (R211). -/
def cOperand (op : Nat) (w : CellWord) : Operand :=
  if op ∈ [0x06, 0x41, 0x49, 0x4A, 0x83] then (Decode.operandOf w.c).getD .none else .none

/-- The source operands of an operation. -/
def sources (op : Nat) (w : CellWord) : List Operand := [w.a, w.b, cOperand op w]

/-- The words of its queue that a width adapter reads: first and last window index (R279). -/
def wadpSpan (w : CellWord) : Nat × Nat :=
  let m := w.cf 0 3
  match w.cf 3 2 with
  | 0 => (0, 0)
  | 1 => (0, 1)
  | 2 => (80 * m / 128, (80 * m + 79) / 128)
  | _ => (128 * m / 80, (128 * m + 127) / 80)

/-- The words an operation needs in an input queue by its window indices (R183). -/
def windowNeed (op : Nat) (w : CellWord) (q : BitVec 2) : Nat :=
  if op = 0xC3 then (match w.a with | .iq i _ => if i = q then (wadpSpan w).2 + 1 else 0 | _ => 0)
  else ((sources op w).map fun o => match o with
    | .iq i j => if i = q then j.toNat + 1 else 0
    | _ => 0).foldl max 0

/-! ### Guards (R183, R209) -/

def guardPreds (g : BitVec 64) (k : BitVec 8) : Bool :=
  (List.range 8).all fun i =>
    match getF g (49 + 2 * i) (48 + 2 * i) with
    | 1 => !k.getLsbD i
    | 2 => k.getLsbD i
    | 3 => false
    | _ => true
def guardNeed (g : BitVec 64) (q : BitVec 2) : Nat :=
  if g.getLsbD (44 + q.toNat) then getF g (30 + 3 * q.toNat) (28 + 3 * q.toNat) + 1 else 0
def guardOut (g : BitVec 64) (q : BitVec 2) : Bool := g.getLsbD (40 + q.toNat)

/-- Opcodes whose firing takes a reorder entry of the address port (R193, R252, R286, R289). -/
def takesEntry (op : Nat) : Bool := op ∈ [0x65, 0x66, 0x67, 0x68, 0x69, 0x6A, 0xE5, 0xE8]

def queues4 : List (BitVec 2) := [0, 1, 2, 3]

/-- Whether a port entry is a running walk (R253). -/
def PortEntry.isWalk (e : PortEntry) : Bool := match e.op with | .walk _ _ _ _ _ => true | _ => false
/-- The register that a port entry will write. -/
def PortEntry.target (e : PortEntry) : Option (BitVec 4) := match e.dest with | .reg i => some i | _ => none

/-- What the operation itself needs, in place of or beside the operand needs (R183, R249, R281, R283, R284, R291). -/
def Cell.opReady (c : Cell) (credits : Nat) (op : Nat) (w : CellWord) : Bool :=
  let has := fun (o : Operand) => match o with
    | .iq q j => j.toNat + 1 ≤ c.iq[q.toNat].filled
    | _ => true
  let space := fun (o : Operand) => match o with
    | .oq q => 1 ≤ c.room q
    | _ => true
  match op with
  | 0xE0 => if c.k.getLsbD (w.cf 0 3) then has w.a && space w.dst else has w.b
  | 0xE2 => (has w.a || has w.b) && space w.dst
  | 0xE3 =>
    let t := BitVec.ofNat 2 (w.cf 0 2)
    (has w.a && has w.b) && (1 ≤ c.room t || space w.dst)
  | 0x62 =>
    (match w.a with
      | .iq q _ =>
        let first := (c.iq[q.toNat].words.take (w.cf 0 4))
        first.length = w.cf 0 4 && first.all fun x => !(x.token && (x.kind = 1 || x.kind = 2 || x.kind = 3))
      | _ => true) &&
    (match w.dst with
      | .oq q => w.cf 0 4 ≤ c.room q
      | _ => true)
  | 0xEA => 1 ≤ credits && has w.a
  | _ => (queues4.all fun q => windowNeed op w q ≤ c.iq[q.toNat].filled) && space w.dst

/-- Whether the selector of a steer is true: a predicate, or lane 0 of a word (R284). -/
def Firing.steer (f : Firing) : Bool := laneOf (f.raw f.w.b).payload 0 ≠ 0

/-- The effective guard of a slot (R183, R193, R252). -/
def State.guardHolds (s : State) (t : Site) : Bool :=
  let c := s.cell t.p t.m
  let (opw, g) := c.slotWords t.ctx t.slot
  match Decode.cell opw with
  | .error _ => false
  | .ok i =>
    match i.cellParts? with
    | none => false
    | some (opb, w) =>
      let op := opb.toNat
      let steered := op ≠ 0xE3 ||
        (let f : Firing := ⟨s, t, c, op, w⟩
         if f.steer then 1 ≤ c.room (BitVec.ofNat 2 (w.cf 0 2))
         else match w.dst with | .oq q => 1 ≤ c.room q | _ => false)
      let pending := c.port.filterMap PortEntry.target
      let touched := (w.dst :: sources op w).filterMap fun o => match o with | .reg i => some i | _ => none
      guardPreds g c.k &&
      (queues4.all fun q => guardNeed g q ≤ c.iq[q.toNat].filled && (!guardOut g q || 1 ≤ c.room q)) &&
      c.opReady (s.parcel t.p).credits op w && steered &&
      (!takesEntry op || (c.port.length < 32 && !c.port.any PortEntry.isWalk)) &&
      (touched.all fun i => i ∉ pending) &&
      (match w.a with | .handle h => 2 ≤ bufState (s.buffer t.p h.toNat) | _ => true)

/-- The slot that fires in a context, or that would: the lowest with a true guard (R184). -/
def State.pickSlot (s : State) (p m ctx : Nat) : Option Nat :=
  (List.range 8).find? fun k => s.guardHolds ⟨p, m, ctx, k⟩

/-! ### Chains (R191, R192) -/

def snake : List Nat := [0, 1, 2, 3, 7, 6, 5, 4, 8, 9, 10, 11, 15, 14, 13, 12]
/-- The cell after one in snake order, when it follows it. -/
def State.followerOf (s : State) (p m : Nat) : Option Nat :=
  match snake.idxOf? m with
  | none => none
  | some i => match snake[i + 1]? with
    | some n => if (s.cell p n).follower then some n else none
    | none => none

/-- A poison token at the head of an input queue (R197). -/
def Cell.poisonHead (c : Cell) : Bool :=
  c.iq.toList.any fun q => match q.words.head? with
    | some x => x.token && x.kind = 2
    | none => false

/-- The cells of a chain before one in snake order, nearest first: its leaders up to the head (R191). -/
def State.leadersOf (s : State) (p m : Nat) : List Nat :=
  let before := (snake.takeWhile (· ≠ m)).reverse
  if !(s.cell p m).follower then [] else
    let led := before.takeWhile fun n => (s.cell p n).follower
    led ++ (before.drop led.length).take 1
/-- The cells of a chain from one on, in snake order (R191). -/
def State.followersFrom (s : State) (p m : Nat) : List Nat :=
  m :: ((snake.dropWhile (· ≠ m)).drop 1).takeWhile fun n => (s.cell p n).follower
/-- The chain of a cell, from its head on. -/
def State.chainOf (s : State) (p m : Nat) : List Nat := s.followersFrom p ((s.leadersOf p m).getLastD m)
/-- The current context of a cell: a follower's is its head's (R182, R192). -/
def State.contextOf (s : State) (p m : Nat) : Nat := (s.cell p ((s.leadersOf p m).getLastD m)).context

/-- A cell that may fire at all: it runs, no widener waits and no poison stands at a head (R197, R287). -/
def Cell.able (c : Cell) : Bool := c.mode = .running && c.widening.isNone && !c.poisonHead

/-- Whether a follower can fire the replay that its leader handed it in an earlier f-cycle; true where it owes none yet
(R192). -/
def State.keepsUp (s : State) (p m : Nat) : Bool :=
  let c := s.cell p m
  match c.replay with
  | some (x, k) => s.meridian.toNat ≤ c.handed || (c.able && s.guardHolds ⟨p, m, x.toNat, k.toNat⟩)
  | none => true

/-- Whether a cell may fire now, and what: a follower fires its replay in an f-cycle after its leader's firing, another cell
the slot it picks; neither while its own follower has still to fire what it was handed, nor in an f-cycle in which a follower
of the chain cannot fire its replay (R192, R197, R287). -/
def State.firingOf (s : State) (p m : Nat) : Option (Nat × Nat) :=
  let c := s.cell p m
  let free := match s.followerOf p m with
    | some n => (s.cell p n).replay.isNone
    | none => true
  if !c.able || !free || !(s.chainOf p m).all (s.keepsUp p) then none
  else if c.follower then
    match c.replay with
    | some (x, k) => if c.handed < s.meridian.toNat then some (x.toNat, k.toNat) else none
    | none => none
  else (s.pickSlot p m c.context).map fun k => (c.context, k)

/-! ### Pushing, popping and activity (R184, R188, R202, R206, R216) -/

/-- Something happens that sets a region's hang counter to 0 (R206). -/
def State.stir (s : State) (p : Nat) : State :=
  match s.regionOf p with
  | some (o, _) => s.onRegion o fun r => { r with active := true }
  | none => s

/-- A word enters an output queue or its delay buffer (R188). -/
def Cell.enter (c : Cell) (q : BitVec 2) (now : Nat) (y : LinkWord) : Cell :=
  let o := c.oq[q.toNat]
  let o' : Queue := if c.depth q = 0 && o.delay.isEmpty && o.words.length < 8 then { o with words := o.words ++ [y] }
    else { o with delay := o.delay ++ [(y, now)] }
  { c with oq := c.oq.set q.toNat o' }

/-- The context tag that a word takes in an output queue (R216). -/
def Cell.tagOf (c : Cell) (q : BitVec 2) (ctx : Nat) (own : Bool) (x : LinkWord) : BitVec 3 :=
  let r := c.routes[q.toNat]
  if r.getLsbD 54 then (if own then x.ctx else BitVec.ofNat 3 ctx) else r.extractLsb' 55 3

/-- Push a word onto an output queue with the context tag that its routing word gives (R188, R216). -/
def Cell.push (c : Cell) (now : Nat) (q : BitVec 2) (ctx : Nat) (own : Bool) (x : LinkWord) : Cell :=
  let y := { x with ctx := c.tagOf q ctx own x }
  if c.oq[q.toNat].waiting.isEmpty then c.enter q now y
  else { c with oq := c.oq.set q.toNat { c.oq[q.toNat] with waiting := c.oq[q.toNat].waiting ++ [some (y, now)] } }

/-- Pop words from an input queue; its head index moves with them (R202). -/
def Cell.pop (c : Cell) (q : BitVec 2) (n : Nat) : Cell :=
  let o := c.iq[q.toNat]
  let k := min n o.words.length
  { c with iq := c.iq.set q.toNat { o with words := o.words.drop k, head := o.head + BitVec.ofNat 3 k } }

/-- One token onto each output queue that has a route, behind the words there; poison does not wait for
places that memory reads reserve with no word behind them (R190, R197). -/
def Cell.sendAll (c : Cell) (now kind ctx : Nat) : Cell :=
  queues4.foldl (fun c q =>
    if !c.routed q then c
    else if kind = 2 && c.oq[q.toNat].waiting.all Option.isNone then c.enter q now { tokenWord kind 0 with ctx := c.tagOf q ctx false (tokenWord kind 0) }
    else c.push now q ctx false (tokenWord kind 0)) c

/-! ### What a firing does -/

/-- The staged effects of a firing (R184): the destination's word or predicate, other pushes (with whether the word
keeps its own context tag), flags, the generator, a port entry, a widening, and the rest. -/
structure Effect where
  dst : Option LinkWord
  pred : Option Bool
  setPred : Option (Nat × Bool)
  pushes : List (BitVec 2 × LinkWord × Bool)
  flags : BitVec 5
  gen : BitVec 32
  entry : Option PortEntry
  widening : Option Widening
  halt : Bool
  acquireY : Bool
  drain : Option (BitVec 7)
  record : Option LinkWord

/-- No effect beyond the guard's own. -/
def Firing.quiet (f : Firing) : Effect :=
  ⟨none, none, none, [], 0, f.c.gen, none, none, false, false, none, none⟩
/-- Only a destination word. -/
def Firing.write (f : Firing) (x : LinkWord) : Effect := { f.quiet with dst := some x }

/-- The pops of the pop bit: each input queue by its largest window index + 1 (R184). -/
def popBit (op : Nat) (w : CellWord) : List (BitVec 2 × Nat) :=
  if w.pop then (queues4.map fun q => (q, windowNeed op w q)).filter fun e => e.2 ≠ 0 else []

/-- The pops that an instruction makes without its pop bit (R248, R249, R281, R283, R288). -/
def ownPops (c : Cell) (op : Nat) (w : CellWord) : List (BitVec 2 × Nat) :=
  let at0 := fun (o : Operand) (n : Nat) => match o with
    | .iq q _ => [(q, n)]
    | _ => []
  match op with
  | 0x61 => (match w.a with | .iq q j => [(q, j.toNat + 1)] | _ => [])
  | 0x62 => at0 w.a (w.cf 0 4)
  | 0xE0 => if c.k.getLsbD (w.cf 0 3) then at0 w.a 1 else at0 w.b 1
  | 0xE2 => (match w.a with
      | .iq q _ => if 1 ≤ c.iq[q.toNat].filled then [(q, 1)] else at0 w.b 1
      | _ => [])
  | 0xE7 => at0 w.a 1
  | _ => []

/-- The destination of a port entry. -/
def entryDest (w : CellWord) (ctx : Nat) : PortDest :=
  match w.dst with
  | .reg i => .reg i
  | .oq q => .queue q (BitVec.ofNat 3 ctx)
  | _ => .drop

/-- A guard word's own effects and the bookkeeping of a completed firing (R184). -/
def Cell.settleGuard (c : Cell) (t : Site) (g : BitVec 64) : Cell :=
  let mask : BitVec 8 := g.extractLsb' 16 8
  let vals : BitVec 8 := g.extractLsb' 8 8
  { c with
    k := (c.k &&& ~~~mask) ||| (vals &&& mask)
    named := if g.getLsbD 27 then g.extractLsb' 24 3 else c.named
    fired := true
    fireCtx := BitVec.ofNat 3 t.ctx
    fireSlot := BitVec.ofNat 3 t.slot
    replay := none }
/-- The guard's own effects and the bookkeeping of a completed firing of a slot. -/
def Cell.settleFiring (c : Cell) (t : Site) : Cell := c.settleGuard t (c.slotWords t.ctx t.slot).2

/-- Write the destination of a firing: a register, a predicate, or a push (R184, R241). -/
def Cell.writeDst (c : Cell) (now : Nat) (w : CellWord) (ctx : Nat) (own : Bool) (x : LinkWord) : Cell :=
  match w.dst with
  | .reg i => { c with v := c.v.set i.toNat (toLane x) }
  | .oq q => c.push now q ctx own x
  | _ => c
def Cell.setK (c : Cell) (i : Nat) (b : Bool) : Cell :=
  let bit : BitVec 8 := BitVec.ofNat 8 (2 ^ i)
  { c with k := if b then c.k ||| bit else c.k &&& ~~~bit }

/-- Hand the fired slot on to the follower (R192). -/
def State.handOn (s : State) (t : Site) : State :=
  match s.followerOf t.p t.m with
  | some n => s.onCell t.p n fun c =>
      { c with replay := some (BitVec.ofNat 3 t.ctx, BitVec.ofNat 3 t.slot), handed := s.meridian.toNat }
  | none => s

/-- Return a record to the sheet's Compass (R291). -/
def State.returnRecord (s : State) (p : Nat) (x : LinkWord) : State :=
  { s with compasses := s.compasses.alter Compass.reset (p / 4) fun c => { c with returns := c.returns ++ [(p, x)] } }

/-- The pure part of a firing's effect on its own cell (R184). -/
def Effect.onCell (e : Effect) (now : Nat) (t : Site) (op : Nat) (w : CellWord) (c : Cell) : Cell :=
  let c1 := match e.dst with
    | some x => c.writeDst now w t.ctx (op = 0xE4) x
    | none => c
  let c2 := match e.pred, w.dst with
    | some b, .pred k => c1.setK k.toNat b
    | _, _ => c1
  let c3 := match e.setPred with
    | some (i, b) => c2.setK i b
    | none => c2
  let c4 := e.pushes.foldl (fun c x => c.push now x.1 t.ctx x.2.2 x.2.1) c3
  let c5 := (ownPops c op w ++ popBit op w).foldl (fun c x => c.pop x.1 x.2) c4
  let c6 : Cell := { c5 with flags := c5.flags ||| e.flags, gen := e.gen, widening := e.widening }
  let c7 := match e.entry with
    | none => c6
    | some x =>
      let c' : Cell := { c6 with port := c6.port ++ [x] }
      match x.dest with
      | .queue q _ => { c' with oq := c'.oq.set q.toNat { c'.oq[q.toNat] with waiting := c'.oq[q.toNat].waiting ++ [none] } }
      | _ => c'
  let c8 := c7.settleFiring t
  if e.halt then { c8.sendAll now 1 t.ctx with mode := .halted } else c8

/-- Carry out a firing's effect. -/
def State.commit (s : State) (t : Site) (op : Nat) (w : CellWord) (e : Effect) : State :=
  let s1 := s.onCell t.p t.m (e.onCell s.meridian.toNat t op w)
  let s2 := if e.acquireY then s1.acquire (.cell t.p t.m) .y else s1
  let s3 := match e.drain with
    | some h =>
      let b := s2.buffer t.p h.toNat
      if bufState b = 2 then s2.setBuffer t.p h.toNat (setF b 63 62 3) else s2
    | none => s2
  let s4 := match e.record with
    | some x => (s3.onParcel t.p fun y => { y with credits := y.credits - 1 }).returnRecord t.p x
    | none => s3
  (s4.stir t.p).handOn t

/-! ### Freezing (R196-R198) -/

/-- The fault packet of a cell (R198). -/
def cellPacket (code : Byte) (rel m ctx slot : Nat) (late : Bool) : Word :=
  BitVec.ofNat 64 (code.toNat + 15 * 2 ^ 8 + m * 2 ^ 12 + rel * 2 ^ 16 + ctx * 2 ^ 25 + slot * 2 ^ 28 +
    (if late then 2 ^ 31 else 0))

/-- Put a report in its place: by relative parcel, then by cell (R197). -/
def insertReport (x : CellReport) : List CellReport → List CellReport
  | [] => [x]
  | y :: l => if x.parcel < y.parcel || (x.parcel = y.parcel && x.cell < y.cell) then x :: y :: l else y :: insertReport x l

/-- The controllers send the packets of the cells that have frozen in an f-cycle that ends (R197, R198, R483). -/
def State.sendReports (s : State) : State :=
  s.reports.foldl (fun (t : State) x => (t.log 1 x.code x.parcel x.asid x.word1).post x.origin 127 true x.word0 x.word1)
    { s with reports := [] }

/-- A cell takes a fault: it freezes, sends poison unless it already had, and the controller has it to report (R197). -/
def State.freeze (s : State) (t : Site) (x : CellStop) (late : Bool) : State :=
  let c := s.cell t.p t.m
  let fr : Word := BitVec.ofNat 64 (x.code.toNat + t.slot * 2 ^ 17 + t.ctx * 2 ^ 20 + (if late then 2 ^ 23 else 0) +
    x.lanes.toNat * 2 ^ 32)
  let c1 := if c.mode = .poisoned then c else c.sendAll s.meridian.toNat 2 t.ctx
  let s1 := s.onCell t.p t.m fun _ =>
    { c1 with mode := .frozen, hung := none, faultReg := fr, faultAddr := if x.addr then x.word1 else 0,
              faulting := if late then none else some (t.ctx * 8 + t.slot, c.slotWords t.ctx t.slot) }
  match s1.regionOf t.p with
  | none => s1
  | some (o, r) =>
    let w0 := cellPacket x.code (t.p - o) t.m t.ctx t.slot late
    { s1 with reports := insertReport ⟨t.p, t.m, o, r.asid, x.code, w0, x.word1⟩ s1.reports }

/-- The words that a firing pops carry tags that its instruction may consume (R44); `PEEK` takes any word (R250). -/
def Cell.mayConsume (c : Cell) (op : Nat) (w : CellWord) : Bool :=
  op = 0x63 || (ownPops c op w ++ popBit op w).all fun e => (c.iq[e.1.toNat].words.take e.2).all fun x =>
    x.fmt.toNat < 6 || (x.fmt.toNat < 9 && takesTag op x.fmt.toNat)

/-- Fire a slot: its effect, or its freeze (R184, R196). -/
def State.fire (s : State) (op : Nat) (w : CellWord) (k : Firing → Except CellStop Effect) : State :=
  let t := s.site
  let c := s.cell t.p t.m
  match k ⟨s, t, c, op, w⟩ with
  | .ok e => if c.mayConsume op w then s.commit t op w e else s.freeze t cellIllegal false
  | .error x => s.freeze t x false

/-! ### Commands (R204) -/

/-- Whether a cell is frozen by a fault and not by the hang monitor. -/
def Cell.faulted (c : Cell) : Bool := c.mode = .frozen && c.hung.isNone

/-- Poison is deleted from a cell's queues, delay buffers and routes; what a wide port holds stays there (R204, log 132). -/
def Cell.cure (c : Cell) : Cell :=
  let clean := fun (q : Queue) =>
    let good := fun (x : LinkWord) => !(x.token && x.kind = 2)
    let keep := fun (x : Option (LinkWord × Nat)) => match x with
      | some e => good e.1
      | none => true
    { q with words := q.words.filter good, delay := q.delay.filter (fun e => good e.1), waiting := q.waiting.filter keep }
  let c1 : Cell := { c with iq := c.iq.map clean, oq := c.oq.map clean,
                            wires := c.wires.map fun x => match x with
                              | some y => if y.token && y.kind = 2 then none else some y
                              | none => none }
  if c1.mode = .poisoned then { c1 with mode := .running } else c1

/-- The region-wide part of continue and skip: poison is cleared, and the outputs of the cells that stay frozen send
it again; a query that poison stopped admits again (R204, R205, R208). -/
def State.cure (s : State) (p m : Nat) : State :=
  match s.regionOf p with
  | none => s
  | some (o, r) =>
    let s1 := (regionParcels o r).foldl (fun t n =>
      t.onParcel n fun x => { x with cells := x.cells.each fun i c =>
        let c1 := c.cure
        if c1.faulted && !(n = p && i = m) then c1.sendAll s.meridian.toNat 2 0 else c1 }) s
    { s1 with compasses := s1.compasses.each fun _ c =>
        { c with query := c.query.map fun q =>
            if q.opener ∈ regionParcels o r then { q with poisoned := false } else q } }

/-- Words behind reserved places, the first place filled. -/
def fillPlaces (x : LinkWord × Nat) : List (Option (LinkWord × Nat)) → List (Option (LinkWord × Nat))
  | [] => []
  | none :: rest => some x :: rest
  | some y :: rest => some y :: fillPlaces x rest

/-- Move the words that no reserved place holds back into an output queue. -/
def Cell.moveUp (c : Cell) (q : BitVec 2) : List (Option (LinkWord × Nat)) → Cell
  | some (y, at_) :: rest => (c.enter q at_ y).moveUp q rest
  | rest => { c with oq := c.oq.set q.toNat { c.oq[q.toNat] with waiting := rest } }

/-- Put the word of a delivered response where its entry says, in its reserved place (R193, R252). -/
def Cell.deliver (c : Cell) (now : Nat) (d : PortDest) (x : LinkWord) : Cell :=
  match d with
  | .reg i => { c with v := c.v.set i.toNat (toLane x) }
  | .queue q ctx =>
    c.moveUp q (fillPlaces ({ x with ctx := c.tagOf q ctx.toNat false x }, now) c.oq[q.toNat].waiting)
  | .drop => c

/-- Give a port entry its response; a node of a walk after the first has no reserved place and is pushed (R194). -/
def Cell.answer (c : Cell) (now : Nat) (e : PortEntry) (x : LinkWord) : Cell :=
  match e.op, e.dest with
  | .walk _ _ _ _ (_ + 1), .queue q ctx => c.push now q ctx.toNat false x
  | _, d => c.deliver now d x

/-- Whether the fault that froze a cell is late (R201). -/
def Cell.lateFault (c : Cell) : Bool := c.faultReg.getLsbD 23

/-- Continue (R204). -/
def State.continueCell (s : State) (p m : Nat) : State :=
  if !(s.cell p m).faulted then s
  else (s.cure p m).onCell p m fun c => { c with mode := .running, faultReg := 0, faultAddr := 0 }

/-- The words of the slot whose precise fault froze a cell, as they stood at the fault: a patch acts from the next guards on
(R204, R219). -/
def Cell.faultWords (c : Cell) (t : Site) : BitVec 64 × BitVec 64 :=
  match c.faulting with
  | some (k, ws) => if k = t.ctx * 8 + t.slot then ws else c.slotWords t.ctx t.slot
  | none => c.slotWords t.ctx t.slot

/-- Skip (R204). -/
def State.skipCell (s : State) (p m : Nat) : State :=
  let c := s.cell p m
  if !c.faulted then s else
  let s1 := (s.cure p m).onCell p m fun c => { c with mode := .running, faultReg := 0, faultAddr := 0 }
  if c.lateFault then
    match c.port with
    | [] => s1
    | e :: rest => s1.onCell p m fun x => { x.answer s.meridian.toNat e (dataWord 0 0 0) with port := rest }
  else
    let t : Site := ⟨p, m, getF c.faultReg 22 20, getF c.faultReg 19 17⟩
    let ws := c.faultWords t
    match Decode.cell ws.1 with
    | .error _ => s1
    | .ok i => match i.cellParts? with
      | none => s1
      | some (op, w) =>
        let pops := popBit op.toNat w ++ ownPops c op.toNat w
        ((s1.onCell p m fun x => (pops.foldl (fun c e => c.pop e.1 e.2) x).settleGuard t ws.2).stir p).handOn t

/-- Resume region: at any cell of a region that the hang monitor froze, every cell that the hang froze runs again, and the
counter restarts (R204, R207). -/
def State.resumeRegion (s : State) (p : Nat) : State :=
  match s.regionOf p with
  | none => s
  | some (o, r) =>
    if !r.hungUp then s else
    ((regionParcels o r).foldl (fun t n =>
      t.onParcel n fun x => { x with cells := x.cells.each fun _ c =>
        if c.mode = .frozen && c.hung.isSome then { c with mode := .running, hung := none, faultReg := 0 } else c })
      s).onRegion o fun r => { r with hang := 0, hungUp := false }

end Sys2Proof.Machine
end

