-- ==== Sys2Proof/Machine/CellWindow.lean ====
section
/-! DEFINITION. The windows of a cell in the parcel window: lane registers, queue window and context store, and the
checks of the configured words (R59, R199-R203, R209-R219, R224). -/

namespace Sys2Proof.Machine

/-! ### Checks of configured words (R224) -/

/-- A guard word that the loader accepts (R209, R224). -/
def guardOk (g : BitVec 64) : Bool :=
  ((List.range 8).all fun i => getF g (49 + 2 * i) (48 + 2 * i) ≠ 3) &&
  (queues4.all fun q => g.getLsbD (44 + q.toNat) || getF g (30 + 3 * q.toNat) (28 + 3 * q.toNat) = 0) &&
  (g.extractLsb' 8 8 &&& ~~~(g.extractLsb' 16 8)) = (0 : BitVec 8) &&
  (g.getLsbD 27 || getF g 26 24 = 0) && getF g 6 0 = 0

/-- The output queues that an operation pushes onto. -/
def pushTargets (op : Nat) (w : CellWord) : List (BitVec 2) :=
  (match w.dst with | .oq q => [q] | _ => []) ++ (if op = 0xE3 then [BitVec.ofNat 2 (w.cf 0 2)] else [])

/-- An operation word that the loader accepts by its own fields: it decodes, and its opcode is assigned (R224). -/
def opWordOk (opw : BitVec 64) : Bool :=
  match Decode.cell opw with
  | .ok _ => true
  | .error _ => false

/-- The checks of a slot against its cell's routing words and its own guard (R224, R281, R282, R284, R285). -/
def Cell.slotOk (c : Cell) (opw g : BitVec 64) : Bool :=
  match Decode.cell opw with
  | .error _ => false
  | .ok i => match i.cellParts? with
    | none => false
    | some (opb, w) =>
      let op := opb.toNat
      guardOk g && ((pushTargets op w).all fun q => c.routed q) &&
      (op ≠ 0xE0 || !g.getLsbD (16 + w.cf 0 3)) &&
      (op ≠ 0xE4 || ((pushTargets op w).all fun q => c.routes[q.toNat].getLsbD 54))

/-- The slots of a cell that are not empty, with their words: context × 8 + slot. -/
def Cell.filledSlots (c : Cell) : List (Nat × CellWord × Nat × BitVec 64) :=
  c.slots.filterMap fun (e : Nat × (BitVec 64 × BitVec 64)) =>
    match Decode.cell e.2.1 with
    | .ok i => (i.cellParts?).map fun x => (e.1, x.2, x.1.toNat, e.2.2)
    | .error _ => none

/-- Priming words that the `DLY` slots of a cell up to one of them give a queue (R282). -/
def Cell.primes (c : Cell) (upTo : Nat) (q : BitVec 2) : Nat :=
  (c.filledSlots.filter fun e => e.1 ≤ upTo && e.2.2.1 = 0xE1 && e.2.1.dst = .oq q).foldl (fun n e => n + e.2.1.cf 0 6) 0

/-- The `DLY` slots of a cell up to one of them prime no queue above its places (R282). -/
def Cell.primesFit (c : Cell) (upTo : Nat) : Bool := queues4.all fun q => c.primes upTo q ≤ 8 + c.depth q

/-- The `HIN` slots of a cell: context × 8 + slot, doorbell and input queue (R288). -/
def Cell.hinSlots (c : Cell) : List (Nat × Nat × Nat) :=
  c.filledSlots.filterMap fun e => match e.2.2.1, e.2.1.a with
    | 0xE7, .iq q _ => some (e.1, e.2.1.cf 0 6, q.toNat)
    | _, _ => none

/-! ### Lane-register window (R59) -/

def Cell.laneBytes (c : Cell) (off n : Nat) : List Byte :=
  (List.range n).map fun i => (payloadBytes (c.v[(off + i) / 64 % 16]'(by omega)).payload).getD ((off + i) % 64) 0

/-- A write changes the payload bytes only (R59). -/
def Cell.laneWrite (c : Cell) (off : Nat) (data : List Byte) : Cell :=
  let i := off / 64 % 16
  have h : i < 16 := by omega
  let v := c.v[i]
  { c with v := c.v.set i { v with payload := bytesPayload (patch (payloadBytes v.payload) (off % 64) data) } }

/-! ### Queue window (R199-R203) -/

def modeCode : CellMode → Nat
  | .running => 0 | .frozen => 1 | .poisoned => 2 | .halted => 3

/-- Sideband bits 47:0 of a link word (R43). -/
def sideband (x : LinkWord) : Nat :=
  x.scale.toNat + x.fmt.toNat * 2 ^ 32 + x.ctx.toNat * 2 ^ 36 + x.phase.toNat * 2 ^ 39 +
    (if x.last then 2 ^ 41 else 0) + (if x.token then 2 ^ 42 else 0) + x.kind.toNat * 2 ^ 43
def withSideband (x : LinkWord) (n : Nat) : LinkWord :=
  ⟨x.payload, BitVec.ofNat 32 n, BitVec.ofNat 4 (bits n 35 32), BitVec.ofNat 3 (bits n 38 36),
   BitVec.ofNat 2 (bits n 40 39), bits n 41 41 = 1, bits n 42 42 = 1, BitVec.ofNat 5 (bits n 47 43)⟩
/-- A word that a raised count adds (R203). -/
def zeroWord : LinkWord := ⟨0, 0, 0, 0, 0, false, false, 0⟩

/-- Status word (R200). -/
def Cell.statusWord (c : Cell) : Nat :=
  c.flags.toNat + c.named.toNat * 2 ^ 5 + c.k.toNat * 2 ^ 8 + c.fireSlot.toNat * 2 ^ 16 + c.fireCtx.toNat * 2 ^ 19 +
    (if c.fired then 2 ^ 26 else 0) + (if c.follower then 2 ^ 27 else 0) + modeCode c.mode * 2 ^ 28

/-- Queue 0-3 input, 4-7 output. -/
def Cell.queue (c : Cell) (q : Nat) : Queue := if q < 4 then c.iq[q % 4] else c.oq[q % 4]
def Cell.setQueue (c : Cell) (q : Nat) (x : Queue) : Cell :=
  if q < 4 then { c with iq := c.iq.set (q % 4) x } else { c with oq := c.oq.set (q % 4) x }
/-- A queue shows its words to the windows in push order: a word pushed behind a place that a memory read reserves stands in the
delay buffer where the queue has one, else in the queue (R188, R202). -/
def Queue.behind (x : Queue) : List (LinkWord × Nat) := x.waiting.filterMap id
def Queue.shownWords (x : Queue) (deep : Bool) : List LinkWord := x.words ++ (if deep then [] else x.behind.map (·.1))
def Queue.shownDelay (x : Queue) (deep : Bool) : List LinkWord := x.delay.map (·.1) ++ (if deep then x.behind.map (·.1) else [])
/-- Queue state word (R202). -/
def queueState (x : Queue) (deep : Bool) : Nat :=
  x.head.toNat + min (x.shownWords deep).length 8 * 2 ^ 6 + min (x.shownDelay deep).length 63 * 2 ^ 10

/-- Reserved places with the first `n` words among them. -/
def keepWords {α : Type} : Nat → List (Option α) → List (Option α)
  | _, [] => []
  | n, none :: l => none :: keepWords n l
  | 0, some _ :: l => keepWords 0 l
  | n + 1, some x :: l => some x :: keepWords n l
/-- Change the word at an index among reserved places. -/
def modifyWord {α : Type} (f : α → α) : Nat → List (Option α) → List (Option α)
  | _, [] => []
  | n, none :: l => none :: modifyWord f n l
  | 0, some x :: l => some (f x) :: l
  | n + 1, some x :: l => some x :: modifyWord f n l

/-- Cut or fill a list and the words that wait behind its end to a count: what is added is `z`, behind them all (R203). -/
def resizeShown {α β : Type} (l : List α) (wait : List (Option β)) (n : Nat) (z : α) (w : β) : List α × List (Option β) :=
  let kept := keepWords (n - l.length) wait
  let more := n - (min n l.length + (kept.filter Option.isSome).length)
  if kept.isEmpty then (l.take n ++ List.replicate more z, kept) else (l.take n, kept ++ List.replicate more (some w))

/-- Whether a queue has a delay buffer (R188). -/
def Cell.deep (c : Cell) (q : Nat) : Bool := 4 ≤ q && c.depth (BitVec.ofNat 2 (q - 4)) ≠ 0
/-- The position that selected word `j` names: whether in the delay buffer, and its index (R202). -/
def Cell.selected (c : Cell) (j : Nat) : Nat × Bool × Nat :=
  let q := wbits c.select 2 0
  if c.select.getLsbD 3 then (q, true, 8 * wbits c.select 6 4 + j) else (q, false, j)
def Cell.selectedWord (c : Cell) (j : Nat) : Option LinkWord :=
  let (q, d, i) := c.selected j
  if d then ((c.queue q).shownDelay (c.deep q))[i]? else ((c.queue q).shownWords (c.deep q))[i]?

/-- The 8-byte word at index `i` of the queue window; none where the window is reserved (R199). -/
def Cell.queueWindowWord (c : Cell) (i : Nat) : Option Nat :=
  if i = 0 then some c.statusWord
  else if i = 1 then some c.faultReg.toNat
  else if i = 2 then some c.faultAddr.toNat
  else if i = 3 then some c.gen.toNat
  else if i < 12 then some (queueState (c.queue (i - 4)) (c.deep (i - 4)))
  else if i = 12 then some c.select.toNat
  else if i < 16 then none
  else if i < 24 then some (match c.selectedWord (i - 16) with | some x => sideband x | none => 0)
  else if i < 32 then none
  else if i < 96 then some (match c.selectedWord ((i - 32) / 8) with
    | some x => x.payload.toNat / 2 ^ (64 * ((i - 32) % 8)) % 2 ^ 64
    | none => 0)
  else none

/-- Change selected word `j`, where the queue holds one (R203). -/
def Cell.onSelected (c : Cell) (j : Nat) (f : LinkWord → LinkWord) : Cell :=
  let (q, d, i) := c.selected j
  let x := c.queue q
  let on := fun (e : LinkWord × Nat) => (f e.1, e.2)
  let len := if d then x.delay.length else x.words.length
  if len ≤ i then if d = c.deep q then c.setQueue q { x with waiting := modifyWord on (i - len) x.waiting } else c
  else if d then c.setQueue q { x with delay := x.delay.modify i on }
  else c.setQueue q { x with words := x.words.modify i f }

/-- Whether a value may be written to word `i` of the queue window: reserved bits zero, counts in range, no reserved offset
(R58, R202, R203). -/
def Cell.queueWordOk (c : Cell) (i v : Nat) : Bool :=
  if i = 0 then bits v 63 32 = 0 && bits v 25 22 = 0
  else if i = 1 then bits v 63 48 = 0 && bits v 31 24 = 0 && bits v 16 8 = 0
  else if i = 2 then true
  else if i = 3 then bits v 63 32 = 0
  else if i < 12 then
    bits v 63 16 = 0 && bits v 5 3 = 0 && bits v 9 6 ≤ 8 &&
    bits v 15 10 ≤ (if i < 8 then 0 else c.depth (BitVec.ofNat 2 (i - 8)))
  else if i = 12 then bits v 63 7 = 0 && (bits v 3 3 = 1 || bits v 6 4 = 0)
  else if i < 16 then false
  else if i < 24 then bits v 63 48 = 0
  else if i < 32 then false
  else i < 96

/-- Write word `i` of the queue window of a frozen or halted cell (R203). -/
def Cell.queueWordSet (c : Cell) (now i v : Nat) : Cell :=
  if i = 0 then { c with flags := BitVec.ofNat 5 v, named := BitVec.ofNat 3 (bits v 7 5),
                         k := BitVec.ofNat 8 (bits v 15 8), fireSlot := BitVec.ofNat 3 (bits v 18 16),
                         fireCtx := BitVec.ofNat 3 (bits v 21 19) }
  else if i = 1 then { c with faultReg := BitVec.ofNat 64 v }
  else if i = 2 then { c with faultAddr := BitVec.ofNat 64 v }
  else if i = 3 then { c with gen := BitVec.ofNat 32 v }
  else if i < 12 then
    let x := c.queue (i - 4)
    let deep := c.deep (i - 4)
    let words := resizeShown x.words (if deep then [] else x.waiting) (bits v 9 6) zeroWord (zeroWord, now)
    let delay := resizeShown x.delay (if deep then x.waiting else []) (bits v 15 10) (zeroWord, now) (zeroWord, now)
    c.setQueue (i - 4) { x with head := BitVec.ofNat 3 v, words := words.1, delay := delay.1,
                                waiting := if deep then delay.2 else words.2 }
  else if i = 12 then { c with select := BitVec.ofNat 64 v }
  else if i < 16 then c
  else if i < 24 then c.onSelected (i - 16) fun x => withSideband x v
  else if i < 32 then c
  else if i < 96 then c.onSelected ((i - 32) / 8) fun x =>
    { x with payload := bytesPayload (patch (payloadBytes x.payload) (8 * ((i - 32) % 8)) (Decode.leBytes 8 v)) }
  else c

/-- Bytes of a window whose 8-byte words a function gives. -/
def windowBytes (word : Nat → Option Nat) (off n : Nat) : Except Byte (List Byte) :=
  (List.range n).mapM fun i =>
    match word ((off + i) / 8) with
    | some v => Except.ok (BitVec.ofNat 8 (v / 2 ^ (8 * ((off + i) % 8))))
    | none => Except.error codePermission

/-- The words that a write of bytes touches, each with its new value over the old one. -/
def touchedWords (word : Nat → Option Nat) (off : Nat) (data : List Byte) : List (Nat × Nat) :=
  let first := off / 8
  (List.range ((off + data.length + 7) / 8 - first)).map fun k =>
    let i := first + k
    let old := Decode.leBytes 8 ((word i).getD 0)
    let new := (List.range 8).map fun b =>
      if off ≤ 8 * i + b && 8 * i + b < off + data.length then data.getD (8 * i + b - off) 0 else old.getD b 0
    (i, Decode.leNat new)

/-- The command in a written status word (R200, R204). -/
def State.command (s : State) (p m v : Nat) : State :=
  match bits v 31 30 with
  | 1 => s.continueCell p m
  | 2 => s.skipCell p m
  | 3 => s.resumeRegion p
  | _ => s

/-- A write of bytes into a cell's queue window (R203). -/
def State.queueWindowWrite (s : State) (p m off : Nat) (data : List Byte) : Except Byte State :=
  let c := s.cell p m
  let ws := touchedWords c.queueWindowWord off data
  if !(ws.all fun e => c.queueWordOk e.1 e.2) then .error codePermission else
  let s1 := match c.mode with
    | .running => s.onCell p m fun c => ws.foldl (fun c e =>
        if e.1 = 0 then { c with flags := BitVec.ofNat 5 e.2 } else c) c
    | .poisoned => s
    | .frozen | .halted => s.onCell p m fun c => ws.foldl (fun c e => c.queueWordSet s.meridian.toNat e.1 e.2) c
  .ok (ws.foldl (fun t e => if e.1 = 0 then t.command p m e.2 else t) s1)

/-! ### Context store (R219) -/

/-- The 8-byte word at index `i` of a cell's context store; none where it is reserved. -/
def Parcel.contextWord (x : Parcel) (m i : Nat) : Option Nat :=
  let c := x.cells.look Cell.reset m
  if i < 128 then
    let e := c.slotWords (i / 16) (i / 2 % 8)
    some (if i % 2 = 0 then e.1.toNat else e.2.toNat)
  else if i < 160 then
    let j := i - 128
    some ((c.const (j / 4) (2 * (j % 4))).toNat + (c.const (j / 4) (2 * (j % 4) + 1)).toNat * 2 ^ 32)
  else if i < 164 then some (c.routes[(i - 160) % 4]'(by omega)).toNat
  else if i = 164 then some c.config.toNat
  else if 168 ≤ i && i < 172 && m = 0 then some (x.ingress[(i - 168) % 4]'(by omega)).toNat
  else none

/-- Write word `i` of a context store: a slot word or two constants. -/
def Cell.contextSet (c : Cell) (i v : Nat) : Cell :=
  if i < 128 then
    let k := i / 2
    let e := c.slots.look emptySlot k
    { c with slots := c.slots.put k (if i % 2 = 0 then (BitVec.ofNat 64 v, e.2) else (e.1, BitVec.ofNat 64 v)) }
  else if i < 160 then
    let j := 2 * (i - 128)
    { c with consts := (c.consts.put j (BitVec.ofNat 32 v)).put (j + 1) (BitVec.ofNat 32 (v / 2 ^ 32)) }
  else c

/-- Whether a written word leaves something that the loader would refuse (R219, R224). -/
def Cell.contextOk (c : Cell) (i : Nat) : Bool :=
  if i < 128 then
    let e := c.slots.look emptySlot (i / 2)
    if i % 2 = 1 && e.1 = emptySlot.1 then guardOk e.2 else c.slotOk e.1 e.2
  else if i < 160 && (i - 128) % 4 = 3 then getF (c.const ((i - 128) / 4) 7) 28 27 = 0
  else true

/-- Whether a cell's slots as written leave nothing that the loader would refuse across slots: a queue primed above its places,
or a doorbell that two `HIN` slots of the region name (R219, R282, R288). -/
def State.contextFits (s : State) (p m : Nat) (c : Cell) : Bool :=
  let region := match s.regionOf p with
    | some (o, r) => regionParcels o r
    | none => [p]
  let doorbells := region.flatMap fun n => (List.range 16).flatMap fun i =>
    (if n = p && i = m then c else s.cell n i).hinSlots.map fun e => e.2.1
  c.primesFit 63 && (c.hinSlots.isEmpty || c.hinSlots.all fun e => (doorbells.filter (· = e.2.1)).length = 1)

/-- A write of bytes into a cell's context store (R59, R219). -/
def State.contextWrite (s : State) (p m off : Nat) (data : List Byte) : Except Byte State :=
  if 0x500 < off + data.length then .error codePermission
  else
    let c := s.cell p m
    if c.mode ≠ .frozen then .error codePrivilege
    else
      let ws := touchedWords ((s.parcel p).contextWord m) off data
      let c1 := ws.foldl (fun c e => c.contextSet e.1 e.2) c
      if (ws.all fun e => c1.contextOk e.1) && s.contextFits p m c1 then .ok (s.onCell p m fun _ => c1) else .error codePermission

/-! ### The three windows together (R57, R203) -/

/-- Bytes of the cell windows at an offset of the parcel window. -/
def State.cellWindowRead (s : State) (p off n : Nat) : Except Byte (List Byte) :=
  if off < 0x104000 then
    .ok ((s.cell p ((off - 0x100000) / 0x400)).laneBytes ((off - 0x100000) % 0x400) n)
  else if off < 0x108000 then
    windowBytes (s.cell p ((off - 0x104000) / 0x400)).queueWindowWord ((off - 0x104000) % 0x400) n
  else if off < 0x128000 then
    windowBytes ((s.parcel p).contextWord ((off - 0x108000) / 0x2000)) ((off - 0x108000) % 0x2000) n
  else .error codePermission

/-- A write into the cell windows at an offset of the parcel window. -/
def State.cellWindowWrite (s : State) (p off : Nat) (data : List Byte) : Except Byte State :=
  if off < 0x104000 then
    .ok (s.onCell p ((off - 0x100000) / 0x400) fun c => c.laneWrite ((off - 0x100000) % 0x400) data)
  else if off < 0x108000 then s.queueWindowWrite p ((off - 0x104000) / 0x400) ((off - 0x104000) % 0x400) data
  else if off < 0x128000 then s.contextWrite p ((off - 0x108000) / 0x2000) ((off - 0x108000) % 0x2000) data
  else .error codePermission

end Sys2Proof.Machine
end

