-- ==== Sys2Proof/Machine/Window.lean ====
section
/-! DEFINITION. Control registers, bindings and wakeup slots, and the Surveyor part of the parcel window: control registers,
bindings, ready bits, wakeup slots, buffer table and stations (R91-R96, R102, R107, R129, R154, R160, R488). -/

namespace Sys2Proof.Machine

/-! ### Wakeup slots (R102, R130) -/

/-- The bits of a control word of R102 that must be zero, by condition (1 time, 2 buffer, 3 station; of an empty slot only
bit 7). -/
def wakeReserved (cond : Nat) : Word :=
  match cond with
  | 0 => 0x80
  | 1 => 0xFFFFFFFFFFFF0080
  | 2 => 0xFFFFFFFFFFFF8080
  | _ => 0xFFFFFFFFFFFFC080

/-- Arm a slot: an earlier wakeup of it never fires (R102). The time operand is kept for `ARMT` only (R488). -/
def State.armSlot (s : State) (p ch cond : Nat) (arg time control : Word) : State :=
  let s1 := s.onCore p fun c => c.onChannel ch fun h =>
    { h with wake := { h.wake with
        cond := BitVec.ofNat 2 cond, control := control.setWidth 16, arg := arg, time := if cond = 1 then time else 0,
        armed := s.meridian, count := if cond = 3 then stnCompletions (s.station p (wbits control 13 8)) else 0 } }
  s1.pollWakes p

/-- Arm the slot of the channel that a control word names (R102). -/
def State.arm (s : State) (p cond : Nat) (arg time control : Word) : State :=
  s.armSlot p (wbits control 6 0) cond arg time control

/-! ### Bindings (R96, R129) -/

/-- Bind a channel from the next pick; handler 0 unbinds it. An idle core has no task left to wait for (R129). -/
def Core.bind (c : Core) (now ch : Nat) (handler arg : Word) : Core :=
  c.onChannel ch fun h => if c.running then { h with rebind := some (handler, arg) } else h.bindTo now handler arg

/-- The binding that a channel has, or will have from the next pick. -/
def Channel.binding (h : Channel) : Word × Word := h.rebind.getD (h.handler, h.arg)

/-! ### Control registers (R91-R94) -/

/-- `TSTAT` (R94). -/
def Core.tstat (c : Core) : Word :=
  BitVec.ofNat 64 ((if c.trap then 2 ^ 15 else 0) + (if c.wake then 2 ^ 14 else 0) + c.cls.toNat * 2 ^ 12 + c.ch.toNat)

/-- A control register's value, where its number is one of R91. -/
def State.csrRead (s : State) (p num : Nat) : Option Word :=
  let c := s.core p
  match num with
  | 0 => some s.meridian
  | 1 => some c.tcause
  | 2 => some c.tval
  | 3 => some c.tepc
  | 4 => some c.tstat
  | 5 => some c.hangiv
  | 6 => some (c.asid.setWidth 64)
  | 7 => some c.chprio
  | 8 => some c.flags
  | _ => none

/-- The read-only registers (R91). -/
def csrReadOnly (num : Nat) : Bool := num = 0 || num = 4 || num = 6
/-- Whether a value keeps the reserved bits of a register zero (R92, R93). -/
def csrValueOk (num : Nat) (v : Word) : Bool :=
  match num with
  | 1 => wbits v 63 12 = 0
  | 8 => wbits v 63 2 = 0
  | _ => true
/-- Write a read-write register. -/
def Core.csrSet (c : Core) (num : Nat) (v : Word) : Core :=
  match num with
  | 1 => { c with tcause := v }
  | 2 => { c with tval := v }
  | 3 => { c with tepc := v }
  | 5 => { c with hangiv := v }
  | 7 => { c with chprio := v }
  | 8 => { c with flags := v }
  | _ => c

/-! ### Writes of the window, one register, binding or slot at a time (R488) -/

/-- A control register written through the window: a read-only one ignores it. -/
def State.windowRegister (s : State) (p num : Nat) (value : Word) : Except Byte State :=
  if 8 < num || !csrValueOk num value then .error codePermission
  else if csrReadOnly num then .ok s
  else .ok (s.onCore p fun c => c.csrSet num value)

/-- A binding written through the window, as `BINDL` would bind it. -/
def State.windowBinding (s : State) (p ch : Nat) (handler arg : Word) : Except Byte State :=
  if 127 < ch then .error codePermission
  else if handler.toNat % 4 ≠ 0 then .error codeMisaligned
  else .ok (s.onCore p fun c => c.bind s.meridian.toNat ch handler arg)

/-- A slot's control bytes written through the window: a condition arms the slot with the argument and time it holds, none
disarms it; bit 18 is ignored. -/
def State.windowSlot (s : State) (p ch : Nat) (value : Word) : Except Byte State :=
  let control : Word := (value.setWidth 16).setWidth 64
  let cond := wbits value 17 16
  if wbits value 63 19 ≠ 0 || control &&& wakeReserved cond ≠ 0 || 127 < ch then .error codePermission
  else if cond = 0 then .ok (s.onCore p fun c => c.onChannel ch fun h =>
    { h with wake := { h.wake with cond := 0, control := value.setWidth 16 } })
  else
    let w := ((s.core p).channel ch).wake
    .ok (s.armSlot p ch cond w.arg w.time control)

/-- A slot's argument or fire time written through the window: it arms nothing. -/
def State.windowSlotData (s : State) (p ch : Nat) (f : Wakeup → Wakeup) : State :=
  s.onCore p fun c => c.onChannel ch fun h => { h with wake := f h.wake }

/-! ### The window as words (R107, R154, R160, R488) -/

/-- The control bytes of a slot. -/
def Wakeup.controlWord (w : Wakeup) : Nat :=
  w.control.toNat + w.cond.toNat * 2 ^ 16 + (if w.pending then 2 ^ 18 else 0)

/-- The ready bits of channels `64 i` to `64 i + 63`. -/
def Core.readyWord (c : Core) (i : Nat) : Nat :=
  (List.range 64).foldl (fun n b => n + (if (c.channel (64 * i + b)).ready then 2 ^ b else 0)) 0

/-- The 8-byte word at an offset of the Surveyor part of a parcel window, counted from `+0x20_0000`; none where the offset is
reserved (R107, R154). The fire time of a slot reads as it is stored, whatever the condition (log 128). -/
def State.controlWindowWord (s : State) (p i : Nat) : Option Nat :=
  let off := 8 * i
  let c := s.core p
  if off < 0x48 then (s.csrRead p i).map (·.toNat)
  else if 0x1000 ≤ off && off < 0x1800 then
    let h := c.channel ((off - 0x1000) / 16)
    some (if off % 16 = 0 then h.handler.toNat else h.arg.toNat)
  else if 0x1800 ≤ off && off < 0x1810 then some (c.readyWord ((off - 0x1800) / 8))
  else if 0x2000 ≤ off && off < 0x3000 then
    let w := (c.channel ((off - 0x2000) / 32)).wake
    some (match off % 32 / 8 with
      | 0 => w.controlWord
      | 1 => w.arg.toNat
      | 2 => w.time.toNat
      | _ => 0)
  else if 0x10000 ≤ off && off < 0x10800 then
    some ((s.buffer p ((off - 0x10000) / 16)).toNat / 2 ^ (off % 16 * 8) % 2 ^ 64)
  else if 0x10800 ≤ off && off < 0x10C00 then
    some ((s.station p ((off - 0x10800) / 16)).toNat / 2 ^ (off % 16 * 8) % 2 ^ 64)
  else none

/-- Replace one half of a 128-bit entry. -/
def setHalf (x : BitVec 128) (high : Bool) (v : Nat) : BitVec 128 := if high then setF x 127 64 v else setF x 63 0 v

/-- A buffer entry and a station with their reserved bits zero, as they read (R5, R154, R160). -/
def plainEntry (b : BitVec 128) : BitVec 128 := setF (setF b 53 39 0) 19 19 0
def plainStation (x : BitVec 128) : BitVec 128 := setF x 49 48 0

/-- Write one 8-byte word of the Surveyor part of a parcel window (R488). Entries of the buffer table and stations take the
written bits but for their reserved ones, and a nonzero write to a slot's last 8 bytes is refused (log 128). -/
def State.controlWindowSet (s : State) (p i v : Nat) : Except Byte State :=
  let off := 8 * i
  let w : Word := BitVec.ofNat 64 v
  if off < 0x48 then s.windowRegister p i w
  else if 0x1000 ≤ off && off < 0x1800 then
    let ch := (off - 0x1000) / 16
    let b := ((s.core p).channel ch).binding
    if off % 16 = 0 then s.windowBinding p ch w b.2 else s.windowBinding p ch b.1 w
  else if 0x1800 ≤ off && off < 0x1810 then .ok s
  else if 0x2000 ≤ off && off < 0x3000 then
    let ch := (off - 0x2000) / 32
    match off % 32 / 8 with
    | 0 => s.windowSlot p ch w
    | 1 => .ok (s.windowSlotData p ch fun x => { x with arg := w })
    | 2 => .ok (s.windowSlotData p ch fun x => { x with time := w })
    | _ => if v = 0 then .ok s else .error codePermission
  else if 0x10000 ≤ off && off < 0x10800 then
    let h := (off - 0x10000) / 16
    .ok (s.putBuffer p h (plainEntry (setHalf (s.buffer p h) (off % 16 = 8) v)))
  else if 0x10800 ≤ off && off < 0x10C00 then
    let n := (off - 0x10800) / 16
    .ok ((s.setStation p n (plainStation (setHalf (s.station p n) (off % 16 = 8) v))).pollWakes p)
  else .error codePermission

/-- Bytes of the Surveyor part of a parcel window, for the debugger and the Cartouche core only (R58, R107, R154). -/
def State.controlWindowRead (s : State) (u : Writer) (p off n : Nat) : Except Byte (List Byte) :=
  if privileged u then windowBytes (s.controlWindowWord p) (off - 0x200000) n else .error codePrivilege

/-- A write into the Surveyor part of a parcel window: a slot's argument and time before its control bytes; a refused word
leaves everything as it was (R107, R154, R488). -/
def State.controlWindowWrite (s : State) (u : Writer) (p off : Nat) (data : List Byte) : Except Byte State :=
  if !privileged u then .error codePrivilege else
  let ws := touchedWords (s.controlWindowWord p) (off - 0x200000) data
  let arms := fun (e : Nat × Nat) => 0x2000 ≤ 8 * e.1 && 8 * e.1 < 0x3000 && e.1 % 4 = 0
  ((ws.filter fun e => !arms e) ++ ws.filter arms).foldlM (fun t e => t.controlWindowSet p e.1 e.2) s

end Sys2Proof.Machine
end

