-- ==== Sys2Proof/Machine/Ops.lean ====
section
/-! DEFINITION. The named operations over memory and registers: accesses by place, versioned and atomic accesses,
taking a trap and returning from one, and how a Surveyor instruction completes. -/

namespace Sys2Proof.Machine

/-! ### Accesses at a physical address -/

/-- A request that writes memory. -/
def PortEntry.writes (e : PortEntry) : Bool :=
  match e.op with
  | .store _ _ | .atom _ _ _ _ _ | .stv _ _ _ | .hout _ => true
  | _ => false

/-- Whether a unit may use the cell windows of a parcel: a unit of the region, or the front end (R203). -/
def State.mayUseWindows (s : State) (u : Writer) (n : Nat) : Bool :=
  privileged u || (match s.unitRegion u with
    | some (o, r) => o ≤ n && n < o + 2 ^ r.shape
    | none => false)

/-- The Graticule of a parcel is busy: a command is queued or runs, or a tile drains (R322). -/
def Graticule.busy (g : Graticule) : Bool :=
  !g.queue.isEmpty || g.running.isSome || !g.drains.isEmpty || g.saving.isSome || !g.finishing.isEmpty

/-- Refuse or hold an access to bytes that a segment reserves (R396). -/
def reserveCheck (u : Writer) (pa n : Nat) (value : Word) : Act Unit := do
  let s ← get
  match s.reserved u pa n with
  | (none, _) => pure ()
  | (some (.fault c _), _) => raise c value
  | (some .hold, s1) => do
    set s1
    throw .hold

/-- Turn a refusal by code into a fault. -/
def orRaise {α : Type} (value : Word) : Except Byte α → Act α
  | .ok x => pure x
  | .error c => raise c value

/-- The largest payload of a write to the host, and the largest read: the fields of Device Control, within what the port
supports (R462, R465). -/
def HostPort.maxPayload (h : HostPort) : Nat := 128 * 2 ^ min 2 (h.control.extractLsb' 5 3).toNat
def HostPort.maxRead (h : HostPort) : Nat := 128 * 2 ^ min 5 (h.control.extractLsb' 12 3).toNat

/-- Bytes from an address in pieces of at most `limit`, none of which crosses a 4 KiB boundary (R465). -/
def hostPieces (limit : Nat) : Nat → Nat → Nat → List (Nat × Nat)
  | 0, _, _ => []
  | fuel + 1, a, n =>
    if n = 0 then [] else
    let m := min n (min limit (4096 - a % 4096))
    (a, m) :: hostPieces limit fuel (a + m) (n - m)

/-- Reads or writes of host memory are sent: requests of at most the largest read or payload (R465). -/
def State.hostSends (s : State) (write : Bool) (address n : Nat) : State :=
  let h := s.host
  let l := if write then (hostPieces h.maxPayload n address n).map fun e => HostSend.write e.1 e.2
    else (hostPieces h.maxRead n address n).map fun e => HostSend.read e.1 e.2
  { s with host := { h with sent := h.sent ++ l } }

/-- Read bytes at a translated address (R55, R57, R58, R60). Faults carry `value`. -/
def readAt (u : Writer) (sc : Scope) (m : Mapping) (n : Nat) (value : Word) : Act (List Byte) := do
  let s ← get
  match placeOf m.pa with
  | .hbm => do
    let (bs, s1) := s.scopedRead u sc (leafNoAllocate m.leaf) m.pa n
    set s1
    pure bs
  | .parcel p off =>
    if off < 0x60000 then do
      reserveCheck u m.pa n value
      pure (s.homeRead m.pa n)
    else if off < 0x70000 then pure (s.homeRead m.pa n)
    else if off < 0x80000 then raise codePermission value
    else if off < 0x100000 then
      if (s.parcel p).gr.busy && u ≠ .graticule p then raise codePermission value else pure (s.homeRead m.pa n)
    else if off < 0x128000 then
      if s.mayUseWindows u p then orRaise value (s.cellWindowRead p off n) else raise codePrivilege value
    else if off < 0x200000 then raise codePermission value
    else orRaise value (s.controlWindowRead u p off n)
  | .bank level node off =>
    match s.unitRegion u with
    | some (o, r) =>
      if heldWay o r level node off then do
        reserveCheck u m.pa n value
        pure (s.homeRead m.pa n)
      else raise codePermission value
    | none => raise codePermission value
  | .control off => orRaise value (s.controlRead u off n)
  | .host a => do
    set (s.hostSends false a n)
    pure (s.plainRead m.pa n)
  | .reserved => raise codeAbsent value

/-- The exchange phase of a parcel: that of its exchange station, or 0 (R163). -/
def State.exchangePhase (s : State) (p : Nat) : Nat :=
  match (s.parcel p).stations.find? fun e => stnExchange e.2 with
  | some (_, x) => stnPhase x
  | none => 0

/-- Send an exchange write, counted in the sender's phase: its bytes reach the receiver together, however many runs they
are (R61, R163, R165). -/
def State.exchangeWrite (s : State) (src dest off : Nat) (data : List Byte) : State :=
  let s1 := s.onParcel src fun x =>
    { x with exch := { x.exch with sent := x.exch.sent.alter 0 (dest * 4 + s.exchangePhase src) (· + 1) } }
  { s1 with signals := s1.signals ++ [.write dest [(off, data)] src (s.exchangePhase src) (src, 0, 0)] }

/-- Further bytes of the exchange write that a masked store has just sent. -/
def State.exchangeMore (s : State) (off : Nat) (data : List Byte) : State :=
  { s with signals := match s.signals.getLast? with
      | some (.write dest runs src phase sender) =>
        s.signals.dropLast ++ [.write dest (runs ++ [(off, data)]) src phase sender]
      | _ => s.signals }

/-- How a store may reach another parcel's exchange area: as an exchange write, or not at all (R163, R164). -/
inductive StoreKind where
  | plain | engine
  deriving DecidableEq, Repr, Inhabited

/-- Write bytes at a translated address (R57-R60, R70). -/
def writeAt (u : Writer) (kind : StoreKind) (sc : Scope) (m : Mapping) (data : List Byte) (value : Word) :
    Act Unit := do
  let s ← get
  match placeOf m.pa with
  | .hbm => set (s.scopedWrite u sc (leafNoAllocate m.leaf) m.pa data)
  | .parcel p off =>
    if off < 0x60000 then do
      reserveCheck u m.pa data.length value
      set (s.homeWrite m.pa data)
    else if off < 0x70000 then
      if unitParcel u = some p || privileged u then set (s.homeWrite m.pa data)
      else match kind, unitParcel u with
        | .plain, some q => set (s.exchangeWrite q p (off - 0x60000) data)
        | _, _ => raise codePermission value
    else if off < 0x80000 then raise codePermission value
    else if off < 0x100000 then
      if (s.parcel p).gr.busy && u ≠ .graticule p then raise codePermission value else set (s.homeWrite m.pa data)
    else if off < 0x128000 then
      if s.mayUseWindows u p then do set (← orRaise value (s.cellWindowWrite p off data))
      else raise codePrivilege value
    else if off < 0x200000 then raise codePermission value
    else do set (← orRaise value (s.controlWindowWrite u p off data))
  | .bank level node off =>
    match s.unitRegion u with
    | some (o, r) =>
      if heldWay o r level node off then do
        reserveCheck u m.pa data.length value
        set (s.homeWrite m.pa data)
      else raise codePermission value
    | none => raise codePermission value
  | .control off => do set (← orRaise value (s.controlWrite u off data))
  | .host a => set ((s.hostSends true a data.length).homeWrite m.pa data)
  | .reserved => raise codeAbsent value

/-! ### Versioned and atomic accesses (R64-R68, R123) -/

/-- Refuse a versioned or atomic access where no versions are, or to another parcel's exchange area (R68, R164). At the control window
the code is PAGE_PERMISSION for every unit, as R68 and R120-R123 have it, where R154 says PRIVILEGE (log 139, the model's choice). -/
def versionCheck (u : Writer) (m : Mapping) (n : Nat) (value : Word) : Act Unit := do
  let s ← get
  match placeOf m.pa with
  | .hbm => pure ()
  | .parcel p off =>
    if off < 0x60000 then reserveCheck u m.pa n value
    else if off < 0x70000 && unitParcel u = some p then pure ()
    else raise codePermission value
  | .bank level node off =>
    match s.unitRegion u with
    | some (o, r) => if heldWay o r level node off then reserveCheck u m.pa n value else raise codePermission value
    | none => raise codePermission value
  | .reserved => raise codeAbsent value
  | _ => raise codePermission value

/-- Write a sector of a unit's path on to the home of a level, so that the unit's own earlier stores come first. -/
def State.pushSector (s : State) (u : Writer) (lvl pa : Nat) : State :=
  match s.unitRegion u with
  | none => s
  | some (o, r) =>
    match placeOf pa with
    | .hbm => ((holders u o r pa).filter fun e => e.1 < lvl).foldl
        (fun t e => t.writeOn e.2 (pa / 32) (nextHolder u o r e.1 pa)) s
    | _ => s

/-- The bytes of a sector as a versioned load finds them: the current data, or a kept copy (R65, R413). -/
def State.versionData (s : State) (m : Mapping) (v : BitVec 12) (eq : Bool) (x : Nat) : Option (List Byte) :=
  if !eq || v = s.version (x * 32) then some (s.homeRead (x * 32) 32)
  else if leafTracked m.leaf then
    ((Table.look ([] : List (BitVec 12 × List Byte)) s.kept (s.resolve (x * 32) / 32)).find? fun e => e.1 = v).map (·.2)
  else none

/-- The place of a unit's held `LDV.EQ` of a sector (R65). -/
def State.heldRead (s : State) (u : Writer) (k : Nat) (v : BitVec 12) : Option VersionHold :=
  s.holds.find? fun h => h.unit = u && h.sector = k && h.version = v
/-- Hold a unit's `LDV.EQ` of a sector at its version home, with the bytes it has read there where it waits for another
sector (R65). -/
def State.holdRead (s : State) (u : Writer) (k : Nat) (v : BitVec 12) (data : Option (List Byte)) : State :=
  if (s.heldRead u k v).isSome then s else { s with holds := s.holds ++ [⟨u, k, v, data⟩] }
/-- A unit's held reads are over. -/
def State.dropReads (s : State) (u : Writer) : State :=
  if s.holds.isEmpty then s else { s with holds := s.holds.filter fun h => h.unit ≠ u }

/-- Read sectors one after another at their versions: none when a version is still to come. With the wait bit an `LDV.EQ` is
held at the version home, which reads each sector for it when its version is reached (R64, R65). In a page that is not
version-tracked any version but the current one is gone (R413). -/
def versionedSectors (u : Writer) (wait : Bool) (m : Mapping) (v : BitVec 12) (eq : Bool) (value : Word) :
    List Nat → Act (Option (List Byte))
  | [] => pure (some [])
  | x :: xs => do
    let s ← get
    let k := s.resolve (x * 32) / 32
    let d := distance v (s.version (x * 32))
    match (s.heldRead u k v).bind (·.data) with
    | some bs => do
      let rest ← versionedSectors u wait m v eq value xs
      pure (rest.map fun l => bs ++ l)
    | none =>
      if d = -2048 then raise codeVersionWindow value
      else if eq && d ≠ 0 && !leafTracked m.leaf then raise codeVersionGone value
      else if 0 < d then do
        if eq && wait then set (s.holdRead u k v none)
        pure none
      else match s.versionData m v eq x with
        | none => raise codeVersionGone value
        | some bs => do
          if eq && wait && !xs.isEmpty then set (s.holdRead u k v (some bs))
          let rest ← versionedSectors u wait m v eq value xs
          pure (rest.map fun l => bs ++ l)

/-- A versioned load (R64, R65): none when the version is still to come. -/
def loadVersion (u : Writer) (wait : Bool) (sc : Scope) (m : Mapping) (n : Nat) (v : BitVec 12) (eq : Bool) (value : Word) :
    Act (Option (List Byte)) := do
  versionCheck u m n value
  let secs := (sectorsOf m.pa n)
  modify fun s => secs.foldl (fun t x => t.pushSector u 5 (x * 32)) s
  match ← versionedSectors u wait m v eq value secs with
  | none => pure none
  | some l => do
    modify fun s => (s.dropReads u).acquire u sc
    pure (some (slice l (m.pa % 32) n))

/-- Keep the new contents of a sector as the version it now has; a fifth keep retires the oldest (R66). -/
def State.keepVersion (s : State) (pa : Nat) : State :=
  let k := s.resolve pa / 32
  let c := s.versions.look 0 k
  let old := (Table.look ([] : List (BitVec 12 × List Byte)) s.kept k).filter fun e => e.1 ≠ c
  let l := old ++ [(c, s.mem.bytes (k * 32) 32)]
  let oldest := l.foldl (fun (b : BitVec 12 × List Byte) e => if distance e.1 c < distance b.1 c then e else b)
    (l.headD (c, []))
  { s with kept := s.kept.put k (if 4 < l.length then l.filter fun e => e.1 ≠ oldest.1 else l) }

/-- A store-release's store at the version home (R66); `mask` names the bytes written. -/
def State.storeVersion (s : State) (u : Writer) (noalloc : Bool) (pa : Nat) (data : List Byte) : State :=
  match placeOf pa with
  | .hbm => (sectorPieces pa (data.length / 32 + 2) data).foldl
      (fun t e => (t.pushSector u 5 e.1).storeSector u 5 e.1 e.2 (s.path u noalloc pa)) s
  | _ => s.homeWrite pa data

/-- Retire kept versions below a floor; a floor ahead of the current version retires every one (R67). -/
def State.retire (s : State) (pa : Nat) (floor : BitVec 12) : State :=
  let k := s.resolve pa / 32
  let old := Table.look ([] : List (BitVec 12 × List Byte)) s.kept k
  { s with kept := s.kept.put k (if 0 < distance floor (s.versions.look 0 k) then [] else
    old.filter fun e => decide (0 ≤ distance e.1 floor)) }

/-- The operations of an atomic on `w` bits: none writes nothing (R123, R257). -/
inductive AtomOp where
  | add | swap | cas (cmp : Nat) | min (signed : Bool) | max (signed : Bool) | and | or | xor
  deriving DecidableEq, Repr, Inhabited

/-- A number of `w` bits read as signed. -/
def signedOf (w x : Nat) : Int := if x < 2 ^ (w - 1) then (x : Int) else (x : Int) - 2 ^ w

def AtomOp.apply (op : AtomOp) (w old b : Nat) : Option Nat :=
  match op with
  | .add => some ((old + b) % 2 ^ w)
  | .swap => some b
  | .cas cmp => if old = cmp then some b else none
  | .min true => some (if signedOf w b < signedOf w old then b else old)
  | .min false => some (if b < old then b else old)
  | .max true => some (if signedOf w old < signedOf w b then b else old)
  | .max false => some (if old < b then b else old)
  | .and => some (old &&& b)
  | .or => some (old ||| b)
  | .xor => some (old ^^^ b)

/-- An atomic at the home of its scope for HBM, at the holder otherwise: the old value (R123). -/
def atomicAt (u : Writer) (sc : Scope) (m : Mapping) (bytes : Nat) (op : AtomOp) (b : Nat) (value : Word) : Act Nat := do
  versionCheck u m bytes value
  let s0 ← get
  match placeOf m.pa with
  | .hbm =>
    let lvl := scopeLevel u sc
    let noalloc := leafNoAllocate m.leaf
    let s := s0.pushSector u lvl m.pa
    let path := s.path u noalloc m.pa
    let home := path.filter fun e => lvl ≤ e.1
    let old := Decode.leNat ((List.range bytes).map fun i => s.pathByte u lvl (m.pa / 32) (m.pa % 32 + i) home)
    match op.apply (8 * bytes) old b with
    | some v => set (s.storeSector u lvl m.pa (Decode.leBytes bytes v) path)
    | none => set s
    pure old
  | _ =>
    let old := Decode.leNat (s0.homeRead m.pa bytes)
    match op.apply (8 * bytes) old b with
    | some v => set (s0.homeWrite m.pa (Decode.leBytes bytes v))
    | none => pure ()
    pure old

/-! ### Virtual accesses -/

/-- Read bytes at a virtual address; a fault carries the address. -/
def readVa (u : Writer) (sc : Scope) (va : Word) (n : Nat) : Act (List Byte) := do
  let m ← translate u va .read
  readAt u sc m n va

/-- Write bytes at a virtual address. -/
def writeVa (u : Writer) (kind : StoreKind) (sc : Scope) (va : Word) (data : List Byte) : Act Unit := do
  let m ← translate u va .write
  writeAt u kind sc m data va

/-- Write one run of a write with gaps. The last run of each sector, `counts`, makes the write that the sector's version counts,
so that whoever sees that version sees every byte; the runs before it put their bytes there ahead of it. A write to another
parcel's exchange area goes out with its `first` run as a whole and counts once (R61, R62, R65, R165, R255). -/
def runAt (u : Writer) (kind : StoreKind) (sc : Scope) (m : Mapping) (data : List Byte) (value : Word)
    (first counts : Bool) : Act Unit := do
  let s ← get
  let plain : State := { s with mem := s.mem.write (s.resolve m.pa) data }
  match placeOf m.pa, unitParcel u with
  | .parcel p off, some q =>
    if 0x60000 ≤ off && off < 0x70000 && p ≠ q then
      if first then writeAt u kind sc m data value else set (s.exchangeMore (off - 0x60000) data)
    else if counts || 0x70000 ≤ off then writeAt u kind sc m data value
    else do
      if off < 0x60000 then reserveCheck u m.pa data.length value
      set plain
  | .hbm, _ =>
    if counts then writeAt u kind sc m data value
    else set (s.extendSector u (scopeLevel u sc) m.pa data (s.path u (leafNoAllocate m.leaf) m.pa))
  | .bank level node off, _ =>
    if counts || !((s.unitRegion u).any fun x => heldWay x.1 x.2 level node off) then writeAt u kind sc m data value
    else do
      reserveCheck u m.pa data.length value
      set plain
  | _, _ => writeAt u kind sc m data value

/-- Runs of positions that a test accepts, among `n` from `i`: start and length. -/
def runsFrom (valid : Nat → Bool) : Nat → Nat → Option Nat → List (Nat × Nat)
  | 0, _, none => []
  | 0, i, some st => [(st, i - st)]
  | n + 1, i, cur =>
    if valid i then runsFrom valid n (i + 1) (some (cur.getD i))
    else match cur with
      | none => runsFrom valid n (i + 1) none
      | some st => (st, i - st) :: runsFrom valid n (i + 1) none

/-- The runs of a write with gaps, cut at sectors: offset, length, and whether each is the last in its sector. -/
def gapRuns (pa n : Nat) (valid : Nat → Bool) : List (Nat × Nat × Bool) :=
  (sectorPieces pa (n / 32 + 2) (List.replicate n (0 : Byte))).flatMap fun e =>
    let runs := runsFrom valid e.2.length (e.1 - pa) none
    runs.zipIdx.map fun r => (r.1.1, r.1.2, r.2 + 1 = runs.length)

/-- Write the runs of a write with gaps. -/
def writeRuns (u : Writer) (kind : StoreKind) (sc : Scope) (va : Word) (data : List Byte) :
    Bool → List (Nat × Nat × Bool) → Act Unit
  | _, [] => pure ()
  | first, (off, n, counts) :: rs => do
    let a := va + BitVec.ofNat 64 off
    let m ← translate u a .write
    runAt u kind sc m (slice data off n) a first counts
    writeRuns u kind sc va data false rs

/-- Write the runs of a write with gaps inside one page that is already translated. -/
def writeRunsAt (u : Writer) (kind : StoreKind) (sc : Scope) (m : Mapping) (data : List Byte) (value : Word) :
    Bool → List (Nat × Nat × Bool) → Act Unit
  | _, [] => pure ()
  | first, (off, n, counts) :: rs => do
    runAt u kind sc { m with pa := m.pa + off } (slice data off n) value first counts
    writeRunsAt u kind sc m data value false rs

/-- Bytes as the home of a scope has them, the unit's own earlier stores included. -/
def readHome (u : Writer) (sc : Scope) (m : Mapping) (n : Nat) (value : Word) : Act (List Byte) := do
  match placeOf m.pa with
  | .hbm => do
    let lvl := scopeLevel u sc
    modify fun s => (sectorsOf m.pa n).foldl (fun t x => t.pushSector u lvl (x * 32)) s
    let s ← get
    let home := (s.path u (leafNoAllocate m.leaf) m.pa).filter fun e => lvl ≤ e.1
    pure ((List.range n).map fun i => s.pathByte u lvl ((m.pa + i) / 32) ((m.pa + i) % 32) home)
  | _ => readAt u sc m n value

/-- Write the bytes that a test accepts, as one write of each sector they touch. -/
def writeMasked (u : Writer) (kind : StoreKind) (sc : Scope) (va : Word) (data : List Byte) (valid : Nat → Bool) :
    Act Unit :=
  if (List.range data.length).all valid && va.toNat % 4096 + data.length ≤ 4096 then writeVa u kind sc va data
  else writeRuns u kind sc va data true (gapRuns va.toNat data.length valid)

/-- Fault unless an address is a multiple of a size. -/
def aligned (va : Word) (n : Nat) : Act Unit := check (va.toNat % n = 0) codeMisaligned va

/-! ### Traps (R104, R105) -/

/-- Add a line to what the debugger printed. -/
def State.say (s : State) (x : Printed) : State := { s with debugger := { s.debugger with out := s.debugger.out ++ [x] } }

/-- `break task ch127` stops at trap entry, before the handler's first instruction, and names the trap, the instruction
that raised it and the address of that (R474). -/
def State.breakTrap (s : State) (p : Nat) : State :=
  match s.regionOf p with
  | some (o, _) =>
    let c := s.core p
    if s.debugged o && s.debugger.breaks.any (fun b => b = .task 127)
    then (s.stopAt o (.task p c.pc)).say (.trap c.tcause c.tval c.tepc (s.instrAt p c.tepc)) else s
  | none => s

/-- Take a trap: the shared entry of every exception of a core. With `TSTAT.t` set or `ch127` unbound the core stops
and its region is aborted; `late` marks a trap taken at the dispatch of a wakeup (R104). -/
def State.trapEntry (s : State) (p : Nat) (code : Byte) (value : Word) (engine : Nat) (late : Bool) : State :=
  let c := s.core p
  let h := c.channel 127
  let s0 := s.log 1 code p c.asid value
  if c.trap || !h.bound then
    (s0.onCore p fun c => { c with stopped := true, running := false }).abortAt p code value
  else
    ((s0.needMet (.core p) code).onCore p fun c =>
      { c with tepc := c.pc, tcause := BitVec.ofNat 64 (engine * 256 + code.toNat), tval := value, trap := true,
               wake := late, pc := h.handler, since := none, gathered := [] }).breakTrap p

/-- Return from a trap (R105). -/
def State.trapReturn (s : State) (p : Nat) : State := s.onCore p fun c => { c with pc := c.tepc, trap := false }

/-- End the running task; a trap handler's end clears `t` and `w`, a staged command is discarded, the channel ages again
from here, and bindings that waited for the next pick take effect (R98, R105, R129, R131, R157). -/
def State.endTask (s : State) (p : Nat) : State :=
  (s.onParcel p fun x => { x with staged := none }).onCore p fun c =>
    let c1 := c.onChannel c.ch.toNat fun h => { h with since := s.meridian.toNat }
    { c1 with running := false, trap := false, wake := false,
              channels := c1.channels.each fun _ h => h.settleBinding s.meridian.toNat }

/-! ### How a Surveyor instruction completes -/

/-- The core that the state's turn names. -/
def State.here (s : State) : Nat := s.site.p

/-- The instruction word as a trap value (R104). -/
def instrWord (i : Instr) : Word :=
  match encode32 i with
  | some w => w.setWidth 64
  | none => 0

/-- The program counter goes on to the next word. -/
def State.advance (s : State) (p : Nat) : State := s.onCore p fun c => { c with pc := c.pc + 4 }

/-- Write a register of the running core and go on: the whole effect of an instruction of R115. -/
def State.writeReg (s : State) (rd : Reg) (v : Word) : State :=
  s.onCore s.here fun c => { c.put rd v with pc := c.pc + 4 }

/-- The value of a register of the running core. -/
def State.reg (s : State) (r : Reg) : Word := (s.core s.here).get r

/-- Carry out an instruction that may trap or wait: a fault is taken as a trap on the state before it, with the
instruction word as its value for `ILLEGAL_INSTRUCTION` (R104, R111). -/
def State.attempt (s : State) (i : Instr) (engine : Nat) (k : Act Unit) : Host.Outcome State Fault Refusal :=
  match k s with
  | .ok _ t => .next t
  | .error (.fault c v) _ => .next (s.trapEntry s.here c (if c = codeIllegal then instrWord i else v) engine false)
  | .error .hold t => .next t

/-- Write a register and go on, inside an instruction that may trap. -/
def finish (rd : Reg) (v : Word) : Act Unit := modify fun s => s.writeReg rd v
/-- Go on to the next instruction. -/
def proceed : Act Unit := modify fun s => s.advance s.here

/-- The region of the running core, or `SCOPE_CROSSING` where none is. -/
def myRegion : Act (Nat × Region) := do
  let s ← get
  match s.regionOf s.here with
  | some x => pure x
  | none => raise codeScope 0

/-- Release on issue of an engine request (R75). -/
def issueRelease (sc : Scope) : Act Unit := modify fun s => s.release (.core s.here) sc

/-- A scope code of a control word, 0-6 (R108). -/
def scopeField (code : Nat) : Act Scope :=
  match Decode.scopeOf code with
  | some sc => pure sc
  | none => raise codeIllegal 0

/-- Report poison at a sink in the field book and to the origin core, unless a cell of the region is frozen by a fault (R205, R483). -/
def State.poisonSink (s : State) (p : Nat) (w0 w1 : Nat → Nat) : State :=
  match s.regionOf p with
  | none => s
  | some (o, r) =>
    if (regionParcels o r).any fun n => (s.parcel n).cells.any fun e => e.2.faulted then s
    else (s.log 1 codePoison p r.asid (BitVec.ofNat 64 (w1 (p - o)))).post o 127 true
      (BitVec.ofNat 64 (codePoison.toNat + w0 (p - o))) (BitVec.ofNat 64 (w1 (p - o)))

/-- Read bytes that may cross pages: each page is translated by itself (R407). -/
def readSpan (u : Writer) (sc : Scope) : Nat → Word → Nat → Act (List Byte)
  | 0, _, _ => pure []
  | k + 1, va, n => do
    let m := min n (4096 - va.toNat % 4096)
    let bs ← readVa u sc va m
    if n ≤ m then pure bs else do
      let rest ← readSpan u sc k (va + BitVec.ofNat 64 m) (n - m)
      pure (bs ++ rest)

/-- Write bytes that may cross pages. -/
def writeSpan (u : Writer) (sc : Scope) : Nat → Word → List Byte → Act Unit
  | 0, _, _ => pure ()
  | k + 1, va, data => do
    let m := min data.length (4096 - va.toNat % 4096)
    writeVa u .engine sc va (data.take m)
    if data.length ≤ m then pure () else writeSpan u sc k (va + BitVec.ofNat 64 m) (data.drop m)

/-- Enough pieces for `n` bytes. -/
def spanFuel (n : Nat) : Nat := n / 4096 + 2

/-- Send an arrival to a station of the parcel, on behalf of an engine's request (R161). -/
def State.sendArrival (s : State) (p station engine slot : Nat) : State :=
  { s with signals := s.signals ++ [.arrive p station (p, engine, slot)] }

/-- The promise of a request issued now: no less than the meridian + 16 (R150). -/
def State.newPromise (s : State) : Word := s.meridian + 16 + BitVec.ofNat 64 (Config.promise s.tick)

/-- An access whose faults carry xa as their value (R375, R434). -/
def withXa {α : Type} (a : Word) (k : Act α) : Act α := fun s =>
  match k s with
  | .error (.fault c _) t => .error (.fault c a) t
  | r => r

end Sys2Proof.Machine
end

