-- ==== Sys2Proof/Machine/Fetch.lean ====
section
/-! DEFINITION. What the agent of a turn has to carry out, the hang counters, and how one instruction is put where the
next step takes it (R26, R89, R98, R101, R182-R184, R206, R297, R298). -/

namespace Sys2Proof.Machine

/-! ### Who may run (R26, R28, R297) -/

/-- A region whose cells and tasks run: from step 7 of R26 until it ends. -/
def Region.live (r : Region) : Bool := r.phase = .running || r.phase = .preempting

/-- A parcel's engines work while its region runs and is not stopped (R26, R297). -/
def State.enginesRun (s : State) (p : Nat) : Bool :=
  match s.regionOf p with
  | some (_, r) => r.live && !r.debugStop && s.boot.phase ≠ .held
  | none => false

/-- Whether the region of a parcel is being pre-empted: its Graticules pause and its feeds halt (R453). -/
def State.pausing (s : State) (p : Nat) : Bool :=
  match s.regionOf p with
  | some (_, r) => r.phase = .preempting
  | none => false

/-- The unit that a granted `step` of the debugger lets run: a core, or a cell (R298). -/
def State.stepUnit (s : State) : Option (Nat × Option Nat) :=
  if !s.debugger.stepping then none else
  match s.debugger.stop with
  | some (.task p _) => some (p, none)
  | some (.promise p _) => some (p, none)
  | some (.cell p m _ _) => some (p, some m)
  | _ => none

/-- Whether the core of a parcel runs at all; none does on a held device (R479). -/
def State.coreRuns (s : State) (p : Nat) : Bool :=
  match s.regionOf p with
  | none => false
  | some (_, r) => r.live && s.boot.phase ≠ .held && (!r.debugStop || s.stepUnit = some (p, none))

/-- Whether a cell runs at all. -/
def State.cellRuns (s : State) (p m : Nat) : Bool :=
  match s.regionOf p with
  | none => false
  | some (_, r) => r.live && s.boot.phase ≠ .held && (!r.debugStop || s.stepUnit = some (p, some m))

/-! ### Fetching (R89, R110) -/

/-- Lines of the instruction cache: 32 KiB of 64 bytes (R89). -/
def cacheLines : Nat := 512

/-- The 64 bytes of the line at `pc`: from the instruction cache, or read at `.d` and kept (R89, log 12). -/
def fetchLine (p : Nat) : Act (List Byte) := do
  let s ← get
  let c := s.core p
  let n := c.pc.toNat / 64
  match c.icache.find n with
  | some bs => pure bs
  | none => do
    let m ← translate (.core p) c.pc .fetch
    let bs ← readAt (.core p) .d { m with pa := m.pa / 64 * 64 } 64 c.pc
    modify fun t => t.onCore p fun x =>
      { x with icache := (if x.icache.length < cacheLines then x.icache else x.icache.drop 1).put n bs }
    pure bs

/-- What a core's turn carries out: the instruction at its program counter, or nothing. -/
def State.coreDue (s : State) (p : Nat) : Option Instr × State :=
  let c := s.core p
  if !s.coreRuns p || !c.running || c.stopped || c.waiting.isSome then (none, s) else
  match fetchLine p s with
  | .ok bs t =>
    let w : BitVec 32 := BitVec.ofNat 32 (field bs (c.pc.toNat % 64) 4)
    match Decode.surveyor w with
    | .ok i => (some i, t)
    | .error _ => (some (.illegalInstructionWord w), t)
  | .error (.fault code _) _ => (some (.instructionFetchFault code), s)
  | .error .hold t => (none, t)

/-- What a cell's turn carries out: the slot that fires (R182-R184). -/
def State.cellDue (s : State) (p m : Nat) : Option Instr × State :=
  if !s.cellRuns p m then (none, s) else
  match s.firingOf p m with
  | none => (none, s)
  | some (x, k) =>
    match Decode.cell ((s.cell p m).slotWords x k).1 with
    | .ok i => (some i, { s with next := .firing p m x k })
    | .error _ => (none, s)

/-- What the turn of a state carries out, and the state in which it does. -/
def State.due (s : State) : Option Instr × State :=
  match s.next with
  | .event i => (some i, s)
  | .core p => s.coreDue p
  | .cell p m => s.cellDue p m
  | .firing p m x k =>
    if s.cellRuns p m && s.firingOf p m = some (x, k) then s.cellDue p m else (none, s)

/-- After a device-fatal error firmware holds the device: no core and no cell runs until the next reset (R479). -/
def State.held (s : State) : Bool :=
  s.boot.phase = .held && (match s.next with | .event _ => false | _ => true)

/-! ### The hang counters (R206) -/

/-- A queue or delay buffer of a cell holds a word, one behind a reserved place included (R206). -/
def Cell.holdsWord (c : Cell) : Bool :=
  (c.iq.toList ++ c.oq.toList).any fun q => !q.words.isEmpty || !q.delay.isEmpty || q.waiting.any Option.isSome

/-- Whether an address generator of some parcels stands stopped by a reported fault that no new issue has answered (R415). -/
def State.generatorStopped (s : State) (mine : List Nat) : Bool :=
  mine.any fun n => !(s.parcel n).trvFault.isEmpty || (s.parcel n).streams.any fun e => e.2.state = 3 && e.2.reason = 3

/-- The hang counter of a region after `dt` f-cycles, in the first of which it was active or not; it stands still while a
generator's reported fault has not been answered by a new issue (R206, R297, R415). -/
def State.hangAfter (s : State) (o : Nat) (r : Region) (dt : Nat) : Nat :=
  let cells := (regionParcels o r).flatMap fun n => (s.parcel n).cells
  let start := if r.active then 0 else r.hang
  if s.generatorStopped (regionParcels o r) || r.debugStop || r.phase ≠ .running || (s.core o).hangiv = 0 || cells.any (fun e => e.2.faulted) then start
  else if cells.any fun e => e.2.holdsWord then start + (if r.active then dt - 1 else dt)
  else start

/-- Count every region's hang monitor on; an f-cycle that has not ended counts nothing yet. -/
def State.hangTick (s : State) (dt : Nat) : State :=
  if dt = 0 then s else
  { s with regions := s.regions.map fun e =>
    let calm := if e.2.active then dt - 1 else e.2.calm + dt
    (e.1, { e.2 with hang := s.hangAfter e.1 e.2 dt, active := false, calm := calm }) }

/-! ### Placing one instruction -/

/-- A live region of shape 0 whose kernel has nothing but its reset values. -/
def placedRegion : Region :=
  { shape := 0, asid := 0, identity := 0, launch := 0, image := 0, arg := 0, save := 0, record := 0, priority := 0,
    ways := (0, 0, 0), phase := .running, legend := [], legendCount := 0, hang := 0, active := false, loadPos := 0,
    loadParcel := 0, loadedParcels := 0, seen := [], status := 0, exitAsked := false, debugStop := false,
    hungUp := false, calm := 0, halted := [], idle := [], unstopped := false, under := [] }

/-- Put four bytes at the program counter of core 0, in its instruction cache, and give it the turn. -/
def State.placeCore (s : State) (bs : List Byte) : State :=
  let s1 : State := { s with regions := s.regions.put 0 placedRegion, boot := { s.boot with phase := .running } }
  let s2 := s1.onCore 0 fun c =>
    { c with running := true, stopped := false, waiting := none, pc := 0,
             icache := c.icache.put 0 (bs ++ List.replicate (64 - bs.length) 0) }
  { s2 with next := .core 0 }

/-- Put an operation word into slot 0 of context 0 of cell 0 with a guard that asks nothing, words into its input
queues, the buffer it names FULL, and give it the turn. -/
def State.placeCell (s : State) (bs : List Byte) : State :=
  let w : BitVec 64 := BitVec.ofNat 64 (Decode.leNat bs)
  let s1 : State := { s with regions := s.regions.put 0 placedRegion, boot := { s.boot with phase := .running } }
  let q : Queue := ⟨List.replicate 8 (dataWord 0 0xFFFF 0), [], [], 0⟩
  let s2 := s1.onCell 0 0 fun c =>
    { Cell.reset with iq := Vector.replicate 4 q, slots := c.slots.put 0 (w, 0) }
  let s3 := match Decode.cell w with
    | .ok i => match i.cellParts? with
      | some (_, x) => match x.a with
        | .handle h => s2.setBuffer 0 h.toNat (setF 0 63 62 2)
        | _ => s2
      | none => s2
    | .error _ => s2
  { s3 with next := .firing 0 0 0 0 }

end Sys2Proof.Machine
end

