-- ==== Sys2Proof/Machine/Alu.lean ====
section
/-! DEFINITION. The Surveyor's arithmetic, logic and bit counts, register and immediate forms (R115-R117). -/

namespace Sys2Proof.Machine

/-! ### Shared operations -/

/-- A two-operand operation on the running core's registers (R115). -/
def State.alu (s : State) (f : Word → Word → Word) (rd ra rb : Reg) : Host.Outcome State Fault Refusal :=
  .next (s.writeReg rd (f (s.reg ra) (s.reg rb)))
/-- A one-operand operation. -/
def State.alu1 (s : State) (f : Word → Word) (rd ra : Reg) : Host.Outcome State Fault Refusal :=
  .next (s.writeReg rd (f (s.reg ra)))
/-- An immediate form: the effect of the register form with the extended immediate (R117). -/
def State.aluImm (s : State) (f : Word → Word → Word) (rd ra : Reg) (imm : Word) : Host.Outcome State Fault Refusal :=
  .next (s.writeReg rd (f (s.reg ra) imm))
/-- A division: a divisor of 0 raises `INT_DIVZERO` with the dividend as `TVAL` (R116). -/
def State.divide (s : State) (i : Instr) (f : Word → Word → Word) (rd ra rb : Reg) :
    Host.Outcome State Fault Refusal :=
  s.attempt i 0 do
    check (s.reg rb ≠ 0) codeIntDivzero (s.reg ra)
    finish rd (f (s.reg ra) (s.reg rb))

/-- High half of the signed product (R115). -/
def mulhOf (a b : Word) : Word := BitVec.ofInt 64 (a.toInt * b.toInt / 2 ^ 64)
/-- High half of the natural product. -/
def mulhnOf (a b : Word) : Word := BitVec.ofNat 64 (a.toNat * b.toNat / 2 ^ 64)
/-- A shift count: bits 5:0 (R115). -/
def shiftCount (b : Word) : Nat := b.toNat % 64
/-- 1 or 0. -/
def boolWord (b : Bool) : Word := if b then 1 else 0
/-- The set bits of a number of `w` bits (R54). -/
def popcNat : Nat → Nat → Nat
  | 0, _ => 0
  | w + 1, x => x % 2 + popcNat w (x / 2)
/-- Index of the lowest set bit, `w` where there is none (R54). -/
def ctzNat : Nat → Nat → Nat
  | 0, _ => 0
  | w + 1, x => if x % 2 = 1 then 0 else 1 + ctzNat w (x / 2)
/-- The number of 0 bits above the highest set bit of a number of `w` bits (R54). -/
def clzNat : Nat → Nat → Nat
  | 0, _ => 0
  | w + 1, x => if x / 2 ^ w % 2 = 1 then 0 else 1 + clzNat w x
/-- A sign-extended immediate. -/
def sext16 (imm : BitVec 16) : Word := imm.signExtend 64
/-- A zero-extended immediate. -/
def zext16 (imm : BitVec 16) : Word := imm.setWidth 64

/-! ### Register forms (R115, R116) -/

/-- `ADD`: xa + xb (R115). -/
def execAdd (rd ra rb : Reg) (s : State) : Host.Outcome State Fault Refusal :=
  s.alu (fun a b => a + b) rd ra rb

/-- `SUB`: xa − xb (R115). -/
def execSub (rd ra rb : Reg) (s : State) : Host.Outcome State Fault Refusal :=
  s.alu (fun a b => a - b) rd ra rb

/-- `MUL`: low 64 bits of the product (R115). -/
def execMul (rd ra rb : Reg) (s : State) : Host.Outcome State Fault Refusal :=
  s.alu (fun a b => a * b) rd ra rb

/-- `MULH`: high 64 bits of the signed product (R115). -/
def execMulh (rd ra rb : Reg) (s : State) : Host.Outcome State Fault Refusal :=
  s.alu (mulhOf) rd ra rb

/-- `MULHN`: high 64 bits of the natural product (R115). -/
def execMulhn (rd ra rb : Reg) (s : State) : Host.Outcome State Fault Refusal :=
  s.alu (mulhnOf) rd ra rb

/-- `DIV`: signed quotient, rounded toward zero (R115, R116). -/
def execDiv (rd ra rb : Reg) (s : State) : Host.Outcome State Fault Refusal :=
  s.divide (.div rd ra rb) (fun a b => a.sdiv b) rd ra rb

/-- `DIVN`: natural quotient (R115, R116). -/
def execDivn (rd ra rb : Reg) (s : State) : Host.Outcome State Fault Refusal :=
  s.divide (.divn rd ra rb) (fun a b => a / b) rd ra rb

/-- `REM`: signed remainder with the sign of the dividend (R115, R116). -/
def execRem (rd ra rb : Reg) (s : State) : Host.Outcome State Fault Refusal :=
  s.divide (.rem rd ra rb) (fun a b => a.srem b) rd ra rb

/-- `REMN`: natural remainder (R115, R116). -/
def execRemn (rd ra rb : Reg) (s : State) : Host.Outcome State Fault Refusal :=
  s.divide (.remn rd ra rb) (fun a b => a % b) rd ra rb

/-- `AND`: bitwise (R115). -/
def execAnd (rd ra rb : Reg) (s : State) : Host.Outcome State Fault Refusal :=
  s.alu (fun a b => a &&& b) rd ra rb

/-- `OR`: bitwise (R115). -/
def execOr (rd ra rb : Reg) (s : State) : Host.Outcome State Fault Refusal :=
  s.alu (fun a b => a ||| b) rd ra rb

/-- `XOR`: bitwise (R115). -/
def execXor (rd ra rb : Reg) (s : State) : Host.Outcome State Fault Refusal :=
  s.alu (fun a b => a ^^^ b) rd ra rb

/-- `SLL`: xa << n (R115). -/
def execSll (rd ra rb : Reg) (s : State) : Host.Outcome State Fault Refusal :=
  s.alu (fun a b => a <<< shiftCount b) rd ra rb

/-- `SRL`: xa >> n, filled with zeros (R115). -/
def execSrl (rd ra rb : Reg) (s : State) : Host.Outcome State Fault Refusal :=
  s.alu (fun a b => a >>> shiftCount b) rd ra rb

/-- `SRA`: xa >> n, filled with the sign (R115). -/
def execSra (rd ra rb : Reg) (s : State) : Host.Outcome State Fault Refusal :=
  s.alu (fun a b => a.sshiftRight (shiftCount b)) rd ra rb

/-- `SLT`: 1 if xa < xb signed (R115). -/
def execSlt (rd ra rb : Reg) (s : State) : Host.Outcome State Fault Refusal :=
  s.alu (fun a b => boolWord (a.slt b)) rd ra rb

/-- `SLTN`: 1 if xa < xb natural (R115). -/
def execSltn (rd ra rb : Reg) (s : State) : Host.Outcome State Fault Refusal :=
  s.alu (fun a b => boolWord (a.ult b)) rd ra rb

/-- `MIN`: signed minimum (R115). -/
def execMin (rd ra rb : Reg) (s : State) : Host.Outcome State Fault Refusal :=
  s.alu (fun a b => if a.slt b then a else b) rd ra rb

/-- `MAX`: signed maximum (R115). -/
def execMax (rd ra rb : Reg) (s : State) : Host.Outcome State Fault Refusal :=
  s.alu (fun a b => if a.slt b then b else a) rd ra rb

/-- `MINN`: natural minimum (R115). -/
def execMinn (rd ra rb : Reg) (s : State) : Host.Outcome State Fault Refusal :=
  s.alu (fun a b => if a.ult b then a else b) rd ra rb

/-- `MAXN`: natural maximum (R115). -/
def execMaxn (rd ra rb : Reg) (s : State) : Host.Outcome State Fault Refusal :=
  s.alu (fun a b => if a.ult b then b else a) rd ra rb

/-- `CLZ`: leading zeros at w = 64 (R54, R115). -/
def execClz (rd ra : Reg) (s : State) : Host.Outcome State Fault Refusal :=
  s.alu1 (fun a => BitVec.ofNat 64 (clzNat 64 a.toNat)) rd ra

/-- `CTZ`: trailing zeros at w = 64 (R54, R115). -/
def execCtz (rd ra : Reg) (s : State) : Host.Outcome State Fault Refusal :=
  s.alu1 (fun a => BitVec.ofNat 64 (ctzNat 64 a.toNat)) rd ra

/-- `POPC`: set bits at w = 64 (R54, R115). -/
def execPopc (rd ra : Reg) (s : State) : Host.Outcome State Fault Refusal :=
  s.alu1 (fun a => BitVec.ofNat 64 (popcNat 64 a.toNat)) rd ra

/-! ### Immediate forms (R117) -/

/-- `ADD` with an immediate (R117). -/
def execAddImmediate (rd ra : Reg) (imm : BitVec 16) (s : State) : Host.Outcome State Fault Refusal :=
  s.aluImm (fun a b => a + b) rd ra (sext16 imm)

/-- `AND` with an immediate (R117). -/
def execAndImmediate (rd ra : Reg) (imm : BitVec 16) (s : State) : Host.Outcome State Fault Refusal :=
  s.aluImm (fun a b => a &&& b) rd ra (zext16 imm)

/-- `OR` with an immediate (R117). -/
def execOrImmediate (rd ra : Reg) (imm : BitVec 16) (s : State) : Host.Outcome State Fault Refusal :=
  s.aluImm (fun a b => a ||| b) rd ra (zext16 imm)

/-- `XOR` with an immediate (R117). -/
def execXorImmediate (rd ra : Reg) (imm : BitVec 16) (s : State) : Host.Outcome State Fault Refusal :=
  s.aluImm (fun a b => a ^^^ b) rd ra (zext16 imm)

/-- `SLL` by an immediate count (R117). -/
def execSllImmediate (rd ra : Reg) (sh : BitVec 6) (s : State) : Host.Outcome State Fault Refusal :=
  s.aluImm (fun a b => a <<< shiftCount b) rd ra (sh.setWidth 64)

/-- `SRL` by an immediate count (R117). -/
def execSrlImmediate (rd ra : Reg) (sh : BitVec 6) (s : State) : Host.Outcome State Fault Refusal :=
  s.aluImm (fun a b => a >>> shiftCount b) rd ra (sh.setWidth 64)

/-- `SRA` by an immediate count (R117). -/
def execSraImmediate (rd ra : Reg) (sh : BitVec 6) (s : State) : Host.Outcome State Fault Refusal :=
  s.aluImm (fun a b => a.sshiftRight (shiftCount b)) rd ra (sh.setWidth 64)

/-- `SLT` with an immediate (R117). -/
def execSltImmediate (rd ra : Reg) (imm : BitVec 16) (s : State) : Host.Outcome State Fault Refusal :=
  s.aluImm (fun a b => boolWord (a.slt b)) rd ra (sext16 imm)

/-- `SLTN` with an immediate (R117). -/
def execSltnImmediate (rd ra : Reg) (imm : BitVec 16) (s : State) : Host.Outcome State Fault Refusal :=
  s.aluImm (fun a b => boolWord (a.ult b)) rd ra (sext16 imm)

/-- `MUL` with an immediate (R117). -/
def execMulImmediate (rd ra : Reg) (imm : BitVec 16) (s : State) : Host.Outcome State Fault Refusal :=
  s.aluImm (fun a b => a * b) rd ra (sext16 imm)

/-- `LIH`: shift in an immediate (R117). -/
def execLih (rd ra : Reg) (imm : BitVec 16) (s : State) : Host.Outcome State Fault Refusal :=
  s.aluImm (fun a b => a <<< 16 ||| b) rd ra (zext16 imm)

end Sys2Proof.Machine
end

