-- ==== Sys2Proof/Machine/Dump.lean ====
section
/-! DEFINITION. The dump of a device-fatal error: what it holds, byte for byte where the manual says, and how firmware writes it
(R454, R479, R482, R483, log 48). -/

namespace Sys2Proof.Machine

/-- Where the dump starts (R482). -/
def dumpBase : Nat := firmwareBase
/-- Offsets in the dump: the field book, the parcel images, the sheet, quadrangle and province banks, the queue shadows, and the set
table with the directory, one behind the other (R482, R483, R454). -/
def dumpBook : Nat := 0x1000
def dumpImages : Nat := dumpBook + 16384 * 64
def dumpBanks : Nat := dumpImages + 512 * 0x180000
def dumpQuads : Nat := dumpBanks + 128 * 0x200000
def dumpProvinces : Nat := dumpQuads + 32 * 0x800000
def dumpQueues : Nat := dumpProvinces + 8 * 0x1800000
def dumpTables : Nat := dumpQueues + 4096 * 64

/-- An event of the field book as it is laid out, its detail zero (R483). -/
def bookBytes (e : BookEvent) : List Byte :=
  Decode.leBytes 8 e.meridian.toNat ++ [BitVec.ofNat 8 e.kind, e.code] ++ Decode.leBytes 2 e.parcel ++
    Decode.leBytes 2 e.asid.toNat ++ [0, 0] ++ Decode.leBytes 8 e.value.toNat ++ List.replicate 40 0

/-- The header of a dump: its word, the code, the meridian and the firmware measurement, then a second code and the length, whose
places are not stated (R482, log 48). -/
def Dump.head (d : Dump) : List Byte :=
  let words := Decode.leBytes 8 0x44554D50 ++ Decode.leBytes 8 ((d.codes.getD 0 0).toNat) ++
    Decode.leBytes 8 d.meridian.toNat ++ Decode.leBytes 64 d.measurement.toNat ++
    Decode.leBytes 8 ((d.codes.getD 1 0).toNat) ++ Decode.leBytes 8 d.length
  words ++ List.replicate (4096 - words.length) 0

/-- Whether a way of a bank serves some region as cache: what stands where in it is not stated (R486). -/
def State.cacheWay (s : State) (level node off : Nat) : Bool :=
  s.regions.any fun (e : Nat × Region) =>
    let sh := bankShare level e.1 e.2.shape
    e.1 < 512 && e.1 < (node + 1) * bankParcels level && node * bankParcels level < e.1 + 2 ^ e.2.shape &&
      sh.1 ≤ off / wayBytes level && off / wayBytes level < sh.1 + sh.2 && !heldWay e.1 e.2 level node off

/-- A byte of a slice bank, where the manual says what stands there. -/
def State.bankByte (s : State) (level node off : Nat) : Option Byte :=
  let base := match level with
    | 2 => sheetBase + node * 0x200000 | 3 => quadBase + node * 0x800000 | _ => provinceBase + node * 0x2000000
  if s.cacheWay level node off then none else (s.homeRead (base + off) 1).head?

/-- A byte of a list of equal pieces. -/
def pieceByte (n x : Nat) (piece : Nat → Option (List Byte)) : Option Byte := (piece (x / n)).bind fun bs => bs[x % n]?

/-- A byte of the dump: of the header, of the book as it stood when the dump began, of a direct way or of a queue shadow (R441,
R482, R485). Parcel images, cache ways, the set table and the directory have no stated layout and are free (log 48). -/
def State.dumpByte (s : State) (d : Dump) (x : Nat) : Byte :=
  let known : Option Byte :=
    if x < dumpBook then d.head[x]?
    else if x < dumpImages then pieceByte 64 (x - dumpBook) fun i => (d.book[i]?).map bookBytes
    else if x < dumpBanks then none
    else if x < dumpQuads then s.bankByte 2 ((x - dumpBanks) / 0x200000) ((x - dumpBanks) % 0x200000)
    else if x < dumpProvinces then s.bankByte 3 ((x - dumpQuads) / 0x800000) ((x - dumpQuads) % 0x800000)
    else if x < dumpQueues then s.bankByte 4 ((x - dumpProvinces) / 0x1800000) ((x - dumpProvinces) % 0x1800000)
    else if x < dumpTables then pieceByte 64 (x - dumpQueues) fun q =>
      some (Decode.leBytes 64 (d.queues.look QueueShadow.reset q).toNat)
    else none
  known.getD (Config.dumpByte d.meridian.toNat x)

/-- Firmware writes the header of a dump again. -/
def State.dumpHead (s : State) (d : Dump) : State :=
  let s1 := s.homeWrite dumpBase d.head
  { s1 with boot := { s1.boot with dump := some d } }

/-- Firmware writes a page of a dump. -/
def State.dumpPage (s : State) (d : Dump) (page : Nat) : State :=
  let s1 := s.homeWrite (dumpBase + 4096 * page) ((List.range 4096).map fun b => s.dumpByte d (4096 * page + b))
  { s1 with boot := { s1.boot with dump := some { d with written := 4096 * (page + 1) } } }

/-- Firmware writes on at a dump that is under way on a held device (R482). -/
def State.dumpMore (s : State) : State :=
  match s.boot.dump with
  | none => s
  | some d => if s.boot.phase = .held && d.written < d.length then s.dumpPage d (d.written / 4096) else s

/-- The part of a dump that falls into the end of a step. -/
def State.continueDump (s : State) : State :=
  if s.boot.phase = .held then (List.range (Config.dumpPace s.tick)).foldl (fun t _ => t.dumpMore) s else s

end Sys2Proof.Machine
end

