-- ==== Sys2Proof/Machine/LoadStore.lean ====
section
/-! DEFINITION. The Surveyor's loads, stores, prefetch, versioned accesses, atomics and fences (R118-R125). -/

namespace Sys2Proof.Machine

/-! ### Requests to the host (R465, R466) -/

/-- Issue a non-posted request to the host, with what is sent there for it: its tag, and the requester waits. -/
def State.askHost (s : State) (r : HostRequest) (sent : List HostSend) : State :=
  { s with host := { s.host with
      requests := s.host.requests.put s.host.nextTag r, nextTag := s.host.nextTag + 1, sent := s.host.sent ++ sent } }

/-- Non-posted requests that the port can have outstanding (R462). -/
def hostTags : Nat := 768
/-- Whether the port has no tag left for another request (R462). -/
def State.hostFull (s : State) : Bool := hostTags ≤ (s.host.requests.filter fun e => e.2.address.isSome).length

/-- The running core's instruction waits for a request to the host, and before that for a tag (R462). -/
def coreAsks (r : HostRequest) (sent : List HostSend) : Act Unit := do
  let s ← get
  if s.hostFull then throw .hold
  set ((s.askHost r sent).onCore s.here fun c => { c with waiting := some s.host.nextTag })

/-! ### Shared operations -/

/-- The value of loaded bytes, extended with or without their sign (R118). -/
def extend (signed : Bool) (bs : List Byte) : Word :=
  let w := 8 * bs.length
  let n := Decode.leNat bs
  if signed && n.testBit (w - 1) then BitVec.ofInt 64 ((n : Int) - 2 ^ w) else BitVec.ofNat 64 n

/-- The address of a format M access: the offset counts units of the access size (R108). -/
def State.offsetAddress (s : State) (ra : Reg) (off : BitVec 12) (size : Nat) : Word :=
  s.reg ra + off.signExtend 64 * BitVec.ofNat 64 size

/-- A load (R118). -/
def State.load (s : State) (i : Instr) (size : Nat) (signed : Bool) (rd ra : Reg) (sc : Scope) (off : BitVec 12) :
    Host.Outcome State Fault Refusal :=
  s.attempt i 0 do
    let va := s.offsetAddress ra off size
    let u := Writer.core s.here
    aligned va size
    let m ← translate u va .read
    match placeOf m.pa with
    | .host a => coreAsks (.coreLoad s.here rd size signed va a) [.read a size]
    | _ => do
      let bs ← readAt u sc m size va
      finish rd (extend signed bs)

/-- A store (R118). -/
def State.store (s : State) (i : Instr) (size : Nat) (rd ra : Reg) (sc : Scope) (off : BitVec 12) :
    Host.Outcome State Fault Refusal :=
  s.attempt i 0 do
    let va := s.offsetAddress ra off size
    aligned va size
    writeVa (.core s.here) .plain sc va (Decode.leBytes size (s.reg rd).toNat)
    proceed

/-- The size in bytes of a size code (R120). -/
def sizeOf2 (size : BitVec 2) : Nat := 2 ^ size.toNat

/-- A versioned load: it never waits, and `FLAGS.nr` tells whether data came (R64, R65, R120). -/
def State.loadVersioned (s : State) (i : Instr) (eq : Bool) (rd ra rb : Reg) (sx : Bool) (size : BitVec 2)
    (sc : Scope) : Host.Outcome State Fault Refusal :=
  s.attempt i 0 do
    let va := s.reg ra
    let u := Writer.core s.here
    aligned va (sizeOf2 size)
    let m ← translate u va .versionRead
    match ← loadVersion u false sc m (sizeOf2 size) ((s.reg rb).setWidth 12) eq va with
    | some bs => do
      finish rd (extend sx bs)
      modify fun t => t.onCore s.here fun c => { c with flags := c.flags &&& ~~~(2 : Word) }
    | none => do
      proceed
      modify fun t => t.onCore s.here fun c => { c with flags := c.flags ||| 2 }

/-- A store-release: a release, the store at the version home, and the version it creates; a keep needs a version-tracked
page (R66, R121, R413). -/
def State.storeReleasing (s : State) (i : Instr) (keep : Bool) (rd ra rb : Reg) (size : BitVec 2) (sc : Scope) :
    Host.Outcome State Fault Refusal :=
  s.attempt i 0 do
    let va := s.reg ra
    let u := Writer.core s.here
    let n := sizeOf2 size
    aligned va n
    let m ← translate u va .write
    versionCheck u m n va
    check (!keep || leafTracked m.leaf) codePermission va
    modify fun t => (t.release u sc).storeVersion u (leafNoAllocate m.leaf) m.pa (Decode.leBytes n (s.reg rb).toNat)
    if keep then modify fun t => t.keepVersion m.pa
    let t ← get
    finish rd ((t.version m.pa).setWidth 64)

/-- The value of an operand of an atomic: a register, or a pair with its low half first (R123). -/
def State.amoOperand (s : State) (w : AmoWidth) (r : Reg) : Nat :=
  match w with
  | .n32 => (s.reg r).toNat % 2 ^ 32
  | .n64 => (s.reg r).toNat
  | .n128 => (s.reg r).toNat + 2 ^ 64 * (s.reg (r + 1)).toNat
/-- Bytes of an atomic. -/
def amoBytes : AmoWidth → Nat
  | .n32 => 4 | .n64 => 8 | .n128 => 16
/-- Put the old value of an atomic into its register or pair. -/
def State.amoResult (s : State) (p : Nat) (w : AmoWidth) (signed : Bool) (rd : Reg) (old : Nat) : State :=
  s.onCore p fun c =>
    match w with
    | .n32 => c.put rd (if signed then BitVec.ofInt 64 (signedOf 32 old) else BitVec.ofNat 64 old)
    | .n64 => c.put rd (BitVec.ofNat 64 old)
    | .n128 => (c.put rd (BitVec.ofNat 64 old)).put (rd + 1) (BitVec.ofNat 64 (old / 2 ^ 64))

/-- The AtomicOp request of an operation, with the value a `CAS` compares (R124). -/
def AtomOp.hostRequest : AtomOp → Option (HostAtomic × Nat)
  | .add => some (.fetchAdd, 0)
  | .swap => some (.swap, 0)
  | .cas c => some (.cas, c)
  | .min _ => none
  | .max _ => none
  | .and => none
  | .or => none
  | .xor => none

/-- An atomic (R123), or an AtomicOp request to the host for the three operations that have one (R124, R465). -/
def State.atomic (s : State) (i : Instr) (op : AtomOp) (signed : Bool) (rd ra rb : Reg) (w : AmoWidth)
    (sc : Scope) : Host.Outcome State Fault Refusal :=
  s.attempt i 0 do
    let va := s.reg ra
    let u := Writer.core s.here
    aligned va (amoBytes w)
    let m ← translate u va .atomic
    match placeOf m.pa with
    | .host a =>
      match op.hostRequest with
      | none => raise codeIllegal va
      | some (o, cmp) =>
        if !s.host.atomicEnable then raise codeHostUr va
        else coreAsks (.coreAmo s.here rd (amoBytes w) signed va a o (s.amoOperand w rb) cmp) [.atomic a (amoBytes w)]
    | _ => do
      let old ← atomicAt u sc m (amoBytes w) op (s.amoOperand w rb) va
      modify fun t => (t.amoResult s.here w signed rd old).advance s.here

/-! ### Loads and stores (R118) -/

/-- `LD.s8` (R118). -/
def execLdS8 (rd ra : Reg) (scope : Scope) (off : BitVec 12) (s : State) : Host.Outcome State Fault Refusal :=
  s.load (.ldS8 rd ra scope off) 1 true rd ra scope off
/-- `LD.n8` (R118). -/
def execLdN8 (rd ra : Reg) (scope : Scope) (off : BitVec 12) (s : State) : Host.Outcome State Fault Refusal :=
  s.load (.ldN8 rd ra scope off) 1 false rd ra scope off
/-- `LD.s16` (R118). -/
def execLdS16 (rd ra : Reg) (scope : Scope) (off : BitVec 12) (s : State) : Host.Outcome State Fault Refusal :=
  s.load (.ldS16 rd ra scope off) 2 true rd ra scope off
/-- `LD.n16` (R118). -/
def execLdN16 (rd ra : Reg) (scope : Scope) (off : BitVec 12) (s : State) : Host.Outcome State Fault Refusal :=
  s.load (.ldN16 rd ra scope off) 2 false rd ra scope off
/-- `LD.s32` (R118). -/
def execLdS32 (rd ra : Reg) (scope : Scope) (off : BitVec 12) (s : State) : Host.Outcome State Fault Refusal :=
  s.load (.ldS32 rd ra scope off) 4 true rd ra scope off
/-- `LD.n32` (R118). -/
def execLdN32 (rd ra : Reg) (scope : Scope) (off : BitVec 12) (s : State) : Host.Outcome State Fault Refusal :=
  s.load (.ldN32 rd ra scope off) 4 false rd ra scope off
/-- `LD.n64` (R118). -/
def execLdN64 (rd ra : Reg) (scope : Scope) (off : BitVec 12) (s : State) : Host.Outcome State Fault Refusal :=
  s.load (.ldN64 rd ra scope off) 8 false rd ra scope off
/-- `ST.n8` (R118). -/
def execStN8 (rd ra : Reg) (scope : Scope) (off : BitVec 12) (s : State) : Host.Outcome State Fault Refusal :=
  s.store (.stN8 rd ra scope off) 1 rd ra scope off
/-- `ST.n16` (R118). -/
def execStN16 (rd ra : Reg) (scope : Scope) (off : BitVec 12) (s : State) : Host.Outcome State Fault Refusal :=
  s.store (.stN16 rd ra scope off) 2 rd ra scope off
/-- `ST.n32` (R118). -/
def execStN32 (rd ra : Reg) (scope : Scope) (off : BitVec 12) (s : State) : Host.Outcome State Fault Refusal :=
  s.store (.stN32 rd ra scope off) 4 rd ra scope off
/-- `ST.n64` (R118). -/
def execStN64 (rd ra : Reg) (scope : Scope) (off : BitVec 12) (s : State) : Host.Outcome State Fault Refusal :=
  s.store (.stN64 rd ra scope off) 8 rd ra scope off

/-- `PREF`: clean copies of the line in the slices of the path; it never faults (R119). -/
def execPref (ra : Reg) (scope : Scope) (off : BitVec 12) (s : State) : Host.Outcome State Fault Refusal :=
  let va := s.offsetAddress ra off 64
  let u := Writer.core s.here
  let t := match translate u va .read s with
    | .ok m t => match placeOf m.pa with
      | .hbm => (t.scopedRead u scope (leafNoAllocate m.leaf) (m.pa / 64 * 64) 64).2
      | _ => t
    | .error _ _ => s
  .next (t.advance s.here)

/-! ### Versioned accesses (R120-R122) -/

/-- `LDV.GE` (R64, R120). -/
def execLdvGe (rd ra rb : Reg) (sx : Bool) (size : BitVec 2) (scope : Scope) (s : State) : Host.Outcome State Fault Refusal :=
  s.loadVersioned (.ldvGe rd ra rb sx size scope) false rd ra rb sx size scope
/-- `LDV.EQ` (R65, R120). -/
def execLdvEq (rd ra rb : Reg) (sx : Bool) (size : BitVec 2) (scope : Scope) (s : State) : Host.Outcome State Fault Refusal :=
  s.loadVersioned (.ldvEq rd ra rb sx size scope) true rd ra rb sx size scope
/-- `STV` (R66, R121). -/
def execStv (rd ra rb : Reg) (size : BitVec 2) (scope : Scope) (s : State) : Host.Outcome State Fault Refusal :=
  s.storeReleasing (.stv rd ra rb size scope) false rd ra rb size scope
/-- `STV.KEEP` (R66, R121). -/
def execStvKeep (rd ra rb : Reg) (size : BitVec 2) (scope : Scope) (s : State) : Host.Outcome State Fault Refusal :=
  s.storeReleasing (.stvKeep rd ra rb size scope) true rd ra rb size scope
/-- `RECLAIM`: every sector is translated before any version is retired (R67, R122, R413). -/
def execReclaim (rd ra rb : Reg) (s : State) : Host.Outcome State Fault Refusal :=
  s.attempt (.reclaim rd ra rb) 0 do
    let va := s.reg ra
    let n := (s.reg rd).toNat
    let u := Writer.core s.here
    aligned va 32
    check (n ≤ 4096) codeIllegal 0
    let ms ← (List.range n).mapM fun k => do
      let a := va + BitVec.ofNat 64 (32 * k)
      let m ← translate u a .reclaim
      versionCheck u m 32 a
      pure m
    modify fun t => ms.foldl (fun t m => if leafTracked m.leaf then t.retire m.pa ((s.reg rb).setWidth 12) else t) t
    proceed

/-! ### Atomics (R123, R124) -/

/-- `AMO.ADD` (R123). -/
def execAmoAdd (rd ra rb : Reg) (width : AmoWidth) (scope : Scope) (s : State) : Host.Outcome State Fault Refusal :=
  s.atomic (.amoAdd rd ra rb width scope) .add false rd ra rb width scope
/-- `AMO.SWP` (R123). -/
def execAmoSwp (rd ra rb : Reg) (width : AmoWidth) (scope : Scope) (s : State) : Host.Outcome State Fault Refusal :=
  s.atomic (.amoSwp rd ra rb width scope) .swap false rd ra rb width scope
/-- `AMO.CAS` (R123). -/
def execAmoCas (rd ra rb : Reg) (width : AmoWidth) (scope : Scope) (s : State) : Host.Outcome State Fault Refusal :=
  s.atomic (.amoCas rd ra rb width scope) (.cas (s.amoOperand width rd)) false rd ra rb width scope
/-- `AMO.MIN` (R123). -/
def execAmoMin (rd ra rb : Reg) (width : AmoWidth) (scope : Scope) (s : State) : Host.Outcome State Fault Refusal :=
  s.atomic (.amoMin rd ra rb width scope) (.min true) true rd ra rb width scope
/-- `AMO.MAX` (R123). -/
def execAmoMax (rd ra rb : Reg) (width : AmoWidth) (scope : Scope) (s : State) : Host.Outcome State Fault Refusal :=
  s.atomic (.amoMax rd ra rb width scope) (.max true) true rd ra rb width scope
/-- `AMO.MINN` (R123). -/
def execAmoMinn (rd ra rb : Reg) (width : AmoWidth) (scope : Scope) (s : State) : Host.Outcome State Fault Refusal :=
  s.atomic (.amoMinn rd ra rb width scope) (.min false) false rd ra rb width scope
/-- `AMO.MAXN` (R123). -/
def execAmoMaxn (rd ra rb : Reg) (width : AmoWidth) (scope : Scope) (s : State) : Host.Outcome State Fault Refusal :=
  s.atomic (.amoMaxn rd ra rb width scope) (.max false) false rd ra rb width scope
/-- `AMO.AND` (R123). -/
def execAmoAnd (rd ra rb : Reg) (width : AmoWidth) (scope : Scope) (s : State) : Host.Outcome State Fault Refusal :=
  s.atomic (.amoAnd rd ra rb width scope) .and false rd ra rb width scope
/-- `AMO.OR` (R123). -/
def execAmoOr (rd ra rb : Reg) (width : AmoWidth) (scope : Scope) (s : State) : Host.Outcome State Fault Refusal :=
  s.atomic (.amoOr rd ra rb width scope) .or false rd ra rb width scope
/-- `AMO.XOR` (R123). -/
def execAmoXor (rd ra rb : Reg) (width : AmoWidth) (scope : Scope) (s : State) : Host.Outcome State Fault Refusal :=
  s.atomic (.amoXor rd ra rb width scope) .xor false rd ra rb width scope

/-! ### Fences (R125) -/

/-- `FENCE`: a release, then an acquire (R125). -/
def execFence (scope : Scope) (s : State) : Host.Outcome State Fault Refusal :=
  let u := Writer.core s.here
  .next (((s.release u scope).acquire u scope).advance s.here)
/-- `FENCE.acq` (R73, R125). -/
def execFenceAcq (scope : Scope) (s : State) : Host.Outcome State Fault Refusal :=
  .next ((s.acquire (.core s.here) scope).advance s.here)
/-- `FENCE.rel` (R72, R125). -/
def execFenceRel (scope : Scope) (s : State) : Host.Outcome State Fault Refusal :=
  .next ((s.release (.core s.here) scope).advance s.here)

end Sys2Proof.Machine
end

