-- ==== Sys2Proof/Machine/Flags.lean ====
section
/-! DEFINITION. Float formats, the floating sticky flags, rounding under every mode, and saturation
(R31, R33-R37, R45, R46). -/

namespace Sys2Proof.Machine

/-! ### Sticky flags (R35) -/

/-- Bit 4 invalid, 3 divide-by-zero, 2 overflow, 1 underflow, 0 inexact. -/
abbrev FFlags := BitVec 5
def flagInvalid : FFlags := 16
def flagDivzero : FFlags := 8
def flagOverflow : FFlags := 4
def flagUnderflow : FFlags := 2
def flagInexact : FFlags := 1

/-! ### Formats (R31) -/

/-- A float format: exponent and mantissa widths, bias, whether it has infinities, and which NaNs it has (0 none,
1 as IEEE, 2 the all-ones code only). -/
structure FFmt where
  ew : Nat
  mw : Nat
  bias : Int
  inf : Bool
  nan : Nat
  deriving DecidableEq, Repr, Inhabited

def fmtF32 : FFmt := ⟨8, 23, 127, true, 1⟩
def fmtF16 : FFmt := ⟨5, 10, 15, true, 1⟩
def fmtBf16 : FFmt := ⟨8, 7, 127, true, 1⟩
def fmtE5m2 : FFmt := ⟨5, 2, 15, true, 1⟩
def fmtE4m3 : FFmt := ⟨4, 3, 7, false, 2⟩
def fmtE3m2 : FFmt := ⟨3, 2, 3, false, 0⟩
def fmtE2m3 : FFmt := ⟨2, 3, 1, false, 0⟩
def fmtE2m1 : FFmt := ⟨2, 1, 1, false, 0⟩

/-- Width in bits. -/
def FFmt.width (f : FFmt) : Nat := 1 + f.ew + f.mw

/-- A decoded float: NaN, an infinity, or (-1)^neg × m × 2^e. -/
inductive FVal where
  | nan (signalling : Bool)
  | inf (neg : Bool)
  | fin (neg : Bool) (m : Nat) (e : Int)
  deriving DecidableEq, Repr, Inhabited

/-- The exponent of the smallest subnormal. -/
def FFmt.minExp (f : FFmt) : Int := 1 - f.bias - f.mw

/-- The value of a code (R31). -/
def FFmt.decode (f : FFmt) (x : Nat) : FVal :=
  let neg := x / 2 ^ (f.ew + f.mw) % 2 = 1
  let ex := x / 2 ^ f.mw % 2 ^ f.ew
  let mant := x % 2 ^ f.mw
  let top := 2 ^ f.ew - 1
  if ex = top && f.inf then
    if mant = 0 then .inf neg else .nan (mant < 2 ^ (f.mw - 1))
  else if f.nan = 2 && ex = top && mant = 2 ^ f.mw - 1 then .nan false
  else if ex = 0 then .fin neg mant f.minExp
  else .fin neg (mant + 2 ^ f.mw) (f.minExp + (ex - 1 : Nat))

/-- The canonical NaN; +0 where the format has none (R33). -/
def FFmt.nanCode (f : FFmt) : Nat :=
  match f.nan with
  | 1 => (2 ^ f.ew - 1) * 2 ^ f.mw + 2 ^ (f.mw - 1)
  | 2 => 2 ^ (f.ew + f.mw) - 1
  | _ => 0

def FFmt.signBit (f : FFmt) (neg : Bool) : Nat := if neg then 2 ^ (f.ew + f.mw) else 0
/-- An infinity's code. -/
def FFmt.infCode (f : FFmt) (neg : Bool) : Nat := f.signBit neg + (2 ^ f.ew - 1) * 2 ^ f.mw
/-- The code of the largest finite magnitude (R31). -/
def FFmt.maxCode (f : FFmt) (neg : Bool) : Nat :=
  f.signBit neg + (if f.inf then (2 ^ f.ew - 1) * 2 ^ f.mw - 1 else if f.nan = 2 then 2 ^ (f.ew + f.mw) - 2
    else 2 ^ (f.ew + f.mw) - 1)

/-! ### Exact values -/

/-- A magnitude that is known exactly up to a remainder: (m + θ) × 2^e with 0 < θ < 1 when `sticky`, θ = 0
otherwise. -/
structure Exact where
  neg : Bool
  m : Nat
  e : Int
  sticky : Bool
  deriving DecidableEq, Repr, Inhabited

/-- Position of the highest set bit. -/
def log2 (n : Nat) : Nat := Nat.log2 n

/-! ### The stochastic generator (R46) -/

/-- One step of the generator. -/
def genStep (g : BitVec 32) : BitVec 32 := if g.getLsbD 0 then (g >>> 1) ^^^ 0x80200003 else g >>> 1

/-! ### Rounding (R45, R46) -/

/-- A magnitude cut at a quantum: the integer below, and what remains of it. -/
structure Cut where
  a : Nat
  rem : Nat
  shift : Nat
  inexact : Bool
  sticky : Bool
  deriving DecidableEq, Repr, Inhabited

/-- Cut a magnitude at 2^q. -/
def Exact.cut (x : Exact) (q : Int) : Cut :=
  if q ≤ x.e then ⟨x.m * 2 ^ (x.e - q).toNat, 0, 0, x.sticky, x.sticky⟩
  else
    let k := (q - x.e).toNat
    ⟨x.m / 2 ^ k, x.m % 2 ^ k, k, x.m % 2 ^ k ≠ 0 || x.sticky, x.sticky⟩

/-- Whether a cut magnitude rounds up, with the generator already stepped for `.rs` (R45, R46). -/
def Cut.up (c : Cut) (mode : Rounding) (neg : Bool) (g : BitVec 32) : Bool :=
  if !c.inexact then false else
  let half := 2 ^ c.shift
  match mode with
  | .rne => half < 2 * c.rem || (2 * c.rem = half && c.shift ≠ 0 && (c.sticky || c.a % 2 = 1))
  | .rz => false
  | .ru => !neg
  | .rd => neg
  | .rs =>
    let f := c.rem * 2 ^ 32 / half
    if neg then
      let t := if c.rem * 2 ^ 32 % half = 0 && !c.sticky then 2 ^ 32 - f else 2 ^ 32 - f - 1
      !(g.toNat < t)
    else g.toNat < f

/-- The code that an overflow gives (R36). -/
def FFmt.overflowCode (f : FFmt) (mode : Rounding) (neg : Bool) : Nat :=
  let beyond := if f.inf then f.infCode neg else if f.nan = 2 then f.nanCode else f.maxCode neg
  match mode with
  | .rne | .rs => beyond
  | .rz => f.maxCode neg
  | .ru => if neg then f.maxCode neg else beyond
  | .rd => if neg then beyond else f.maxCode neg

/-- A rounded result: its code, the flags it sets, and the generator after it. -/
structure Rounded where
  code : Nat
  flags : FFlags
  gen : BitVec 32
  deriving DecidableEq, Repr, Inhabited

/-- Round an exact magnitude into a format (R34-R36, R45, R46). The generator steps where the magnitude lies between two neighbours
at its quantum: a result that is inexact only because it overflows or is flushed does not step it (log 136, the model's choice). -/
def FFmt.round (f : FFmt) (mode : Rounding) (ftz : Bool) (gen : BitVec 32) (x : Exact) : Rounded :=
  if x.m = 0 && !x.sticky then ⟨f.signBit x.neg, 0, gen⟩
  else
    let top := (log2 x.m : Int) + x.e
    let q := max (top - f.mw) f.minExp
    let c := x.cut q
    let g := if mode = .rs && c.inexact then genStep gen else gen
    let a := if c.up mode x.neg g then c.a + 1 else c.a
    let field : Int := q - f.minExp + 1
    let code := (field * 2 ^ f.mw + a - 2 ^ f.mw).toNat
    if f.maxCode false < code then ⟨f.overflowCode mode x.neg, flagOverflow ||| flagInexact, g⟩
    else
      let inexact := if c.inexact then flagInexact else 0
      let wide := x.cut (top - f.mw)
      let tiny := top < 1 - f.bias &&
        !(top = -f.bias && 2 ^ (f.mw + 1) ≤ (if wide.up mode x.neg g then wide.a + 1 else wide.a))
      if ftz && a ≠ 0 && code < 2 ^ f.mw then ⟨f.signBit x.neg, flagUnderflow ||| flagInexact, g⟩
      else ⟨f.signBit x.neg + code, inexact ||| (if tiny && c.inexact then flagUnderflow else 0), g⟩

/-! ### Arithmetic on decoded values -/

/-- Flush a subnormal operand (R34). -/
def FFmt.flush (f : FFmt) (ftz : Bool) (v : FVal) : FVal :=
  match v with
  | .fin neg m e => if ftz && m ≠ 0 && m < 2 ^ f.mw && e = f.minExp then .fin neg 0 e else v
  | _ => v

/-- The outcome of an operation before rounding: a NaN with the flags it sets, an infinity, or an exact value. -/
inductive Pre where
  | nan (flags : FFlags)
  | inf (neg : Bool) (flags : FFlags)
  | val (x : Exact)
  deriving DecidableEq, Repr, Inhabited

/-- Write an outcome into a format; a NaN where the format has none is +0 and invalid (R33). -/
def FFmt.finish (f : FFmt) (mode : Rounding) (ftz : Bool) (gen : BitVec 32) : Pre → Rounded
  | .nan fl => ⟨f.nanCode, if f.nan = 0 then fl ||| flagInvalid else fl, gen⟩
  | .inf neg fl =>
    if f.inf then ⟨f.infCode neg, fl, gen⟩
    else ⟨f.overflowCode mode neg, fl ||| flagOverflow ||| flagInexact, gen⟩
  | .val x => f.round mode ftz gen x

/-- The invalid flag of a signalling operand. -/
def sigFlag : FVal → FFlags
  | .nan true => flagInvalid
  | _ => 0
def FVal.isNan : FVal → Bool
  | .nan _ => true
  | _ => false

/-- A finite value as a signed multiple of a power of two. -/
def signedMag (neg : Bool) (m : Nat) : Int := if neg then -(m : Int) else m

/-- An exact sum of two finite values: an exact zero sum is −0 under `.rd`, and under the
other modes only where both addends are −0 (R265). -/
def addExact (mode : Rounding) (n1 : Bool) (m1 : Nat) (e1 : Int) (n2 : Bool) (m2 : Nat) (e2 : Int) : Exact :=
  if m1 = 0 && m2 = 0 then
    ⟨(n1 && n2) || mode = .rd, 0, 0, false⟩
  else
    let e := min e1 e2
    let v := signedMag n1 m1 * 2 ^ (e1 - e).toNat + signedMag n2 m2 * 2 ^ (e2 - e).toNat
    if v = 0 then ⟨mode = .rd, 0, 0, false⟩ else ⟨v < 0, v.natAbs, e, false⟩

/-- a + b. -/
def fAdd (mode : Rounding) (a b : FVal) : Pre :=
  let sig := sigFlag a ||| sigFlag b
  match a, b with
  | .nan _, _ | _, .nan _ => .nan sig
  | .inf n1, .inf n2 => if n1 = n2 then .inf n1 0 else .nan flagInvalid
  | .inf n, _ | _, .inf n => .inf n 0
  | .fin n1 m1 e1, .fin n2 m2 e2 => .val (addExact mode n1 m1 e1 n2 m2 e2)

/-- -a. -/
def FVal.negate : FVal → FVal
  | .nan s => .nan s
  | .inf n => .inf !n
  | .fin n m e => .fin (!n) m e

/-- a × b, exactly, where both are numbers. -/
def fMulVal (a b : FVal) : Pre :=
  let sig := sigFlag a ||| sigFlag b
  match a, b with
  | .nan _, _ | _, .nan _ => .nan sig
  | .inf n1, .inf n2 => .inf (n1 != n2) 0
  | .inf n1, .fin n2 m _ | .fin n2 m _, .inf n1 => if m = 0 then .nan flagInvalid else .inf (n1 != n2) 0
  | .fin n1 m1 e1, .fin n2 m2 e2 => .val ⟨n1 != n2, m1 * m2, e1 + e2, false⟩

/-- a × b + c with one rounding. -/
def fFma (mode : Rounding) (a b c : FVal) : Pre :=
  let sig := sigFlag a ||| sigFlag b ||| sigFlag c
  match fMulVal a b with
  | .nan fl => .nan (fl ||| sig)
  | .inf n _ => match c with
    | .nan _ => .nan sig
    | .inf k => if n = k then .inf n 0 else .nan flagInvalid
    | .fin _ _ _ => .inf n 0
  | .val x => match c with
    | .nan _ => .nan sig
    | .inf k => .inf k 0
    | .fin n m e => .val (addExact mode x.neg x.m x.e n m e)

/-- A number of `w` bits saturated to its signed or natural range (R37). -/
def satInt (w : Nat) (signed : Bool) (v : Int) : Int :=
  if signed then max (-(2 ^ (w - 1) : Int)) (min v (2 ^ (w - 1) - 1)) else max 0 (min v (2 ^ w - 1))
/-- The element of `w` bits that holds an integer modulo 2^w. -/
def wrapInt (w : Nat) (v : Int) : Nat := (v % (2 ^ w : Int)).toNat

/-- Round an exact magnitude to an integer under a mode. -/
def roundInt (mode : Rounding) (gen : BitVec 32) (x : Exact) : Int × Bool × BitVec 32 :=
  let c := x.cut 0
  let g := if mode = .rs && c.inexact then genStep gen else gen
  let a := if c.up mode x.neg g then c.a + 1 else c.a
  (signedMag x.neg a, c.inexact, g)

/-- A float to an integer of `w` bits (R37): a NaN gives 0, a value out of range saturates, and both set invalid. -/
def toInt (mode : Rounding) (w : Nat) (signed : Bool) (gen : BitVec 32) (v : FVal) : Rounded :=
  match v with
  | .nan _ => ⟨0, flagInvalid, gen⟩
  | .inf neg => ⟨wrapInt w (satInt w signed (if neg then -(2 ^ 600) else 2 ^ 600)), flagInvalid, gen⟩
  | .fin neg m e =>
    let (i, inexact, g) := roundInt mode gen ⟨neg, m, e, false⟩
    let j := satInt w signed i
    if i = j then ⟨wrapInt w j, if inexact then flagInexact else 0, g⟩ else ⟨wrapInt w j, flagInvalid, g⟩

/-- An integer as an exact value. -/
def exactInt (v : Int) : Exact := ⟨v < 0, v.natAbs, 0, false⟩

/-! ### Comparison -/

/-- Whether a < b, for numbers; the two zeros are equal. -/
def fLess (a b : FVal) : Bool :=
  match a, b with
  | .nan _, _ | _, .nan _ => false
  | .inf n, .inf k => n && !k
  | .inf n, _ => n
  | _, .inf k => !k
  | .fin n1 m1 e1, .fin n2 m2 e2 =>
    let e := min e1 e2
    signedMag n1 m1 * 2 ^ (e1 - e).toNat < signedMag n2 m2 * 2 ^ (e2 - e).toNat
/-- Whether a = b, for numbers. -/
def fEqual (a b : FVal) : Bool := !a.isNan && !b.isNan && !fLess a b && !fLess b a

end Sys2Proof.Machine
end

