-- ==== Sys2Proof/Machine/Numeric.lean ====
section
/-! DEFINITION. Exact functions of floats, block codes, the quantizer, and conversions between formats
(R37-R42, R50, R269, R270, R274, R275). -/

namespace Sys2Proof.Machine

/-! ### Roots and reciprocals (R269) -/

/-- The integer square root, one bit at a time from bit `k - 1`. -/
def isqrtFrom (n : Nat) : Nat → Nat → Nat
  | 0, acc => acc
  | k + 1, acc => if (acc + 2 ^ k) * (acc + 2 ^ k) ≤ n then isqrtFrom n k (acc + 2 ^ k) else isqrtFrom n k acc
def isqrt (n : Nat) : Nat := isqrtFrom n (log2 n / 2 + 1) 0

/-- 1 / (m × 2^e). -/
def rcpExact (neg : Bool) (m : Nat) (e : Int) : Exact :=
  let k := 100 + log2 m
  ⟨neg, 2 ^ k / m, -(k : Int) - e, 2 ^ k % m ≠ 0⟩
/-- The square root of m × 2^e. -/
def sqrtExact (m : Nat) (e : Int) : Exact :=
  let e1 := if e % 2 = 0 then e else e - 1
  let m1 := if e % 2 = 0 then m else 2 * m
  let n := m1 * 2 ^ 200
  let r := isqrt n
  ⟨false, r, e1 / 2 - 100, r * r ≠ n⟩
/-- The reciprocal square root of m × 2^e. -/
def rsqrtExact (m : Nat) (e : Int) : Exact :=
  let e1 := if e % 2 = 0 then e else e - 1
  let m1 := if e % 2 = 0 then m else 2 * m
  let k := 100 + log2 m1
  let r := isqrt (2 ^ (2 * k) / m1)
  ⟨false, r, -(k : Int) - e1 / 2, r * r * m1 ≠ 2 ^ (2 * k)⟩

/-! ### Special functions (R269, log 20) -/

/-- Fraction bits that the special functions work with. -/
def fxBits : Nat := 704
/-- π at `fxBits` fraction bits. -/
def fxPi : Nat :=
  0x3243F6A8885A308D313198A2E03707344A4093822299F31D0082EFA98EC4E6C89452821E638D01377BE5466CF34E90C6CC0AC29B7C97C50DD3F84D5B5B54709179216D5D98979FB1BD1310BA698DFB5AC2FFD72DBD01ADFB7
/-- ln 2 at `fxBits` fraction bits. -/
def fxLn2 : Nat :=
  0xB17217F7D1CF79ABC9E3B39803F2F6AF40F343267298B62D8A0D175B8BAAFA2BE7B876206DEBAC98559552FB4AFA1B10ED2EAE35C138214427573B291169B8253E96CA16224AE8C51ACBDA11317C387EB9EA9BC3B136603B

/-- A finite magnitude at `fxBits` fraction bits. -/
def toFx (m : Nat) (e : Int) : Nat := if 0 ≤ e + fxBits then m * 2 ^ (e + fxBits).toNat else 0
def fxMul (a b : Nat) : Nat := a * b / 2 ^ fxBits
def fxOne : Nat := 2 ^ fxBits

/-- The terms of e^y from `term`, with `n` more of them; `k` is the next divisor. -/
def expTerms (y : Nat) : Nat → Nat → Nat → Nat
  | 0, _, _ => 0
  | n + 1, k, term => term + expTerms y n (k + 1) (fxMul term y / k)
/-- e^y for 0 ≤ y < 1. -/
def fxExp (y : Nat) : Nat := expTerms y 170 1 fxOne
/-- e^-y for y ≥ 0 as (U, n): U × 2^-n with U in [1, 2]. -/
def fxExpNeg (y : Nat) : Nat × Nat :=
  let n := y / fxLn2
  (fxExp (fxLn2 - y % fxLn2), n + 1)
/-- The odd terms t + t^3/3 + … of the series of 2 artanh t. -/
def oddTerms (t2 : Nat) : Nat → Nat → Nat → Nat
  | 0, _, _ => 0
  | n + 1, k, power => power / k + oddTerms t2 n (k + 2) (fxMul power t2)
/-- ln z for 1 ≤ z < 2. -/
def fxLn (z : Nat) : Nat :=
  let t := (z - fxOne) * 2 ^ fxBits / (z + fxOne)
  2 * oddTerms (fxMul t t) 240 1 t
/-- The terms of the sine series: the sum of those with +, and of those with −. -/
def sinTerms (y2 : Nat) : Nat → Nat → Nat → Nat × Nat
  | 0, _, _ => (0, 0)
  | n + 1, k, term =>
    let (p, m) := sinTerms y2 n (k + 2) (fxMul term y2 / ((k + 1) * (k + 2)))
    (term + m, p)
def fxSin (y : Nat) : Nat :=
  let (p, m) := sinTerms (fxMul y y) 110 1 y
  p - m

/-- A fixed-point magnitude that is not exact. -/
def fxExact (neg : Bool) (v : Nat) : Exact := ⟨neg, v, -(fxBits : Int), true⟩

/-- 2^x for a finite x. -/
def exp2Exact (neg : Bool) (m : Nat) (e : Int) : Exact :=
  if m = 0 then ⟨false, 1, 0, false⟩
  else if 11 ≤ (log2 m : Int) + e then ⟨false, if neg then 0 else 1, if neg then -2048 else 2048, true⟩
  else
    let v := toFx m e
    let n := v / fxOne
    let f := v % fxOne
    if f = 0 then ⟨false, 1, if neg then -(n : Int) else n, false⟩
    else if neg then ⟨false, fxExp (fxMul (fxOne - f) fxLn2), -(fxBits : Int) - n - 1, true⟩
    else ⟨false, fxExp (fxMul f fxLn2), -(fxBits : Int) + n, true⟩

/-- log2 of a positive finite x. -/
def log2Exact (m : Nat) (e : Int) : Exact :=
  let k := log2 m
  let whole : Int := e + k
  if m = 2 ^ k then exactInt whole
  else
    let z := toFx m (-(k : Int))
    let v : Int := whole * fxOne + (fxLn z * 2 ^ fxBits / fxLn2 : Nat)
    fxExact (v < 0) v.natAbs

/-- tanh of a finite x. -/
def tanhExact (neg : Bool) (m : Nat) (e : Int) : Exact :=
  if m = 0 then ⟨neg, 0, 0, false⟩
  else if 8 ≤ (log2 m : Int) + e then fxExact neg (fxOne - 1)
  else
    let (u, n) := fxExpNeg (2 * toFx m e)
    let w := u / 2 ^ n
    fxExact neg (min (fxOne - 1) ((fxOne - w) * 2 ^ fxBits / (fxOne + w)))

/-- 1 / (1 + e^-x) of a finite x. -/
def sigmExact (neg : Bool) (m : Nat) (e : Int) : Exact :=
  if m = 0 then ⟨false, 1, -1, false⟩
  else if 9 ≤ (log2 m : Int) + e then
    if neg then ⟨false, 0, -2048, true⟩ else fxExact false (fxOne - 1)
  else
    let (u, n) := fxExpNeg (toFx m e)
    let d := 2 ^ (n + fxBits) + u
    if neg then ⟨false, u * 2 ^ (fxBits + n) / d, -((fxBits + n : Nat) : Int), true⟩
    else fxExact false (2 ^ (n + fxBits) * 2 ^ fxBits / d)

/-- sin(πx) of a finite x. -/
def sinpExact (neg : Bool) (m : Nat) (e : Int) : Exact :=
  if m = 0 || 0 ≤ e then ⟨neg, 0, 0, false⟩
  else
    let one := 2 ^ (-e).toNat
    let r := m % (2 * one)
    let flip := one ≤ r
    let r1 := r % one
    if r1 = 0 then ⟨neg, 0, 0, false⟩
    else if 2 * r1 = one then ⟨neg != flip, 1, 0, false⟩
    else
      let r2 := if one < 2 * r1 then one - r1 else r1
      fxExact (neg != flip) (fxSin (r2 * fxPi / one))

/-! ### Conversions (R37, R274, R275) -/

/-- An integer element as a number. -/
def intOf (w : Nat) (signed : Bool) (x : Nat) : Int := if signed && 2 ^ (w - 1) ≤ x then (x : Int) - 2 ^ w else x

/-- Put ±M in place of an overflowed result where the saturate bit asks for it (R180, R263). -/
def FFmt.saturate (f : FFmt) (sat neg : Bool) (r : Rounded) : Rounded :=
  if sat && r.flags &&& flagOverflow ≠ 0 then { r with code := f.maxCode neg } else r

/-- The sign of an outcome. -/
def Pre.neg : Pre → Bool
  | .nan _ => false
  | .inf n _ => n
  | .val x => x.neg

/-- Write an outcome with the saturate bit applied. -/
def FFmt.write (f : FFmt) (mode : Rounding) (ftz sat : Bool) (gen : BitVec 32) (p : Pre) : Rounded :=
  f.saturate sat p.neg (f.finish mode ftz gen p)

/-- A float to a float of another format: an infinity into a format that is not wider is an overflow of its sign
(R275). -/
def convFloat (src dst : FFmt) (mode : Rounding) (ftz sat : Bool) (gen : BitVec 32) (x : Nat) : Rounded :=
  match src.flush ftz (src.decode x) with
  | .nan s => dst.write mode ftz sat gen (.nan (if s then flagInvalid else 0))
  | .inf neg =>
    if src.width < dst.width && dst.inf then ⟨dst.infCode neg, 0, gen⟩
    else
      let code := if sat then dst.maxCode neg else dst.overflowCode mode neg
      ⟨code, flagOverflow ||| (if dst.inf && code = dst.infCode neg then 0 else flagInexact), gen⟩
  | .fin neg m e => dst.write mode ftz sat gen (.val ⟨neg, m, e, false⟩)

/-! ### Block codes (R38-R40) -/

/-- Whether a code width has a type (R39). -/
def blockTypeOk (w ty : Nat) : Bool := w = 4 || ty < 3

/-- The float format of a block type, where it is one. -/
def blockFmt (w ty : Nat) : Option FFmt :=
  match w, ty with
  | 4, 1 => some fmtE2m1
  | 6, 1 => some fmtE3m2
  | 6, 2 => some fmtE2m3
  | 8, 1 => some fmtE4m3
  | 8, 2 => some fmtE5m2
  | _, _ => none

/-- The value of a code of a type that is not reserved, before its scale (R39). -/
def blockCode (w ty c : Nat) : FVal :=
  match blockFmt w ty with
  | some f => f.decode c
  | none =>
    if ty = 0 then
      let v := intOf w true c
      .fin (v < 0) v.natAbs 0
    else if ty = 2 then .fin (8 ≤ c) (if c % 8 = 0 then 0 else 1) ((c % 8 : Nat) - 7)
    else .fin (8 ≤ c) (if c % 8 < 4 then c % 4 else 4 + 2 * (c % 4)) 0

/-- The value of a code in a block with a scale byte under a scale base; whether reading it sets invalid (R38-R40). -/
def blockValue (w : Nat) (base : Int) (scale c : Nat) : FVal × Bool :=
  let ty := scale / 64
  let e := scale % 64
  if !blockTypeOk w ty then (.nan false, true)
  else if e = 63 then (.nan false, false)
  else match blockCode w ty c with
    | .fin n m x => (.fin n m (x + e - 32 + base), false)
    | v => (match v with | .nan _ => .nan false | _ => v, false)

/-- The largest magnitude of a type as m × 2^x (R39). -/
def maxMag (w ty : Nat) : Nat × Int :=
  match w, ty with
  | 4, 0 => (7, 0) | 4, 1 => (6, 0) | 4, 2 => (1, 0) | 4, _ => (10, 0)
  | 6, 0 => (31, 0) | 6, 1 => (28, 0) | 6, _ => (15, -1)
  | _, 0 => (127, 0) | _, 1 => (448, 0) | _, _ => (57344, 0)

/-- Codes that share a scale byte (R38). -/
def blockLength : Nat → Nat
  | 4 => 32 | 6 => 20 | _ => 16

/-! ### The quantizer (R41) -/

/-- Whether m1 × 2^e1 ≤ m2 × 2^e2. -/
def magLe (m1 : Nat) (e1 : Int) (m2 : Nat) (e2 : Int) : Bool :=
  let e := min e1 e2
  m1 * 2 ^ (e1 - e).toNat ≤ m2 * 2 ^ (e2 - e).toNat

/-- How many magnitudes a type has: code `c` stands for the `c`-th in rising order. -/
def magCount (w ty : Nat) : Nat :=
  match w, ty with
  | 4, _ => 8
  | 6, _ => 32
  | _, 0 => 128
  | _, 1 => 127
  | _, _ => 124

/-- The magnitude of code `c` as m × 2^x. -/
def codeMag (w ty c : Nat) : Nat × Int :=
  match blockCode w ty c with
  | .fin _ m x => (m, x)
  | _ => (0, 0)

/-- The code that holds a sign and a magnitude's code. A value below 0 whose magnitude rounds to 0 keeps its sign where the type
has -0: R41 gives a sign to the zeros of a zero block only (log 136, the model's choice). -/
def signedCode (w ty c : Nat) (neg : Bool) : Nat :=
  if !neg then c else if ty = 0 then (if c = 0 then 0 else 2 ^ w - c) else 2 ^ (w - 1) + c

/-- The code of q under a mode, whether it is inexact, and the generator after it (R41, R45, R46). -/
def nearestCode (w ty : Nat) (mode : Rounding) (gen : BitVec 32) (neg : Bool) (m : Nat) (x : Int) :
    Nat × Bool × BitVec 32 :=
  let count := magCount w ty
  let below := (List.range count).foldl
    (fun b c => if magLe (codeMag w ty c).1 (codeMag w ty c).2 m x then c else b) 0
  let lo := codeMag w ty below
  if magLe m x lo.1 lo.2 then (signedCode w ty below neg, false, gen)
  else if below + 1 = count then (signedCode w ty below neg, true, gen)
  else
    let hi := codeMag w ty (below + 1)
    let e := min x (min lo.2 hi.2)
    let v := m * 2 ^ (x - e).toNat
    let a := lo.1 * 2 ^ (lo.2 - e).toNat
    let b := hi.1 * 2 ^ (hi.2 - e).toNat
    let g := if mode = .rs then genStep gen else gen
    let up := match mode with
      | .rne => b - a < 2 * (v - a) || (2 * (v - a) = b - a && below % 2 = 1)
      | .rz => false
      | .ru => !neg
      | .rd => neg
      | .rs => if neg then !(g.toNat < (b - v) * 2 ^ 32 / (b - a)) else g.toNat < (v - a) * 2 ^ 32 / (b - a)
    (signedCode w ty (if up then below + 1 else below) neg, true, g)

/-- What the quantizer makes: scale byte, codes, flags and the generator. -/
structure Quantized where
  scale : Nat
  codes : List Nat
  flags : FFlags
  gen : BitVec 32
  deriving DecidableEq, Repr, Inhabited

/-- The codes of finite values at a scale exponent, in ascending order. -/
def quantCodes (w ty : Nat) (mode : Rounding) (shift : Int) : List FVal → BitVec 32 → List Nat × Bool × BitVec 32
  | [], g => ([], false, g)
  | .fin n m x :: vs, g =>
    let (c, i, g1) := nearestCode w ty mode g n m (x - shift)
    let (cs, j, g2) := quantCodes w ty mode shift vs g1
    (c :: cs, i || j, g2)
  | _ :: vs, g =>
    let (cs, j, g2) := quantCodes w ty mode shift vs g
    (0 :: cs, j, g2)

/-- Whether a value is finite. -/
def FVal.finite : FVal → Bool
  | .fin _ _ _ => true
  | _ => false

/-- Quantize a block (R41). -/
def quantize (w ty : Nat) (mode : Rounding) (base : Int) (gen : BitVec 32) (xs : List FVal) : Quantized :=
  if !xs.all FVal.finite then ⟨ty * 64 + 63, xs.map fun _ => 0, flagInvalid, gen⟩
  else
    let big := xs.foldl (fun (b : Nat × Int) v => match v with
      | .fin _ m x => if magLe m x b.1 b.2 then b else (m, x)
      | _ => b) (0, 0)
    if big.1 = 0 then
      ⟨ty * 64, xs.map fun v => match v with | .fin n _ _ => signedCode w ty 0 n | _ => 0, 0, gen⟩
    else
      let mm := maxMag w ty
      let fit := (List.range 63).find? fun (e : Nat) => magLe big.1 big.2 mm.1 (mm.2 + e - 32 + base)
      let e := fit.getD 62
      let (cs, inexact, g) := quantCodes w ty mode ((e : Int) - 32 + base) xs gen
      ⟨ty * 64 + e, cs, (if inexact then flagInexact else 0) ||| (if fit.isNone then flagOverflow else 0), g⟩

/-! ### Block words (R43) -/

/-- The code width of a format tag 3-5. -/
def tagWidth (tag : Nat) : Nat := if tag = 3 then 4 else if tag = 4 then 6 else 8
def tagOfWidth (w : Nat) : BitVec 4 := if w = 4 then 3 else if w = 6 then 4 else 5
def codesPerWord (w : Nat) : Nat := 4 * blockLength w

/-- The codes of a block word. -/
def wordCodes (w : Nat) (x : BitVec 512) : List Nat :=
  (List.range (codesPerWord w)).map fun i => x.toNat / 2 ^ (w * i) % 2 ^ w
/-- The scale byte of block `j`. -/
def scaleByte (scale : BitVec 32) (j : Nat) : Nat := scale.toNat / 2 ^ (8 * j) % 256
/-- The values of a block word, and whether reading each sets invalid (R40, R42). -/
def wordValues (w : Nat) (base : Int) (x : BitVec 512) (scale : BitVec 32) : List (FVal × Bool) :=
  ((wordCodes w x).zipIdx).map fun e => blockValue w base (scaleByte scale (e.2 / blockLength w)) e.1

end Sys2Proof.Machine
end

