-- ==== Sys2Proof/Machine/Legend.lean ====
section
/-! DEFINITION. Legend entries and where the elements of a tensor stand (R47-R49, R138, R341, R342). -/

namespace Sys2Proof.Machine

/-- A legend entry (R47). -/
abbrev Legend := BitVec 256

def lgFormat (e : Legend) : Nat := getF e 255 251
def lgPacked (e : Legend) : Bool := getF e 250 248 = 1
/-- A field as a two's-complement number. -/
def signedF {n : Nat} (x : BitVec n) (hi lo : Nat) : Int := signedOf (hi + 1 - lo) (getF x hi lo)
def lgScaleBase (e : Legend) : Int := signedF e 247 241
def lgBlock (e : Legend) : Nat := getF e 240 235
def lgSegment (e : Legend) : Bool := e.getLsbD 234
def lgScaleEntry (e : Legend) : Nat := getF e 233 224
/-- Byte stride of dimension 1-3. -/
def lgStride (e : Legend) (d : Nat) : Int := signedF e (127 + 32 * d) (96 + 32 * d)
/-- Extent of dimension 0-3. -/
def lgDim (e : Legend) (d : Nat) : Nat := getF e (79 + 16 * d) (64 + 16 * d) + 1
def lgAddress (e : Legend) : Word := e.extractLsb' 0 64

/-- Bits of an element by format; `tcw` counts S quarters of a bit and has its own rule. -/
def formatBits (f : Nat) : Nat :=
  ([8, 16, 32, 64, 8, 16, 32, 64, 16, 16, 32, 8, 8, 8, 8, 4, 6, 8, 1, 512] : List Nat).getD f 8
/-- Format tags (R139). -/
def formatTag (f : Nat) : Nat :=
  match f with
  | 2 | 3 | 6 | 7 | 10 => 0
  | 1 | 5 | 8 | 9 => 1
  | 15 => 3
  | 16 => 4
  | 17 => 5
  | 18 => 6
  | 19 => 7
  | _ => 2
def lgBits (e : Legend) : Nat := formatBits (lgFormat e)
def lgTag (e : Legend) : Nat := formatTag (lgFormat e)
/-- Code width of a block entry. -/
def lgWidth (e : Legend) : Nat := lgBits e
def lgIsBlock (e : Legend) : Bool := 15 ≤ lgFormat e && lgFormat e ≤ 17
def lgIsTcw (e : Legend) : Bool := lgFormat e = 18
/-- The float format of an element. -/
def lgFmt (f : Nat) : Option FFmt :=
  match f with
  | 8 => some fmtF16
  | 9 => some fmtBf16
  | 10 => some fmtF32
  | 11 => some fmtE4m3
  | 12 => some fmtE5m2
  | 13 => some fmtE3m2
  | 14 => some fmtE2m3
  | _ => none

/-- The entry of a kernel's table at an index, none beyond the loaded table (R49). -/
def Region.entry (r : Region) (i : Nat) : Option Legend :=
  if i < r.legendCount then some (r.legend.look 0 i) else none

/-- The row of a pattern or tensor by its indices in dimensions 1-3. -/
abbrev Row := Nat × Nat × Nat

/-- Byte offset of a row from the base. -/
def rowOffset (e : Legend) (row : Row) : Int :=
  row.1 * lgStride e 1 + row.2.1 * lgStride e 2 + row.2.2 * lgStride e 3

/-- Bit offset of element i0 within its row (R48, R341). In the packed layout i0 is the index of the element as R43 packs it, 80 codes
of 6 bits to a word: R48's own formula gives a byte offset (log 137, the model's choice). -/
def elementBit (e : Legend) (i0 : Nat) : Nat :=
  if lgIsTcw e then i0 * lgBlock e / 4
  else if lgPacked e && lgFormat e = 16 then 512 * (i0 / 80) + 6 * (i0 % 80)
  else i0 * lgBits e

/-- The base of a tensor for a kernel: a virtual address, or the first byte of the named segment as this kernel has
attached it (R48, R395). -/
def State.legendBase (s : State) (o : Nat) (r : Region) (e : Legend) : Option Word :=
  if !lgSegment e then some (lgAddress e)
  else (s.segments.find? fun x => x.2.asid = r.asid && x.2.name = lgAddress e && x.2.state = .attached &&
    x.2.holder = some o).map fun x => viewAddress x.1

/-- The virtual address of the byte that holds a bit offset of a row. -/
def rowAddress (base : Word) (e : Legend) (row : Row) (bit : Nat) : Word :=
  base + BitVec.ofInt 64 (rowOffset e row) + BitVec.ofNat 64 (bit / 8)

/-- The legend entry that an engine instruction names, or `ILLEGAL_INSTRUCTION` (R49). -/
def legendOf (p idx : Nat) : Act Legend := do
  let s ← get
  match (s.regionOf p).bind fun x => x.2.entry idx with
  | some e => pure e
  | none => raise codeIllegal 0

/-- The base address of a tensor, or `ATTACH_MISS` (R48). -/
def baseOf (p : Nat) (e : Legend) : Act Word := do
  let s ← get
  match (s.regionOf p).bind fun x => s.legendBase x.1 x.2 e with
  | some b => pure b
  | none => raise codeAttachMiss (lgAddress e)

/-- Read whole bytes of a row of a tensor from a bit offset that is a multiple of 8. -/
def readRow (u : Writer) (p : Nat) (sc : Scope) (e : Legend) (row : Row) (bit n : Nat) : Act (List Byte) := do
  let b ← baseOf p e
  readSpan u sc (spanFuel n) (rowAddress b e row bit) n

/-- Write whole bytes of a row of a tensor. -/
def writeRow (u : Writer) (p : Nat) (sc : Scope) (e : Legend) (row : Row) (bit : Nat) (data : List Byte) : Act Unit := do
  let b ← baseOf p e
  writeSpan u sc (spanFuel data.length) (rowAddress b e row bit) data

/-- Bytes of a row: the bits of its elements, rounded up. -/
def rowBits (e : Legend) : Nat :=
  if lgIsTcw e then lgDim e 0 / 4 * lgBlock e else elementBit e (lgDim e 0 - 1) + lgBits e

/-- The scale byte of block `k` of a row (R48). -/
def readScale (u : Writer) (p : Nat) (sc : Scope) (e : Legend) (row : Row) (k n : Nat) : Act (List Byte) := do
  let x ← legendOf p (lgScaleEntry e)
  readRow u p sc x row (8 * k) n

/-! ### Patterns (R138, R139) -/

/-- Start and count of a dimension in a pattern's two words. -/
def patStart (starts : Word) (d : Nat) : Nat := wbits starts (16 * d + 15) (16 * d)
def patCount (counts : Word) (d : Nat) : Nat := wbits counts (16 * d + 15) (16 * d) + 1

/-- The row of a pattern by its number, dimension 1 innermost. -/
def patRow (starts counts : Word) (t : Nat) : Row :=
  (patStart starts 1 + t % patCount counts 1, patStart starts 2 + t / patCount counts 1 % patCount counts 2,
   patStart starts 3 + t / (patCount counts 1 * patCount counts 2))
/-- Rows of a pattern. -/
def patRows (counts : Word) : Nat := patCount counts 1 * patCount counts 2 * patCount counts 3

/-- Elements that one link word carries. -/
def perWord (e : Legend) : Nat :=
  if lgIsBlock e then codesPerWord (lgWidth e) else 512 / lgBits e
/-- Link words of a row of a pattern (R138, R342). -/
def rowWords (e : Legend) (counts : Word) : Nat :=
  let c := patCount counts 0
  if lgIsTcw e then ceilDiv (c * lgBlock e) 2048 else ceilDiv c (perWord e)
/-- Link words of a whole pattern. -/
def patWords (e : Legend) (counts : Word) : Nat := rowWords e counts * patRows counts

/-- The checks of a pattern against its tensor (R139). -/
def patternOk (e : Legend) (starts counts : Word) : Bool :=
  let s := patStart starts 0
  let c := patCount counts 0
  ((List.range 4).all fun d => patStart starts d + patCount counts d ≤ lgDim e d) &&
  (if lgIsTcw e then s * lgBlock e % 2048 = 0 && (c * lgBlock e % 2048 = 0 || s + c = lgDim e 0)
   else if lgIsBlock e then s % perWord e = 0 && c % perWord e = 0
   else lgFormat e = 19 || c * lgBits e / 8 % 4 = 0)

/-- Where word `k` of a row of a pattern stands: its first bit in the row, its bytes, and its valid bits. -/
def wordPlace (e : Legend) (starts counts : Word) (k : Nat) : Nat × Nat × Nat :=
  let s := patStart starts 0
  let c := patCount counts 0
  if lgIsTcw e then
    let lo := s * lgBlock e / 4 + 512 * k
    let n := min 512 (min ((s + c) * lgBlock e / 4) (rowBits e) - lo)
    (lo, (n + 7) / 8, n)
  else
    let i0 := s + k * perWord e
    let n := min (perWord e) (s + c - i0)
    (elementBit e i0, (n * lgBits e + 7) / 8, n * lgBits e)

/-- A mask of the lanes that hold at least one of `n` bits. -/
def lanesFor (n : Nat) : BitVec 32 := BitVec.ofNat 32 (2 ^ ((n + 31) / 32) - 1)

/-- The link word of a stream at word `k` of a row (R139, R342). -/
def makeWord (p : Nat) (sc : Scope) (e : Legend) (starts counts : Word) (row : Row) (k : Nat) : Act LinkWord := do
  let (bit, bytes, n) := wordPlace e starts counts k
  let bs ← readRow (.engine p) p sc e row bit bytes
  let payload := BitVec.ofNat 512 (Decode.leNat bs % 2 ^ n)
  let tag := BitVec.ofNat 4 (lgTag e)
  if lgIsBlock e then do
    let i0 := patStart starts 0 + k * perWord e
    let sb ← readScale (.engine p) p sc e row (i0 / blockLength (lgWidth e)) 4
    pure (dataWord payload (BitVec.ofNat 32 (Decode.leNat sb)) tag)
  else if lgFormat e = 19 then pure (dataWord payload 0xE000FFFF tag)
  else pure (dataWord payload (lanesFor n) tag)

/-- Runs of bytes to write: the bytes of the elements whose lanes are all valid (R139). -/
def validElement (mask : BitVec 16) (bits j : Nat) : Bool :=
  if bits = 64 then mask.getLsbD (2 * j) && mask.getLsbD (2 * j + 1) else mask.getLsbD (j * bits / 32)

/-- Write the elements whose lanes are all valid. -/
def writeElements (p : Nat) (sc : Scope) (e : Legend) (row : Row) (mask : BitVec 16) (bit : Nat) (data : List Byte) :
    Act Unit := do
  let b ← baseOf p e
  writeMasked (.engine p) .engine sc (rowAddress b e row bit) data fun i => validElement mask (lgBits e) (i / (lgBits e / 8))

/-- Store a link word of a stream (R139, R141, R342). -/
def storeWord (p : Nat) (sc : Scope) (e : Legend) (starts counts : Word) (row : Row) (k : Nat) (x : LinkWord) :
    Act Unit := do
  let (bit, bytes, n) := wordPlace e starts counts k
  let data := (payloadBytes x.payload).take bytes
  if lgIsTcw e then do
    if n % 8 = 0 then writeRow (.engine p) p sc e row bit data
    else do
      let old ← readRow (.engine p) p sc e row (bit + 8 * (bytes - 1)) 1
      let keep := Decode.leNat old / 2 ^ (n % 8) * 2 ^ (n % 8)
      let last := (data.getD (bytes - 1) 0).toNat % 2 ^ (n % 8)
      writeRow (.engine p) p sc e row bit (data.take (bytes - 1) ++ [BitVec.ofNat 8 (keep + last)])
  else if lgIsBlock e then do
    writeRow (.engine p) p sc e row bit data
    let i0 := patStart starts 0 + k * perWord e
    let sx ← legendOf p (lgScaleEntry e)
    writeRow (.engine p) p sc sx row (8 * (i0 / blockLength (lgWidth e))) (Decode.leBytes 4 x.scale.toNat)
  else if lgFormat e = 19 then writeRow (.engine p) p sc e row bit data
  else writeElements p sc e row (linkMask x) bit data

end Sys2Proof.Machine
end

