-- ==== Sys2Proof/Machine/Stream.lean ====
section
/-! DEFINITION. Memory streams: `STRM` and the steps of loaders and storers (R136-R145, R205). -/

namespace Sys2Proof.Machine

/-! ### Slots -/

def State.stream (s : State) (p slot : Nat) : Stream := (s.parcel p).streams.look Stream.reset slot
def State.onStream (s : State) (p slot : Nat) (f : Stream → Stream) : State :=
  s.onParcel p fun x => { x with streams := x.streams.put slot (f (x.streams.look Stream.reset slot)) }
/-- Queued or running. -/
def Stream.busy (t : Stream) : Bool := t.state = 1 || t.state = 2
def Stream.port (t : Stream) : Nat := wbits t.control 11 10
def Stream.scope (t : Stream) : Scope := scopeOfCode (wbits t.control 15 12)

/-- The holder of one side of a port. -/
def State.portHolder (s : State) (p port : Nat) (outbound : Bool) : PortHolder :=
  match (s.parcel p).ports.toList[port]? with
  | some w => if outbound then w.outHolder else w.inHolder
  | none => .free
def State.port (s : State) (p port : Nat) : WidePort := ((s.parcel p).ports.toList[port]?).getD WidePort.reset

def PortHolder.isStream : PortHolder → Bool
  | .stream _ => true
  | _ => false
def PortHolder.isGraticule : PortHolder → Bool
  | .graticule _ => true
  | _ => false

/-- Free a port side that a stream holds. -/
def State.leavePort (s : State) (p slot : Nat) : State :=
  let t := s.stream p slot
  s.onPort p t.port fun w =>
    if t.outbound then (if w.outHolder = .stream slot then { w with outHolder := .free } else w)
    else if w.inHolder = .stream slot then { w with inHolder := .free } else w

/-- A stream halts with a reason and a fault code. -/
def State.haltStream (s : State) (p slot : Nat) (reason : BitVec 2) (code : Byte) : State :=
  (s.leavePort p slot).onStream p slot fun t => { t with state := 3, reason := reason, code := code }

/-- A stream stops at a fault and its core is told (R142). -/
def State.faultStream (s : State) (p slot : Nat) (code : Byte) (value : Word) : State :=
  (s.haltStream p slot 3 code).report p code 12 slot none value

/-- The serials of streams that are queued or running. -/
def Parcel.liveSerials (x : Parcel) : List Nat := (x.streams.filter fun (e : Nat × Stream) => e.2.busy).map (·.2.serial)

/-- The word of a handle on a link (R301). -/
def handleWord (h : Word) : LinkWord := dataWord (h.setWidth 512) 3 8

/-- Whether an inbound stream runs on a port (R145, R313). -/
def State.streamIn (s : State) (p port : Nat) : Bool :=
  (s.parcel p).streams.any fun (e : Nat × Stream) => e.2.state = 2 && !e.2.outbound && e.2.port = port

/-- A side of a port is free: nothing holds it and no memory stream is queued or runs there (R302). -/
def State.sideFree (s : State) (p port : Nat) (consumer : Bool) : Bool :=
  s.portHolder p port (!consumer) = .free &&
  !((s.parcel p).streams.any fun (e : Nat × Stream) => e.2.busy && e.2.outbound ≠ consumer && e.2.port = port)

/-- A handle that waited for the inbound side of a port enters it once no inbound stream runs there (R313). -/
def State.dueEmit (s : State) (p port : Nat) : State :=
  match (s.parcel p).emits.find? fun e => e.1 = port with
  | none => s
  | some e =>
    if s.streamIn p port then s
    else (s.onPort p port fun w => { w with inbound := w.inbound ++ [handleWord e.2] }).onParcel p fun x =>
      { x with emits := x.emits.erase e }

/-! ### Instructions (R136-R145) -/

/-- Issue a stream: it is queued behind other streams and behind a stream-mode `GR.MM` of its port side (R137-R140, R302,
R333). -/
def State.openStream (s : State) (i : Instr) (outbound : Bool) (rd ra rb : Reg) : Host.Outcome State Fault Refusal :=
  s.attempt i 12 do
    let p := s.here
    let c := s.reg ra
    let va := s.reg rb
    let slot := wbits c 19 16
    check (wbits c 63 31 = 0 && !wbit c 23 && (!outbound || wbits c 22 20 = 0)) codeIllegal 0
    let sc ← scopeField (wbits c 15 12)
    let e ← legendOf p (wbits c 9 0)
    aligned va 16
    check (!(s.stream p slot).busy) codeBufferState (BitVec.ofNat 64 slot)
    let holder := s.portHolder p (wbits c 11 10) outbound
    check (holder = .free || holder.isStream || holder.isGraticule) codeBufferState (BitVec.ofNat 64 (wbits c 11 10))
    issueRelease sc
    let d ← readVa (.engine p) sc va 16
    let starts := wordOf (d.take 8)
    let counts := wordOf (d.drop 8)
    check (patternOk e starts counts) codeIllegal 0
    modify fun t =>
      let x := t.parcel p
      let w := x.barrier.filter fun n => n ∈ x.liveSerials
      (t.onParcel p fun y => { y with serial := y.serial + 1, barrier := w }).onStream p slot fun _ =>
        ⟨1, outbound, c, starts, counts, 0, 0, 0, x.serial, w⟩
    finish rd s.newPromise

/-- `STRM.IN` (R137). -/
def execStrmIn (rd ra rb : Reg) (s : State) : Host.Outcome State Fault Refusal :=
  s.openStream (.strmIn rd ra rb) false rd ra rb
/-- `STRM.OUT` (R137). -/
def execStrmOut (rd ra rb : Reg) (s : State) : Host.Outcome State Fault Refusal :=
  s.openStream (.strmOut rd ra rb) true rd ra rb

/-- `STRM.BAR`: later streams wait for the outbound streams named; masks add together (R143). -/
def execStrmBar (ra : Reg) (s : State) : Host.Outcome State Fault Refusal :=
  s.attempt (.strmBar ra) 12 do
    check (wbits (s.reg ra) 63 16 = 0) codeIllegal 0
    modify fun t => (t.onParcel s.here fun x =>
      let new := (x.streams.filter fun (e : Nat × Stream) => wbit (s.reg ra) e.1 && e.2.outbound && e.2.busy).map (·.2.serial)
      { x with barrier := x.barrier ++ new }).advance s.here

/-- `STRM.STOP` of a slot: a running loader reads no more, a queued one halts at once (R144). A running stream with
reason stop is one whose stop token is still to be sent. -/
def State.stopStream (s : State) (p slot : Nat) : State :=
  let t := s.stream p slot
  if t.outbound then s
  else if t.state = 2 then s.onStream p slot fun t => { t with reason := 1 }
  else if t.state = 1 then s.haltStream p slot 1 0
  else s

/-- `STRM.STOP` (R144). -/
def execStrmStop (ra : Reg) (s : State) : Host.Outcome State Fault Refusal :=
  s.attempt (.strmStop ra) 12 do
    check (wbits (s.reg ra) 63 4 = 0) codeIllegal 0
    modify fun t => (t.stopStream s.here (s.reg ra).toNat).advance s.here

/-- The status word of a slot (R145). The reason stands from the halt on, a stop whose token still waits for the port shows
none, and a slot that completion has freed keeps its position and direction and shows port and reason 0 (log 80). -/
def Stream.status (t : Stream) : Word :=
  BitVec.ofNat 64 (t.state.toNat + (if t.outbound then 4 else 0) + (if t.state = 3 then t.reason.toNat * 2 ^ 8 else 0) +
    (if t.state = 0 then 0 else t.port * 2 ^ 10) + t.code.toNat * 2 ^ 24 + t.pos % 2 ^ 32 * 2 ^ 32)

/-- `STRM.STAT` (R145). -/
def execStrmStat (rd ra : Reg) (s : State) : Host.Outcome State Fault Refusal :=
  s.attempt (.strmStat rd ra) 12 do
    check (wbits (s.reg ra) 63 4 = 0) codeIllegal 0
    finish rd (s.stream s.here (s.reg ra).toNat).status

/-! ### Steps of a stream (R140-R142) -/

/-- `STREAM_START`: the oldest queued stream of a free port side begins, once the streams its barriers name are over
(R140, R143). -/
def execStreamStart (p slot : Nat) (s : State) : Host.Outcome State Fault Refusal :=
  let x := s.parcel p
  let t := s.stream p slot
  let first := x.streams.all fun (e : Nat × Stream) =>
    !(e.2.busy && e.2.outbound = t.outbound && e.2.port = t.port && e.2.serial < t.serial)
  if s.enginesRun p && t.state = 1 && first && s.portHolder p t.port t.outbound = .free &&
      (t.waits.all fun n => n ∉ x.liveSerials)
  then .next ((s.onStream p slot fun t => { t with state := 2 }).onPort p t.port fun w =>
    if t.outbound then { w with outHolder := .stream slot } else { w with inHolder := .stream slot })
  else .next s

/-- The entry a stream's control word names. -/
def State.streamEntry (s : State) (p : Nat) (t : Stream) : Legend :=
  (((s.regionOf p).bind fun x => x.2.entry (wbits t.control 9 0))).getD 0

/-- Words of a stream's whole pattern. -/
def State.streamTotal (s : State) (p : Nat) (t : Stream) : Nat := patWords (s.streamEntry p t) t.counts

/-- The virtual address of a stream's word, for a fault that names none. -/
def State.streamAddress (s : State) (p : Nat) (t : Stream) (k : Nat) : Word :=
  let e := s.streamEntry p t
  let rw := max 1 (rowWords e t.counts)
  match (s.regionOf p).bind fun x => s.legendBase x.1 x.2 e with
  | some b => rowAddress b e (patRow t.starts t.counts (k / rw)) (wordPlace e t.starts t.counts (k % rw)).1
  | none => 0

/-- A stream completes: its slot is freed and its arrival is made, an outbound stream's a release at its scope (R75, R140). -/
def State.completeStream (s : State) (p slot : Nat) : State :=
  let t := s.stream p slot
  let s1 := (s.leavePort p slot).onStream p slot fun t => { t with state := 0, reason := 0 }
  if !wbit t.control 30 then s1
  else (if t.outbound then s1.release (.engine p) t.scope else s1).sendArrival p (wbits t.control 29 24) 12 slot

/-- `LOADER_WORD`: the next word of a running loader enters the port, or the stop token of a stopped one (R138-R140,
R144). -/
def execLoaderWord (p slot : Nat) (s : State) : Host.Outcome State Fault Refusal :=
  let t := s.stream p slot
  let w := s.port p t.port
  if !s.enginesRun p || t.state ≠ 2 || t.outbound || !w.inbound.isEmpty then .next s
  else
    let put := fun (st : State) (x : LinkWord) =>
      st.onPort p t.port fun w => { w with inbound := w.inbound ++ [{ x with ctx := t.control.extractLsb' 20 3 }] }
    let total := s.streamTotal p t
    if t.reason = 1 then
      let s1 := (put s (tokenWord 1 0)).haltStream p slot 1 0
      .next (if total ≤ t.pos && wbit t.control 30 then s1.sendArrival p (wbits t.control 29 24) 12 slot else s1)
    else if total ≤ t.pos then .next s
    else
      let e := s.streamEntry p t
      let rw := rowWords e t.counts
      match makeWord p t.scope e t.starts t.counts (patRow t.starts t.counts (t.pos / rw)) (t.pos % rw) s with
      | .ok x s1 => .next ((put s1 { x with last := t.pos + 1 = total }).onStream p slot fun t => { t with pos := t.pos + 1 })
      | .error (.fault c v) _ => .next (s.faultStream p slot c v)
      | .error .hold s1 => .next s1

/-- Poison at a storer is reported (R205). -/
def State.storerPoison (s : State) (p slot : Nat) : State :=
  s.poisonSink p (fun rel => 12 * 2 ^ 8 + slot * 2 ^ 12 + rel * 2 ^ 16) (fun rel => rel * 2 ^ 16 + slot * 2 ^ 12)

/-- `STORER_WORD`: a running storer takes the next word of its port (R139, R141). -/
def execStorerWord (p slot : Nat) (s : State) : Host.Outcome State Fault Refusal :=
  let t := s.stream p slot
  let total := s.streamTotal p t
  if !s.enginesRun p || t.state ≠ 2 || !t.outbound || total ≤ t.pos then .next s
  else match (s.port p t.port).outbound with
    | [] => .next s
    | x :: rest =>
      let s1 := s.onPort p t.port fun w => { w with outbound := rest }
      if x.token then
        if x.kind = 1 then .next (s1.haltStream p slot 1 0)
        else if x.kind = 2 then .next ((s1.haltStream p slot 2 0).storerPoison p slot)
        else .next s1
      else
        let e := s.streamEntry p t
        let rw := rowWords e t.counts
        if x.fmt.toNat ≠ lgTag e then .next (s1.faultStream p slot codeIllegal (s.streamAddress p t t.pos))
        else match storeWord p t.scope e t.starts t.counts (patRow t.starts t.counts (t.pos / rw)) (t.pos % rw) x s1 with
          | .ok _ s2 => .next (s2.onStream p slot fun t => { t with pos := t.pos + 1 })
          | .error (.fault c v) _ => .next (s.faultStream p slot c v)
          | .error .hold s2 => .next (s2.onPort p t.port fun w => { w with outbound := x :: rest })

/-- `STREAM_COMPLETE`: the last word has entered the port, or has been performed (R140). -/
def execStreamComplete (p slot : Nat) (s : State) : Host.Outcome State Fault Refusal :=
  let t := s.stream p slot
  if s.enginesRun p && t.state = 2 && t.reason = 0 && s.streamTotal p t ≤ t.pos then .next (s.completeStream p slot)
  else .next s

/-- `STREAM_FAULT`: a translation or media fault, or an error of the host or of a link, at the next word of a running
stream (R142, R466, R470). -/
def execStreamFault (p slot : Nat) (code : Byte) (s : State) : Host.Outcome State Fault Refusal :=
  let t := s.stream p slot
  if s.enginesRun p && t.state = 2 && t.pos < s.streamTotal p t then
    .next (s.faultStream p slot code (s.streamAddress p t t.pos))
  else .next s

end Sys2Proof.Machine
end

