-- ==== Sys2Proof/Machine/Ends.lean ====
section
/-! DEFINITION. Streams whose ends move: the `END` instructions, items, moves and closing (R299-R314). The record of a
stream stands at its home. A place on another device that binds an end keeps a record of its own, and home and place tell
each other what the rules ask of them; items between two such places go by the home. -/

namespace Sys2Proof.Machine

/-! ### Handles and records (R299, R300) -/

def handleNumber (h : Word) : Nat := wbits h 47 28
def handleHome (h : Word) : Nat := wbits h 24 16
def handleDevice (h : Word) : Nat := wbits h 15 0
def handleConsumer (h : Word) : Bool := wbit h 27
def handleSerial (h : Word) : BitVec 16 := h.extractLsb' 48 16

/-- Items sent and not delivered (R303). -/
def EndStream.outstanding (e : EndStream) : Nat := e.next - e.delivered
/-- The capacity in link words (R299). -/
def EndStream.room (e : EndStream) : Nat := 8 * 2 ^ e.cap.toNat
/-- A move of an end has not finished. -/
def EndStream.moving (e : EndStream) (consumer : Bool) : Bool := e.moves.any fun m => m.consumer = consumer
/-- The oldest move of an end whose old place has not stopped. -/
def EndStream.firstMove (e : EndStream) (consumer : Bool) : Option EndMove :=
  e.moves.find? fun m => m.consumer = consumer && m.mark.isNone
/-- Every old place of an end has stopped, and what it had sent has come (R305, R306). -/
def EndStream.settled (e : EndStream) (consumer : Bool) : Bool :=
  e.moves.all fun m => m.consumer ≠ consumer || m.mark.any fun k => k ≤ e.next
/-- The place at which an end acts: the old one of its oldest move until that has stopped, at last the new one. -/
def EndStream.active (e : EndStream) (consumer : Bool) : Option EndLoc :=
  match e.firstMove consumer with
  | some m => some m.old
  | none => if e.settled consumer then (e.end_ consumer).loc else none
/-- Where the ends of a stream stand or stood. -/
def EndStream.places (e : EndStream) : List EndLoc := e.prod.loc.toList ++ e.cons.loc.toList ++ e.moves.map (·.old)

/-! ### Items on their way (R303, R306, R309) -/

/-- The home gives the consumer's place what is due there: on this device the items wait there, to another they are sent once
no old place is still to stop. -/
def State.feedConsumer (s : State) (h n : Nat) (e : EndStream) : State :=
  match (if e.orphaned then none else e.active true) with
  | none => s.setEndRecord h n e
  | some l =>
    let due := e.retained.filter fun x => e.delivered ≤ x.1
    if l.device = s.link.number then s.setEndRecord h n { e with arrived := due }
    else if (e.firstMove true).isSome then s.setEndRecord h n { e with arrived := [] }
    else
      let s1 := s.setEndRecord h n { e with arrived := [], given := some e.next }
      let s2 := if e.given.isNone
        then s1.tellPlace h n true e.cons.serial l (.start e.delivered e.delivered e.cap) else s1
      (due.filter fun x => e.given.getD 0 ≤ x.1).foldl
        (fun (t : State) x => t.tellPlace h n true e.cons.serial l (.item x.1 x.2)) s2

/-- The next item of a stream: the producer's side keeps a copy and hands it on, a place to its home (R303). -/
def State.sendItem (s : State) (h n : Nat) (e : EndStream) (x : LinkWord) : State :=
  let e1 : EndStream := { e with retained := e.retained ++ [(e.next, x)], next := e.next + 1 }
  if (foreignOf n).isSome then (s.setEndRecord h n e1).tellHome n (.item e.next x) else s.feedConsumer h n e1

/-- Items that came ahead of their turn enter once it has come. -/
def State.absorb (s : State) (h n : Nat) : Nat → State
  | 0 => s
  | k + 1 =>
    match s.endRecord h n with
    | none => s
    | some e =>
      match e.early.find? fun x => x.1 = e.next with
      | none => s
      | some x => (s.sendItem h n { e with early := e.early.erase x } x.2).absorb h n k

/-- The producer's new place on another device is told to begin (R305). -/
def State.beginProducer (s : State) (h n : Nat) : State :=
  match s.endRecord h n with
  | none => s
  | some e =>
    match e.prod.loc with
    | none => s
    | some l =>
      if (foreignOf n).isSome || e.orphaned || e.begun || l.device = s.link.number || !e.settled false then s
      else (s.setEndRecord h n { e with begun := true }).tellPlace h n false e.prod.serial l
        (.start e.next e.delivered e.cap)

/-- The end-of-stream token enters as the last item at the closed producer end, once there is room for it (R303, R310). -/
def State.endItems (s : State) (h n : Nat) : State :=
  match s.endRecord h n with
  | none => s
  | some e =>
    let away := match e.prod.loc with | some l => l.device ≠ s.link.number | none => false
    if !e.prod.closed || e.orphaned || e.ended.isSome || e.room ≤ e.outstanding || !e.settled false || away ||
        ((foreignOf n).isSome && !e.begun) then s
    else (s.sendItem h n { e with ended := some (e.next + 1) } (tokenWord 8 0)).tellHome n (.closed (e.next + 1))

/-- Once the producer end is closed and every item acknowledged its side is freed, and the record with both ends
closed (R310). -/
def State.settleClose (s : State) (h n : Nat) : State :=
  match s.endRecord h n with
  | none => s
  | some e =>
    if (foreignOf n).isNone && e.prod.closed && e.ended.any (fun k => k ≤ e.acked) then
      if e.cons.closed then s.dropStream h n e
      else (s.freeEnd h n false e.prod).setEndRecord h n { e with prod := { e.prod with loc := none } }
    else s

/-- The region of a parcel stands still, for the debugger, for a pre-emption or on a held device; streams of a parcel without
one go on (R297, R312, R479). -/
def State.standsStill (s : State) (p : Nat) : Bool := !s.enginesRun p && (s.regionOf p).isSome

/-- What a change of a record lets go on: the new places begin, the last item enters, the sides of what is over are freed. All
of it waits while the region of the record stands still; the next marker takes it up then (R297, R305, R312). -/
def State.pumpStream (s : State) (h n : Nat) : State :=
  if s.standsStill h then s else
  let s1 := (s.beginProducer h n).endItems h n
  let s2 := match s1.endRecord h n with
    | some e => if (foreignOf n).isSome then s1 else s1.feedConsumer h n e
    | none => s1
  s2.settleClose h n

/-! ### What the home does (R304-R311) -/

/-- A bind at the home: the new handle, or the fault; the move of a bound end begins (R304). -/
def State.homeBind (s : State) (h : Word) (loc : EndLoc) : Except Byte (Word × State) :=
  let home := handleHome h
  let n := handleNumber h
  let k := handleConsumer h
  match s.endRecord home n with
  | none => .error codeEndStale
  | some e =>
    let r := e.end_ k
    if e.orphaned then .error codeOrphaned
    else if r.closed || handleSerial h ≠ r.serial then .error codeEndStale
    else
      let r1 : EndRec := { r with serial := r.serial + 1, loc := some loc }
      let moves := match r.loc with
        | some old => e.moves ++ [⟨k, r.serial, old, if k then e.given.isSome else e.begun, false, none⟩]
        | none => e.moves
      let e1 : EndStream := { e.setEnd k r1 with moves := moves, begun := k && e.begun,
                                                 given := if k then none else e.given }
      .ok (endHandle s.link.number home n k r1, (s.setEndRecord home n e1).pumpStream home n)

/-- `END.CLOSE` at the home, by a closer at a device and parcel (R310, R311). -/
def State.homeClose (s : State) (h : Word) (device parcel : Nat) : Except Byte State :=
  let home := handleHome h
  let n := handleNumber h
  let k := handleConsumer h
  match s.endRecord home n with
  | none => .error codeEndStale
  | some e =>
    let r := e.end_ k
    let elsewhere := match r.loc with
      | some l => l.device ≠ device || l.parcel ≠ parcel
      | none => false
    if r.closed || handleSerial h ≠ r.serial || elsewhere then .error codeEndStale
    else if e.orphaned then .ok (s.dropStream home n e)
    else if k then .ok ((s.freeEnd home n true r).orphanStream home n e false true false)
    else .ok ((s.setEndRecord home n { e with prod := { r with closed := true } }).pumpStream home n)

/-- The status word of an end (R314). -/
def EndStream.status (e : EndStream) (consumer : Bool) : Word :=
  let r := e.end_ consumer
  let l := r.loc.getD ⟨0, 0, 0⟩
  let state := if e.orphaned then 1 else if e.prod.closed && e.cons.closed then 3 else if e.prod.closed then 2 else 0
  BitVec.ofNat 64 (r.serial.toNat * 2 ^ 48 + l.device % 2 ^ 16 * 2 ^ 32 + l.parcel % 2 ^ 9 * 2 ^ 23 + l.port % 4 * 2 ^ 21 +
    e.outstanding % 2 ^ 9 * 2 ^ 12 + e.cap.toNat * 2 ^ 9 + state * 2 ^ 3 + (if e.moving consumer then 4 else 0) +
    (if r.loc.isSome then 2 else 0) + (if (e.end_ (!consumer)).loc.isSome then 1 else 0))

/-- The status of an end as an instruction reads it: a parcel of a held kernel shows as the one it was pre-empted from
(R314, R453). -/
def State.endStatus (s : State) (e : EndStream) (consumer : Bool) : Word :=
  let r := e.end_ consumer
  let named := fun (l : EndLoc) => if l.device = s.link.number then { l with parcel := s.seenAt l.parcel } else l
  (e.setEnd consumer { r with loc := r.loc.map named }).status consumer

/-! ### Instructions (R313) -/

/-- Push a handle into the inbound side of a port, at once or when no inbound stream runs there any more (R313). -/
def State.emit (s : State) (p port : Nat) (h : Word) : State :=
  if s.streamIn p port then s.onParcel p fun x => { x with emits := x.emits ++ [(port, h)] }
  else s.onPort p port fun w => { w with inbound := w.inbound ++ [handleWord h] }

/-- Fault with a code whose value the manual does not state (log 8). -/
def raiseOpen {α : Type} (code : Byte) : Act α := do
  let s ← get
  raise code (Config.freeWord s.tick)

/-- `END.MAKE` (R299, R313). -/
def execEndMake (rd ra : Reg) (s : State) : Host.Outcome State Fault Refusal :=
  s.attempt (.endMake rd ra) 3 do
    let a := s.reg ra
    let p := s.here
    let x := s.parcel p
    check (wbits a 63 7 = 0 && wbits a 2 0 ≤ 5) codeIllegal 0
    check ((x.ends.filter fun e => e.1 < 2 ^ 20).length < 32) codeBufferState 0xFFFFFFFFFFFFFFFF
    let n := x.endCount
    let none_ : EndRec := ⟨0, none, false⟩
    let e : EndStream := { cap := a.extractLsb' 0 3, orphaned := false, prod := none_, cons := none_, next := 0, delivered := 0,
                           acked := 0, retained := [], early := [], arrived := [], moves := [], begun := false, given := none,
                           ended := none, discarded := 0 }
    modify fun t => (t.setEndRecord p n e).onParcel p fun x => { x with endCount := (n + 1) % 2 ^ 20 }
    if wbit a 3 then modify fun t => t.emit p (wbits a 5 4) (endHandle s.link.number p n (wbit a 6) none_)
    finish rd (endHandle s.link.number p n false none_)

/-- The records that places of this device keep of a stream of another device: the parcel that keeps it, the end, and the
record. -/
def State.placeRecords (s : State) (device home number : Nat) : List (Nat × Nat × EndName × EndStream) :=
  s.parcels.flatMap fun (hp : Nat × Parcel) => hp.2.ends.filterMap fun (ne : Nat × EndStream) =>
    match foreignOf ne.1 with
    | some x => if x.device = device && x.home = home && x.number = number then some (hp.1, ne.1, x, ne.2) else none
    | none => none

/-- A home lies outside the fabric of the issuer's region on this device (R15). -/
def State.outOfReach (s : State) (p h : Nat) : Bool :=
  match s.regionOf p with
  | some (o, r) => h ∉ regionParcels o r
  | none => true

/-- Ask the home on another device, and wait for its answer (R101, R309). -/
def askHome (rd : Reg) (op : Nat) (h ports : Word) (port : Nat) : Act Unit := do
  let s ← get
  let tag := s.host.nextTag
  coreAsks (.endAsk s.here rd op h ports) []
  modify fun t => t.moSend (handleDevice h) (.ask tag op h s.here port)

/-- What becomes of an end instruction whose home is lost: a bind of a stream that is orphaned here raises that, a survivor
closes its end, and everything else is a hole of the link (R311, R470). -/
def homeLost (op : Nat) (h : Word) : Act Unit := do
  let s ← get
  let l := s.placeRecords (handleDevice h) (handleHome h) (handleNumber h)
  if op = 1 && (l.any fun e => e.2.2.2.orphaned) then raiseOpen codeOrphaned
  match (if op = 2 then l.find? fun e => e.2.2.2.orphaned && e.2.2.1.consumer = handleConsumer h &&
      e.2.2.1.serial = handleSerial h && e.2.2.2.places.any (fun l => l.parcel = s.here) else none) with
  | some e =>
    modify fun t => t.dropStream e.1 e.2.1 e.2.2.2
    proceed
  | none => raiseOpen codeLinkHole

/-- An end takes its side of a port. -/
def State.takeSide (s : State) (p port : Nat) (consumer : Bool) (h n : Nat) : State :=
  s.onPort p port fun w => if consumer then { w with inHolder := .endOf h n } else { w with outHolder := .endOf h n }

/-- The end that a bind makes of a handle. -/
def boundName (h : Word) (p port : Nat) : EndName :=
  ⟨handleDevice h, handleHome h, handleNumber h, handleConsumer h, handleSerial h + 1, p, port⟩
/-- The record that a place keeps of an end whose home is another device. -/
def placeRecord (x : EndName) (l : EndLoc) : EndStream :=
  let r : EndRec := ⟨x.serial, some l, false⟩
  let none_ : EndRec := ⟨0, none, false⟩
  { cap := 0, orphaned := false, prod := if x.consumer then none_ else r, cons := if x.consumer then r else none_, next := 0,
    delivered := 0, acked := 0, retained := [], early := [], arrived := [], moves := [], begun := false, given := none,
    ended := none, discarded := 0 }

/-- `END.BIND` (R302, R304, R313). A stream that stands on this device outside the issuer's region is out of its reach
(R15). -/
def execEndBind (rd ra rb : Reg) (s : State) : Host.Outcome State Fault Refusal :=
  s.attempt (.endBind rd ra rb) 3 do
    let h := s.reg ra
    let b := s.reg rb
    let p := s.here
    let port := wbits b 1 0
    check (wbits b 63 5 = 0) codeIllegal 0
    check (s.sideFree p port (handleConsumer h)) codeBufferState (BitVec.ofNat 64 port)
    if handleDevice h ≠ s.link.number then
      if (s.link.route (handleDevice h)).isNone then homeLost 1 h
      else do
        let x := boundName h p port
        askHome rd 1 h b port
        modify fun t => (t.setEndRecord p (foreignNumber x) (placeRecord x ⟨s.link.number, p, port⟩)).takeSide p port
          x.consumer p (foreignNumber x)
    else do
      let places := match s.endRecord (handleHome h) (handleNumber h) with
        | some e => e.places.filter fun (l : EndLoc) => l.device = s.link.number
        | none => []
      if s.outOfReach p (handleHome h) || places.any (fun l => s.outOfReach p l.parcel) then raiseOpen codeScope
      match s.homeBind h ⟨s.link.number, p, port⟩ with
      | .error c => raiseOpen c
      | .ok (v, s1) => do
        set (s1.takeSide p port (handleConsumer h) (handleHome h) (handleNumber h))
        if wbit b 2 then modify fun t => t.emit p (wbits b 4 3) v
        finish rd v

/-- `END.CLOSE` (R310, R313). -/
def execEndClose (ra : Reg) (s : State) : Host.Outcome State Fault Refusal :=
  s.attempt (.endClose ra) 3 do
    let h := s.reg ra
    if handleDevice h ≠ s.link.number then
      if (s.link.route (handleDevice h)).isNone then homeLost 2 h else askHome 0 2 h 0 0
    else do
      if s.outOfReach s.here (handleHome h) then raiseOpen codeScope
      match s.homeClose h s.link.number s.here with
      | .error c => raiseOpen c
      | .ok s1 => do
        set s1
        proceed

/-- `END.STAT` (R313, R314). -/
def execEndStat (rd ra : Reg) (s : State) : Host.Outcome State Fault Refusal :=
  s.attempt (.endStat rd ra) 3 do
    let h := s.reg ra
    if handleDevice h ≠ s.link.number then
      if (s.link.route (handleDevice h)).isNone then homeLost 3 h else askHome rd 3 h 0 0
    else do
      if s.outOfReach s.here (handleHome h) then raiseOpen codeScope
      match s.endRecord (handleHome h) (handleNumber h) with
      | none => raiseOpen codeEndStale
      | some e => finish rd (s.endStatus e (handleConsumer h))

/-! ### Requests of other devices and their answers (R304, R309) -/

/-- What a home answers to a request of another device: code and value. -/
def State.homeAnswer (s : State) (op : Nat) (h : Word) (loc : EndLoc) : Byte × Word × State :=
  match op with
  | 1 => match s.homeBind h loc with
    | .ok (v, s1) => (0, v, s1)
    | .error c => (c, 0, s)
  | 2 => match s.homeClose h loc.device loc.parcel with
    | .ok s1 => (0, 0, s1)
    | .error c => (c, 0, s)
  | _ => match s.endRecord (handleHome h) (handleNumber h) with
    | some e => (0, s.endStatus e (handleConsumer h), s)
    | none => (codeEndStale, 0, s)

/-- `BIND_REQUEST`: the home applies the request of another device and answers it (R304, R309). -/
def execBindRequest (k : Nat) (s : State) : Host.Outcome State Fault Refusal :=
  match s.link.asks[k]? with
  | none => .next s
  | some (tag, op, h, loc) =>
    let s1 : State := { s with link := { s.link with asks := s.link.asks.eraseIdx k } }
    let (code, value, s2) := s1.homeAnswer op h loc
    .next (s2.moSend loc.device (.answer tag op h code value))

/-- What the home's answer does at the records of its place: a refused bind leaves no record, a closed consumer's or
survivor's goes, a closed producer takes no more words (R302, R310). -/
def State.answerRecords (s : State) (p op : Nat) (h : Word) (port : Nat) (code : Byte) : State :=
  if op = 1 then
    let n := foreignNumber (boundName h p port)
    match (if code = 0 then none else s.endRecord p n) with
    | some e => s.dropStream p n e
    | none => s
  else if op = 2 && code = 0 then
    match (s.placeRecords (handleDevice h) (handleHome h) (handleNumber h)).find? fun e =>
        e.2.2.1.consumer = handleConsumer h && e.2.2.1.serial = handleSerial h && e.2.2.2.places.any (fun l => l.parcel = p) with
    | some e =>
      if e.2.2.1.consumer || e.2.2.2.orphaned then s.dropStream e.1 e.2.1 e.2.2.2
      else (s.setEndRecord e.1 e.2.1 { e.2.2.2 with prod := { e.2.2.2.prod with closed := true } }).pumpStream e.1 e.2.1
    | none => s
  else s

/-- The home's answer completes the instruction that waits for it, or traps it (R101, R304). The answer for a core whose
region stands stopped for the debugger waits (R297); a bind whose kernel has ended meanwhile is a holder that has died. -/
def State.endAnswer (s : State) (tag op : Nat) (handle : Word) (code : Byte) (value : Word) : State :=
  match s.host.requests.find tag with
  | some (.endAsk p rd op h ports) =>
    if !s.coreRuns p then
      { s with host := { s.host with requests := s.host.requests.put tag (.endDone p rd op h ports code value) } }
    else
      let s1 : State := { s with host := { s.host with requests := s.host.requests.drop tag } }
      let port := wbits ports 1 0
      let s2 := (s1.onCore p fun c => { c with waiting := none }).answerRecords p op h port code
      if code ≠ 0 then s2.trapEntry p code (Config.freeWord s.tick) 3 false
      else
        let s3 := if op = 1 && wbit ports 2 then s2.emit p (wbits ports 4 3) value else s2
        s3.onCore p fun c => { (if op = 2 then c else c.put rd value) with pc := c.pc + 4 }
  | _ =>
    if op = 1 && code = 0 then
      s.moSend (handleDevice handle) (.toHome (boundName handle 0 (wbits value 26 25)) .dead)
    else s

/-- Answers that came during a stop for the debugger act once the region runs again. -/
def State.lateAnswers (s : State) : State :=
  s.host.requests.foldl (fun (t : State) (e : Nat × HostRequest) => match e.2 with
    | .endDone p rd op h ports code value =>
      if t.coreRuns p then
        State.endAnswer { t with host := { t.host with requests := t.host.requests.put e.1 (.endAsk p rd op h ports) } }
          e.1 op h code value
      else t
    | _ => t) s

/-! ### Items (R303-R307) -/

/-- `ITEM_ENTRY`: the first word of a port's outbound side enters the producer end that holds it; an orphaned stream's
side discards and counts it (R303, R305, R311). -/
def execItemEntry (p port : Nat) (s : State) : Host.Outcome State Fault Refusal :=
  match s.portHolder p port true, (s.port p port).outbound with
  | .endOf h n, x :: rest =>
    match s.endRecord h n with
    | none => .next s
    | some e =>
      let s1 := s.onPort p port fun w => { w with outbound := rest }
      if !s.enginesRun p || e.prod.closed then .next s
      else if e.orphaned then .next (s1.setEndRecord h n { e with discarded := e.discarded + 1 })
      else if e.active false ≠ some ⟨s.link.number, p, port⟩ || ((foreignOf n).isSome && !e.begun) ||
          e.room ≤ e.outstanding then .next s
      else .next (s1.sendItem h n e x)
  | _, _ => .next s

/-- `ITEM_DELIVERY`: the consumer end delivers the next item into the port (R303, R306, R307). -/
def execItemDelivery (p port : Nat) (s : State) : Host.Outcome State Fault Refusal :=
  match s.portHolder p port false with
  | .endOf h n =>
    match s.endRecord h n with
    | none => .next s
    | some e =>
      match e.arrived.find? fun x => x.1 = e.delivered with
      | none => .next s
      | some x =>
        if !s.enginesRun p || !(s.port p port).inbound.isEmpty || ((foreignOf n).isSome && !e.begun && !e.orphaned) ||
            (if e.orphaned then e.cons.loc else e.active true) ≠ some ⟨s.link.number, p, port⟩ then .next s
        else .next (((s.onPort p port fun w => { w with inbound := [x.2] }).setEndRecord h n
            { e with delivered := e.delivered + 1, arrived := e.arrived.erase x }).tellHome n (.delivered (e.delivered + 1)))
  | _ => .next s

/-- The acknowledgement of a delivered item goes to the producer's place. -/
def State.tellDelivered (s : State) (h n : Nat) (e : EndStream) : State :=
  match e.prod.loc with
  | some l =>
    if (foreignOf n).isSome || l.device = s.link.number || !e.begun then s
    else s.tellPlace h n false e.prod.serial l (.delivered e.acked)
  | none => s

/-- `ITEM_ACKNOWLEDGE`: the acknowledgement of a delivered item frees the producer's copy (R303, R310). -/
def execItemAcknowledge (p number : Nat) (s : State) : Host.Outcome State Fault Refusal :=
  match s.endRecord p number with
  | none => .next s
  | some e =>
    if e.delivered ≤ e.acked || s.standsStill p then .next s
    else
      let e1 : EndStream := { e with acked := e.acked + 1, retained := e.retained.filter fun x => x.1 ≠ e.acked }
      .next (((s.setEndRecord p number e1).tellDelivered p number e1).pumpStream p number)

/-! ### Moves (R305-R307, R312) -/

/-- Whether the next step of a move can be made: its old place stops, or, with every copy acknowledged there, frees its side.
A place in a region that does not run waits (R312). -/
def State.moveReady (s : State) (n : Nat) (e : EndStream) (m : EndMove) : Bool :=
  let here : Bool := m.old.device = s.link.number
  (!here || !s.standsStill m.old.parcel) &&
  (if m.mark.isNone then
    e.firstMove m.consumer = some m && (if here then (foreignOf n).isNone || e.begun else !m.asked)
  else (foreignOf n).isNone && (m.consumer || e.orphaned || m.mark.any fun k => k ≤ e.acked))

/-- A step of a move: an old place stops and tells where, one on another device is asked to, and an old place that has
stopped frees its side (R305, R306). -/
def State.moveStep (s : State) (h n : Nat) (e : EndStream) (m : EndMove) : State :=
  let with_ := fun (m1 : EndMove) => s.setEndRecord h n { e with moves := e.moves.map fun x => if x = m then m1 else x }
  if m.mark.isSome then
    (s.setEndRecord h n { e with moves := e.moves.erase m }).freePlace h n m.consumer m.serial m.old
  else if m.old.device ≠ s.link.number && m.begun then
    (with_ { m with asked := true }).tellPlace h n m.consumer m.serial m.old .stop
  else
    let stop := if m.consumer then e.delivered else e.next
    ((with_ { m with mark := some stop }).tellHome n (.stopped stop)).pumpStream h n

/-- `MIGRATION_MARKER`: the next step that a move of a stream can make (R305-R307). -/
def execMigrationMarker (p number : Nat) (s : State) : Host.Outcome State Fault Refusal :=
  match s.endRecord p number with
  | none => .next s
  | some e => match e.moves.find? (s.moveReady number e) with
    | none => .next (s.pumpStream p number)
    | some m => .next (s.moveStep p number e m)

/-! ### Notes between a home and a place of another device (R303-R311) -/

/-- What a note of its home does at a place. -/
def State.placeNote (s : State) (x : EndName) (note : EndNote) : State :=
  let n := foreignNumber x
  let l := (s.placeRecords x.device x.home x.number).filter fun e => e.2.1 = n
  match (l.find? fun e => e.2.2.2.places.any fun l => l.parcel = x.parcel).or l.head? with
  | none => s
  | some (h, _, _, e) =>
    match note with
    | .item seq w => if e.orphaned then s else s.setEndRecord h n { e with arrived := e.arrived ++ [(seq, w)] }
    | .delivered k => (s.setEndRecord h n { e with delivered := max e.delivered k }).pumpStream h n
    | .start k d cap =>
      let e1 : EndStream := { e with next := k, delivered := max e.delivered d, acked := max e.acked d, cap := cap, begun := true }
      (s.setEndRecord h n e1).pumpStream h n
    | .stop => match (e.end_ x.consumer).loc with
      | some l => s.setEndRecord h n { e.setEnd x.consumer { e.end_ x.consumer with loc := none } with
          moves := [⟨x.consumer, x.serial, l, true, false, none⟩] }
      | none => s
    | .orphan => s.orphanStream h n e false false true
    | .gone => s.dropStream h n e
    | .stopped _ | .closed _ | .dead | .moved _ => s

/-- What a note of a place does at its home. -/
def State.homeNote (s : State) (x : EndName) (note : EndNote) : State :=
  match s.endRecord x.home x.number with
  | none => s
  | some e =>
    let r := e.end_ x.consumer
    let put := fun (e1 : EndStream) => (s.setEndRecord x.home x.number e1).pumpStream x.home x.number
    match note with
    | .item seq w =>
      if e.orphaned || seq < e.next then s
      else (s.setEndRecord x.home x.number { e with early := e.early ++ [(seq, w)] }).absorb x.home x.number
        (e.early.length + 1) |>.pumpStream x.home x.number
    | .delivered k => put { e with delivered := max e.delivered (min k e.next) }
    | .stopped k => put { e with
        delivered := if x.consumer then max e.delivered (min k e.next) else e.delivered,
        moves := e.moves.map fun m => if m.consumer = x.consumer && m.serial = x.serial then { m with mark := some k } else m }
    | .closed k => put { e with ended := some k }
    | .dead =>
      let place := if r.serial = x.serial then r.loc
        else (e.moves.find? fun m => m.consumer = x.consumer && m.serial = x.serial).map (·.old)
      match place with
      | some l => (s.killStream (fun k => k = l) false x.home x.number e).pumpStream x.home x.number
      | none => s
    | .moved p =>
      if r.serial = x.serial then put (e.setEnd x.consumer { r with loc := r.loc.map fun l => { l with parcel := p } })
      else put { e with moves := e.moves.map fun m =>
        if m.consumer = x.consumer && m.serial = x.serial then { m with old := { m.old with parcel := p } } else m }
    | .stop | .start _ _ _ | .orphan | .gone => s

/-- Places whose kernel has been restored at other parcels tell their homes where they stand (R309, R455). -/
def State.tellMoved (s : State) (mine : List Nat) : State :=
  s.parcels.foldl (fun (t : State) (hp : Nat × Parcel) => hp.2.ends.foldl (fun (t : State) (ne : Nat × EndStream) =>
    match (if (foreignOf ne.1).isSome then ne.2.places.find? fun l => l.parcel ∈ mine else none) with
    | some l => t.tellHome ne.1 (.moved l.parcel)
    | none => t) t) s

end Sys2Proof.Machine
end

