-- ==== Sys2Proof/Machine/CellLanes.lean ====
section
/-! DEFINITION. Elements of a cell's words, their validity, and the element-wise operations that the cell
instructions share (R32, R44, R230-R234). -/

namespace Sys2Proof.Machine

/-- The format tag of a destination type 0-14 (R44). -/
def typeTag (t : Nat) : BitVec 4 := if t ≤ 4 then 0 else if t ≤ 8 then 1 else 2
/-- Signed integer types (R230). -/
def signedTy (t : Nat) : Bool := t ∈ [0, 3, 5, 9]

/-- A 32-bit value in a 64-bit element (R230). -/
def extend32 (signed : Bool) (v : BitVec 32) : Nat :=
  if signed then (v.signExtend 64).toNat else v.toNat

/-- The elements of a source for a type (R32, R230). A 64-bit element of a constant or special is the 32-bit value of
its even lane, extended (DEDUCED for `%lane`, whose lanes differ). -/
def Source.values (x : Source) (t : Nat) : List Nat :=
  let w := CellWord.width t
  if w = 64 && x.word.isNone && !x.isReg then
    (List.range 8).map fun i => extend32 (signedTy t) (laneOf x.payload (2 * i))
  else elems w x.payload

/-- Whether element `i` of a type is valid under a lane mask (R232). -/
def elemValid (t : Nat) (mask : BitVec 16) (i : Nat) : Bool :=
  let w := CellWord.width t
  if w = 64 then mask.getLsbD (2 * i) && mask.getLsbD (2 * i + 1) else mask.getLsbD (i * w / 32)
/-- The validity of a word's elements, in order. -/
def elemMask (t : Nat) (mask : BitVec 16) : List Bool := (List.range (CellWord.count t)).map (elemValid t mask)

/-- The lanes that hold only valid elements (R232). -/
def lanesValid (t : Nat) (valid : List Bool) : BitVec 16 :=
  let w := CellWord.width t
  BitVec.ofNat 16 (packNat 1 ((List.range 16).map fun l =>
    let ok := if w = 64 then valid.getD (l / 2) false
      else (List.range (32 / w)).all fun j => valid.getD (32 / w * l + j) false
    if ok then 1 else 0))

/-- The word of a type's elements and a lane mask. -/
def resultWord (t : Nat) (vals : List Nat) (mask : BitVec 16) : LinkWord :=
  dataWord (pack (CellWord.width t) vals) (mask.setWidth 32) (typeTag t)

/-- The type of a firing. -/
def Firing.ty (f : Firing) : Nat := f.w.ty.toNat

/-- The elements of an operand with the mask it contributes (R44). -/
def Firing.operand (f : Firing) (o : Operand) : Except CellStop (List Nat × BitVec 16) :=
  match f.read o with
  | .ok x => .ok (x.values f.ty, x.mask)
  | .error e => .error e

/-- The elements of sources A, B and C, an absent one as zeros, and the result's mask. -/
def Firing.operands (f : Firing) : Except CellStop (List Nat × List Nat × List Nat × BitVec 16) := do
  let a ← f.operand f.w.a
  let b ← f.operand f.w.b
  let c ← f.operand (cOperand f.op f.w)
  .ok (a.1, b.1, c.1, a.2 &&& b.2 &&& c.2)

/-- Apply a function to the elements of three lists. -/
def zip3 (g : Nat → Nat → Nat → Nat) : List Nat → List Nat → List Nat → List Nat
  | a :: as, b :: bs, c :: cs => g a b c :: zip3 g as bs cs
  | _, _, _ => []

/-- An element-wise instruction (R231, R232, R234). -/
def Firing.each (f : Firing) (g : Nat → Nat → Nat → Nat) : Except CellStop Effect := do
  let x ← f.operands
  .ok (f.write (resultWord f.ty (zip3 g x.1 x.2.1 x.2.2.1) x.2.2.2))

/-- Exact arithmetic on elements read as the type says; the result is narrowed by `narrow`. -/
def Firing.arith (f : Firing) (narrow : Int → Nat) (g : Int → Int → Int → Int) : Except CellStop Effect :=
  let w := CellWord.width f.ty
  let v := intOf w (signedTy f.ty)
  f.each fun a b c => narrow (g (v a) (v b) (v c))
/-- Arithmetic that wraps (R235). -/
def Firing.wrapping (f : Firing) (g : Int → Int → Int → Int) : Except CellStop Effect :=
  f.arith (wrapInt (CellWord.width f.ty)) g
/-- Arithmetic that saturates (R235). -/
def Firing.saturating (f : Firing) (g : Int → Int → Int → Int) : Except CellStop Effect :=
  f.arith (fun v => wrapInt (CellWord.width f.ty) (satInt (CellWord.width f.ty) (signedTy f.ty) v)) g

/-- Combine neighbours of a list. -/
def pairUp {α : Type} (g : α → α → α) : List α → List α
  | a :: b :: l => g a b :: pairUp g l
  | l => l
/-- The pairwise tree over a list whose length is a power of two (R51). -/
def treeFold {α : Type} (g : α → α → α) : Nat → List α → List α
  | 0, l => l
  | n + 1, l => treeFold g n (pairUp g l)
/-- The left fold's prefixes (R51). -/
def prefixes {α : Type} (g : α → α → α) : Option α → List α → List α
  | _, [] => []
  | none, x :: l => x :: prefixes g (some x) l
  | some s, x :: l => let y := g s x; y :: prefixes g (some y) l

end Sys2Proof.Machine
end

