-- ==== Sys2Proof/Machine/Buffer.lean ====
section
/-! DEFINITION. The buffer table: `BUF` instructions and the changes of an entry's state (R154-R156, R176). -/

namespace Sys2Proof.Machine

/-- A live feed's ring names this entry (R156). -/
def TravSlot.inRing (t : TravSlot) (h : Nat) : Bool :=
  t.kind = .feed && !t.done && (h + 128 - wbits t.control 6 0) % 128 < wbits t.control 29 26 + 1

/-- A freed-slot notice for an entry: the live ring that names it keeps it, others discard it (R156). -/
def State.notice (s : State) (p h : Nat) : State :=
  let note := fun (_ : Nat) (t : TravSlot) =>
    if t.inRing h && h ∉ t.notices then { t with notices := t.notices ++ [h] } else t
  s.onParcel p fun x => { x with travs := x.travs.each note }

/-- An entry becomes FREE: no fill of it is in shadow mode, and its feed bit says whether a live ring names it still
(R154, R155). -/
def emptyEntry (b : BitVec 128) (ring : Bool) : BitVec 128 := setF (setF b 63 62 0) 55 54 (if ring then 1 else 0)
/-- Whether a live ring of the parcel names an entry (R156). -/
def State.inLiveRing (s : State) (p h : Nat) : Bool := (s.parcel p).travs.any fun e => e.2.inRing h

/-- Whether a port entry is a read of a buffer entry that has not been made yet. -/
def PortEntry.readsBuffer (e : PortEntry) (h : Nat) : Bool :=
  match e.op with
  | .buffer g _ none _ _ => g.toNat = h
  | _ => false
/-- Whether a cell of the parcel has fired a read of a buffer entry that still waits in its port (R155, R260). -/
def State.readsWait (s : State) (p h : Nat) : Bool := (s.parcel p).cells.any fun e => e.2.port.any fun x => x.readsBuffer h

/-- The reads of a buffer entry that cells have fired are made: they complete before the entry is freed (R155, R260). -/
def State.makeReads (s : State) (p h : Nat) : State :=
  let now := fun (e : PortEntry) => match e.op with
    | .buffer g pa none tag free =>
      if g.toNat = h then { e with op := .buffer g pa (some (BitVec.ofNat 512 (Decode.leNat (s.homeRead pa 64)))) tag free }
      else e
    | _ => e
  if s.readsWait p h then
    s.onParcel p fun x => { x with cells := x.cells.each fun _ c => { c with port := c.port.map now } }
  else s

/-- DRAINING → FREE, with the notice it gives (R155, R156). -/
def State.freeEntry (s : State) (p h : Nat) : State :=
  ((s.makeReads p h).setBuffer p h (emptyEntry (s.buffer p h) (s.inLiveRing p h))).notice p h

/-- `BUF.SET`. The trap value of its `BUFFER_STATE` is the handle, as at `BUF.FREE` (R176, log 111). -/
def execBufSet (ra rb : Reg) (s : State) : Host.Outcome State Fault Refusal :=
  s.attempt (.bufSet ra rb) 2 do
    let a := s.reg ra
    let b := s.reg rb
    let base := wbits b 18 0
    let size := wbits b 38 20
    check (wbits a 63 7 = 0 && wbits b 63 39 = 0 && !wbit b 19) codeIllegal 0
    let h := a.toNat
    check (bufState (s.buffer s.here h) = 0) codeBufferState a
    check (base % 64 = 0 && size % 64 = 0 && size ≠ 0 && base + size ≤ 0x60000) codeIllegal 0
    modify fun t => t.setBuffer s.here h (setF (setF (t.buffer s.here h) 38 20 size) 18 0 base)
    proceed

/-- `BUF.FREE`: FULL or DRAINING becomes FREE, with its notice; it waits for the reads of the entry that cells have fired and
their ports have still to make, in the order of R253 (R155, R260). -/
def execBufFree (ra : Reg) (s : State) : Host.Outcome State Fault Refusal :=
  s.attempt (.bufFree ra) 2 do
    let a := s.reg ra
    check (wbits a 63 7 = 0) codeIllegal 0
    check (2 ≤ bufState (s.buffer s.here a.toNat)) codeBufferState a
    if s.readsWait s.here a.toNat then throw .hold
    modify fun t => t.freeEntry s.here a.toNat
    proceed

/-- `BUF.STAT`. -/
def execBufStat (rd ra : Reg) (s : State) : Host.Outcome State Fault Refusal :=
  s.attempt (.bufStat rd ra) 2 do
    let a := s.reg ra
    check (wbits a 63 7 = 0) codeIllegal 0
    finish rd ((s.buffer s.here a.toNat).setWidth 64)

end Sys2Proof.Machine
end

