-- ==== Sys2Proof/Machine/CellInt.lean ====
section
/-! DEFINITION. Cell instructions: integer arithmetic, shifts, logic, bit counts, bit fields, compare, select, moves
across lanes, reductions, dot products and predicate logic (R229-R246). -/

namespace Sys2Proof.Machine

/-! ### Integer arithmetic (R235) -/

/-- `IADD`. -/
def execIadd (w : CellWord) (s : State) : Host.Outcome State Fault Refusal :=
  .next (s.fire 0x00 w fun f => f.wrapping fun a b _ => a + b)
/-- `ISUB`. -/
def execIsub (w : CellWord) (s : State) : Host.Outcome State Fault Refusal :=
  .next (s.fire 0x01 w fun f => f.wrapping fun a b _ => a - b)
/-- `IADDS`. -/
def execIadds (w : CellWord) (s : State) : Host.Outcome State Fault Refusal :=
  .next (s.fire 0x02 w fun f => f.saturating fun a b _ => a + b)
/-- `ISUBS`. -/
def execIsubs (w : CellWord) (s : State) : Host.Outcome State Fault Refusal :=
  .next (s.fire 0x03 w fun f => f.saturating fun a b _ => a - b)
/-- `IMUL`. -/
def execImul (w : CellWord) (s : State) : Host.Outcome State Fault Refusal :=
  .next (s.fire 0x04 w fun f => f.wrapping fun a b _ => a * b)
/-- `IMULH`: the high half of the exact product. -/
def execImulh (w : CellWord) (s : State) : Host.Outcome State Fault Refusal :=
  .next (s.fire 0x05 w fun f => f.wrapping fun a b _ => a * b / 2 ^ CellWord.width f.ty)
/-- `IMAD`. -/
def execImad (w : CellWord) (s : State) : Host.Outcome State Fault Refusal :=
  .next (s.fire 0x06 w fun f => f.wrapping fun a b c => a * b + c)
/-- `IMIN`. -/
def execImin (w : CellWord) (s : State) : Host.Outcome State Fault Refusal :=
  .next (s.fire 0x07 w fun f => f.wrapping fun a b _ => min a b)
/-- `IMAX`. -/
def execImax (w : CellWord) (s : State) : Host.Outcome State Fault Refusal :=
  .next (s.fire 0x08 w fun f => f.wrapping fun a b _ => max a b)
/-- `IABS`. -/
def execIabs (w : CellWord) (s : State) : Host.Outcome State Fault Refusal :=
  .next (s.fire 0x09 w fun f => f.wrapping fun a _ _ => (a.natAbs : Int))
/-- `INEG`. -/
def execIneg (w : CellWord) (s : State) : Host.Outcome State Fault Refusal :=
  .next (s.fire 0x0A w fun f => f.wrapping fun a _ _ => -a)
/-- `IAVG`. -/
def execIavg (w : CellWord) (s : State) : Host.Outcome State Fault Refusal :=
  .next (s.fire 0x0B w fun f => f.wrapping fun a b _ => (a + b + 1) / 2)

/-! ### Shifts and logic (R236) -/

/-- Logical right shift. -/
def shiftRight (w a n : Nat) : Nat := if w ≤ n then 0 else a / 2 ^ n
/-- Left shift within a width. -/
def shiftLeft (w a n : Nat) : Nat := if w ≤ n then 0 else a * 2 ^ n % 2 ^ w
/-- Arithmetic right shift. -/
def shiftArith (w a n : Nat) : Nat := wrapInt w (intOf w true a / 2 ^ min n w)
/-- Rotate left. -/
def rotateLeft (w a n : Nat) : Nat := (a * 2 ^ (n % w) + a / 2 ^ (w - n % w)) % 2 ^ w
/-- Complement within a width. -/
def complement (w a : Nat) : Nat := 2 ^ w - 1 - a

/-- `SHL`. -/
def execShl (w : CellWord) (s : State) : Host.Outcome State Fault Refusal :=
  .next (s.fire 0x0C w fun f => f.each fun a b _ => shiftLeft (CellWord.width f.ty) a b)
/-- `SHR`. -/
def execShr (w : CellWord) (s : State) : Host.Outcome State Fault Refusal :=
  .next (s.fire 0x0D w fun f => f.each fun a b _ => shiftRight (CellWord.width f.ty) a b)
/-- `SAR`. -/
def execSar (w : CellWord) (s : State) : Host.Outcome State Fault Refusal :=
  .next (s.fire 0x0E w fun f => f.each fun a b _ => shiftArith (CellWord.width f.ty) a b)
/-- `ROT`. -/
def execRot (w : CellWord) (s : State) : Host.Outcome State Fault Refusal :=
  .next (s.fire 0x0F w fun f => f.each fun a b _ => rotateLeft (CellWord.width f.ty) a b)
/-- `AND` of a cell. -/
def execCellAnd (w : CellWord) (s : State) : Host.Outcome State Fault Refusal :=
  .next (s.fire 0x10 w fun f => f.each fun a b _ => a &&& b)
/-- `OR` of a cell. -/
def execCellOr (w : CellWord) (s : State) : Host.Outcome State Fault Refusal :=
  .next (s.fire 0x11 w fun f => f.each fun a b _ => a ||| b)
/-- `XOR` of a cell. -/
def execCellXor (w : CellWord) (s : State) : Host.Outcome State Fault Refusal :=
  .next (s.fire 0x12 w fun f => f.each fun a b _ => a ^^^ b)
/-- `ANDN`. -/
def execAndn (w : CellWord) (s : State) : Host.Outcome State Fault Refusal :=
  .next (s.fire 0x13 w fun f => f.each fun a b _ => a &&& complement (CellWord.width f.ty) b)
/-- `NOT`. -/
def execNot (w : CellWord) (s : State) : Host.Outcome State Fault Refusal :=
  .next (s.fire 0x14 w fun f => f.each fun a _ _ => complement (CellWord.width f.ty) a)

/-! ### Bit counts and bit fields (R54, R237, R238) -/

/-- `FFS` of a value. -/
def ffsNat (w x : Nat) : Nat := if x = 0 then 0 else ctzNat w x + 1
/-- The lowest `w` bits in reverse order. -/
def reverseBits : Nat → Nat → Nat
  | 0, _ => 0
  | w + 1, x => x % 2 * 2 ^ w + reverseBits w (x / 2)
/-- `BFX` of a value. -/
def extractField (w : Nat) (signed : Bool) (pos width a : Nat) : Nat :=
  wrapInt w (intOf width signed (a / 2 ^ pos % 2 ^ width))
/-- `BFI` of two values. -/
def insertField (pos width a b : Nat) : Nat :=
  b % 2 ^ pos + a % 2 ^ width * 2 ^ pos + b / 2 ^ (pos + width) * 2 ^ (pos + width)

/-- `CLZ` of a cell. -/
def execCellClz (w : CellWord) (s : State) : Host.Outcome State Fault Refusal :=
  .next (s.fire 0x15 w fun f => f.each fun a _ _ => clzNat (CellWord.width f.ty) a)
/-- `CTZ` of a cell. -/
def execCellCtz (w : CellWord) (s : State) : Host.Outcome State Fault Refusal :=
  .next (s.fire 0x16 w fun f => f.each fun a _ _ => ctzNat (CellWord.width f.ty) a)
/-- `FFS`. -/
def execFfs (w : CellWord) (s : State) : Host.Outcome State Fault Refusal :=
  .next (s.fire 0x17 w fun f => f.each fun a _ _ => ffsNat (CellWord.width f.ty) a)
/-- `POPC` of a cell. -/
def execCellPopc (w : CellWord) (s : State) : Host.Outcome State Fault Refusal :=
  .next (s.fire 0x18 w fun f => f.each fun a _ _ => popcNat (CellWord.width f.ty) a)
/-- `BREV`. -/
def execBrev (w : CellWord) (s : State) : Host.Outcome State Fault Refusal :=
  .next (s.fire 0x19 w fun f => f.each fun a _ _ => reverseBits (CellWord.width f.ty) a)
/-- `BFX`. -/
def execBfx (w : CellWord) (s : State) : Host.Outcome State Fault Refusal :=
  .next (s.fire 0x1A w fun f => f.each fun a _ _ =>
    extractField (CellWord.width f.ty) (signedTy f.ty) (w.cf 0 6) (w.cf 6 6 + 1) a)
/-- `BFI`. -/
def execBfi (w : CellWord) (s : State) : Host.Outcome State Fault Refusal :=
  .next (s.fire 0x1B w fun f => f.each fun a b _ => insertField (w.cf 0 6) (w.cf 6 6 + 1) a b)

/-! ### Compare, select and move (R239-R242) -/

/-- A condition of `ICMP` on two values. -/
def conditionHolds (cond : Nat) (a b : Int) : Bool :=
  match cond with
  | 0 => a = b
  | 1 => a ≠ b
  | 2 => a < b
  | 3 => a ≤ b
  | 4 => b < a
  | _ => b ≤ a

/-- The result of a compare: a word of all ones and zeros, or a predicate over the valid elements (R239). -/
def Firing.judge (f : Firing) (all : Bool) (mask : BitVec 16) (res : List Bool) : Effect :=
  match f.w.dst with
  | .pred _ =>
    let valid := elemMask f.ty mask
    let b := if all then (res.zip valid).all fun e => !e.2 || e.1 else (res.zip valid).any fun e => e.2 && e.1
    { f.quiet with pred := some b }
  | _ => f.write (resultWord f.ty (res.map fun b => if b then 2 ^ CellWord.width f.ty - 1 else 0) mask)

/-- `ICMP`. -/
def execIcmp (w : CellWord) (s : State) : Host.Outcome State Fault Refusal :=
  .next (s.fire 0x40 w fun f => do
    let x ← f.operands
    let v := intOf (CellWord.width f.ty) (signedTy f.ty)
    .ok (f.judge (w.cf 3 1 = 1) x.2.2.2 (List.zipWith (fun a b => conditionHolds (w.cf 0 3) (v a) (v b)) x.1 x.2.1)))

/-- `SEL`. -/
def execSel (w : CellWord) (s : State) : Host.Outcome State Fault Refusal :=
  .next (s.fire 0x41 w fun f => f.each fun a b c => if c ≠ 0 then a else b)

/-- The word of a source as a move passes it on; a register's word gets no other sideband (R44, R241). -/
def Source.link (x : Source) : LinkWord :=
  match x.word with
  | some l => l
  | none => dataWord x.payload x.scale x.tag
/-- A copied word for a destination; no token enters a lane register (R241). -/
def Firing.move (f : Firing) (x : LinkWord) : Except CellStop Effect :=
  match f.w.dst with
  | .reg _ => if x.token then .error cellIllegal else .ok (f.write x)
  | _ => .ok (f.write x)

/-- `MOV`. -/
def execMov (w : CellWord) (s : State) : Host.Outcome State Fault Refusal :=
  .next (s.fire 0x42 w fun f => do
    let x ← f.read w.a
    f.move x.link)

/-- `MOVC`. -/
def execMovc (w : CellWord) (s : State) : Host.Outcome State Fault Refusal :=
  .next (s.fire 0x43 w fun f =>
    let v := wrapInt (CellWord.width f.ty) (intOf 12 (signedTy f.ty) w.c.toNat)
    .ok (f.write (resultWord f.ty (List.replicate (CellWord.count f.ty) v) 0xFFFF)))

/-! ### Elements across lanes (R243) -/

/-- A word whose elements carry their validity (R232). -/
def Firing.carry (f : Firing) (l : List (Nat × Bool)) : Effect :=
  f.write (resultWord f.ty (l.map (·.1)) (lanesValid f.ty (l.map (·.2))))
/-- The elements of an operand with their validity, a register's own included (R44, R232). -/
def Firing.marked (f : Firing) (o : Operand) : Except CellStop (List (Nat × Bool)) := do
  let x ← f.read o
  .ok ((x.values f.ty).zip (elemMask f.ty x.ownMask))

/-- `BCST`. -/
def execBcst (w : CellWord) (s : State) : Host.Outcome State Fault Refusal :=
  .next (s.fire 0x44 w fun f => do
    let a ← f.marked w.a
    .ok (f.carry (List.replicate (CellWord.count f.ty) (a.getD (w.cf 0 6) (0, false)))))
/-- `LPRM`. -/
def execLprm (w : CellWord) (s : State) : Host.Outcome State Fault Refusal :=
  .next (s.fire 0x45 w fun f => do
    let a ← f.marked w.a
    let b ← f.marked w.b
    .ok (f.carry (b.map fun i =>
      let e := a.getD (i.1 % CellWord.count f.ty) (0, false)
      (e.1, e.2 && i.2))))
/-- `LSHF`. -/
def execLshf (w : CellWord) (s : State) : Host.Outcome State Fault Refusal :=
  .next (s.fire 0x46 w fun f => do
    let a ← f.marked w.a
    let b ← f.marked w.b
    .ok (f.carry (((a ++ b).drop (w.cf 0 7)).take (CellWord.count f.ty))))

/-! ### Reductions and scans (R51, R244) -/

/-- The identity of a combining operation. -/
def reduceIdentity (op w : Nat) (signed : Bool) : Int :=
  match op with
  | 2 => if signed then 2 ^ (w - 1) - 1 else 2 ^ w - 1
  | 3 => if signed then -(2 ^ (w - 1)) else 0
  | 4 => if signed then -1 else 2 ^ w - 1
  | _ => 0
/-- Combine two values; sums are exact until they are written. -/
def reduceStep (op w : Nat) (signed : Bool) (x y : Int) : Int :=
  match op with
  | 0 | 1 => x + y
  | 2 => min x y
  | 3 => max x y
  | 4 => intOf w signed (wrapInt w x &&& wrapInt w y)
  | 5 => intOf w signed (wrapInt w x ||| wrapInt w y)
  | _ => intOf w signed (wrapInt w x ^^^ wrapInt w y)
/-- The written result: `.adds` saturates once, the rest wrap. -/
def reduceWrite (op w : Nat) (signed : Bool) (v : Int) : Nat :=
  wrapInt w (if op = 1 then satInt w signed v else v)
/-- The values that a reduction combines, an invalid one as the identity. -/
def Firing.reduced (f : Firing) (op : Nat) : Except CellStop (List Int × List Bool) := do
  let a ← f.marked f.w.a
  let w := CellWord.width f.ty
  .ok (a.map fun e => if e.2 then intOf w (signedTy f.ty) e.1 else reduceIdentity op w (signedTy f.ty), a.map (·.2))

/-- `REDI`. -/
def execRedi (w : CellWord) (s : State) : Host.Outcome State Fault Refusal :=
  .next (s.fire 0x47 w fun f => do
    let op := w.cf 0 3
    let wd := CellWord.width f.ty
    let x ← f.reduced op
    let v := (treeFold (reduceStep op wd (signedTy f.ty)) 6 x.1).headD 0
    let r := reduceWrite op wd (signedTy f.ty) v
    .ok (f.write (resultWord f.ty [r] (if wd = 64 then 3 else 1))))
/-- `SCNI`. -/
def execScni (w : CellWord) (s : State) : Host.Outcome State Fault Refusal :=
  .next (s.fire 0x48 w fun f => do
    let op := w.cf 0 3
    let wd := CellWord.width f.ty
    let x ← f.reduced op
    let l := prefixes (reduceStep op wd (signedTy f.ty)) none x.1
    .ok (f.carry ((l.map (reduceWrite op wd (signedTy f.ty))).zip x.2)))

/-! ### Dot products and predicate logic (R53, R245, R246) -/

/-- A dot product of each lane's elements with an accumulator, saturated once. -/
def Firing.dot (f : Firing) : Except CellStop Effect := do
  let a ← f.operand f.w.a
  let b ← f.operand f.w.b
  let c ← f.read (cOperand f.op f.w)
  let w := CellWord.width f.ty
  let sg := signedTy f.ty
  let prods := List.zipWith (fun x y => intOf w sg x * intOf w sg y) a.1 b.1
  let res := (List.range 16).map fun l =>
    let t := ((prods.drop (32 / w * l)).take (32 / w)).foldl (· + ·) (intOf 32 sg (laneOf c.payload l).toNat)
    wrapInt 32 (satInt 32 sg t)
  .ok (f.write (resultWord 0 res (a.2 &&& b.2 &&& c.mask)))

/-- `DOT4`. -/
def execDot4 (w : CellWord) (s : State) : Host.Outcome State Fault Refusal :=
  .next (s.fire 0x49 w fun f => f.dot)
/-- `DOT2`. -/
def execDot2 (w : CellWord) (s : State) : Host.Outcome State Fault Refusal :=
  .next (s.fire 0x4A w fun f => f.dot)
/-- The value of a predicate source; none reads as 0. -/
def Firing.predicate (f : Firing) (o : Operand) : Nat :=
  match o with
  | .pred k => if f.c.k.getLsbD k.toNat then 1 else 0
  | _ => 0
/-- `KOP`. -/
def execKop (w : CellWord) (s : State) : Host.Outcome State Fault Refusal :=
  .next (s.fire 0x4B w fun f =>
    .ok { f.quiet with pred := some (w.c.getLsbD (2 * f.predicate w.a + f.predicate w.b)) })

end Sys2Proof.Machine
end

