-- ==== Sys2Proof/Machine/CellFloat.lean ====
section
/-! DEFINITION. Cell instructions: floating arithmetic, functions, reductions, the k best, and conversions
(R261-R275). -/

namespace Sys2Proof.Machine

/-! ### Modes, traps and flags of a firing (R180, R196, R263) -/

/-- The float format of a type (R212). -/
def floatFmt (t : Nat) : FFmt :=
  match t with
  | 2 => fmtF32 | 7 => fmtF16 | 8 => fmtBf16 | 11 => fmtE4m3 | 12 => fmtE5m2 | 13 => fmtE3m2 | _ => fmtE2m3
/-- Whether a type 0-14 is a float type. -/
def isFloat (t : Nat) : Bool := t ∈ [2, 7, 8, 11, 12, 13, 14]

/-- The context's mode word. -/
def Firing.modeWord (f : Firing) : BitVec 32 := f.c.modeWord f.t.ctx
def Firing.ftz (f : Firing) : Bool := f.modeWord.getLsbD 26
def Firing.sat (f : Firing) : Bool := f.modeWord.getLsbD 25
/-- The flags whose traps are enabled; a saturating context never traps on overflow (R180). -/
def Firing.traps (f : Firing) : FFlags :=
  (if f.modeWord.getLsbD 31 then flagInvalid else 0) ||| (if f.modeWord.getLsbD 30 then flagDivzero else 0) |||
  (if f.modeWord.getLsbD 29 && !f.sat then flagOverflow else 0)

/-- End a firing whose lanes raised flags: the precise fault of the first enabled exception, or the effect with its
sticky flags (R196, R263). -/
def Firing.conclude (f : Firing) (marks : List (BitVec 16 × FFlags)) (gen : BitVec 32) (e : Effect) :
    Except CellStop Effect :=
  let all := marks.foldl (fun (a : FFlags) m => a ||| m.2) 0
  let bad := all &&& f.traps
  if bad = 0 then .ok { e with flags := e.flags ||| all, gen := gen }
  else
    let lanes := marks.foldl (fun (a : BitVec 16) m => if m.2 &&& f.traps ≠ 0 then a ||| m.1 else a) 0
    let code := if bad &&& flagInvalid ≠ 0 then codeFpInvalid else if bad &&& flagDivzero ≠ 0 then codeFpDivzero
      else codeFpOverflow
    .error ⟨code, lanes.setWidth 64, lanes, false⟩

/-- The lane of an element of a type. -/
def laneBit (t i : Nat) : BitVec 16 := BitVec.ofNat 16 (2 ^ (i * CellWord.width t / 32))
/-- Flags of a type's elements, in order, with their lanes. -/
def elemMarks (t : Nat) (fl : List FFlags) : List (BitVec 16 × FFlags) := fl.zipIdx.map fun e => (laneBit t e.2, e.1)

/-- Round elements in ascending order; an invalid one sets no flag and steps no generator (R44, R264);
the spec does not say which generator value its `.rs` rounding uses, so that value is free (log 8). -/
def roundAll : List (Bool × (BitVec 32 → Rounded)) → BitVec 32 → List Nat × List FFlags × BitVec 32
  | [], g => ([], [], g)
  | (ok, k) :: l, g =>
    let r := k (if ok then g else Config.invalidGen g l.length)
    let (cs, fs, g1) := roundAll l (if ok then r.gen else g)
    (r.code :: cs, (if ok then r.flags else 0) :: fs, g1)

/-- An element-wise result: one rounding per element (R263). -/
def Firing.emit (f : Firing) (mask : BitVec 16) (ks : List (BitVec 32 → Rounded)) : Except CellStop Effect :=
  let r := roundAll ((elemMask f.ty mask).zip ks) f.c.gen
  f.conclude (elemMarks f.ty r.2.1) r.2.2 (f.write (resultWord f.ty r.1 mask))

/-- Write an outcome in the firing's type and modes. -/
def Firing.round (f : Firing) (p : Pre) (gen : BitVec 32) : Rounded :=
  (floatFmt f.ty).write f.w.rnd f.ftz f.sat gen p
/-- A code of the firing's type, flushed where the context asks for it (R34). -/
def Firing.value (f : Firing) (x : Nat) : FVal := (floatFmt f.ty).flush f.ftz ((floatFmt f.ty).decode x)

/-- An element-wise float instruction of up to three sources. -/
def Firing.float (f : Firing) (g : FVal → FVal → FVal → Pre) : Except CellStop Effect := do
  let x ← f.operands
  let v := f.value
  let pres := (x.1.zip (x.2.1.zip x.2.2.1)).map fun e => g (v e.1) (v e.2.1) (v e.2.2)
  f.emit x.2.2.2 (pres.map fun p gen => f.round p gen)

/-- A value as an outcome. -/
def FVal.pre : FVal → Pre
  | .nan sg => .nan (if sg then flagInvalid else 0)
  | .inf n => .inf n 0
  | .fin n m e => .val ⟨n, m, e, false⟩
def FVal.sign : FVal → Bool
  | .nan _ => false
  | .inf n => n
  | .fin n _ _ => n

/-! ### Arithmetic (R265-R268) -/

/-- `FADD`. -/
def execFadd (w : CellWord) (s : State) : Host.Outcome State Fault Refusal :=
  .next (s.fire 0x80 w fun f => f.float fun a b _ => fAdd w.rnd a b)
/-- `FSUB`. -/
def execFsub (w : CellWord) (s : State) : Host.Outcome State Fault Refusal :=
  .next (s.fire 0x81 w fun f => f.float fun a b _ => fAdd w.rnd a b.negate)
/-- `FMUL`. -/
def execFmul (w : CellWord) (s : State) : Host.Outcome State Fault Refusal :=
  .next (s.fire 0x82 w fun f => f.float fun a b _ => fMulVal a b)
/-- `FFMA`. -/
def execFfma (w : CellWord) (s : State) : Host.Outcome State Fault Refusal :=
  .next (s.fire 0x83 w fun f => f.float fun a b c => fFma w.rnd a b c)

/-- The smaller or larger of two values; −0 is less than +0 (R266). -/
def fPick (larger : Bool) (a b : FVal) : Pre :=
  if a.isNan || b.isNan then .nan (sigFlag a ||| sigFlag b)
  else
    let less := fLess a b || (fEqual a b && a.sign && !b.sign)
    (if less = larger then b else a).pre

/-- `FMIN`. -/
def execFmin (w : CellWord) (s : State) : Host.Outcome State Fault Refusal :=
  .next (s.fire 0x84 w fun f => f.float fun a b _ => fPick false a b)
/-- `FMAX`. -/
def execFmax (w : CellWord) (s : State) : Host.Outcome State Fault Refusal :=
  .next (s.fire 0x85 w fun f => f.float fun a b _ => fPick true a b)
/-- `FABS`. -/
def execFabs (w : CellWord) (s : State) : Host.Outcome State Fault Refusal :=
  .next (s.fire 0x86 w fun f => f.float fun a _ _ => (if a.sign then a.negate else a).pre)
/-- `FNEG`. -/
def execFneg (w : CellWord) (s : State) : Host.Outcome State Fault Refusal :=
  .next (s.fire 0x87 w fun f => f.float fun a _ _ => a.negate.pre)

/-- A condition of `FCMP` (R268). -/
def floatCondition (cond : Nat) (a b : FVal) : Bool :=
  match cond with
  | 0 => fEqual a b
  | 1 => !fEqual a b
  | 2 => fLess a b
  | 3 => fLess a b || fEqual a b
  | 4 => fLess b a
  | 5 => fLess b a || fEqual a b
  | 6 => a.isNan || b.isNan
  | _ => !a.isNan && !b.isNan
/-- The flag of `FCMP`: the ordered conditions raise invalid for any NaN. -/
def conditionFlag (cond : Nat) (a b : FVal) : FFlags :=
  if 2 ≤ cond && cond ≤ 5 && (a.isNan || b.isNan) then flagInvalid else sigFlag a ||| sigFlag b

/-- `FCMP`. -/
def execFcmp (w : CellWord) (s : State) : Host.Outcome State Fault Refusal :=
  .next (s.fire 0x88 w fun f => do
    let x ← f.operands
    let ps := (x.1.zip x.2.1).map fun e => (f.value e.1, f.value e.2)
    let mask := x.2.2.2
    let flags := ((elemMask f.ty mask).zip ps).map fun e =>
      if e.1 then conditionFlag (w.cf 0 3) e.2.1 e.2.2 else 0
    f.conclude (elemMarks f.ty flags) f.c.gen
      (f.judge (w.cf 3 1 = 1) mask (ps.map fun e => floatCondition (w.cf 0 3) e.1 e.2)))

/-! ### Functions of one source (R269-R271) -/

/-- 1/x. -/
def fRcp : FVal → Pre
  | .nan sg => (FVal.nan sg).pre
  | .inf n => .val ⟨n, 0, 0, false⟩
  | .fin n m e => if m = 0 then .inf n flagDivzero else .val (rcpExact n m e)
/-- 1/√x. -/
def fRsq : FVal → Pre
  | .nan sg => (FVal.nan sg).pre
  | .inf n => if n then .nan flagInvalid else .val ⟨false, 0, 0, false⟩
  | .fin n m e => if m = 0 then .inf n flagDivzero else if n then .nan flagInvalid else .val (rsqrtExact m e)
/-- √x. -/
def fSqrt : FVal → Pre
  | .nan sg => (FVal.nan sg).pre
  | .inf n => if n then .nan flagInvalid else .inf false 0
  | .fin n m e => if m = 0 then .val ⟨n, 0, 0, false⟩ else if n then .nan flagInvalid else .val (sqrtExact m e)
/-- 2^x. -/
def fExp2 : FVal → Pre
  | .nan sg => (FVal.nan sg).pre
  | .inf n => if n then .val ⟨false, 0, 0, false⟩ else .inf false 0
  | .fin n m e => .val (exp2Exact n m e)
/-- log₂ x. -/
def fLog2 : FVal → Pre
  | .nan sg => (FVal.nan sg).pre
  | .inf n => if n then .nan flagInvalid else .inf false 0
  | .fin n m e => if m = 0 then .inf true flagDivzero else if n then .nan flagInvalid else .val (log2Exact m e)
/-- tanh x. -/
def fTanh : FVal → Pre
  | .nan sg => (FVal.nan sg).pre
  | .inf n => .val ⟨n, 1, 0, false⟩
  | .fin n m e => .val (tanhExact n m e)
/-- 1/(1 + e^−x). -/
def fSigm : FVal → Pre
  | .nan sg => (FVal.nan sg).pre
  | .inf n => .val ⟨false, if n then 0 else 1, 0, false⟩
  | .fin n m e => .val (sigmExact n m e)
/-- sin(πx). -/
def fSinp : FVal → Pre
  | .nan sg => (FVal.nan sg).pre
  | .inf _ => .nan flagInvalid
  | .fin n m e => .val (sinpExact n m e)

/-- `FRCP`. -/
def execFrcp (w : CellWord) (s : State) : Host.Outcome State Fault Refusal :=
  .next (s.fire 0x89 w fun f => f.float fun a _ _ => fRcp a)
/-- `FRSQ`. -/
def execFrsq (w : CellWord) (s : State) : Host.Outcome State Fault Refusal :=
  .next (s.fire 0x8A w fun f => f.float fun a _ _ => fRsq a)
/-- `FSQRT`. -/
def execFsqrt (w : CellWord) (s : State) : Host.Outcome State Fault Refusal :=
  .next (s.fire 0x8B w fun f => f.float fun a _ _ => fSqrt a)
/-- `FEXP2`. -/
def execFexp2 (w : CellWord) (s : State) : Host.Outcome State Fault Refusal :=
  .next (s.fire 0x8C w fun f => f.float fun a _ _ => fExp2 a)
/-- `FLOG2`. -/
def execFlog2 (w : CellWord) (s : State) : Host.Outcome State Fault Refusal :=
  .next (s.fire 0x8D w fun f => f.float fun a _ _ => fLog2 a)
/-- `FTANH`. -/
def execFtanh (w : CellWord) (s : State) : Host.Outcome State Fault Refusal :=
  .next (s.fire 0x8E w fun f => f.float fun a _ _ => fTanh a)
/-- `FSIGM`. -/
def execFsigm (w : CellWord) (s : State) : Host.Outcome State Fault Refusal :=
  .next (s.fire 0x8F w fun f => f.float fun a _ _ => fSigm a)
/-- `FSINP`. -/
def execFsinp (w : CellWord) (s : State) : Host.Outcome State Fault Refusal :=
  .next (s.fire 0x90 w fun f => f.float fun a _ _ => fSinp a)

/-- A value rounded to an integral one in its own format: no inexact, overflow or underflow (R270). -/
def Firing.integral (f : Firing) (v : FVal) (gen : BitVec 32) : Rounded :=
  match v with
  | .fin n m e =>
    let r := roundInt f.w.rnd gen ⟨n, m, e, false⟩
    ⟨((floatFmt f.ty).finish .rne false gen (.val ⟨n, r.1.natAbs, 0, false⟩)).code, 0, r.2.2⟩
  | _ => (floatFmt f.ty).finish .rne false gen v.pre

/-- `FRND`. -/
def execFrnd (w : CellWord) (s : State) : Host.Outcome State Fault Refusal :=
  .next (s.fire 0x91 w fun f => do
    let x ← f.operands
    f.emit x.2.2.2 (x.1.map fun a gen => f.integral (f.value a) gen))

/-- The class bit of a value in a format (R271). -/
def FFmt.classOf (fm : FFmt) (v : FVal) : Nat :=
  match v with
  | .nan sg => if sg then 0 else 1
  | .inf n => if n then 2 else 9
  | .fin n m _ => if m = 0 then (if n then 5 else 6) else if m < 2 ^ fm.mw then (if n then 4 else 7)
    else if n then 3 else 8

/-- `FCLS`. -/
def execFcls (w : CellWord) (s : State) : Host.Outcome State Fault Refusal :=
  .next (s.fire 0x92 w fun f => do
    let x ← f.operands
    let fm := floatFmt f.ty
    .ok (f.judge (w.c.getLsbD 10) x.2.2.2 (x.1.map fun a => w.c.getLsbD (fm.classOf (fm.decode a)))))

/-! ### Reductions and scans (R51, R272) -/

/-- One combination of two codes. -/
def Firing.combine (f : Firing) (op : Nat) (gen : BitVec 32) (a b : Nat) : Rounded :=
  f.round (match op with
    | 0 => fAdd f.w.rnd (f.value a) (f.value b)
    | _ => fPick (op = 2) (f.value a) (f.value b)) gen
/-- The code of an operation's identity. -/
def FFmt.identity (fm : FFmt) (op : Nat) : Nat :=
  match op with
  | 0 => fm.signBit true
  | 1 => fm.infCode false
  | _ => fm.infCode true
/-- The codes that a reduction combines. -/
def Firing.combined (f : Firing) (op : Nat) : Except CellStop (List (Nat × Bool)) := do
  let a ← f.marked f.w.a
  .ok (a.map fun e => (if e.2 then e.1 else (floatFmt f.ty).identity op, e.2))

/-- One level of the tree, in ascending element order. -/
def floatLevel (k : BitVec 32 → Nat → Nat → Rounded) : List Nat → BitVec 32 → FFlags → List Nat × BitVec 32 × FFlags
  | a :: b :: l, g, fl =>
    let r := k g a b
    let x := floatLevel k l r.gen (fl ||| r.flags)
    (r.code :: x.1, x.2)
  | l, g, fl => (l, g, fl)
/-- `n` levels of the tree, from the leaves upward. -/
def floatTree (k : BitVec 32 → Nat → Nat → Rounded) : Nat → List Nat → BitVec 32 → FFlags →
    List Nat × BitVec 32 × FFlags
  | 0, l, g, fl => (l, g, fl)
  | n + 1, l, g, fl => let x := floatLevel k l g fl; floatTree k n x.1 x.2.1 x.2.2
/-- The left fold's rounded prefixes after a first value. -/
def floatScan (k : BitVec 32 → Nat → Nat → Rounded) : Nat → List Nat → BitVec 32 → List Rounded × BitVec 32
  | _, [], g => ([], g)
  | s, a :: l, g =>
    let r := k g s a
    let x := floatScan k r.code l r.gen
    (r :: x.1, x.2)

/-- `REDF`. -/
def execRedf (w : CellWord) (s : State) : Host.Outcome State Fault Refusal :=
  .next (s.fire 0x93 w fun f => do
    let op := w.cf 0 2
    let a ← f.combined op
    let r := floatTree (f.combine op) (if f.ty = 2 then 4 else 5) (a.map (·.1)) f.c.gen 0
    f.conclude [(1, r.2.2)] r.2.1 (f.write (resultWord f.ty [r.1.headD 0] 1)))
/-- `SCNF`. -/
def execScnf (w : CellWord) (s : State) : Host.Outcome State Fault Refusal :=
  .next (s.fire 0x94 w fun f => do
    let op := w.cf 0 2
    let a ← f.combined op
    match a with
    | [] => .ok f.quiet
    | e :: l =>
      let first := (floatFmt f.ty).finish .rne f.ftz f.c.gen (f.value e.1).pre
      let r := floatScan (f.combine op) first.code (l.map (·.1)) f.c.gen
      let out := first :: r.1
      f.conclude (elemMarks f.ty (out.map (·.flags))) r.2
        (f.carry ((out.map (·.code)).zip (a.map (·.2)))))

/-! ### The k best (R273) -/

/-- A candidate: its value's key in rising order, value and index. -/
structure Candidate where
  key : Int
  value : Nat
  index : Nat
  deriving DecidableEq, Repr, Inhabited

/-- The order of a value among the values of a type; −0 ranks below +0. A NaN that an external write has put into a
slot has no stated place: its key is free (log 8). -/
def Firing.rank (f : Firing) (l v : Nat) : Int :=
  if f.ty = 2 then
    if ((floatFmt 2).decode v).isNan then (Config.freeWord (f.s.tick * 16 + l)).toInt
    else if 2 ^ 31 ≤ v then -((v - 2 ^ 31 : Nat) : Int) - 1 else v
  else intOf 32 (f.ty = 0) v

/-- Whether `x` stands before `y`: the better value, then the lower index. -/
def Candidate.before (smallest : Bool) (x y : Candidate) : Bool :=
  if x.key = y.key then x.index < y.index
  else if smallest then x.key < y.key else y.key < x.key
/-- Insert behind every candidate that does not come after it. -/
def Candidate.insert (smallest : Bool) (x : Candidate) : List Candidate → List Candidate
  | [] => [x]
  | y :: l => if x.before smallest y then x :: y :: l else y :: Candidate.insert smallest x l

/-- `TOPK`: the filled slots of the destination are candidates and operands as well (R34, R273). -/
def execTopk (w : CellWord) (s : State) : Host.Outcome State Fault Refusal :=
  .next (s.fire 0x95 w fun f => do
    let a ← f.read w.a
    let b ← f.read w.b
    let k := w.cf 0 3 + 1
    let d := match w.dst with
      | .reg i => f.c.v[i.toNat]
      | _ => LaneReg.reset
    let dm := laneMask d.tag d.scale
    let mask := a.ownMask &&& b.ownMask
    let flush := fun (v : Nat) => if f.ty = 2 && f.ftz && v % 2 ^ 31 < 2 ^ 23 then v / 2 ^ 31 * 2 ^ 31 else v
    let old := if w.c.getLsbD 4 then [] else
      ((List.range k).filter fun i => dm.getLsbD i && dm.getLsbD (8 + i)).map fun i =>
        let v := flush (laneOf d.payload i).toNat
        (⟨f.rank i v, v, (laneOf d.payload (8 + i)).toNat⟩ : Candidate)
    let lanes := ((List.range 16).filter fun l => mask.getLsbD l).map fun l => (l, (a.values f.ty).getD l 0)
    let isNan := fun (v : Nat) => f.ty = 2 && ((floatFmt 2).decode v).isNan
    let new := (lanes.filter fun e => !isNan e.2).map fun e =>
      let v := flush e.2
      (⟨f.rank e.1 v, v, (laneOf b.payload e.1).toNat⟩ : Candidate)
    let best := ((old ++ new).foldl (fun l x => Candidate.insert (w.c.getLsbD 3) x l) []).take k
    let vals := best.map (·.value)
    let word := vals ++ List.replicate (8 - vals.length) 0 ++ best.map (·.index)
    let valid : BitVec 16 := BitVec.ofNat 16 ((2 ^ best.length - 1) * 257)
    let marks := lanes.map fun e => (laneBit 2 e.1, if f.ty = 2 then sigFlag ((floatFmt 2).decode e.2) else 0)
    f.conclude marks f.c.gen (f.write (dataWord (pack 32 word) (valid.setWidth 32) 0)))

/-! ### Conversion (R37, R274, R275) -/

/-- One element converted from a type to another. -/
def convert (st dt : Nat) (mode : Rounding) (ftz sat : Bool) (x : Nat) (gen : BitVec 32) : Rounded :=
  let sw := CellWord.width st
  let dw := CellWord.width dt
  if isFloat st then
    if isFloat dt then convFloat (floatFmt st) (floatFmt dt) mode ftz sat gen x
    else toInt mode dw (signedTy dt) gen ((floatFmt st).flush ftz ((floatFmt st).decode x))
  else
    let v := intOf sw (signedTy st) x
    if isFloat dt then (floatFmt dt).write mode ftz sat gen (.val (exactInt v))
    else ⟨wrapInt dw (satInt dw (signedTy dt) v), 0, gen⟩

/-- `CVT`. -/
def execCvt (w : CellWord) (s : State) : Host.Outcome State Fault Refusal :=
  .next (s.fire 0x96 w fun f => do
    let st := w.cf 0 4
    let p := w.cf 4 3
    let ns := CellWord.count st
    let nd := CellWord.count f.ty
    let a ← f.read w.a
    let b ← f.marked w.b
    let xs := (a.values st).zip (elemMask st a.ownMask)
    let conv := fun (e : Nat × Bool) => (e.2, convert st f.ty w.rnd f.ftz f.sat e.1)
    let take := fun (e : Nat × Bool) => (w.b != .none && e.2, fun (g : BitVec 32) => (⟨e.1, 0, g⟩ : Rounded))
    let items :=
      if nd ≤ ns then ((xs.drop (p * nd)).take nd).map conv
      else (b.take (p * ns)).map take ++ xs.map conv ++ (b.drop ((p + 1) * ns)).map take
    let r := roundAll items f.c.gen
    f.conclude (elemMarks f.ty r.2.1) r.2.2 (f.carry (r.1.zip (items.map (·.1)))))

end Sys2Proof.Machine
end

