-- ==== Sys2Proof/Machine/Traverse.lean ====
section
/-! DEFINITION. The Traverse engine: requests, shadow writes and publishes, standing feeds, and ordered reductions
(R146-R159, R163, R168, R169, R177, R178, R419). -/

namespace Sys2Proof.Machine

/-! ### A request's fields (R147, R148) -/

def TravSlot.handle (t : TravSlot) : Nat := wbits t.control 6 0
def TravSlot.toTensor (t : TravSlot) : Bool := t.kind ≠ .xst && wbit t.control 7
def TravSlot.fromBuffer (t : TravSlot) : Bool := t.kind ≠ .xst && wbit t.control 8
def TravSlot.station (t : TravSlot) : Nat := wbits t.control 17 12
def TravSlot.counted (t : TravSlot) : Bool := t.kind ≠ .xst && wbit t.control 18
def TravSlot.shadow (t : TravSlot) : Bool := t.kind ≠ .xst && wbit t.control 19
def TravSlot.publish (t : TravSlot) : Bool := t.kind ≠ .xst && wbit t.control 20
def TravSlot.scope (t : TravSlot) : Scope := scopeOfCode (wbits t.control 24 21)
def TravSlot.ringLen (t : TravSlot) : Nat := wbits t.control 29 26 + 1
def TravSlot.starts (t : TravSlot) : Word := wordOf (slice t.desc 0 8)
def TravSlot.counts (t : TravSlot) : Word := wordOf (slice t.desc 8 8)
def TravSlot.dstarts (t : TravSlot) : Word := wordOf (slice t.desc 16 8)
def TravSlot.srcIndex (t : TravSlot) : Nat := field t.desc 24 2
def TravSlot.dstIndex (t : TravSlot) : Nat := field t.desc 26 2
def TravSlot.opWord (t : TravSlot) : Nat := field t.desc 28 4
def TravSlot.pageMode (t : TravSlot) : Bool := t.kind = .gath && bits t.opWord 10 10 = 1
/-- A request that fills buffer entries. -/
def TravSlot.fills (t : TravSlot) : Bool := t.kind ≠ .xst && !t.toTensor

def State.trav (s : State) (p slot : Nat) : Option TravSlot := (s.parcel p).travs.find slot
def State.setTrav (s : State) (p slot : Nat) (t : TravSlot) : State :=
  s.onParcel p fun x => { x with travs := x.travs.put slot t }
def State.dropTrav (s : State) (p slot : Nat) : State := s.onParcel p fun x => { x with travs := x.travs.drop slot }
/-- Change a request in its slot. -/
def State.onTrav (s : State) (p slot : Nat) (f : TravSlot → TravSlot) : State :=
  match s.trav p slot with
  | some t => s.setTrav p slot (f t)
  | none => s

/-- A request names a buffer entry in its fault packet (R152). -/
def TravSlot.entry? (t : TravSlot) : Option Nat :=
  if t.kind ≠ .xst && (t.fills || t.fromBuffer) then some t.handle else none
/-- How a request's signals name it: its slot, its handle with a valid bit, and its place in the order of issue (R152). -/
def TravSlot.mark (t : TravSlot) (slot : Nat) : Nat :=
  slot + 2 ^ 6 * (match t.entry? with | some h => h + 2 ^ 7 | none => 0) + 2 ^ 14 * t.serial
/-- What an arrival of a Graticule command or an encoder says of its sender: its slot, and the target of an overlay that it leaves
open (R331, R355). -/
def hiddenMark (slot : Nat) (target : Option Nat) : Nat := slot + 2 ^ 6 * target.elim 0 (· + 1)
def hiddenTarget (n : Nat) : Option Nat := if n < 2 ^ 6 then none else some (n / 2 ^ 6 - 1)
/-- The slot, the place in the order of issue and the handle that a request's mark names. -/
def markSlot (n : Nat) : Nat := n % 2 ^ 6
def markSerial (n : Nat) : Nat := n / 2 ^ 14
def markHandle (n : Nat) : Option Nat := if n / 2 ^ 13 % 2 = 1 then some (n / 2 ^ 6 % 2 ^ 7) else none

/-- The entry of a legend index of the parcel's kernel. -/
def State.legendAt (s : State) (p idx : Nat) : Legend := ((s.regionOf p).bind fun x => x.2.entry idx).getD 0

/-- Signals and exchange writes of a request that have not reached their receiver. -/
def State.signalsOf (s : State) (p slot : Nat) (t : TravSlot) : Bool :=
  s.signals.any fun g => match g with
    | .arrive _ _ x | .bytes _ _ _ x | .write _ _ _ _ x => x = (p, 1, t.mark slot)
    | .marker _ _ _ _ _ => false
/-- Tiles of a reduction that wait or are held; a skip marker brings no bytes (R169). -/
def State.tilesOf (s : State) (p slot : Nat) : Bool :=
  let mine := fun (v : RedTile) => v.parcel = p && v.slot = slot && !v.skip
  s.tiles.any mine || s.reds.any fun d => d.held.any mine
/-- A slot is taken until its request completes, or has stopped and its bytes in flight have landed (R146). -/
def State.takenTrav (s : State) (p slot : Nat) : Bool :=
  match s.trav p slot with
  | some t => !t.stopped || s.signalsOf p slot t || s.tilesOf p slot
  | none => false
/-- The lowest free slot (R146). -/
def State.freeTrav (s : State) (p : Nat) : Option Nat := (List.range 64).find? fun n => !s.takenTrav p n
/-- How many slots are in use. -/
def State.travCount (s : State) (p : Nat) : Nat := ((List.range 64).filter fun n => s.takenTrav p n).length

/-! ### Shadow writes (R78, R79) -/

def Overlay.isFor (o : Overlay) (p : Nat) (buffer : Bool) (index : Nat) : Bool :=
  o.parcel = p && o.buffer = buffer && o.index = index
/-- Open a target's overlay, where it has none. -/
def State.openOverlay (s : State) (p : Nat) (buffer : Bool) (index : Nat) : State :=
  if s.overlays.any fun o => o.isFor p buffer index then s
  else { s with overlays := s.overlays ++ [⟨p, buffer, index, none, [], []⟩] }
/-- An open overlay of a tensor takes the entry of its scale with it (R355). -/
def State.overlayScale (s : State) (p index : Nat) (scale : Option Nat) : State :=
  { s with overlays := s.overlays.map fun o => if o.isFor p false index then { o with scale := o.scale.or scale } else o }
/-- Whether another requester of the region has an open overlay of the target (R79). -/
def State.overlayTaken (s : State) (p : Nat) (buffer : Bool) (index : Nat) : Bool :=
  s.overlays.any fun o => o.buffer = buffer && (o.index = index || o.scale = some index) && o.parcel ≠ p &&
    !buffer && (s.regionOf o.parcel).map (·.1) = (s.regionOf p).map (·.1)
/-- The virtual addresses of the sectors of `n` bytes at a physical address that has a virtual one. -/
def sectorVas (pa : Nat) (va : Word) (n : Nat) : List (Nat × Word) :=
  (sectorsOf pa n).map fun k => (k, va + BitVec.ofNat 64 (32 * k) - BitVec.ofNat 64 pa)
/-- Put bytes into a target's overlay, which opens where the target has none (R78). -/
def State.hide (s : State) (p : Nat) (buffer : Bool) (index pa : Nat) (va : Option Word) (data : List Byte) : State :=
  let s1 := s.openOverlay p buffer index
  let fill := fun (o : Overlay) =>
    if o.isFor p buffer index then
      { o with bytes := (data.zipIdx).foldl (fun (b : Table Byte) e => b.put (pa + e.2) e.1) o.bytes
               vas := match va with
                 | some a => (sectorVas pa a data.length).foldl (fun (b : Table Word) e => b.put e.1 e.2) o.vas
                 | none => o.vas }
    else o
  { s1 with overlays := s1.overlays.map fill }
/-- Bytes with those of a target's overlay in their place. -/
def State.behind (s : State) (p : Nat) (buffer : Bool) (index pa : Nat) (data : List Byte) : List Byte :=
  match s.overlays.find? fun o => o.isFor p buffer index with
  | none => data
  | some o => (data.zipIdx).map fun e => (o.bytes.find (pa + e.2)).getD e.1
def State.discardOverlay (s : State) (p : Nat) (buffer : Bool) (index : Nat) : State :=
  { s with overlays := s.overlays.filter fun o => !o.isFor p buffer index }

/-- Hide bytes at a translated address: they are checked as a write would be (R78, R79). -/
def hideAt (u : Writer) (p : Nat) (sc : Scope) (buffer : Bool) (index : Nat) (m : Mapping) (data : List Byte) (value : Word) : Act Unit := do
  let s ← get
  match writeAt u .engine sc m data value s with
  | .error .hold s1 => do
    set s1
    throw .hold
  | .error e _ => throw e
  | .ok _ _ => modify fun t => t.hide p buffer index m.pa (some value) data

/-- Write bytes in shadow mode. -/
def shadowSpan (u : Writer) (p : Nat) (sc : Scope) (buffer : Bool) (index : Nat) : Nat → Word → List Byte → Act Unit
  | 0, _, _ => pure ()
  | k + 1, va, data => do
    let n := min data.length (4096 - va.toNat % 4096)
    let m ← translate u va .write
    hideAt u p sc buffer index m (data.take n) va
    if data.length ≤ n then pure ()
    else shadowSpan u p sc buffer index k (va + BitVec.ofNat 64 n) (data.drop n)

/-- The sectors of a target's overlay, with their virtual addresses; bytes of the scratchpad that a request names by an offset
have none (log 8). -/
def State.hiddenSectors (s : State) (p : Nat) (buffer : Bool) (index : Nat) : List (Nat × Word) :=
  match s.overlays.find? fun o => o.isFor p buffer index with
  | none => []
  | some o =>
    let ks := o.bytes.foldl (fun (l : List Nat) (e : Nat × Byte) => if e.1 / 32 ∈ l then l else l ++ [e.1 / 32]) []
    ks.map fun k => (k, o.vas.look (Config.freeWord s.tick) k)

/-- A publish reaches bytes that a segment reserves as any write would (R396). -/
def reserveAll (u : Writer) : List (Nat × Word) → Act Unit
  | [] => pure ()
  | (k, va) :: ks => do
    reserveCheck u (32 * k) 32 va
    reserveAll u ks
/-- The check of the publish of a target's overlay by a unit (R392, R396). -/
def publishCheck (u : Writer) (p : Nat) (buffer : Bool) (index : Nat) : Act Unit := do
  let s ← get
  reserveAll u (s.hiddenSectors p buffer index)

/-- Publish an overlay: its bytes become visible at once, and each sector's version grows once (R62, R78). -/
def State.showOverlay (s : State) (p : Nat) (buffer : Bool) (index : Nat) : State :=
  match s.overlays.find? fun o => o.isFor p buffer index with
  | none => s
  | some o =>
    let s1 := { s with mem := o.bytes.foldl (fun (m : Memory) (e : Nat × Byte) => m.set (s.resolve e.1) e.2) s.mem }
    let sectors := o.bytes.foldl (fun (l : List Nat) (e : Nat × Byte) =>
      let k := s.resolve e.1 / 32
      if k ∈ l || !versioned e.1 then l else l ++ [k]) []
    (sectors.foldl (fun t k => t.bump k 1) s1).discardOverlay p buffer index

/-! ### Ending a request (R152, R169) -/

/-- The entries of a feed whose ring lives no more (R154, R156). -/
def State.endRing (s : State) (p : Nat) (t : TravSlot) : State :=
  if t.kind ≠ .feed then s else
  (List.range t.ringLen).foldl (fun st i =>
    let h := (t.handle + i) % 128
    st.setBuffer p h (setF (st.buffer p h) 54 54 0)) s

/-- The ring or single entry that a request fills goes back to FREE, and its ring ends (R155). -/
def State.releaseEntries (s : State) (p slot : Nat) (t : TravSlot) : State :=
  if !t.fills then s else
  ((List.range (if t.kind = .feed then t.ringLen else 1)).foldl (fun st i =>
    let h := (t.handle + i) % 128
    let b := st.buffer p h
    if bufState b = 1 && bufSlot b = slot then st.setBuffer p h (emptyEntry b false) else st) s).endRing p t

/-! ### Where a unit reads and writes (R148, R149, R419) -/

/-- A unit's place in its request: the word's row number and its index in the row. -/
def unitRow (e : Legend) (counts : Word) (k : Nat) : Nat × Nat :=
  let rw := max 1 (rowWords e counts)
  (k / rw, k % rw)

/-- An index element of a gather or scatter: `k` is the pattern's index in dimension 1. -/
def readIndex (p : Nat) (t : TravSlot) (k : Nat) : Act Nat := do
  let ix ← legendOf p (t.opWord % 1024)
  let bs ← readRow (.engine p) p t.scope ix (0, 0, 0) (k * lgBits ix) (lgBits ix / 8)
  pure (Decode.leNat bs)

/-- A row index of a gather or scatter inside a tensor, or the fault with `k` (R152). -/
def rowIndex (p : Nat) (t : TravSlot) (e : Legend) (k : Nat) : Act Nat := do
  let i ← readIndex p t k
  check (i < lgDim e 1) codeIllegal (BitVec.ofNat 64 k)
  pure i

/-- The dimension-1 index that a row number stands for. -/
def rowK (t : TravSlot) (r : Nat) : Nat := patStart t.starts 1 + r % patCount t.counts 1

/-- The source row of a row number. -/
def srcRow (p : Nat) (t : TravSlot) (e : Legend) (r : Nat) : Act Row := do
  let row := patRow t.starts t.counts r
  if t.kind = .gath then do
    let i ← rowIndex p t e (rowK t r)
    pure (i, row.2)
  else pure row
/-- The destination row of a row number. -/
def dstRow (p : Nat) (t : TravSlot) (e : Legend) (r : Nat) : Act Row := do
  let row := patRow t.dstarts t.counts r
  if t.kind = .scat then do
    let i ← rowIndex p t e (rowK t r)
    pure (i, row.2)
  else pure row

/-- The page that the walker has translated for a request, or translates now, once (R419). -/
def gatherPage (p : Nat) (t : TravSlot) (i : Nat) : Act Mapping := do
  let page : Word := BitVec.ofNat 64 (i * 4096)
  check (i < 2 ^ 52) codeAbsent page
  let s ← get
  match (s.parcel p).travs.find? fun e => e.2.serial = t.serial with
  | none => translate (.engine p) page .read
  | some (slot, x) => match x.pages.find? fun e => e.1 = i * 4096 with
    | some (_, pa, leaf) => pure ⟨pa, leaf, 12⟩
    | none => do
      let m ← translate (.engine p) page .read
      modify fun st => st.onTrav p slot fun y => { y with pages := (i * 4096, m.pa, m.leaf) :: y.pages }
      pure m

/-- The walker runs ahead of the copy: the pages of the rows from one on, where they translate (R419). -/
def State.walkAhead (s : State) (p : Nat) (t : TravSlot) : Nat → Nat → State
  | 0, _ => s
  | n + 1, r =>
    match (do gatherPage p t (← readIndex p t (rowK t r)) : Act Mapping) s with
    | .ok _ s1 => s1.walkAhead p t n (r + 1)
    | .error _ _ => s

/-- Where the elements of a row stand in its page, from a bit of the row (R419). -/
def pageOffset (base : Word) (t : TravSlot) (e : Legend) (r bit : Nat) : Int :=
  ((base.toNat % 4096 + bit / 8 : Nat) : Int) + rowOffset e (0, (patRow t.starts t.counts r).2)

/-- Source bytes of a row from a bit of the row (R148, R419). -/
def readSource (p : Nat) (t : TravSlot) (e : Legend) (r bit n : Nat) : Act (List Byte) :=
  if t.pageMode then do
    let i ← readIndex p t (rowK t r)
    let b ← baseOf p e
    let off := pageOffset b t e r bit
    let va := BitVec.ofNat 64 (i * 4096) + BitVec.ofInt 64 off
    let m ← withXa va (gatherPage p t i)
    readAt (.engine p) t.scope { m with pa := ((m.pa : Int) + off).toNat } n va
  else do
    let row ← srcRow p t e r
    readRow (.engine p) p t.scope e row bit n

/-- The scratchpad address of a byte of a buffer entry. -/
def State.entryAddress (s : State) (p h off : Nat) : Nat := windowBase + p * 0x400000 + bufBase (s.buffer p h) + off

/-- Bytes of a buffer entry or the scratchpad, as a request reads them (R396, log 8). -/
def readPad (p pa n : Nat) : Act (List Byte) := do
  let s ← get
  reserveCheck (.engine p) pa n (Config.freeWord s.tick)
  pure (s.homeRead pa n)

/-- The payload of word `k` of a request, as 64 bytes; a copy to a tensor takes the bytes of a row as they stand, its padding
bits included (R148, R342). The 32-bit value of a fill starts anew with each word (log 114). -/
def readUnit (p : Nat) (t : TravSlot) (k : Nat) : Act (List Byte) := do
  let s ← get
  if t.kind = .fill then pure ((List.range 64).map fun i => BitVec.ofNat 8 (t.opWord / 2 ^ (8 * (i % 4))))
  else if t.fromBuffer then readPad p (s.entryAddress p t.handle (64 * k)) 64
  else do
    let e ← legendOf p t.srcIndex
    let (r, i) := unitRow e t.counts k
    let (bit, bytes, n) := wordPlace e t.starts t.counts i
    let bs ← readSource p t e r bit bytes
    pure (Decode.leBytes 64 (if t.toTensor then Decode.leNat bs else Decode.leNat bs % 2 ^ n))

/-- The entry and byte that word `k` of a filling request goes to: a feed's tiles go round its ring (R156). -/
def State.fillPlace (s : State) (p : Nat) (t : TravSlot) (k : Nat) : Nat × Nat :=
  if t.kind = .feed then
    let words := max 1 (bufSize (s.buffer p t.handle) / 64)
    ((t.handle + k / words % t.ringLen) % 128, 64 * (k % words))
  else (t.handle, 64 * k)

/-- Write a payload at word `k` of the destination; how many bytes have landed. -/
def writeUnit (p : Nat) (t : TravSlot) (k : Nat) (data : List Byte) : Act Nat := do
  let s ← get
  if !t.toTensor then do
    let (h, off) := s.fillPlace p t k
    let pa := s.entryAddress p h off
    reserveCheck (.engine p) pa 64 (Config.freeWord s.tick)
    if t.shadow then modify fun st => st.hide p true h pa none data
    else modify fun st => st.homeWrite pa data
    pure 64
  else do
    let e ← legendOf p t.dstIndex
    let (r, i) := unitRow e t.counts k
    let row ← dstRow p t e r
    let (bit, bytes, _) := wordPlace e t.dstarts t.counts i
    let b ← baseOf p e
    let va := rowAddress b e row bit
    if t.shadow then shadowSpan (.engine p) p t.scope false t.dstIndex (spanFuel bytes) va (data.take bytes)
    else writeSpan (.engine p) t.scope (spanFuel bytes) va (data.take bytes)
    pure bytes

/-! ### Reductions (R168, R169) -/

/-- Bytes of a destination row of a reduction. -/
def redRowBytes (e : Legend) (t : TravSlot) : Nat := patCount t.counts 0 * lgBits e / 8
/-- The address of a destination row. -/
def redRowAddress (base : Word) (e : Legend) (t : TravSlot) (r : Nat) : Word :=
  rowAddress base e (patRow t.dstarts t.counts r) (elementBit e (patStart t.dstarts 0))

/-- The 64-byte blocks that a reduction contributes to, each once, in the order of its rows. -/
def redBlocks (base : Word) (e : Legend) (t : TravSlot) : List Nat :=
  (List.range (patRows t.counts)).foldl (fun l r =>
    let a := (redRowAddress base e t r).toNat
    let n := (a + redRowBytes e t - 1) / 64 + 1 - a / 64
    (List.range n).foldl (fun l i => if a / 64 + i ∈ l then l else l ++ [a / 64 + i]) l) []

/-- The source bytes of a row of a reduction, from an offset in the row. -/
def redSource (p : Nat) (t : TravSlot) (e : Legend) (r off n : Nat) : Act (List Byte) := do
  if t.fromBuffer then do
    let s ← get
    readPad p (s.entryAddress p t.handle (64 * rowWords e t.counts * r + off)) n
  else readSource p t e r (elementBit e (patStart t.starts 0) + 8 * off) n

/-- The elements of the rows of a list that fall into a block: offset in the block and bytes. -/
def redItems (p : Nat) (t : TravSlot) (se de : Legend) (base : Word) (block : Nat) :
    List Nat → Act (List (Nat × List Byte))
  | [] => pure []
  | r :: rs => do
    let a := (redRowAddress base de t r).toNat
    let w := lgBits de / 8
    let lo := max a (64 * block)
    let hi := min (a + redRowBytes de t) (64 * block + 64)
    let rest ← redItems p t se de base block rs
    if hi ≤ lo then pure rest else do
      let bs ← redSource p t se r (lo - a) (hi - lo)
      pure ((List.range ((hi - lo) / w)).map (fun j => (lo - 64 * block + w * j, slice bs (w * j) w)) ++ rest)

/-- The tile of a reduction's block, or its skip marker. -/
def redTile (p slot : Nat) (t : TravSlot) (block : Nat) (skip : Bool) : Act RedTile := do
  let e ← legendOf p t.dstIndex
  let base ← baseOf p e
  let m ← translate (.engine p) (BitVec.ofNat 64 (64 * block)) .write
  let items ← if skip then pure [] else redItems p t e e base block (List.range (patRows t.counts))
  let first := (items.head?.map (·.1)).getD 0
  pure { pa := m.pa, leaf := m.leaf, va := BitVec.ofNat 64 (64 * block + first), order := bits t.opWord 15 8,
         count := bits t.opWord 23 16 + 1, op := bits t.opWord 3 0, fmt := lgFormat e, rnd := bits t.opWord 7 5,
         ordered := bits t.opWord 4 4 = 0, items := items, skip := skip, ftz := t.ftz, scope := t.scope,
         parcel := p, slot := slot, shadow := if t.shadow then some t.dstIndex else none }

/-- The skip markers of the blocks that a reduction has not yet contributed to (R169). -/
def State.sendSkips (s : State) (p slot : Nat) (t : TravSlot) : State :=
  if t.kind ≠ .red || bits t.opWord 4 4 = 1 then s else
  let e := s.legendAt p t.dstIndex
  match (s.regionOf p).bind fun x => s.legendBase x.1 x.2 e with
  | none => s
  | some base => ((redBlocks base e t).drop t.pos).foldl (fun st b =>
      match redTile p slot t b true st with
      | .ok v st1 => { st1 with tiles := st1.tiles ++ [v] }
      | .error _ _ => st) s

/-- The entries of a target in a request's fault identity: kind, handle, source and destination (R415, log 113). -/
def TravSlot.identity (t : TravSlot) : TravKind × Nat × Nat × Nat :=
  (t.kind, t.handle, if t.kind = .xst then field t.desc 0 8 else t.srcIndex, if t.kind = .xst then wbits t.control 20 0 else t.dstIndex)

/-- A request ends without completing: its entry goes back, its overlay and its publish are discarded, its skip markers go
out, and its slot stays taken while bytes of it are in flight (R146, R152, R169). Exchange writes not yet sent are counted no
more (log 112). -/
def State.stopTrav (s : State) (p slot : Nat) : State :=
  match s.trav p slot with
  | none => s
  | some t =>
    if t.stopped then s else
    let s1 := (s.releaseEntries p slot t).setTrav p slot
      { t with stopped := true, done := true, total := t.pos, follow := none, notices := [] }
    let s2 : State := { s1 with publishes := s1.publishes.filter fun v => !(v.parcel = p && v.request = some t.serial) }
    let s3 := if !t.shadow then s2
      else if t.toTensor then s2.discardOverlay p false t.dstIndex
      else (List.range t.ringLen).foldl (fun st i => st.discardOverlay p true ((t.handle + i) % 128)) s2
    let s4 := if t.kind ≠ .xst then s3 else s3.onParcel p fun x =>
      { x with exch := { x.exch with sent := x.exch.sent.alter 0 (field t.desc 8 8) (· - (t.total - t.pos)) } }
    s4.sendSkips p slot t

/-- A request ends with a fault that its core is told of (R152, R415). -/
def State.faultTrav (s : State) (p slot : Nat) (code : Byte) (value : Word) : State :=
  match s.trav p slot with
  | none => s
  | some t =>
    if t.stopped then s else
    ((s.stopTrav p slot).onParcel p fun x => { x with trvFault := t.identity :: x.trvFault.erase t.identity }).report
      p code 1 slot t.entry? value

/-- The rounding of a code in an operation word. -/
def modeOf (code : Nat) : Rounding := (Decode.roundingOf code).getD .rne

/-- Combine two elements of a legend format (R168). -/
def redCombine (op fmt : Nat) (rnd : Rounding) (ftz : Bool) (a b : Nat) : Nat × FFlags :=
  match lgFmt fmt with
  | some f =>
    let x := f.flush ftz (f.decode a)
    let y := f.flush ftz (f.decode b)
    let r := f.finish rnd ftz 0 (match op with
      | 0 => fAdd rnd x y
      | _ => fPick (op = 2) x y)
    (r.code, r.flags)
  | none =>
    let w := formatBits fmt
    let sg := 4 ≤ fmt
    let v := match op with
      | 0 => (a + b) % 2 ^ w
      | 1 => if intOf w sg b < intOf w sg a then b else a
      | 2 => if intOf w sg a < intOf w sg b then b else a
      | 3 => a &&& b
      | 4 => a ||| b
      | _ => a ^^^ b
    (v, 0)

/-- Hide runs of bytes of a block, which stands at a virtual address, in an overlay. -/
def hideRuns (p : Nat) (sc : Scope) (index : Nat) (m : Mapping) (data : List Byte) (value : Word) :
    List (Nat × Nat × Bool) → Act Unit
  | [] => pure ()
  | (off, n, _) :: rs => do
    hideAt (.engine p) p sc false index { m with pa := m.pa + off } (slice data off n) (value + BitVec.ofNat 64 off)
    hideRuns p sc index m data value rs

/-- Combine a tile into its destination at the home of its scope, or, in shadow mode, into the overlay of its destination as it
stands over the visible bytes; the flags it raises (R78, R168). -/
def combineTile (v : RedTile) : Act FFlags := do
  let u := Writer.engine v.parcel
  let m : Mapping := ⟨v.pa, v.leaf, 12⟩
  let seen ← readHome u v.scope m 64 v.va
  let s ← get
  let old := match v.shadow with
    | some index => s.behind v.parcel false index v.pa seen
    | none => seen
  let step := fun (x : List Byte × FFlags) (e : Nat × List Byte) =>
    let r := redCombine v.op v.fmt (modeOf v.rnd) v.ftz (field x.1 e.1 e.2.length) (Decode.leNat e.2)
    (patch x.1 e.1 (Decode.leBytes e.2.length r.1), x.2 ||| r.2)
  let new := v.items.foldl step (old, 0)
  let touched := fun (i : Nat) => v.items.any fun e => e.1 ≤ i && i < e.1 + e.2.length
  match v.shadow with
  | some index => hideRuns v.parcel v.scope index m new.1 (v.va &&& ~~~(63 : Word)) (gapRuns v.pa 64 touched)
  | none => writeRunsAt u .engine v.scope m new.1 v.va true (gapRuns v.pa 64 touched)
  pure new.2

/-- Bytes that a request has landed are subtracted from its station (R147, R161). -/
def State.landed (s : State) (p slot : Nat) (t : TravSlot) (n : Nat) : State :=
  if t.counted then { s with signals := s.signals ++ [.bytes p t.station n (p, 1, t.mark slot)] } else s

/-- Combine a tile whose turn it is, or pass its marker; not taken while a resident segment that holds the bytes
spills (R396). -/
def State.takeTile (s : State) (v : RedTile) : Bool × State :=
  if v.skip then (true, s) else
  match combineTile v s with
  | .ok fl s1 =>
    let s2 := if v.parcel = strayParcel then s1
      else s1.onParcel v.parcel fun x => { x with trvFlags := x.trvFlags ||| fl }
    (true, match s2.trav v.parcel v.slot with
      | some t => s2.landed v.parcel v.slot t (v.items.foldl (fun n e => n + e.2.length) 0)
      | none => s2)
  | .error (.fault c x) _ => (true, s.faultTrav v.parcel v.slot c x)
  | .error .hold s1 => (false, s1)

/-- Take the held tiles whose turn has come, at most `n` of them; one that cannot be taken yet reaches the home
again. -/
def State.drainHome (s : State) (pa : Nat) : Nat → State
  | 0 => s
  | n + 1 =>
    match s.reds.find? fun d => d.pa = pa with
    | none => s
    | some d =>
      match d.held.find? fun v => v.order = d.next with
      | none => s
      | some v =>
        let (taken, t) := s.takeTile v
        let d1 : RedHome := { d with held := d.held.erase v, next := if taken then (v.order + 1) % d.count else d.next }
        let keep := !(taken && d1.next = 0 && d1.held.isEmpty)
        let t1 : State := { t with reds := t.reds.filterMap fun x =>
          if x.pa = pa then (if keep then some d1 else none) else some x }
        if taken then t1.drainHome pa n else { t1 with tiles := t1.tiles ++ [v] }

/-- What a home does with the tile or marker at place `k` on its way. The mode that R169 compares is the rounding: a tile of
arrival mode is combined as it arrives whatever the state of its word (R168, R169, log 129). -/
def State.meetTile (s : State) (k : Nat) : State :=
  match s.tiles[k]? with
  | none => s
  | some v =>
    let away : State := { s with tiles := s.tiles.eraseIdx k }
    if !v.ordered then
      let (taken, t) := s.takeTile v
      if taken then { t with tiles := t.tiles.eraseIdx k } else t
    else
      let d := (s.reds.find? fun d => d.pa = v.pa).getD ⟨v.pa, 0, v.count, v.op, v.fmt, v.rnd, []⟩
      if d.count ≠ v.count || d.op ≠ v.op || d.fmt ≠ v.fmt || d.rnd ≠ v.rnd then
        if v.skip then away else away.faultTrav v.parcel v.slot codeIllegal v.va
      else if v.order ≠ d.next && 16 ≤ d.held.length then s
      else
        let d1 : RedHome := { d with held := d.held ++ [v] }
        ({ away with reds := d1 :: away.reds.filter fun x => x.pa ≠ v.pa } : State).drainHome v.pa 18

/-! ### Order among the requests of a core (R153) -/

/-- The 64-byte blocks of physical memory that a virtual span touches, where it translates. -/
def State.blocksAt (s : State) (p : Nat) (va : Word) (n : Nat) : List Nat :=
  let first := va.toNat / 64
  (List.range ((va.toNat + (n - 1)) / 64 + 1 - first)).filterMap fun k =>
    match translate (.engine p) (BitVec.ofNat 64 (64 * (first + k))) .read s with
    | .ok m _ => some (m.pa / 64)
    | .error _ _ => none

/-- The blocks of bytes of a row of a tensor from a bit on. -/
def State.rowBlocks (s : State) (p : Nat) (e : Legend) (row : Row) (bit n : Nat) : List Nat :=
  match (s.regionOf p).bind fun y => s.legendBase y.1 y.2 e with
  | some b => s.blocksAt p (rowAddress b e row bit) n
  | none => []
/-- The blocks that the index element of a row is read from. -/
def State.indexBlocks (s : State) (p : Nat) (t : TravSlot) (r : Nat) : List Nat :=
  let ix := s.legendAt p (t.opWord % 1024)
  s.rowBlocks p ix (0, 0, 0) (rowK t r * lgBits ix) (lgBits ix / 8)
/-- The blocks that source bytes of a row are read from. -/
def State.sourceBlocks (s : State) (p : Nat) (t : TravSlot) (e : Legend) (r bit n : Nat) : List Nat :=
  (if t.kind = .gath then s.indexBlocks p t r else []) ++
  (if t.pageMode then
    match (do
      let i ← readIndex p t (rowK t r)
      let b ← baseOf p e
      let m ← gatherPage p t i
      pure ((m.pa : Int) + pageOffset b t e r bit).toNat : Act Nat) s with
    | .ok pa _ => [pa / 64, (pa + n - 1) / 64]
    | .error _ _ => []
  else match srcRow p t e r s with
    | .ok row _ => s.rowBlocks p e row bit n
    | .error _ _ => [])
/-- The blocks that the tile of a reduction is made of. -/
def State.tileSources (s : State) (p : Nat) (t : TravSlot) (se de : Legend) (base : Word) (block : Nat) : List Nat :=
  (List.range (patRows t.counts)).flatMap fun r =>
    let a := (redRowAddress base de t r).toNat
    let lo := max a (64 * block)
    let hi := min (a + redRowBytes de t) (64 * block + 64)
    if hi ≤ lo then []
    else if t.fromBuffer then
      let pa := s.entryAddress p t.handle (64 * rowWords se t.counts * r + (lo - a))
      [pa / 64, (pa + (hi - lo) - 1) / 64]
    else s.sourceBlocks p t se r (elementBit se (patStart t.starts 0) + 8 * (lo - a)) (hi - lo)

/-- The block of an exchange offset of a parcel: the parcel's own requests reach the visible half, others' the shadow half. -/
def exchangeBlock (d : Nat) (own : Bool) (off : Nat) : Nat :=
  (windowBase + d * 0x400000 + (if own then 0x60000 else 0x70000) + off) / 64
/-- The blocks that exchange writes of a core's earlier requests are on their way to (R153). -/
def State.exchangeBusy (s : State) (p serial : Nat) : List Nat :=
  s.signals.flatMap fun g => match g with
    | .write d runs _ _ x =>
      if x.1 = p && x.2.1 = 1 && markSerial x.2.2 < serial then runs.map fun r => exchangeBlock d false r.1 else []
    | _ => []

/-- The blocks that a unit reads or writes (R153). -/
def State.unitBlocks (s : State) (p : Nat) (t : TravSlot) (k : Nat) : List Nat :=
  let de := s.legendAt p t.dstIndex
  match t.kind with
  | .xst =>
    let d := field t.desc 8 8 / 4
    [(windowBase + p * 0x400000 + field t.desc 0 8 + 32 * k) / 64,
     exchangeBlock d (d = p) (32 * (wbits t.control 20 10 + k))]
  | .red =>
    match (s.regionOf p).bind fun y => s.legendBase y.1 y.2 de with
    | some b => ((redBlocks b de t)[k]?.map fun x =>
        s.blocksAt p (BitVec.ofNat 64 (64 * x)) 64 ++ s.tileSources p t (s.legendAt p t.srcIndex) de b x).getD []
    | none => []
  | _ =>
    let se := s.legendAt p t.srcIndex
    (if t.kind = .fill || t.fromBuffer then [] else
      let (r, i) := unitRow se t.counts k
      let (bit, bytes, _) := wordPlace se t.starts t.counts i
      s.sourceBlocks p t se r bit bytes) ++
    (if t.toTensor then
      let (r, i) := unitRow de t.counts k
      let (bit, bytes, _) := wordPlace de t.dstarts t.counts i
      (if t.kind = .scat then s.indexBlocks p t r else []) ++
      (match dstRow p t de r s with
       | .ok row _ => s.rowBlocks p de row bit bytes
       | .error _ _ => [])
    else let h := s.fillPlace p t k; [s.entryAddress p h.1 h.2 / 64]) ++
    (if t.fromBuffer then [s.entryAddress p t.handle (64 * k) / 64] else [])

/-- The tile of a feed that its next word belongs to has started: its entry is FILLING for it (R156). -/
def State.tileStarted (s : State) (p slot : Nat) (t : TravSlot) : Bool :=
  let b := s.buffer p (s.fillPlace p t t.pos).1
  bufState b = 1 && bufSlot b = slot

/-- A feed halts at its next tile while its region is pre-empted (R453). -/
def State.feedHalted (s : State) (p : Nat) (t : TravSlot) : Bool :=
  s.pausing p && t.pos % max 1 (bufSize (s.buffer p t.handle) / 64) = 0

/-- Whether an earlier request of the core holds a unit back: one that has not sent all it has started, or a
reduction tile or an exchange write on its way to a block the unit touches (R153). -/
def State.heldBack (s : State) (p slot : Nat) (t : TravSlot) : Bool :=
  ((s.parcel p).travs.any fun (e : Nat × TravSlot) => e.2.serial < t.serial && e.2.pos < e.2.total &&
    (e.2.kind ≠ .feed || s.tileStarted p e.1 e.2)) ||
  (let mine := fun (v : RedTile) => v.parcel = p && v.slot ≠ slot
   let busy := (((s.tiles ++ s.reds.flatMap (·.held)).filter fun v => mine v && !v.skip).map fun v => v.pa / 64) ++
     s.exchangeBusy p t.serial
   !busy.isEmpty && (s.unitBlocks p t t.pos).any fun b => b ∈ busy)

/-! ### Issue (R146-R151) -/

/-- Whether a pattern lies in a tensor and keeps to whole words; dimension 1 is not judged where an index replaces it
(R148, R151). -/
def spanOk (e : Legend) (starts counts : Word) (indexed : Bool) : Bool :=
  let s := patStart starts 0
  let c := patCount counts 0
  ((List.range 4).all fun d => (indexed && d = 1) || patStart starts d + patCount counts d ≤ lgDim e d) &&
  (if lgIsTcw e then s * lgBlock e % 2048 = 0 && (c * lgBlock e % 2048 = 0 || s + c = lgDim e 0)
   else if lgIsBlock e then s % perWord e = 0 && c % perWord e = 0
   else true)

/-- A pattern of page mode keeps every row inside the page of its index (R419). -/
def pageOk (e : Legend) (t : TravSlot) : Bool :=
  let b := if lgSegment e then 0 else (lgAddress e).toNat % 4096
  let lo := elementBit e (patStart t.starts 0) / 8
  let hi := (elementBit e (patStart t.starts 0 + patCount t.counts 0 - 1) + lgBits e + 7) / 8
  let ends := fun (d : Nat) => [patStart t.starts d, patStart t.starts d + patCount t.counts d - 1]
  (ends 2).all fun i2 => (ends 3).all fun i3 =>
    let off := rowOffset e (0, i2, i3)
    0 ≤ (b + lo : Nat) + off && (b + hi : Nat) + off ≤ 4096

/-- Formats that `TRV.RED` combines (R151). -/
def redFormat (f op : Nat) : Bool := f < 8 || (f ≤ 10 && op < 3)

/-- The checks of a request's descriptor (R148-R151). -/
def checkDescriptor (p : Nat) (t : TravSlot) : Act Unit := do
  check (t.srcIndex < 1024 && t.dstIndex < 1024) codeIllegal 0
  check (t.toTensor || (t.dstIndex = 0 && t.dstarts = 0)) codeIllegal 0
  let w := t.opWord
  match t.kind with
  | .copy | .feed => check (w = 0) codeIllegal 0
  | .gath => check (w / 2 ^ 11 = 0 && !(t.pageMode && t.toTensor) && !t.fromBuffer) codeIllegal 0
  | .scat => check (w / 2 ^ 10 = 0) codeIllegal 0
  | .red => check (w / 2 ^ 24 = 0 && bits w 3 0 ≤ 5 && bits w 7 5 < 4 && bits w 15 8 ≤ bits w 23 16) codeIllegal 0
  | _ => pure ()
  if t.kind = .gath || t.kind = .scat then do
    let ix ← legendOf p (w % 1024)
    check ((lgFormat ix = 2 || lgFormat ix = 3) && lgDim ix 1 = 1 && lgDim ix 2 = 1 && lgDim ix 3 = 1 &&
      patStart t.starts 1 + patCount t.counts 1 ≤ lgDim ix 0) codeIllegal 0
  if t.kind ≠ .fill then do
    let e ← legendOf p t.srcIndex
    check (spanOk e t.starts t.counts (t.kind = .gath)) codeIllegal 0
    check (!t.pageMode || pageOk e t) codeIllegal 0
  if t.toTensor then do
    let e ← legendOf p t.dstIndex
    check (spanOk e t.dstarts t.counts (t.kind = .scat)) codeIllegal 0
    check (t.kind ≠ .red || redFormat (lgFormat e) (bits w 3 0)) codeIllegal 0
    if t.kind ≠ .fill then do
      let x ← legendOf p t.srcIndex
      check (lgFormat x = lgFormat e) codeIllegal 0

/-- The number of units of a request. -/
def unitCount (p : Nat) (t : TravSlot) : Act Nat := do
  let s ← get
  match t.kind with
  | .red => do
    let e ← legendOf p t.dstIndex
    let base ← baseOf p e
    pure (redBlocks base e t).length
  | .fill =>
    pure (if t.toTensor then patWords (s.legendAt p t.dstIndex) t.counts else bufSize (s.buffer p t.handle) / 64)
  | _ => pure (patWords (s.legendAt p t.srcIndex) t.counts)

/-- The entries that a request names, and whether each may be named; the trap value of `BUFFER_STATE` is the handle field, and
ring entries of different sizes or of size 0 are refused with `ILLEGAL_INSTRUCTION` (R151, R156, log 111). -/
def checkEntries (p : Nat) (t : TravSlot) (words : Nat) : Act Unit := do
  let s ← get
  let b := s.buffer p t.handle
  let h := BitVec.ofNat 64 t.handle
  if t.kind = .feed then do
    let ring := (List.range t.ringLen).map fun i => s.buffer p ((t.handle + i) % 128)
    check (ring.all fun x => bufState x = 0) codeBufferState h
    check (ring.all fun x => bufSize x = bufSize b && bufSize x ≠ 0) codeIllegal 0
  else if t.fromBuffer then do
    check (bufState b = 2) codeBufferState h
    check (64 * words ≤ bufSize b) codeIllegal 0
  else if t.fills then do
    check (bufState b = 0) codeBufferState h
    check (64 * words ≤ bufSize b) codeIllegal 0
  if t.shadow then check (!s.overlayTaken p (!t.toTensor) (if t.toTensor then t.dstIndex else t.handle)) codeBufferState h

/-- Mark the entries a request fills (R155, R156). -/
def State.takeEntries (s : State) (p slot : Nat) (t : TravSlot) : State :=
  if !t.fills then s else
  (List.range (if t.kind = .feed then t.ringLen else 1)).foldl (fun st i =>
    let h := (t.handle + i) % 128
    let b := setF (setF (setF (st.buffer p h) 63 62 1) 61 56 slot) 127 64 t.promise.toNat
    st.setBuffer p h (setF b 55 54 ((if t.shadow then 2 else 0) + (if t.kind = .feed then 1 else 0)))) s

/-- Issue a request of R149. -/
def State.issueTrav (s : State) (i : Instr) (kind : TravKind) (rd ra rb : Reg) : Host.Outcome State Fault Refusal :=
  s.attempt i 1 do
    let p := s.here
    let c := s.reg ra
    let va := s.reg rb
    check (wbits c 63 30 = 0 && wbits c 11 9 = 0 && (kind = .feed || wbits c 29 26 = 0)) codeIllegal 0
    let sc ← scopeField (wbits c 24 21)
    check ((!wbit c 20 || wbit c 19) && (!wbit c 8 || wbit c 7) && (wbit c 8 || !wbit c 7 || wbits c 6 0 = 0))
      codeIllegal 0
    check (!(kind = .fill && wbit c 8) && !(kind = .red && !wbit c 7) && !(kind = .feed && wbit c 7)) codeIllegal 0
    aligned va 32
    issueRelease sc
    let d ← readVa (.engine p) sc va 32
    let promise := s.newPromise
    let x := s.parcel p
    let ftz := (s.core p).flags.getLsbD 0
    let t : TravSlot :=
      { kind := kind, control := c, desc := d, serial := x.serial, ftz := ftz, pos := 0, total := 0, promise := promise,
        done := false, published := false, follow := none, notices := [], stopped := false, pages := [] }
    checkDescriptor p t
    let words ← match kind with
      | .red => pure (patWords (s.legendAt p t.srcIndex) t.counts)
      | _ => unitCount p t
    checkEntries p t words
    check (!wbit c 25 || x.staged.isSome) codeIllegal 0
    let total ← unitCount p t
    match s.freeTrav p with
    | none => raise codeBufferState 0xFFFFFFFFFFFFFFFF
    | some slot =>
      let follow := if wbit c 25 then x.staged else none
      modify fun st =>
        let st1 := (st.takeEntries p slot t).setTrav p slot { t with total := total, follow := follow }
        let st2 := st1.onParcel p fun y =>
          { y with serial := y.serial + 1, trvFault := y.trvFault.erase t.identity,
                   staged := if wbit c 25 then none else y.staged }
        if t.shadow then st2.openOverlay p (!t.toTensor) (if t.toTensor then t.dstIndex else t.handle) else st2
      finish rd promise

/-- `TRV.COPY`. -/
def execTrvCopy (rd ra rb : Reg) (s : State) : Host.Outcome State Fault Refusal :=
  s.issueTrav (.trvCopy rd ra rb) .copy rd ra rb
/-- `TRV.GATH`. -/
def execTrvGath (rd ra rb : Reg) (s : State) : Host.Outcome State Fault Refusal :=
  s.issueTrav (.trvGath rd ra rb) .gath rd ra rb
/-- `TRV.SCAT`. -/
def execTrvScat (rd ra rb : Reg) (s : State) : Host.Outcome State Fault Refusal :=
  s.issueTrav (.trvScat rd ra rb) .scat rd ra rb
/-- `TRV.RED`. -/
def execTrvRed (rd ra rb : Reg) (s : State) : Host.Outcome State Fault Refusal :=
  s.issueTrav (.trvRed rd ra rb) .red rd ra rb
/-- `TRV.FILL`. -/
def execTrvFill (rd ra rb : Reg) (s : State) : Host.Outcome State Fault Refusal :=
  s.issueTrav (.trvFill rd ra rb) .fill rd ra rb
/-- `TRV.FEED`. -/
def execTrvFeed (rd ra rb : Reg) (s : State) : Host.Outcome State Fault Refusal :=
  s.issueTrav (.trvFeed rd ra rb) .feed rd ra rb

/-! ### The other instructions (R157, R159, R163, R178) -/

/-- `TRV.FOLLOW` (DEDUCED: a word that is not an engine-4 word is refused). -/
def execTrvFollow (ra : Reg) (s : State) : Host.Outcome State Fault Refusal :=
  s.attempt (.trvFollow ra) 1 do
    let a := s.reg ra
    check (wbits a 63 32 = 0 && wbits a 31 26 = 0x3E && wbits a 25 22 = 4 && wbits a 21 17 = 0) codeIllegal 0
    modify fun t => (t.onParcel s.here fun x =>
      { x with staged := some ⟨a.setWidth 32, s.reg (a.extractLsb' 12 5), s.reg (a.extractLsb' 7 5)⟩ }).advance s.here

/-- A request's last byte has landed: every unit is sent, and every tile is combined or skipped (R159). -/
def State.travLanded (s : State) (p slot : Nat) (t : TravSlot) : Bool := t.total ≤ t.pos && !s.tilesOf p slot
/-- Whether a shadow request writes a target: an entry of its ring, its entry, or its tensor (R159). -/
def TravSlot.hides (t : TravSlot) (buffer : Bool) (index : Nat) : Bool :=
  t.shadow && t.toTensor ≠ buffer &&
    (if !buffer then t.dstIndex = index
     else if t.kind = .feed then (index + 128 - t.handle) % 128 < t.ringLen else t.handle = index)
/-- The serials of the core's shadow requests to a target that have not landed (R159). -/
def State.shadowSerials (s : State) (p : Nat) (buffer : Bool) (index : Nat) : List Nat :=
  ((s.parcel p).travs.filter fun (e : Nat × TravSlot) => e.2.hides buffer index && !s.travLanded p e.1 e.2).map (·.2.serial)

/-- `TRV.PUB`. -/
def execTrvPub (rd ra : Reg) (s : State) : Host.Outcome State Fault Refusal :=
  s.attempt (.trvPub rd ra) 1 do
    let p := s.here
    let a := s.reg ra
    let buffer := !wbit a 7
    check (if buffer then wbits a 63 7 = 0 else wbits a 63 18 = 0 && wbits a 6 0 = 0) codeIllegal 0
    if !buffer then let _ ← legendOf p (wbits a 17 8)
    let index := if buffer then wbits a 6 0 else wbits a 17 8
    issueRelease .d
    modify fun t => { t with publishes := t.publishes ++ [⟨p, buffer, index, s.shadowSerials p buffer index, none⟩] }
    finish rd s.newPromise

/-- `TRV.XST`: the control word, the source offset and the place of its count are kept as the request's descriptor. The sectors
count in the sender's phase from the issue on, so that a later marker waits for every one of them (R165, log 112). -/
def execTrvXst (rd ra rb : Reg) (s : State) : Host.Outcome State Fault Refusal :=
  s.attempt (.trvXst rd ra rb) 1 do
    let p := s.here
    let a := s.reg ra
    let src := s.reg rb
    check (wbits a 63 32 = 0 && !wbit a 9) codeIllegal 0
    let (o, r) ← myRegion
    check (wbits a 8 0 < 2 ^ r.shape) codeScope (Config.freeWord s.tick)
    let n := wbits a 31 21 + 1
    aligned src 32
    check (wbits a 20 10 + n ≤ 2048 && src.toNat + 32 * n ≤ 0x60000) codeIllegal 0
    match s.freeTrav p with
    | none => raise codeBufferState 0xFFFFFFFFFFFFFFFF
    | some slot =>
      let x := s.parcel p
      let key := (o + wbits a 8 0) * 4 + s.exchangePhase p
      let t : TravSlot :=
        { kind := .xst, control := a, desc := Decode.leBytes 8 src.toNat ++ Decode.leBytes 8 key ++ List.replicate 16 0,
          serial := x.serial, ftz := false, pos := 0, total := n, promise := s.newPromise, done := false, published := false,
          follow := none, notices := [], stopped := false, pages := [] }
      modify fun st => (st.setTrav p slot t).onParcel p fun y =>
        { y with serial := y.serial + 1, trvFault := y.trvFault.erase t.identity,
                 exch := if o + wbits a 8 0 = p then y.exch
                   else { y.exch with sent := y.exch.sent.alter 0 key (· + n) } }
      finish rd s.newPromise

/-- `TRV.CANC`; a request that is over and only waits for its follow-on command keeps it. -/
def execTrvCanc (ra : Reg) (s : State) : Host.Outcome State Fault Refusal :=
  s.attempt (.trvCanc ra) 1 do
    check (wbits (s.reg ra) 63 6 = 0) codeIllegal 0
    let finished := match s.trav s.here (s.reg ra).toNat with
      | some t => t.done
      | none => true
    modify fun t => (if finished then t else t.stopTrav s.here (s.reg ra).toNat).advance s.here

/-- `TRV.STAT`. -/
def execTrvStat (rd ra : Reg) (s : State) : Host.Outcome State Fault Refusal :=
  s.attempt (.trvStat rd ra) 1 do
    let p := s.here
    let a := s.reg ra
    let x := s.parcel p
    if wbit a 8 then do
      check (wbits a 63 10 = 0 && wbits a 7 0 = 0) codeIllegal 0
      if wbit a 9 then modify fun t => t.onParcel p fun y => { y with trvFlags := 0 }
      finish rd (BitVec.ofNat 64 (x.trvFlags.toNat + s.travCount p * 2 ^ 8))
    else do
      check (wbits a 63 6 = 0) codeIllegal 0
      finish rd (match s.trav p a.toNat with
        | some t => if s.takenTrav p a.toNat then t.promise else 0
        | none => 0)

/-! ### Steps of a request (R152-R159) -/

/-- Perform the next unit of a request: the bytes that have landed at their destination. -/
def travStep (p slot : Nat) (t : TravSlot) : Act Nat := do
  let s ← get
  if t.fromBuffer && t.pos = 0 && bufState (s.buffer p t.handle) = 2 then
    modify fun st => st.setBuffer p t.handle (setF (st.buffer p t.handle) 63 62 3)
  match t.kind with
  | .xst => do
    let src := field t.desc 0 8 + 32 * t.pos
    let data ← readPad p (windowBase + p * 0x400000 + src) 32
    let key := field t.desc 8 8
    let off := 32 * (wbits t.control 20 10 + t.pos)
    if key / 4 = p then modify fun st => st.homeWrite (windowBase + p * 0x400000 + 0x60000 + off) data
    else modify fun st => { st with signals := st.signals ++ [.write (key / 4) [(off, data)] p (key % 4) (p, 1, t.mark slot)] }
    pure 0
  | .red => do
    let e ← legendOf p t.dstIndex
    let base ← baseOf p e
    let v ← redTile p slot t ((redBlocks base e t).getD t.pos 0) false
    modify fun st => { st with tiles := st.tiles ++ [v] }
    pure 0
  | _ => do
    let bs ← readUnit p t t.pos
    let n ← writeUnit p t t.pos bs
    if t.pageMode then do
      let e ← legendOf p t.srcIndex
      modify fun st => st.walkAhead p t (min 32 (Config.runAhead st.tick)) ((unitRow e t.counts t.pos).1 + 1)
    pure n

/-- The targets of a publishing request: its tensor, its entry, or each entry of its ring (R159). -/
def TravSlot.targets (t : TravSlot) : List (Bool × Nat) :=
  if t.toTensor then [(false, t.dstIndex)]
  else (List.range (if t.kind = .feed then t.ringLen else 1)).map fun i => (true, (t.handle + i) % 128)

/-- What follows the landing of a unit: a feed's tile that is whole goes FULL, and the last unit of a publishing
request asks for its publish (R156, R159). -/
def State.afterUnit (s : State) (p : Nat) (t : TravSlot) : State :=
  let k := t.pos + 1
  let s1 := if t.kind ≠ .feed || t.shadow then s else
    let words := max 1 (bufSize (s.buffer p t.handle) / 64)
    if k % words = 0 || k = t.total then
      let h := (s.fillPlace p t t.pos).1
      s.putBuffer p h (setF (s.buffer p h) 63 62 2)
    else s
  if t.publish && k = t.total then
    { s1 with publishes := s1.publishes ++ t.targets.map fun x =>
        ⟨p, x.1, x.2, (s.shadowSerials p x.1 x.2).filter (· < t.serial), some t.serial⟩ }
  else s1

/-- `TRAVERSE_BYTES_LAND`: the next unit of a request is performed. -/
def execTraverseBytesLand (p slot : Nat) (s : State) : Host.Outcome State Fault Refusal :=
  match s.trav p slot with
  | none => .next s
  | some t =>
    if !s.enginesRun p || t.total ≤ t.pos || s.heldBack p slot t || (t.kind = .feed && (!s.tileStarted p slot t || s.feedHalted p t)) then
      .next s
    else match travStep p slot t s with
      | .ok n s1 =>
        .next (((if n = 0 then s1 else s1.landed p slot t n).onTrav p slot fun x => { x with pos := x.pos + 1 }).afterUnit p t)
      | .error (.fault c v) _ => .next (s.faultTrav p slot c v)
      | .error .hold s1 => .next s1

/-- All that a request sent has been performed: no byte, tile or refused count is under way. -/
def State.travOver (s : State) (p slot : Nat) (t : TravSlot) : Bool :=
  s.travLanded p slot t && !s.signalsOf p slot t

/-- `TRAVERSE_COMPLETE`: a plain fill's entry goes FULL, a source entry FREE, and the arrival is made (R147, R155). -/
def execTraverseComplete (p slot : Nat) (s : State) : Host.Outcome State Fault Refusal :=
  match s.trav p slot with
  | none => .next s
  | some t =>
    if !s.enginesRun p || t.done || !s.travOver p slot t || (t.publish && !t.published) then .next s
    else
      let b := s.buffer p t.handle
      let s1 := if t.fills && t.kind ≠ .feed && !t.shadow then s.putBuffer p t.handle (setF b 63 62 2)
        else if t.fromBuffer && bufState b = 3 then s.freeEntry p t.handle
        else s.endRing p t
      let s2 := if t.follow.isSome then s1.setTrav p slot { t with done := true } else s1.dropTrav p slot
      .next (if t.counted then s2.sendArrival p t.station 1 (t.mark slot) else s2)

/-- The virtual address of the source bytes of unit `k` of a request, where it reads a tensor. -/
def sourceVa (p : Nat) (t : TravSlot) (k : Nat) : Act (Option Word) :=
  if t.kind = .xst || t.kind = .fill || t.fromBuffer then pure none else do
    let e ← legendOf p t.srcIndex
    let b ← baseOf p e
    let (r, bit) ← match t.kind with
      | .red => do
        let de ← legendOf p t.dstIndex
        let db ← baseOf p de
        let blk := (redBlocks db de t).getD k 0
        let rows := List.range (patRows t.counts)
        let at_ := fun (r : Nat) => (redRowAddress db de t r).toNat
        let r := (rows.find? fun r => at_ r < 64 * blk + 64 && 64 * blk < at_ r + redRowBytes de t).getD 0
        pure (r, elementBit e (patStart t.starts 0) + 8 * (max (at_ r) (64 * blk) - at_ r))
      | _ => do
        let (r, i) := unitRow e t.counts k
        pure (r, (wordPlace e t.starts t.counts i).1)
    if t.pageMode then do
      let i ← readIndex p t (rowK t r)
      pure (some (BitVec.ofNat 64 (i * 4096) + BitVec.ofInt 64 (pageOffset b t e r bit)))
    else do
      let row ← srcRow p t e r
      pure (some (rowAddress b e row bit))

/-- The virtual address of the destination bytes of unit `k` of a request, where it writes a tensor. -/
def destVa (p : Nat) (t : TravSlot) (k : Nat) : Act (Option Word) :=
  if !t.toTensor then pure none else do
    let e ← legendOf p t.dstIndex
    let b ← baseOf p e
    if t.kind = .red then pure (some (BitVec.ofNat 64 (64 * (redBlocks b e t).getD k 0)))
    else do
      let (r, i) := unitRow e t.counts k
      let row ← dstRow p t e r
      pure (some (rowAddress b e row (wordPlace e t.dstarts t.counts i).1))

/-- The faulting address of the next unit of a request: its source in a tensor, else its destination in one; a unit of
scratchpad offsets alone has none (R152, log 130). -/
def State.unitVa (s : State) (p : Nat) (t : TravSlot) : Word :=
  let get := fun (k : Act (Option Word)) => match k s with
    | .ok v _ => v
    | .error _ _ => none
  (get (sourceVa p t t.pos)).getD ((get (destVa p t t.pos)).getD (Config.freeWord s.tick))

/-- `TRAVERSE_FAULT`: the engine finds a fault at the next unit of a request, such as a media or a link error. -/
def execTraverseFault (p slot : Nat) (code : Byte) (s : State) : Host.Outcome State Fault Refusal :=
  match s.trav p slot with
  | none => .next s
  | some t =>
    if !s.enginesRun p || t.total ≤ t.pos then .next s else .next (s.faultTrav p slot code (s.unitVa p t))

/-- `FREED_SLOT_NOTICE`: a notice of a ring entry starts the feed's next tile in it; with no tile left it is
discarded (R156). -/
def execFreedSlotNotice (p handle : Nat) (s : State) : Host.Outcome State Fault Refusal :=
  match (s.parcel p).travs.find? fun (e : Nat × TravSlot) => e.2.inRing handle && handle ∈ e.2.notices with
  | none => .next s
  | some (slot, t) =>
    if !s.enginesRun p || bufState (s.buffer p handle) ≠ 0 then .next s
    else
      let words := max 1 (bufSize (s.buffer p t.handle) / 64)
      let k := (handle + 128 - t.handle) % 128
      let tile := t.pos / words
      let next := if tile % t.ringLen ≤ k then tile / t.ringLen * t.ringLen + k
        else (tile / t.ringLen + 1) * t.ringLen + k
      let s1 := s.setTrav p slot { t with notices := t.notices.erase handle }
      let b := setF (setF (setF (s.buffer p handle) 63 62 1) 61 56 slot) 127 64 t.promise.toNat
      .next (if next * words < t.total
        then s1.setBuffer p handle (setF b 55 54 ((if t.shadow then 2 else 0) + 1)) else s1)

/-- Whether the publish at place `k` may be performed: the earlier publishes of its core have been, the earlier shadow requests
it names have landed, and the request whose publish bit made it is over, its byte counts accepted (R84, R152, R159, R480). -/
def State.publishDue (s : State) (k : Nat) (v : Publish) : Bool :=
  let p := v.parcel
  s.enginesRun p && ((s.publishes.take k).all fun w => w.parcel ≠ p) &&
    !((s.shadowSerials p v.buffer v.index).any fun n => n ∈ v.waits) &&
    (match v.request with
     | none => true
     | some k => (s.parcel p).travs.all fun (e : Nat × TravSlot) => e.2.serial ≠ k || s.travOver p e.1 e.2)

/-- Whether a request's publish is performed with the publish that has just shown a target: the last one its own bit made, or
for a landed shadow request without the bit the one that shows the last of its targets (R158, R159). -/
def State.publishes? (s : State) (v : Publish) (slot : Nat) (t : TravSlot) : Bool :=
  if t.publish then v.request = some t.serial && s.publishes.all fun x => !(x.parcel = v.parcel && x.request = v.request)
  else t.hides v.buffer v.index && s.travLanded v.parcel slot t &&
    t.targets.all fun e => s.overlays.all fun o => !o.isFor v.parcel e.1 e.2

/-- Perform a publish that is due: the overlay becomes visible, a shadow-filled entry goes FULL, and the requests that it
publishes have published (R158, R159). -/
def State.performPublish (s : State) (k : Nat) (v : Publish) : State :=
  let p := v.parcel
  let s1 : State := { s with publishes := s.publishes.eraseIdx k }
  let has := s.overlays.any fun o => o.isFor p v.buffer v.index
  let s2 := s1.showOverlay p v.buffer v.index
  let mark := fun (slot : Nat) (t : TravSlot) => if s2.publishes? v slot t then { t with published := true } else t
  let s3 := s2.onParcel p fun x => { x with travs := x.travs.each mark }
  let b := s3.buffer p v.index
  if v.buffer && has && bufState b = 1 && bufShadow b
  then s3.putBuffer p v.index (setF (setF b 63 62 2) 55 55 0) else s3

/-- `PUBLISH`: once the earlier shadow writes have landed, the overlay becomes visible (R159). Bytes that a segment has come to
reserve are reached as by any write: the publish waits for a spill, or its request faults (R396, log 8). -/
def execPublish (k : Nat) (s : State) : Host.Outcome State Fault Refusal :=
  match s.publishes[k]? with
  | none => .next s
  | some v =>
    let p := v.parcel
    if !s.publishDue k v then .next s
    else match publishCheck (.engine p) p v.buffer v.index s with
      | .ok _ _ => .next (s.performPublish k v)
      | .error .hold s1 => .next s1
      | .error (.fault c x) _ =>
        match (s.parcel p).travs.find? fun (e : Nat × TravSlot) => v.request = some e.2.serial with
        | some (slot, _) => .next (s.faultTrav p slot c x)
        | none => .next ((({ s with publishes := s.publishes.eraseIdx k } : State).discardOverlay p v.buffer v.index).report
            p c 1 0 none x)

/-- `REDUCTION_TILE`: a tile reaches its home (R168). -/
def execReductionTile (k : Nat) (s : State) : Host.Outcome State Fault Refusal :=
  match s.tiles[k]? with
  | none => .next s
  | some v => .next (if v.skip || !(s.enginesRun v.parcel || v.parcel = strayParcel) then s else s.meetTile k)

/-- `SKIP_MARKER`: a marker of a contributor that failed reaches a home (R169). -/
def execSkipMarker (k : Nat) (s : State) : Host.Outcome State Fault Refusal :=
  match s.tiles[k]? with
  | none => .next s
  | some v => .next (if v.skip && s.enginesRun v.parcel then s.meetTile k else s)

end Sys2Proof.Machine
end

