-- ==== Sys2Proof/Machine/Station.lean ====
section
/-! DEFINITION. Stations and the phase-buffered exchange: signals, the completion test, the swap of the exchange
halves, and the `STN` instructions (R160-R167, R171-R175, R487). -/

namespace Sys2Proof.Machine

/-! ### The exchange (R163-R167) -/

def State.onExchange (s : State) (p : Nat) (f : Exchange → Exchange) : State :=
  s.onParcel p fun x => { x with exch := f x.exch }

/-- The swap of an exchange station's completion: the written sectors' versions grow once, the halves change places,
the counts of the old phase clear and the phase advances, in which the parcel counts its own writes anew (R165, R167). -/
def State.exchangeSwap (s : State) (p n : Nat) : State :=
  let x := s.station p n
  let old := stnPhase x
  let s1 := (s.parcel p).exch.written.foldl (fun (t : State) k => t.bump (s.shadowAddress p (32 * k) / 32) 1) s
  let s2 := s1.setStation p n (setF x 59 58 (old + 1))
  s2.onExchange p fun e =>
    { e with swapped := !e.swapped, sent := [], written := [], counts := e.counts.only fun k _ => k % 4 ≠ old }

/-- An exchange write enters the shadow half of its receiver with all its runs and is counted (R163, R165, R167). -/
def State.enterWrite (s : State) (p : Nat) (runs : List (Nat × List Byte)) (source phase : Nat) : State :=
  let s1 : State := { s with mem := runs.foldl (fun (m : Memory) r => m.write (s.shadowAddress p r.1) r.2) s.mem }
  let note := fun (l : List Nat) (k : Nat) => if k ∈ l then l else l ++ [k]
  s1.onExchange p fun e =>
    { e with written := (runs.flatMap fun r => sectorsOf r.1 r.2.length).foldl note e.written,
             counts := e.counts.alter 0 (source * 4 + phase) (· + 1) }

/-! ### Signals (R161, R162, R487) -/

/-- A Graticule command writes in shadow mode (R329). -/
def GrCommand.shadow (c : GrCommand) : Bool := wbit c.control 19
/-- The legend a command writes to. -/
def GrCommand.target (c : GrCommand) : Nat :=
  match c.fn with
  | 1 => field c.desc 2 2
  | 2 => field c.desc 4 2
  | _ => field c.desc 0 2
/-- The overlay that a queued shadow command has opened and hidden nothing in (R331). -/
def State.dropUnused (s : State) (p : Nat) (c : GrCommand) : State :=
  if c.shadow && (s.overlays.any fun o => o.isFor p false c.target && o.bytes.isEmpty) then s.discardOverlay p false c.target else s

/-- Report a fault of a Graticule command and discard every queued one, with the overlays opened for them; the report is that of R331,
which its chapter gives (R331, R487, log 134). -/
def State.dropCommands (s : State) (p : Nat) (code : Byte) (fn : Nat) (value : Word) : State :=
  let n := (s.parcel p).gr.queue.length
  let s1 := (s.parcel p).gr.queue.foldl (fun (t : State) c => t.dropUnused p c) s
  ((s1.onParcel p fun x => { x with gr := { x.gr with queue := [] } }).log 1 code p (s.core p).asid value).post p 127 true
    (BitVec.ofNat 64 (code.toNat + 4 * 2 ^ 8 + fn * 2 ^ 12 + n * 2 ^ 18)) value

/-- The open overlay that the sender of a refused arrival has not published goes (R331, R355). -/
def State.dropHidden (s : State) (p mark : Nat) : State :=
  match hiddenTarget mark with
  | some i => s.discardOverlay p false i
  | none => s

/-- A station refuses a signal of a sender: a Traverse request stops, and the core that issued the sender is told
(R152, R487). -/
def State.refuseSignal (s : State) (code : Byte) (sender : Nat × Nat × Nat) (p n : Nat) : State :=
  let q := sender.1
  let engine := sender.2.1
  let slot := sender.2.2
  let rel := match s.regionOf p with
    | some (o, _) => p - o
    | none => 0
  if engine = 1 then
    match (s.trav q (markSlot slot)).filter fun t => !t.stopped && t.mark (markSlot slot) = slot with
    | some _ => s.faultTrav q (markSlot slot) code (BitVec.ofNat 64 n)
    | none => s.report q code 1 (markSlot slot) (markHandle slot) (BitVec.ofNat 64 n)
  else if engine = 4 then (s.dropHidden q slot).dropCommands q code (markSlot slot) (BitVec.ofNat 64 n)
  else if engine = 5 then (s.dropHidden q slot).report q code engine (markSlot slot) none (BitVec.ofNat 64 (n + rel * 2 ^ 7))
  else s.report q code engine slot none (BitVec.ofNat 64 (n + rel * 2 ^ 7))

/-- An event has reached a station in this f-cycle: its completion test comes after all of them (R161). -/
def State.testLater (s : State) (p n : Nat) : State :=
  if (p, n) ∈ s.tests then s else { s with tests := s.tests ++ [(p, n)] }

/-- The completion test of a station, after the events of an f-cycle. A parcel whose region does not run gives its
wakeups when it runs again (R161, R162, R449). -/
def State.testStation (s0 : State) (p n : Nat) : State :=
  let s : State := { s0 with tests := s0.tests.filter (· ≠ (p, n)) }
  let x := s.station p n
  if stnFault x || stnArrivals x ≠ stnExpected x || stnPending x ≠ 0 then s else
  let s1 := s.setStation p n (setF x 11 0 (stnCompletions x + 1))
  let s2 := if stnExchange x then s1.exchangeSwap p n else s1
  let y := s2.station p n
  let s3 := s2.setStation p n
    (if stnReload x then setF (setF y 111 96 0) 95 60 (stnReloadBytes y) else setF y 52 52 1)
  let s4 := if s3.enginesRun p && !(s3.parcel p).gated then s3.pollWakes p else s3
  let q := s4.seenAt p
  s4.pollLaunches 1 fun d => wbits d 8 0 = q && wbits d 14 9 = n

/-- A station refuses: it latches its fault (R161). -/
def State.latch (s : State) (p n : Nat) (sender : Nat × Nat × Nat) : State :=
  (s.setStation p n (setF (s.station p n) 51 51 1)).refuseSignal codeStationRange sender p n

/-- `OnArrive` (R161). -/
def State.onArrive (s : State) (p n : Nat) (sender : Nat × Nat × Nat) : State :=
  let x := s.station p n
  if stnComplete x || stnArrivals x = stnExpected x then s.latch p n sender
  else (s.setStation p n (setF x 111 96 (stnArrivals x + 1))).testLater p n

/-- `OnBytes` (R161). -/
def State.onBytes (s : State) (p n k : Nat) (sender : Nat × Nat × Nat) : State :=
  let x := s.station p n
  if stnComplete x || stnPending x < k then s.latch p n sender
  else (s.setStation p n (setF x 95 60 (stnPending x - k))).testLater p n

/-- Parked writes and waiting markers enter as soon as their phase and count allow (R165, R166). -/
def State.settleExchange (s : State) (p : Nat) : Nat → State
  | 0 => s
  | fuel + 1 =>
    let e := (s.parcel p).exch
    let now := s.exchangePhase p
    match e.parked.find? fun w => w.2.1 = now with
    | some w =>
      ((s.onExchange p fun e => { e with parked := e.parked.erase w }).enterWrite p w.2.2 w.1 now).settleExchange p fuel
    | none =>
      match e.markers.find? fun m => m.2.1 = now && m.2.2.1 = e.counts.look 0 (m.1 * 4 + now) with
      | some m =>
        ((s.onExchange p fun e => { e with markers := e.markers.erase m }).onArrive p m.2.2.2 (m.1, 0, 0)).settleExchange
          p fuel
      | none => s

/-- Steps that the waiting items of a parcel can take at most. -/
def State.exchangeFuel (s : State) (p : Nat) : Nat :=
  (s.parcel p).exch.parked.length + (s.parcel p).exch.markers.length + 1

/-- The completion tests of the stations that events of this f-cycle have reached; what a swap lets enter counts in the next
one (R161, R166). -/
def State.testStations (s : State) : State :=
  s.tests.foldl (fun (t : State) e =>
    if stnComplete (t.station e.1 e.2) then t else
      let t1 := t.testStation e.1 e.2
      t1.settleExchange e.1 (t1.exchangeFuel e.1)) { s with tests := [] }

/-- Take a signal off its way and let it act. -/
def State.meetSignal (s : State) (k p : Nat) (f : State → State) : State :=
  let s1 := f { s with signals := s.signals.eraseIdx k }
  s1.settleExchange p (s1.exchangeFuel p)

/-- A signal to a reset parcel is dropped and counted, and its sender is told (R162). -/
def State.signalGone (s : State) (k p n : Nat) (sender : Nat × Nat × Nat) : State :=
  ({ s with signals := s.signals.eraseIdx k, dropped := s.dropped + 1 }).refuseSignal codeStationGone sender p n

/-- `STATION_ARRIVAL`: an arrival reaches its station (R161). -/
def execStationArrival (k : Nat) (s : State) : Host.Outcome State Fault Refusal :=
  match s.signals[k]? with
  | some (.arrive p n sender) =>
    .next (if (s.parcel p).wasReset then s.signalGone k p n sender else s.meetSignal k p fun t => t.onArrive p n sender)
  | _ => .next s

/-- `STATION_BYTES`: a byte subtraction reaches its station (R161). -/
def execStationBytes (k : Nat) (s : State) : Host.Outcome State Fault Refusal :=
  match s.signals[k]? with
  | some (.bytes p n b sender) =>
    .next (if (s.parcel p).wasReset then s.signalGone k p n sender else s.meetSignal k p fun t => t.onBytes p n b sender)
  | _ => .next s

/-- `EXCHANGE_WRITE_ARRIVAL`: an exchange write reaches its receiver, where it enters or is parked (R165, R166). -/
def execExchangeWriteArrival (k : Nat) (s : State) : Host.Outcome State Fault Refusal :=
  match s.signals[k]? with
  | some (.write p runs source phase _) =>
    .next (s.meetSignal k p fun t => t.onExchange p fun e => { e with parked := e.parked ++ [(source, phase, runs)] })
  | _ => .next s

/-- `FENCE_MARKER_ARRIVAL`: a marker reaches the receiver's slice, which holds it until its count is met (R165). -/
def execFenceMarkerArrival (k : Nat) (s : State) : Host.Outcome State Fault Refusal :=
  match s.signals[k]? with
  | some (.marker p n source phase count) =>
    .next (if (s.parcel p).wasReset then s.signalGone k p n (source, 0, 0) else s.meetSignal k p fun t => t.onExchange p fun e =>
      { e with markers := e.markers ++ [(source, phase, count, n)] })
  | _ => .next s

/-! ### Instructions (R171-R175) -/

/-- The fields that `STN.INIT` writes; the phase stays (R171). -/
def stationInit (x : BitVec 128) (a b : Word) : BitVec 128 :=
  let y := setF (setF (setF x 127 112 (wbits a 31 16)) 111 60 0) 95 60 b.toNat
  setF (setF (setF (setF y 57 57 (wbits a 13 13)) 56 56 (wbits a 12 12)) 55 53 (wbits a 11 8)) 52 0 0 |>
    fun z => setF z 47 12 b.toNat

/-- Wakeups that stay armed on a station count its completions anew (R102, R171). -/
def Core.recount (c : Core) (n : Nat) : Core :=
  { c with channels := c.channels.each fun _ h =>
      if h.wake.cond = 3 && getF h.wake.control 13 8 = n then { h with wake := { h.wake with count := 0 } } else h }

/-- `STN.INIT` (R171). -/
def execStnInit (ra rb : Reg) (s : State) : Host.Outcome State Fault Refusal :=
  s.attempt (.stnInit ra rb) 0 do
    let a := s.reg ra
    let b := s.reg rb
    let p := s.here
    let n := wbits a 5 0
    check (wbits a 7 6 = 0 && wbits a 15 14 = 0 && wbits a 63 32 = 0 && wbits b 63 36 = 0) codeIllegal 0
    let _ ← scopeField (wbits a 11 8)
    check (!wbit a 13 || !((s.parcel p).stations.any fun e => e.1 ≠ n && stnExchange e.2)) codeIllegal 0
    modify fun t =>
      let t1 := ((t.initStation p n (stationInit (t.station p n) a b)).onCore p fun c => c.recount n).testStation p n
      (t1.settleExchange p (t1.exchangeFuel p)).advance p

/-- `STN.ARV`: a release at the station's scope, then an arrival, or a fence marker to an exchange station (R165,
R172). The trap value of its `SCOPE_CROSSING` is not stated (log 8). -/
def execStnArv (ra : Reg) (s : State) : Host.Outcome State Fault Refusal :=
  s.attempt (.stnArv ra) 0 do
    let a := s.reg ra
    let p := s.here
    let n := wbits a 5 0
    check (wbits a 63 16 = 0 && (wbit a 6 || wbits a 15 7 = 0)) codeIllegal 0
    let (o, r) ← myRegion
    check (wbits a 15 7 < 2 ^ r.shape) codeScope (Config.freeWord s.tick)
    let q := if wbit a 6 then o + wbits a 15 7 else p
    issueRelease (scopeOfCode (stnScope (s.station q n)))
    if wbit a 6 && stnExchange (s.station q n) then
      let key := q * 4 + s.exchangePhase p
      let count := (s.parcel p).exch.sent.look 0 key
      let note := Signal.marker q n p (s.exchangePhase p) count
      modify fun t => ({ t with signals := t.signals ++ [note] } : State).onExchange p fun e =>
        { e with sent := e.sent.drop key }
    else modify fun t => { t with signals := t.signals ++ [.arrive q n (p, 0, 0)] }
    proceed

/-- `STN.EXP` (R173). -/
def execStnExp (ra rb : Reg) (s : State) : Host.Outcome State Fault Refusal :=
  s.attempt (.stnExp ra rb) 0 do
    let a := s.reg ra
    let b := s.reg rb
    let p := s.here
    let n := wbits a 5 0
    check (wbits a 63 6 = 0 && wbits b 63 36 = 0) codeIllegal 0
    let x := s.station p n
    check (stnPending x + b.toNat < 2 ^ 36 && !stnComplete x && !stnFault x) codeStationRange a
    modify fun t => (t.setStation p n (setF x 95 60 (stnPending x + b.toNat))).advance p

/-- `STN.DONE` (R174). -/
def execStnDone (ra : Reg) (s : State) : Host.Outcome State Fault Refusal :=
  s.attempt (.stnDone ra) 0 do
    let a := s.reg ra
    let p := s.here
    let n := wbits a 5 0
    check (wbits a 63 6 = 0) codeIllegal 0
    let x := s.station p n
    modify fun t =>
      let t1 := (t.setStation p n (setF (setF (setF x 111 96 (stnExpected x)) 95 60 0) 50 50 1)).testStation p n
      (t1.settleExchange p (t1.exchangeFuel p)).advance p

/-- What `STN.TEST` writes (R175). -/
def stationWord (x : BitVec 128) : Word :=
  BitVec.ofNat 64 (stnPending x * 2 ^ 28 + stnArrivals x * 2 ^ 12 + stnCompletions x % 128 * 2 ^ 5 + stnPhase x * 2 ^ 3 +
    (if stnFault x then 4 else 0) + (if stnForced x then 2 else 0) + (if stnComplete x then 1 else 0))

/-- `STN.TEST` (R175). -/
def execStnTest (rd ra : Reg) (s : State) : Host.Outcome State Fault Refusal :=
  s.attempt (.stnTest rd ra) 0 do
    let a := s.reg ra
    check (wbits a 63 6 = 0) codeIllegal 0
    let x := s.station s.here a.toNat
    if stnComplete x then modify fun t => t.acquire (.core s.here) (scopeOfCode (stnScope x))
    finish rd (stationWord x)

end Sys2Proof.Machine
end

