-- ==== Sys2Proof/Machine/Trellis.lean ====
section
/-! DEFINITION. Trellis-coded weights and the trellis encoder: windows, the value function, the Viterbi search, and the
`TW` instructions (R341-R356). -/

namespace Sys2Proof.Machine

/-! ### The value function and windows (R341-R344) -/

/-- Decode a window under a BF16 row scale (R344). -/
def twDecode (w rs : Nat) : Rounded :=
  let t := (w * 0x2C9277B5 + 0x7F4A7C15) % 2 ^ 32
  let g : Int := (bits t 7 0 + bits t 15 8 + bits t 23 16 + bits t 31 24 : Nat) - 510
  match fmtBf16.decode rs with
  | .nan sig => ⟨fmtBf16.nanCode, if sig then flagInvalid else 0, 0⟩
  | .inf neg =>
    if g = 0 then ⟨fmtBf16.nanCode, flagInvalid, 0⟩ else ⟨fmtBf16.infCode (neg != decide (g < 0)), 0, 0⟩
  | .fin neg m e => fmtBf16.round .rne false 0 ⟨neg != decide (g < 0), g.natAbs * m, e - 9, false⟩

/-- First bit of the window of weight `j` (R343). -/
def twStart (s j : Nat) : Nat := j / 4 * s + j % 4 * s / 4
/-- Bits of a row of `n` weights (R341). -/
def twBits (s n : Nat) : Nat := n / 4 * s
/-- The window of a weight in a row's bits, given as a number (R343). -/
def twWindow (row s n j : Nat) : Nat :=
  (List.range 12).foldl (fun v m => v + row / 2 ^ ((twStart s j + m) % twBits s n) % 2 * 2 ^ m) 0

/-- Rows of an entry, and the row of a linear row number (R341). -/
def lgRows (e : Legend) : Nat := lgDim e 1 * lgDim e 2 * lgDim e 3
def lgRow (e : Legend) (r : Nat) : Row :=
  (r % lgDim e 1, r / lgDim e 1 % lgDim e 2, r / (lgDim e 1 * lgDim e 2))

/-- The bits of a weight's window in its row, and the bytes that hold them, each once in the order of its bits (R343, R353). -/
def windowPlace (e : Legend) (j : Nat) : List Nat :=
  (List.range 12).map fun m => (twStart (lgBlock e) j + m) % twBits (lgBlock e) (lgDim e 0)
def weightBytes (e : Legend) (j : Nat) : List Nat := ((windowPlace e j).map (· / 8)).eraseDups
/-- The window in the bytes read for it. -/
def gatheredWindow (e : Legend) (j : Nat) (got : List (Nat × Byte)) : Nat :=
  ((windowPlace e j).zipIdx).foldl (fun v b =>
    v + ((got.lookup (b.1 / 8)).getD 0).toNat / 2 ^ (b.1 % 8) % 2 * 2 ^ b.2) 0

/-- Read the window of a weight: its bytes are separate accesses, loads of the core one in a step each, and those made are kept while
the instruction holds for the others, and with `more` for what it reads after them (R353, R358). -/
def readWindow (u : Writer) (p : Nat) (sc : Scope) (e : Legend) (row : Row) (j : Nat) (more : Bool) : Act Nat := do
  let s ← get
  let got := (s.core p).gathered
  match (weightBytes e j).drop got.length with
  | [] => pure (gatheredWindow e j got)
  | i :: rest => do
    let bs ← readRow u p sc e row (8 * i) 1
    let now := got ++ [(i, bs.headD 0)]
    modify fun t => t.onCore p fun c => { c with gathered := now }
    if more || !rest.isEmpty then throw .hold
    pure (gatheredWindow e j now)

/-- What an instruction gathered is used. -/
def State.useGathered (s : State) (p : Nat) : State := s.onCore p fun c => { c with gathered := [] }

/-- The scale of a row (R341). -/
def readRowScale (u : Writer) (p : Nat) (sc : Scope) (e : Legend) (row : Row) : Act Nat := do
  let x ← legendOf p (lgScaleEntry e)
  let bs ← readRow u p sc x row 0 2
  pure (Decode.leNat bs)

/-! ### Window registers (R346, R353, R354) -/

/-- A window register's value (R346). -/
def windowWord (legend row scope j w : Nat) : Word :=
  BitVec.ofNat 64 (2 ^ 63 + legend * 2 ^ 53 + row * 2 ^ 31 + scope * 2 ^ 28 + j * 2 ^ 12 + w)

def State.setWindow (s : State) (p i : Nat) (v : Word) : State :=
  s.onParcel p fun x => { x with windows := x.windows.setIfInBounds i v }
def State.window (s : State) (p i : Nat) : Word := (s.parcel p).windows.toList.getD i 0
/-- Set sticky flags of a parcel's Graticule (R344). -/
def State.grFlags (s : State) (p : Nat) (fl : FFlags) : State :=
  s.onParcel p fun x => { x with gr := { x.gr with flags := x.gr.flags ||| fl } }

/-- `TW.SEEK` (R353). -/
def execTwSeek (rd ra rb : Reg) (s : State) : Host.Outcome State Fault Refusal :=
  s.attempt (.twSeek rd ra rb) 5 do
    let a := s.reg ra
    let b := s.reg rb
    let p := s.here
    check (wbits a 7 3 = 0 && wbits a 19 18 = 0 && wbits a 63 23 = 0 && wbits b 31 22 = 0 && wbits b 63 48 = 0)
      codeIllegal 0
    let sc ← scopeField (wbits a 22 20)
    let e ← legendOf p (wbits a 17 8)
    check (lgIsTcw e) codeIllegal 0
    let row := wbits b 21 0
    let j := wbits b 47 32
    check (row < lgRows e && j < lgDim e 0) codeTrellisRange b
    let w ← readWindow (.core p) p sc e (lgRow e row) j false
    let v := windowWord (wbits a 17 8) row (wbits a 22 20) j w
    modify fun t => (t.useGathered p).setWindow p (wbits a 2 0) v
    finish rd v

/-- `TW.READ`: the window's bytes, then the scale (R354, R358). -/
def execTwRead (rd ra : Reg) (s : State) : Host.Outcome State Fault Refusal :=
  s.attempt (.twRead rd ra) 5 do
    let a := s.reg ra
    let p := s.here
    check (wbits a 63 4 = 0) codeIllegal 0
    let v := s.window p (wbits a 2 0)
    check (wbit v 63) codeIllegal 0
    let sc := scopeOfCode (wbits v 30 28)
    let e ← legendOf p (wbits v 62 53)
    let j := wbits v 27 12
    let row := lgRow e (wbits v 52 31)
    let w ← readWindow (.core p) p sc e row j true
    let rs ← readRowScale (.core p) p sc e row
    let x := twDecode w rs
    let next := if wbit a 3 then j else (j + 1) % lgDim e 0
    modify fun t => ((t.useGathered p).grFlags p x.flags).setWindow p (wbits a 2 0)
      (windowWord (wbits v 62 53) (wbits v 52 31) (wbits v 30 28) next w)
    finish rd (BitVec.ofNat 64 (x.code + w * 2 ^ 16 + j * 2 ^ 32))

/-! ### The Viterbi search (R347-R349) -/

/-- Bits that step `j` appends: 1 or 2 (R343, R347). -/
def twDelta (s n j : Nat) : Nat := (if j + 1 = n then twBits s n else twStart s (j + 1)) - twStart s j

/-- What a state keeps after a step: metric, predecessor, and the appended bits (R348). -/
abbrev Survivor := Option (Nat × Nat × Nat)

/-- An FP32 operation of the encoder, rounded to nearest even; a subnormal result is flushed in the mode for it (R34, R348). -/
def rne32 (ftz : Bool) (p : Pre) : Nat := (fmtF32.finish .rne ftz 0 p).code

/-- The cost of a decoded value against a target. Flush-to-zero reads a subnormal target as zero; it does not apply to the decoded
value (R34, R348, log 133). -/
def twCost (ftz : Bool) (d t : Nat) : Nat :=
  let e := rne32 ftz (fAdd .rne (fmtBf16.decode d) (fmtBf16.flush ftz (fmtBf16.decode t)).negate)
  rne32 ftz (fMulVal (fmtF32.decode e) (fmtF32.decode e))

/-- One step: every branch of every state that is a candidate, states and branches in ascending order; a state keeps
the least metric, the earlier of equals (R347, R348). -/
def twStep (ftz : Bool) (values : List Nat) (delta target : Nat) (m : Array (Option Nat)) : Array Survivor :=
  (List.range 2048).foldl (fun (acc : Array Survivor) s =>
    match m.getD s none with
    | none => acc
    | some cost => (List.range (2 ^ delta)).foldl (fun (acc : Array Survivor) a =>
        let w := s + a % 2 * 2048
        let next := s / 2 ^ delta + a * 2 ^ (11 - delta)
        let new := rne32 ftz (fAdd .rne (fmtF32.decode cost) (fmtF32.decode (twCost ftz (values.getD w 0) target)))
        match acc.getD next none with
        | none => acc.setIfInBounds next (some (new, s, a))
        | some (old, _, _) => if new < old then acc.setIfInBounds next (some (new, s, a)) else acc) acc)
    (Array.replicate 2048 none)

/-- All steps from step `j`: what every state keeps after each, last step first. -/
def twPass (ftz : Bool) (values : List Nat) (s n : Nat) : List Nat → Nat → Array (Option Nat) → List (Array Survivor) →
    List (Array Survivor)
  | [], _, _, kept => kept
  | t :: ts, j, m, kept =>
    let r := twStep ftz values (twDelta s n j) t m
    twPass ftz values s n ts (j + 1) (r.map fun x => x.map (·.1)) (r :: kept)

/-- The state with the least metric, the lower index of equals (R349). -/
def twBest (last : Array Survivor) : Nat :=
  ((List.range 2048).foldl (fun (b : Option (Nat × Nat)) s =>
    match last.getD s none with
    | none => b
    | some (m, _, _) => match b with
      | none => some (m, s)
      | some (m0, _) => if m < m0 then some (m, s) else b) none).elim 0 (·.2)

/-- The appended bits along the survivor path that ends in a state, in step order: value and count of each step. -/
def twTrace (s n : Nat) : List (Array Survivor) → Nat → Nat → List (Nat × Nat) → List (Nat × Nat)
  | [], _, _, out => out
  | r :: rs, j, st, out =>
    match r.getD st none with
    | none => out
    | some (_, prev, a) => twTrace s n rs (j - 1) prev ((a, twDelta s n j) :: out)

/-- The bits of a row for targets under a scale (R347-R349). -/
def twEncode (ftz : Bool) (s : Nat) (targets : List Nat) (rs : Nat) : Nat :=
  let n := targets.length
  let values := (List.range 4096).map fun w => (twDecode w rs).code
  let pass1 := twPass ftz values s n targets 0 (Array.replicate 2048 (some 0)) []
  let e := twBest (pass1.headD #[])
  let pass2 := twPass ftz values s n targets 0 ((Array.replicate 2048 none).setIfInBounds e (some 0)) []
  let path := twTrace s n pass2 (n - 1) e []
  let all := path.foldl (fun (acc : Nat × Nat) x => (acc.1 + x.1 * 2 ^ acc.2, acc.2 + x.2)) (e, 11)
  all.1 % 2 ^ twBits s n

/-! ### Requests (R350, R351, R355) -/

def EncRequest.scope (r : EncRequest) : Scope := scopeOfCode (wbits r.control 24 21)
def EncRequest.shadow (r : EncRequest) : Bool := wbit r.control 19
def EncRequest.targetIndex (r : EncRequest) : Nat := field r.desc 0 2
def EncRequest.outIndex (r : EncRequest) : Nat := field r.desc 2 2
def EncRequest.first (r : EncRequest) : Nat := field r.desc 4 4
def EncRequest.rows (r : EncRequest) : Nat := field r.desc 8 4 + 1
def EncRequest.autoScale (r : EncRequest) : Bool := field r.desc 12 1 = 1

/-- The entry of the scale that a request writes too: that of its output, with auto scale. -/
def EncRequest.scaleIndex (r : EncRequest) (o : Legend) : Option Nat := if r.autoScale then some (lgScaleEntry o) else none

def State.onEnc (s : State) (p : Nat) (f : EncRequest → EncRequest) : State :=
  s.onParcel p fun x => { x with enc := f x.enc }
def State.onEncQueue (s : State) (v : Nat) (f : List Nat → List Nat) : State :=
  { s with provinces := s.provinces.alter Province.reset v fun x => { x with encQueue := f x.encQueue } }

/-- `TW.ENC`: `FLAGS` counts as it stands at issue (R34, R351, R355). -/
def execTwEnc (rd ra rb : Reg) (s : State) : Host.Outcome State Fault Refusal :=
  s.attempt (.twEnc rd ra rb) 5 do
    let c := s.reg ra
    let va := s.reg rb
    let p := s.here
    check (wbits c 63 32 = 0 && wbits c 18 0 = 0 && (!wbit c 20 || wbit c 19)) codeIllegal 0
    let sc ← scopeField (wbits c 24 21)
    aligned va 32
    issueRelease sc
    let d ← readVa (.engine p) sc va 32
    let r : EncRequest := ⟨1, 0, c, d, [], (s.core p).flags.getLsbD 0⟩
    check (field d 4 4 < 2 ^ 22 && field d 8 4 < 2 ^ 22 && field d 12 1 ≤ 1 && field d 13 19 = 0) codeIllegal 0
    let t ← legendOf p r.targetIndex
    let o ← legendOf p r.outIndex
    check (lgFormat t = 9 && lgIsTcw o && ((List.range 4).all fun k => lgDim t k = lgDim o k) && lgDim o 0 ≤ 4096 &&
      r.first + r.rows ≤ lgRows o) codeIllegal 0
    let taken := s.overlayTaken p false r.outIndex || (r.scaleIndex o).any (s.overlayTaken p false)
    check ((s.parcel p).enc.state = 0 && !(r.shadow && taken)) codeBufferState 0xFFFFFFFFFFFFFFFF
    modify fun st =>
      let st1 := if r.shadow then (st.openOverlay p false r.outIndex).overlayScale p r.outIndex (r.scaleIndex o) else st
      (st1.onEnc p fun _ => r).onEncQueue (p / 64) (· ++ [p])
    finish rd (s.meridian + BitVec.ofNat 64 (max 16 (16 + r.rows * (2 * lgDim o 0 + 64)) + Config.promise s.tick))

/-- The status word of a parcel's request: the first of an encoder's queue is the one that it serves; the count of rows is kept
modulo 2^22, all that its field holds (R351, R356). -/
def State.encStatus (s : State) (p : Nat) : Word :=
  let r := (s.parcel p).enc
  let ahead := (((s.province (p / 64)).encQueue.takeWhile (· ≠ p)).length) % 64
  let now := if r.state = 1 && ahead = 0 then 2 else r.state.toNat
  BitVec.ofNat 64 (r.rowsDone % 2 ^ 22 * 2 ^ 20 + (if now = 1 then ahead * 2 ^ 8 else 0) + now)

/-- `TW.STAT` (R356). -/
def execTwStat (rd ra : Reg) (s : State) : Host.Outcome State Fault Refusal :=
  s.attempt (.twStat rd ra) 5 do
    let a := s.reg ra
    check (a.toNat ≤ 8) codeIllegal 0
    finish rd (if a.toNat = 8 then s.encStatus s.here else s.window s.here a.toNat)

/-- Write bytes of a row, in shadow mode into the overlay of an index (R78, R355). -/
def writeShadowed (u : Writer) (p : Nat) (sc : Scope) (shadow : Option Nat) (e : Legend) (row : Row) (bit : Nat) (data : List Byte) :
    Act Unit := do
  match shadow with
  | none => writeRow u p sc e row bit data
  | some idx => do
    let b ← baseOf p e
    shadowSpan u p sc false idx (spanFuel data.length) (rowAddress b e row bit) data

/-- Encode one row of a request: its bytes and, with auto scale, its scale (R350, R351). -/
def encodeRow (p : Nat) (r : EncRequest) : Act (List Byte × Option Nat) := do
  let t ← legendOf p r.targetIndex
  let o ← legendOf p r.outIndex
  let k := r.first + r.rowsDone
  let row := lgRow o k
  let n := lgDim o 0
  let bs ← readRow (.engine p) p r.scope t row 0 (2 * n)
  let targets := (List.range n).map fun j => field bs (2 * j) 2
  let special := fun (x : Nat) => 255 ≤ bits x 14 7
  check (!targets.any special) codeIllegal (BitVec.ofNat 64 k)
  let rs ← if r.autoScale then pure ((targets.map (· % 2 ^ 15)).foldl max 0) else readRowScale (.engine p) p r.scope o row
  check (!special rs) codeIllegal (BitVec.ofNat 64 k)
  let size := twBits (lgBlock o) n
  pure (Decode.leBytes ((size + 7) / 8) (twEncode r.ftz (lgBlock o) targets rs), if r.autoScale then some rs else none)

/-- Bytes with their offsets, gathered into runs that stand side by side. -/
def runsOf : List (Nat × Byte) → List (Nat × List Byte)
  | [] => []
  | x :: xs =>
    match runsOf xs with
    | (a, bs) :: rest => if a = x.1 + 1 then (x.1, x.2 :: bs) :: rest else (x.1, [x.2]) :: (a, bs) :: rest
    | [] => [(x.1, [x.2])]

/-- Write bytes of the row in progress at their offsets; those past the row are the scale's (R351). -/
def writeEncoded (p : Nat) (r : EncRequest) (data : List (Nat × Byte)) : Act Unit := do
  let o ← legendOf p r.outIndex
  let row := lgRow o (r.first + r.rowsDone)
  let shadow := if r.shadow then some r.outIndex else none
  let size := (twBits (lgBlock o) (lgDim o 0) + 7) / 8
  (runsOf (data.filter fun x => x.1 < size)).forM fun x => writeShadowed (.engine p) p r.scope shadow o row (8 * x.1) x.2
  let scale := data.filter fun x => size ≤ x.1
  if !scale.isEmpty then do
    let x ← legendOf p (lgScaleEntry o)
    (runsOf scale).forM fun b => writeShadowed (.engine p) p r.scope shadow x row (8 * (b.1 - size)) b.2

/-- The first part of a row: its bits are found, and those bytes of the row and its scale that come first are written; which do
is open, and so what a reader in between finds of the row, but a shadow write shows nothing before its publish (R357,
R358). The rest is kept. -/
def beginRow (p : Nat) (r : EncRequest) : Act (List (Nat × Byte)) := do
  let s ← get
  let (bytes, scale) ← encodeRow p r
  let all := (bytes ++ (scale.elim [] (Decode.leBytes 2))).zipIdx.map fun x => (x.2, x.1)
  let first := fun (x : Nat × Byte) => Config.rowByte s.tick x.1
  writeEncoded p r (all.filter first)
  pure (all.filter fun x => !first x)

/-- A request leaves its encoder. -/
def State.leaveEncoder (s : State) (p : Nat) : State :=
  (s.onEnc p fun r => { r with state := 0, rest := [] }).onEncQueue (p / 64) (·.filter (· ≠ p))

/-- A request ends with a fault: no publish, no arrival, an open overlay goes (R152, R355). -/
def State.faultEncoder (s : State) (p : Nat) (code : Byte) (value : Word) : State :=
  let r := (s.parcel p).enc
  let s1 := if r.shadow then s.discardOverlay p false r.outIndex else s
  (s1.leaveEncoder p).report p code 5 0 none value

/-- A request whose rows are written completes: publish, then the arrival, a release at its scope; earlier shadow
requests of the core to the target come first, and a segment that reserves bytes of it (R159, R351, R396). -/
def State.finishEncoder (s : State) (p : Nat) : State :=
  let r := (s.parcel p).enc
  let publish := wbit r.control 20
  if r.rowsDone < r.rows || (publish && !(s.shadowSerials p false r.outIndex).isEmpty) then s
  else
    match (if publish then publishCheck (.engine p) p false r.outIndex else pure ()) s with
    | .error .hold t => t
    | .error (.fault c v) _ => s.faultEncoder p c v
    | .ok _ _ =>
      let s1 := if publish then s.showOverlay p false r.outIndex else s
      let s2 := s1.leaveEncoder p
      let hidden := if r.shadow && !publish then some r.outIndex else none
      if wbit r.control 25
      then (s2.release (.engine p) r.scope).sendArrival p (wbits r.control 31 26) 5 (hiddenMark 0 hidden) else s2

/-- A row is written. -/
def State.rowEncoded (s : State) (p : Nat) : State :=
  (s.onEnc p fun r => { r with state := 2, rowsDone := r.rowsDone + 1, rest := [] }).finishEncoder p

/-- `ENCODER_ROW`: a province's encoder begins the next row of its oldest request, and finishes the row it has begun
(R351). -/
def execEncoderRow (prov : Nat) (s : State) : Host.Outcome State Fault Refusal :=
  match (s.province prov).encQueue with
  | [] => .next s
  | p :: _ =>
    let r := (s.parcel p).enc
    if !s.enginesRun p then .next s
    else if r.rows ≤ r.rowsDone then .next (s.finishEncoder p)
    else if r.rest.isEmpty then
      match beginRow p r s with
      | .ok rest s1 => .next (if rest.isEmpty then s1.rowEncoded p else s1.onEnc p fun r => { r with state := 2, rest := rest })
      | .error (.fault c v) _ => .next (s.faultEncoder p c v)
      | .error .hold s1 => .next s1
    else match writeEncoded p r r.rest s with
      | .ok _ s1 => .next (s1.rowEncoded p)
      | .error (.fault c v) _ => .next (s.faultEncoder p c v)
      | .error .hold s1 => .next s1

/-- The address at which the row in progress reads its targets, for a fault that names none. -/
def State.encoderAddress (s : State) (p : Nat) (r : EncRequest) : Word :=
  let t := s.legendAt p r.targetIndex
  match (s.regionOf p).bind fun x => s.legendBase x.1 x.2 t with
  | some b => rowAddress b t (lgRow t (r.first + r.rowsDone)) 0
  | none => 0

/-- `ENCODER_FAULT`: an error of the memory, the host or a link at the row being encoded; the faults that the row itself has are
found as it is encoded (R355, R466, R470). -/
def execEncoderFault (prov : Nat) (code : Byte) (s : State) : Host.Outcome State Fault Refusal :=
  match (s.province prov).encQueue with
  | [] => .next s
  | p :: _ =>
    let r := (s.parcel p).enc
    if !s.enginesRun p || r.rows ≤ r.rowsDone || !outsideCode code then .next s
    else .next (s.faultEncoder p code (s.encoderAddress p r))

end Sys2Proof.Machine
end

