-- ==== Sys2Proof/Machine/Graticule.lean ====
section
/-! DEFINITION. The Graticule engine: weight slots, tiles, the sequencer, drains, recurrences, save and restore, and the
`GR` instructions (R315-R340). -/

namespace Sys2Proof.Machine

/-! ### A command's fields (R329, R332-R335) -/

def GrCommand.scope (c : GrCommand) : Scope := scopeOfCode (wbits c.control 24 21)
def GrCommand.counted (c : GrCommand) : Bool := wbit c.control 25
def GrCommand.publish (c : GrCommand) : Bool := wbit c.control 20
def GrCommand.autodrain (c : GrCommand) : Bool := wbit c.control 18
def GrCommand.accumulate (c : GrCommand) : Bool := wbit c.control 17
def GrCommand.tile (c : GrCommand) : Nat := wbits c.control 16 16
def GrCommand.slot (c : GrCommand) : Nat := wbits c.control 15 14
def GrCommand.stream (c : GrCommand) : Bool := wbit c.control 13
def GrCommand.port (c : GrCommand) : Nat := wbits c.control 12 11
def GrCommand.drainWord (c : GrCommand) : BitVec 32 :=
  BitVec.ofNat 32 (match c.fn with
    | 1 => field c.desc 20 4
    | _ => field c.desc 16 4)
def GrCommand.mmA (c : GrCommand) : Nat := field c.desc 0 2
def GrCommand.staging (c : GrCommand) : Nat := field c.desc 4 4
def GrCommand.m0 (c : GrCommand) : Nat := field c.desc 8 2
def GrCommand.mmK0 (c : GrCommand) : Nat := field c.desc 10 2
def GrCommand.mmM (c : GrCommand) : Nat := field c.desc 12 2 + 1
def GrCommand.transposed (c : GrCommand) : Bool := field c.desc 14 1 = 1
def GrCommand.mmRow0 (c : GrCommand) : Nat := field c.desc 16 2
def GrCommand.mmCol0 (c : GrCommand) : Nat := field c.desc 18 2
def GrCommand.scanT (c : GrCommand) : Nat := field c.desc 6 2 + 1
def GrCommand.scanM (c : GrCommand) : Nat := field c.desc 8 2 + 1
def GrCommand.scanN (c : GrCommand) : Nat := field c.desc 10 2 + 1
def GrCommand.scanT0 (c : GrCommand) : Nat := field c.desc 12 2
def GrCommand.output (c : GrCommand) : Bool := c.drainWord.getLsbD 8

def State.gr (s : State) (p : Nat) : Graticule := (s.parcel p).gr
def State.onGr (s : State) (p : Nat) (f : Graticule → Graticule) : State := s.onParcel p fun x => { x with gr := f x.gr }
/-- A tile's state: 0 EMPTY, 1 FILLING, 2 DONE, 3 DRAINING (R321, R338). -/
def Graticule.tile (g : Graticule) (t : Nat) : Nat := (g.tiles.toList.getD t 0).toNat
def Graticule.setTile (g : Graticule) (t : Nat) (v : BitVec 2) : Graticule := { g with tiles := g.tiles.setIfInBounds t v }

/-! ### Weight slots (R317, R318) -/

def slotFormat (x : Word) : Nat := wbits x 63 59
def slotBase (x : Word) : Int := signedF x 58 52
def slotBlock (x : Word) : Nat := wbits x 51 46
/-- Offset in bytes. -/
def slotOffset (x : Word) : Nat := 64 * wbits x 45 34
def slotK (x : Word) : Nat := wbits x 33 18 + 1
def slotN (x : Word) : Nat := wbits x 17 2 + 1
def slotValid (x : Word) : Bool := wbit x 0
def Graticule.slotWord (g : Graticule) (i : Nat) : Word := g.slots.toList.getD i 0

def isBlock (f : Nat) : Bool := 15 ≤ f && f ≤ 17
/-- Bits of a column of K codes; S counts quarters of a bit. -/
def columnBits (f block k : Nat) : Nat := if f = 18 then k / 4 * block else k * formatBits f
/-- Bytes of a column: whole words of 64. -/
def columnBytes (f block k : Nat) : Nat := 64 * ceilDiv (columnBits f block k) 512
/-- Bytes of a load's scale area. -/
def scaleAreaBytes (f k n : Nat) : Nat :=
  if isBlock f then k / blockLength (formatBits f) * n else if f = 18 then 2 * n else 0
def loadBytes (f block k n : Nat) : Nat := columnBytes f block k * n + scaleAreaBytes f k n
def slotEnd (x : Word) : Nat := slotOffset x + loadBytes (slotFormat x) (slotBlock x) (slotK x) (slotN x)

/-- Formats of A; B adds `tcw` (R315, R316). -/
def operandFormat (f : Nat) : Bool := f = 0 || f = 4 || (8 ≤ f && f ≤ 17)
/-- Formats of a drain (R327). -/
def drainFormat (f : Nat) : Bool := f < 3 || (4 ≤ f && f < 7) || (8 ≤ f && f ≤ 17)

/-- Addresses in the parcel's window (R57, R320). -/
def weightAddress (p off : Nat) : Nat := windowBase + p * 0x400000 + 0xC0000 + off
def tileAddress (p t i j : Nat) : Nat := windowBase + p * 0x400000 + 0x80000 + t * 0x20000 + 1024 * i + 4 * j
def State.tileCode (s : State) (p t i j : Nat) : Nat := Decode.leNat (s.homeRead (tileAddress p t i j) 4)
def State.setTileCode (s : State) (p t i j code : Nat) : State := s.homeWrite (tileAddress p t i j) (Decode.leBytes 4 code)
/-- Every element of a tile +0. -/
def State.zeroTile (s : State) (p t : Nat) : State := s.homeWrite (tileAddress p t 0 0) (List.replicate 0x20000 0)

/-! ### Operands (R316, R319) -/

/-- Values with the flags that reading them sets. -/
abbrev Values := List FVal × FFlags

/-- The value of an element that is no block code and no trellis weight. An integer product that is 0 takes the sign of its operands
in the test of R52 for -0 (log 138, the model's choice: the manual gives integers no signed zero). -/
def plainValue (f : Nat) (ftz : Bool) (code : Nat) : FVal :=
  match lgFmt f with
  | some x => x.flush ftz (x.decode code)
  | none =>
    let v := intOf (formatBits f) (4 ≤ f) code
    .fin (v < 0) v.natAbs 0

/-- The values of codes, each with the scale byte of its block where it has one. -/
def valuesOf (f : Nat) (base : Int) (ftz : Bool) (codes : List (Nat × Nat)) : Values :=
  if isBlock f then
    let vs := codes.map fun c => blockValue (formatBits f) base c.2 c.1
    (vs.map (·.1), if vs.any (·.2) then flagInvalid else 0)
  else (codes.map fun c => plainValue f ftz c.1, 0)

/-- Column `j` of B from k = `k0`, `n` codes, as the decompressor reads it. -/
def State.weightColumn (s : State) (p : Nat) (x : Word) (ftz : Bool) (j k0 n : Nat) : Values :=
  let f := slotFormat x
  let size := columnBytes f (slotBlock x) (slotK x)
  let col := Decode.leNat (s.homeRead (weightAddress p (slotOffset x + size * j)) size)
  let area := slotOffset x + size * slotN x
  let ks := (List.range n).map (k0 + ·)
  if f = 18 then
    let rs := Decode.leNat (s.homeRead (weightAddress p (area + 2 * j)) 2)
    let ws := ks.map fun k => twDecode (twWindow col (slotBlock x) (slotK x) k) rs
    (ws.map fun w => fmtBf16.decode w.code, ws.foldl (fun a w => a ||| w.flags) 0)
  else
    let w := formatBits f
    let len := blockLength w
    valuesOf f (slotBase x) ftz (ks.map fun k =>
      (col / 2 ^ (w * k) % 2 ^ w,
       if isBlock f then (s.homeRead (weightAddress p (area + slotK x / len * j + k / len)) 1).foldl (fun _ b => b.toNat) 0
       else 0))

/-- Codes `i0` to `i0 + n - 1` of a row of a tensor, as one number's bits from a bit offset. -/
def readCodes (p : Nat) (sc : Scope) (e : Legend) (row : Row) (i0 n : Nat) : Act (List Nat) := do
  let first := elementBit e i0 / 8
  let last := (elementBit e (i0 + n - 1) + lgBits e + 7) / 8
  let bs ← readRow (.graticule p) p sc e row (8 * first) (last - first)
  let x := Decode.leNat bs
  pure ((List.range n).map fun i => x / 2 ^ (elementBit e (i0 + i) - 8 * first) % 2 ^ lgBits e)

/-- Values of a row of a tensor. -/
def readValues (p : Nat) (sc : Scope) (e : Legend) (ftz : Bool) (row : Row) (i0 n : Nat) : Act Values := do
  let codes ← readCodes p sc e row i0 n
  if lgIsBlock e then do
    let len := blockLength (lgWidth e)
    let b0 := i0 / len
    let sb ← readScale (.graticule p) p sc e row b0 ((i0 + n - 1) / len + 1 - b0)
    pure (valuesOf (lgFormat e) (lgScaleBase e) ftz
      (codes.zipIdx.map fun c => (c.1, (sb.getD ((i0 + c.2) / len - b0) 0).toNat)))
  else pure (valuesOf (lgFormat e) 0 ftz (codes.map fun c => (c, 0)))

/-! ### Sums (R52, R324) -/

/-- The exact sum of a run's products. -/
def runSum (ps : List (FVal × FVal)) : Pre :=
  let prods := ps.map fun x => fMulVal x.1 x.2
  if prods.any fun x => match x with | .nan _ => true | _ => false then .nan flagInvalid
  else
    let pos := prods.any fun x => match x with | .inf n _ => !n | _ => false
    let neg := prods.any fun x => match x with | .inf n _ => n | _ => false
    if pos && neg then .nan flagInvalid
    else if pos then .inf false 0
    else if neg then .inf true 0
    else
      let vs := prods.filterMap fun x => match x with | .val v => some v | _ => none
      let low := vs.foldl (fun b v => if v.m = 0 then b else min b v.e) (2000 : Int)
      let sum := vs.foldl (fun a v => if v.m = 0 then a else a + signedMag v.neg v.m * 2 ^ (v.e - low).toNat) (0 : Int)
      if sum = 0 then .val ⟨!vs.isEmpty && vs.all fun v => v.m = 0 && v.neg, 0, 0, false⟩
      else .val ⟨sum < 0, sum.natAbs, low, false⟩

/-- Add the runs of a chunk to an accumulator, each rounded once; a subnormal accumulator is read as zero under flush-to-zero
(R34, R316). -/
def addRuns (ftz : Bool) : Nat → List (FVal × FVal) → Nat × FFlags → Nat × FFlags
  | 0, _, acc => acc
  | k + 1, ps, acc =>
    if ps.isEmpty then acc
    else
      let r := fmtF32.finish .rne ftz 0 (runSum (ps.take 32))
      let t := fmtF32.finish .rne ftz 0 (fAdd .rne (fmtF32.flush ftz (fmtF32.decode acc.1)) (fmtF32.decode r.code))
      addRuns ftz k (ps.drop 32) (t.code, acc.2 ||| r.flags ||| t.flags)

/-- Write codes into a tile's rows. -/
def State.putTile (s : State) (p t : Nat) (rows : List (List Nat)) : State :=
  rows.zipIdx.foldl (fun st r => r.1.zipIdx.foldl (fun st c => st.setTileCode p t r.2 c.2 c.1) st) s

/-! ### Faults (R331) -/

/-- A command's overlay goes and its drains write nothing more of it; they still empty their tiles. -/
def State.forsake (s : State) (p : Nat) (c : GrCommand) : State :=
  let s1 := if c.shadow then s.discardOverlay p false c.target else s
  s1.onGr p fun g =>
    { g with drains := g.drains.map fun d =>
        if d.cmd.serial = c.serial then { d with final := false, rows := if c.shadow then 0 else d.rows } else d }

/-- Free the outbound side of a port that a stream-mode command holds (R333). -/
def State.leaveStream (s : State) (p : Nat) (c : GrCommand) : State :=
  if c.stream then s.onPort p c.port fun w =>
    if w.outHolder = .graticule c.serial then { w with outHolder := .free } else w
  else s

/-- The running command ends, and the tile it fills becomes EMPTY. -/
def State.dropRun (s : State) (p : Nat) (r : GrRun) : State :=
  (s.leaveStream p r.cmd).onGr p fun g =>
    { (if r.begun then g.setTile ((r.cmd.tile + r.tile) % 2) 0 else g) with running := none }

/-- A command faults: the tile it fills becomes EMPTY, the queue is discarded, and its core is told. -/
def State.faultGr (s : State) (p : Nat) (c : GrCommand) (code : Byte) (value : Word) : State :=
  let s1 := (s.forsake p c).leaveStream p c
  (match (s.gr p).running with
   | some r => if r.cmd.serial = c.serial then s1.dropRun p r else s1
   | none => s1).dropCommands p code c.fn value

/-- Take an action of a command, or its fault, or a wait. -/
def State.grAct (s : State) (p : Nat) (c : GrCommand) (k : Act Unit) : Host.Outcome State Fault Refusal :=
  match k s with
  | .ok _ t => .next t
  | .error (.fault code v) _ => .next (s.faultGr p c code v)
  | .error .hold t => .next t

/-- The value of a fault whose second word the manual does not state (log 8). -/
def openValue : Act Word := do
  let s ← get
  pure (Config.freeWord s.tick)
/-- Fault with a code whose second word is open. -/
def grCheck (ok : Bool) (code : Byte) : Act Unit := do
  let v ← openValue
  check ok code v

/-! ### Checks at issue (R329, R330) -/

/-- The fields of the control word that a function uses. -/
def grMask : Nat → Nat
  | 0 => 0xFFE0C000
  | 1 => 0xFFFFF800
  | 2 | 3 => 0xFFF90000
  | 4 => 0x00010000
  | _ => 0xFFE00000

def need (ok : Bool) : Act Unit := check ok codeIllegal 0

/-- The drain word of a command that writes to a legend. -/
def drainWordOk (w : Nat) (e : Legend) (scan : Bool) : Bool :=
  bits w 31 9 = 0 && bits w 7 5 = 0 && (scan || bits w 8 8 = 0) && bits w 2 0 ≤ 4 &&
  (if lgIsBlock e then lgFormat e = 15 || bits w 4 3 ≠ 3 else bits w 4 3 = 0)

/-- Words of a k-step of `m` rows in stream mode, as a stream of the legend packs them: for `b6`, whose words carry 80 codes
(R43, R138), a last tile of fewer rows may take one more than R315's bits would fill (log 116). -/
def stepWords (e : Legend) (m : Nat) : Nat := ceilDiv m (perWord e)

def checkLoad (p : Nat) (c : GrCommand) : Act Unit := do
  let d := c.desc
  need (field d 4 4 = 0 && field d 12 4 = 0 && field d 20 12 = 0)
  let e ← legendOf p (field d 16 2)
  let k0 := field d 0 2
  let n0 := field d 2 2
  let k := field d 8 2 + 1
  let n := field d 10 2 + 1
  need ((operandFormat (lgFormat e) || lgIsTcw e) && k0 + k ≤ lgDim e 0 && n0 + n ≤ lgDim e 1)
  need (!lgIsBlock e || (k0 % lgBlock e = 0 && k % lgBlock e = 0))
  need (!lgIsTcw e || (k0 = 0 && k = lgDim e 0))
  need (64 * field d 18 2 + loadBytes (lgFormat e) (lgBlock e) k n ≤ 0x40000)

def checkMultiply (p : Nat) (c : GrCommand) : Act Unit := do
  let d := c.desc
  need (field d 14 1 ≤ 1 && field d 15 1 = 0 && field d 24 8 = 0 && (c.stream || c.staging = 0))
  need (!c.shadow || c.autodrain)
  let a ← legendOf p c.mmA
  need (operandFormat (lgFormat a) && c.m0 + c.mmM ≤ lgDim a (if c.transposed then 1 else 0))
  need (!lgIsBlock a || (if c.transposed then c.mmK0 % lgBlock a = 0
    else c.m0 % lgBlock a = 0 && c.mmM % lgBlock a = 0))
  need (!c.stream || (lgFormat a ≠ 10 && !c.transposed && c.staging % 64 = 0 &&
    c.staging + 2 * 256 * stepWords a (min 128 c.mmM) * 64 ≤ 0x60000))
  if c.autodrain then do
    let e ← legendOf p c.target
    need (drainFormat (lgFormat e) && drainWordOk c.drainWord.toNat e false && c.mmRow0 + c.mmM ≤ lgDim e 1 &&
      (!lgIsBlock e || c.mmCol0 % lgBlock e = 0))
  else need (c.target = 0 && field d 16 8 = 0)

def checkScan (p : Nat) (c : GrCommand) : Act Unit := do
  let d := c.desc
  need (c.scanM ≤ 128 && c.scanN ≤ 256 && field d 14 2 = 0 && field d 20 12 = 0 && (c.output || (c.target = 0 && !c.shadow)))
  let ok := fun (e : Legend) => 8 ≤ lgFormat e && lgFormat e ≤ 10 && c.scanN ≤ lgDim e 0 && c.scanM ≤ lgDim e 1 &&
    c.scanT0 + c.scanT ≤ lgDim e 2
  let a ← legendOf p (field d 0 2)
  let b ← legendOf p (field d 2 2)
  need (ok a && ok b && drainWordOk c.drainWord.toNat a true)
  if c.output then do
    let h ← legendOf p c.target
    need (ok h)

def checkDrain (p : Nat) (c : GrCommand) : Act Unit := do
  let d := c.desc
  let rows := field d 4 2 + 1
  let cols := field d 6 2 + 1
  need (field d 2 2 = 0 && field d 20 12 = 0 && field d 8 2 + rows ≤ 128 && field d 10 2 + cols ≤ 256)
  let e ← legendOf p c.target
  need (drainFormat (lgFormat e) && drainWordOk c.drainWord.toNat e false && field d 12 2 + rows ≤ lgDim e 1 &&
    field d 14 2 + cols ≤ lgDim e 0)
  need (!lgIsBlock e || (field d 14 2 % lgBlock e = 0 && cols % lgBlock e = 0))

/-! ### Save and restore (R337) -/

/-- A command as 64 bytes of the image (log 41). -/
def commandBytes (c : GrCommand) : List Byte :=
  Decode.leBytes 8 (c.fn + (if c.ftz then 256 else 0)) ++ Decode.leBytes 8 c.control.toNat ++
  Decode.leBytes 8 c.va.toNat ++ Decode.leBytes 8 c.serial ++ (List.range 32).map fun i => c.desc.getD i 0
def commandOf (bs : List Byte) : GrCommand :=
  ⟨field bs 24 8, bits (field bs 0 8) 7 0, wordOf (slice bs 8 8), slice bs 32 32, wordOf (slice bs 16 8), field bs 1 1 = 1⟩

/-- The position register (R325). -/
def Graticule.position (g : Graticule) : Word :=
  match g.running with
  | none => 0
  | some r => BitVec.ofNat 64 (r.tile * 2 ^ 48 + (if r.cmd.fn = 2 then r.chunk / 256 else r.chunk) * 2 ^ 32 +
      r.staged * 2 ^ 16 + r.cmd.fn + 1)

/-- The first 4 KiB of the image (log 41). -/
def Graticule.header (g : Graticule) : List Byte :=
  let w := fun (x : Nat) => Decode.leBytes 8 x
  let cmds := (g.running.elim [] fun r => [r.cmd]) ++ g.queue
  let bs := w 0x47520001 ++ w g.position.toNat ++ w (g.tile 0 + 4 * g.tile 1) ++
    g.slots.toList.flatMap (fun x => w x.toNat) ++ w g.flags.toNat ++ w g.gen.toNat ++ w cmds.length ++
    cmds.flatMap commandBytes
  bs ++ List.replicate (4096 - bs.length) 0

/-- The engine that an image's first 4 KiB describe. -/
def graticuleOf (bs : List Byte) : Graticule :=
  let w := fun (i : Nat) => field bs (8 * i) 8
  let pos := wordOf (slice bs 8 8)
  let n := min 9 (w 9)
  let cmds := (List.range n).map fun i => commandOf (slice bs (80 + 64 * i) 64)
  let tiles : Vector (BitVec 2) 2 := Vector.ofFn fun i => BitVec.ofNat 2 (w 2 / 4 ^ i.val)
  let running := match wbits pos 2 0, cmds with
    | 0, _ => none
    | _, [] => none
    | _, c :: _ =>
      let t := wbits pos 63 48
      let k := wbits pos 47 32
      some (GrRun.mk c t (if c.fn = 2 then 256 * k else k) (wbits pos 31 16)
        ((tiles.toList.getD ((c.tile + t) % 2) 0) = 1))
  { Graticule.reset with
    slots := Vector.ofFn fun i => BitVec.ofNat 64 (w (3 + i.val)), tiles := tiles, flags := BitVec.ofNat 5 (w 7),
    gen := BitVec.ofNat 32 (w 8), queue := if running.isSome then cmds.drop 1 else cmds, running := running }

/-- A running stream-mode command holds its port's outbound side where that is free (R333). -/
def State.holdStream (s : State) (p : Nat) : State :=
  match (s.gr p).running with
  | some r => if r.cmd.stream then s.onPort p r.cmd.port fun w => if w.outHolder = .free then { w with outHolder := .graticule r.cmd.serial } else w
    else s
  | none => s

/-- Where an image stands: the physical address of its first page. -/
def imageAddress (p : Nat) (c : GrCommand) (kind : AccessKind) : Act Nat := do
  let m ← translate (.graticule p) c.va kind
  pure m.pa

/-- Restore an engine from its image, with the scale lanes of the words staged when it was written; what completes is the `GR.REST` itself, after what had completed before. An image that is
none leaves the engine idle. -/
def restoreGr (p : Nat) (c : GrCommand) : Act Unit := do
  let bs ← readSpan (.graticule p) c.scope (spanFuel 0x81000) c.va 0x81000
  let at_ ← imageAddress p c .read
  let v ← openValue
  modify fun s =>
    let s1 := match (s.gr p).running with
      | some r => s.dropRun p r
      | none => s
    if field bs 0 8 = 0x47520001 then
      let acc := s1.homeWrite (tileAddress p 0 0 0) (slice bs 0x1000 0x40000)
      let s2 := acc.homeWrite (weightAddress p 0) (slice bs 0x41000 0x40000)
      (s2.onGr p fun g => { graticuleOf bs with finishing := g.finishing ++ [c], lanes := (s.images.find at_).getD g.lanes }).holdStream p
    else (s1.onGr p fun g => { g with saved := false }).dropCommands p codeIllegal 6 v

/-- `GR.REST`, which the instruction has issued: a fault of its reads is reported, and the engine stands as it stood but for
the queue (R331, R337, log 117). -/
def restoreIssued (p : Nat) (c : GrCommand) : Act Unit := do
  let s ← get
  match restoreGr p c s with
  | .ok _ t => set t
  | .error (.fault code v) _ => set (s.dropCommands p code 6 v)
  | .error .hold t => do
    set t
    throw .hold

/-! ### Issue (R323, R329, R330) -/

/-- The status word (R338). -/
def Graticule.status (g : Graticule) : Word :=
  BitVec.ofNat 64 (g.queue.length % 16 * 2 ^ 20 + (if g.running.isSome then 2 ^ 19 else 0) +
    (if g.saved then 2 ^ 18 else 0) + g.tile 1 * 2 ^ 16 + g.tile 0 * 2 ^ 14 + g.flags.toNat)

/-- `GR.STAT`'s value and effect (R338). -/
def statGr (p : Nat) (a : Word) : Act Word := do
  let s ← get
  let g := s.gr p
  need (a.toNat < 8 && a.toNat ≠ 3)
  if a.toNat = 2 then modify fun t => t.onGr p fun g => { g with flags := 0 }
  pure (match a.toNat with
    | 0 | 2 => g.status
    | 1 => g.position
    | k => g.slotWord (k - 4))

/-- Issue of a queued command, of a save or of a restore: the checks, the release, and the promise (R330, R340). -/
def issueGr (p fn : Nat) (a b : Word) (ftz : Bool) : Act Word := do
  need (wbits a 63 32 = 0 && a.toNat &&& grMask fn = a.toNat)
  let sc ← if fn = 4 then pure .y else scopeField (wbits a 24 21)
  need (!wbit a 20 || wbit a 19)
  if fn = 5 || fn = 6 then aligned b 4096 else if fn ≠ 4 then aligned b 32
  if fn ≠ 4 then modify fun s => s.release (.core p) sc
  let d ← if fn < 4 then readVa (.graticule p) sc b 32 else pure []
  let s ← get
  let g := s.gr p
  let c : GrCommand := ⟨(s.parcel p).serial, fn, a, d, b, ftz⟩
  match fn with
  | 0 => checkLoad p c
  | 1 => checkMultiply p c
  | 2 => checkScan p c
  | 3 => checkDrain p c
  | _ => pure ()
  let free := g.saving.isNone && (match fn with
    | 5 => !g.saved
    | 6 => g.saved || !g.busy
    | _ => !g.saved && g.queue.length < 8)
  check (free && !(c.shadow && s.overlayTaken p false c.target)) codeBufferState 0xFFFFFFFFFFFFFFFF
  modify fun t => (if c.shadow then t.openOverlay p false c.target else t).onParcel p fun x => { x with serial := x.serial + 1 }
  match fn with
  | 5 => modify fun t => t.onGr p fun g => { g with saving := some c }
  | 6 => restoreIssued p c
  | _ => modify fun t => t.onGr p fun g => { g with queue := g.queue ++ [c] }
  pure s.newPromise

/-- A Surveyor issue. -/
def State.grInstr (s : State) (i : Instr) (fn : Nat) (rd ra rb : Reg) : Host.Outcome State Fault Refusal :=
  s.attempt i 4 do
    let v ← issueGr s.here fn (s.reg ra) (s.reg rb) ((s.core s.here).flags.getLsbD 0)
    finish rd v

/-- `GR.LDW` (R332). -/
def execGrLdw (rd ra rb : Reg) (s : State) : Host.Outcome State Fault Refusal := s.grInstr (.grLdw rd ra rb) 0 rd ra rb
/-- `GR.MM` (R333). -/
def execGrMm (rd ra rb : Reg) (s : State) : Host.Outcome State Fault Refusal := s.grInstr (.grMm rd ra rb) 1 rd ra rb
/-- `GR.SCAN` (R334). -/
def execGrScan (rd ra rb : Reg) (s : State) : Host.Outcome State Fault Refusal := s.grInstr (.grScan rd ra rb) 2 rd ra rb
/-- `GR.DRN` (R335). -/
def execGrDrn (rd ra rb : Reg) (s : State) : Host.Outcome State Fault Refusal := s.grInstr (.grDrn rd ra rb) 3 rd ra rb
/-- `GR.ZERO` (R336). -/
def execGrZero (ra : Reg) (s : State) : Host.Outcome State Fault Refusal := s.grInstr (.grZero ra) 4 0 ra 0
/-- `GR.SAVE` (R337). -/
def execGrSave (rd ra rb : Reg) (s : State) : Host.Outcome State Fault Refusal := s.grInstr (.grSave rd ra rb) 5 rd ra rb
/-- `GR.REST` (R337). -/
def execGrRest (rd ra rb : Reg) (s : State) : Host.Outcome State Fault Refusal := s.grInstr (.grRest rd ra rb) 6 rd ra rb
/-- `GR.STAT` (R338). -/
def execGrStat (rd ra : Reg) (s : State) : Host.Outcome State Fault Refusal :=
  s.attempt (.grStat rd ra) 4 do
    let v ← statGr s.here (s.reg ra)
    finish rd v

/-! ### Follow-on commands (R157, R158) -/

/-- The function of a staged engine-4 word. -/
def stagedFn (w : BitVec 32) : Option Nat :=
  match Decode.surveyor w with
  | .ok (.grLdw _ _ _) => some 0
  | .ok (.grMm _ _ _) => some 1
  | .ok (.grScan _ _ _) => some 2
  | .ok (.grDrn _ _ _) => some 3
  | .ok (.grZero _) => some 4
  | .ok (.grSave _ _ _) => some 5
  | .ok (.grRest _ _ _) => some 6
  | .ok (.grStat _ _) => some 7
  | _ => none

/-- Issue a staged command as if its core had issued it. -/
def issueStaged (p : Nat) (x : Staged) : Act Unit := do
  let s ← get
  match stagedFn x.word with
  | none => raise codeIllegal 0
  | some 7 => do
    let _ ← statGr p x.a
  | some fn => do
    let _ ← issueGr p fn x.a x.b ((s.core p).flags.getLsbD 0)

/-- `FOLLOW_ON_ISSUE`: a request's staged command is issued once its last byte has landed, or with its publish; it waits
while the queue is full, and a refusal is reported (R158, R323). The manual states no value for such a packet: word 1 is the
staged word for `ILLEGAL_INSTRUCTION` and what a trap of the instruction would give otherwise (log 118). -/
def execFollowOnIssue (p slot : Nat) (s : State) : Host.Outcome State Fault Refusal :=
  match s.trav p slot with
  | none => .next s
  | some t =>
    match t.follow with
    | none => .next s
    | some x =>
      if !s.enginesRun p || !s.travOver p slot t || (t.shadow && !t.published) || 8 ≤ (s.gr p).queue.length then .next s
      else
        let gone := fun (st : State) => if t.done then st.dropTrav p slot else st.setTrav p slot { t with follow := none }
        match issueStaged p x s with
        | .ok _ s1 => .next (gone s1)
        | .error .hold s1 => .next s1
        | .error (.fault c v) _ =>
          let w := if c = codeIllegal then x.word.setWidth 64 else v
          let h := if t.fills || t.fromBuffer then some t.handle else none
          .next ((gone s).report p c 4 slot h w)

/-! ### The order of one core's commands (R84, R340) -/

/-- The blocks of rows of a tensor that hold elements `i0` to `i0 + n - 1`, and their scales. -/
def State.spanBlocks (s : State) (p : Nat) (e : Legend) (rows : List Row) (i0 n : Nat) : List Nat :=
  let first := elementBit e i0 / 8 * 8
  let bytes := (elementBit e (i0 + n - 1) + lgBits e - first + 7) / 8
  let len := blockLength (lgWidth e)
  rows.flatMap fun row => s.rowBlocks p e row first bytes ++
    (if lgIsBlock e then s.rowBlocks p (s.legendAt p (lgScaleEntry e)) row (8 * (i0 / len)) ((i0 + n - 1) / len + 1 - i0 / len)
     else [])

/-- The blocks that a drain still has to write. -/
def State.drainBlocks (s : State) (p : Nat) (d : GrDrain) : List Nat :=
  s.spanBlocks p (s.legendAt p d.legend) ((List.range d.rows).map fun i => (d.row0 + i, 0, 0)) d.col0 d.cols

/-- Whether an earlier command's drain still has to write a block that a command reads or writes next. -/
def State.drainWaits (s : State) (p : Nat) (c : GrCommand) (blocks : List Nat) : Bool :=
  (s.gr p).drains.any fun d => d.cmd.serial ≠ c.serial && !d.cmd.shadow &&
    (s.drainBlocks p d).any fun b => b ∈ blocks

/-- The blocks that a load reads. -/
def State.loadBlocks (s : State) (p : Nat) (c : GrCommand) : List Nat :=
  let e := s.legendAt p (field c.desc 16 2)
  let rows : List Row := (List.range (field c.desc 10 2 + 1)).map fun j => (field c.desc 2 2 + j, 0, 0)
  if lgIsTcw e then rows.flatMap fun row =>
    s.rowBlocks p e row 0 (ceilDiv (columnBits 18 (lgBlock e) (field c.desc 8 2 + 1)) 8) ++
      s.rowBlocks p (s.legendAt p (lgScaleEntry e)) row 0 2
  else s.spanBlocks p e rows (field c.desc 0 2) (field c.desc 8 2 + 1)

/-! ### Running commands (R324, R328) -/

/-- Load a block of B: every slot whose bytes overlap becomes invalid (R317). -/
def runLoad (p : Nat) (c : GrCommand) : Act Unit := do
  let d := c.desc
  let e ← legendOf p (field d 16 2)
  let k0 := field d 0 2
  let n0 := field d 2 2
  let k := field d 8 2 + 1
  let n := field d 10 2 + 1
  let f := lgFormat e
  let size := columnBytes f (lgBlock e) k
  let cols ← (List.range n).mapM fun j => do
    let row : Row := (n0 + j, 0, 0)
    if lgIsTcw e then do
      let nb := columnBits f (lgBlock e) k
      let bs ← readRow (.graticule p) p c.scope e row 0 ((nb + 7) / 8)
      pure (Decode.leNat bs % 2 ^ nb)
    else do
      let codes ← readCodes p c.scope e row k0 k
      pure (codes.zipIdx.foldl (fun v x => v + x.1 * 2 ^ (formatBits f * x.2)) 0)
  let scales ← (List.range n).mapM fun j => do
    let row : Row := (n0 + j, 0, 0)
    if lgIsTcw e then do
      let rs ← readRowScale (.graticule p) p c.scope e row
      pure (Decode.leBytes 2 rs)
    else if lgIsBlock e then readScale (.graticule p) p c.scope e row (k0 / lgBlock e) (k / lgBlock e)
    else pure []
  let o := field d 18 2
  let new : Word := BitVec.ofNat 64 (f * 2 ^ 59 + getF e 247 241 * 2 ^ 52 + lgBlock e * 2 ^ 46 + o % 4096 * 2 ^ 34 +
    (k - 1) * 2 ^ 18 + (n - 1) * 4 + 1)
  modify fun s =>
    let s1 := s.homeWrite (weightAddress p (64 * o)) (cols.flatMap (Decode.leBytes size) ++ scales.flatten)
    s1.onGr p fun g =>
      let kept := g.slots.map fun x =>
        if slotValid x && slotOffset x < slotEnd new && slotOffset new < slotEnd x then x &&& ~~~1 else x
      { g with slots := kept.setIfInBounds c.slot new, queue := g.queue.drop 1, finishing := g.finishing ++ [c] }

/-- C tiles of a multiply, rows and columns. -/
def GrCommand.mTiles (c : GrCommand) : Nat := ceilDiv c.mmM 128
def nTiles (x : Word) : Nat := ceilDiv (slotN x) 256
def kChunks (x : Word) : Nat := ceilDiv (slotK x) 256

/-- What a multiply is checked for when it starts (R331). -/
def startMultiply (p : Nat) (c : GrCommand) : Act Unit := do
  let s ← get
  let x := (s.gr p).slotWord c.slot
  let a ← legendOf p c.mmA
  grCheck (slotValid x) codeIllegal
  let count := c.mTiles * nTiles x
  grCheck (c.mmK0 + slotK x ≤ lgDim a (if c.transposed then 0 else 1) && (c.autodrain || count = 1) &&
    (!c.accumulate || count = 1)) codeIllegal
  if c.autodrain then do
    let e ← legendOf p c.target
    grCheck (c.mmCol0 + slotN x ≤ lgDim e 0 && (lgFormat e ≠ 16 || slotN x ≤ 256) &&
      (!lgIsBlock e || slotN x % lgBlock e = 0)) codeIllegal
  grCheck (!c.accumulate || (s.gr p).tile c.tile = 2) codeBufferState

/-- The next C tile becomes FILLING, with +0 in every element unless the command accumulates. -/
def State.beginTile (s : State) (p : Nat) (r : GrRun) : State :=
  let t := (r.cmd.tile + r.tile) % 2
  let s1 := if r.cmd.fn = 2 || r.cmd.accumulate then s else s.zeroTile p t
  s1.onGr p fun g => { g.setTile t 1 with running := some { r with begun := true } }

/-- `GRATICULE_COMMAND_START`: the command at the head of the queue begins; it waits for a tile that is DRAINING and for
the port side it needs (R323, R324, R333). -/
def execGraticuleCommandStart (p : Nat) (s : State) : Host.Outcome State Fault Refusal :=
  let g := s.gr p
  match g.queue with
  | [] => .next s
  | c :: rest =>
    if !s.enginesRun p || g.running.isSome || g.saving.isSome || g.saved || s.pausing p then .next s
    else
      let sq := s.onGr p fun g => { g with queue := rest }
      let waits := g.tile c.tile = 3
      match c.fn with
      | 0 => if s.drainWaits p c (s.loadBlocks p c) then .next s else (match runLoad p c s with
          | .ok _ t => .next t
          | .error (.fault code v) _ => .next (sq.faultGr p c code v)
          | .error .hold t => .next t)
      | 1 =>
        if waits || (c.stream && s.portHolder p c.port true ≠ .free) then .next s
        else (match startMultiply p c sq with
          | .ok _ t =>
            let t1 := if c.stream then t.onPort p c.port fun w => { w with outHolder := .graticule c.serial } else t
            .next (t1.beginTile p ⟨c, 0, 0, 0, false⟩)
          | .error (.fault code v) _ => .next (sq.faultGr p c code v)
          | .error .hold t => .next t)
      | 2 =>
        if waits then .next s
        else if g.tile c.tile ≠ 2 then .next (sq.faultGr p c codeBufferState (Config.freeWord s.tick))
        else .next (sq.beginTile p ⟨c, 0, 0, 0, false⟩)
      | 3 =>
        if waits then .next s
        else if g.tile c.tile ≠ 2 then .next (sq.faultGr p c codeBufferState (Config.freeWord s.tick))
        else
          let d : GrDrain := ⟨c.tile, c, c.target, c.drainWord, field c.desc 8 2, field c.desc 10 2, field c.desc 4 2 + 1,
            field c.desc 6 2 + 1, field c.desc 12 2, field c.desc 14 2, true⟩
          .next (sq.onGr p fun g => { g.setTile c.tile 3 with drains := g.drains ++ [d] })
      | _ => if waits then .next s else .next ((sq.zeroTile p c.tile).onGr p fun g => g.setTile c.tile 2)

/-- The A values of the rows of a chunk from the tensor. -/
def chunkRows (p : Nat) (c : GrCommand) (a : Legend) (i0 rows k0 n : Nat) : Act (List (List FVal) × FFlags) := do
  if c.transposed then do
    let vs ← (List.range rows).mapM fun i => readValues p c.scope a c.ftz (c.m0 + i0 + i, 0, 0) (c.mmK0 + k0) n
    pure (vs.map (·.1), vs.foldl (fun f v => f ||| v.2) 0)
  else do
    let vs ← (List.range n).mapM fun k => readValues p c.scope a c.ftz (c.mmK0 + k0 + k, 0, 0) (c.m0 + i0) rows
    pure ((List.range rows).map fun i => vs.map fun v => v.1.getD i (.fin false 0 0), vs.foldl (fun f v => f ||| v.2) 0)

/-- Bytes between the two chunks of the staging area (R333). -/
def GrCommand.stagingHalf (c : GrCommand) (a : Legend) : Nat := 256 * stepWords a (min 128 c.mmM) * 64
/-- Rows of C tile `i`, and k-steps of chunk `k`. -/
def GrCommand.tileRows (c : GrCommand) (i : Nat) : Nat := min 128 (c.mmM - 128 * (i % c.mTiles))
def chunkSteps (x : Word) (k : Nat) : Nat := min 256 (slotK x - 256 * k)
/-- The A words of a chunk of a C tile. -/
def chunkWords (c : GrCommand) (a : Legend) (x : Word) (tile chunk : Nat) : Nat :=
  chunkSteps x chunk * stepWords a (c.tileRows tile)
/-- Where in the scratchpad word `n` of a chunk is staged. -/
def stagingOffset (c : GrCommand) (a : Legend) (x : Word) (tile chunk n : Nat) : Nat :=
  c.staging + (tile * kChunks x + chunk) % 2 * c.stagingHalf a + 64 * n
def stagingAddress (p : Nat) (c : GrCommand) (a : Legend) (x : Word) (tile chunk n : Nat) : Nat :=
  windowBase + p * 0x400000 + stagingOffset c a x tile chunk n

/-- The A values of the rows of a chunk from the staged words. -/
def State.stagedRows (s : State) (p : Nat) (c : GrCommand) (a : Legend) (x : Word) (r : GrRun) : List (List FVal) × FFlags :=
  let rows := c.tileRows r.tile
  let per := perWord a
  let wpk := stepWords a rows
  let w := lgBits a
  let steps := (List.range (chunkSteps x r.chunk)).map fun k =>
    valuesOf (lgFormat a) (lgScaleBase a) c.ftz ((List.range rows).map fun i =>
      let n := k * wpk + i / per
      let word := Decode.leNat (s.homeRead (stagingAddress p c a x r.tile r.chunk n) 64)
      (word / 2 ^ (w * (i % per)) % 2 ^ w,
       if lgIsBlock a then scaleByte ((s.gr p).lanes.look 0 (stagingOffset c a x r.tile r.chunk n)) (i % per / blockLength w) else 0))
  ((List.range rows).map fun i => steps.map fun v => v.1.getD i (.fin false 0 0), steps.foldl (fun f v => f ||| v.2) 0)

/-- One K-chunk of a multiply (R324): the sums of the C tile, then DONE and the autodrain after the last chunk. -/
def runChunk (p : Nat) (r : GrRun) : Act Unit := do
  let s ← get
  let c := r.cmd
  let x := (s.gr p).slotWord c.slot
  let a ← legendOf p c.mmA
  let nt := r.tile / c.mTiles
  let mt := r.tile % c.mTiles
  let t := (c.tile + r.tile) % 2
  let rows := c.tileRows r.tile
  let cols := min 256 (slotN x - 256 * nt)
  let n := chunkSteps x r.chunk
  if c.stream then
    reserveCheck (.graticule p) (stagingAddress p c a x r.tile r.chunk 0) (64 * chunkWords c a x r.tile r.chunk)
      (Config.freeWord s.tick)
  let av ← if c.stream then pure (s.stagedRows p c a x r) else chunkRows p c a (128 * mt) rows (256 * r.chunk) n
  let bv := (List.range cols).map fun j => s.weightColumn p x c.ftz (256 * nt + j) (256 * r.chunk) n
  let sums := av.1.zipIdx.map fun ar => bv.zipIdx.map fun bc =>
    addRuns c.ftz 9 (ar.1.zip bc.1.1) (s.tileCode p t ar.2 bc.2, 0)
  let flags := sums.foldl (fun f l => l.foldl (fun f y => f ||| y.2) f) (bv.foldl (fun f v => f ||| v.2) av.2)
  let used := if c.stream then chunkWords c a x r.tile r.chunk else 0
  let next : GrRun := { r with staged := r.staged - used }
  let final := r.tile + 1 = c.mTiles * nTiles x
  modify fun s =>
    let s1 := (s.putTile p t (sums.map fun l => l.map (·.1))).grFlags p flags
    if r.chunk + 1 < kChunks x then s1.onGr p fun g => { g with running := some { next with chunk := r.chunk + 1 } }
    else
      let s2 := s1.onGr p fun g => { g.setTile t 2 with running := some { next with tile := r.tile + 1, chunk := 0, begun := false } }
      let s3 := if !c.autodrain then s2 else
        let d : GrDrain := ⟨t, c, c.target, c.drainWord, 0, 0, rows, cols, c.mmRow0 + 128 * mt, c.mmCol0 + 256 * nt, final⟩
        s2.onGr p fun g => { g.setTile t 3 with drains := g.drains ++ [d] }
      if !final then s3
      else s3.onGr p fun g =>
        { g with running := none, finishing := if c.autodrain then g.finishing else g.finishing ++ [c] }

/-- The conversion of a tile's element to a plain format (R327): its code, flags and the generator. -/
def convertElement (f : Nat) (mode : Rounding) (ftz : Bool) (gen : BitVec 32) (code : Nat) : Rounded :=
  match lgFmt f with
  | some x =>
    if f = 10 then
      let v := fmtF32.flush ftz (fmtF32.decode code)
      ⟨match v with | .fin n 0 _ => fmtF32.signBit n | _ => code, 0, gen⟩
    else convFloat fmtF32 x mode ftz false gen code
  | none => toInt mode (formatBits f) (4 ≤ f) gen (fmtF32.flush ftz (fmtF32.decode code))

/-- A row of elements in ascending order. -/
def convertRow (f : Nat) (mode : Rounding) (ftz : Bool) : List Nat → BitVec 32 → List Nat × FFlags × BitVec 32
  | [], g => ([], 0, g)
  | x :: xs, g =>
    let r := convertElement f mode ftz g x
    let (cs, fl, g1) := convertRow f mode ftz xs r.gen
    (r.code :: cs, r.flags ||| fl, g1)

/-- Write a converted row of plain elements, or of blocks with their scale bytes; the flags and the generator. -/
def writeConverted (p : Nat) (c : GrCommand) (e : Legend) (word : Nat) (row : Row) (col0 : Nat) (codes : List Nat)
    (gen : BitVec 32) : Act (FFlags × BitVec 32) := do
  let mode := modeOf (bits word 2 0)
  let shadow := if c.shadow then some c.target else none
  if lgIsBlock e then do
    let w := lgWidth e
    let len := blockLength w
    let sx ← legendOf p (lgScaleEntry e)
    (pieces len codes.length codes).zipIdx.foldlM (fun (acc : FFlags × BitVec 32) b => do
      let q := quantize w (bits word 4 3) mode (lgScaleBase e) acc.2
        (b.1.map fun x => fmtF32.flush c.ftz (fmtF32.decode x))
      let i := col0 + len * b.2
      let v := q.codes.zipIdx.foldl (fun n x => n + x.1 * 2 ^ (w * x.2)) 0
      writeShadowed (.graticule p) p c.scope shadow e row (elementBit e i) (Decode.leBytes (len * w / 8) v)
      writeShadowed (.graticule p) p c.scope shadow sx row (8 * (i / len)) (Decode.leBytes 1 q.scale)
      pure (acc.1 ||| q.flags, q.gen)) (0, gen)
  else do
    let (cs, fl, g) := convertRow (lgFormat e) mode c.ftz codes gen
    writeShadowed (.graticule p) p c.scope shadow e row (elementBit e col0) (cs.flatMap (Decode.leBytes (lgBits e / 8)))
    pure (fl, g)

/-- One step of a recurrence (R328): every element once, then the outputs. -/
def runStep (p : Nat) (r : GrRun) : Act Unit := do
  let s ← get
  let c := r.cmd
  let t := c.tile
  let step := c.scanT0 + r.chunk
  let word := c.drainWord.toNat
  let mode := modeOf (bits word 2 0)
  let a ← legendOf p (field c.desc 0 2)
  let b ← legendOf p (field c.desc 2 2)
  let av ← (List.range c.scanM).mapM fun i => readValues p c.scope a c.ftz (i, step, 0) 0 c.scanN
  let bv ← (List.range c.scanM).mapM fun i => readValues p c.scope b c.ftz (i, step, 0) 0 c.scanN
  let one := fun (acc : List Nat × FFlags × BitVec 32) (x : (FVal × FVal) × Nat) (i : Nat) =>
    let y := fmtF32.finish mode c.ftz acc.2.2 (fFma mode x.1.1 (fmtF32.flush c.ftz (fmtF32.decode (s.tileCode p t i x.2))) x.1.2)
    (acc.1 ++ [y.code], acc.2.1 ||| y.flags, y.gen)
  let rows := ((av.zip bv).zipIdx).foldl (fun (acc : List (List Nat) × FFlags × BitVec 32) v =>
    let out := ((v.1.1.1.zip v.1.2.1).zipIdx).foldl (fun q x => one q x v.2) ([], acc.2.1, acc.2.2)
    (acc.1 ++ [out.1], out.2.1, out.2.2)) ([], (0 : FFlags), (s.gr p).gen)
  let done ← if c.output then do
      let h ← legendOf p c.target
      rows.1.zipIdx.foldlM (fun (acc : FFlags × BitVec 32) v => do
        let (f, g) ← writeConverted p c h word (v.2, step, 0) 0 v.1 acc.2
        pure (acc.1 ||| f, g)) (rows.2.1, rows.2.2)
    else pure (rows.2.1, rows.2.2)
  let final := r.chunk + 1 = c.scanT
  modify fun s =>
    let s1 := ((s.putTile p t rows.1).grFlags p done.1).onGr p fun g => { g with gen := done.2 }
    if final then s1.onGr p fun g => { g.setTile t 2 with running := none, finishing := g.finishing ++ [c] }
    else s1.onGr p fun g => { g with running := some { r with chunk := r.chunk + 1 } }

/-- The blocks that the next chunk or step of a command reads and writes. -/
def State.runBlocks (s : State) (p : Nat) (r : GrRun) : List Nat :=
  let c := r.cmd
  if c.fn = 2 then
    let rows : List Row := (List.range c.scanM).map fun i => (i, c.scanT0 + r.chunk, 0)
    ([field c.desc 0 2, field c.desc 2 2] ++ if c.output then [c.target] else []).flatMap fun i =>
      s.spanBlocks p (s.legendAt p i) rows 0 c.scanN
  else if c.stream then []
  else
    let x := (s.gr p).slotWord c.slot
    let a := s.legendAt p c.mmA
    let i0 := c.m0 + 128 * (r.tile % c.mTiles)
    let k0 := c.mmK0 + 256 * r.chunk
    let range := fun (lo n : Nat) => (List.range n).map fun i => ((lo + i, 0, 0) : Row)
    if c.transposed then s.spanBlocks p a (range i0 (c.tileRows r.tile)) k0 (chunkSteps x r.chunk)
    else s.spanBlocks p a (range k0 (chunkSteps x r.chunk)) i0 (c.tileRows r.tile)

/-- Whether the sequencer stands at an interruption point (R325). -/
def GrRun.interruptible (r : GrRun) : Bool := r.cmd.fn ≠ 2 || (r.chunk % 256 = 0 && 0 < r.chunk)

/-- `TILE_DONE`: the sequencer goes on to the end of the next K-chunk or step, and with the last one the tile is DONE and
its autodrain begins; a tile that is DRAINING, A words that are not staged, and an earlier command's drain to what it reads
or writes make it wait (R324, R328, R333, R340). -/
def execTileDone (p : Nat) (s : State) : Host.Outcome State Fault Refusal :=
  match (s.gr p).running with
  | none => .next s
  | some r =>
    if !s.enginesRun p || (s.gr p).saved || (((s.gr p).saving.isSome || s.pausing p) && r.interruptible) then .next s
    else if s.drainWaits p r.cmd (s.runBlocks p r) then .next s
    else if r.cmd.fn = 2 then s.grAct p r.cmd (runStep p r)
    else if !r.begun then
      (if (s.gr p).tile ((r.cmd.tile + r.tile) % 2) = 3 then .next s else .next (s.beginTile p r))
    else
      let a := s.legendAt p r.cmd.mmA
      if r.cmd.stream && r.staged < chunkWords r.cmd a ((s.gr p).slotWord r.cmd.slot) r.tile r.chunk then .next s
      else s.grAct p r.cmd (runChunk p r)

/-- The chunk after one, in loop order. -/
def GrRun.following (r : GrRun) (x : Word) : Nat × Nat :=
  if r.chunk + 1 < kChunks x then (r.tile, r.chunk + 1) else (r.tile + 1, 0)

/-- `A_STREAM_WORD`: the port's next word is staged where the two chunks of the staging area have room for it; tokens
are discarded, and poison ends the command; the area may be reserved by a segment (R331, R333, R396). -/
def execAStreamWord (p : Nat) (s : State) : Host.Outcome State Fault Refusal :=
  let g := s.gr p
  match g.running with
  | none => .next s
  | some r =>
    let c := r.cmd
    match (s.port p c.port).outbound with
    | [] => .next s
    | x :: rest =>
      let s1 := s.onPort p c.port fun w => { w with outbound := rest }
      let a := s.legendAt p c.mmA
      let sw := g.slotWord c.slot
      let first := chunkWords c a sw r.tile r.chunk
      let f := r.following sw
      let second := if f.1 < c.mTiles * nTiles sw then chunkWords c a sw f.1 f.2 else 0
      if !s.enginesRun p || c.fn ≠ 1 || !c.stream || g.saving.isSome || g.saved || s.pausing p then .next s
      else if x.token then
        .next (if x.kind = 2 then s1.faultGr p c codePoison (Config.freeWord s.tick) else s1)
      else if first + second ≤ r.staged then .next s
      else if x.fmt.toNat ≠ lgTag a then .next (s1.faultGr p c codeIllegal (Config.freeWord s.tick))
      else
        let place := if r.staged < first then stagingOffset c a sw r.tile r.chunk r.staged
          else stagingOffset c a sw f.1 f.2 (r.staged - first)
        let pa := windowBase + p * 0x400000 + place
        match reserveCheck (.graticule p) pa 64 (Config.freeWord s.tick) s with
        | .error .hold t => .next t
        | .error (.fault code v) _ => .next (s1.faultGr p c code v)
        | .ok _ _ => .next ((s1.homeWrite pa (payloadBytes x.payload)).onGr p fun g =>
            { g with running := some { r with staged := r.staged + 1 }, lanes := g.lanes.put place x.scale })

/-- Write the rows of a drain from row `i`; `n` rows are left. -/
def drainRows (p : Nat) (d : GrDrain) (e : Legend) : Nat → Nat → FFlags × BitVec 32 → Act (FFlags × BitVec 32)
  | 0, _, acc => pure acc
  | n + 1, i, acc => do
    let s ← get
    let codes := (List.range d.cols).map fun j => s.tileCode p d.tile (d.tileRow + i) (d.tileCol + j)
    let (f, g) ← writeConverted p d.cmd e d.word.toNat (d.row0 + i, 0, 0) d.col0 codes acc.2
    drainRows p d e n (i + 1) (acc.1 ||| f, g)

/-- The drain's tile becomes EMPTY, and a command whose last drain it is completes. -/
def Graticule.endDrain (g : Graticule) (d : GrDrain) : Graticule :=
  { g.setTile d.tile 0 with drains := g.drains.drop 1,
                            finishing := if d.final then g.finishing ++ [d.cmd] else g.finishing }

/-- `DRAIN_COMPLETE`: the oldest drain converts and writes its span (R321, R327). -/
def execDrainComplete (p : Nat) (s : State) : Host.Outcome State Fault Refusal :=
  match (s.gr p).drains with
  | [] => .next s
  | d :: _ =>
    if !s.enginesRun p then .next s
    else
      let act : Act (FFlags × BitVec 32) := do
        let e ← legendOf p d.legend
        drainRows p d e d.rows 0 (0, (s.gr p).gen)
      match act s with
      | .ok (f, gen) t => .next ((t.grFlags p f).onGr p fun g => { g.endDrain d with gen := gen })
      | .error (.fault code v) _ =>
        .next ((s.onGr p fun g => g.endDrain { d with final := false }).faultGr p d.cmd code v)
      | .error .hold t => .next t

/-- `GRATICULE_COMMAND_COMPLETE`: the oldest command whose work is done publishes and makes its arrival, a release at its
scope; bytes that a segment has come to reserve are published as any write reaches them (R159, R326, R396). -/
def execGraticuleCommandComplete (p : Nat) (s : State) : Host.Outcome State Fault Refusal :=
  match (s.gr p).finishing with
  | [] => .next s
  | c :: rest =>
    if !s.enginesRun p || (c.publish && !(s.shadowSerials p false c.target).isEmpty) then .next s
    else
      let past := fun (t : State) => t.onGr p fun g => { g with finishing := rest }
      match (if c.publish then publishCheck (.graticule p) p false c.target else pure ()) s with
      | .error .hold t => .next t
      | .error (.fault code v) _ => .next ((past s).faultGr p c code v)
      | .ok _ _ =>
        let s1 := (past (if c.publish then s.showOverlay p false c.target else s)).leaveStream p c
        let hidden := if c.shadow && !c.publish then some c.target else none
        .next (if c.counted
          then (s1.release (.graticule p) c.scope).sendArrival p (wbits c.control 31 26) 4 (hiddenMark c.fn hidden) else s1)

/-- `GRATICULE_FAULT`: an access of the running command, or of the oldest drain, finds a media or link error (R331). -/
def execGraticuleFault (p : Nat) (code : Byte) (s : State) : Host.Outcome State Fault Refusal :=
  let g := s.gr p
  let at_ := fun (i : Nat) => ((s.regionOf p).bind fun x => s.legendBase x.1 x.2 (s.legendAt p i)).getD 0
  if !s.enginesRun p || g.saved then .next s
  else match g.running, g.drains with
    | some r, _ => .next (s.faultGr p r.cmd code (at_ r.cmd.mmA))
    | none, d :: _ =>
      .next ((s.onGr p fun g => g.endDrain { d with final := false }).faultGr p d.cmd code (at_ d.legend))
    | none, [] => .next s

/-- `GRATICULE_PAUSE`: a save has reached an interruption point and every drain is performed: the image is written and
the engine is left saved (R337, R339). -/
def execGraticulePause (p : Nat) (s : State) : Host.Outcome State Fault Refusal :=
  let g := s.gr p
  match g.saving with
  | none => .next s
  | some c =>
    if !s.enginesRun p || !g.drains.isEmpty || !(g.running.elim true GrRun.interruptible) then .next s
    else
      let done := fun (t : State) => t.onGr p fun g => { g with saving := none }
      let image := g.header ++ s.homeRead (tileAddress p 0 0 0) 0x40000 ++ s.homeRead (weightAddress p 0) 0x40000
      let act : Act Nat := do
        writeSpan (.graticule p) c.scope (spanFuel image.length) c.va image
        imageAddress p c .write
      match act s with
      | .ok at_ t => .next (({ done t with images := t.images.put at_ g.lanes } : State).onGr p fun g =>
          { g with saved := true, finishing := g.finishing ++ [c] })
      | .error (.fault code v) _ => .next ((done s).faultGr p c code v)
      | .error .hold t => .next t

end Sys2Proof.Machine
end

