-- ==== Sys2Proof/Machine/CellMem.lean ====
section
/-! DEFINITION. Cell instructions: memory operations at the address port (R193, R252-R259). A firing puts its request
into the port; the request is performed when the port's events reach it. -/

namespace Sys2Proof.Machine

/-- The address in lanes 1:0 of a source, both of which must be valid (R252). -/
def Source.address (x : Source) : Except CellStop Word :=
  if x.ownMask.getLsbD 0 && x.ownMask.getLsbD 1 then .ok (x.payload.extractLsb' 0 64) else .error cellIllegal
/-- A misaligned address is a precise fault (R254). -/
def alignedTo (n : Nat) (va : Word) : Except CellStop Word :=
  if va.toNat % n = 0 then .ok va else .error ⟨codeMisaligned, va, 0, true⟩
/-- A 64-byte aligned address of an operand. -/
def Firing.address (f : Firing) (n : Nat) (o : Operand) : Except CellStop Word := do
  let x ← f.read o
  let va ← x.address
  alignedTo n va

/-- The tag of words that a memory read delivers (R254). -/
def memTag (w : CellWord) (lo : Nat) : BitVec 4 :=
  if w.ty = 15 then BitVec.ofNat 4 (w.cf lo 3) else typeTag w.ty.toNat
/-- The scale lane of words that a memory read delivers (R254). -/
def memScale (tag : BitVec 4) : BitVec 32 :=
  if tag = 3 || tag = 4 || tag = 5 then 0 else if tag = 7 then 0xE000FFFF else 0xFFFF
/-- A word read from memory. -/
def memWord (tag : BitVec 4) (data : BitVec 512) : LinkWord := dataWord data (memScale tag) tag

/-- The effect of a firing that sends a request (R252). -/
def Firing.request (f : Firing) (op : PortOp) (va : Word) (scope : Scope) : Effect :=
  { f.quiet with entry := some ⟨op, va, scope, entryDest f.w f.t.ctx, BitVec.ofNat 3 f.t.ctx,
    BitVec.ofNat 3 f.t.slot, none, f.s.tick⟩ }
/-- The scope code of source C (R252). -/
def Firing.scope (f : Firing) : Scope := scopeOfCode (f.w.cf 0 3)

/-- `LD` from a buffer handle (R155, R254). The word is read at the firing where no earlier request of the cell is outstanding
and no segment reserves it, and else when the port reaches it (R253, R396); a pop frees the entry when the word is
delivered. -/
def Firing.readBuffer (f : Firing) (h : BitVec 7) : Except CellStop Effect := do
  let b ← f.read f.w.b
  let i := (laneOf b.payload 0).toNat
  let e := f.s.buffer f.t.p h.toNat
  if bufSize e ≤ i * 64 then .error cellIllegal else
  let pa := windowBase + f.t.p * 0x400000 + bufBase e + 64 * i
  let now := f.c.port.isEmpty && (f.s.reservers (.cell f.t.p f.t.m) pa 64).isEmpty
  let data := if now then some (bytesPayload (f.s.homeRead pa 64)) else none
  .ok { f.request (.buffer h pa data (memTag f.w 3) f.w.pop) 0 .c with drain := some h }

/-- `LD`. -/
def execCellLd (w : CellWord) (s : State) : Host.Outcome State Fault Refusal :=
  .next (s.fire 0x65 w fun f =>
    match w.a with
    | .handle h => f.readBuffer h
    | o => do
      let va ← f.address 64 o
      .ok (f.request (.load (memTag w 3)) va f.scope))

/-- `ST`: the bytes of the word's own valid lanes (R44, R255). -/
def execCellSt (w : CellWord) (s : State) : Host.Outcome State Fault Refusal :=
  .next (s.fire 0x66 w fun f => do
    let a ← f.read w.a
    let va ← f.address 64 w.b
    .ok (f.request (.store (toLane a.link) w.ty) va f.scope))

/-- `WALK`: first node in A, limit and signed offset in lanes 0 and 1 of B (R256). -/
def execWalk (w : CellWord) (s : State) : Host.Outcome State Fault Refusal :=
  .next (s.fire 0x67 w fun f => do
    let va ← f.address 64 w.a
    let b ← f.read w.b
    let off := (laneOf b.payload 1).signExtend 64
    .ok (f.request (.walk (memTag w 6) (w.cf 3 3) off (laneOf b.payload 0).toNat 0) va f.scope))

/-- `ATOM`: the operand and the value to compare with (R257). -/
def execAtom (w : CellWord) (s : State) : Host.Outcome State Fault Refusal :=
  .next (s.fire 0x68 w fun f => do
    let wide := CellWord.width f.ty = 64
    let va ← f.address (CellWord.width f.ty / 8) w.a
    let b ← f.read w.b
    let part := fun (i : Nat) => BitVec.ofNat 64 ((b.values f.ty).getD i 0)
    .ok (f.request (.atom (w.cf 3 3) wide (signedTy f.ty) (part 0) (part 1)) va f.scope))

/-- `LDV`: the version stands in lane 0 of B (R258). -/
def execCellLdv (w : CellWord) (s : State) : Host.Outcome State Fault Refusal :=
  .next (s.fire 0x69 w fun f => do
    let va ← f.address 64 w.a
    let b ← f.read w.b
    .ok (f.request (.ldv (memTag w 3) (w.c.getLsbD 6) (b.payload.extractLsb' 0 12)) va f.scope))

/-- `STV` (R259). -/
def execCellStv (w : CellWord) (s : State) : Host.Outcome State Fault Refusal :=
  .next (s.fire 0x6A w fun f => do
    let a ← f.read w.a
    let va ← f.address 64 w.b
    .ok (f.request (.stv (toLane a.link) w.ty (w.c.getLsbD 6)) va f.scope))

end Sys2Proof.Machine
end

