-- ==== Sys2Proof/Machine/CellStruct.lean ====
section
/-! DEFINITION. Cell instructions: structural nodes (R280-R292). -/

namespace Sys2Proof.Machine

/-- `GATE`: closed, it takes a completion token from B and opens; open, it moves the head of A and closes at a last
word. Its pops come from `ownPops`. -/
def execGate (w : CellWord) (s : State) : Host.Outcome State Fault Refusal :=
  .next (s.fire 0xE0 w fun f => do
    let k := w.cf 0 3
    if f.c.k.getLsbD k then
      let x ← f.read w.a
      let e := f.write x.link
      .ok (if x.link.last then { e with setPred := some (k, false) } else e)
    else
      let x ← f.read w.b
      if x.link.token && x.link.kind = 0 then .ok { f.quiet with setPred := some (k, true) }
      else .error cellIllegal)

/-- `DLY`: at a firing, a move; its priming happens at load. -/
def execDly (w : CellWord) (s : State) : Host.Outcome State Fault Refusal :=
  .next (s.fire 0xE1 w fun f => do
    let x ← f.read w.a
    .ok (f.write x.link))

/-- `MRG`: A when A holds a word, else B. Its pop comes from `ownPops`. -/
def execMrg (w : CellWord) (s : State) : Host.Outcome State Fault Refusal :=
  .next (s.fire 0xE2 w fun f => do
    let first : Bool := match w.a with
      | .iq q _ => 1 ≤ f.c.iq[q.toNat].filled
      | _ => true
    let x ← f.read (if first then w.a else w.b)
    .ok (f.write x.link))

/-- `STR`. -/
def execStr (w : CellWord) (s : State) : Host.Outcome State Fault Refusal :=
  .next (s.fire 0xE3 w fun f => do
    let x ← f.read w.a
    let _ ← f.read w.b
    .ok (if f.steer then { f.quiet with pushes := [(BitVec.ofNat 2 (w.cf 0 2), x.link, false)] } else f.write x.link))

/-- `TAG`. -/
def execTag (w : CellWord) (s : State) : Host.Outcome State Fault Refusal :=
  .next (s.fire 0xE4 w fun f => do
    let x ← f.read w.a
    .ok (f.write { x.link with ctx := BitVec.ofNat 3 (w.cf 0 3) }))

/-- `PROJ`: the translation is made when the port reaches it. -/
def execProj (w : CellWord) (s : State) : Host.Outcome State Fault Refusal :=
  .next (s.fire 0xE5 w fun f => do
    let x ← f.read w.a
    let va ← x.address
    .ok (f.request (.proj (w.cf 0 2 = 1)) va .c))

/-- `WIDN`: the word is taken; it is pushed once the release or acquire of R77 has completed. -/
def execWidn (w : CellWord) (s : State) : Host.Outcome State Fault Refusal :=
  .next (s.fire 0xE6 w fun f => do
    let x ← f.read w.a
    match w.dst with
    | .oq q => .ok { f.quiet with widening := some ⟨x.link, q, !w.c.getLsbD 3, scopeOfCode (w.cf 0 3), f.s.tick⟩ }
    | _ => .ok f.quiet)

/-- `HIN`: a host-ingress token becomes a data word, with an acquire at `.y`. Its pop comes from `ownPops`. -/
def execHin (w : CellWord) (s : State) : Host.Outcome State Fault Refusal :=
  .next (s.fire 0xE7 w fun f => do
    let x ← f.read w.a
    if x.link.token && x.link.kind = 6 then
      .ok { f.write (dataWord (x.payload &&& 0xFFFFFFFFFFFFFFFF) 3 0) with acquireY := true }
    else .error cellIllegal)

/-- `HOUT`. -/
def execHout (w : CellWord) (s : State) : Host.Outcome State Fault Refusal :=
  .next (s.fire 0xE8 w fun f => do
    let a ← f.read w.a
    let va ← f.address 64 w.b
    .ok (f.request (.hout (toLane a.link)) va .y))

/-- A record word (tag 7). -/
def Firing.recordWord (f : Firing) (o : Operand) : Except CellStop LinkWord := do
  let x ← f.read o
  if x.tag = 7 then .ok x.link else .error cellIllegal

/-- `RDON`. -/
def execRdon (w : CellWord) (s : State) : Host.Outcome State Fault Refusal :=
  .next (s.fire 0xE9 w fun f => do
    let x ← f.recordWord w.a
    .ok (f.write { x with scale := x.scale ||| BitVec.ofNat 32 (w.cf 0 9 * 2 ^ 16), last := false }))

/-- `RRTE`. -/
def execRrte (w : CellWord) (s : State) : Host.Outcome State Fault Refusal :=
  .next (s.fire 0xEA w fun f => do
    let x ← f.recordWord w.a
    .ok { f.quiet with record := some x })

/-- `POIS`. -/
def execPois (w : CellWord) (s : State) : Host.Outcome State Fault Refusal :=
  .next (s.fire 0xEB w fun f => .ok (f.write (tokenWord 2 0)))

/-- `HALT`. -/
def execHalt (w : CellWord) (s : State) : Host.Outcome State Fault Refusal :=
  .next (s.fire 0xEC w fun f => .ok { f.quiet with halt := true })

/-- `TRAP`. -/
def execTrap (w : CellWord) (s : State) : Host.Outcome State Fault Refusal :=
  .next (s.fire 0xED w fun _ => .error ⟨codeIllegal, w.c.setWidth 64, 0, false⟩)

/-- `NOP`: only the guard's updates and the pops of its source. -/
def execNop (w : CellWord) (s : State) : Host.Outcome State Fault Refusal :=
  .next (s.fire 0xEE w fun f => .ok f.quiet)

end Sys2Proof.Machine
end

