-- ==== Sys2Proof/Machine/Branch.lean ====
section
/-! DEFINITION. Branches and jumps, and the two ways a fetch traps (R110, R126, R127). -/

namespace Sys2Proof.Machine

/-! ### Shared operations -/

/-- Go to an address. -/
def State.jump (s : State) (t : Word) : State := s.onCore s.here fun c => { c with pc := t }

/-- The target of a branch or jump: a signed count of words from the instruction itself (R108). -/
def State.target {n : Nat} (s : State) (off : BitVec n) : Word := (s.core s.here).pc + (off.signExtend 64 <<< 2)

/-- A branch: to its target when the condition holds, otherwise on (R126); a target that is no multiple of 4 raises
`MISALIGNED` at the branch (R110). -/
def State.branch (s : State) (i : Instr) (cond : Word → Word → Bool) (ra rb : Reg) (off : BitVec 16) :
    Host.Outcome State Fault Refusal :=
  s.attempt i 0 do
    if cond (s.reg ra) (s.reg rb) then do
      aligned (s.target off) 4
      set (s.jump (s.target off))
    else proceed

/-- Link and jump (R127). -/
def State.linkJump (s : State) (rd : Reg) (t : Word) : State :=
  s.onCore s.here fun c => { c.put rd (c.pc + 4) with pc := t }

/-! ### Branches (R126) -/

/-- `BEQ` (R126). -/
def execBeq (ra rb : Reg) (off : BitVec 16) (s : State) : Host.Outcome State Fault Refusal :=
  s.branch (.beq ra rb off) (fun a b => a = b) ra rb off
/-- `BNE` (R126). -/
def execBne (ra rb : Reg) (off : BitVec 16) (s : State) : Host.Outcome State Fault Refusal :=
  s.branch (.bne ra rb off) (fun a b => a ≠ b) ra rb off
/-- `BLT`, signed (R126). -/
def execBlt (ra rb : Reg) (off : BitVec 16) (s : State) : Host.Outcome State Fault Refusal :=
  s.branch (.blt ra rb off) (fun a b => a.slt b) ra rb off
/-- `BGE`, signed (R126). -/
def execBge (ra rb : Reg) (off : BitVec 16) (s : State) : Host.Outcome State Fault Refusal :=
  s.branch (.bge ra rb off) (fun a b => !a.slt b) ra rb off
/-- `BLTN`, natural (R126). -/
def execBltn (ra rb : Reg) (off : BitVec 16) (s : State) : Host.Outcome State Fault Refusal :=
  s.branch (.bltn ra rb off) (fun a b => a.ult b) ra rb off
/-- `BGEN`, natural (R126). -/
def execBgen (ra rb : Reg) (off : BitVec 16) (s : State) : Host.Outcome State Fault Refusal :=
  s.branch (.bgen ra rb off) (fun a b => !a.ult b) ra rb off

/-! ### Jumps (R127) -/

/-- `JAL` (R127). -/
def execJal (rd : Reg) (off : BitVec 21) (s : State) : Host.Outcome State Fault Refusal :=
  s.attempt (.jal rd off) 0 do
    aligned (s.target off) 4
    set (s.linkJump rd (s.target off))
/-- `JALR`: the target is computed from xa before xd is written (R127). -/
def execJalr (rd ra : Reg) (imm : BitVec 16) (s : State) : Host.Outcome State Fault Refusal :=
  s.attempt (.jalr rd ra imm) 0 do
    let t := s.reg ra + imm.signExtend 64
    aligned t 4
    set (s.linkJump rd t)

/-! ### Traps of a fetch (R110, R111) -/

/-- A word that no entry of the reference assigns raises `ILLEGAL_INSTRUCTION` with the word as `TVAL`; a word of the
engine format carries its engine number (R93, R110, R111). -/
def execIllegalInstructionWord (word : BitVec 32) (s : State) : Host.Outcome State Fault Refusal :=
  .next (s.trapEntry s.here codeIllegal (word.setWidth 64)
    (if word.extractLsb' 26 6 = 0x3E then (word.extractLsb' 22 4).toNat else 0) false)
/-- A fetch that cannot be translated raises its code with the program counter as `TVAL` (R104, R110). -/
def execInstructionFetchFault (code : Byte) (s : State) : Host.Outcome State Fault Refusal :=
  .next (s.trapEntry s.here code (s.core s.here).pc 0 false)

end Sys2Proof.Machine
end

