-- ==== Sys2Proof/Machine/Task.lean ====
section
/-! DEFINITION. Tasks, wakeups, packets, control registers and system instructions of the Surveyor, and what the
debugger writes through the control window (R91-R107, R128-R135, R488). -/

namespace Sys2Proof.Machine

/-! ### Wakeups (R102, R130) -/

/-- An arming instruction (R130). -/
def State.armBy (s : State) (i : Instr) (cond : Nat) (arg time control : Word) : Host.Outcome State Fault Refusal :=
  s.attempt i 0 do
    check (control &&& wakeReserved cond = 0) codeIllegal 0
    modify fun t => (t.arm s.here cond arg time control).advance s.here

/-- The wakeups whose time passed while a core was stopped fire when it runs again (R297, R455). -/
def Core.rearm (c : Core) (now : Word) : Core :=
  { c with channels := c.channels.each fun _ h =>
      if h.wake.cond = 1 && h.wake.time.toNat ≤ now.toNat then { h with wake := { h.wake with armed := now - 1 } } else h }

/-! ### Task instructions (R128-R132) -/

/-- Entries of the outbound queue (R128). -/
def outboundEntries : Nat := 16

/-- `POST`: a packet into the core's outbound queue, which waits while the queue is full (R101, R128). -/
def execPost (rd ra rb : Reg) (s : State) : Host.Outcome State Fault Refusal :=
  s.attempt (.post rd ra rb) 0 do
    let d := s.reg rd
    check (wbits d 63 17 = 0) codeIllegal 0
    let (o, r) ← myRegion
    check (wbits d 15 7 < 2 ^ r.shape) codeScope d
    if outboundEntries ≤ (s.core s.here).outbound.length then throw .hold
    let pk : Packet := ⟨o + wbits d 15 7, d.extractLsb' 0 7, wbit d 16, s.reg ra, if wbit d 16 then s.reg rb else 0,
      BitVec.ofNat 16 s.link.number, s.here, false, (s.core s.here).fences⟩
    modify fun t => (t.onCore s.here fun c => { c with outbound := c.outbound ++ [pk] }).advance s.here

/-- `BINDL` (R129). -/
def execBindl (rd ra rb : Reg) (s : State) : Host.Outcome State Fault Refusal :=
  s.attempt (.bindl rd ra rb) 0 do
    check (wbits (s.reg rd) 63 7 = 0) codeIllegal 0
    aligned (s.reg ra) 4
    modify fun t =>
      (t.onCore s.here fun c => c.bind s.meridian.toNat (s.reg rd).toNat (s.reg ra) (s.reg rb)).advance s.here

/-- `ARMT` (R102, R130). -/
def execArmt (rd ra rb : Reg) (s : State) : Host.Outcome State Fault Refusal :=
  s.armBy (.armt rd ra rb) 1 (s.reg rd) (s.reg ra) (s.reg rb)
/-- `ARMB` (R102, R130). -/
def execArmb (rd ra : Reg) (s : State) : Host.Outcome State Fault Refusal :=
  s.armBy (.armb rd ra) 2 (s.reg rd) 0 (s.reg ra)
/-- `ARMS` (R102, R130). -/
def execArms (rd ra : Reg) (s : State) : Host.Outcome State Fault Refusal :=
  s.armBy (.arms rd ra) 3 (s.reg rd) 0 (s.reg ra)

/-- `ENDT` (R105, R131). -/
def execEndt (s : State) : Host.Outcome State Fault Refusal := .next (s.endTask s.here)

/-- The class of a channel's group in `CHPRIO` (R95). -/
def chClass (chprio : Word) (ch : Nat) : Nat := chprio.toNat / 2 ^ (2 * (ch / 4)) % 4

/-- `CHP` (R132). -/
def execChp (ra rb : Reg) (s : State) : Host.Outcome State Fault Refusal :=
  s.attempt (.chp ra rb) 0 do
    let g := (s.reg ra).toNat
    let v := (s.reg rb).toNat
    check (g ≤ 31 && v ≤ 3) codeIllegal 0
    modify fun t => (t.onCore s.here fun c => { c with chprio := setF c.chprio (2 * g + 1) (2 * g) v }).advance s.here

/-! ### Control registers (R91-R94, R133) -/

/-- A CSR instruction: `f` gives the new value from the old one, none where it does not write (R133). -/
def State.csr (s : State) (i : Instr) (rd : Reg) (num : BitVec 16) (f : Option (Word → Word)) :
    Host.Outcome State Fault Refusal :=
  s.attempt i 0 do
    match s.csrRead s.here num.toNat with
    | none => raise codeIllegal 0
    | some old => do
      match f with
      | none => pure ()
      | some g => do
        check (!csrReadOnly num.toNat) codePrivilege (num.setWidth 64)
        check (csrValueOk num.toNat (g old)) codeIllegal 0
        modify fun t => t.onCore s.here fun c => c.csrSet num.toNat (g old)
      finish rd old

/-- `CSRR` (R133). -/
def execCsrr (rd : Reg) (num : BitVec 16) (s : State) : Host.Outcome State Fault Refusal :=
  s.csr (.csrr rd num) rd num none
/-- `CSRW` (R133). -/
def execCsrw (rd ra : Reg) (num : BitVec 16) (s : State) : Host.Outcome State Fault Refusal :=
  s.csr (.csrw rd ra num) rd num (some fun _ => s.reg ra)
/-- `CSRS`: with ra = 0 it does not write (R133). -/
def execCsrs (rd ra : Reg) (num : BitVec 16) (s : State) : Host.Outcome State Fault Refusal :=
  s.csr (.csrs rd ra num) rd num (if ra = 0 then none else some fun v => v ||| s.reg ra)
/-- `CSRC`: with ra = 0 it does not write (R133). -/
def execCsrc (rd ra : Reg) (num : BitVec 16) (s : State) : Host.Outcome State Fault Refusal :=
  s.csr (.csrc rd ra num) rd num (if ra = 0 then none else some fun v => v &&& ~~~(s.reg ra))

/-! ### System instructions (R134, R135) -/

/-- `MERID` (R25, R134). -/
def execMerid (rd : Reg) (s : State) : Host.Outcome State Fault Refusal := .next (s.writeReg rd s.meridian)

/-- `TRET`: with `TSTAT.t` = 0 it is illegal; a `TEPC` that is no multiple of 4 raises `MISALIGNED` (R105, R134). -/
def execTret (s : State) : Host.Outcome State Fault Refusal :=
  s.attempt .tret 0 do
    check (s.core s.here).trap codeIllegal 0
    aligned (s.core s.here).tepc 4
    set (s.trapReturn s.here)

/-- `ECALL`: exit, abort or log. A second exit or abort is ignored whole: it performs no release either (R135, DEDUCED, log
109). -/
def execEcall (ra rb : Reg) (s : State) : Host.Outcome State Fault Refusal :=
  s.attempt (.ecall ra rb) 0 do
    let code := s.reg ra
    check (code.toNat ≤ 2) codeIllegal 0
    let (o, r) ← myRegion
    let status : BitVec 32 := (s.reg rb).setWidth 32
    if code = 2 then set ((s.log 0 0 s.here r.asid (s.reg rb)).advance s.here)
    else if r.exitAsked then proceed
    else if code = 0 then
      set (((s.release (.core s.here) .y).onRegion o fun r => { r with exitAsked := true, status := status }).advance s.here)
    else set (s.endRegion o 1 0 status 0 0 true)

/-! ### Packets between cores (R20-R23, R97, R100, R106, R128) -/

/-- Where an arriving packet for a channel finds an entry: shared (true), its channel's own, or none (R97). -/
def Core.storeEntry (c : Core) (ch : Nat) : Option Bool :=
  let own := (c.channel ch).fifo.any fun e => match e with
    | .packet _ shared => !shared
    | _ => false
  let used := ((c.channels.flatMap fun (e : Nat × Channel) => e.2.fifo).filter fun e => match e with
    | .packet _ shared => shared
    | _ => false).length
  if !own then some false else if used < 128 then some true else none

/-- The level of the smallest group of parcels that holds two of them (R82). -/
def levelTo (p q : Nat) : Fin 6 :=
  if p = q then 1 else if p / 4 = q / 4 then 2 else if p / 16 = q / 16 then 3 else if p / 64 = q / 64 then 4 else 5

/-- Whether an earlier packet of the list order must arrive before another: both of one sender, and for one channel of one
core, or with a release between them whose scope holds both destinations (R82, R97). -/
def Packet.before (a b : Packet) : Bool :=
  a.device = b.device && a.frontEnd = b.frontEnd && a.source = b.source &&
  ((a.dest = b.dest && a.ch = b.ch) ||
    (!a.frontEnd && (let l := levelTo a.dest b.dest
      a.fences[l] < b.fences[l])))

/-- Whether a kick of a core that has not landed yet must come before a packet (R82). -/
def State.kickFirst (s : State) (pk : Packet) : Bool :=
  !pk.frontEnd && s.lateKicks.any fun k => k.parcel = pk.source && k.fences[5] < pk.fences[5]

/-- The network takes a packet for a destination core from an outbound queue: the earliest for that core, once the core has an
entry to give and no packet to another core must precede it (R82, R97, R101, R128). -/
def execOutboundPacketSend (p dest : Nat) (s : State) : Host.Outcome State Fault Refusal :=
  let q := (s.core p).outbound
  match q.zipIdx.find? fun e => e.1.dest = dest with
  | none => .next s
  | some (k, i) =>
    if ((s.core dest).storeEntry k.ch.toNat).isNone || (q.take i).any (fun x => x.before k) then .next s
    else .next { s.onCore p fun c => { c with outbound := c.outbound.eraseIdx i } with flight := s.flight ++ [k] }

/-- A packet enters its channel's FIFO; a packet of the device to an unbound `ch127` aborts the region instead, and a
breakpoint on faults stops it; a held device takes none (R97, R106, R297, R479). -/
def execPacketArrival (k : Nat) (s : State) : Host.Outcome State Fault Refusal :=
  match s.flight[k]? with
  | none => .next s
  | some pk =>
    if (s.flight.take k).any (fun x => x.before pk) || s.kickFirst pk then .next s else
    if s.boot.phase = .held then .next s else
    let s1 := { s with flight := s.flight.eraseIdx k }
    let p := pk.dest
    let ch := pk.ch.toNat
    let fault := pk.frontEnd && ch = 127
    if (s.regionOf p).isNone then .next s1
    else if fault && !((s.core p).channel 127).bound then .next (s1.abortAt p (pk.word0.setWidth 8) pk.word1)
    else match (s.core p).storeEntry ch with
      | none => .next s
      | some shared =>
        let s2 := s1.onCore p fun c => c.onChannel ch fun h => h.push s.meridian.toNat (.packet pk shared)
        match s.regionOf p with
        | some (o, _) =>
          if fault && s.debugged o && s.debugger.breaks.any (· = .fault) then .next (s2.stopAt o (.fault p pk.word0 pk.word1))
          else .next s2
        | none => .next s2

/-! ### Picking and starting a task (R90, R98-R100, R103, R453) -/

/-- Promotions of a ready channel up to now: 65,536 s-cycles each, two s-cycles to an f-cycle (R24, R98). -/
def Channel.boosts (h : Channel) (now : Nat) : Nat := h.boost + (h.age + 2 * (now - h.since)) / 65536
/-- Effective class. A class newly written to `CHPRIO` counts from the next pick; the promotions that a waiting channel has
earned are added to it, up to class 3 (R95, R98, DESIGN CHOICE, log 110). -/
def Core.effClass (c : Core) (now ch : Nat) : Nat := min (chClass c.chprio ch + (c.channel ch).boosts now) 3

/-- The ready channels. -/
def Core.readyChannels (c : Core) : List Nat := (c.channels.filter fun (e : Nat × Channel) => e.2.ready).map (·.1)

/-- The pick of R98: the highest effective class, and in it the first ready channel after the last one picked. -/
def Core.pick (c : Core) (now : Nat) : Option (Nat × Nat) :=
  let ready := c.readyChannels
  let k := (ready.map (c.effClass now)).foldl max 0
  let mine := ready.filter fun ch => c.effClass now ch = k
  let last := c.last.toList.getD k 0
  match mine.filter fun ch => last < ch with
  | ch :: _ => some (k, ch)
  | [] => mine.head?.map fun ch => (k, ch)

/-- The information word of an event (R100). -/
def infoWord (device p ch : Nat) (promoted : Bool) : ChannelEvent → Word
  | .packet k _ => BitVec.ofNat 64 (ch + (if promoted then 2 ^ 7 else 0) + (if k.two then 2 ^ 8 else 0) +
      (if k.frontEnd then 2 ^ 14 else k.source * 2 ^ 15) + k.device.toNat * 2 ^ 24)
  | .wakeup kind _ _ _ => BitVec.ofNat 64 (ch + (if promoted then 2 ^ 7 else 0) + kind.toNat * 2 ^ 12 + p * 2 ^ 15 +
      device * 2 ^ 24)

/-- The dispatch words `x1` and `x2` of an event (R99). -/
def eventWords : ChannelEvent → Word × Word
  | .packet k _ => (k.word0, if k.two then k.word1 else 0)
  | .wakeup _ time arg _ => (time, arg)

/-- Take an event off a channel: a fired wakeup frees its slot, and a wakeup armed meanwhile counts from now (R98,
R102). -/
def Channel.take (h : Channel) (now : Word) (rest : List ChannelEvent) (e : ChannelEvent) : Channel :=
  let w := match e with
    | .wakeup _ _ _ _ => { h.wake with pending := false, armed := if h.wake.cond = 0 then h.wake.armed else now - 1 }
    | _ => h.wake
  { h with fifo := rest, age := 0, boost := 0, since := now.toNat, wake := w }

/-- Start a channel's handler with an event. The promoted bit says that the effective class stood above the class of the
channel's group (R90, R98, R99, R100, log 131). -/
def State.startTask (s : State) (p k ch : Nat) (e : ChannelEvent) (rest : List ChannelEvent) : State :=
  let c := s.core p
  let h := c.channel ch
  let promoted := chClass c.chprio ch < c.effClass s.meridian.toNat ch
  let regs : Vector Word 32 := (((Vector.replicate 32 0).set 1 (eventWords e).1).set 2 (eventWords e).2
    |>.set 3 (infoWord s.link.number p ch promoted e)).set 4 h.arg
  let s1 := s.onCore p fun c =>
    { (c.onChannel ch fun h => h.take s.meridian rest e) with
      regs := regs, pc := h.handler, running := true, cls := BitVec.ofNat 2 k, ch := BitVec.ofNat 7 ch,
      trap := false, wake := false, last := c.last.setIfInBounds k ch }
  s1.pollWakes p

/-- The promise that `LATE_PROMISE` reports for an entry (R103). -/
def State.latePromise (s : State) (p handle : Nat) : Word :=
  let b := s.buffer p handle
  if bufState b = 1 then b.extractLsb' 64 64 else 0xFFFFFFFFFFFFFFFF

/-- What follows a start: a checked wakeup that finds its entry FREE or FILLING traps, and breakpoints stop (R103,
R297, R298, R474). -/
def State.afterStart (s : State) (p ch : Nat) (e : ChannelEvent) : State :=
  let late := match e with
    | .wakeup kind _ _ control => kind = 1 && control.getLsbD 15 && bufState (s.buffer p (getF control 14 8)) ≤ 1
    | _ => false
  let handle := match e with
    | .wakeup _ _ _ control => getF control 14 8
    | _ => 0
  let s1 := if late then s.trapEntry p codeLatePromise (s.latePromise p handle) 0 true else s
  match s1.regionOf p with
  | none => s1
  | some (o, _) =>
    if !s1.debugged o then s1
    else if late && s1.debugger.breaks.any (· = .promise) then s1.stopAt o (.promise p (s1.core p).tval)
    else if late && s1.debugger.breaks.any (· = .task 127) then s1
    else if s1.debugger.breaks.any (· = .task ch) || s1.stepUnit = some (p, none)
    then s1.stopAt o (.task p (s1.core p).pc)
    else s1

/-- Dispatch of the stop packet, ahead of every other event (R453). -/
def State.dispatchStop (s : State) (p : Nat) : State :=
  let h := (s.core p).channel 126
  match h.fifo.find? fun e => match e with | .packet k _ => k.frontEnd | _ => false with
  | none => s
  | some e =>
    let s1 := (s.startTask p ((s.core p).effClass s.meridian.toNat 126) 126 e (h.fifo.erase e)).afterStart p 126 e
    s1.onCore p fun c => { c with quiet := true }

/-- `TASK_DISPATCH`: an idle core picks a ready channel (R98, R101, R453, R456). -/
def execTaskDispatch (p : Nat) (s : State) : Host.Outcome State Fault Refusal :=
  let c := s.core p
  match s.regionOf p with
  | none => .next s
  | some (_, r) =>
    if !s.coreRuns p || c.running || c.stopped then .next s
    else if r.phase = .preempting then
      if c.quiet || !(c.channel 126).bound then .next s else .next (s.dispatchStop p)
    else if r.exitAsked then .next s
    else match c.pick s.meridian.toNat with
      | none => .next s
      | some (k, ch) => match (c.channel ch).fifo with
        | [] => .next s
        | e :: rest => .next ((s.startTask p k ch e rest).afterStart p ch e)

/-- `CHANNEL_PROMOTION`: a ready channel that is not running has aged 65,536 s-cycles (R98). -/
def execChannelPromotion (p ch : Nat) (s : State) : Host.Outcome State Fault Refusal :=
  let c := s.core p
  let h := c.channel ch
  let age := h.age + 2 * (s.meridian.toNat - h.since)
  if h.ready && !(c.running && c.ch.toNat = ch) && 65536 ≤ age then
    .next (s.onCore p fun c => c.onChannel ch fun h =>
      { h with boost := h.boost + 1, age := age - 65536, since := s.meridian.toNat })
  else .next s

/-- `TIME_WAKEUP_FIRE`: the meridian has reached an armed time (R102, R297). -/
def execTimeWakeupFire (p ch : Nat) (s : State) : Host.Outcome State Fault Refusal :=
  let w := ((s.core p).channel ch).wake
  let halted := match s.regionOf p with
    | some (_, r) => r.debugStop || !r.live
    | none => true
  if w.cond = 1 && !w.pending && w.time.toNat ≤ s.meridian.toNat && !halted then
    let t := if w.time.toNat ≤ w.armed.toNat then w.armed + 1 else w.time
    .next (s.onCore p fun c => c.onChannel ch fun h => h.fire s.meridian.toNat 1 t)
  else .next s

/-! ### The control window (R107, R488) -/

/-- A write that the control window refuses at its writer. -/
def State.refuseDebug (s : State) (code : Byte) : State := { s with debugger := { s.debugger with fault := code } }

/-- A write through the window takes effect, or is refused at the debugger (R488). -/
def State.byDebugger (s : State) (r : Except Byte State) : State :=
  match r with
  | .ok t => t
  | .error c => s.refuseDebug c

/-- A control register written through the window (R488). -/
def execControlRegisterWrite (p num : Nat) (value : Word) (s : State) : Host.Outcome State Fault Refusal :=
  .next (s.byDebugger (s.windowRegister p num value))

/-- A binding written through the window, as `BINDL` would bind it (R129, R488). -/
def execBindingWrite (p ch : Nat) (handler arg : Word) (s : State) : Host.Outcome State Fault Refusal :=
  .next (s.byDebugger (s.windowBinding p ch handler arg))

/-- The ready bits follow the FIFOs: a write is ignored (R488). -/
def execReadyBitsWrite (_p : Nat) (_value : Word) (s : State) : Host.Outcome State Fault Refusal := .next s

/-- A write of a slot's control bytes with one condition (R488). -/
def State.windowArm (s : State) (p ch cond : Nat) (value : Word) : State :=
  if wbits value 17 16 ≠ cond then s.refuseDebug codePermission else s.byDebugger (s.windowSlot p ch value)

/-- Arm a time wakeup through the window (R488). -/
def execWakeupSlotArmTime (p ch : Nat) (value : Word) (s : State) : Host.Outcome State Fault Refusal :=
  .next (s.windowArm p ch 1 value)
/-- Arm a buffer wakeup through the window (R488). -/
def execWakeupSlotArmBuffer (p ch : Nat) (value : Word) (s : State) : Host.Outcome State Fault Refusal :=
  .next (s.windowArm p ch 2 value)
/-- Arm a station wakeup through the window (R488). -/
def execWakeupSlotArmStation (p ch : Nat) (value : Word) (s : State) : Host.Outcome State Fault Refusal :=
  .next (s.windowArm p ch 3 value)
/-- Disarm a slot through the window (R488). -/
def execWakeupSlotDisarm (p ch : Nat) (value : Word) (s : State) : Host.Outcome State Fault Refusal :=
  .next (s.windowArm p ch 0 value)
/-- Change a slot's argument and fire time (R488). -/
def execWakeupSlotArgumentWrite (p ch : Nat) (arg time : Word) (s : State) : Host.Outcome State Fault Refusal :=
  if 127 < ch then .next (s.refuseDebug codePermission)
  else .next (s.windowSlotData p ch fun w => { w with arg := arg, time := time })

end Sys2Proof.Machine
end

