-- ==== Sys2Proof/Machine/CellEvents.lean ====
section
/-! DEFINITION. What comes about at a cell beside its firings: the address port, walks, queues and routes, halting,
poison, windows and the hang monitor (R186-R208, R252-R259, R286-R289). -/

namespace Sys2Proof.Machine

/-! ### Routes (R10, R77, R81, R216) -/

/-- Where a routing word delivers inside the region: parcel, cell and queue; none for a port whose storer takes the
words (R10, R216). -/
def State.routeTarget (s : State) (p m q : Nat) : Option (Nat × Nat × Nat) :=
  let r := (s.cell p m).routes.toList.getD q 0
  let dir := getF r 62 59
  let tq := getF r 47 46
  let x := m % 4
  let y := m / 4
  if !r.getLsbD 63 then none
  else match dir with
    | 0 => some (p, (y + 3) % 4 * 4 + x, tq)
    | 1 => some (p, y * 4 + (x + 1) % 4, tq)
    | 2 => some (p, (y + 1) % 4 * 4 + x, tq)
    | 3 => some (p, y * 4 + (x + 3) % 4, tq)
    | 8 => some (p, m, tq)
    | _ =>
      if r.getLsbD 58 then (s.regionOf p).map fun e => (e.1 + getF r 41 33, getF r 45 42, tq) else none

/-- The routes of a region: from cell to cell. -/
def State.routesOf (s : State) (o : Nat) (r : Region) : List ((Nat × Nat) × (Nat × Nat)) :=
  (regionParcels o r).flatMap fun p => (s.parcel p).cells.flatMap fun (e : Nat × Cell) =>
    (List.range 4).filterMap fun q => (s.routeTarget p e.1 q).map fun t => ((p, e.1), (t.1, t.2.1))

/-- Cells that routes join to a set, at most `n` steps away, by cells that pass a test. -/
def joined (routes : List ((Nat × Nat) × (Nat × Nat))) (ok : Nat × Nat → Bool) : Nat → List (Nat × Nat) → List (Nat × Nat)
  | 0, l => l
  | n + 1, l =>
    let new := (routes.flatMap fun e => [(e.1, e.2), (e.2, e.1)]).foldl (fun acc e =>
      if e.1 ∈ l && e.2 ∉ acc && ok e.2 then acc ++ [e.2] else acc) l
    if new.length = l.length then l else joined routes ok n new

/-- The cells from which routes lead to a set, at most `n` steps away, and the set itself. -/
def upstream (routes : List ((Nat × Nat) × (Nat × Nat))) : Nat → List (Nat × Nat) → List (Nat × Nat)
  | 0, l => l
  | n + 1, l =>
    let new := routes.foldl (fun acc e => if e.2 ∈ l && e.1 ∉ acc then acc ++ [e.1] else acc) l
    if new.length = l.length then l else upstream routes n new

/-- Whether a write to host memory that a cell upstream of one issued before a firing is still to be performed (R81). -/
def State.hostWriteAhead (s : State) (p m stamp : Nat) : Bool :=
  match s.regionOf p with
  | none => false
  | some (o, r) =>
    let routes := s.routesOf o r
    ((upstream routes (routes.length + 1) [(p, m)]).filter (· ≠ (p, m))).any fun x =>
      (s.cell x.1 x.2).port.any fun e => e.writes && e.stamp < stamp &&
        match translate (.cell x.1 x.2) e.va .write s with
        | .ok a _ => match placeOf a.pa with
          | .host _ => true
          | _ => false
        | .error .hold _ => true
        | .error (.fault _ _) _ => false

/-! ### The address port (R193, R194, R252-R259) -/

/-- Whether a port's head may be performed: its region runs, and no late fault holds its responses (R196). -/
def State.portRuns (s : State) (p m : Nat) : Bool :=
  let c := s.cell p m
  s.enginesRun p && !(c.faulted && c.lateFault)

/-- Take the head of a port and put its word where the entry says (R193, R206). -/
def State.respond (s : State) (p m : Nat) (e : PortEntry) (x : LinkWord) : State :=
  (s.onCell p m fun c => { c.answer s.meridian.toNat e x with port := c.port.drop 1 }).stir p

/-- The head of a port waits for the host, or asks it now for what stands at a host address; an atomic asks only while AtomicOp
requests are enabled (R465). -/
def hostEntry (p m : Nat) (e : PortEntry) (address : Nat) (sent : HostSend) : Act LinkWord := do
  let s ← get
  let atomic := match sent with
    | .atomic _ _ => true
    | _ => false
  check (!atomic || e.hostTag.isSome || s.host.atomicEnable) codeHostUr e.va
  if e.hostTag.isNone && !s.hostFull then
    set ((s.askHost (.cellEntry p m address) [sent]).onCell p m fun c =>
      { c with port := { e with hostTag := some s.host.nextTag } :: c.port.drop 1 })
  throw .hold

/-- The bytes of a stored word that its valid lanes cover; a 64-bit type stores whole elements (R255). -/
def storeValid (w : LaneReg) (ty : BitVec 4) (i : Nat) : Bool :=
  let mask := laneMask w.tag w.scale
  if CellWord.width ty.toNat = 64 then mask.getLsbD (i / 8 * 2) && mask.getLsbD (i / 8 * 2 + 1)
  else mask.getLsbD (i / 4)

/-- The operation of `ATOM` (R257). -/
def atomOp (op : Nat) (signed : Bool) (cmp : Nat) : AtomOp :=
  match op with
  | 0 => .add
  | 1 => .swap
  | 2 => .cas cmp
  | 3 => .min signed
  | 4 => .max signed
  | 5 => .and
  | 6 => .or
  | _ => .xor

/-- The lanes of an old value in an `ATOM` destination (R257). -/
def atomWord (wide : Bool) (old : Nat) : LinkWord := dataWord (BitVec.ofNat 512 old) (if wide then 3 else 1) 0

/-- One sector of an `STV`: its valid bytes as one new version, which is kept if asked for (R66, R259). -/
def storeSectorVersion (u : Writer) (m : Mapping) (data : List Byte) (valid : Nat → Bool) (keep : Bool) (k : Nat) :
    Act (Option Word) := do
  let base := 32 * k
  let runs := runsFrom (fun i => valid (base + i)) 32 0 none
  match runs with
  | [] => pure none
  | (i, n) :: rest => do
    let noalloc := leafNoAllocate m.leaf
    let pa := m.pa + base
    modify fun s => s.storeVersion u noalloc (pa + i) (slice data (base + i) n)
    modify fun s => rest.foldl (fun (t : State) r =>
      match placeOf m.pa with
      | .hbm => t.extendSector u 5 (pa + r.1) (slice data (base + r.1) r.2) (t.path u noalloc pa)
      | _ => { t with mem := t.mem.write (t.resolve (pa + r.1)) (slice data (base + r.1) r.2) }) s
    if keep then modify fun s => s.keepVersion pa
    let s ← get
    pure (some ((s.version pa).setWidth 64))

/-- The lanes of an `STV` destination (R259). -/
def stvWord (a b : Option Word) : LinkWord :=
  let lane := fun (v : Option Word) => match v with
    | some x => x.toNat
    | none => 0xFFFFFFFF
  dataWord (BitVec.ofNat 512 (lane a + lane b * 2 ^ 32))
    (BitVec.ofNat 32 ((if a.isSome then 1 else 0) + (if b.isSome then 2 else 0))) 0

/-- Perform the head of a port, other than a walk: the word of its response (R252-R259, R286, R289). -/
def performEntry (p m : Nat) (e : PortEntry) : Act LinkWord := do
  let u := Writer.cell p m
  match e.op with
  | .load tag => do
    let a ← translate u e.va .read
    match placeOf a.pa with
    | .host h => hostEntry p m e h (.read h 64)
    | _ => do
      let bs ← readAt u e.scope a 64 e.va
      pure (memWord tag (bytesPayload bs))
  | .buffer h pa data tag free => do
    let x ← match data with
      | some x => pure x
      | none => do
        reserveCheck u pa 64 0
        let s ← get
        pure (bytesPayload (s.homeRead pa 64))
    if free then modify fun s => if bufState (s.buffer p h.toNat) = 3 then s.freeEntry p h.toNat else s
    pure (memWord tag x)
  | .store w ty => do
    writeMasked u .plain e.scope e.va (payloadBytes w.payload) (storeValid w ty)
    pure zeroWord
  | .walk _ _ _ _ _ => throw .hold
  | .atom op wide signed v cmp => do
    let n := if wide then 8 else 4
    let a ← translate u e.va .atomic
    match placeOf a.pa with
    | .host h => do
      check (op ≤ 2) codeIllegal e.va
      hostEntry p m e h (.atomic h n)
    | _ => do
      let old ← atomicAt u e.scope a n (atomOp op signed cmp.toNat) v.toNat e.va
      pure (atomWord wide old)
  | .ldv tag eq v => do
    let a ← translate u e.va .versionRead
    match ← loadVersion u true e.scope a 64 v eq e.va with
    | some bs => pure (memWord tag (bytesPayload bs))
    | none => throw .hold
  | .stv w ty keep => do
    let a ← translate u e.va .write
    versionCheck u a 64 e.va
    check (!keep || leafTracked a.leaf) codePermission e.va
    modify fun s => s.release u e.scope
    let data := payloadBytes w.payload
    let x ← storeSectorVersion u a data (storeValid w ty) keep 0
    let y ← storeSectorVersion u a data (storeValid w ty) keep 1
    pure (stvWord x y)
  | .proj write => do
    let s ← get
    match s.probe u e.va (if write then .write else .read) with
    | (none, s1) => do
      set ((s1.unitRegion u).elim s1 fun x => s1.holdWalk u x.2.asid.toNat e.va.toNat)
      throw .hold
    | (some (code, size, pa), s1) => do
      set s1
      pure (dataWord (BitVec.ofNat 512 (pa + (code.toNat + size * 2 ^ 8) * 2 ^ 64)) 7 0)
  | .hout w => do
    let s ← get
    match translate u e.va .write s with
    | .error .hold s1 => do
      set s1
      throw .hold
    | .error (.fault _ _) _ => raise codePermission e.va
    | .ok a s1 => do
      match placeOf a.pa with
      | .host _ => do
        if s1.hostWriteAhead p m e.stamp then throw .hold
        set (s1.release u .y)
        writeMasked u .plain .y e.va (payloadBytes w.payload) (storeValid w 0)
        pure zeroWord
      | _ => raise codePermission e.va

/-- A request takes a late fault: the cell freezes before its next firing, and the request stays at the head of its
port (R196, R197, R204). -/
def State.lateFreeze (s : State) (p m : Nat) (e : PortEntry) (code : Byte) (value : Word) : State :=
  let kept : PortEntry := { e with hostTag := none }
  let s1 := s.onCell p m fun c => { c with port := kept :: c.port.drop 1 }
  ((s1.needMet (.cell p m) code).dropReads (.cell p m)).freeze ⟨p, m, e.ctx.toNat, e.slot.toNat⟩ ⟨code, value, 0, true⟩ true

/-- Whether a cell can take a late fault (R181, R197, R208). -/
def State.takesLate (s : State) (p m : Nat) : Bool :=
  let c := s.cell p m
  s.portRuns p m && (c.mode = .running || c.mode = .poisoned)

/-- Perform the oldest request of a port and deliver its response; one that faults stays for its late fault. -/
def State.portResponse (s : State) (p m : Nat) : State :=
  match (s.cell p m).port with
  | [] => s
  | e :: _ =>
    if !s.portRuns p m || e.isWalk then s
    else match performEntry p m e s with
      | .ok x s1 => s1.respond p m e x
      | .error .hold s1 => s1
      | .error (.fault _ _) _ => s

/-- `ADDRESS_PORT_RESPONSE`: the oldest request of a port is performed and its response delivered (R193, R252). -/
def execAddressPortResponse (p m : Nat) (s : State) : Host.Outcome State Fault Refusal := .next (s.portResponse p m)

/-- Whether a port entry is an `LDV`. -/
def PortEntry.isLdv (e : PortEntry) : Bool := match e.op with | .ldv _ _ _ => true | _ => false

/-- `HELD_LDV_COMPLETE`: an `LDV` that waited for a version to come finds it (R64, R258). -/
def execHeldLdvComplete (p m : Nat) (s : State) : Host.Outcome State Fault Refusal :=
  .next (if (s.cell p m).port.head?.any PortEntry.isLdv then s.portResponse p m else s)

/-- A node of a walk: its word, and where the walk goes on, none where it ends (R256). -/
def walkNode (p m : Nat) (e : PortEntry) (tag : BitVec 4) (field_ : Nat) (offset : Word) (limit count : Nat) :
    Act (LinkWord × Option Word) := do
  let u := Writer.cell p m
  aligned e.va 64
  let a ← translate u e.va .read
  match placeOf a.pa with
  | .host h => do
    let x ← hostEntry p m e h (.read h 64)
    pure (x, none)
  | _ => do
    let bs ← readAt u e.scope a 64 e.va
    let next := wordOf (slice bs (8 * field_) 8) + offset
    let last : Bool := next = 0 || count + 1 = limit
    pure ({ memWord tag (bytesPayload bs) with last := last }, if last then none else some next)

/-- Whether a walk has a place for its next node: the first uses the one its firing reserved (R183, R194). -/
def Cell.walkRoom (c : Cell) (e : PortEntry) (count : Nat) : Bool :=
  match e.dest with
  | .queue q _ => count = 0 || 1 ≤ c.room q
  | _ => true

/-- What a node's delivery leaves of the walk: an entry at its next address, or none (R256). -/
def State.walkOn (s : State) (p m : Nat) (e : PortEntry) (tag : BitVec 4) (field_ : Nat) (offset : Word)
    (limit count : Nat) (x : LinkWord) (next : Option Word) : State :=
  ((s.onCell p m fun c => c.answer s.meridian.toNat e x).stir p).onCell p m fun c =>
    { c with port := match next with
      | some va => { e with op := .walk tag field_ offset limit (count + 1), va := va, hostTag := none } :: c.port.drop 1
      | none => c.port.drop 1 }

/-- `WALK_NODE`: one node of a running walk arrives; a pre-emption halts the walk at its current node (R194, R256, R260). -/
def execWalkNode (p m : Nat) (s : State) : Host.Outcome State Fault Refusal :=
  match (s.cell p m).port with
  | [] => .next s
  | e :: _ => match e.op with
    | .walk tag field_ offset limit count =>
      if !s.portRuns p m || s.pausing p || !(s.cell p m).walkRoom e count then .next s
      else match walkNode p m e tag field_ offset limit count s with
        | .ok (x, next) s1 => .next (s1.walkOn p m e tag field_ offset limit count x next)
        | .error .hold s1 => .next s1
        | .error (.fault _ _) _ => .next s
    | _ => .next s

/-- The late fault that the oldest request of a cell's port would take now: the request, the code and the address (R196). -/
def State.lateDue (s : State) (p m : Nat) : Option (PortEntry × Byte × Word) :=
  match (s.cell p m).port with
  | [] => none
  | e :: _ =>
    if !s.takesLate p m then none else
    match e.op with
    | .walk tag field_ offset limit count => match walkNode p m e tag field_ offset limit count s with
      | .error (.fault c v) _ => some (e, c, v)
      | _ => none
    | _ => match performEntry p m e s with
      | .error (.fault c v) _ => some (e, c, v)
      | _ => none

/-- `LATE_FAULT`: the oldest request of a port faults (R196, R197). -/
def execLateFault (p m : Nat) (s : State) : Host.Outcome State Fault Refusal :=
  match s.lateDue p m with
  | some (e, c, v) => .next (s.lateFreeze p m e c v)
  | none => .next s

/-! ### Queues and routes (R19, R188, R216, R217) -/

/-- `DELAY_EXPIRY`: the oldest word of a delay buffer moves into its queue once its delay has passed (R188). -/
def execDelayExpiry (p m q : Nat) (s : State) : Host.Outcome State Fault Refusal :=
  let c := s.cell p m
  match c.oq.toList[q]? with
  | none => .next s
  | some o => match o.delay with
    | [] => .next s
    | (x, at_) :: rest =>
      if !s.enginesRun p || 8 ≤ o.words.length || s.meridian.toNat < at_ + c.depth (BitVec.ofNat 2 q) then .next s
      else .next (s.onCell p m fun c =>
        { c with oq := c.oq.setIfInBounds q { o with words := o.words ++ [x], delay := rest } })

/-- Whether a word may enter an input queue now: it has a free place, or the word is a stop token for a halted cell,
or one that no queue takes (R188-R190). -/
def Cell.accepts (c : Cell) (q : Nat) (x : LinkWord) : Bool :=
  (x.token && (x.kind = 4 || x.kind = 5 || x.kind = 7 || 9 ≤ x.kind.toNat)) ||
  (x.token && x.kind = 1 && c.mode = .halted) ||
  (match c.iq.toList[q]? with
    | some o => o.words.length < 8
    | none => false)

/-- A word enters an input queue; a freed-slot token goes to the Traverse engine, other tokens of the link and a stop
token at a halted cell are consumed (R156, R189, R190, R206). -/
def State.enterQueue (s : State) (p m q : Nat) (x : LinkWord) : State :=
  if x.token && x.kind = 5 then s.notice p (x.payload.toNat % 128)
  else if x.token && (x.kind = 4 || x.kind = 7 || 9 ≤ x.kind.toNat) then s
  else if x.token && x.kind = 1 && (s.cell p m).mode = .halted then s
  else (s.onCell p m fun c => match c.iq.toList[q]? with
    | some o => { c with iq := c.iq.setIfInBounds q { o with words := o.words ++ [x] } }
    | none => c).stir p

/-- `INPUT_WORD_ARRIVAL`: the word on a route, or the first word of a port, enters its input queue (R19, R216, R217). -/
def execInputWordArrival (src : LinkSource) (s : State) : Host.Outcome State Fault Refusal :=
  match src with
  | .cell p m q =>
    match (s.cell p m).wires.toList.getD q none, s.routeTarget p m q with
    | some x, some (tp, tm, tq) =>
      if !s.enginesRun p || !(s.cell tp tm).accepts tq x then .next s
      else .next ((s.onCell p m fun c => { c with wires := c.wires.setIfInBounds q none }).enterQueue tp tm tq x)
    | _, _ => .next s
  | .port p port =>
    let g := (s.parcel p).ingress.toList.getD port 0
    match (s.port p port).inbound with
    | [] => .next (if s.enginesRun p then s.dueEmit p port else s)
    | x :: rest =>
      let m := getF g 62 59
      let q := getF g 58 57
      if !s.enginesRun p || !g.getLsbD 63 || !(s.cell p m).accepts q x then .next s
      else .next ((s.onPort p port fun w => { w with inbound := rest }).enterQueue p m q x)

/-- `OUTPUT_WORD_SEND`: the oldest word of an output queue goes on its route, or to its port, with the context tag of the routing
word unless that keeps the word's own (R188, R216). -/
def execOutputWordSend (p m q : Nat) (s : State) : Host.Outcome State Fault Refusal :=
  let c := s.cell p m
  match c.oq.toList[q]? with
  | none => .next s
  | some o => match o.words with
    | [] => .next s
    | x :: rest =>
      let r := c.routes.toList.getD q 0
      let dir := getF r 62 59
      let y := if r.getLsbD 54 then x else { x with ctx := r.extractLsb' 55 3 }
      let left := s.onCell p m fun c =>
        { c with oq := c.oq.setIfInBounds q { o with words := rest, head := o.head + 1 } }
      if !s.enginesRun p || !r.getLsbD 63 then .next s
      else if (s.routeTarget p m q).isSome then
        if (c.wires.toList.getD q none).isSome then .next s
        else .next (left.onCell p m fun c => { c with wires := c.wires.setIfInBounds q (some y) })
      else if !(s.port p (dir - 4)).outbound.isEmpty then .next s
      else .next (left.onPort p (dir - 4) fun w => { w with outbound := w.outbound ++ [y] })

/-! ### Halting and poison (R190, R197, R205) -/

/-- A token of a kind stands at the head of an input queue. -/
def Cell.headToken (c : Cell) (kind : Nat) : Bool :=
  c.iq.toList.any fun q => match q.words.head? with
    | some x => x.token && x.kind.toNat = kind
    | none => false

/-- Whether some slot of a cell's current context has a true guard, a follower's context being its head's (R190, R192). -/
def State.someSlot (s : State) (p m : Nat) : Bool := (s.pickSlot p m (s.contextOf p m)).isSome

/-- `CELL_HALT`: a stop token at a head and nothing left to fire (R190). -/
def execCellHalt (p m : Nat) (s : State) : Host.Outcome State Fault Refusal :=
  let c := s.cell p m
  if !s.enginesRun p || c.mode ≠ .running || c.widening.isSome || !c.headToken 1 || s.someSlot p m then .next s
  else .next (s.onCell p m fun c =>
    let popped := queues4.foldl (fun (c : Cell) q =>
      match c.iq[q.toNat].words.head? with
      | some x => if x.token && x.kind = 1 then c.pop q 1 else c
      | none => c) c
    { popped.sendAll s.meridian.toNat 1 (s.contextOf p m) with mode := .halted })

/-- `CELL_POISONED`: poison at a head; it goes on over every routed output, or ends here and is reported. A late fault that is
due at the cell comes first, and so does a precise one: the cell fires no more from the arrival of the poison on (R197, R205,
R208, log 132). -/
def execCellPoisoned (p m : Nat) (s : State) : Host.Outcome State Fault Refusal :=
  let c := s.cell p m
  if !s.enginesRun p || c.mode ≠ .running || !c.headToken 2 || (s.lateDue p m).isSome then .next s
  else
    let s1 := s.onCell p m fun c => { c.sendAll s.meridian.toNat 2 (s.contextOf p m) with mode := .poisoned }
    .next (if queues4.any c.routed then s1
      else s1.poisonSink p (fun rel => 15 * 2 ^ 8 + m * 2 ^ 12 + rel * 2 ^ 16) (fun _ => 0))

/-! ### The widener (R76, R77, R287) -/

/-- Whether a cell holds a `WIDN` in some slot. -/
def Cell.widens (c : Cell) : Bool := c.slots.any fun (e : Nat × BitVec 64 × BitVec 64) => getF e.2.1 63 56 = 0xE6

/-- The cells at a widener's inner side: those routed to the input queue of an `.out` slot, and those that the output queue of
an `.in` slot is routed to (R77, R287). -/
def State.innerSeeds (s : State) (o : Nat) (r : Region) (p m : Nat) : List (Nat × Nat) :=
  let slots := (s.cell p m).filledSlots.filter fun e => e.2.2.1 = 0xE6
  let ins := slots.filterMap fun e => match e.2.1.a with
    | .iq q _ => if e.2.1.c.getLsbD 3 then none else some q.toNat
    | _ => none
  let outs := slots.filterMap fun e => match e.2.1.dst with
    | .oq q => if e.2.1.c.getLsbD 3 then some q.toNat else none
    | _ => none
  let before := (regionParcels o r).flatMap fun n => (s.parcel n).cells.filterMap fun (e : Nat × Cell) =>
    if (List.range 4).any fun q => match s.routeTarget n e.1 q with
      | some t => t.1 = p && t.2.1 = m && t.2.2 ∈ ins
      | none => false
    then some (n, e.1) else none
  let after := outs.filterMap fun q => (s.routeTarget p m q).map fun t => (t.1, t.2.1)
  (before ++ after).filter (· ≠ (p, m))

/-- The inner subgraph of a widener: from the cells at its inner side, over cells of their scope that do not widen (R77). -/
def State.innerCells (s : State) (p m : Nat) : List (Nat × Nat) :=
  match s.regionOf p with
  | none => []
  | some (o, r) =>
    let routes := s.routesOf o r
    let code := fun (x : Nat × Nat) => (s.cell x.1 x.2).subgraph
    let seeds := s.innerSeeds o r p m
    joined routes (fun x => !(s.cell x.1 x.2).widens && (seeds.any fun y => code x = code y)) (routes.length + 1) seeds

/-- `WIDENER_RELEASE_COMPLETE`: every write that the inner subgraph had issued when the word was taken is performed and
released, or acquired for, at the outer scope, and the word goes on (R77, R287). -/
def execWidenerReleaseComplete (p m : Nat) (s : State) : Host.Outcome State Fault Refusal :=
  let c := s.cell p m
  match c.widening with
  | none => .next s
  | some w =>
    let inner := s.innerCells p m
    let writing := inner.any fun x => (s.cell x.1 x.2).port.any fun e => e.writes && e.stamp < w.stamp
    let pass := w.word.token && w.word.kind = 2
    if !s.enginesRun p || c.mode = .frozen || (w.out && writing && !pass) then .next s
    else
      let s1 := if pass then s
        else inner.foldl (fun (t : State) x =>
          if w.out then t.release (.cell x.1 x.2) w.scope else t.acquire (.cell x.1 x.2) w.scope) s
      .next (s1.onCell p m fun c =>
        { c.push s.meridian.toNat w.queue c.fireCtx.toNat false w.word with widening := none })

/-! ### The hang monitor (R206, R207) -/

/-- The buffer handle that a slot of the current context awaits, a follower's context being its head's (R192, R207). -/
def State.awaited (s : State) (p m : Nat) : Option Nat :=
  let c := s.cell p m
  (List.range 8).findSome? fun k =>
    match Decode.cell (c.slotWords (s.contextOf p m) k).1 with
    | .error _ => none
    | .ok i => match i.cellParts? with
      | none => none
      | some (_, w) => match w.a with
        | .handle h => if bufState (s.buffer p h.toNat) < 2 then some h.toNat else none
        | _ => none

/-- A cell's entry in the channel-occupancy map (R207). -/
def State.occupancy (s : State) (p m : Nat) : Nat :=
  let c := s.cell p m
  let counts := (List.range 8).foldl (fun n q => n + min ((c.queue q).shownWords (c.deep q)).length 8 * 2 ^ (4 * q)) 0
  counts + c.fireSlot.toNat * 2 ^ 32 + c.fireCtx.toNat * 2 ^ 35 + modeCode c.mode * 2 ^ 38 +
    (match s.awaited p m with
    | some h => h * 2 ^ 40 + 2 ^ 47
    | none => 0)

/-- The bytes of the map for the parcels of a region, from one relative parcel on. -/
def State.mapBytes (s : State) (o first n : Nat) : List Byte :=
  (List.range n).flatMap fun i => (List.range 16).flatMap fun m => Decode.leBytes 8 (s.occupancy (o + first + i) m)

/-- Write the map page by page; a page that does not translate is skipped (R207). -/
def writeMap (o : Nat) (va : Word) (pages : List (List Byte)) : State → State × List (Option Nat) := fun s =>
  (pages.zipIdx).foldl (fun (acc : State × List (Option Nat)) e =>
    let a := va + BitVec.ofNat 64 (4096 * e.2)
    let act : Act Nat := do
      let m ← translate (.engine o) a .write
      writeAt (.engine o) .engine .d m e.1 a
      pure m.pa
    match act acc.1 with
    | .ok pa t => (t, acc.2 ++ [some pa])
    | .error _ _ => (acc.1, acc.2 ++ [none])) (s, [])

/-- Freeze a cell that runs or is poisoned for the hang monitor, which sends no poison. -/
def Cell.hangUp (c : Cell) : Cell :=
  if c.mode = .running || c.mode = .poisoned
  then { c with mode := .frozen, hung := some c.mode, faultReg := codeHang.setWidth 64, faultAddr := 0 } else c

/-- A region's counter has reached `HANGIV` and its monitor fires: it runs, and no cell of it is frozen (R206). -/
def State.hangReady (s : State) (o : Nat) (r : Region) : Bool :=
  let limit := (s.core o).hangiv.toNat
  r.phase = .running && !r.debugStop && !r.hungUp && limit ≠ 0 && limit ≤ r.hang &&
    !((regionParcels o r).any fun p => (s.parcel p).cells.any fun e => e.2.faulted)

/-- The hang monitor of a region fires: its cells freeze, the maps are written, and `ch127` of the origin gets a packet (R206,
R207). -/
def State.hangFire (s : State) (o : Nat) (r : Region) : State :=
  let n := 2 ^ r.shape
  let pages := (List.range (ceilDiv n 32)).map fun k => s.mapBytes o (32 * k) (min 32 (n - 32 * k))
  let (s1, done) := writeMap o (r.save + 0x1000) pages s
  let s2 := (regionParcels o r).foldl (fun (t : State) p =>
    (List.range 16).foldl (fun (t : State) m => t.onCell p m Cell.hangUp) t) s1
  let s3 := s2.onRegion o fun r => { r with hungUp := true }
  let skipped := done.any Option.isNone
  let w1 : Word := match done.head? with
    | some (some pa) => BitVec.ofNat 64 pa
    | _ => 0
  (s3.log 1 codeHang o r.asid w1).post o 127 true
    (BitVec.ofNat 64 (codeHang.toNat + 15 * 2 ^ 8 + (if skipped then 2 ^ 32 else 0))) w1

/-- `HANG_MONITOR_FIRE`: the counter has reached `HANGIV` (R206, R207). -/
def execHangMonitorFire (origin : Nat) (s : State) : Host.Outcome State Fault Refusal :=
  match s.regions.find origin with
  | none => .next s
  | some r => .next (if s.hangReady origin r then s.hangFire origin r else s)

/-! ### Windows and commands (R59, R187, R203, R204, R219) -/

/-- Judge a window write: a refusal is raised at its writer (R203). -/
def State.windowWrite (s : State) (w : Writer) (p : Nat) (r : Except Byte State) : State :=
  if !s.mayUseWindows w p then (match w with
    | .debugger => s.refuseDebug codePrivilege
    | _ => s)
  else match r, w with
    | .ok t, _ => t
    | .error c, .debugger => s.refuseDebug c
    | .error _, _ => s

/-- `LANE_REGISTER_WINDOW_WRITE`: payload bytes of lane registers change between two firings (R59, R187). -/
def execLaneRegisterWindowWrite (p m off : Nat) (bytes : List Byte) (s : State) : Host.Outcome State Fault Refusal :=
  if 0x400 < off + bytes.length then .next (s.refuseDebug codePermission)
  else .next (s.onCell p m fun c => bytes.zipIdx.foldl (fun (c : Cell) e => c.laneWrite (off + e.2) [e.1]) c)

/-- `CONTEXT_STORE_WRITE` (R59, R219). -/
def execContextStoreWrite (p m off : Nat) (bytes : List Byte) (w : Writer) (s : State) :
    Host.Outcome State Fault Refusal :=
  .next (s.windowWrite w p (s.contextWrite p m off bytes))

/-- `QUEUE_WINDOW_WRITE` (R203). -/
def execQueueWindowWrite (p m off : Nat) (bytes : List Byte) (w : Writer) (s : State) :
    Host.Outcome State Fault Refusal :=
  .next (s.windowWrite w p (if 0x400 < off + bytes.length then .error codePermission else s.queueWindowWrite p m off bytes))

/-- `CONTINUE` of a frozen cell (R204). -/
def execCellContinue (p m : Nat) (s : State) : Host.Outcome State Fault Refusal := .next (s.continueCell p m)
/-- `SKIP` of a frozen cell (R204). -/
def execCellSkip (p m : Nat) (s : State) : Host.Outcome State Fault Refusal := .next (s.skipCell p m)
/-- `RESUME_REGION` (R204, R207). -/
def execResumeRegion (p _m : Nat) (s : State) : Host.Outcome State Fault Refusal := .next (s.resumeRegion p)

end Sys2Proof.Machine
end

