-- ==== Sys2Proof/Machine/Compass.lean ====
section
/-! DEFINITION. The Compass router: queries, routing decisions, observations, symmetric joins, and the `CP` instructions
(R362-R369, R375-R382, R385). -/

namespace Sys2Proof.Machine

/-! ### Records (R362) -/

def recId (x : LinkWord) : Nat := x.payload.toNat % 2 ^ 32
def recStamp (x : LinkWord) : Nat := x.payload.toNat / 2 ^ 32 % 2 ^ 32
def recLength (x : LinkWord) : Nat := x.scale.toNat / 2 ^ 26
def recSide (x : LinkWord) : Nat := x.scale.toNat / 2 ^ 25 % 2
def recDiscard (x : LinkWord) : Bool := x.scale.getLsbD 24
def recDone (x : LinkWord) : BitVec 8 := x.scale.extractLsb' 16 8
def setStamp (x : LinkWord) (t : Nat) : LinkWord := { x with payload := setF x.payload 63 32 t }
/-- A word as a query sends it to a parcel port (R388). -/
def plainRecord (x : LinkWord) (last : Bool) : LinkWord := { x with ctx := 0, phase := 0, last := last }

/-! ### Queries -/

def State.compass (s : State) (sheet : Nat) : Compass := s.compasses.look Compass.reset sheet
def State.query (s : State) (sheet : Nat) : Option Query := (s.compass sheet).query
def State.setQuery (s : State) (sheet : Nat) (q : Option Query) : State :=
  { s with compasses := s.compasses.alter Compass.reset sheet fun c => { c with query := q } }

def Query.record (q : Query) (id : Nat) : Option QueryRecord := q.records.find? fun r => recId r.word = id
def Query.without (q : Query) (id : Nat) : Query := { q with records := q.records.filter fun r => recId r.word ≠ id }
def Query.maskOf (q : Query) (side : Nat) : BitVec 8 := if side = 0 then q.mask0 else q.mask1
/-- Whether a record is complete (R364). -/
def Query.complete (q : Query) (x : LinkWord) : Bool := q.maskOf (recSide x) &&& ~~~(recDone x) = 0
/-- Whether slot `i` is eligible for a record (R364). -/
def Operator.eligible (o : Operator) (i : Nat) (x : LinkWord) : Bool :=
  o.sides.getLsbD (recSide x) && o.prereq &&& ~~~(recDone x) = 0 && !(recDone x).getLsbD i
/-- The eligible slots in ascending order. -/
def Query.eligible (q : Query) (x : LinkWord) : List (Nat × Operator) :=
  (List.range 8).filterMap fun i => (q.slots.find i).bind fun o => if o.eligible i x then some (i, o) else none

/-- The slot of a routing decision among the eligible ones, and the query after it (R365). -/
def Query.choose (q : Query) (e : List (Nat × Operator)) : Nat × Query :=
  let q1 := { q with decisions := q.decisions + 1 }
  let first := (e.headD (0, default)).1
  match q.fixed with
  | some order =>
    ((order.find? fun i => e.any fun x => x.1 = i).getD first, q1)
  | none =>
    if q.explore ≠ 0 && (q.decisions.toNat + 1) % 2 ^ q.explore = 0 then
      let next := ((List.range 8).map fun k => (q.rr + 1 + k) % 8).find? fun i => e.any fun x => x.1 = i
      let i := next.getD first
      (i, { q1 with rr := i })
    else
      let best := e.foldl (fun (b : Nat × Operator) x => if b.2.p * x.2.c < x.2.p * b.2.c then x else b) (e.headD (0, default))
      (best.1, q1)

/-- Update a slot's observations (R367). -/
def Operator.observe (o : Operator) (shift : Nat) (d m : Nat) : Operator :=
  let m := min m 4095
  let step := fun (old new : Nat) => ((old : Int) + ((new : Int) - old) / 2 ^ shift).toNat
  { o with p := step o.p (d * 65536), c := step o.c (m * 16), visits := o.visits + 1 }
def Query.observe (q : Query) (i d m : Nat) : Query :=
  match q.slots.find i with
  | some o => { q with slots := q.slots.put i (o.observe q.shift d m) }
  | none => q

/-- Put words into the inbound side of a port (R363, R368). -/
def State.intoPort (s : State) (p port : Nat) (xs : List LinkWord) : State :=
  s.onPort p port fun w => { w with inbound := w.inbound ++ xs }

/-- Send the waiting records whose entry queue has a place, in the order of their decisions (R365, R386). -/
def State.sendWaiting (s : State) (sheet : Nat) (q : Query) : State :=
  if q.halted then s.setQuery sheet (some q) else
  let now := s.meridian.toNat
  let go := q.records.foldl (fun (acc : State × List QueryRecord × List Nat) r =>
    match r.waits, r.away with
    | true, some i => match q.slots.find i with
      | some o =>
        if i ∉ acc.2.2 && (acc.1.cell o.parcel o.cell).accepts o.queue r.word then
          (acc.1.enterQueue o.parcel o.cell o.queue { r.word with ctx := o.ctx },
           acc.2.1 ++ [{ r with waits := false, sent := now }], acc.2.2)
        else (acc.1, acc.2.1 ++ [r], acc.2.2 ++ [i])
      | none => (acc.1, acc.2.1 ++ [r], acc.2.2)
    | _, _ => (acc.1, acc.2.1 ++ [r], acc.2.2)) (s, [], [])
  go.1.setQuery sheet (some { q with records := go.2.1 })

/-- Route a record (R365); a halted query holds it (R369). -/
def State.decide (s : State) (sheet : Nat) (q : Query) (x : LinkWord) : State :=
  let now := s.meridian.toNat
  let q0 := q.without (recId x)
  if q.halted then s.setQuery sheet (some { q0 with records := q0.records ++ [⟨x, none, now, false⟩] }) else
  let e := q.eligible x
  if q.complete x || e.isEmpty then
    (s.intoPort q.outParcel q.outPort [plainRecord x false]).setQuery sheet (some { q0 with emitted := q.emitted + 1 })
  else
    let (i, q1) := q0.choose e
    match q.slots.find i with
    | none => s.setQuery sheet (some q1)
    | some o =>
      if o.join then
        s.setQuery sheet (some { q1 with records := q1.records ++ [⟨x, some i, now, false⟩], joinQueue := q1.joinQueue ++ [x] })
      else s.sendWaiting sheet { q1 with records := q1.records ++ [⟨x, some i, now, true⟩] }

/-- Admit a word that is not a token (R363, R366): a non-record and a repeated id are stray. -/
def State.enrol (s : State) (sheet : Nat) (q : Query) (x : LinkWord) : State :=
  if x.fmt ≠ 7 || 56 < recLength x || (q.record (recId x)).isSome then
    s.setQuery sheet (some { q with stray := q.stray + 1 })
  else s.decide sheet { q with admitted := q.admitted + 1 } x

/-- Whether a query takes records now. -/
def Query.admits (q : Query) : Bool :=
  !q.halted && !q.stopped && !q.poisoned && q.closing.isNone && q.records.length < 256

/-- Whether the engines of a query run. -/
def State.queryRuns (s : State) (q : Query) : Bool := s.enginesRun q.opener

/-- A returned word that the Compass can take now: it comes before an admission (R385). -/
def State.returnsDue (s : State) (sheet : Nat) : Bool := (s.compass sheet).returns.any fun e => s.enginesRun e.1

/-- `RECORD_ADMISSION`: waiting records are sent, and the next word of the input port is admitted or acted on, unless a return
is to be handled first (R363, R385). -/
def execRecordAdmission (sheet : Nat) (s : State) : Host.Outcome State Fault Refusal :=
  match s.query sheet with
  | none => .next s
  | some q0 =>
    if !s.queryRuns q0 then .next s else
    let s1 := s.sendWaiting sheet q0
    match s1.query sheet, (s1.port q0.inParcel q0.inPort).outbound with
    | some q, x :: rest =>
      if !q.admits || s1.returnsDue sheet then .next s1
      else
        let s2 := s1.onPort q.inParcel q.inPort fun w => { w with outbound := rest }
        if x.token then
          if x.kind = 1 then .next (s2.setQuery sheet (some { q with stopped := true }))
          else if x.kind = 2 then
            .next ((s2.setQuery sheet (some { q with poisoned := true })).poisonSink q.inParcel
              (fun rel => 6 * 2 ^ 8 + q.inPort * 2 ^ 12 + rel * 2 ^ 16) (fun rel => rel * 2 ^ 16 + q.inPort * 2 ^ 12))
          else .next s2
        else .next (s2.enrol sheet q x)
    | _, _ => .next s1

/-- `RECORD_RETURN`: the Compass accepts the oldest returned word and gives its credit back (R291, R366). -/
def execRecordReturn (sheet : Nat) (s : State) : Host.Outcome State Fault Refusal :=
  match (s.compass sheet).returns with
  | [] => .next s
  | (p, x) :: rest =>
    if !s.enginesRun p then .next s else
    let s1 : State := { s with compasses := s.compasses.alter Compass.reset sheet fun c => { c with returns := rest } }
    let s2 := s1.onParcel p fun y => { y with credits := y.credits + 1 }
    match s2.query sheet with
    | none => .next s2
    | some q =>
      let stray := s2.setQuery sheet (some { q with stray := q.stray + 1 })
      match q.record (recId x) with
      | none => .next stray
      | some r =>
        match r.away, r.away.bind fun i => q.slots.find i with
        | some i, some o =>
          if r.waits || o.join || 56 < recLength x then .next stray
          else
            let q1 := q.observe i (if recDiscard x then 1 else 0) (s.meridian.toNat - r.sent)
            if recDiscard x then
              .next (s2.setQuery sheet (some { q1.without (recId x) with discarded := q1.discarded + 1 }))
            else
              let done := recDone x ||| BitVec.ofNat 8 (2 ^ i)
              let sc := setF (setF x.scale 25 25 (recSide r.word)) 23 16 done.toNat
              .next (s2.decide sheet q1 { setStamp x (recStamp r.word) with scale := sc })
        | _, _ => .next stray

/-! ### The end of a query (R382) -/

/-- Free the match port of a slot that is defined anew or closed. -/
def State.leaveSlot (s : State) (q : Query) (i : Nat) : State :=
  match q.slots.find i with
  | some o => if o.join then s.onPort o.matchParcel o.matchPort fun w =>
      if w.inHolder = .query then { w with inHolder := .free } else w else s
  | none => s

/-- Free a query's slots, tables and port sides; a Scribe source that targets it loses its target (R382, R385). -/
def State.freeQuery (s : State) (sheet : Nat) (q : Query) : State :=
  let s1 := (List.range 8).foldl (fun t i => t.leaveSlot q i) s
  let s2 := s1.onPort q.inParcel q.inPort fun w => if w.outHolder = .query then { w with outHolder := .free } else w
  let s3 := s2.onPort q.outParcel q.outPort fun w => if w.inHolder = .query then { w with inHolder := .free } else w
  let lose := fun (st : State) (p : Nat) => st.onParcel p fun x =>
    if x.scribe.state = 1 && wbit x.scribe.control 13 then { x with scribe := { x.scribe with lost := true } } else x
  ((List.range 4).foldl (fun t k => lose t (4 * sheet + k)) s3).setQuery sheet none

/-- A query closes: it is freed and makes its arrival (R382). -/
def State.closeQuery (s : State) (sheet : Nat) (q : Query) : State :=
  let s1 := s.freeQuery sheet q
  match q.closing with
  | some (p, n, true) => s1.sendArrival p n 6 0
  | _ => s1

/-- A query halts at a join, and its opener is told; one that is already closing closes at once (R369, R382). -/
def State.haltQuery (s : State) (sheet : Nat) (q : Query) (slot : Nat) (code : Byte) : State :=
  let h := { q with halted := true }
  let s1 := (s.setQuery sheet (some h)).report q.opener code 6 slot none (Config.freeWord s.tick)
  if q.closing.isSome then s1.closeQuery sheet h else s1

/-! ### Joins (R368, R369) -/

/-- The address of entry `n` of one side's table. -/
def Operator.entryAddress (o : Operator) (side n : Nat) : Nat := o.area + side * (o.size / 2) + 128 * n
def Operator.fill (o : Operator) (side : Nat) : Nat := if side = 0 then o.fill0 else o.fill1
/-- The key of a record's payload. -/
def Operator.key (o : Operator) (payload : BitVec 512) : Nat := payload.toNat / 2 ^ (8 * o.keyOff) % 2 ^ (8 * o.keyLen)
/-- An entry as its bytes: payload, scale lane, zeros (log 45). -/
def recordEntry (x : LinkWord) : List Byte :=
  payloadBytes x.payload ++ Decode.leBytes 4 x.scale.toNat ++ List.replicate 60 0
def State.joinEntry (s : State) (o : Operator) (side n : Nat) : LinkWord :=
  let bs := s.homeRead (o.entryAddress side n) 128
  dataWord (bytesPayload (bs.take 64)) (BitVec.ofNat 32 (field bs 64 4)) 7
/-- Signed distance modulo 2^32 (R63, R368). -/
def dist32 (v c : Nat) : Int := ((v : Int) - c + 2 ^ 31) % 2 ^ 32 - 2 ^ 31

/-- What the join unit writes and reads for a record may be reserved by a segment (R396). -/
def joinCheck (q : Query) (o : Operator) (side : Nat) : Act Unit := do
  let u := Writer.engine q.opener
  reserveCheck u (o.entryAddress side (o.fill side)) 128 0
  if 0 < o.fill (1 - side) then reserveCheck u (o.entryAddress (1 - side) 0) (128 * o.fill (1 - side)) 0

/-- `JOIN_RECORD`: the join unit stamps, inserts and probes the oldest record sent to it; a full table halts the
query, and so does a table that a segment keeps (R368, R369, R396, log 135). -/
def execJoinRecord (sheet : Nat) (s : State) : Host.Outcome State Fault Refusal :=
  match s.query sheet with
  | none => .next s
  | some q =>
    match q.joinQueue with
    | [] => .next s
    | x :: rest =>
      if !s.queryRuns q || q.halted then .next s else
      match q.record (recId x) with
      | none => .next s
      | some r =>
        match r.away, r.away.bind fun i => q.slots.find i with
        | some i, some o =>
          let side := recSide x
          let y := setStamp x o.stamp
          let o1 := { o with stamp := (o.stamp + 1) % 2 ^ 32 }
          let held : QueryRecord := ⟨y, none, r.sent, false⟩
          if o.size / 2 ≤ 128 * o.fill side then
            let q1 := q.without (recId x)
            let q2 := { q1 with slots := q1.slots.put i o1, records := q1.records ++ [held], joinQueue := rest }
            .next (s.haltQuery sheet q2 i codeBufferState)
          else match joinCheck q o side s with
          | .error .hold t => .next t
          | .error (.fault c _) _ =>
            .next (s.haltQuery sheet { q.without (recId x) with records := (q.without (recId x)).records ++ [held], joinQueue := rest } i c)
          | .ok _ _ =>
            let s1 := s.homeWrite (o.entryAddress side (o.fill side)) (recordEntry y)
            let o2 := if side = 0 then { o1 with fill0 := o.fill0 + 1 } else { o1 with fill1 := o.fill1 + 1 }
            let found := ((List.range (o.fill (1 - side))).map (s.joinEntry o (1 - side))).filter fun e =>
              o.key e.payload = o.key y.payload && dist32 (recStamp e) o.stamp < 0
            let out := found.flatMap fun e => [plainRecord e false, plainRecord y true]
            let q1 := { q.without (recId x) with slots := q.slots.put i o2, joinQueue := rest, joined := q.joined + 1 }
            let q2 := q1.observe i (if found.isEmpty then 1 else 0) (s.meridian.toNat - r.sent)
            .next ((s1.intoPort o.matchParcel o.matchPort out).setQuery sheet (some q2))
        | _, _ => .next s

/-! ### Instructions (R375-R382) -/

/-- The common checks of an instruction: the region's shape, and the issuer's sheet. -/
def cpRegion (a : Word) : Act (Nat × Region) := do
  let s ← get
  match s.regionOf s.here with
  | some x => do
    check (2 ≤ x.2.shape) codeScope a
    pure x
  | none => raise codeScope a
/-- A parcel that an instruction names, in the issuer's sheet (R376). -/
def cpParcel (a : Word) (rel : Nat) : Act Nat := do
  let s ← get
  let (o, r) ← cpRegion a
  check (rel < 2 ^ r.shape && (o + rel) / 4 = s.here / 4) codeScope a
  pure (o + rel)
/-- The open query of the issuer's sheet. -/
def cpQuery (a : Word) : Act Query := do
  let s ← get
  match s.query (s.here / 4) with
  | some q => pure q
  | none => raise codeBufferState a
def putQuery (q : Option Query) : Act Unit := modify fun s => s.setQuery (s.here / 4) q

/-- `CP.OPEN` (R363, R377). -/
def execCpOpen (ra : Reg) (s : State) : Host.Outcome State Fault Refusal :=
  s.attempt (.cpOpen ra) 6 do
    let a := s.reg ra
    let _ ← cpRegion a
    check (wbits a 63 48 = 0 && wbits a 9 3 = 0) codeIllegal 0
    let out ← cpParcel a (wbits a 31 23)
    let inp ← cpParcel a (wbits a 20 12)
    let ip := wbits a 11 10
    let op := wbits a 22 21
    check ((s.query (s.here / 4)).isNone && s.sideFree inp ip false && s.sideFree out op true)
      codeBufferState a
    let q : Query :=
      { opener := s.here, mask0 := a.extractLsb' 32 8, mask1 := a.extractLsb' 40 8, inParcel := inp, inPort := ip,
        outParcel := out, outPort := op, shift := wbits a 2 0, explore := 0, decisions := 0, rr := 7, fixed := none,
        slots := [], records := [], joinQueue := [], admitted := 0, emitted := 0, discarded := 0, joined := 0, stray := 0,
        halted := false, stopped := false, poisoned := false, closing := none }
    putQuery (some q)
    modify fun t => (t.onPort inp ip fun w => { w with outHolder := .query }).onPort out op fun w => { w with inHolder := .query }
    proceed

/-- Whether a route, an ingress word or an `HIN` of the region owns an input queue (R225, R288). -/
def State.queueOwned (s : State) (p m q : Nat) : Bool :=
  match s.regionOf p with
  | none => false
  | some (o, r) =>
    ((s.parcel p).ingress.toList.any fun g => g.getLsbD 63 && getF g 62 59 = m && getF g 58 57 = q) ||
    ((s.cell p m).hinSlots.any fun e => e.2.2 = q) ||
    (regionParcels o r).any fun n => (s.parcel n).cells.any fun e =>
      (List.range 4).any fun k => s.routeTarget n e.1 k = some (p, m, q)

/-- Define a slot (R378, R379): refused while records are away at it. -/
def defineSlot (a : Word) (q : Query) (i : Nat) (o : Operator) : Act Unit := do
  check (!(q.records.any fun r => r.away = some i)) codeBufferState a
  modify fun t => t.leaveSlot q i
  putQuery (some { q with slots := q.slots.put i o })
  if o.join then modify fun t => t.onPort o.matchParcel o.matchPort fun w => { w with inHolder := .query }
  proceed

/-- A slot's common part: prerequisites and sides. -/
def slotCommon (a : Word) (hint : Nat) : Operator :=
  { join := false, prereq := a.extractLsb' 8 8, sides := a.extractLsb' 16 2, parcel := 0, cell := 0, queue := 0, ctx := 0,
    p := 32768, c := hint, visits := 0, keyOff := 0, keyLen := 0, matchParcel := 0, matchPort := 0, area := 0, size := 0,
    stamp := 1, fill0 := 0, fill1 := 0 }

/-- `CP.OPER` (R378). -/
def execCpOper (ra rb : Reg) (s : State) : Host.Outcome State Fault Refusal :=
  s.attempt (.cpOper ra rb) 6 do
    let a := s.reg ra
    let b := s.reg rb
    let _ ← cpRegion a
    check (wbits a 63 36 = 0 && wbits a 7 3 = 0 && wbits b 63 16 = 0) codeIllegal 0
    let i := wbits a 2 0
    check (!wbit a (8 + i) && wbits a 17 16 ≠ 0) codeIllegal 0
    let p ← cpParcel a (wbits a 26 18)
    let q ← cpQuery a
    check (!s.queueOwned p (wbits a 30 27) (wbits a 32 31)) codeBufferState a
    defineSlot a q i { slotCommon a (wbits b 15 0) with
      parcel := p, cell := wbits a 30 27, queue := wbits a 32 31, ctx := a.extractLsb' 33 3 }

/-- The address of a sheet's slice window at a bank offset, by a parcel of the sheet; a saved kernel's tables stand where no
address is (R57, R385). -/
def sheetAddress (p off : Nat) : Nat := (if p < 512 then sheetBase else 2 ^ 60) + p / 4 * 0x200000 + off

/-- `CP.JOIN` (R379): both tables are empty and the next stamp is 1. -/
def execCpJoin (ra rb : Reg) (s : State) : Host.Outcome State Fault Refusal :=
  s.attempt (.cpJoin ra rb) 6 do
    let a := s.reg ra
    let (o, r) ← cpRegion a
    check (wbits a 63 18 = 0 && wbits a 7 3 = 0) codeIllegal 0
    let i := wbits a 2 0
    check (!wbit a (8 + i) && wbits a 17 16 ≠ 0) codeIllegal 0
    let q ← cpQuery a
    check ((s.reg rb).toNat % 32 = 0) codeMisaligned a
    issueRelease .s
    let d ← withXa a (readVa (.core s.here) .s (s.reg rb) 32)
    let k := field d 0 1
    let w := field d 1 1
    let off := field d 4 4
    let size := field d 8 4
    check (8 ≤ k && 1 ≤ w && w ≤ 8 && k + w ≤ 64 && off % 128 = 0 && size % 256 = 0 && 256 ≤ size && field d 3 1 < 8 &&
      field d 14 18 = 0) codeIllegal 0
    check (heldWay o r 2 (s.here / 4) off && heldWay o r 2 (s.here / 4) (off + size - 1)) codePermission a
    let m ← cpParcel a (field d 2 2 % 512)
    let port := field d 2 2 / 512 % 4
    let mine := match q.slots.find i with
      | some x => x.join && x.matchParcel = m && x.matchPort = port
      | none => false
    check (mine || s.sideFree m port true) codeBufferState a
    defineSlot a q i { slotCommon a (field d 12 2) with
      join := true, keyOff := k, keyLen := w, matchParcel := m, matchPort := port,
      area := sheetAddress s.here off, size := size }

/-- `CP.EXPL` (R380). -/
def execCpExpl (ra : Reg) (s : State) : Host.Outcome State Fault Refusal :=
  s.attempt (.cpExpl ra) 6 do
    let a := s.reg ra
    let _ ← cpRegion a
    check (wbits a 63 4 = 0) codeIllegal 0
    let q ← cpQuery a
    putQuery (some { q with explore := wbits a 3 0, decisions := 0 })
    proceed

/-- `CP.FIX` (R380). -/
def execCpFix (ra : Reg) (s : State) : Host.Outcome State Fault Refusal :=
  s.attempt (.cpFix ra) 6 do
    let a := s.reg ra
    let _ ← cpRegion a
    let n := wbits a 27 24
    let order := (List.range n).map fun k => wbits a (3 * k + 2) (3 * k)
    check (wbits a 63 28 = 0 && n ≤ 8 && order.eraseDups.length = n) codeIllegal 0
    let q ← cpQuery a
    putQuery (some { q with fixed := if n = 0 then none else some order })
    proceed

/-- The value that `CP.OBS` reads (R381). -/
def Query.observation (q : Query) (sel : Nat) : Word :=
  match sel with
  | 8 => q.admitted.setWidth 64
  | 9 => q.emitted.setWidth 64
  | 10 => q.discarded.setWidth 64
  | 11 => q.joined.setWidth 64
  | 12 => q.stray.setWidth 64
  | 13 => BitVec.ofNat 64 (q.records.length + q.explore * 2 ^ 16 + q.shift * 2 ^ 20 +
      (if q.fixed.isSome then 2 ^ 23 else 0) + (if q.halted then 2 ^ 24 else 0))
  | i => match q.slots.find i with
    | some o => BitVec.ofNat 64 (o.visits.toNat * 2 ^ 48 + o.c * 2 ^ 32 + o.p)
    | none => 0

/-- `CP.OBS` (R381). -/
def execCpObs (rd ra : Reg) (s : State) : Host.Outcome State Fault Refusal :=
  s.attempt (.cpObs rd ra) 6 do
    let a := s.reg ra
    let _ ← cpRegion a
    check (a.toNat < 14) codeIllegal 0
    let q ← cpQuery a
    finish rd (q.observation a.toNat)

/-- `CP.CLOSE` (R382): a halted query drops its records and closes at once. -/
def execCpClose (ra : Reg) (s : State) : Host.Outcome State Fault Refusal :=
  s.attempt (.cpClose ra) 6 do
    let a := s.reg ra
    let _ ← cpRegion a
    check (wbits a 63 7 = 0) codeIllegal 0
    let q ← cpQuery a
    let q1 := { q with closing := some (s.here, wbits a 5 0, wbit a 6) }
    if q.halted then modify fun t => t.closeQuery (s.here / 4) q1 else putQuery (some q1)
    proceed

/-- `QUERY_CLOSED`: a closing query that holds no record is freed. -/
def execQueryClosed (sheet : Nat) (s : State) : Host.Outcome State Fault Refusal :=
  match s.query sheet with
  | none => .next s
  | some q =>
    if !s.queryRuns q || q.closing.isNone || !q.records.isEmpty then .next s
    else .next (s.closeQuery sheet q)

end Sys2Proof.Machine
end

