-- ==== Sys2Proof/Machine/Scribe.lean ====
section
/-! DEFINITION. The Scribe decoder: the CBOR subset, schema tables, records, sources, and the `SCR` instructions
(R370-R374, R383-R385). -/

namespace Sys2Proof.Machine

/-! ### Fields of a source (R383) -/

def Scribe.scope (x : Scribe) : Scope := scopeOfCode (wbits x.control 11 8)
def Scribe.base (x : Scribe) : Word := wordOf (slice x.desc 0 8)
def Scribe.length (x : Scribe) : Nat := field x.desc 8 8
def Scribe.batch (x : Scribe) : Nat := field x.desc 24 4
def Scribe.toQuery (x : Scribe) : Bool := wbit x.control 13
def Scribe.side (x : Scribe) : Nat := wbits x.control 12 12
def Scribe.targetRel (x : Scribe) : Nat := wbits x.control 22 14
def Scribe.targetPort (x : Scribe) : Nat := wbits x.control 24 23

def State.scribe (s : State) (p : Nat) : Scribe := (s.parcel p).scribe
def State.onScribe (s : State) (p : Nat) (f : Scribe → Scribe) : State :=
  s.onParcel p fun x => { x with scribe := f x.scribe }

/-! ### Schema tables (R372) -/

/-- An entry: whether its key is text, the key's bytes, field type, offset, size in bytes, and its flags. -/
structure SchemaEntry where
  text : Bool
  key : List Byte
  format : Nat
  offset : Nat
  size : Nat
  string : Bool
  required : Bool
  deriving DecidableEq, Repr, Inhabited

def schemaEntry (bs : List Byte) : SchemaEntry :=
  let text := field bs 8 1 % 2 = 1
  let string := field bs 11 1 / 2 % 2 = 1
  { text := text, key := slice bs 0 (if text then field bs 8 1 / 16 else 8), format := field bs 9 1, offset := field bs 10 1,
    size := if string then field bs 12 1 else formatBits (field bs 9 1) / 8, string := string,
    required := field bs 11 1 % 2 = 1 }
/-- The entries of a schema. -/
def schemaEntries (bs : List Byte) : List SchemaEntry :=
  (List.range (field bs 0 1)).map fun i => schemaEntry (slice bs (16 + 16 * i) 16)
def schemaLength (bs : List Byte) : Nat := field bs 1 1

/-- The bad bytes of one entry by itself. -/
def entryBad (bs : List Byte) : List Nat :=
  let b := fun (i : Nat) => field bs i 1
  let text := b 8 % 2 = 1
  let len := b 8 / 16
  let string := b 11 / 2 % 2 = 1
  let kind := if b 8 / 2 % 8 ≠ 0 || (if text then len = 0 || 8 < len else len ≠ 0) then [8]
    else if text then (List.range 8).filter fun i => len ≤ i && b i ≠ 0 else []
  kind ++ (if (if string then 0 else 10) < b 9 then [9] else []) ++ (if 55 < b 10 then [10] else []) ++
    (if 4 ≤ b 11 then [11] else []) ++ (if (if string then b 12 = 0 || 56 < b 12 else b 12 ≠ 0) then [12] else []) ++
    ([13, 14, 15].filter fun i => b i ≠ 0)

/-- Offset of a schema's first bad byte, none where it is good. A field outside the record or over another is laid to the
later entry's offset byte, a repeated key to the later entry's first byte (DEDUCED, log 46). -/
def schemaBad (bs : List Byte) : Option Nat :=
  let n := field bs 0 1
  if n = 0 || 15 < n then some 0 else
  let es := schemaEntries bs
  let head := (if 56 < schemaLength bs then [1] else []) ++ ((List.range 14).map (2 + ·)).filter fun i => field bs i 1 ≠ 0
  let rest := es.zipIdx.flatMap fun e =>
    let at_ := 16 + 16 * e.2
    let before := es.take e.2
    let clash := schemaLength bs < e.1.offset + e.1.size ||
      before.any fun f => e.1.offset < f.offset + f.size && f.offset < e.1.offset + e.1.size
    let twice := before.any fun f => f.text = e.1.text && f.key = e.1.key
    ((entryBad (slice bs at_ 16)).map (at_ + ·)) ++ (if clash then [at_ + 10] else []) ++ (if twice then [at_] else [])
  match head ++ rest with
  | [] => none
  | x :: xs => some (xs.foldl min x)

/-! ### CBOR (R370, R371) -/

/-- A scan of the source: it ends with a reason where the end of the item can't be found. -/
abbrev Scan := ExceptT Nat Act

/-- Bytes of a source; an item that runs past its end is malformed. -/
def sourceBytes (p : Nat) (x : Scribe) (pos n : Nat) : Scan (List Byte) :=
  if x.length < pos + n then throw 0
  else ExceptT.lift (readSpan (.engine p) x.scope (spanFuel n) (x.base + BitVec.ofNat 64 pos) n)

/-- A big-endian number. -/
def beNat (bs : List Byte) : Nat := bs.foldl (fun v b => 256 * v + b.toNat) 0

/-- An item's head: major type, additional information, argument, and the place after it. -/
structure Head where
  major : Nat
  info : Nat
  arg : Nat
  next : Nat
  deriving DecidableEq, Repr, Inhabited

def readHead (p : Nat) (x : Scribe) (pos : Nat) : Scan Head := do
  let bs ← sourceBytes p x pos 1
  let b := beNat bs
  let major := b / 32
  let info := b % 32
  if info < 24 then pure ⟨major, info, info, pos + 1⟩
  else if info < 28 then do
    let n := 2 ^ (info - 24)
    let arg ← sourceBytes p x (pos + 1) n
    pure ⟨major, info, beNat arg, pos + 1 + n⟩
  else throw (if info = 31 && 2 ≤ major && major ≤ 5 then 3 else 0)

/-- The reasons that a scanned head adds by itself: a large tag number, or a simple value outside the subset. -/
def Head.reasons (h : Head) : List Nat :=
  if (h.major = 6 && 24 ≤ h.info) || (h.major = 7 && !(h.info ∈ [20, 21, 22, 25, 26, 27])) then [3] else []

/-- A head after its tags; `fuel` bounds their number. -/
def untagged (p : Nat) (x : Scribe) : Nat → Nat → List Nat → Scan (Head × List Nat)
  | 0, _, _ => throw 0
  | n + 1, pos, rs => do
    let h ← readHead p x pos
    if h.major = 6 then untagged p x n h.next (rs ++ h.reasons) else pure (h, rs ++ h.reasons)

/-- Skip items: `open_` holds how many items are still to come at each level of nesting; the reasons found. -/
def skipItems (p : Nat) (x : Scribe) : Nat → Nat → List Nat → List Nat → Scan (Nat × List Nat)
  | _, pos, [], rs => pure (pos, rs)
  | 0, _, _, _ => throw 0
  | n + 1, pos, 0 :: open_, rs => skipItems p x n pos open_ rs
  | n + 1, pos, (k + 1) :: open_, rs => do
    let (h, rs1) ← untagged p x (x.length + 1) pos rs
    if h.major = 2 || h.major = 3 then
      if x.length < h.next + h.arg then throw 0 else skipItems p x n (h.next + h.arg) (k :: open_) rs1
    else if h.major = 4 || h.major = 5 then
      skipItems p x n h.next ((h.major - 3) * h.arg :: k :: open_) (if 9 ≤ open_.length + 1 then rs1 ++ [3] else rs1)
    else skipItems p x n h.next (k :: open_) rs1

/-- Enough steps for any item of a source. -/
def scanFuel (x : Scribe) : Nat := 2 * x.length + 2

/-- What a value is for a field (R373). -/
inductive CborValue where
  | int (v : Int)
  | bool (b : Bool)
  | null
  | float (v : FVal)
  | string (bytes : List Byte) (long : Bool)
  | other
  deriving DecidableEq, Repr, Inhabited

/-- IEEE 754 double (RFC 8949). -/
def fmtF64 : FFmt := ⟨11, 52, 1023, true, 1⟩

/-- One item: its head, its value, the end, and the reasons it adds. -/
def readItem (p : Nat) (x : Scribe) (pos : Nat) : Scan (Head × CborValue × Nat × List Nat) := do
  let (h, _) ← untagged p x (x.length + 1) pos []
  let (end_, rs) ← skipItems p x (scanFuel x) pos [1] []
  let v ← match h.major with
    | 0 => pure (.int h.arg)
    | 1 => pure (.int (-1 - (h.arg : Int)))
    | 2 | 3 => if 56 < h.arg then pure (.string [] true) else do
        let bs ← sourceBytes p x h.next h.arg
        pure (.string bs false)
    | 7 => pure (match h.info with
        | 20 => .bool false
        | 21 => .bool true
        | 22 => .null
        | 25 => .float (fmtF16.decode h.arg)
        | 26 => .float (fmtF32.decode h.arg)
        | 27 => .float (fmtF64.decode h.arg)
        | _ => .other)
    | _ => pure .other
  pure (h, v, end_, rs)

/-- The key of a map as a schema names it, or the reason it is refused for. -/
def keyOf (h : Head) (v : CborValue) : Except Nat (Bool × List Byte) :=
  match h.major, v with
  | 0, _ => .ok (false, Decode.leBytes 8 h.arg)
  | 3, .string bs false => if bs.length ≤ 8 then .ok (true, bs) else .error 2
  | _, .float _ => .error 3
  | _, _ => .error 2

/-- Read the pairs of a map: the values of its schema keys, later ones last, the end, and the reasons. -/
def readPairs (p : Nat) (x : Scribe) (es : List SchemaEntry) :
    Nat → Nat → Nat → List (Nat × CborValue) → List Nat → Scan (List (Nat × CborValue) × Nat × List Nat)
  | _, 0, pos, vals, rs => pure (vals, pos, rs)
  | 0, _, _, _, _ => throw 0
  | n + 1, k + 1, pos, vals, rs => do
    let (kh, kv, kend, krs) ← readItem p x pos
    let (_, v, vend, vrs) ← readItem p x kend
    match keyOf kh kv with
    | .error r => readPairs p x es n k vend vals (rs ++ krs ++ [r] ++ vrs)
    | .ok (text, key) =>
      let i := es.findIdx? fun e => e.text = text && e.key = key
      readPairs p x es n k vend (match i with | some i => vals ++ [(i, v)] | none => vals) (rs ++ krs ++ vrs)

/-- The bytes of a field, or the reason that its value fails for (R373). -/
def fillField (e : SchemaEntry) (v : CborValue) : Except Nat (List Byte) :=
  if e.string then
    match v with
    | .string bs long => if long || e.size < bs.length then .error 1 else .ok (bs ++ List.replicate (e.size - bs.length) 0)
    | _ => .error 2
  else
    let w := 8 * e.size
    let int := fun (n : Int) =>
      if satInt w (4 ≤ e.format) n = n then Except.ok (Decode.leBytes e.size (wrapInt w n)) else .error 2
    if e.format < 8 then
      match v with
      | .int n => int n
      | .bool b => int (if b then 1 else 0)
      | _ => .error 2
    else match v, lgFmt e.format with
      | .float f, some x =>
        let r := x.finish .rne false 0 (match f with
          | .nan _ => .nan 0
          | .inf n => .inf n 0
          | .fin n m k => .val ⟨n, m, k, false⟩)
        if r.flags &&& flagOverflow ≠ 0 then .error 2 else .ok (Decode.leBytes e.size r.code)
      | _, _ => .error 2

/-- Fill a record's payload: its bytes and the reasons. -/
def fillRecord (es : List SchemaEntry) (vals : List (Nat × CborValue)) (len : Nat) : List Byte × List Nat :=
  es.zipIdx.foldl (fun (acc : List Byte × List Nat) e =>
    match ((vals.reverse.find? fun (v : Nat × CborValue) => v.1 = e.2).map fun (v : Nat × CborValue) => v.2) with
    | none | some CborValue.null => (acc.1, if e.1.required then acc.2 ++ [4] else acc.2)
    | some v => match fillField e.1 v with
      | .ok bs => (patch acc.1 e.1.offset bs, acc.2)
      | .error r => (acc.1, acc.2 ++ [r])) (List.replicate len 0, [])

/-- The first reason that applies (R371). -/
def firstReason (rs : List Nat) : Option Nat := [0, 3, 1, 2, 4].find? fun r => r ∈ rs

/-- One item at the source's place: the record's payload or the reason of a failure, and the place after it. -/
def decodeItem (p : Nat) (x : Scribe) : Scan (Except Nat (List Byte) × Nat) := do
  let es := schemaEntries x.schema
  let (h, rs0) ← untagged p x (x.length + 1) x.offset []
  let long := fun (end_ : Nat) => if 65536 < end_ - x.offset then [1] else []
  if h.major = 5 then do
    let (vals, end_, rs1) ← readPairs p x es (x.length + 1) h.arg h.next [] []
    let (bs, rs2) := fillRecord es vals (schemaLength x.schema)
    pure (match firstReason (rs0 ++ rs1 ++ rs2 ++ long end_) with
      | some r => .error r
      | none => .ok bs, end_)
  else do
    let (end_, rs1) ← skipItems p x (scanFuel x) x.offset [1] []
    pure (.error ((firstReason ([2] ++ rs1 ++ long end_)).getD 2), end_)

/-- The record word of a passing map (R362, R373). -/
def recordOf (x : Scribe) (bs : List Byte) : LinkWord :=
  let len := schemaLength x.schema
  let mask := 3 + (2 ^ ((len + 3) / 4) - 1) * 4
  dataWord (bytesPayload (Decode.leBytes 4 x.seq ++ [0, 0, 0, 0] ++ bs))
    (BitVec.ofNat 32 (len * 2 ^ 26 + x.side * 2 ^ 25 + mask)) 7

/-! ### Sources -/

/-- Nothing is left to decode: the source has ended, or its batch is complete (R374). -/
def Scribe.decoded (x : Scribe) : Bool := x.length ≤ x.offset || (x.batch ≠ 0 && x.batch ≤ x.passed)
/-- Count up to 2^32 − 1 (R384). -/
def Scribe.count (x : Scribe) (i : Nat) : Scribe :=
  { x with counts := x.counts.setIfInBounds i (min (x.counts.toList.getD i 0 + 1) (2 ^ 32 - 1)) }

/-- `SCR.OPEN` (R383). -/
def execScrOpen (rd ra rb : Reg) (s : State) : Host.Outcome State Fault Refusal :=
  s.attempt (.scrOpen rd ra rb) 7 do
    let a := s.reg ra
    let b := s.reg rb
    let p := s.here
    check (wbits a 63 25 = 0 && !wbit a 7) codeIllegal 0
    let sc ← scopeField (wbits a 11 8)
    check (b.toNat % 32 = 0) codeMisaligned a
    issueRelease sc
    let d ← withXa a (readVa (.core p) sc b 32)
    check (field d 8 8 < 2 ^ 40 && field d 28 4 = 0) codeIllegal 0
    let at_ := wordOf (slice d 16 8)
    check (at_.toNat % 64 = 0) codeMisaligned a
    let head ← withXa a (readSpan (.core p) sc 2 at_ 16)
    let n := if field head 0 1 ≤ 15 then 16 * field head 0 1 else 0
    let entries ← if n = 0 then pure [] else withXa a (readSpan (.core p) sc 2 (at_ + 16) n)
    let schema := head ++ entries
    match schemaBad schema with
    | some i => raise codeRecordSchema (at_ + BitVec.ofNat 64 i)
    | none => pure ()
    let old := s.scribe p
    let x : Scribe := { Scribe.reset with state := 1, control := a, desc := d, schema := schema, counts := old.counts }
    check (old.state ≠ 1) codeBufferState a
    if x.toQuery then check (s.query (p / 4)).isSome codeBufferState a
    else do
      let (o, r) ← myRegion
      check (x.targetRel < 2 ^ r.shape) codeScope a
      check (s.portHolder (o + x.targetRel) x.targetPort false = .free) codeBufferState a
      modify fun t => t.onPort (o + x.targetRel) x.targetPort fun w => { w with inHolder := .source }
    modify fun t => t.onScribe p fun _ => x
    finish rd s.newPromise

/-- `SCR.CNT` (R384). -/
def execScrCnt (rd ra : Reg) (s : State) : Host.Outcome State Fault Refusal :=
  s.attempt (.scrCnt rd ra) 7 do
    let a := s.reg ra
    let p := s.here
    let sel := wbits a 2 0
    check (wbits a 63 4 = 0 && sel ≠ 7 && !(wbit a 3 && sel = 6)) codeIllegal 0
    let x := s.scribe p
    if wbit a 3 then modify fun t => t.onScribe p fun y => { y with counts := y.counts.setIfInBounds sel 0 }
    finish rd (if sel = 6 then BitVec.ofNat 64 (x.seq % 2 ^ 32 * 2 ^ 32 + x.state.toNat)
      else BitVec.ofNat 64 (x.counts.toList.getD sel 0))

/-- The region-absolute target parcel. -/
def State.scribeTarget (s : State) (p : Nat) : Nat :=
  (match s.regionOf p with
    | some (o, _) => o
    | none => 0) + (s.scribe p).targetRel

/-- A source ends: its target side is free (R374). -/
def State.endSource (s : State) (p : Nat) : State :=
  let x := s.scribe p
  let s1 := s.onScribe p fun y => { y with state := 2, pending := [] }
  if x.toQuery then s1 else s1.onPort (s.scribeTarget p) x.targetPort fun w =>
    if w.inHolder = .source then { w with inHolder := .free } else w

/-- Send decoded sample `k` to the target; it waits while the query takes no records, and is dropped once the query has
closed (R374, R385). -/
def State.sendSample (s : State) (p k : Nat) : State :=
  let x := s.scribe p
  match x.pending[k]? with
  | none => s
  | some w =>
    let gone := s.onScribe p fun y => { y with pending := y.pending.eraseIdx k }
    let sent := gone.onScribe p fun y => y.count 5
    if !x.toQuery then sent.intoPort (s.scribeTarget p) x.targetPort [w]
    else if x.lost then gone
    else match s.query (p / 4) with
      | some q => if q.admits && !s.returnsDue (p / 4) then sent.enrol (p / 4) q w else s
      | none => gone

/-- Whether a parcel's source has an item that the Scribe can decode. -/
def State.scribeWants (s : State) (p : Nat) : Bool := s.enginesRun p && (s.scribe p).state = 1 && !(s.scribe p).decoded
/-- Whether a parcel's source is the next in its province's round: the first after the one served last (R374). -/
def State.scribeTurn (s : State) (p : Nat) : Bool :=
  let v := p / 64
  let last := (s.provinces.look Province.reset v).scribe % 64
  ((List.range 64).map fun k => 64 * v + (last + 1 + k) % 64).find? s.scribeWants = some p
/-- The Scribe of a parcel's province has served its source. -/
def State.scribeServed (s : State) (p : Nat) : State :=
  { s with provinces := s.provinces.alter Province.reset (p / 64) fun v => { v with scribe := p } }

/-- `SCRIBE_ITEM`: the Scribe decodes the next item of a parcel's source when its turn in the province has come, or sends on a
sample that it has decoded; a fault on the source ends it (R370-R374, R383). -/
def execScribeItem (p : Nat) (s : State) : Host.Outcome State Fault Refusal :=
  let x := s.scribe p
  let k := Config.scribeOrder s.tick % (x.pending.length + 1)
  if !s.enginesRun p || x.state ≠ 1 then .next s
  else if k < x.pending.length || x.decoded then .next (s.sendSample p (if k < x.pending.length then k else 0))
  else
    if !s.scribeTurn p then .next s else
    let next := fun (st : State) (f : Scribe → Scribe) => (st.onScribe p fun y => f { y with seq := y.seq + 1 }).scribeServed p
    match (decodeItem p x).run s with
    | .ok (.error r) s1 => .next (next s1 fun y => { y.count r with offset := x.length })
    | .ok (.ok (.error r, pos)) s1 => .next (next s1 fun y => { y.count r with offset := pos })
    | .ok (.ok (.ok bs, pos)) s1 =>
      .next (next s1 fun y => { y with offset := pos, passed := y.passed + 1, pending := y.pending ++ [recordOf x bs] })
    | .error (.fault c v) _ =>
      .next ((s.endSource p).report p c 7 0 none v)
    | .error .hold s1 => .next s1

/-- `SCRIBE_SOURCE_COMPLETE`: the last sample has entered the target; the arrival is a release at the source's
scope. -/
def execScribeSourceComplete (p : Nat) (s : State) : Host.Outcome State Fault Refusal :=
  let x := s.scribe p
  if !s.enginesRun p || x.state ≠ 1 || !x.decoded || !x.pending.isEmpty then .next s
  else
    let s1 := s.endSource p
    .next (if wbit x.control 6 then (s1.release (.engine p) x.scope).sendArrival p (wbits x.control 5 0) 7 0 else s1)

end Sys2Proof.Machine
end

