-- ==== Sys2Proof/Machine/Segment.lean ====
section
/-! DEFINITION. Named segments: the Gazetteer's directory, spills and reloads, and the `SEG` instructions
(R389-R405). -/

namespace Sys2Proof.Machine

def State.segment (s : State) (d : Nat) : Option Segment := s.segments.find d
def State.setSegment (s : State) (d : Nat) (g : Segment) : State := { s with segments := s.segments.put d g }
/-- The directory index of a name in an address space (R389). -/
def State.segmentNamed (s : State) (asid : BitVec 14) (name : Word) : Option (Nat × Segment) :=
  s.segments.find? fun e => e.2.asid = asid && e.2.name = name

/-- The scope of a segment (R390). -/
def Segment.scope (g : Segment) : Scope :=
  if g.place.slice then (match g.place.level with | 1 => .s | 2 => .q | _ => .v)
  else if g.place.j = 0 then .p else if g.place.j ≤ 2 then .s else if g.place.j ≤ 4 then .q
  else if g.place.j ≤ 6 then .v else .d

/-- Where a segment's bytes lie when it is placed at an origin: whether in a bank, the parcels, and the offsets. -/
def Segment.span (g : Segment) (origin : Nat) : Bool × (Nat × Nat) × (Nat × Nat) :=
  if g.place.slice then
    let a := segmentByte g origin 0
    (true, (0, 1), (a, a + g.place.size))
  else (false, (origin + g.place.r0, origin + g.place.r0 + 2 ^ g.place.j), (g.place.off, g.place.off + g.place.size))
def spansMeet (a b : Bool × (Nat × Nat) × (Nat × Nat)) : Bool :=
  a.1 = b.1 && a.2.1.1 < b.2.1.2 && b.2.1.1 < a.2.1.2 && a.2.2.1 < b.2.2.2 && b.2.2.1 < a.2.2.2

/-- Whether a segment can be placed in a region (R391). -/
def Segment.fits (g : Segment) (r : Region) : Bool :=
  g.place.r0 + segUnits g ≤ 2 ^ r.shape &&
  (!g.place.slice || g.place.off + g.place.size ≤ directWays r (g.place.level + 1) * wayBytes (g.place.level + 1))
/-- Whether a segment is resident in a region (R391). -/
def Segment.inside (g : Segment) (o : Nat) (r : Region) : Bool :=
  segResident g &&
  (if g.place.slice then
    let at_ := fun (b : Nat) => match placeOf (segmentByte g g.origin b) with
      | .bank level node off => heldWay o r level node off
      | _ => false
    at_ 0 && at_ (g.place.size - 1)
  else o ≤ g.firstParcel && g.firstParcel + 2 ^ g.place.j ≤ o + 2 ^ r.shape)

/-- The other resident segments whose bytes a placement would take. -/
def State.inTheWay (s : State) (d : Nat) (g : Segment) (origin : Nat) : List (Nat × Segment) :=
  s.segments.filter fun e => e.1 ≠ d && segResident e.2 && spansMeet (g.span origin) (e.2.span e.2.origin)

/-- An acquire or a release of every unit of a region (R394, R398). -/
def State.everyUnit (s : State) (o : Nat) (r : Region) (f : State → Writer → State) : State :=
  (regionParcels o r).foldl (fun t p =>
    (List.range 16).foldl (fun t m => f t (.cell p m)) (f (f t (.core p)) (.engine p))) s
def State.acquireAll (s : State) (o : Nat) (r : Region) (sc : Scope) : State := s.everyUnit o r fun t u => t.acquire u sc
def State.releaseAll (s : State) (o : Nat) (r : Region) (sc : Scope) : State := s.everyUnit o r fun t u => t.release u sc

/-- Make the arrivals of attaches or evicts that count one. -/
def State.segArrivals (s : State) (l : List PendingAttach) : State :=
  l.foldl (fun t x => if x.count then t.sendArrival x.parcel x.station 8 0 else t) s

/-- Attachments begin (R392, R394). -/
def State.attach (s : State) (d : Nat) (g : Segment) (o : Nat) (l : List PendingAttach) : State :=
  let new := g.holder ≠ some o || g.state ≠ .attached
  let g1 := { g with
    state := .attached, holder := some o, count := (if new then 0 else g.count) + l.length, target := none, waiting := [],
    asked := false, tornClear := if new then true else g.tornClear, needers := [] }
  let s1 := s.setSegment d g1
  match s.regions.find o with
  | some r => (s1.acquireAll o r g.scope).segArrivals l
  | none => s1

/-! ### Spill and reload (R392, R396, R405) -/

/-- A backing address, translated for the Gazetteer (R395, R405, R407). -/
def backingAt (g : Segment) (va : Word) (k : AccessKind) : Act Nat := do
  let s ← get
  let m ← settle (s.frontLookup (g.origin / 64) g.asid.toNat va k) va
  if placeOf m.pa = .hbm then pure m.pa else raise codePermission va

/-- The backing addresses of a segment's pages. -/
def backingPages (g : Segment) (k : AccessKind) : Act (List Nat) :=
  (List.range (g.bytes / 4096)).mapM fun i => backingAt g (g.backing + BitVec.ofNat 64 (4096 * i)) k

/-- A segment's pages as physical addresses at an origin. -/
def Segment.pages (g : Segment) (origin : Nat) : List Nat :=
  (List.range (g.bytes / 4096)).map fun i => segmentByte g origin (4096 * i)

/-- Copy pages, one write performed for each. -/
def State.copyPages (s : State) (src dst : List Nat) : State :=
  (src.zip dst).foldl (fun t e => t.homeWrite e.2 (t.homeRead e.1 4096)) s

/-- Requests that fail after their issue are reported to the cores that made them, if the kernel still runs (R402, R405). -/
def State.tellRequests (s : State) (l : List PendingAttach) (code : Byte) (va : Word) : State :=
  l.foldl (fun t x => if (t.regions.find x.origin).isSome then t.report x.parcel code 8 0 none va else t) s

/-- The segment's spill begins for a request of a list that has waited for it, the first of whose attaches sets where the
bytes go next (R392, R394). -/
def Segment.spillFor (g : Segment) (l : List PendingAttach) (place : Nat → Nat) : Segment :=
  let first := (l.find? fun x => !x.evict).map (·.origin)
  { g with state := .spilling, asked := true, waiting := l, holder := first, target := first.map place }

/-- The origin of the parcels that a kernel has: its own, or those held for it (R453). -/
def State.standsAt (s : State) (o : Nat) : Nat :=
  match s.regions.find o with
  | some r => if r.phase = .held then s.formerOf r else o
  | none => o

/-- Requests that joined a spill which failed are served in their order against the segment as it then stands: an attach
in whose region it is resident completes, the first that needs a spill starts one, and what the segment's state refuses is
reported (R394, R402, R405, log 53). -/
def State.serveWaiting (s : State) (d : Nat) : List PendingAttach → State
  | [] => s
  | x :: l =>
    match s.segment d with
    | none => s
    | some g =>
      let busy := (s.tellRequests [x] codeSegmentBusy g.name).serveWaiting d l
      if g.state = .attached then
        if !x.evict && g.holder = some x.origin then (s.attach d g x.origin [x]).serveWaiting d l else busy
      else match s.regions.find x.origin with
        | none => busy
        | some r =>
          if !x.evict && g.inside (s.standsAt x.origin) r then (s.attach d g x.origin [x]).serveWaiting d l
          else if g.pinned then busy
          else s.setSegment d (g.spillFor (x :: l) s.standsAt)

/-- A reload that waits for the bytes of a segment. -/
def Segment.waitsFor (g h : Segment) : Bool :=
  match g.state, g.target with
  | .reloading, some o => spansMeet (g.span o) (h.span h.origin)
  | _, _ => false

/-- A reload faults (R405): the segment is SPILLED again, and the waiting attaches fail. -/
def State.failReload (s : State) (d : Nat) (g : Segment) (code : Byte) (va : Word) : State :=
  ((s.setSegment d { g with state := .spilled, target := none, holder := none, waiting := [] }).log 5 code g.firstParcel g.asid
    va).tellRequests g.waiting code va

/-- A spill or reload faults (R405): the segment goes back; the request that started it gets the fault, a unit or a reload
that needed the bytes of a spill gets `SEGMENT_SPACE`, whatever becomes of the segment then, and requests that only joined a spill are served anew. -/
def State.failTransfer (s : State) (d : Nat) (g : Segment) (code : Byte) (va : Word) : State :=
  match g.state with
  | .spilling =>
    let first := if g.asked then g.waiting.take 1 else []
    let back : Segment := { g with
      state := .resident, target := none, holder := none, waiting := [], asked := false, needers := [],
      failed := g.failed ++ g.needers }
    let s1 := ((s.setSegment d back).log 5 code g.firstParcel g.asid va).tellRequests first code va
    let s2 := (s.segments.filter fun e => e.1 ≠ d && e.2.waitsFor g).foldl
      (fun t e => t.failReload e.1 e.2 codeSegmentSpace e.2.name) s1
    s2.serveWaiting d (g.waiting.drop first.length)
  | .reloading => s.failReload d g code va
  | _ => s

/-- A segment's bytes are at its backing: evicts get their arrivals, and the first attach that waits starts the reload, which
an attach of another kernel finds `SEGMENT_BUSY` (R392, R394, R402, log 53). -/
def State.finishSpill (s : State) (d : Nat) (g : Segment) (pas : List Nat) : State :=
  let mine := g.waiting.filter fun x => !x.evict && g.holder = some x.origin
  let others := g.waiting.filter fun x => !x.evict && g.holder ≠ some x.origin
  let g1 := { g with state := if g.target.isSome then .reloading else .spilled, waiting := mine, asked := false, needers := [] }
  ((((s.copyPages (g.pages g.origin) pas).setSegment d g1).segArrivals (g.waiting.filter (·.evict)))).tellRequests others
    codeSegmentBusy g.name

/-- `SPILL_COMPLETE`: the last byte is performed at the backing address (R392). -/
def execSpillComplete (seg : Nat) (s : State) : Host.Outcome State Fault Refusal :=
  match s.segment seg with
  | none => .next s
  | some g =>
    if g.state ≠ .spilling then .next s
    else match backingPages g .write s with
      | .ok pas s1 => .next (s1.finishSpill seg g pas)
      | .error (.fault c va) _ => .next (s.failTransfer seg g c va)
      | .error .hold s1 => .next s1

/-- `RELOAD_COMPLETE`: once no resident segment stands in the way, the bytes are placed in the target region and the
pending attaches complete; with none left the segment is RESIDENT (R394, R396, R399). -/
def execReloadComplete (seg : Nat) (s : State) : Host.Outcome State Fault Refusal :=
  match s.segment seg with
  | none => .next s
  | some g =>
    match g.state, g.target with
    | .reloading, some o =>
      let blocking := s.inTheWay seg g o
      if blocking.any fun e => e.2.state = .attached || (e.2.state = .resident && e.2.pinned) then
        .next (s.failTransfer seg g codeSegmentSpace g.name)
      else if blocking.any fun e => e.2.state = .spilling then .next s
      else match oldestOf blocking with
        | some (d, h) => .next (s.setSegment d { h with state := .spilling, asked := false })
        | none => match backingPages g .read s with
          | .ok pas s1 =>
            let g1 := { g with origin := o, target := none, waiting := [] }
            let s2 := s1.copyPages pas (g.pages o)
            .next (match g.waiting, g.holder with
              | w :: _, _ => s2.attach seg { g1 with state := .resident } w.origin g.waiting
              | [], _ => s2.setSegment seg { g1 with state := .resident, holder := none, count := 0 })
          | .error (.fault c va) _ => .next (s.failTransfer seg g c va)
          | .error .hold s1 => .next s1
    | _, _ => .next s

/-- `SEGMENT_TRANSFER_FAULT`: a media error at some backing byte of a running spill or reload. -/
def execSegmentTransferFault (seg : Nat) (code : Byte) (s : State) : Host.Outcome State Fault Refusal :=
  match s.segment seg with
  | none => .next s
  | some g =>
    .next (s.failTransfer seg g code (g.backing + BitVec.ofNat 64 ((Config.freeWord s.tick).toNat % max 1 g.bytes)))

/-! ### Instructions (R402-R404) -/

/-- The issuer's segment of a name, or `ATTACH_MISS`. -/
def namedSegment (a : Word) : Act (Nat × Segment) := do
  let s ← get
  let (_, r) ← myRegion
  match s.segmentNamed r.asid a with
  | some x => pure x
  | none => raise codeAttachMiss a

/-- `SEG.NAME` (R402, R403). -/
def execSegName (rd ra rb : Reg) (s : State) : Host.Outcome State Fault Refusal :=
  s.attempt (.segName rd ra rb) 8 do
    let a := s.reg ra
    let b := s.reg rb
    let p := s.here
    check (a ≠ 0) codeIllegal 0
    aligned b 32
    let (o, r) ← myRegion
    issueRelease .d
    let d ← withXa a (readVa (.core p) .d b 32)
    let w := field d 8 2
    let pl : SegmentPlace :=
      ⟨w % 2 = 1, bits w 2 1, bits w 6 3, bits w 15 7, field d 12 4, field d 16 4⟩
    let back := wordOf (slice d 0 8)
    let g : Segment :=
      { asid := r.asid, name := a, place := pl, backing := back, state := .attached, count := 1, version := 0,
        stamp := s.meridian, pinned := false, torn := false, tornClear := false, origin := o, holder := some o, target := none,
        waiting := [], asked := false, needers := [], failed := [] }
    check (wbits back 63 57 = 0 && field d 10 2 = 0 && field d 20 12 = 0 && pl.j ≤ 9 &&
      (if pl.slice then pl.level ≠ 0 && pl.j = 0 else pl.level = 0) && pl.r0 % segUnits g = 0 && pl.off % 4096 = 0 &&
      pl.size % 4096 = 0 && wbits back 11 0 = 0 && pl.size ≠ 0 && (pl.slice || pl.off + pl.size ≤ 0x60000)) codeIllegal 0
    let free := (List.range (s.segments.length + 1)).find? fun k => (s.segment k).isNone
    check (g.fits r && (s.inTheWay 65536 g o).isEmpty && s.segments.length < 65536) codeSegmentSpace a
    check (s.segmentNamed r.asid a).isNone codeSegmentBusy a
    match free with
    | none => raise codeSegmentSpace a
    | some k => do
      modify fun t => t.setSegment k g
      finish rd (viewAddress k)

/-- `SEG.ATT` (R394): it never waits; an attach that needs a spill or a reload is pending. -/
def execSegAtt (rd ra rb : Reg) (s : State) : Host.Outcome State Fault Refusal :=
  s.attempt (.segAtt rd ra rb) 8 do
    let a := s.reg ra
    let b := s.reg rb
    check (a ≠ 0 && wbits b 63 8 = 0) codeIllegal 0
    let (o, r) ← myRegion
    let (d, g) ← namedSegment a
    let me : PendingAttach := ⟨o, s.here, wbits b 5 0, wbit b 6, false⟩
    let inside := g.inside o r
    check (!(g.state = .attached && g.holder ≠ some o) && !(g.state = .resident && g.pinned && !inside) &&
      !(g.state = .reloading && g.holder ≠ some o)) codeSegmentBusy a
    check (g.count + (g.waiting.filter fun x => !x.evict).length < 1023) codeSegmentBusy a
    if g.state = .attached || (g.state = .resident && inside) then modify fun t => t.attach d g o [me]
    else if g.state = .reloading then modify fun t => t.setSegment d { g with waiting := g.waiting ++ [me] }
    else do
      check (!wbit b 7) codeAttachMiss a
      check (g.fits r && !((s.inTheWay d g o).any fun e => e.2.state = .attached || (e.2.state = .resident && e.2.pinned)))
        codeSegmentSpace a
      let first := g.holder.isNone && g.target.isNone
      modify fun t => t.setSegment d
        { g with target := if first then some o else g.target, holder := if first then some o else g.holder,
                 waiting := g.waiting ++ [me], asked := g.asked || g.state = .resident,
                 state := match g.state with
                   | .spilled => .reloading
                   | _ => .spilling }
    finish rd (viewAddress d)

/-- One attachment ends after a release (R392, R393, R397-R399). -/
def Segment.detach (g : Segment) (now : Word) : Segment :=
  { g with
    state := if g.count ≤ 1 then .resident else .attached, holder := if g.count ≤ 1 then none else g.holder,
    count := g.count - 1, version := g.version + 1, stamp := now, torn := g.torn && !g.tornClear, tornClear := g.tornClear && 1 < g.count }

/-- Whether a write that a cell of a region issued before a count of steps is still in its address port (R397). -/
def State.portWrites (s : State) (o : Nat) (r : Region) (stamp : Nat) : Bool :=
  (regionParcels o r).any fun n => (s.parcel n).cells.any fun e => e.2.port.any fun x => x.writes && x.stamp < stamp

/-- `SEG.DET` (R397, R398): the writes that cells of the region issued before it are performed first; then the release
completes, and with it the detach. -/
def execSegDet (ra : Reg) (s : State) : Host.Outcome State Fault Refusal :=
  s.attempt (.segDet ra) 8 do
    let a := s.reg ra
    check (a ≠ 0) codeIllegal 0
    let (o, r) ← myRegion
    let (d, g) ← namedSegment a
    check (g.state = .attached && g.holder = some o) codeAttachMiss a
    let since := (s.core s.here).since.getD s.tick
    if s.portWrites o r since then do
      modify fun t => t.onCore s.here fun c => { c with since := some since }
      throw .hold
    modify fun t => ((t.releaseAll o r g.scope).setSegment d (g.detach s.meridian)).onCore s.here fun c => { c with since := none }
    proceed

/-- `SEG.PIN` (R402). -/
def execSegPin (ra rb : Reg) (s : State) : Host.Outcome State Fault Refusal :=
  s.attempt (.segPin ra rb) 8 do
    let a := s.reg ra
    let b := s.reg rb
    check (a ≠ 0 && wbits b 63 1 = 0) codeIllegal 0
    let (o, _) ← myRegion
    let (d, g) ← namedSegment a
    check (g.state ≠ .attached || g.holder = some o) codeSegmentBusy a
    modify fun t => t.setSegment d { g with pinned := wbit b 0 }
    proceed

/-- `SEG.EVT` (R402). -/
def execSegEvt (ra rb : Reg) (s : State) : Host.Outcome State Fault Refusal :=
  s.attempt (.segEvt ra rb) 8 do
    let a := s.reg ra
    let b := s.reg rb
    check (a ≠ 0 && wbits b 63 7 = 0) codeIllegal 0
    let (o, _) ← myRegion
    let (d, g) ← namedSegment a
    check (g.state ≠ .attached && g.state ≠ .reloading && !g.pinned) codeSegmentBusy a
    let me : PendingAttach := ⟨o, s.here, wbits b 5 0, wbit b 6, true⟩
    if g.state = .spilled then modify fun t => t.segArrivals [me]
    else modify fun t => t.setSegment d { g with
      state := .spilling, asked := g.asked || g.state = .resident, waiting := g.waiting ++ [me] }
    proceed

/-- `SEG.DROP` (R402). -/
def execSegDrop (ra : Reg) (s : State) : Host.Outcome State Fault Refusal :=
  s.attempt (.segDrop ra) 8 do
    let a := s.reg ra
    check (a ≠ 0) codeIllegal 0
    let (o, _) ← myRegion
    let (d, g) ← namedSegment a
    check (g.state ≠ .reloading && (g.state ≠ .attached || (g.holder = some o && g.count = 1))) codeSegmentBusy a
    modify fun t => { t with segments := t.segments.drop d }
    proceed

/-- The code of a segment's state (R404). -/
def segCode : SegState → Nat
  | .resident => 1 | .attached => 2 | .spilling => 3 | .spilled => 4 | .reloading => 5
/-- The status word (R404) for a kernel. -/
def Segment.status (g : Segment) (o : Option Nat) : Word :=
  BitVec.ofNat 64 (g.version.toNat * 2 ^ 48 + (if segResident g then g.firstParcel else 0) * 2 ^ 39 +
    (if g.place.slice then 0 else g.place.j) * 2 ^ 35 + (if g.place.slice then g.place.level else 0) * 2 ^ 33 +
    (if g.pinned then 2 ^ 32 else 0) + (if g.torn then 2 ^ 31 else 0) + g.count * 2 ^ 21 + segCode g.state * 2 ^ 18 +
    (if g.state = .attached && g.holder = o && o.isSome then 1 else 0))

/-- `SEG.STAT` (R402, R404): an ABSENT name gives 0. -/
def execSegStat (rd ra : Reg) (s : State) : Host.Outcome State Fault Refusal :=
  s.attempt (.segStat rd ra) 8 do
    let a := s.reg ra
    check (a ≠ 0) codeIllegal 0
    let (o, r) ← myRegion
    finish rd (match s.segmentNamed r.asid a with
      | some (_, g) => g.status (some o)
      | none => 0)

end Sys2Proof.Machine
end

