-- ==== Sys2Proof/Machine/Sounding.lean ====
section
/-! DEFINITION. The Sounding engine: page sets, the compressed formats, transfers to and from the deep tier, and the `SND`
instructions (R426-R438). -/

namespace Sys2Proof.Machine

/-! ### Entries (R427) -/

def entryFormat (e : BitVec 128) : Nat := getF e 71 70
def entryElement (e : BitVec 128) : Nat := getF e 69 68
def entryKind (e : BitVec 128) : Nat := getF e 67 66
def entryPage (e : BitVec 128) : Word := BitVec.ofNat 64 (getF e 56 14 * 2 ^ 14)
def entryOffset (e : BitVec 128) : Nat := getF e 127 96
def entryLength (e : BitVec 128) : Nat := getF e 95 81
def entryRaw (e : BitVec 128) : Bool := e.getLsbD 80

/-- What an issue refuses in an entry (R436). -/
def entryOk (e : BitVec 128) : Bool :=
  getF e 79 72 = 0 && getF e 65 57 = 0 && getF e 13 0 = 0 && entryFormat e ≠ 3 &&
  (if entryFormat e = 2 then entryKind e = 0 else entryElement e ≠ 3 && (entryFormat e = 0 || entryKind e ≠ 3))

/-- Code width of CTX-A and CTX-B, the element's float format, and the block length (R429). -/
def entryWidth (e : BitVec 128) : Nat := if entryFormat e = 0 then 4 else 6
def entryFmt (e : BitVec 128) : FFmt := match entryElement e with | 0 => fmtF16 | 1 => fmtBf16 | _ => fmtF32

/-! ### CTX-A and CTX-B (R429) -/

/-- Compress a page of elements: its stored bytes, and the flags. -/
def ctxCompress (e : BitVec 128) (page : List Byte) : List Byte × FFlags :=
  let f := entryFmt e
  let w := entryWidth e
  let size := f.width / 8
  let n := 16384 / size
  let vs := (List.range n).map fun i => f.decode (field page (size * i) size)
  let blocks := (pieces (blockLength w) n vs).map fun b => quantize w (entryKind e) .rne 0 0 b
  let codes := blocks.flatMap fun q => q.codes
  let v := codes.zipIdx.foldl (fun a c => a + c.1 * 2 ^ (w * c.2)) 0
  (Decode.leBytes (n * w / 8) v ++ blocks.map fun q => BitVec.ofNat 8 q.scale, blocks.foldl (fun a q => a ||| q.flags) 0)

/-- Decompress a page, where the stored bytes are enough. -/
def ctxExpand (e : BitVec 128) (stored : List Byte) : Option (List Byte × FFlags) :=
  let f := entryFmt e
  let w := entryWidth e
  let size := f.width / 8
  let n := 16384 / size
  let blocks := ceilDiv n (blockLength w)
  if stored.length < n * w / 8 + blocks then none
  else
    let v := Decode.leNat (stored.take (n * w / 8))
    let out := (List.range n).map fun i =>
      let sc := field stored (n * w / 8 + i / blockLength w) 1
      let x := blockValue w 0 sc (v / 2 ^ (w * i) % 2 ^ w)
      let r := f.write .rne false true 0 (match x.1 with
        | .nan _ => .nan 0
        | .inf g => .inf g 0
        | .fin g m k => .val ⟨g, m, k, false⟩)
      (r.code, r.flags ||| (if x.2 then flagInvalid else 0))
    some (out.flatMap fun r => Decode.leBytes size r.1, out.foldl (fun a r => a ||| r.2) 0)

/-! ### CTX-L (R430) -/

/-- Byte plane `b` of a page whose elements have `w` bytes. -/
def bytePlane (page : List Byte) (w b : Nat) : List Byte := (List.range (16384 / w)).map fun i => page.getD (w * i + b) 0

/-- The tokens of a plane. -/
def planeTokens : Nat → List Byte → List Byte
  | 0, _ => []
  | _, [] => []
  | n + 1, x :: xs =>
    let run := if x = 0 then (x :: xs).takeWhile (· = 0) else (x :: xs).takeWhile (· ≠ 0)
    let k := min 128 run.length
    if x = 0 then BitVec.ofNat 8 (k - 1) :: planeTokens n ((x :: xs).drop k)
    else BitVec.ofNat 8 (0x7F + k) :: ((x :: xs).take k ++ planeTokens n ((x :: xs).drop k))

/-- Code a page: its stored bytes, and whether it is stored raw. -/
def losslessCode (w : Nat) (page : List Byte) : List Byte × Bool :=
  let coded := (List.range w).flatMap fun b => planeTokens 16384 (bytePlane page w b)
  if 16384 ≤ coded.length then (page, true) else (coded, false)

/-- Read a plane of `size` bytes from tokens; none where a token overruns the plane or the bytes. -/
def readPlane : Nat → Nat → List Byte → List Byte → Option (List Byte × List Byte)
  | _, 0, bs, out => some (out, bs)
  | 0, _, _, _ => none
  | _, _, [], _ => none
  | n + 1, size, t :: bs, out =>
    let v := t.toNat
    let k := if v < 128 then v + 1 else v - 0x7F
    if size < k || (128 ≤ v && bs.length < k) then none
    else if v < 128 then readPlane n (size - k) bs (out ++ List.replicate k 0)
    else readPlane n (size - k) (bs.drop k) (out ++ bs.take k)

/-- Read `k` planes one after another. -/
def readPlanes (size : Nat) : Nat → List Byte → Option (List (List Byte))
  | 0, _ => some []
  | k + 1, bs => do
    let (p, rest) ← readPlane size size bs []
    let ps ← readPlanes size k rest
    pure (p :: ps)

/-- Decode a page. -/
def losslessExpand (w : Nat) (stored : List Byte) : Option (List Byte) :=
  (readPlanes (16384 / w) w stored).map fun ps =>
    (List.range 16384).map fun i => (ps.getD (i % w) []).getD (i / w) 0

/-- Compress a page under its entry: stored bytes, raw, flags. -/
def compressPage (e : BitVec 128) (page : List Byte) : List Byte × Bool × FFlags :=
  if entryFormat e = 2 then
    let (bs, raw) := losslessCode (2 ^ entryElement e) page
    (bs, raw, 0)
  else
    let (bs, fl) := ctxCompress e page
    (bs, false, fl)

/-- Decompress a stored page under its entry. -/
def expandPage (e : BitVec 128) (stored : List Byte) : Option (List Byte × FFlags) :=
  if entryRaw e then (if stored.length = 16384 then some (stored, 0) else none)
  else if entryFormat e = 2 then (losslessExpand (2 ^ entryElement e) stored).map fun p => (p, 0)
  else ctxExpand e stored

/-! ### Page sets (R428) -/

def PageSet.reset : PageSet := ⟨0, 0, 0, 0, 0, 0, 0, [], 0, 0, 0, 0, 0, false, false, [], 0, none⟩
def State.pageSet (s : State) (n : Nat) : PageSet := s.sets.look PageSet.reset n
def State.onSet (s : State) (n : Nat) (f : PageSet → PageSet) : State := { s with sets := s.sets.alter PageSet.reset n f }
/-- A transfer of the set runs. -/
def PageSet.busy (x : PageSet) : Bool := x.state = 2 || x.state = 4

/-- Whether an extent lies in the deep tier and in an address space's deep grant (R426, R436). -/
def State.granted (s : State) (asid : BitVec 14) (first pages : Nat) : Bool :=
  let g := s.grants.look (0, 0) asid.toNat
  g.1.toNat ≤ first && first + pages ≤ g.1.toNat + g.2.toNat && first + pages ≤ 2 ^ 29

/-- `SND.SET` (R434-R436). -/
def execSndSet (ra rb : Reg) (s : State) : Host.Outcome State Fault Refusal :=
  s.attempt (.sndSet ra rb) 10 do
    let a := s.reg ra
    let b := s.reg rb
    let n := wbits a 11 0
    check (wbits a 63 13 = 0 && (wbit a 12 || b = 0)) codeIllegal 0
    let (_, r) ← myRegion
    let x := s.pageSet n
    issueRelease .d
    if wbit a 12 then do
      check (b.toNat % 32 = 0) codeMisaligned a
      let d ← withXa a (readVa (.core s.here) .d b 32)
      let table := wordOf (slice d 0 8)
      let first := field d 12 4
      let pages := field d 16 4
      check (field d 8 4 < 65536 && 1 ≤ pages && pages ≤ 2 ^ 29 && field d 20 12 = 0) codeIllegal 0
      check (table.toNat % 16 = 0) codeMisaligned a
      check (s.granted r.asid first pages) codePermission a
      check (x.state = 0 && !(s.sets.any fun (e : Nat × PageSet) =>
        e.2.state ≠ 0 && first < e.2.first + e.2.pages && e.2.first < first + pages)) codeBufferState a
      modify fun t => t.onSet n fun _ =>
        { PageSet.reset with state := 1, asid := r.asid, table := table, count := field d 8 4 + 1, first := first, pages := pages }
    else do
      check (x.state = 0 || (x.asid = r.asid && !x.busy)) codeBufferState a
      modify fun t => { t with sets := t.sets.drop n }
    proceed

/-- Issue of a transfer (R431, R432, R436). -/
def State.issueTransfer (s : State) (i : Instr) (out : Bool) (rd ra : Reg) : Host.Outcome State Fault Refusal :=
  s.attempt i 10 do
    let a := s.reg ra
    let n := wbits a 11 0
    check (wbits a 63 19 = 0) codeIllegal 0
    let (_, r) ← myRegion
    let x := s.pageSet n
    check (x.state ≠ 0 && x.asid = r.asid && !x.busy && (out || x.state ≠ 1)) codeBufferState a
    check (s.granted r.asid x.first x.pages) codePermission a
    issueRelease .d
    let bs ← withXa a (readSpan (.core s.here) .d (spanFuel (16 * x.count)) x.table (16 * x.count))
    let es := (List.range x.count).map fun k => BitVec.ofNat 128 (field bs (16 * k) 16)
    check (es.all entryOk) codeIllegal 0
    modify fun t => t.onSet n fun y =>
      { y with
        state := if out then 2 else 4, identity := r.identity, entries := es, used := if out then 0 else y.used, code := 0, flags := 0, parcel := s.here,
        station := wbits a 17 12, counted := wbit a 18, told := true, landed := [], offset := 0, failed := none }
    finish rd s.newPromise

/-- `SND.OUT` (R434). -/
def execSndOut (rd ra : Reg) (s : State) : Host.Outcome State Fault Refusal := s.issueTransfer (.sndOut rd ra) true rd ra
/-- `SND.IN` (R434). -/
def execSndIn (rd ra : Reg) (s : State) : Host.Outcome State Fault Refusal := s.issueTransfer (.sndIn rd ra) false rd ra

/-- The status word (R437). -/
def PageSet.status (x : PageSet) : Word :=
  BitVec.ofNat 64 (x.landed.length * 2 ^ 47 + x.used * 2 ^ 16 + x.code.toNat * 2 ^ 8 + x.flags.toNat * 8 + x.state.toNat)

/-- `SND.STAT` (R434, R437). -/
def execSndStat (rd ra : Reg) (s : State) : Host.Outcome State Fault Refusal :=
  s.attempt (.sndStat rd ra) 10 do
    let a := s.reg ra
    check (wbits a 63 12 = 0) codeIllegal 0
    let (_, r) ← myRegion
    let x := s.pageSet (wbits a 11 0)
    check (x.state = 0 || x.asid = r.asid) codeBufferState a
    finish rd x.status

/-! ### Transfers (R431-R433) -/

/-- The physical address of 4 KiB of a page or of table bytes, in the set's address space: through the issuing kernel's
partition while the kernel runs (R414, R427, R433). -/
def setAddress (x : PageSet) (va : Word) (k : AccessKind) : Act Nat := do
  let s ← get
  let v := x.parcel % 512 / 64
  let m ← match (if x.told then s.regionOf x.parcel else none) with
    | some (o, _) =>
      if wbits va 63 57 ≠ 0 then raise codeAbsent va
      else if va.getLsbD 56 then (match s.viewLookup o x.asid va.toNat k with
        | .bad c => raise c va
        | _ => raise codePermission va)
      else settle (s.lookup (.engine x.parcel) o v x.asid.toNat va.toNat k (some x.identity)) va
    | none => settle (s.bareLookup .cartouche v x.asid.toNat va k (some x.identity)) va
  if placeOf m.pa = .hbm then pure m.pa else raise codePermission va

/-- The four 4 KiB pieces of an HBM page. -/
def pagePieces (x : PageSet) (e : BitVec 128) (k : AccessKind) : Act (List Nat) :=
  (List.range 4).mapM fun i => setAddress x (entryPage e + BitVec.ofNat 64 (4096 * i)) k

/-- Where a set's stored bytes stand in the deep tier. -/
def PageSet.deepAddress (x : PageSet) (off : Nat) : Nat := x.first * 16384 + 64 * off

/-- A transfer ends with a fault, and the issuing core is told (R433). -/
def State.failSet (s : State) (n : Nat) (x : PageSet) (code : Byte) (word1 : Word) : State :=
  ((s.onSet n fun y => { y with state := if y.state = 2 then 1 else 3, code := code }).log 1 code x.parcel x.asid word1).post
    x.parcel 127 true (BitVec.ofNat 64 (code.toNat + 10 * 2 ^ 8 + n * 2 ^ 14)) word1

/-- The arrival of a transfer. -/
def State.setArrival (s : State) (x : PageSet) : State :=
  if x.counted then s.sendArrival x.parcel x.station 10 0 else s

/-- An entry with the bits that `SND.OUT` writes: deep offset, stored length and raw (R427). -/
def storedEntry (e : BitVec 128) (offset length : Nat) (raw : Bool) : BitVec 128 :=
  setF e 127 80 (offset % 2 ^ 32 * 2 ^ 16 + length * 2 + (if raw then 1 else 0))

/-- Compress entry `k` of a set and write its stored bytes (R431). -/
def storePage (n : Nat) (x : PageSet) (k : Nat) : Act Unit := do
  let e := x.entries.getD k 0
  let pas ← pagePieces x e .read
  let s ← get
  let (bs, raw, fl) := compressPage e (pas.flatMap fun pa => s.homeRead pa 4096)
  check (64 * x.offset + bs.length ≤ 16384 * x.pages) codeSegmentSpace (BitVec.ofNat 64 k)
  modify fun s =>
    let s1 := s.onSet n fun y =>
      { y with landed := y.landed ++ [k], offset := y.offset + ceilDiv bs.length 64, flags := y.flags ||| fl,
               used := ceilDiv (64 * y.offset + bs.length) 16384,
               entries := y.entries.set k (storedEntry e x.offset bs.length raw) }
    { s1 with deep := s1.deep.write (x.deepAddress x.offset) bs }

/-- With every page stored, bits 127:80 of each entry are written into the table (R431). -/
def storeTable (x : PageSet) : Act Unit :=
  x.entries.zipIdx.forM fun e => do
    let pa ← setAddress x (x.table + BitVec.ofNat 64 (16 * e.2)) .write
    modify fun s => s.homeWrite (pa + 10) (Decode.leBytes 6 (getF e.1 127 80))

/-- `SOUNDING_OUT_COMPLETE`: the engine stores the next page of a set; after the last it writes the table, the set is STORED
and its arrival is made (R428, R431). -/
def execSoundingOutComplete (n : Nat) (s : State) : Host.Outcome State Fault Refusal :=
  let x := s.pageSet n
  let k := x.landed.length
  if x.state ≠ 2 then .next s
  else match (if x.count ≤ k then storeTable x else storePage n x k) s with
    | .ok _ s1 => .next (if x.count ≤ k then (s1.onSet n fun y => { y with state := 3 }).setArrival x else s1)
    | .error (.fault c v) s1 => .next ((if x.count ≤ k then s1 else s).failSet n x c v)
    | .error .hold s1 => .next s1

/-- A stored page that can't be read: the transfer goes on with the other entries (R433). -/
def State.failPage (s : State) (n k : Nat) : State :=
  s.onSet n fun y => { y with landed := y.landed ++ [k], failed := some (match y.failed with | some f => min f k | none => k) }

/-- `SOUNDING_PAGE_LAND`: a page of a set is decompressed and performed in HBM, pages in any order (R432). -/
def execSoundingPageLand (n k : Nat) (s : State) : Host.Outcome State Fault Refusal :=
  let x := s.pageSet n
  if x.state ≠ 4 || x.count ≤ k || k ∈ x.landed then .next s
  else
    let e := x.entries.getD k 0
    let len := entryLength e
    if 16384 * x.pages < 64 * entryOffset e + len then .next (s.failPage n k)
    else match expandPage e (s.deep.bytes (x.deepAddress (entryOffset e)) len) with
      | none => .next (s.failPage n k)
      | some (page, fl) =>
        match pagePieces x e .write s with
        | .ok pas s1 =>
          let s2 := (pas.zipIdx).foldl (fun t p => t.homeWrite p.1 (slice page (4096 * p.2) 4096)) s1
          .next (s2.onSet n fun y => { y with landed := y.landed ++ [k], flags := y.flags ||| fl })
        | .error (.fault c v) _ => .next (s.failSet n x c v)
        | .error .hold s1 => .next s1

/-- `SOUNDING_IN_COMPLETE`: the last page has landed: the set is LOADED, its arrival is made, and the launches that wait on
it become ready; after a failed page it is STORED and the core is told (R428, R432, R433). -/
def execSoundingInComplete (n : Nat) (s : State) : Host.Outcome State Fault Refusal :=
  let x := s.pageSet n
  if x.state ≠ 4 || x.landed.length < x.count then .next s
  else match x.failed with
    | some k => .next (s.failSet n x codeDeepMedia (BitVec.ofNat 64 k))
    | none =>
      let s1 := (s.onSet n fun y => { y with state := 5 }).setArrival x
      .next (s1.pollLaunches 3 fun w => wbits w 11 0 = n)

/-- `SOUNDING_FAULT`: a fault of a transfer; a media error of a page that comes in lets the other entries go on (R433). -/
def execSoundingFault (n : Nat) (code : Byte) (word1 : Word) (s : State) : Host.Outcome State Fault Refusal :=
  let x := s.pageSet n
  if !x.busy then .next s
  else if x.state = 4 && code = codeDeepMedia then
    let k := word1.toNat
    .next (if x.count ≤ k || k ∈ x.landed then s else s.failPage n k)
  else .next (s.failSet n x code word1)

end Sys2Proof.Machine
end

