-- ==== Sys2Proof/Machine/Preempt.lean ====
section
/-! DEFINITION. Pre-emption: the stop of a region, the drain, the save, and the restore (R400, R453-R455).
A saved kernel keeps its state in the model's own tables, moved from its parcels' numbers to numbers no parcel has
(`heldKey`), so that signals reach it there (R162). -/

namespace Sys2Proof.Machine

/-! ### Moving a kernel between parcel numbers -/

/-- The table with every key and value carried over by a function. -/
def Table.rekey {α β : Type} (t : Table α) (f : Nat → α → Nat × β) : Table β :=
  t.foldl (fun (u : Table β) (e : Nat × α) => u.put (f e.1 e.2).1 (f e.1 e.2).2) []

/-- The parcel numbers `o … o+n-1` carried to `o'`. -/
def shiftParcel (o n o' p : Nat) : Nat := if o ≤ p && p < o + n then p - o + o' else p

/-- The addresses of those parcels' windows carried along. -/
def shiftAddress (o n o' a : Nat) : Nat :=
  if windowBase + o * 0x400000 ≤ a && a < windowBase + (o + n) * 0x400000 then a - o * 0x400000 + o' * 0x400000 else a

def moveWriter (f : Nat → Nat) : Writer → Writer
  | .core p => .core (f p)
  | .cell p m => .cell (f p) m
  | .engine p => .engine (f p)
  | u => u
def Signal.moved (f : Nat → Nat) : Signal → Signal
  | .arrive p n x => .arrive (f p) n (f x.1, x.2)
  | .bytes p n k x => .bytes (f p) n k (f x.1, x.2)
  | .write p runs src ph x => .write (f p) runs (f src) ph (f x.1, x.2)
  | .marker p n src ph k => .marker (f p) n (f src) ph k
def HostRequest.moved (f : Nat → Nat) : HostRequest → HostRequest
  | .coreLoad p rd n s va a => .coreLoad (f p) rd n s va a
  | .coreAmo p rd n s va a op x c => .coreAmo (f p) rd n s va a op x c
  | .cellEntry p m a => .cellEntry (f p) m a
  | .endAsk p rd op h w => .endAsk (f p) rd op h w
  | .endDone p rd op h w c v => .endDone (f p) rd op h w c v
def PendingAttach.moved (f : Nat → Nat) (x : PendingAttach) : PendingAttach :=
  { x with origin := f x.origin, parcel := f x.parcel }
def Exchange.moved (f : Nat → Nat) (e : Exchange) : Exchange :=
  { e with
    sent := e.sent.rekey fun k v => (f (k / 4) * 4 + k % 4, v)
    counts := e.counts.rekey fun k v => (f (k / 4) * 4 + k % 4, v)
    markers := e.markers.map fun m => (f m.1, m.2)
    parked := e.parked.map fun m => (f m.1, m.2) }
/-- A join slot's tables stand at the same offset of its region's ways, in the sheet bank of the query's new sheet: `ways` are
the first ways of the region's share before and after (R385, R486). -/
def Operator.moved (f : Nat → Nat) (ways : Nat × Nat) (opener : Nat) (x : Operator) : Operator :=
  let off := x.area - sheetAddress opener 0
  { x with parcel := f x.parcel, matchParcel := f x.matchParcel,
           area := if x.join then sheetAddress (f opener) (off + ways.2 * wayBytes 2 - ways.1 * wayBytes 2) else x.area }
def Query.moved (f : Nat → Nat) (ways : Nat × Nat) (q : Query) : Query :=
  { q with opener := f q.opener, inParcel := f q.inParcel, outParcel := f q.outParcel,
           slots := q.slots.each fun _ x => x.moved f ways q.opener,
           closing := q.closing.map fun c => (f c.1, c.2) }
def Segment.moved (f : Nat → Nat) (g : Segment) : Segment :=
  { g with holder := g.holder.map f, waiting := g.waiting.map (·.moved f), needers := g.needers.map (moveWriter f),
           failed := g.failed.map (moveWriter f) }

/-- What a parcel keeps when its kernel is carried away: its stations, gate and end records (R162, R300). -/
def Parcel.left (x : Parcel) : Parcel :=
  { Parcel.reset with stations := x.stations, inits := x.inits, gated := x.gated, endCount := x.endCount, ends := x.ends }

/-- A request of a kernel that moves: `TRV.XST` names its receiver (R163). -/
def TravSlot.moved (f : Nat → Nat) (t : TravSlot) : TravSlot :=
  let key := field t.desc 8 8
  if t.kind ≠ .xst then t else { t with desc := patch t.desc 8 (Decode.leBytes 8 (f (key / 4) * 4 + key % 4)) }
/-- A parcel's kernel state carried to a parcel whose own part stays. -/
def Parcel.carried (x y : Parcel) (f : Nat → Nat) : Parcel :=
  { x with exch := x.exch.moved f, travs := x.travs.each fun _ t => t.moved f, gated := y.gated, endCount := y.endCount, ends := y.ends }

/-- Parcels of a kernel carried from `o` to `o'`. -/
def State.moveParcels (s : State) (o n o' : Nat) : State :=
  let f := shiftParcel o n o'
  (List.range n).foldl (fun (t : State) i =>
    let x := s.parcel (o + i)
    let t1 := t.onParcel (o' + i) fun y => x.carried y f
    if o < 512 then t1.onParcel (o + i) Parcel.left else { t1 with parcels := t1.parcels.drop (o + i) }) s

/-- The Compasses with every query and returned word at its parcel's sheet. -/
def moveCompasses (f : Nat → Nat) (ways : Nat × Nat) (l : Table Compass) : Table Compass :=
  l.foldl (fun (t : Table Compass) (e : Nat × Compass) =>
    let t1 := match e.2.query with
      | some q =>
        let sheet := if f q.opener = q.opener then e.1 else f q.opener / 4
        t.alter Compass.reset sheet fun c => { c with query := some (if f q.opener = q.opener then q else q.moved f ways) }
      | none => t
    e.2.returns.foldl (fun (t : Table Compass) w =>
      let sheet := if f w.1 = w.1 then e.1 else f w.1 / 4
      t.alter Compass.reset sheet fun c => { c with returns := c.returns ++ [(f w.1, w.2)] }) t1) []

/-- The first ways of a region's share of its sheet bank, where it stands or stood and where it goes (R486). -/
def State.shareMove (s : State) (o n o' : Nat) : Nat × Nat :=
  let old := s.standsAt o
  ((bankShare 2 old (Nat.log2 n)).1, (bankShare 2 (if o' < 512 then o' else old) (Nat.log2 n)).1)

/-- Everything that names a kernel's parcels, carried from `o` to `o'`. A transfer or an invalidate of an earlier kernel of the
parcels is not this kernel's (R438). -/
def State.moveKernel (s : State) (o n o' : Nat) : State :=
  let f := shiftParcel o n o'
  let g := shiftAddress o n o'
  let here := fun (l : EndLoc) => if l.device = s.link.number then { l with parcel := f l.parcel } else l
  let rec_ := fun (r : EndRec) => { r with loc := r.loc.map here }
  let s1 := s.moveParcels o n o'
  { s1 with
    regions := s1.regions.rekey fun k r => (f k, r)
    parcels := s1.parcels.each fun _ x => { x with ends := x.ends.each fun _ e =>
      { e with prod := rec_ e.prod, cons := rec_ e.cons, moves := e.moves.map fun m => { m with old := here m.old } } }
    overlays := s1.overlays.map fun v =>
      { v with parcel := f v.parcel, bytes := v.bytes.rekey fun a b => (g a, b),
               vas := v.vas.rekey fun k a => (g (32 * k) / 32, a) }
    reds := s1.reds.map fun d => { d with pa := g d.pa, held := d.held.map fun v => { v with pa := g v.pa, parcel := f v.parcel } }
    signals := s1.signals.map (·.moved f)
    tests := s1.tests.map fun v => (f v.1, v.2)
    publishes := s1.publishes.map fun v => { v with parcel := f v.parcel }
    flight := s1.flight.map fun v => { v with dest := f v.dest }
    compasses := moveCompasses f (s.shareMove o n o') s1.compasses
    segments := s1.segments.each fun _ x => x.moved f
    sets := s1.sets.each fun _ x => if x.told then { x with parcel := f x.parcel } else x
    invalidates := s1.invalidates.map fun v => if v.told then { v with parcel := f v.parcel } else v
    host := { s1.host with
      doorbells := s1.host.doorbells.rekey fun k v => (f (k / 64) * 64 + k % 64, v)
      requests := s1.host.requests.each fun _ q => q.moved f } }

/-- Whether a resident segment covers an address. -/
def State.covered (s : State) (a : Nat) : Bool := s.segments.any fun e => segCovers e.2 a

/-- Bytes of the windows of parcels that no resident segment covers (R454). -/
def State.windowCell (s : State) (o n : Nat) (c : Host.Cell) : Bool :=
  windowBase + o * 0x400000 ≤ c.1 && c.1 < windowBase + (o + n) * 0x400000 && !s.covered c.1

/-- Where the join tables of a kernel's queries stand: address and size (R379, R385). -/
def State.joinTables (s : State) (o n : Nat) : List (Nat × Nat) :=
  s.compasses.flatMap fun (e : Nat × Compass) => match e.2.query with
    | some q => if o ≤ q.opener && q.opener < o + n
        then q.slots.filterMap fun (x : Nat × Operator) => if x.2.join then some (x.2.area, x.2.size) else none
        else []
    | none => []

/-- Copy a kernel's window bytes and join tables from `o` to `o'`, but for what a resident segment covers there; the copy of
a held kernel is used up (R385, R400, R454). -/
def State.moveBytes (s : State) (o n o' : Nat) : State :=
  let f := shiftParcel o n o'
  let from_ := s.joinTables o n
  let to_ := ({ s with compasses := moveCompasses f (s.shareMove o n o') s.compasses } : State).joinTables o' n
  let inside := fun (l : List (Nat × Nat)) (a : Nat) => l.any fun t => t.1 ≤ a && a < t.1 + t.2
  let gone := fun (c : Host.Cell) => s.windowCell o n c || inside from_ c.1
  let rest := s.mem.filter fun c =>
    !(s.windowCell o' n c || (inside to_ c.1 && !s.covered c.1)) && (o < 512 || !gone c)
  let place := fun (a : Nat) => match (from_.zip to_).find? fun t => t.1.1 ≤ a && a < t.1.1 + t.1.2 with
    | some t => a - t.1.1 + t.2.1
    | none => shiftAddress o n o' a
  { s with mem := (s.mem.filter gone).foldl (fun (m : Memory) c =>
      if s.covered (place c.1) then m else m.set (place c.1) c.2) rest }

/-! ### The stop (R453) -/

/-- The inbound slots that a pre-emption halts: queued, or running with no stop under way. -/
def State.stoppable (s : State) (o : Nat) (r : Region) : List (Nat × Nat) :=
  (regionParcels o r).flatMap fun p => (s.parcel p).streams.filterMap fun (e : Nat × Stream) =>
    if e.2.busy && !e.2.outbound && e.2.reason = 0 then some (p - o, e.1) else none

/-- The cells of a region that stand halted, and the stopped queries as cell 16 of their opener. -/
def State.haltedCells (s : State) (o : Nat) (r : Region) : List (Nat × Nat) :=
  let mine := regionParcels o r
  (mine.flatMap fun p => (s.parcel p).cells.filterMap fun (e : Nat × Cell) =>
    if e.2.mode = .halted then some (p - o, e.1) else none) ++
  s.compasses.filterMap fun (e : Nat × Compass) => match e.2.query with
    | some q => if q.stopped && q.opener ∈ mine then some (q.opener - o, 16) else none
    | none => none

/-- Whether a region is at a quiescent point: a generator stands stopped by a reported fault, nothing has moved for 64
f-cycles, and every memory request of its cells is delivered or has faulted (R415). -/
def State.quiescent (s : State) (o : Nat) (r : Region) : Bool :=
  let mine := regionParcels o r
  s.generatorStopped mine && 64 ≤ r.calm &&
  mine.all fun p => (s.parcel p).cells.all fun (e : Nat × Cell) => e.2.port.isEmpty || (e.2.faulted && e.2.lateFault)

/-- Begin to pre-empt a region: stop packets and stream stops, which the scheduler may leave out at a quiescent point
(R415, R453). -/
def State.preempt (s : State) (o : Nat) : State :=
  match s.regions.find o with
  | none => s
  | some r =>
    let plain := s.quiescent o r && Config.skipsStops s.tick
    let halted := if plain then [] else s.stoppable o r
    let idle := s.haltedCells o r
    let s1 := (regionParcels o r).foldl (fun (t : State) p =>
      if ((t.core p).channel 126).bound then t.post p 126 false 0 0 else t) s
    let s2 := halted.foldl (fun (t : State) e => t.stopStream (o + e.1) e.2) s1
    s2.onRegion o fun r =>
      { r with phase := .preempting, calm := if plain then r.calm else 0, halted := halted, idle := idle, unstopped := plain }

/-! ### The drain and the save (R453, R454) -/

/-- A request that need not be waited for: one of which only its follow-on or nothing is left, a feed halted at a tile, one
held at a migrating page, and one that such an earlier request holds back (R421, R453). -/
def State.travQuiet (s : State) (p slot : Nat) (t : TravSlot) : Bool :=
  t.done || (t.stopped && !s.takenTrav p slot) ||
  (t.pos < t.total && !s.tilesOf p slot && !s.signalsOf p slot t &&
    ((t.kind = .feed && s.feedHalted p t) || s.heldBack p slot t ||
      (match travStep p slot t s with
       | .error .hold s1 => s1.heldWalks.any fun h => h.1 = .engine p
       | _ => false)))

/-- Whether a cell's port holds nothing but what the save area keeps: a held `LDV`, the current node of a walk or a request
held at a migrating page, and what waits behind it (R260, R421). -/
def State.portSaved (s : State) (p m : Nat) : Bool :=
  match (s.cell p m).port with
  | [] => true
  | e :: _ => e.hostTag.isNone && (e.isWalk || (match performEntry p m e s with
    | .error .hold s1 => e.isLdv || s1.heldWalks.any fun h => h.1 = .cell p m
    | _ => false))

/-- Whether a parcel has drained. -/
def State.parcelDrained (s : State) (p : Nat) (unstopped : Bool) : Bool :=
  let x := s.parcel p
  !x.core.running && (x.core.quiet || x.core.stopped || !(x.core.channel 126).bound) && x.core.outbound.isEmpty &&
  (x.streams.all fun (e : Nat × Stream) => e.2.outbound || !e.2.busy || unstopped) &&
  (x.travs.all fun (e : Nat × TravSlot) => s.travQuiet p e.1 e.2) &&
  x.gr.drains.isEmpty && x.gr.running.elim true GrRun.interruptible &&
  (x.cells.all fun (e : Nat × Cell) => s.portSaved p e.1 && e.2.widening.isNone && e.2.mode ≠ .frozen)

/-- Whether every record inside a region's queries is away or waits on a full entry queue (R385). -/
def State.recordsSent (s : State) (mine : List Nat) : Bool :=
  s.compasses.all fun (e : Nat × Compass) => match e.2.query with
    | some q => q.opener ∉ mine || q.halted || q.records.all fun r =>
        !r.waits || (match r.away.bind fun i => q.slots.find i with
          | some x => !(s.cell x.parcel x.cell).accepts x.queue r.word
          | none => true)
    | none => true

/-- Whether a message still goes to or comes from a parcel of a region. -/
def State.underWay (s : State) (mine : List Nat) : Bool :=
  (s.tiles.any fun v => v.parcel ∈ mine) ||
  (s.signals.any fun v => match v with
    | .write p _ _ _ _ => p ∈ mine
    | .marker p _ _ _ _ => p ∈ mine
    | _ => false) ||
  (s.flight.any fun k => k.source ∈ mine && !k.frontEnd && k.device.toNat = s.link.number) ||
  (s.lateKicks.any fun k => k.parcel ∈ mine) ||
  s.host.requests.any fun e => e.2.parcel ∈ mine

/-- The pages of the save area's head: its words, of which the Cartouche's record of the launch is its own, then the
channel-occupancy map (R454, log 48). -/
def State.saveHead (s : State) (o : Nat) (r : Region) : List (List Byte) :=
  let words := [0x53415645, r.shape, o, r.image, s.meridian.toNat, (Config.freeWord s.tick).toNat]
  let head := words.flatMap fun w => Decode.leBytes 8 w
  let map := s.mapBytes o 0 (2 ^ r.shape)
  [head ++ List.replicate (4096 - head.length) 0] ++
    (List.range 16).map fun i => (map.drop (4096 * i)).take 4096 ++ List.replicate (4096 - min 4096 (map.length - 4096 * i)) 0

/-- A page of a parcel's slot of the save area: what stands where in it the manual does not say (R454, log 48). -/
def State.imagePage (s : State) (i : Nat) : List Byte := (List.range 4096).map fun b => Config.imageByte s.tick (4096 * i + b)

/-- Write the save area, which lies in HBM: its head, then every parcel's slot (R453, R454). -/
def writeSave (o : Nat) (r : Region) (head : List (List Byte)) : Act Unit := do
  head.zipIdx.forM fun e => do
    let a := r.save + BitVec.ofNat 64 (4096 * e.2)
    let m ← translate (.engine o) a .write
    check (placeOf m.pa = .hbm) codePermission a
    writeAt (.engine o) .engine .d m e.1 a
  let s ← get
  (List.range (384 * 2 ^ r.shape)).forM fun i => do
    let a := r.save + BitVec.ofNat 64 (0x11000 + 4096 * i)
    let m ← translate (.engine o) a .write
    check (placeOf m.pa = .hbm) codePermission a
    writeAt (.engine o) .engine .d m (s.imagePage i) a

/-- A core as the save area keeps it. -/
def Core.savedAway (c : Core) : Core := { c with icache := [], quiet := false }

/-- Parcel state that changes as it is saved: the encoder abandons the row in progress. That row is written again to the same bits,
so those of it that are still to be written are kept, whatever its own output has overwritten (R351, R357). -/
def Parcel.savedAway (x : Parcel) : Parcel :=
  { x with core := x.core.savedAway, enc := if x.enc.state = 0 then x.enc else { x.enc with state := 3 } }

/-- The segments that stand in the parcels of a region (R400). -/
def State.segmentsUnder (s : State) (o n : Nat) : List (Nat × Segment) :=
  s.segments.filter fun e => segResident e.2 && !e.2.place.slice && e.2.firstParcel < o + n && o < e.2.firstParcel + 2 ^ e.2.place.j

/-- The time that a record has been away, kept while its query is saved and counted on after it. -/
def Query.retime (q : Query) (now : Nat) : Query :=
  { q with records := q.records.map fun r => { r with sent := now - r.sent } }

/-- Save a drained region and hold its parcels for the kernel; its translations go with its partition (R16, R414, R453). -/
def State.saveRegion (s : State) (o : Nat) (r : Region) : State :=
  let mine := regionParcels o r
  let key := heldKey r.launch
  let s1 := s.flushRegion o
  let away := fun (u : Writer) => (unitParcel u).all fun p => p ∉ mine
  let s2 : State := { s1 with
    heldWalks := s1.heldWalks.filter fun h => away h.1
    holds := s1.holds.filter fun h => away h.unit
    parcels := s1.parcels.each fun n x => if n ∈ mine then x.savedAway else x
    compasses := s1.compasses.each fun _ c =>
      { c with query := c.query.map fun q => if q.opener ∈ mine then q.retime s.meridian.toNat else q }
    provinces := s1.provinces.each fun _ v =>
      { v with encQueue := v.encQueue.filter (· ∉ mine), proj := v.proj.filter fun t => t.region ≠ o } }
  let s3 := (s2.moveBytes o mine.length key).moveKernel o mine.length key
  let l0 : Launch :=
    { queue := 0, asid := r.asid, shape := r.shape, priority := r.priority, preemptive := false,
      image := BitVec.ofNat 64 r.image, arg := r.arg, record := r.record, depKind := 0, dep := 0, save := r.save,
      ways := r.ways, names := [], ready := true, order := s.tick, age := 0, placed := false, former := some o, block := none }
  let l := match s.launches.find r.launch with
    | some l => { l with priority := r.priority, ready := true, order := s.tick, age := 0, placed := false,
                         former := some o, block := none }
    | none => l0
  let under := (s.segmentsUnder o mine.length).map fun e => (e.1, e.2.name)
  { (s3.onRegion key fun r => { r with phase := .held, under := under }) with launches := s3.launches.put r.launch l }

/-- `PREEMPTION_DRAINED`: the region has drained and is saved; a fault while the save area is written aborts it (R453). -/
def execPreemptionDrained (origin : Nat) (s : State) : Host.Outcome State Fault Refusal :=
  match s.regions.find origin with
  | none => .next s
  | some r =>
    let mine := regionParcels origin r
    if s.boot.phase ≠ .running || r.phase ≠ .preempting || r.calm < 64 || s.underWay mine || !s.recordsSent mine ||
        !(mine.all fun p => s.parcelDrained p r.unstopped) then .next s
    else match writeSave origin r (s.saveHead origin r) s with
      | .ok _ s1 => .next (s1.saveRegion origin r)
      | .error (.fault c va) _ => .next (s.endRegion origin 2 c 0 origin va true)
      | .error .hold s1 => .next s1

/-! ### The restore (R400, R455) -/

/-- The segments a kernel holds. -/
def State.heldSegments (s : State) (o : Nat) : List (Nat × Segment) :=
  s.segments.filter fun e => e.2.state = .attached && e.2.holder = some o

/-- A resident segment is written to its backing, where its bytes are needed (R396). -/
def spillAt (d : Nat) : Act Unit := do
  let s ← get
  match s.segment d with
  | none => pure ()
  | some g => do
    if g.state = .spilling then throw .hold
    let pas ← backingPages g .write
    modify fun t => t.finishSpill d g pas

/-- The bytes of a segment that a kernel holds go to the origin where it is restored; `out` is its backing, already written
(R400). -/
def placeHeld (o : Nat) (e : Nat × Segment) (out : List Nat) : Act Unit :=
  modify fun t => (t.setSegment e.1 { e.2 with origin := o }).copyPages out (e.2.pages o)

/-- What must be done to segments before a held kernel's images are written back at an origin: a resident segment there that
no kernel holds and no pin keeps is spilled, but for those that stood there when the kernel was saved, and every segment that the
kernel holds elsewhere is spilled and reloaded (R396, R400, log 119). -/
def restoreSegments (key : Nat) (r : Region) (o : Nat) : Act Unit := do
  let s ← get
  let n := 2 ^ r.shape
  let former := s.formerOf r
  let mine := (s.heldSegments key).filter fun e => e.2.origin ≠ o
  let free := fun (e : Nat × Segment) => e.2.state ≠ .attached && !e.2.pinned
  let windows := (s.segmentsUnder o n).filter fun e => free e && !(o = former && (e.1, e.2.name) ∈ r.under)
  let targets := (mine.flatMap fun e => s.inTheWay e.1 e.2 o).filter free
  let foreign := (windows ++ targets).foldl (fun (l : List (Nat × Segment)) e => if l.any fun x => x.1 = e.1 then l else l ++ [e]) []
  foreign.forM fun e => spillAt e.1
  let outs ← mine.mapM fun e => do
    let pas ← backingPages e.2 .write
    modify fun t => t.copyPages (e.2.pages e.2.origin) pas
    pure pas
  (mine.zip outs).forM fun e => placeHeld o e.1 e.2

/-- A parcel as its core and engines resume; a halted slot runs on from its position, and a cell the pre-emption halted
runs (R453, R455). -/
def Parcel.resumed (x : Parcel) (now : Word) (r : Region) (i : Nat) : Parcel :=
  { x with
    core := x.core.rearm now
    streams := x.streams.each fun k t =>
      if (i, k) ∈ r.halted && t.state = 3 && t.reason = 1 then { t with state := 1, reason := 0 } else t
    cells := x.cells.each fun m c =>
      if c.mode = .halted && (i, m) ∉ r.idle then { c with mode := .running } else c
    enc := if x.enc.state = 3 then { x.enc with state := 1 } else x.enc }

/-- Restore a held kernel at an origin, once its segments stand there: every image is written back before anything runs, and
reloads that the kernel's attaches wait for go to its new parcels (R394, R400, R455). -/
def State.restoreRegion (s : State) (key : Nat) (r : Region) (o : Nat) : State :=
  let n := 2 ^ r.shape
  let s1 := (s.moveBytes key n o).moveKernel key n o
  let s3 : State := { s1 with
    segments := s1.segments.each fun _ g =>
      if g.holder = some o && g.target.isSome then { g with target := some o } else g
    compasses := s1.compasses.each fun _ c =>
      { c with query := c.query.map fun q =>
          if o ≤ q.opener && q.opener < o + n then
            { q.retime s.meridian.toNat with stopped := q.stopped && (q.opener - o, 16) ∈ r.idle }
          else q } }
  let s4 := (List.range n).foldl (fun (t : State) i =>
    let p := o + i
    let queued := (t.parcel p).enc.state = 3
    let t1 := t.onParcel p fun x => x.resumed s.meridian r i
    if queued then { t1 with provinces := t1.provinces.alter Province.reset (p / 64) fun v =>
      { v with encQueue := v.encQueue ++ [p] } } else t1) s3
  let s5 := s4.onRegion o fun r =>
    { r with phase := .running, halted := [], idle := [], calm := 0, unstopped := false, under := [] }
  let s6 : State := { s5 with launches := s5.launches.each fun k l =>
    if k = r.launch then { l with placed := true, ready := false, former := none } else l }
  ((List.range n).foldl (fun (t : State) i => t.pollWakes (o + i)) s6).tellMoved ((List.range n).map (o + ·))

end Sys2Proof.Machine
end

