-- ==== Sys2Proof/Machine/Queue.lean ====
section
/-! DEFINITION. `Q.KICK`, kicks from outside a core, counter dependences, the region scheduler and the end of a region
(R439, R445, R449, R451, R452, R456, R457). -/

namespace Sys2Proof.Machine

/-! ### Kicks (R439, R445, R457) -/

/-- Whether packets of a core that a release at device scope parts from its later enqueues have not arrived (R82). -/
def State.postsBefore (s : State) (p : Nat) (fences : Vector Nat 6) : Bool :=
  ((s.core p).outbound ++ s.flight.filter fun k => k.source = p && !k.frontEnd && k.device.toNat = s.link.number).any fun k =>
    k.fences[5] < fences[5]

/-- Kicks that waited for earlier packets land, in order (R82). -/
def State.landKicks (s : State) : State :=
  s.lateKicks.foldl (fun t k =>
    if t.postsBefore k.parcel k.fences || (t.lateKicks.takeWhile (· ≠ k)).any (fun x => x.parcel = k.parcel) then t
    else ({ t with lateKicks := t.lateKicks.erase k } : State).kick k.queue k.value (some k.parcel) (some (k.parcel, k.asid))) s

/-- `Q.KICK`: an enqueue at device scope, complete at issue; it lands after the packets that a release parts from it (R82,
R457). -/
def execQKick (ra rb : Reg) (s : State) : Host.Outcome State Fault Refusal :=
  s.attempt (.qKick ra rb) 11 do
    let q := s.reg ra
    check (wbits q 63 12 = 0) codeIllegal 0
    let c := s.core s.here
    if s.postsBefore s.here c.fences || s.lateKicks.any fun k => k.parcel = s.here then
      modify fun t => ({ t with lateKicks := t.lateKicks ++ [⟨s.here, c.asid, q.toNat, s.reg rb, c.fences⟩] } : State).advance s.here
    else modify fun t => (t.kick q.toNat (s.reg rb) (some s.here) (some (s.here, c.asid))).advance s.here

/-- `MISALIGNED` at a device unit that has written a kick register with another size: a trap of a running core, a late fault of a
cell, and a packet of an engine; its address and an engine's slot are free (R439, log 8). -/
def State.kickMisaligned (s : State) (writer : Writer) : State :=
  let va := Config.freeWord s.tick
  match writer with
  | .core p => if (s.core p).running then s.trapEntry p codeMisaligned va 0 false else s
  | .cell p m =>
    let c := s.cell p m
    if s.takesLate p m then s.freeze ⟨p, m, c.fireCtx.toNat, c.fireSlot.toNat⟩ ⟨codeMisaligned, va, 0, true⟩ true else s
  | .engine p => if s.enginesRun p then s.report p codeMisaligned 1 (Config.freeWord (s.tick + 1)).toNat none va else s
  | .graticule p => if s.enginesRun p then s.report p codeMisaligned 4 (Config.freeWord (s.tick + 1)).toNat none va else s
  | _ => s

/-- `KICK_REGISTER_WRITE`: a kick reaches its strip. A host write of another size is discarded, and that of a device unit raises
`MISALIGNED` there. In recovery the host finds no kick registers in BAR0 (R439, R445, R476). -/
def execKickRegisterWrite (q size : Nat) (value : Word) (writer : Writer) (s : State) :
    Host.Outcome State Fault Refusal :=
  .next (if writer = .host && s.boot.phase = .recovery then s
    else if size = 8 then (if q < 4096 then s.kick q value (unitParcel writer) none else s)
    else s.kickMisaligned writer)

/-- `DEPENDENCE_COUNTER_CHECK`: the strip reads a counter again (R449). -/
def execDependenceCounterCheck (launch : Nat) (s : State) : Host.Outcome State Fault Refusal :=
  match s.launches.find launch with
  | none => .next s
  | some l => .next (if !l.ready && !l.placed && l.depKind = 2 && s.dependenceMet l then s.makeReady launch else s)

/-! ### Waking a parcel (R162, R484) -/

/-- Firmware wakes a gated parcel: its stations are back, and wakeups of a recorded completion fire. -/
def State.wakeParcel (s : State) (p : Nat) : State :=
  if (s.parcel p).gated then (s.onParcel p fun x => { x with gated := false }).pollWakes p else s

/-! ### The region scheduler (R451, R452) -/

/-- A launch's effective priority. -/
def Launch.effective (l : Launch) : Nat := min 7 (l.priority + l.age / 65536)

/-- Whether two blocks of parcels share one. -/
def blocksMeet (a n b m : Nat) : Bool := a < b + m && b < a + n

/-- The held kernel of a launch that was pre-empted. -/
def State.heldOf (s : State) (k : Nat) (l : Launch) : Option (Nat × Region) :=
  if l.former.isNone then none else
  match s.regions.find (heldKey k) with
  | some r => some (heldKey k, r)
  | none => none

/-- What the segments of a restored kernel find at an origin can be spilled or is its own, and its Compasses there are
closed (R400). -/
def State.admitsHeld (s : State) (key : Nat) (r : Region) (o : Nat) : Bool :=
  let n := 2 ^ r.shape
  ((s.heldSegments key).all fun e => e.2.origin = o ||
    (s.inTheWay e.1 e.2 o).all fun x => (x.2.state = .attached && x.2.holder = some key) || (x.2.state = .resident && !x.2.pinned)) &&
  (s.compasses.all fun (e : Nat × Compass) => match e.2.query with
    | some q => !(key ≤ q.opener && q.opener < key + n) ||
        ((s.compasses.look Compass.reset ((q.opener - key + o) / 4)).query).isNone
    | none => true)

/-- Whether a launch may be placed at an origin: no region runs there, and no parcel is held for another kernel but by the
pre-emption made for this launch (R451, R452). -/
def State.regionFree (s : State) (k : Nat) (l : Launch) (o : Nat) : Bool :=
  (s.regions.all fun (e : Nat × Region) =>
    if e.2.phase = .held then
      e.1 = heldKey k || l.block = some o || !blocksMeet (s.formerOf e.2) (2 ^ e.2.shape) o (2 ^ l.shape)
    else !blocksMeet e.1 (2 ^ e.2.shape) o (2 ^ l.shape)) &&
  (match s.heldOf k l with
   | some (key, r) => s.admitsHeld key r o
   | none => true)

/-- The origins of a shape's regions. -/
def shapeOrigins (shape : Nat) : List Nat := (List.range (512 / 2 ^ shape)).map (· * 2 ^ shape)

/-- The region a launch gets at its placement. -/
def Launch.region (l : Launch) (k : Nat) : Region :=
  { shape := l.shape, asid := l.asid, identity := 0, launch := k, image := l.image.toNat, arg := l.arg, save := l.save,
    record := l.record, priority := l.priority, ways := l.ways, phase := .loading, legend := [], legendCount := 0,
    hang := 0, active := false, loadPos := 0, loadParcel := 0, loadedParcels := 0, seen := [], status := 0,
    exitAsked := false, debugStop := false, hungUp := false, calm := 0, halted := [], idle := [], unstopped := false, under := [] }

/-- Whether every segment that a launch names, and every one its kernel holds, is resident in a region. -/
def State.segmentsThere (s : State) (k : Nat) (l : Launch) (o : Nat) : Bool :=
  (l.names.all fun n => match s.segmentNamed l.asid n with
    | some (_, g) => g.inside o (l.region k)
    | none => false) &&
  (match s.heldOf k l with
   | some (key, _) => (s.heldSegments key).all fun e => e.2.inside o (l.region k)
   | none => true)

/-- The parcels of a placement are awake, and a reset of them is past (R162, R484). -/
def State.takeParcels (s : State) (o n : Nat) (f : Parcel → Parcel) : State :=
  (List.range n).foldl (fun (t : State) i => (t.wakeParcel (o + i)).onParcel (o + i) fun x => { f x with wasReset := false }) s

/-- Place a launch: its region is set up for the loader, or its saved kernel restored. A restore whose segments a migrating
page holds is made at a later decision, and one that a fault of their backing stops ends its kernel (R26, R451, R455, R484,
log 119). -/
def State.place (s : State) (k : Nat) (l : Launch) (o : Nat) : State :=
  match s.heldOf k l with
  | some (key, r) => match restoreSegments key r o s with
    | .ok _ t => (t.takeParcels o (2 ^ l.shape) id).restoreRegion key r o
    | .error .hold t => { t with considered := ([], []) }
    | .error (.fault c va) t => t.endRegion key 2 c 0 o va true
  | none =>
    let s1 := s.takeParcels o (2 ^ l.shape) Parcel.cleared
    { s1 with
      debugger := if s.debugger.launch = some k then { s.debugger with out := s.debugger.out ++ [.launch l.shape o l.arg] } else s.debugger
      regions := s1.regions.put o (l.region k)
      launches := s1.launches.put k { l with placed := true, ready := false, block := none } }

/-- The highest priority of the kernels that a pre-emption of a block would stop, where the block is a victim block for a
launch (R452). -/
def State.victim (s : State) (l : Launch) (o : Nat) : Option Nat :=
  let met := s.regions.filter fun e => e.2.phase ≠ .held && blocksMeet e.1 (2 ^ e.2.shape) o (2 ^ l.shape)
  let ok := met.all fun e => o ≤ e.1 && e.1 + 2 ^ e.2.shape ≤ o + 2 ^ l.shape && e.2.live && e.2.priority < l.effective
  if ok && !met.isEmpty then some (met.foldl (fun m e => max m e.2.priority) 0) else none

/-- The victim block of least priority, then of lowest origin. -/
def State.victimBlock (s : State) (l : Launch) : Option Nat :=
  ((shapeOrigins l.shape).foldl (fun (best : Option (Nat × Nat)) o =>
    match s.victim l o, best with
    | some v, some b => if v < b.1 then some (v, o) else some b
    | some v, none => some (v, o)
    | none, b => b) none).map (·.2)

/-- Pre-empt every running region of a block for a launch. -/
def State.preemptBlock (s : State) (k : Nat) (l : Launch) (o : Nat) : State :=
  let met := s.regions.filter fun e => e.2.phase = .running && o ≤ e.1 && e.1 < o + 2 ^ l.shape
  let s1 := met.foldl (fun (t : State) e => t.preempt e.1) s
  { s1 with launches := s1.launches.put k { l with block := some o } }

/-- The block that was pre-empted for a launch is still to come: what runs in it is being pre-empted (R452). -/
def State.blockComes (s : State) (l : Launch) : Bool :=
  l.block.any fun o => s.regions.all fun e => !blocksMeet e.1 (2 ^ e.2.shape) o (2 ^ l.shape) || e.2.phase = .preempting

/-- One decision over the ready launches in order; none where nothing is placed or pre-empted (R451). A restored kernel's
former region and the block pre-empted for a launch go before the others (R451, R452). -/
def State.decideFrom (s : State) : List (Nat × Launch) → State
  | [] => s
  | (k, l) :: rest =>
    let free := (shapeOrigins l.shape).filter (s.regionFree k l)
    let good := free.filter (s.segmentsThere k l)
    let asked := [l.former, l.block].filterMap fun x => x.filter fun o => o ∈ free
    let old := if 4096 ≤ l.age then free else []
    match asked ++ good ++ old with
    | o :: _ => s.place k l o
    | [] =>
      if l.preemptive && s.blockComes l then s
      else match (if l.preemptive then s.victimBlock l else none) with
        | some b => s.preemptBlock k l b
        | none => if l.effective = 7 then s else s.decideFrom rest

/-- Whether one ready launch goes before another: by effective priority, then by time of readiness. -/
def beforeInReady (a b : Nat × Launch) : Bool :=
  b.2.effective < a.2.effective || (a.2.effective = b.2.effective && a.2.order < b.2.order)

/-- Insert a launch into the list of ready launches. -/
def insertReady (a : Nat × Launch) : List (Nat × Launch) → List (Nat × Launch)
  | [] => [a]
  | b :: l => if beforeInReady a b then a :: b :: l else b :: insertReady a l

/-- What calls for a decision when it changes: the ready launches, and the regions that are not free, each with whether it has
passed step 7, after which a waiting pre-emptive launch stops it (R30, R451). -/
def State.toConsider (s : State) : List Nat × List Nat :=
  ((s.launches.filter fun (e : Nat × Launch) => e.2.ready).map (·.1), s.regions.map fun e => 2 * e.1 + (if e.2.live then 1 else 0))

/-- The ready launches in the order in which a decision looks at them. -/
def State.readyLaunches (s : State) : List (Nat × Launch) :=
  (s.launches.filter fun (e : Nat × Launch) => e.2.ready).foldl (fun l e => insertReady e l) []

/-- `REGION_SCHEDULER_DECISION`: after a change in the ready set or a freed region, the scheduler places, or pre-empts for, the
best ready launch, and every ready launch ages by one decision; no region can be launched until firmware runs (R451, R476). -/
def execRegionSchedulerDecision (s : State) : Host.Outcome State Fault Refusal :=
  if s.boot.phase ≠ .running || s.considered = s.toConsider then .next s else
  let s1 := ({ s with considered := s.toConsider } : State).decideFrom s.readyLaunches
  .next { s1 with
    decisions := s1.decisions + 1
    launches := s1.launches.each fun _ l => if l.ready then { l with age := l.age + 1 } else l }

/-! ### The end of a kernel by `ECALL` exit (R456) -/

/-- Every request, stream and encoder request of a parcel is over, and its core runs no task. -/
def State.parcelOver (s : State) (p : Nat) : Bool :=
  let x := s.parcel p
  !x.core.running && (x.travs.all fun (e : Nat × TravSlot) => !s.takenTrav p e.1) &&
  (x.streams.all fun (e : Nat × Stream) => !e.2.busy) && !x.gr.busy && x.enc.state = 0 && x.core.outbound.isEmpty &&
  s.invalidates.all fun v => v.parcel ≠ p || !v.told

/-- `REGION_EXIT`: what the region has issued is over, the writes that its cells have issued into a region that holds
attachments among them; attachments detach, unclosed ends die, and the record is written (R398, R399, R456). -/
def execRegionExit (origin : Nat) (s : State) : Host.Outcome State Fault Refusal :=
  match s.regions.find origin with
  | none => .next s
  | some r =>
    let mine := regionParcels origin r
    if s.boot.phase ≠ .running || !r.live || !r.exitAsked || s.underWay mine || !mine.all s.parcelOver ||
        (!(s.heldSegments origin).isEmpty && s.portWrites origin r (s.tick + 1)) then .next s
    else
      let s1 := (s.heldSegments origin).foldl (fun (t : State) e => t.releaseAll origin r e.2.scope) s
      .next (s1.endRegion origin 0 0 r.status 0 0 false)

end Sys2Proof.Machine
end

