-- ==== Sys2Proof/Machine/Loader.lean ====
section
/-! DEFINITION. The configuration loader: the image header, configuration packets, their checks, the load of each parcel and
the start packet (R26-R29, R49, R220-R226, R282). -/

namespace Sys2Proof.Machine

/-! ### Reading the image (R223) -/

/-- Why a piece of the load goes no further: a refusal with its code and offset in the image (R29), or a page of the image
that migrates (R416). -/
inductive LoadStop where
  | refused (code : Byte) (off : Nat)
  | held (va : Nat)
  deriving DecidableEq, Repr

/-- A piece of the load. -/
abbrev Loaded := Except LoadStop

/-- The 8 bytes at an offset of the image, read at `.d` for the loader (R223). -/
def State.imageWord (s : State) (o : Nat) (r : Region) (off : Nat) : Loaded (List Byte) :=
  let va := r.image + off
  if 2 ^ 64 ≤ va then .error (.refused codeAbsent off)
  else match (s.bareLookup .cartouche (o / 64) r.asid.toNat (BitVec.ofNat 64 va) .read none).1 with
    | .ok m => .ok (s.plainRead m.pa 8)
    | .bad c => .error (.refused c off)
    | .wait => .error (.held va)

/-- Bytes of the image, a multiple of 8 from an 8-byte aligned offset. -/
def State.imageBytes (s : State) (o : Nat) (r : Region) (off n : Nat) : Loaded (List Byte) :=
  ((List.range (n / 8)).mapM fun i => s.imageWord o r (off + 8 * i)).map List.flatten

/-- Refuse unless a check holds. -/
def require (ok : Bool) (code : Byte) (off : Nat) : Loaded Unit := if ok then .ok () else .error (.refused code off)

/-- The code of every refused configured word. -/
def codeIllegalWord : Byte := codeIllegalContext

/-! ### The header and the bindings (R223) -/

/-- A header field by its byte offset and size. -/
def hdr (h : List Byte) (off n : Nat) : Nat := field h off n

/-- The checks of the header fields in the order of their offsets: offset and whether the field is accepted. -/
def headerChecks (shape : Nat) (h : List Byte) : List (Nat × Bool) :=
  let flags := hdr h 5 1
  [(0, hdr h 0 4 = 0x474E4B31), (4, hdr h 4 1 = shape), (5, flags < 4), (8, flags % 2 = 1 || hdr h 8 8 = 0),
   (16, flags / 2 % 2 = 1 || hdr h 16 8 = 0), (24, hdr h 24 8 % 32 = 0), (32, hdr h 32 2 ≤ 1024),
   (34, hdr h 34 6 = 0), (40, hdr h 40 8 % 8 = 0), (48, hdr h 48 8 % 8 = 0), (56, hdr h 56 8 % 64 = 0),
   (64, hdr h 64 8 % 4 = 0), (72, hdr h 72 8 % 16 = 0), (80, hdr h 80 4 ≤ 65536), (84, hdr h 84 4 = 0),
   (88, hdr h 88 8 % 64 = 0), (104, hdr h 104 152 = 0)]

/-- A binding entry: parcel, channel and handler offset. -/
def bindParcel (b : List Byte) : Nat := field b 0 2 % 512
def bindChannel (b : List Byte) : Nat := field b 2 1 % 128
def bindHandler (b : List Byte) : Nat := field b 4 4

/-- The binding entries of the image. -/
def State.bindings (s : State) (o : Nat) (r : Region) (h : List Byte) : Loaded (List (List Byte)) :=
  (List.range (hdr h 80 4)).mapM fun i => s.imageBytes o r (hdr h 72 8 + 16 * i) 16

/-- Check the header and the bindings. -/
def State.checkHeader (s : State) (o : Nat) (r : Region) : Loaded Unit := do
  let h ← s.imageBytes o r 0 256
  (headerChecks r.shape h).forM fun c => require c.2 codeIllegalWord c.1
  let bs ← s.bindings o r h
  bs.zipIdx.forM fun e => do
    let off := hdr h 72 8 + 16 * e.2
    let b := e.1
    require (field b 0 2 < 512 && field b 2 1 < 128 && field b 3 1 = 0 && field b 8 8 = 0 &&
      bindHandler b % 4 = 0 && bindHandler b < hdr h 64 8) codeIllegalWord off
    require (bindParcel b < 2 ^ r.shape) codeScope off
    require ((bs.take e.2).all fun a => bindParcel a ≠ bindParcel b || bindChannel a ≠ bindChannel b)
      codeIllegalWord off

/-! ### Packets (R220, R222, R224) -/

/-- The part of a header that names what a packet gives: kind, parcel, cell, context and slot. -/
def packetKey (h : Nat) : Nat := h / 2 ^ 41

/-- Header fields that a kind leaves at 0 (R220, R224). -/
def packetFieldsOk (h : Nat) : Bool :=
  let kind := bits h 63 60
  kind ≤ 6 && bits h 40 0 = 0 && (kind < 6 || bits h 59 51 = 0) && (kind < 4 || bits h 50 47 = 0) &&
    (kind < 2 || bits h 46 44 = 0) && (kind = 0 || bits h 43 41 = 0)

/-- Payload words of a kind. -/
def payloadWords (kind : Nat) : Nat := ([2, 4, 4, 1, 4] : List Nat).getD kind 0

/-- A routing word that the loader accepts by its own fields (R216, R224). -/
def routeOk (w : Word) : Bool :=
  let dir := wbits w 62 59
  dir ≤ 8 && (!wbit w 58 || (4 ≤ dir && dir ≤ 7)) && (wbit w 58 || wbits w 45 33 = 0) && wbits w 32 0 = 0

/-- Whether a slot's operation word and guard word are accepted as the parcel takes them (R224, R281). -/
def guardFits (opw g : BitVec 64) : Bool :=
  match Decode.cell opw with
  | .error _ => true
  | .ok i => match i.cellParts? with
    | some (op, w) => op ≠ 0xE0 || !g.getLsbD (16 + w.cf 0 3)
    | none => true

/-- Take one packet's payload into its parcel, checking each word's own fields; `at_` is the payload's offset. -/
def State.takePacket (s : State) (o : Nat) (r : Region) (h at_ : Nat) (ws : List Word) : Loaded State := do
  let p := o + bits h 59 51
  let m := bits h 50 47
  let ctx := bits h 46 44
  let slot := bits h 43 41
  let w := fun (i : Nat) => ws.getD i 0
  match bits h 63 60 with
  | 0 => do
    require (opWordOk (w 0)) codeIllegalWord at_
    require (guardOk (w 1) && guardFits (w 0) (w 1)) codeIllegalWord (at_ + 8)
    pure (s.onCell p m fun c => { c with slots := c.slots.put (ctx * 8 + slot) (w 0, w 1) })
  | 1 => do
    require (wbits (w 3) 60 59 = 0) codeIllegalWord (at_ + 24)
    pure (s.onCell p m fun c => { c with consts := (List.range 8).foldl (fun (t : Table (BitVec 32)) i =>
      t.put (ctx * 8 + i) (BitVec.ofNat 32 (wbits (w (i / 2)) (32 * (i % 2) + 31) (32 * (i % 2))))) c.consts })
  | 2 => do
    (List.range 4).forM fun i => do
      require (routeOk (w i)) codeIllegalWord (at_ + 8 * i)
      require (!wbit (w i) 58 || wbits (w i) 41 33 < 2 ^ r.shape) codeScope (at_ + 8 * i)
    pure (s.onCell p m fun c => { c with routes := #v[w 0, w 1, w 2, w 3] })
  | 3 => do
    require (wbits (w 0) 63 4 = 0 && wbits (w 0) 3 1 ≠ 7 && !(wbit (w 0) 0 && m = 0)) codeIllegalWord at_
    pure (s.onCell p m fun c => { c with config := w 0 })
  | _ => do
    (List.range 4).forM fun i => require (wbits (w i) 56 0 = 0) codeIllegalWord (at_ + 8 * i)
    pure (s.onParcel p fun x => { x with ingress := #v[w 0, w 1, w 2, w 3] })

/-! ### The checks at a parcel's end (R221, R224-R226) -/

/-- The offset in the image of a packet that the loader has taken. -/
def Region.packetAt (r : Region) (key : Nat) : Nat :=
  ((r.seen.find? fun n => n / 2 ^ 64 = key).getD 0) % 2 ^ 64
/-- The key of a packet. -/
def wordKey (kind parcel cell ctx slot : Nat) : Nat :=
  (((kind * 512 + parcel) * 16 + cell) * 8 + ctx) * 8 + slot

/-- What the loader refuses at a parcel's end: its place in R29's order, the code, and the offset in the image. -/
abbrev Refused := Nat × Byte × Nat

/-- A place in R29's order: relative parcel, cell, and context × 8 + slot; the routing words of a cell come after its slots,
the ingress words of a parcel after its cells (log 120). -/
def placeKey (rel m at_ : Nat) : Nat := rel * 2 ^ 16 + m * 2 ^ 8 + at_

/-- The slots of a cell that are not empty, with their places and the offsets of their operation words. -/
def State.loadedSlots (s : State) (o : Nat) (r : Region) (rel m : Nat) : List ((Nat × Nat) × (Nat × CellWord × Nat × BitVec 64)) :=
  (s.cell (o + rel) m).filledSlots.map fun e => ((placeKey rel m e.1, r.packetAt (wordKey 0 rel m (e.1 / 8) (e.1 % 8)) + 8), e)

/-- The slots that a parcel refuses against its final routing words: a push onto a queue that no valid routing word serves,
and priming words that a queue has no place for (R224, R282). -/
def State.slotFaults (s : State) (o : Nat) (r : Region) (rel : Nat) : List Refused :=
  (List.range 16).flatMap fun m =>
    let c := s.cell (o + rel) m
    (c.slots.filterMap fun (e : Nat × (BitVec 64 × BitVec 64)) =>
      if c.slotOk e.2.1 e.2.2 then none
      else some (placeKey rel m e.1, codeIllegalWord, r.packetAt (wordKey 0 rel m (e.1 / 8) (e.1 % 8)) + 8)) ++
    ((s.loadedSlots o r rel m).filterMap fun e => match e.2.2.1.dst with
      | .oq q => if e.2.2.2.1 ≠ 0xE1 || c.primes e.2.1 q ≤ 8 + c.depth q then none else some (e.1.1, codeIllegalWord, e.1.2)
      | _ => none)

/-- Two `HIN` slots of a region that name one doorbell: the later is refused (R288). -/
def State.doorbellFaults (s : State) (o : Nat) (r : Region) (n : Nat) : List Refused :=
  let all := (List.range n).flatMap fun rel => (List.range 16).flatMap fun m =>
    (s.cell (o + rel) m).hinSlots.map fun e =>
      (e.2.1, placeKey rel m e.1, r.packetAt (wordKey 0 rel m (e.1 / 8) (e.1 % 8)) + 8)
  all.zipIdx.filterMap fun e =>
    if (all.take e.2).any fun a => a.1 = e.1.1 then some (e.1.2.1, codeIllegalWord, e.1.2.2) else none

/-- What a route or an ingress word owns: the directed link of a cell, an input queue, or the outbound side of a port
(R225). -/
inductive Owned where
  | link (p m dir : Nat)
  | queue (p m q : Nat)
  | side (p port : Nat)
  deriving DecidableEq, Repr

/-- The parcel of a resource. -/
def Owned.parcel : Owned → Nat
  | .link p _ _ | .queue p _ _ | .side p _ => p

/-- The resources of the `HIN` slots, routing words and ingress words of the first `n` relative parcels in R29's order: place,
offset of the word, and what it owns in those parcels (R225, R288). -/
def State.owners (s : State) (o : Nat) (r : Region) (n : Nat) : List (Nat × Nat × List Owned) :=
  (List.range n).flatMap fun rel =>
    let p := o + rel
    ((List.range 16).flatMap fun m =>
      ((s.cell p m).hinSlots.map fun e =>
        (placeKey rel m e.1, r.packetAt (wordKey 0 rel m (e.1 / 8) (e.1 % 8)) + 8, [Owned.queue p m e.2.2])) ++
      ((List.range 4).filterMap fun q =>
        let w := (s.cell p m).routes.toList.getD q 0
        let dir := wbits w 62 59
        let target := match s.routeTarget p m q with
          | some (tp, tm, tq) => [Owned.queue tp tm tq]
          | none => []
        let own := if dir < 4 then [Owned.link p m dir] else if dir < 8 then [Owned.side p (dir - 4)] else []
        if wbit w 63 then some (placeKey rel m (64 + q), r.packetAt (wordKey 2 rel m 0 0) + 8 + 8 * q,
          (own ++ target).filter fun x => x.parcel < o + n) else none)) ++
    ((List.range 4).filterMap fun port =>
      let w := (s.parcel p).ingress.toList.getD port 0
      if wbit w 63 then some (placeKey rel 16 port, r.packetAt (wordKey 4 rel 0 0 0) + 8 + 8 * port,
        [Owned.queue p (wbits w 62 59) (wbits w 58 57)])
      else none)

/-- No two words own one resource; the later one is refused (R225). -/
def ownerFaults (l : List (Nat × Nat × List Owned)) : List Refused :=
  l.zipIdx.filterMap fun e =>
    let before := (l.take e.2).flatMap (·.2.2)
    if e.1.2.2.any fun x => x ∈ before then some (e.1.1, codeRouteConflict, e.1.2.1) else none

/-- Whether a cell holds a widener in some slot. -/
def Cell.holdsWidener (c : Cell) : Bool := c.filledSlots.any fun e => e.2.2.1 = 0xE6

/-- The routes of the first `n` relative parcels that end at a cell: source parcel, cell and queue, and where they end. -/
def State.loadedRoutes (s : State) (o n : Nat) : List ((Nat × Nat × Nat) × (Nat × Nat × Nat)) :=
  (List.range n).flatMap fun rel => (List.range 16).flatMap fun m => (List.range 4).filterMap fun q =>
    match s.routeTarget (o + rel) m q with
    | some t => if t.1 < o + n then some ((o + rel, m, q), t) else none
    | none => none

/-- Routes between cells of different subgraph scopes that no widener ends, and wideners whose outer scope is not the wider
of the two scopes; where a widener has one end at a cell only, its outer scope may not be narrower than that cell's (R76, R226,
log 121). -/
def State.scopeFaults (s : State) (o : Nat) (r : Region) (n : Nat) : List Refused :=
  let routes := s.loadedRoutes o n
  (routes.filterMap fun x =>
    let a := s.cell x.1.1 x.1.2.1
    let b := s.cell x.2.1 x.2.2.1
    let rel := x.1.1 - o
    if a.subgraph = b.subgraph || a.holdsWidener || b.holdsWidener then none
    else some (placeKey rel x.1.2.1 (64 + x.1.2.2), codeScope, r.packetAt (wordKey 2 rel x.1.2.1 0 0) + 8 + 8 * x.1.2.2)) ++
  (List.range n).flatMap fun rel => (List.range 16).flatMap fun m =>
    (s.loadedSlots o r rel m).filterMap fun e =>
      let froms : List Nat := match e.2.2.1.a with
        | .iq q _ => routes.filterMap fun (x : (Nat × Nat × Nat) × (Nat × Nat × Nat)) =>
          if x.2 = (o + rel, m, q.toNat) then some (s.cell x.1.1 x.1.2.1).subgraph else none
        | _ => []
      let tos : List Nat := match e.2.2.1.dst with
        | .oq q => routes.filterMap fun (x : (Nat × Nat × Nat) × (Nat × Nat × Nat)) =>
          if x.1 = (o + rel, m, q.toNat) then some (s.cell x.2.1 x.2.2.1).subgraph else none
        | _ => []
      let wider := (froms ++ tos).foldl max 0
      let outer := e.2.2.1.cf 0 3
      let ok : Bool := if froms.isEmpty || tos.isEmpty then wider ≤ outer else outer = wider
      if e.2.2.2.1 ≠ 0xE6 || ok then none else some (e.1.1, codeScope, e.1.2)

/-- Everything that the end of relative parcel `rel` refuses. -/
def State.parcelFaults (s : State) (o : Nat) (r : Region) (rel : Nat) : List Refused :=
  s.slotFaults o r rel ++ s.doorbellFaults o r (rel + 1) ++ ownerFaults (s.owners o r (rel + 1)) ++ s.scopeFaults o r (rel + 1)

/-- The refusal that is reported: that of the lowest place (R29). -/
def firstRefused (l : List Refused) : Option Refused :=
  l.foldl (fun (b : Option Refused) e => match b with
    | some x => if e.1 < x.1 then some e else b
    | none => some e) none

/-! ### The loader's steps -/

/-- The whole launch fails (R29). -/
def State.refuseLoad (s : State) (o : Nat) (code : Byte) (off : Nat) : State :=
  s.endRegion o 3 code 0 0 (BitVec.ofNat 64 off) true

/-- A piece of the load and what comes of it: a refusal fails the launch, and a migrating page holds the loader (R29, R416). -/
def State.afterLoad (s : State) (o : Nat) (r : Region) : Loaded State → State
  | .ok t => t
  | .error (.refused code off) => s.refuseLoad o code off
  | .error (.held va) => s.holdWalk .cartouche r.asid.toNat va

/-- Take the packet at a place of the run; `pos` counts the bytes already taken. -/
def State.loadPacket (s : State) (o : Nat) (r : Region) (pos : Nat) : Loaded State := do
  let hd ← s.imageBytes o r 0 256
  let base := hdr hd 40 8
  let len := hdr hd 48 8
  let off := base + pos
  require (pos + 8 ≤ len) codeIllegalWord off
  let hb ← s.imageWord o r off
  let h := Decode.leNat hb
  let kind := bits h 63 60
  let rel := bits h 59 51
  require (packetFieldsOk h) codeIllegalWord off
  if kind = 6 then do
    require (r.loadParcel = 2 ^ r.shape) codeIllegalWord off
    pure (s.onRegion o fun r => { r with phase := .loaded })
  else do
    require (rel < 2 ^ r.shape) codeScope off
    require (rel = r.loadParcel && r.seen.all fun n => n / 2 ^ 64 ≠ packetKey h) codeIllegalWord off
    let n := payloadWords kind
    require (pos + 8 + 8 * n ≤ len) codeIllegalWord off
    let ws ← (List.range n).mapM fun i => (s.imageWord o r (off + 8 + 8 * i)).map wordOf
    let s1 ← if kind = 5 then
        match firstRefused (s.parcelFaults o r rel) with
        | some (_, code, at_) => .error (.refused code at_)
        | none => pure s
      else s.takePacket o r h (off + 8) ws
    pure (s1.onRegion o fun r =>
      { r with loadPos := 1 + (pos + 8 + 8 * n), loadParcel := if kind = 5 then rel + 1 else rel,
               seen := r.seen ++ [packetKey h * 2 ^ 64 + off] })

/-- `CONFIGURATION_PACKET`: the loader checks the header and then streams one packet after another; a refused word fails the
whole launch (R26, R29, R221). -/
def execConfigurationPacket (origin : Nat) (s : State) : Host.Outcome State Fault Refusal :=
  match s.regions.find origin with
  | none => .next s
  | some r =>
    if s.boot.phase ≠ .running || r.phase ≠ .loading then .next s
    else if r.loadPos = 0 then
      .next (s.afterLoad origin r ((s.checkHeader origin r).map fun _ => s.onRegion origin fun r => { r with loadPos := 1 }))
    else .next (s.afterLoad origin r (s.loadPacket origin r (r.loadPos - 1)))

/-! ### The load of each parcel (R26, R49, R223, R282) -/

/-- Whether a legend entry is accepted in a table of `n` entries (R47, R49). -/
def legendOk (table : List Legend) (e : Legend) : Bool :=
  let f := lgFormat e
  let block := lgBlock e
  let size := formatBits f / 8
  let multiple := fun (x : Int) => size = 0 || f = 18 || f = 15 || f = 16 || x % (size : Int) = 0
  f ≤ 19 && getF e 250 248 ≤ 1 && (lgSegment e || getF e 63 57 = 0) &&
  (match f with
   | 15 => block = 32
   | 16 => block = 20
   | 17 => block = 16
   | 18 => 4 ≤ block && block ≤ 7
   | _ => block = 0) &&
  (!(f = 15 || f = 16 || f = 17) || lgDim e 0 % block = 0) &&
  (f ≠ 18 || (lgDim e 0 % 4 = 0 && 12 ≤ lgDim e 0 / 4 * block)) &&
  multiple (lgStride e 1) && multiple (lgStride e 2) && multiple (lgStride e 3) &&
  (lgSegment e || lgPacked e || multiple ((lgAddress e).toNat : Int)) &&
  (lgSegment e || !lgPacked e || (lgAddress e).toNat % 64 = 0) &&
  (match f with
   | 15 | 16 | 17 => (table[lgScaleEntry e]?).any fun x => lgFormat x = 0
   | 18 => (table[lgScaleEntry e]?).any fun x => lgFormat x = 9
   | _ => lgScaleEntry e = 0)

/-- The legend table of the image, checked (R49). -/
def State.loadLegend (s : State) (o : Nat) (r : Region) (h : List Byte) : Loaded (List Legend) := do
  let base := hdr h 24 8
  let es ← (List.range (hdr h 32 2)).mapM fun i => (s.imageBytes o r (base + 32 * i) 32).map fun b =>
    BitVec.ofNat 256 (Decode.leNat b)
  es.zipIdx.forM fun e => require (legendOk es e.1) codeIllegalWord (base + 32 * e.2)
  pure es

/-- The priming words of a `DLY` slot (R282). -/
def Cell.primingWord (c : Cell) (ctx : Nat) (w : CellWord) (q : BitVec 2) : LinkWord :=
  let v : BitVec 32 := match w.b with
    | .const k => c.const ctx k.toNat
    | _ => 0
  { dataWord (spread v) 0xFFFF (typeTag w.ty.toNat) with ctx := BitVec.ofNat 3 (getF c.routes[q.toNat] 57 55) }

/-- Push the priming words of every `DLY` slot of a cell. -/
def Cell.prime (c : Cell) (now : Nat) : Cell :=
  c.filledSlots.foldl (fun (c : Cell) e =>
    match e.2.2.1, e.2.1.dst with
    | 0xE1, .oq q =>
      let x := c.primingWord (e.1 / 8) e.2.1 q
      let o := c.oq[q.toNat]
      let n := e.2.1.cf 0 6
      let here := min n (8 - o.words.length)
      { c with oq := c.oq.set q.toNat { o with
          words := o.words ++ List.replicate here x
          delay := o.delay ++ List.replicate (n - here) (x, now) } }
    | _, _ => c) c

/-- Bind the channels that the image names for a parcel, and load its control registers (R91, R223). -/
def State.loadCore (s : State) (o : Nat) (r : Region) (p : Nat) (h : List Byte) (bs : List (List Byte)) : State :=
  let code : Word := BitVec.ofNat 64 (r.image + hdr h 56 8)
  s.onCore p fun c =>
    let c1 := { c with
      tcause := 0, tval := 0, tepc := 0, trap := false, wake := false, flags := 0
      asid := r.asid
      hangiv := if hdr h 5 1 % 2 = 1 then BitVec.ofNat 64 (hdr h 8 8) else hangDefault
      chprio := if hdr h 5 1 / 2 % 2 = 1 then BitVec.ofNat 64 (hdr h 16 8) else chprioDefault }
    (bs.filter fun b => o + bindParcel b = p).foldl (fun (c : Core) b =>
      c.bind s.meridian.toNat (bindChannel b) (code + BitVec.ofNat 64 (bindHandler b)) 0) c1

/-- The generators of a parcel's cells and of its Graticule at load, by its relative index (R46, R327). -/
def Parcel.seeded (x : Parcel) (rel : Nat) : Parcel :=
  { x with
    cells := (List.range 16).foldl (fun (t : Table Cell) m =>
      t.alter Cell.reset m fun c => { c with gen := Cell.reset.gen ^^^ BitVec.ofNat 32 (rel * 16 + m) }) x.cells
    gr := { x.gr with gen := Graticule.reset.gen ^^^ BitVec.ofNat 32 rel } }
/-- Every `DLY` slot of a parcel pushes its priming words (R282). -/
def Parcel.primed (x : Parcel) (now : Nat) : Parcel := { x with cells := x.cells.each fun _ c => c.prime now }

/-- One parcel's load. -/
def State.loadParcel (s : State) (o : Nat) (r : Region) (p : Nat) : Loaded State := do
  let h ← s.imageBytes o r 0 256
  let s1 ← if r.loadedParcels = 0 then do
      let es ← s.loadLegend o r h
      pure (s.onRegion o fun r => { r with
        identity := BitVec.ofNat 16 (hdr h 6 2), legend := es.zipIdx.map fun e => (e.2, e.1), legendCount := es.length })
    else pure s
  let bs ← s.bindings o r h
  let s2 := s1.loadCore o r p h bs
  let s3 := s2.onParcel p fun x => (x.seeded (p - o)).primed s.meridian.toNat
  pure (s3.onRegion o fun r => { r with loadedParcels := r.loadedParcels + 1 })

/-- `PARCEL_LOAD`: the next parcel of a region whose image has been taken loads the legend table, binds its tasks and primes
its delay nodes (R26, R223, R282). -/
def execParcelLoad (p : Nat) (s : State) : Host.Outcome State Fault Refusal :=
  match s.regionOf p with
  | none => .next s
  | some (o, r) =>
    if s.boot.phase ≠ .running || r.phase ≠ .loaded || p ≠ o + r.loadedParcels then .next s
    else .next (s.afterLoad o r (s.loadParcel o r p))

/-! ### Doorbells at the start (R28, R464) -/

/-- Something of the host that is dropped and logged (R463, R464, R466). -/
def State.logHost (s : State) (p : Nat) (value : Word) : State := s.log 4 0 p 0 value

/-- Where an `HIN` node for a doorbell stands in a region: parcel, cell and input queue (R288). -/
def State.ingressNode (s : State) (o : Nat) (r : Region) (db : Nat) : Option (Nat × Nat × Nat) :=
  ((regionParcels o r).flatMap fun p => (List.range 16).flatMap fun m => (s.cell p m).hinSlots.filterMap fun e =>
    if e.2.1 = db then some (p, m, e.2.2) else none).head?

/-- A doorbell write that no FIFO takes. -/
def State.dropDoorbell (s : State) (o : Nat) (value : Word) : State :=
  ({ s with host := { s.host with discarded := s.host.discarded + 1 } }).logHost o value

/-- The tokens held for doorbells that no `HIN` node of the image names are discarded. -/
def State.judgeDoorbells (s : State) (o : Nat) (r : Region) : State :=
  (List.range 64).foldl (fun (t : State) db =>
    if (s.ingressNode o r db).isSome then t
    else
      let t1 := (t.host.doorbells.look ([] : List Word) (o * 64 + db)).foldl (fun (t : State) v => t.dropDoorbell o v) t
      { t1 with host := { t1.host with doorbells := t1.host.doorbells.drop (o * 64 + db) } }) s

/-- `START_PACKET`: all parcels report loaded; the region runs, and `ch0` of every parcel that binds it gets the argument
block's address, the origin and the shape (R26, R27). -/
def execStartPacket (origin : Nat) (s : State) : Host.Outcome State Fault Refusal :=
  match s.regions.find origin with
  | none => .next s
  | some r =>
    if s.boot.phase ≠ .running || r.phase ≠ .loaded || r.loadedParcels ≠ 2 ^ r.shape then .next s
    else
      let w1 : Word := BitVec.ofNat 64 (origin + r.shape * 2 ^ 9)
      let s1 := (regionParcels origin r).foldl (fun (t : State) p =>
        if ((t.core p).channel 0).bound then t.post p 0 true r.arg w1 else t) s
      .next ((s1.judgeDoorbells origin r).onRegion origin fun r => { r with phase := .running, hang := 0, active := false })

end Sys2Proof.Machine
end

