-- ==== Sys2Proof/Machine/Host.lean ====
section
/-! DEFINITION. The host port: the three windows, doorbells and host ingress, completions of the device's own requests, and
the configuration space (R80, R288, R439, R462-R466). -/

namespace Sys2Proof.Machine

def State.answerHost (s : State) (a : HostAnswer) : State :=
  { s with host := { s.host with answers := s.host.answers ++ [a] } }

/-! ### Doorbells (R28, R80, R464) -/

/-- The region whose doorbells an origin names: the one that runs or loads there, or the kernel pre-empted from it. -/
def State.doorbellRegion (s : State) (o : Nat) : Option (Nat × Region) :=
  if 512 ≤ o then none else
  match s.regions.find o with
  | some r => some (o, r)
  | none => s.regions.find? fun e => e.2.phase = .held && s.formerOf e.2 = o

/-- `DOORBELL_WRITE`: 8 aligned bytes make one token in the doorbell's FIFO of 16 (R464). A region that is still loading has
its tokens judged against its image when it starts. -/
def execDoorbellWrite (off size : Nat) (value : Word) (s : State) : Host.Outcome State Fault Refusal :=
  let o := off / 0x1000
  let db := off % 0x1000 / 0x40
  match s.doorbellRegion o with
  | none => .next (s.dropDoorbell o value)
  | some (k, r) =>
    let loading : Bool := r.phase = .setup || r.phase = .loading || r.phase = .loaded
    let fifo := s.host.doorbells.look ([] : List Word) (k * 64 + db)
    if s.boot.phase ≠ .running || size ≠ 8 || off % 0x40 ≠ 0 || 16 ≤ fifo.length ||
        !(loading || (s.ingressNode k r db).isSome) then .next (s.dropDoorbell o value)
    else .next { s with host := { s.host with doorbells := s.host.doorbells.put (k * 64 + db) (fifo ++ [value]) } }

/-- A host-ingress token (R288). -/
def ingressToken (value : Word) : LinkWord :=
  ⟨value.setWidth 512, 3, 0, 0, 0, false, true, 6⟩

/-- `HOST_INGRESS_DELIVER`: the oldest token of a doorbell enters its `HIN` queue; a region that is being pre-empted keeps its
tokens for its restore (R464, R473). Every posted write is performed as it
enters the port, so those before the doorbell are (R80, R464). -/
def execHostIngressDeliver (origin db : Nat) (s : State) : Host.Outcome State Fault Refusal :=
  match s.regions.find origin, s.host.doorbells.look ([] : List Word) (origin * 64 + db) with
  | some r, v :: rest =>
    (match s.ingressNode origin r db with
     | none => .next s
     | some (p, m, q) =>
       if !s.enginesRun p || s.pausing p || !(s.cell p m).accepts q (ingressToken v) then .next s
       else
         let s1 : State := { s with host := { s.host with doorbells := s.host.doorbells.put (origin * 64 + db) rest } }
         .next (s1.enterQueue p m q (ingressToken v)))
  | _, _ => .next s

/-! ### The BARs (R463) -/

/-- Bytes of HBM behind BAR4. -/
def hbmBytes : Nat := 0xC000000000

/-- Whether the memory BARs beside BAR0 are there: not before firmware has started (R476). -/
def State.barsUp (s : State) : Bool := s.boot.phase = .running || s.boot.phase = .held

/-- What a host read of a BAR finds: the kick pages in BAR0, where another access than R439 gives and one in recovery is an
Unsupported Request (log 49); nothing in the doorbell aperture; HBM behind BAR4, at the device home (R439, R463, R476). -/
def State.hostRead (s : State) (bar off size : Nat) : HostAnswer :=
  match bar with
  | 0 => if !s.barsUp then .unsupported else
    match s.controlRead .host off size with
    | .ok bs => .data bs
    | .error _ => .unsupported
  | 4 => if s.barsUp && off + size ≤ hbmBytes then .data (s.homeRead off size) else .unsupported
  | _ => .unsupported

/-- `BAR4_READ`: HBM data at the device home, or Unsupported Request (R463). -/
def execBar4Read (off size : Nat) (s : State) : Host.Outcome State Fault Refusal := .next (s.answerHost (s.hostRead 4 off size))

/-- `BAR4_WRITE`: a write performed at the device home; one beyond HBM is discarded and logged (R463). -/
def execBar4Write (off : Nat) (bytes : List Byte) (s : State) : Host.Outcome State Fault Refusal :=
  .next (if !s.barsUp then s
    else if off + bytes.length ≤ hbmBytes then s.homeWrite off bytes else s.logHost 0 (BitVec.ofNat 64 off))

/-- `BAR2_READ` completes with Unsupported Request (R463). -/
def execBar2Read (off : Nat) (s : State) : Host.Outcome State Fault Refusal := .next (s.answerHost (s.hostRead 2 off 8))

/-- `HOST_ATOMICOP_REQUEST` completes with Unsupported Request (R462, R463). -/
def execHostAtomicopRequest (_bar _off : Nat) (s : State) : Host.Outcome State Fault Refusal :=
  .next (s.answerHost .unsupported)

/-! ### Completions (R124, R466) -/

/-- What ends a request to the host: its data, or a fault code. -/
abbrev HostResult := Except Byte (List Byte)

/-- The result of a completion: Unsupported Request has its own code for an AtomicOp (R466). -/
def hostResult (atomic : Bool) (status : CompletionStatus) (data : List Byte) : HostResult :=
  match status with
  | .success => .ok data
  | .poisoned => .error codeHostAbort
  | .aborted => .error codeHostAbort
  | .unsupported => .error (if atomic then codeHostUr else codeHostAbort)

def State.dropRequest (s : State) (tag : Nat) : State :=
  { s with host := { s.host with requests := s.host.requests.drop tag } }

/-- A core's instruction is over: its result is written, or it traps with the virtual address. The core of a stopped region
takes no answer until its region runs on (R104, R297, R466). -/
def State.coreAnswered (s : State) (tag p : Nat) (va : Word) (result : HostResult) (done : List Byte → State → State) :
    State :=
  if !s.coreRuns p then s else
  let s1 := (s.dropRequest tag).onCore p fun c => { c with waiting := none }
  match result with
  | .ok bs => (done bs s1).onCore p fun c => { c with pc := c.pc + 4 }
  | .error code => s1.trapEntry p code va 0 false

/-- The width of an atomic by its bytes. -/
def amoWidthOf (n : Nat) : AmoWidth := if n = 4 then .n32 else if n = 8 then .n64 else .n128

/-- The head of a port has its answer from the host: its response, the next node of its walk, or a late fault (R196). -/
def State.entryAnswered (s : State) (tag p m : Nat) (result : HostResult) : State :=
  match (s.cell p m).port with
  | [] => s.dropRequest tag
  | e :: _ =>
    if e.hostTag ≠ some tag then s.dropRequest tag
    else match result with
      | .error code => if s.takesLate p m then (s.dropRequest tag).lateFreeze p m e code e.va else s
      | .ok bs =>
        if !s.portRuns p m then s else
        let s1 := s.dropRequest tag
        match e.op with
        | .load t => s1.respond p m e (memWord t (bytesPayload bs))
        | .atom _ wide _ _ _ => s1.respond p m e (atomWord wide (Decode.leNat bs))
        | .walk t f o limit count =>
          if !(s.cell p m).walkRoom e count then s
          else
            let next := wordOf (slice bs (8 * f) 8) + o
            let last : Bool := next = 0 || count + 1 = limit
            s1.walkOn p m e t f o limit count { memWord t (bytesPayload bs) with last := last }
              (if last then none else some next)
        | _ => s1

/-- A request of the device ends (R466). -/
def State.hostEnds (s : State) (tag : Nat) (result : Bool → HostResult) : State :=
  match s.host.requests.find tag with
  | none => s.logHost 0 (BitVec.ofNat 64 tag)
  | some (.coreLoad p rd size signed va _) =>
    s.coreAnswered tag p va (result false) fun bs t => t.onCore p fun c => c.put rd (extend signed (bs.take size))
  | some (.coreAmo p rd size signed va _ _ _ _) =>
    s.coreAnswered tag p va (result true) fun bs t => t.amoResult p (amoWidthOf size) signed rd (Decode.leNat (bs.take size))
  | some (.cellEntry p m _) =>
    s.entryAnswered tag p m (result ((s.cell p m).port.head?.any fun e => match e.op with
      | .atom _ _ _ _ _ => true
      | _ => false))
  | some (.endAsk _ _ _ _ _) => s
  | some (.endDone _ _ _ _ _ _ _) => s

/-- Bytes that a request asks for. -/
def State.requestBytes (s : State) (tag : Nat) : Nat :=
  match s.host.requests.find tag with
  | some (.coreLoad _ _ size _ _ _) => size
  | some (.coreAmo _ _ size _ _ _ _ _ _) => size
  | some (.cellEntry p m _) => (match (s.cell p m).port.head? with
    | some e => (match e.op with
      | .atom _ wide _ _ _ => if wide then 8 else 4
      | _ => 64)
    | none => 0)
  | _ => 0

/-- `HOST_COMPLETION`: one that belongs to no outstanding request is discarded and logged; a successful one brings as many
bytes as were asked for (R466). -/
def execHostCompletion (tag : Nat) (status : CompletionStatus) (data : List Byte) (s : State) :
    Host.Outcome State Fault Refusal :=
  .next (if (s.host.requests.find tag).isSome && status = .success && data.length ≠ s.requestBytes tag then s
    else s.hostEnds tag fun atomic => hostResult atomic status data)

/-- `HOST_TIMEOUT`: no completion came within the timeout (R466). -/
def execHostTimeout (tag : Nat) (s : State) : Host.Outcome State Fault Refusal :=
  .next (if (s.host.requests.find tag).isSome then s.hostEnds tag fun _ => .error codeHostTimeout else s)

/-! ### The configuration space and the control range (R439, R441, R462, R465) -/

/-- `PCIE_CONFIGURATION_WRITE`: Device Control, at 0x08 of the PCI Express capability, gives Max Payload Size and Max Read Request
Size; of Device Control 2, at 0x28, bit 6 enables AtomicOp requests and bits 3:0 give the timeout range; the others, those of AER among
them, keep what is written (R462, R465, log 49). -/
def execPcieConfigurationWrite (reg : Nat) (value : Word) (s : State) : Host.Outcome State Fault Refusal :=
  let h := s.host
  .next { s with host :=
    if reg = 0x08 then { h with control := value.setWidth 16 }
    else if reg = 0x28 then { h with atomicEnable := wbit value 6, timeoutRange := value.extractLsb' 0 4 }
    else { h with registers := h.registers.put reg value } }

/-- `DEVICE_CONTROL_RANGE_WRITE`: by the Cartouche core or the debugger; a refused write of the debugger leaves its code
(R439, R441). -/
def execDeviceControlRangeWrite (off : Nat) (bytes : List Byte) (writer : Writer) (s : State) :
    Host.Outcome State Fault Refusal :=
  match s.controlWrite writer off bytes with
  | .ok s1 => .next s1
  | .error c => .next (if writer = .debugger then s.refuseDebug c else s)

end Sys2Proof.Machine
end

