-- ==== Sys2Proof/Machine/Shake.lean ====
section
/-! DEFINITION. SHAKE256 (R1, R476, R478). The manual names the function; its definition is FIPS 202 (log 7). -/

namespace Sys2Proof.Machine

/-- The feedback register that gives the bits of the round constants, as a polynomial over x^8 + x^6 + x^5 + x^4 + 1. -/
def keccakRegister : Nat → Nat
  | 0 => 1
  | t + 1 =>
    let v := 2 * keccakRegister t
    if v < 256 then v else v ^^^ 0x171
/-- The constant of a round: bit 2^j - 1 is the low bit of the register after 7 steps a round and j more. -/
def keccakConstant (round : Nat) : Word :=
  (List.range 7).foldl (fun w j => if keccakRegister (7 * round + j) % 2 = 1 then w ||| 1 <<< (2 ^ j - 1) else w) 0
/-- The constants of the 24 rounds. -/
def keccakConstants : List Word := (List.range 24).map keccakConstant

/-- The lane that comes `t` places after lane (1, 0) on the walk through the lanes beside (0, 0). -/
def keccakWalk : Nat → Nat × Nat
  | 0 => (1, 0)
  | t + 1 => ((keccakWalk t).2, (2 * (keccakWalk t).1 + 3 * (keccakWalk t).2) % 5)
/-- How far lane x + 5y is rotated: by the triangular number of its place on the walk, and lane (0, 0) not at all. -/
def keccakRotations : List Nat :=
  (List.range 25).map fun i => match (List.range 24).find? fun t => keccakWalk t = (i % 5, i / 5) with
    | some t => (t + 1) * (t + 2) / 2 % 64
    | none => 0

/-- The 25 lanes after a function of their coordinates. -/
def keccakLanes (f : Nat → Nat → Word) : List Word := (List.range 25).map fun i => f (i % 5) (i / 5)
/-- Lane (x, y), its coordinates taken modulo 5. -/
def keccakLane (a : List Word) (x y : Nat) : Word := a.getD (x % 5 + 5 * (y % 5)) 0

/-- One round of Keccak-f[1600]: theta, rho with pi, chi, iota. -/
def keccakRound (a : List Word) (rc : Word) : List Word :=
  let c := (List.range 5).map fun x => (List.range 5).foldl (fun w y => w ^^^ keccakLane a x y) 0
  let d := (List.range 5).map fun x => c.getD ((x + 4) % 5) 0 ^^^ (c.getD ((x + 1) % 5) 0).rotateLeft 1
  let b := keccakLanes fun x y =>
    let from_ := (x + 3 * y) % 5
    (keccakLane a from_ x ^^^ d.getD from_ 0).rotateLeft (keccakRotations.getD (from_ + 5 * x) 0)
  let e := keccakLanes fun x y => keccakLane b x y ^^^ (~~~(keccakLane b (x + 1) y) &&& keccakLane b (x + 2) y)
  e.set 0 (e.getD 0 0 ^^^ rc)
/-- The permutation Keccak-f[1600]. -/
def keccak (a : List Word) : List Word := keccakConstants.foldl keccakRound a

/-- Bytes that the sponge takes in at once. -/
def shakeRate : Nat := 136
/-- The message with SHAKE's suffix and the padding that fills its last block. -/
def shakePad (msg : List Byte) : List Byte :=
  let n := shakeRate - 1 - msg.length % shakeRate
  if n = 0 then msg ++ [0x9F] else msg ++ 0x1F :: List.replicate (n - 1) 0 ++ [0x80]
/-- Take one block in. -/
def shakeAbsorb (a : List Word) (block : List Byte) : List Word :=
  keccak (keccakLanes fun x y =>
    keccakLane a x y ^^^ BitVec.ofNat 64 (Decode.leNat ((block.drop (8 * (x + 5 * y))).take (min 8 (shakeRate - 8 * (x + 5 * y))))))
/-- SHAKE256 with an output of `n` bytes, at most one block of them. -/
def shakeBytes (n : Nat) (msg : List Byte) : List Byte :=
  let blocks := (List.range (msg.length / shakeRate + 1)).map fun i => ((shakePad msg).drop (shakeRate * i)).take shakeRate
  ((blocks.foldl shakeAbsorb (List.replicate 25 0)).flatMap fun w => Decode.leBytes 8 w.toNat).take n
/-- The 64-byte digest of a measurement (R478); its first byte is the least significant. -/
def shakeDigest (msg : List Byte) : BitVec 512 := BitVec.ofNat 512 (Decode.leNat (shakeBytes 64 msg))

end Sys2Proof.Machine
end

