-- ==== Sys2Proof/Machine/Link.lean ====
section
/-! DEFINITION. Receiving over MoLink: flits, replay, holes, end-to-end acknowledgement, lost ports and the configuration of
the torus (R467-R472). -/

namespace Sys2Proof.Machine

/-- `LINK_HOLE` in the field book (R469). -/
def State.logHole (s : State) (port : Nat) : State := s.log 3 codeLinkHole 0 0 (BitVec.ofNat 64 port)

/-- Send the retained packets of a source sequence again, with that sequence (R470). -/
def State.moResend (s : State) (seq : Nat) : State :=
  { s with link := (s.link.retained.filter fun k => k.seq = seq).foldl (fun (l : MoLink) k => l.transmit k) s.link }

/-- The destination's ingress agent has acknowledged a packet (R470). -/
def State.moFree (s : State) (dst seq : Nat) : State :=
  { s with link := { s.link with retained := s.link.retained.filter fun k => !(k.dst = dst && k.seq = seq) } }

/-! ### The sender's side of a port (R468, R469) -/

/-- Position of a sequence after another, modulo 4,096. -/
def seqAhead (from_ n : Nat) : Nat := (n + 4096 - from_ % 4096) % 4096

/-- Waiting flits take the places that acknowledged slots leave. -/
def LinkPort.fill (x : LinkPort) : LinkPort :=
  x.waiting.foldl (fun (y : LinkPort) f => y.put f) { x with waiting := [] }

/-- The flits up to an acknowledged sequence leave the replay buffer, and credits come back (R467, R468). -/
def LinkPort.acknowledged (x : LinkPort) (ack credits : Nat) : LinkPort :=
  let first := match x.replay with
    | f :: _ => f.seq
    | [] => x.sent
  let n := seqAhead first ack + 1
  let y := { x with credits := x.credits + credits }
  if n ≤ x.replay.length then { y with replay := x.replay.drop n }.fill else y

/-- A slot that must be sent again and cannot be read is sent as a hole; its tags' sources are told (R469). -/
def State.replaySlot (s : State) (port : Nat) (f : Flit) : State :=
  if f.kind ≠ .hole && Config.slotUnreadable (s.tick * 4096 + f.seq) then
    let hole : Flit := { f with kind := .hole, packets := [], cont := false }
    let s1 : State := { s with link := s.link.onPort port fun x =>
      { x with replay := x.replay.map (fun g => if g.seq = f.seq then hole else g), out := x.out ++ [hole] } }
    f.tags.foldl (fun (t : State) e =>
      if e.1 = t.link.number then t.moResend e.2 else t.moSend e.1 (.resend e.2)) (s1.logHole port)
  else { s with link := s.link.onPort port fun x => { x with out := x.out ++ [f] } }

/-- The sender begins to send its flits again from a sequence onward; a second request for that sequence is ignored while the
replay runs (R468, R473). -/
def LinkPort.replayFrom (x : LinkPort) (seq : Nat) : LinkPort :=
  let first := match x.replay with
    | f :: _ => f.seq
    | [] => x.sent
  match (x.replay.drop (seqAhead first seq)).map (·.seq) with
  | [] => x
  | l => if x.again.any fun r => r.1 = seq then x else { x with again := some (seq, l) }

def State.replayFrom (s : State) (port seq : Nat) : State :=
  { s with link := s.link.onPort port fun x => x.replayFrom seq }

/-- The next flit of a replay is sent (R468, R469). -/
def State.replayNext (s : State) (port : Nat) : State :=
  match (s.link.port port).again with
  | none => s
  | some (n, l) =>
    let s1 : State := { s with link := s.link.onPort port fun x => { x with again := some (n, l.drop 1) } }
    let s2 := match (s.link.port port).replay.find? fun f => l.head? = some f.seq with
      | some f => s1.replaySlot port f
      | none => s1
    { s2 with link := s2.link.onPort port fun x => { x with again := x.again.filter fun r => !r.2.isEmpty } }

/-- `REPLAY_REQUEST` (R468, R473). -/
def execReplayRequest (port seq : Nat) (s : State) : Host.Outcome State Fault Refusal := .next (s.replayFrom port seq)

/-- `RESEND_NOTICE` (R470). -/
def execResendNotice (_dest seq : Nat) (s : State) : Host.Outcome State Fault Refusal := .next (s.moResend seq)

/-- `PACKET_ACKNOWLEDGE` (R470). -/
def execPacketAcknowledge (dest seq : Nat) (s : State) : Host.Outcome State Fault Refusal := .next (s.moFree dest seq)

/-! ### The receiver's side (R467-R470) -/

/-- A packet for this device acts: once for each (source, sequence) (R303, R309, R470). -/
def State.packetActs (s : State) (k : MoPacket) : State :=
  match k.body with
  | .ask tag op h p port => { s with link := { s.link with asks := s.link.asks ++ [(tag, op, h, ⟨k.src, p, port⟩)] } }
  | .answer tag op h code value => s.endAnswer tag op h code value
  | .toHome x note => s.homeNote x note
  | .toPlace x note => s.placeNote x note
  | .write pa bytes => s.homeWrite pa bytes
  | .acknowledge seq => s.moFree k.src seq
  | .resend seq => s.moResend seq

/-- Whether a packet is an acknowledgement, which is not itself acknowledged. -/
def isAcknowledge : MoBody → Bool
  | .acknowledge _ => true
  | _ => false

/-- A packet has arrived: forwarded, or taken once and acknowledged (R470, R472). -/
def State.meetPacket (s : State) (k : MoPacket) : State :=
  if k.dst ≠ s.link.number then { s with link := s.link.transmit k }
  else if isAcknowledge k.body then s.packetActs k
  else
    let s1 := if (k.src, k.seq) ∈ s.link.accepted then s
      else ({ s with link := { s.link with accepted := s.link.accepted ++ [(k.src, k.seq)] } }).packetActs k
    s1.moSend k.src (.acknowledge k.seq)

/-- The receiver asks for the flits from the one it expects (R468). -/
def LinkPort.ask (x : LinkPort) : LinkPort := { x with out := x.out ++ [x.bare .replay x.expected] }

/-- Acknowledge the flit just accepted; after a hole the rest of a packet may still come. -/
def LinkPort.accept (x : LinkPort) (torn : Bool) : LinkPort :=
  let y := { x with torn := torn, expected := (x.expected + 1) % 4096 }
  { y with out := y.out ++ [y.bare .acknowledge 0] }

/-- The packets of a flit that are whole: the first that ends in it is not where it began in a hole or before one (R469). -/
def wholePackets (f : Flit) (torn : Bool) : List MoPacket := if torn && f.cont then f.packets.drop 1 else f.packets

/-- `FLIT_RECEIVE`: a flit is checked and accepted or dropped; packets with a byte in a hole are discarded (R467-R470). -/
def execFlitReceive (port : Nat) (flit : Flit) (s : State) : Host.Outcome State Fault Refusal :=
  let x := s.link.port port
  if s.boot.phase ≠ .running || !x.working then .next s
  else if !flit.crcOk then .next { s with link := s.link.onPort port LinkPort.ask }
  else
    let s1 : State := { s with link := s.link.onPort port fun x => x.acknowledged flit.ack flit.credits }
    match flit.kind with
    | .data =>
      if flit.seq ≠ x.expected then .next s1
      else .next ((wholePackets flit x.torn).foldl (fun (t : State) k => t.meetPacket k)
        { s1 with link := s1.link.onPort port fun y => y.accept (x.torn && flit.cont && flit.packets.isEmpty) })
    | .hole =>
      if flit.seq ≠ x.expected then .next s1
      else .next ({ s1 with link := s1.link.onPort port fun y => y.accept true }.logHole port)
    | .replay => .next (s1.replayFrom port flit.seq)
    | .acknowledge => .next s1
    | .idle => .next s1
    | .reserved => .next s1

/-! ### Lost ports and devices (R311, R470-R472) -/

/-- Whether a device is lost: another device to which no path has a working port. -/
def MoLink.lost (l : MoLink) (d : Nat) : Bool := d ≠ l.number && (l.route d).isNone

/-- What the loss of devices ends: end instructions that wait for an answer, and streams with an end or their home there
(R311). -/
def State.loseDevices (s : State) : State :=
  let dead := fun (l : EndLoc) => s.link.lost l.device
  let s1 := s.host.requests.foldl (fun (t : State) (e : Nat × HostRequest) => match e.2 with
    | .endAsk _ _ op h _ => if s.link.lost (handleDevice h) then t.endAnswer e.1 op h codeLinkHole 0 else t
    | _ => t) s
  s1.parcels.foldl (fun (t : State) (hp : Nat × Parcel) =>
    hp.2.ends.foldl (fun (t : State) (ne : Nat × EndStream) =>
      let homeLost := match foreignOf ne.1 with
        | some x => s.link.lost x.device
        | none => false
      t.killStream dead homeLost hp.1 ne.1 ne.2) t) s1

/-- A hop between other devices has no working port any more: what lies beyond it is lost (R472). -/
def State.hopDies (s : State) (hop : Nat × Nat) : State :=
  if hop.1 = s.link.number || s.boot.phase ≠ .running || s.link.devices ≤ hop.1 then s else
  State.loseDevices { s with link := { s.link with dead := s.link.dead ++ [hop] } }

/-- What the ports do as a step ends: replays go on, full ones send idle flits, and hops elsewhere fail (R468, R472). -/
def State.linkTurn (s : State) : State :=
  let s1 := s.link.ports.foldl (fun (t : State) (e : Nat × LinkPort) => t.replayNext e.1) s
  let s2 : State := { s1 with link := { s1.link with ports := s1.link.ports.each fun _ x => x.idle } }
  match Config.hopFails s.tick with
  | some hop => s2.hopDies hop
  | none => s2

/-- The spare that can stand in for a port: on the same die, cabled to the same neighbour, not in use and not failed itself
(R471). -/
def MoLink.spareOf (l : MoLink) (port : Nat) : Option Nat :=
  sparePorts.find? fun k => k / 8 = port / 8 && k ≠ port && !(l.port k).failed && (l.port k).spareFor.isNone && Config.spareCabled k port

/-- `PORT_RETRAIN_FAILURE`: firmware puts a spare in the port's place where one is cabled; unacknowledged packets are sent
again, and devices that no path reaches are lost (R470-R472). -/
def execPortRetrainFailure (port : Nat) (s : State) : Host.Outcome State Fault Refusal :=
  let x := s.link.port port
  if s.boot.phase ≠ .running || !x.working then .next s
  else
    let for_ := x.spareFor.getD port
    let packets := (x.replay ++ x.waiting).flatMap (·.packets)
    let failed := s.link.onPort port fun _ => { LinkPort.reset with failed := true, out := x.out }
    let l1 := match s.link.spareOf for_ with
      | some k => failed.onPort k fun y => { y with working := true, spareFor := some for_ }
      | none => failed
    let l2 := packets.foldl (fun (l : MoLink) k => l.transmit k) l1
    .next ({ s with link := l2 }).loseDevices

/-! ### The system configuration (R471) -/

/-- A size of one dimension. -/
def torusSize (n : Nat) : Bool := n ∈ ([1, 2, 4, 8, 16, 32] : List Nat)

/-- The bytes that index 3 measures: the shape and this device's number (R478, log 50). -/
def MoLink.measured (l : MoLink) : List Byte :=
  [l.shape.1, l.shape.2.1, l.shape.2.2, l.number].flatMap (Decode.leBytes 2)

/-- A measurement taken by the security engine (R478). -/
def State.measure (s : State) (index : Nat) (content : List Byte) : State :=
  { s with boot := { s.boot with measures := s.boot.measures.put index (shakeDigest content) } }

/-- The ports of the six directions train (R471). -/
def MoLink.train (l : MoLink) : MoLink :=
  ((List.range 16).filter (· ∉ sparePorts)).foldl (fun (l : MoLink) n =>
    l.onPort n fun x => { x with working := true, failed := false }) l

/-- `SYSTEM_CONFIGURATION`: firmware sets the shape and this device's number; the ports train, retained packets are sent
again, and index 3 is measured (R470, R471, R478). -/
def execSystemConfiguration (x y z number : Nat) (s : State) : Host.Outcome State Fault Refusal :=
  if s.boot.phase ≠ .running || !(torusSize x && torusSize y && torusSize z) || 16384 < x * y * z || x * y * z ≤ number
  then .next s
  else
    let l := { s.link with shape := (x, y, z), number := number, dead := [] }.train
    let l1 := l.retained.foldl (fun (l : MoLink) k => l.transmit k) l
    .next (({ s with link := l1 }).measure 3 l1.measured)

end Sys2Proof.Machine
end

