-- ==== Sys2Proof/Machine/Slh.lean ====
section
/-! DEFINITION. SLH-DSA-SHAKE-256s: making and checking a signature (R1, R476, R478). The manual names the scheme; its
definition is FIPS 205 (log 7). Strings are lists of bytes; n = 32, h = 64, d = 8, h' = 8, a = 14, k = 22, w = 16, m = 47. -/

namespace Sys2Proof.Machine

/-! ### Addresses and hash functions -/

/-- The 32-byte address of a hash call: layer, tree, type and the three words that the type gives a meaning. -/
structure SlhAddress where
  layer : Nat
  tree : Nat
  kind : Nat
  pair : Nat
  word2 : Nat
  word3 : Nat
  deriving DecidableEq, Repr

/-- The `n` big-endian bytes of a number. -/
def slhBytes (n x : Nat) : List Byte := (Decode.leBytes n x).reverse
/-- The number in big-endian bytes. -/
def slhNat (bs : List Byte) : Nat := Decode.leNat bs.reverse

def SlhAddress.bytes (a : SlhAddress) : List Byte :=
  slhBytes 4 a.layer ++ slhBytes 12 a.tree ++ slhBytes 4 a.kind ++ slhBytes 4 a.pair ++ slhBytes 4 a.word2 ++ slhBytes 4 a.word3

/-- The functions F, H, T and PRF: 32 bytes of hash of the public seed, an address and a message. -/
def slhHash (seed : List Byte) (a : SlhAddress) (msg : List Byte) : List Byte := shakeBytes 32 (seed ++ a.bytes ++ msg)

/-- `count` digits of `bits` bits each of a string, most significant first. -/
def slhDigits (bs : List Byte) (bits count : Nat) : List Nat :=
  let x := slhNat (bs.take ((bits * count + 7) / 8))
  let spare := (8 - bits * count % 8) % 8
  (List.range count).map fun i => x / 2 ^ (spare + bits * (count - 1 - i)) % 2 ^ bits

/-- Part `i` of a signature, 32 bytes each. -/
def slhPart (sig : List Byte) (i : Nat) : List Byte := (sig.drop (32 * i)).take 32

/-! ### WOTS+ -/

/-- The chaining function: `steps` hashes from place `start` on. -/
def wotsChain (seed : List Byte) (a : SlhAddress) (x : List Byte) (start : Nat) : Nat → List Byte
  | 0 => x
  | steps + 1 => slhHash seed { a with word3 := start + steps } (wotsChain seed a x start steps)

/-- The 67 digits that are signed: those of the message and of its checksum. -/
def wotsDigits (msg : List Byte) : List Nat :=
  let m := slhDigits msg 4 64
  m ++ slhDigits (slhBytes 2 ((m.foldl (fun n x => n + (15 - x)) 0) * 16)) 4 3

/-- The secret start of chain `i` of a key pair. -/
def wotsSecret (sk seed : List Byte) (a : SlhAddress) (i : Nat) : List Byte :=
  slhHash seed { a with kind := 5, word2 := i, word3 := 0 } sk

/-- The public key that closed chains stand for. -/
def wotsClose (seed : List Byte) (a : SlhAddress) (ends : List (List Byte)) : List Byte :=
  slhHash seed { a with kind := 1, word2 := 0, word3 := 0 } ends.flatten

def wotsKey (sk seed : List Byte) (a : SlhAddress) : List Byte :=
  wotsClose seed a ((List.range 67).map fun i => wotsChain seed { a with word2 := i } (wotsSecret sk seed a i) 0 15)

def wotsSign (msg sk seed : List Byte) (a : SlhAddress) : List Byte :=
  (wotsDigits msg).zipIdx.flatMap fun e => wotsChain seed { a with word2 := e.2 } (wotsSecret sk seed a e.2) 0 e.1

def wotsKeyOf (sig msg seed : List Byte) (a : SlhAddress) : List Byte :=
  wotsClose seed a ((wotsDigits msg).zipIdx.map fun e =>
    wotsChain seed { a with word2 := e.2 } (slhPart sig e.2) e.1 (15 - e.1))

/-! ### Trees -/

/-- A node of a Merkle tree at a height, over leaves that a function gives. -/
def slhNode (seed : List Byte) (a : SlhAddress) (leaf : Nat → List Byte) : Nat → Nat → List Byte
  | 0, i => leaf i
  | z + 1, i => slhHash seed { a with word2 := z + 1, word3 := i } (slhNode seed a leaf z (2 * i) ++ slhNode seed a leaf z (2 * i + 1))

/-- The root that a leaf and the siblings of its path lead to, from a height on. -/
def slhClimb (seed : List Byte) (a : SlhAddress) (idx : Nat) (node : List Byte) (height : Nat) : List (List Byte) → List Byte
  | [] => node
  | side :: rest =>
    let both := if idx / 2 ^ height % 2 = 0 then node ++ side else side ++ node
    slhClimb seed a idx (slhHash seed { a with word2 := height + 1, word3 := idx / 2 ^ (height + 1) } both) (height + 1) rest

/-- The siblings of a leaf's path. -/
def slhPath (seed : List Byte) (a : SlhAddress) (leaf : Nat → List Byte) (idx levels : Nat) : List (List Byte) :=
  (List.range levels).map fun z => slhNode seed a leaf z (idx / 2 ^ z ^^^ 1)

/-- The address of a key pair of an XMSS tree. -/
def xmssPair (layer tree idx : Nat) : SlhAddress := ⟨layer, tree, 0, idx, 0, 0⟩
/-- The address of the nodes of an XMSS tree. -/
def xmssTree (layer tree : Nat) : SlhAddress := ⟨layer, tree, 2, 0, 0, 0⟩

def xmssLeaf (sk seed : List Byte) (layer tree : Nat) (i : Nat) : List Byte := wotsKey sk seed (xmssPair layer tree i)

def xmssSign (msg sk seed : List Byte) (layer tree idx : Nat) : List Byte :=
  wotsSign msg sk seed (xmssPair layer tree idx) ++
    (slhPath seed (xmssTree layer tree) (xmssLeaf sk seed layer tree) idx 8).flatten

def xmssRootOf (sig msg seed : List Byte) (layer tree idx : Nat) : List Byte :=
  slhClimb seed (xmssTree layer tree) idx (wotsKeyOf sig msg seed (xmssPair layer tree idx)) 0
    ((List.range 8).map fun k => slhPart sig (67 + k))

/-! ### FORS -/

def forsSecret (sk seed : List Byte) (a : SlhAddress) (i : Nat) : List Byte :=
  slhHash seed { a with kind := 6, word2 := 0, word3 := i } sk
def forsLeaf (sk seed : List Byte) (a : SlhAddress) (i : Nat) : List Byte :=
  slhHash seed { a with word2 := 0, word3 := i } (forsSecret sk seed a i)

def forsSign (md sk seed : List Byte) (a : SlhAddress) : List Byte :=
  (slhDigits md 14 22).zipIdx.flatMap fun e =>
    let i := e.2 * 2 ^ 14 + e.1
    forsSecret sk seed a i ++ (slhPath seed a (forsLeaf sk seed a) i 14).flatten

def forsKeyOf (sig md seed : List Byte) (a : SlhAddress) : List Byte :=
  let roots := (slhDigits md 14 22).zipIdx.map fun e =>
    let i := e.2 * 2 ^ 14 + e.1
    slhClimb seed a i (slhHash seed { a with word2 := 0, word3 := i } (slhPart sig (15 * e.2))) 0
      ((List.range 14).map fun j => slhPart sig (15 * e.2 + 1 + j))
  slhHash seed { a with kind := 4, word2 := 0, word3 := 0 } roots.flatten

/-! ### The scheme -/

/-- A private key: its two secrets, the public seed and the root. -/
structure SlhKey where
  sk : List Byte
  prf : List Byte
  seed : List Byte
  root : List Byte
  deriving DecidableEq, Repr

/-- The key of three 32-byte seeds. -/
def slhKeyOf (sk prf seed : List Byte) : SlhKey :=
  ⟨sk, prf, seed, slhNode seed (xmssTree 7 0) (xmssLeaf sk seed 7 0) 8 0⟩

/-- What a message's digest selects: the bits that FORS signs, the tree and the leaf. -/
def slhSelect (r seed root msg : List Byte) : List Byte × Nat × Nat :=
  let digest := shakeBytes 47 (r ++ seed ++ root ++ msg)
  (digest.take 39, slhNat ((digest.drop 39).take 7), slhNat ((digest.drop 46).take 1))

/-- Tree and leaf of each layer of the hypertree. -/
def slhLayers (tree leaf : Nat) : List (Nat × Nat × Nat) :=
  (List.range 8).map fun j =>
    (j, tree / 2 ^ (8 * j), if j = 0 then leaf else tree / 2 ^ (8 * (j - 1)) % 2 ^ 8)

/-- The pure form of a message with an empty context. -/
def slhMessage (msg : List Byte) : List Byte := [0, 0] ++ msg

/-- Sign a message; `rand` are the 32 random bytes of the hedged form. -/
def slhSign (key : SlhKey) (rand msg : List Byte) : List Byte :=
  let m := slhMessage msg
  let r := shakeBytes 32 (key.prf ++ rand ++ m)
  let (md, tree, leaf) := slhSelect r key.seed key.root m
  let a : SlhAddress := ⟨0, tree, 3, leaf, 0, 0⟩
  let fors := forsSign md key.sk key.seed a
  let (sig, _) := (slhLayers tree leaf).foldl (fun (acc : List Byte × List Byte) e =>
    let x := xmssSign acc.2 key.sk key.seed e.1 e.2.1 e.2.2
    (acc.1 ++ x, xmssRootOf x acc.2 key.seed e.1 e.2.1 e.2.2)) (r ++ fors, forsKeyOf fors md key.seed a)
  sig

/-- Check a signature of a message by a public key, the public seed and the root. -/
def slhVerify (pub msg sig : List Byte) : Bool :=
  let m := slhMessage msg
  let seed := slhPart pub 0
  let (md, tree, leaf) := slhSelect (slhPart sig 0) seed (slhPart pub 1) m
  let a : SlhAddress := ⟨0, tree, 3, leaf, 0, 0⟩
  let top := (slhLayers tree leaf).foldl (fun node e =>
    xmssRootOf (sig.drop (32 * (331 + 75 * e.1))) node seed e.1 e.2.1 e.2.2)
    (forsKeyOf (sig.drop 32) md seed a)
  sig.length = 29792 && pub.length = 64 && top = slhPart pub 1

end Sys2Proof.Machine
end

