-- ==== Sys2Proof/Machine/Boot.lean ====
section
/-! DEFINITION. Boot, attestation, the fatal errors, power gating and the resets (R162, R405, R449, R476-R485). -/

namespace Sys2Proof.Machine

/-! ### Boot and measurement (R476-R478) -/

/-- The bytes that index 2 measures: the fused security version and the configuration fuses (R478, log 50). -/
def Boot.fuseBytes (b : Boot) : List Byte := Decode.leBytes 8 b.fused ++ b.fuses
/-- The bytes that index 4 measures: the configuration of the IDE streams (R478, log 50). -/
def Boot.ideBytes (b : Boot) : List Byte := b.ide.flatMap fun (e : Nat × Nat) => Decode.leBytes 1 e.1 ++ Decode.leBytes 8 e.2

/-- Whether an image carries the vendor's signature: its key is the one whose hash is fused, and the signature verifies (R476). -/
def Boot.signed (b : Boot) (image : List Byte) : Bool :=
  let (body, key, sig) := Config.imageParts image
  shakeDigest key = b.vendor && slhVerify key body sig

/-- Whether the ROM starts an image: its signature is the vendor's, and its version no lower than the fuses' (R476). -/
def State.imagePasses (s : State) (image : List Byte) : Bool :=
  s.boot.signed image && s.boot.fused ≤ Config.imageVersion image

/-- The ROM measures and starts an image (R476, R478). -/
def State.startImage (s : State) (image : List Byte) : State :=
  let s1 : State := { s with boot := { s.boot with phase := .running, image := image } }
  ((((s1.measure 0 s.boot.rom).measure 1 image).measure 2 s.boot.fuseBytes).measure 3 s.link.measured).measure 4
    s.boot.ideBytes

/-- The boot ROM: the image of the boot partition, or recovery (R476). -/
def State.bootRom (s : State) : State :=
  if s.imagePasses s.boot.flash then s.startImage s.boot.flash
  else { s with boot := { s.boot with phase := .recovery, image := [] } }

/-- What a reset leaves: the boot partition, the fuses and the ROM, the deep tier's flash, and the model's own count of
steps. -/
def State.afterReset (s : State) : State :=
  { State.reset with
    tick := s.tick, next := s.next, deep := s.deep
    boot := { Boot.reset with flash := s.boot.flash, rom := s.boot.rom, fuses := s.boot.fuses, fused := s.boot.fused,
                              vendor := s.boot.vendor, seed := s.boot.seed, certificate := s.boot.certificate } }

/-- `POWER_UP`: a cold power-up clears the field book and starts the boot ROM (R476, R483). -/
def execPowerUp (s : State) : Host.Outcome State Fault Refusal := .next s.afterReset.bootRom

/-- `DEVICE_RESET`: every register at its reset value, versions 0, segments ABSENT; the field book survives, and memory
keeps its bytes (R25, R62, R405, R476, R483, log 51). -/
def execDeviceReset (s : State) : Host.Outcome State Fault Refusal :=
  let s1 : State := { s.afterReset with mem := s.mem, book := s.book }
  .next ({ s1 with boot := { s1.boot with dump := s.boot.dump } } : State).bootRom

/-- `STAGED_IMAGE_LENGTH_WRITE`: in recovery the ROM checks the staged image and runs it; flash stays (R476). -/
def execStagedImageLengthWrite (image : List Byte) (len : Nat) (s : State) : Host.Outcome State Fault Refusal :=
  let staged := image.take len
  .next (if s.boot.phase = .recovery && len ≤ 0xFFFFF8 && s.imagePasses staged then s.startImage staged else s)

/-- `SECURITY_VERSION_RAISE`: firmware installs an image in the boot partition, its bytes a free value, and raises the fused
version, which never goes down; the running image and its measurements stay until reset (R476, R477, R485, log 14). -/
def execSecurityVersionRaise (version : Nat) (s : State) : Host.Outcome State Fault Refusal :=
  .next (if s.boot.phase = .running then { s with boot := { s.boot with
      fused := max s.boot.fused version, flash := Config.installedImage s.tick } }
    else s)

/-- The attestation key: derived from the identity key, which the fused seed gives, and the firmware measurement (R478). -/
def Boot.attestKey (b : Boot) : SlhKey :=
  let (sk, prf, seed) := Config.attestSeeds (Config.identitySeeds b.seed) (b.measures.look 0 1)
  slhKeyOf sk prf seed

/-- `SPDM_MEASUREMENT_REQUEST`: an answer with the measurement, the nonce and a signature by the attestation key (R478). -/
def execSpdmMeasurementRequest (index nonce : Nat) (s : State) : Host.Outcome State Fault Refusal :=
  match s.boot.measures.find index with
  | none => .next s
  | some d =>
    let sig := slhSign s.boot.attestKey (Config.signRandom s.tick) (Config.spdmMessage index d nonce)
    .next { s with boot := { s.boot with answers := s.boot.answers ++ [(index, d, nonce, sig)] } }

/-- `IDE_KEY_PROGRAMMING`: a selective IDE stream is configured, and index 4 measured again (R462, R478). -/
def execIdeKeyProgramming (stream config : Nat) (s : State) : Host.Outcome State Fault Refusal :=
  if 4 ≤ stream then .next s else
  let s1 : State := { s with boot := { s.boot with ide := s.boot.ide.put stream config } }
  .next (s1.measure 4 s1.boot.ideBytes)

/-! ### Errors (R479, R482, R483, R485) -/

/-- `REGION_FATAL_ERROR`: the region, running or saved, ends as by a fault; the others run on (R479, R485). On a held
device no region is left running (log 91). Its record's value is not stated. -/
def execRegionFatalError (origin : Nat) (code : Byte) (parcel : Nat) (s : State) : Host.Outcome State Fault Refusal :=
  let found : Option (Nat × Region) := match s.regions.find origin with
    | some r => some (origin, r)
    | none => s.regions.find? fun (e : Nat × Region) => e.2.phase = .held && s.formerOf e.2 = origin
  match found with
  | none => .next s
  | some (o, r) =>
    if s.boot.phase = .held || code.toNat < 0xF0 || 0xF7 < code.toNat then .next s
    else .next ((s.log 8 code parcel r.asid 0).endRegion o 2 code 0 parcel (Config.freeWord s.tick) true)

/-- The state that a dump copies (R482, R485). -/
def State.dumpNow (s : State) (code : Byte) : Dump :=
  { codes := [code], meridian := s.meridian, measurement := s.boot.measures.look 0 1,
    length := dumpTables + 4096 * (1 + Config.dumpTail s.tick), written := 0, book := s.book, parcels := s.parcels,
    slices := s.slices, queues := s.queues, sets := s.sets, segments := s.segments }

/-- Firmware begins a dump with its header and holds the device (R479, R482). -/
def State.beginDump (s : State) (d : Dump) : State :=
  ({ s with boot := { s.boot with phase := .held } } : State).dumpPage d 0

/-- `DEVICE_FATAL_ERROR`: every region stops, firmware begins the dump and holds the device; a second error stops the dump, whose
header then records both codes and the length written so far; one after it is logged (R479, R482, R483, R485). -/
def execDeviceFatalError (code : Byte) (s : State) : Host.Outcome State Fault Refusal :=
  if code.toNat < 0xF8 then .next s
  else
    let s1 := s.log 8 code 0 0 0
    match (if s.boot.phase = .held then s.boot.dump else none) with
    | some d => .next (if d.length ≤ d.written then s1 else
        s1.dumpHead { d with codes := d.codes ++ [code], length := d.written })
    | none => .next (s1.beginDump (s1.dumpNow code))

/-- `CORRECTED_SOFT_ERROR` (R483). -/
def execCorrectedSoftError (parcel : Nat) (value : Word) (s : State) : Host.Outcome State Fault Refusal :=
  let asid := match s.regionOf parcel with
    | some (_, r) => r.asid
    | none => 0
  .next (s.log 7 0 parcel asid value)

/-! ### Power gating (R162, R484) -/

/-- Whether a parcel belongs to no kernel: none runs or loads there, and none was pre-empted from it. -/
def State.parcelFree (s : State) (p : Nat) : Bool :=
  (s.regionOf p).isNone &&
  s.regions.all fun (e : Nat × Region) => !(e.2.phase = .held && s.formerOf e.2 ≤ p && p < s.formerOf e.2 + 2 ^ e.2.shape)

/-- `PARCEL_POWER_GATE`: firmware gates a parcel of a free region; its stations are applied to as before, but its wakeups
wait (R162, R484). -/
def execParcelPowerGate (p : Nat) (s : State) : Host.Outcome State Fault Refusal :=
  .next (if s.boot.phase = .running && p < 512 && s.parcelFree p then s.onParcel p fun x => { x with gated := true } else s)

/-- `PARCEL_WAKE` (R162, R484). -/
def execParcelWake (p : Nat) (s : State) : Host.Outcome State Fault Refusal := .next (s.wakeParcel p)

/-! ### The reset of one parcel (R162, R405, R449) -/

/-- Segments with bytes in a parcel become ABSENT (R405). -/
def State.loseSegments (s : State) (p : Nat) : State :=
  let gone := s.segments.filter fun e => segResident e.2 && !e.2.place.slice && e.2.firstParcel ≤ p &&
    p < e.2.firstParcel + 2 ^ e.2.place.j
  gone.foldl (fun (t : State) e =>
    ({ t with segments := t.segments.drop e.1 }).log 5 0 p e.2.asid e.2.name) s

/-- `PARCEL_RESET`: the parcel's state takes its reset values, the streams it holds or is home to lose it, segments in it
become ABSENT, dependences on its stations fail, and signals to it are dropped from then on (R162, R405, R449). -/
def execParcelReset (p : Nat) (s : State) : Host.Outcome State Fault Refusal :=
  if 512 ≤ p then .next s else
  let s1 := (s.killEnds (fun l => l.device = s.link.number && l.parcel = p) (fun h => h = p)).loseSegments p
  let s2 := s1.onParcel p fun x =>
    { Parcel.reset with endCount := x.endCount, ends := x.ends, gated := x.gated, wasReset := true }
  let s3 : State := { s2 with
    overlays := s2.overlays.filter fun v => v.parcel ≠ p
    publishes := s2.publishes.filter fun v => v.parcel ≠ p
    tiles := s2.tiles.filter fun v => v.parcel ≠ p
    flight := s2.flight.filter fun v => v.dest ≠ p
    compasses := s2.compasses.each fun _ c =>
      { query := c.query.filter fun q => q.opener ≠ p, returns := c.returns.filter fun e => e.1 ≠ p }
    provinces := s2.provinces.each fun _ v => { v with encQueue := v.encQueue.filter (· ≠ p) }
    heldWalks := s2.heldWalks.filter fun h => unitParcel h.1 ≠ some p
    holds := s2.holds.filter fun h => unitParcel h.unit ≠ some p
    tests := s2.tests.filter fun e => e.1 ≠ p
    host := { s2.host with requests := s2.host.requests.only fun _ q => q.parcel ≠ p } }
  .next (s3.launches.foldl (fun (t : State) (e : Nat × Launch) =>
    if !e.2.ready && !e.2.placed && e.2.depKind = 1 && wbits e.2.dep 8 0 = p
    then t.failDependence e.1 codeStationGone else t) s3)

end Sys2Proof.Machine
end

