-- ==== Sys2Proof/Machine/CellBlock.lean ====
section
/-! DEFINITION. Cell instructions: quantizing, dequantizing, scale lanes and width adapters (R276-R279). -/

namespace Sys2Proof.Machine

/-- The lanes that hold a code of block `j` at a code width (DEDUCED: an exception of a block marks these). -/
def blockLanes (w j : Nat) : BitVec 16 :=
  let n := w * blockLength w
  BitVec.ofNat 16 (packNat 1 ((List.range 16).map fun l =>
    if l < (n * (j + 1) + 31) / 32 && n * j < 32 * (l + 1) then 1 else 0))
/-- Replace `n` bits of a number from bit `lo`. -/
def putBits (x lo n v : Nat) : Nat := x % 2 ^ lo + v % 2 ^ n * 2 ^ lo + x / 2 ^ (lo + n) * 2 ^ (lo + n)

/-- The code width of a `BQ` width field. -/
def widthCode (n : Nat) : Nat := match n with | 0 => 4 | 1 => 6 | _ => 8

/-- `BQ`: the block's codes and scale byte go into the destination register; float sources are flushed where the
context asks for it (DEDUCED from R34). -/
def execBq (w : CellWord) (s : State) : Host.Outcome State Fault Refusal :=
  .next (s.fire 0xC0 w fun f => do
    let j := w.cf 0 2
    let wd := widthCode (w.cf 2 2)
    let kind := w.cf 4 2
    let st := match w.cf 6 2 with | 0 => 2 | 1 => 7 | _ => 8
    let a ← f.read w.a
    let b ← f.read w.b
    let fm := floatFmt st
    let part := fun (x : Source) => ((x.values st).zip (elemMask st x.ownMask)).map fun e =>
      if e.2 then fm.flush f.ftz (fm.decode e.1) else .fin false 0 0
    let q := quantize wd kind w.rnd 0 f.c.gen ((part a ++ part b).take (blockLength wd))
    let d := match w.dst with
      | .reg i => f.c.v[i.toNat]
      | _ => LaneReg.reset
    let tag := tagOfWidth wd
    let n := wd * blockLength wd
    let payload := if d.tag = tag then d.payload else 0
    let scale := if d.tag = tag then d.scale else 0
    f.conclude [(blockLanes wd j, q.flags)] q.gen
      (f.write (dataWord (BitVec.ofNat 512 (putBits payload.toNat (n * j) n (packNat wd q.codes)))
        (BitVec.ofNat 32 (putBits scale.toNat (8 * j) 8 q.scale)) tag)))

/-- A block word that an instruction reads. -/
def Firing.blockWord (f : Firing) (o : Operand) : Except CellStop Source := do
  let x ← f.read o
  if x.tag = 3 || x.tag = 4 || x.tag = 5 then .ok x else .error cellIllegal

/-- `BDQ`. -/
def execBdq (w : CellWord) (s : State) : Host.Outcome State Fault Refusal :=
  .next (s.fire 0xC1 w fun f => do
    let a ← f.blockWord w.a
    let j := w.cf 0 2
    let h := w.cf 2 1
    let wd := tagWidth a.tag.toNat
    if h = 1 && wd = 8 then .error cellIllegal else
    let len := blockLength wd
    let codes := ((wordCodes wd a.payload).drop (len * j)).take len
    let vals := ((codes.drop (16 * h)).take 16).map (blockValue wd 0 (scaleByte a.scale j))
    let out := vals.map fun v => (fmtF32.finish .rne false 0 v.1.pre).code
    let mask : BitVec 16 := BitVec.ofNat 16 (2 ^ vals.length - 1)
    let marks := elemMarks 2 (vals.map fun v => if v.2 then flagInvalid else 0)
    f.conclude marks f.c.gen (f.write (resultWord 2 out mask)))

/-- A scale byte with its exponent advanced, and whether the result left its range (R278). -/
def advanceScale (sh : Int) (b : Nat) : Nat × Bool :=
  let e : Int := (b % 64 : Nat)
  if b % 64 = 63 then (b, false)
  else if 0 ≤ e + sh && e + sh ≤ 62 then (b / 64 * 64 + (e + sh).toNat, false)
  else (b / 64 * 64 + 63, true)

/-- `SCLB`. -/
def execSclb (w : CellWord) (s : State) : Host.Outcome State Fault Refusal :=
  .next (s.fire 0xC2 w fun f => do
    let a ← f.blockWord w.a
    let wd := tagWidth a.tag.toNat
    match w.cf 0 2 with
    | 0 => .ok (f.write (dataWord (pack 32 ((List.range 4).map (scaleByte a.scale))) 0xF 0))
    | op =>
      let b ← f.read w.b
      if !b.ownMask.getLsbD 0 then .error cellIllegal else
      let v := laneOf b.payload 0
      if op = 1 then
        .ok (f.write (dataWord a.payload (BitVec.ofNat 32 (putBits a.scale.toNat (8 * w.cf 2 2) 8 v.toNat)) a.tag))
      else
        let r := (List.range 4).map fun j => advanceScale v.toInt (scaleByte a.scale j)
        let marks := r.zipIdx.map fun e => (blockLanes wd e.2, if e.1.2 then flagInvalid else (0 : FFlags))
        f.conclude marks f.c.gen
          (f.write (dataWord a.payload (BitVec.ofNat 32 (packNat 8 (r.map (·.1)))) a.tag)))

/-! ### Width adapters (R50, R279) -/

/-- The code and type widths of a direction: input and output. -/
def wadpWidths (dir : Nat) : Nat × Nat :=
  match dir with
  | 0 => (4, 8) | 1 => (8, 4) | 2 => (4, 6) | _ => (6, 4)
/-- The 8-bit type that a 4-bit type becomes (R50). -/
def widerType (ty : Nat) : Nat := match ty with | 0 => 0 | 3 => 0 | _ => 1
/-- A 4-bit code as the code of the same value in the wider type. -/
def widerCode (ty c : Nat) : Nat :=
  match blockCode 4 ty c with
  | .fin n m x => (nearestCode 8 (widerType ty) .rne 0 n m x).1
  | _ => 0

/-- Blocks quantized one after another: scale byte, codes and flags of each, and the generator after them. -/
def requantize (w ty : Nat) (mode : Rounding) : List (List FVal) → BitVec 32 → List Quantized × BitVec 32
  | [], g => ([], g)
  | b :: bs, g =>
    let q := quantize w ty mode 0 g b
    let r := requantize w ty mode bs q.gen
    (q :: r.1, r.2)

/-- The word of four blocks. -/
def blocksWord (w : Nat) (scales : List Nat) (codes : List Nat) : LinkWord :=
  dataWord (BitVec.ofNat 512 (packNat w codes)) (BitVec.ofNat 32 (packNat 8 scales)) (tagOfWidth w)

/-- The words of its queue that a width adapter reads, each with the input tag. -/
def Firing.adapterWords (f : Firing) (tag : BitVec 4) : Except CellStop (List LinkWord) :=
  match f.w.a with
  | .iq q _ =>
    let span := wadpSpan f.w
    ((List.range (span.2 + 1)).drop span.1).mapM fun i => do
      let x ← f.read (.iq q (BitVec.ofNat 3 i))
      if x.tag = tag then .ok x.link else .error cellIllegal
  | _ => .ok []

/-- `WADP`. -/
def execWadp (w : CellWord) (s : State) : Host.Outcome State Fault Refusal :=
  .next (s.fire 0xC3 w fun f => do
    let m := w.cf 0 3
    let dir := w.cf 3 2
    let kind := w.cf 5 2
    let (iw, ow) := wadpWidths dir
    let words ← f.adapterWords (tagOfWidth iw)
    if dir = 0 then
      let x := words.headD (dataWord 0 0 0)
      let src := (((wordCodes 4 x.payload).zipIdx).drop (64 * m)).take 64
      let codes := src.map fun e => widerCode (scaleByte x.scale (e.2 / 32) / 64) e.1
      let scales := (List.range 4).map fun j =>
        let sb := scaleByte x.scale (2 * m + j / 2)
        widerType (sb / 64) * 64 + sb % 64
      .ok (f.write (blocksWord 8 scales codes))
    else
      let vals := words.flatMap fun x => wordValues iw 0 x.payload x.scale
      let first := codesPerWord ow * m - codesPerWord iw * (wadpSpan w).1
      let used := (vals.drop first).take (codesPerWord ow)
      let len := blockLength ow
      let blocks := (List.range 4).map fun j => ((used.drop (len * j)).take len)
      let r := requantize ow kind w.rnd (blocks.map fun b => b.map (·.1)) f.c.gen
      let marks := (r.1.zip blocks).zipIdx.map fun e =>
        (blockLanes ow e.2, e.1.1.flags ||| (if e.1.2.any (·.2) then flagInvalid else 0))
      f.conclude marks r.2
        (f.write (blocksWord ow (r.1.map (·.scale)) (r.1.flatMap (·.codes)))))

end Sys2Proof.Machine
end

