-- ==== Sys2Proof/Machine/CellQueue.lean ====
section
/-! DEFINITION. Cell instructions: queue operations (R247-R251). -/

namespace Sys2Proof.Machine

/-- `ENQ`: a queue source passes on its token fields; bit 0 of C sets the last bit (DEDUCED: a source's own last bit
stays set, as in `MOV`). -/
def execEnq (w : CellWord) (s : State) : Host.Outcome State Fault Refusal :=
  .next (s.fire 0x60 w fun f => do
    let x ← f.read w.a
    let l := { x.link with last := x.link.last || w.c.getLsbD 0 }
    .ok (f.write (if w.c.getLsbD 1 then { l with token := true, kind := BitVec.ofNat 5 (w.cf 2 5) } else l)))

/-- `DEQ`: a move whose own pop empties the queue up to the word read (`ownPops`). -/
def execDeq (w : CellWord) (s : State) : Host.Outcome State Fault Refusal :=
  .next (s.fire 0x61 w fun f => do
    let x ← f.read w.a
    f.move x.link)

/-- `ADV`: pops of the input form come from `ownPops`; the output form pushes pad words. -/
def execAdv (w : CellWord) (s : State) : Host.Outcome State Fault Refusal :=
  .next (s.fire 0x62 w fun f =>
    match w.dst with
    | .oq q => .ok { f.quiet with pushes := List.replicate (w.cf 0 4) (q, zeroWord, false) }
    | _ => .ok f.quiet)

/-- `PEEK`: the sideband and payload lane 0 of a queue word, whatever it is. -/
def execPeek (w : CellWord) (s : State) : Host.Outcome State Fault Refusal :=
  .next (s.fire 0x63 w fun f =>
    let x := (f.raw w.a).link
    .ok (f.write (resultWord 1 [sideband x / 2 ^ 32, x.scale.toNat, (laneOf x.payload 0).toNat] 0xFFFF)))

/-- `QSTAT`: the words in the places of each queue, a stop token among them; the current context is the one that fires, a
follower's its head's (R188, R192, R251). A place that a memory read reserves holds no word yet. -/
def execQstat (w : CellWord) (s : State) : Host.Outcome State Fault Refusal :=
  .next (s.fire 0x64 w fun f =>
    let places := fun (q : BitVec 2) =>
      let o := f.c.oq[q.toNat]
      8 + f.c.depth q - (o.words.length + o.delay.length + (o.waiting.filter Option.isSome).length)
    .ok (f.write (resultWord 1 (queues4.map (fun q => f.c.iq[q.toNat].words.length) ++ queues4.map places ++
      [f.c.named.toNat, f.t.ctx]) 0xFFFF)))

end Sys2Proof.Machine
end

