-- ==== Sys2Proof/Machine/Debug.lean ====
section
/-! DEFINITION. The debugger `swdbg`: its run control, breakpoints and prints (R297, R298, R361, R461, R474). -/

namespace Sys2Proof.Machine

/-- The region that the session runs. -/
def State.session (s : State) : Option (Nat × Region) :=
  s.debugger.launch.bind fun k => s.regions.find? fun (e : Nat × Region) => e.2.launch = k

/-- The parcel whose task is stopped. -/
def State.stoppedTask (s : State) : Option Nat :=
  match s.debugger.stop with
  | some (.task p _) => some p
  | some (.promise p _) => some p
  | _ => none

/-! ### Run control (R297, R298) -/

/-- The launch that the session names, with the up to 8 segment names of its kernel (R298, R424, log 52). -/
def State.sessionLaunch (s : State) : Launch :=
  match s.debugger.session with
  | some l => l
  | none =>
    let (image, arg, record, save, asid, shape) := Config.session s.tick
    { queue := 0, asid := BitVec.ofNat 14 asid, shape := shape % 10, priority := 0, preemptive := false, image := image,
      arg := arg, record := record, depKind := 0, dep := 0, save := save, ways := (0, 0, 0), names := ((Config.sessionNames s.tick).filter (· ≠ 0)).take 8, ready := true,
      order := 0, age := 0, placed := false, former := none, block := none }

/-- `run`: the session's kernel is launched; one that the session already runs goes on (R298). -/
def execDebugRun (s : State) : Host.Outcome State Fault Refusal :=
  if s.debugger.launch.isSome then .next s else
  let k := s.launchCount
  let l := { s.sessionLaunch with ready := true, order := s.tick, age := 0, placed := false }
  .next { s with
    launches := s.launches.put k l
    launchCount := k + 1
    debugger := { s.debugger with launch := some k, stop := none, stepping := false } }

/-- The parcels of the regions that a breakpoint has stopped. -/
def State.stoppedParcels (s : State) : List Nat :=
  s.regions.flatMap fun (e : Nat × Region) => if e.2.debugStop then regionParcels e.1 e.2 else []

/-- `cont`: what a breakpoint stopped runs again; wakeups whose time passed fire now, and a held kick reaches its strip (R297,
R298, R461). -/
def execDebugCont (s : State) : Host.Outcome State Fault Refusal :=
  let mine := s.stoppedParcels
  if mine.isEmpty && s.debugger.held.isEmpty then .next s else
  let s1 := mine.foldl (fun (t : State) p => t.onCore p fun c => c.rearm s.meridian) s
  let s2 : State := { s1 with
    regions := s1.regions.each fun _ r => { r with debugStop := false }
    debugger := { s1.debugger with stop := none, stepping := false, held := [] } }
  let s3 := mine.foldl (fun (t : State) p => if (t.parcel p).gated then t else t.pollWakes p) s2.lateAnswers
  .next (s.debugger.held.foldl (fun (t : State) e =>
    t.strip e.1 e.2.1 (e.2.2.map fun p => (p, (t.core p).asid))) s3)

/-- `step`: the stopped task executes one instruction, or the stopped cell makes one firing (R298). An answer that the task
waited for during the stop reaches it now. -/
def execDebugStep (s : State) : Host.Outcome State Fault Refusal :=
  let place := match s.stoppedTask with
    | some p => some (.task p (s.core p).pc)
    | none => s.debugger.stop
  .next (if s.stoppedParcels.isEmpty then s
    else State.lateAnswers { s with debugger := { s.debugger with stop := place, stepping := true } })

/-! ### Breakpoints (R297, R298, R461) -/

/-- Set a breakpoint. -/
def State.addBreak (s : State) (b : Break) : State :=
  { s with debugger := { s.debugger with breaks := s.debugger.breaks ++ [b] } }

/-- `break task`. -/
def execBreakTask (ch : Nat) (s : State) : Host.Outcome State Fault Refusal := .next (s.addBreak (.task ch))
/-- `break cell`; the parcel is region-relative. -/
def execBreakCell (p m slot : Nat) (s : State) : Host.Outcome State Fault Refusal := .next (s.addBreak (.cell p m slot))
/-- `break fault`. -/
def execBreakFault (s : State) : Host.Outcome State Fault Refusal := .next (s.addBreak .fault)
/-- `break promise`. -/
def execBreakPromise (s : State) : Host.Outcome State Fault Refusal := .next (s.addBreak .promise)
/-- `break kick` (R461). -/
def execBreakKick (q : Nat) (s : State) : Host.Outcome State Fault Refusal := .next (s.addBreak (.kick q))

/-! ### Prints (R298, R361, R474) -/

/-- `print xN`: a register of the stopped task's core. -/
def execPrintRegister (n : Nat) (s : State) : Host.Outcome State Fault Refusal :=
  match s.stoppedTask with
  | none => .next s
  | some p => .next (s.say (.value "x" n ((s.core p).get (BitVec.ofNat 5 n))))

/-- `print` of a control register (R474). -/
def execPrintControlRegister (num : Nat) (s : State) : Host.Outcome State Fault Refusal :=
  match s.stoppedTask with
  | none => .next s
  | some p => match s.csrRead p num with
    | some v => .next (s.say (.value "control" num v))
    | none => .next s

/-- The region-relative number of a parcel, as the debugger prints it. -/
def State.relative (s : State) (p : Nat) : Nat :=
  match s.regionOf p with
  | some (o, _) => p - o
  | none => p

/-- `print vN`: a lane register with its format tag, of the cell of the last stop that named one. -/
def execPrintLaneRegister (n : Nat) (s : State) : Host.Outcome State Fault Refusal :=
  let (p, m) := s.debugger.lastCell
  let v := (s.cell p m).v.toList.getD n LaneReg.reset
  .next (if n < 16 then s.say (.lanes (s.relative p) m n v.payload v.tag) else s)

/-- `print k`. -/
def execPrintPredicates (s : State) : Host.Outcome State Fault Refusal :=
  let (p, m) := s.debugger.lastCell
  .next (s.say (.preds (s.relative p) m (s.cell p m).k))

/-- `print wN`: a window register of the stopped task's parcel, or of the origin: its raw value, then its fields (R346, R361). -/
def execPrintWindowRegister (n : Nat) (s : State) : Host.Outcome State Fault Refusal :=
  match s.session with
  | none => .next s
  | some (o, _) =>
    let p := s.stoppedTask.getD o
    let w := (s.parcel p).windows.toList.getD n 0
    .next (if n < 8 then s.say (.window n w (wbit w 63) (wbits w 62 53) (wbits w 52 31) (wbits w 30 28) (wbits w 27 12)
      (wbits w 11 0)) else s)

/-- Print one line for each of some things of the session's region. -/
def State.sayAll (s : State) (f : Nat → Region → List Printed) : State :=
  match s.session with
  | none => s
  | some (o, r) => (f o r).foldl (fun (t : State) x => t.say x) s

/-- `show queues`: the cells that hold a word or have fired. -/
def execShowQueues (s : State) : Host.Outcome State Fault Refusal :=
  .next (s.sayAll fun o r => (regionParcels o r).flatMap fun p =>
    ((s.parcel p).cells.filter fun (e : Nat × Cell) => e.2.holdsWord || e.2.fired).map fun e =>
      let c := e.2
      .cell (p - o) e.1 c.mode c.fireCtx c.fireSlot c.k
        (c.iq.toList.map (·.words.length) ++ c.oq.toList.map fun q => q.words.length + q.delay.length))

/-- `show buffers`: the entries that are not FREE. -/
def execShowBuffers (s : State) : Host.Outcome State Fault Refusal :=
  .next (s.sayAll fun o r => (regionParcels o r).flatMap fun p =>
    ((s.parcel p).buffers.filter fun (e : Nat × BitVec 128) => bufState e.2 ≠ 0).map fun e => .buffer (p - o) e.1 e.2)

/-- `show stations`: the stations that `STN.INIT` has initialised (R298). -/
def execShowStations (s : State) : Host.Outcome State Fault Refusal :=
  .next (s.sayAll fun o r => (regionParcels o r).flatMap fun p =>
    (s.parcel p).inits.map fun n => .station (p - o) n (s.station p n))

/-- `show streams`: the slots that are not free. -/
def execShowStreams (s : State) : Host.Outcome State Fault Refusal :=
  .next (s.sayAll fun o r => (regionParcels o r).flatMap fun p =>
    ((s.parcel p).streams.filter fun (e : Nat × Stream) => e.2.state ≠ 0).map fun e =>
      .stream (p - o) e.1 e.2.status (wbits e.2.control 9 0))

/-- `show compass`: the open query of each sheet of the region, as `CP.OBS` reads it (R381). -/
def execShowCompass (s : State) : Host.Outcome State Fault Refusal :=
  .next (s.sayAll fun o r =>
    ((s.compasses.filter fun (e : Nat × Compass) => o < 4 * e.1 + 4 && 4 * e.1 < o + 2 ^ r.shape)).filterMap
      fun (e : Nat × Compass) => e.2.query.map fun q =>
        .compass e.1 (q.slots.map (fun x => q.observation x.1) ++
          [BitVec.ofNat 64 (q.records.filter fun x => x.away.isNone).length,
           BitVec.ofNat 64 (q.records.filter fun x => x.away.isSome).length] ++
          [8, 9, 10, 11, 12].map q.observation))

/-- `show segments`: the segments of the region's ASID (R404). -/
def execShowSegments (s : State) : Host.Outcome State Fault Refusal :=
  .next (s.sayAll fun o r =>
    (s.segments.filter fun (e : Nat × Segment) => e.2.asid = r.asid).map fun e => .segment e.2.name (e.2.status (some o)))

/-- `show queue` (R461). -/
def execShowQueue (q : Nat) (s : State) : Host.Outcome State Fault Refusal :=
  let x := s.shadow q
  let user := match frontRead (q % 8) x.asid.toNat x.user 16 s with
    | .ok bs _ => bs
    | .error _ _ => []
  .next (s.say (.queue q x (BitVec.ofNat 32 (field user 8 4)) (BitVec.ofNat 32 (field user 0 4))))

/-- `meridian`. -/
def execPrintMeridian (s : State) : Host.Outcome State Fault Refusal := .next (s.say (.value "meridian" 0 s.meridian))

end Sys2Proof.Machine
end

