-- ==== Sys2Proof/Machine/Project.lean ====
section
/-! DEFINITION. The walker service: invalidates, probes, duplication and collapse of pages, and the instructions of engine 9
(R410, R414, R416, R417, R420). -/

namespace Sys2Proof.Machine

/-- Write a table entry at `.d` (R408, R417). -/
def State.writeLeaf (s : State) (at_ : Nat) (e : BitVec 128) : State := s.homeWrite at_ (Decode.leBytes 16 e.toNat)

/-- An invalidate is performed: translations of its pages go from every cluster, from the run-ahead and from the instruction
caches of the address space; then what was held at those pages walks again (R416, R420). -/
def State.performInvalidate (s : State) (v : Invalidate) : State :=
  (s.dropTranslations v.asid.toNat v.first v.pages).resumeFront v.asid.toNat v.first v.pages

/-- `PROJ.INV` (R420). -/
def execProjInv (ra rb : Reg) (s : State) : Host.Outcome State Fault Refusal :=
  s.attempt (.projInv ra rb) 9 do
    let a := s.reg ra
    let b := s.reg rb
    check (wbits b 23 20 = 0 && wbits b 63 31 = 0 && (wbits b 19 0 ≠ 0 || a = 0)) codeIllegal 0
    check (wbits a 11 0 = 0) codeMisaligned a
    let (_, r) ← myRegion
    issueRelease .d
    let v : Invalidate := ⟨s.here, r.asid, a.toNat, wbits b 19 0, wbits b 29 24, wbit b 30, none, 0, 0, false, true⟩
    modify fun t => { t with invalidates := t.invalidates ++ [v] }
    proceed

/-- `PROJ.PROBE` (R420). -/
def execProjProbe (rd ra rb : Reg) (s : State) : Host.Outcome State Fault Refusal :=
  s.attempt (.projProbe rd ra rb) 9 do
    let a := s.reg ra
    let b := s.reg rb
    check (b.toNat < 3) codeIllegal 0
    let (x, s1) := s.probe (.core s.here) a (match b.toNat with | 0 => .read | 1 => .write | _ => .fetch)
    set s1
    let nr := fun (v : Nat) => modify fun (t : State) => t.onCore s.here fun c => { c with flags := setF c.flags 1 1 v }
    match x with
    | none => do
      nr 1
      proceed
    | some (code, size, pa) => do
      nr 0
      finish rd (BitVec.ofNat 64 (code.toNat * 2 ^ 56 + size * 2 ^ 48 + pa))

/-- The leaf of a page as `PAGE.DUP` finds it, and where its entry stands. -/
def State.dupLeaf (s : State) (asid : BitVec 14) (va : Word) : Option (BitVec 128 × Nat × Nat) :=
  if wbits va 63 56 ≠ 0 then none else s.walk asid.toNat va.toNat

/-- `PAGE.DUP` (R420): the leaf is marked migrating, and the first invalidate begins. -/
def execPageDup (ra rb : Reg) (s : State) : Host.Outcome State Fault Refusal :=
  s.attempt (.pageDup ra rb) 9 do
    let a := s.reg ra
    let b := s.reg rb
    check (wbits b 14 7 = 0 && wbits b 63 48 = 0) codeIllegal 0
    check (wbits a 11 0 = 0) codeMisaligned a
    let (_, r) ← myRegion
    match s.dupLeaf r.asid a with
    | none => raise codeAbsent a
    | some (e, size, at_) => do
      let f := wbits b 47 12
      check (size = 12 && leafKind e = 0 && e.getLsbD 3 && ((List.range 8).all fun i => placeOf ((f + i) * 4096) = .hbm))
        codePermission a
      check (leafAllows .write (some r.identity) e = none) codeIdentity a
      check (!leafDup e && !leafMigrating e && !(s.invalidates.any fun v => v.dup.isSome && v.asid = r.asid && v.first = a.toNat))
        codeBufferState a
      issueRelease .d
      modify fun t => t.writeLeaf at_ (setF e 12 12 1)
      let v : Invalidate := ⟨s.here, r.asid, a.toNat, 1, wbits b 5 0, wbit b 6, some f, at_, e, false, true⟩
      modify fun t => { t with invalidates := t.invalidates ++ [v] }
      proceed

/-- The arrival of a finished invalidate or duplication. -/
def State.invalidateOver (s : State) (k : Nat) (v : Invalidate) : State :=
  let s1 : State := { s with invalidates := s.invalidates.eraseIdx k }
  if v.count then s1.sendArrival v.parcel v.station 9 0 else s1

/-- `INVALIDATE_COMPLETE`: every acknowledgement of an invalidate has arrived; a duplication goes on to its copy
(R420). -/
def execInvalidateComplete (k : Nat) (s : State) : Host.Outcome State Fault Refusal :=
  match s.invalidates[k]? with
  | none => .next s
  | some v =>
    let s1 := s.performInvalidate v
    if v.dup.isSome then
      .next (if v.copying then s else { s1 with invalidates := s1.invalidates.set k { v with copying := true } })
    else .next (s1.invalidateOver k v)

/-- Copy a page into a frame with its sectors' versions (R420). -/
def State.copyPage (s : State) (src dst : Nat) : State :=
  let s1 : State := { s with mem := s.mem.write dst (s.mem.bytes src 4096) }
  (List.range 128).foldl (fun (t : State) i =>
    { t with versions := t.versions.put (dst / 32 + i) (t.versions.look 0 (src / 32 + i)) }) s1

/-- A fault during the copy of a duplication: the old leaf stands again, and the issuing core is told (R420). -/
def State.failDup (s : State) (k : Nat) (v : Invalidate) (code : Byte) : State :=
  let s1 := (s.writeLeaf v.leaf v.old).performInvalidate v
  let s2 : State := { s1 with invalidates := s1.invalidates.eraseIdx k }
  if v.told then s2.report v.parcel code 9 0 none (BitVec.ofNat 64 v.first) else s2

/-- `PAGE_DUP_COMPLETE`: the page is copied into its eight frames, the leaf is written, the second invalidate is performed,
and the arrival is made; a page that its table no longer maps is a fault during the copy (R420). -/
def execPageDupComplete (k : Nat) (s : State) : Host.Outcome State Fault Refusal :=
  match s.invalidates[k]? with
  | none => .next s
  | some v =>
    match v.dup, v.copying, s.dupLeaf v.asid (BitVec.ofNat 64 v.first) with
    | some f, true, some (e, _, at_) =>
      let s1 := (List.range 8).foldl (fun t i => t.copyPage (leafFrame e * 4096) ((f + i) * 4096)) s
      let s2 := s1.writeLeaf at_ (setF (setF (setF e 115 64 f) 11 11 1) 12 12 0)
      .next ((s2.performInvalidate v).invalidateOver k v)
    | some _, true, none => .next (s.failDup k v codeAbsent)
    | _, _, _ => .next s

/-- `COLLAPSE`: the oldest request for a read-duplicated page makes it a single frame, the replica of the requester's
province; then what was held at the page goes on (R417). -/
def execCollapse (asid va prov : Nat) (s : State) : Host.Outcome State Fault Refusal :=
  let page := va / 4096 * 4096
  match s.collapses.find? fun x => x.1 = asid && x.2.1 = page with
  | none => .next s
  | some x =>
    if x.2.2 ≠ prov then .next s
    else
      let s1 : State := { s with collapses := s.collapses.filter fun y => !(y.1 = asid && y.2.1 = page) }
      match s1.walk asid page with
      | some (e, _, at_) =>
        if leafDup e && !leafMigrating e then
          .next ((((s1.dropTranslations asid page 1).writeLeaf at_ (setF (setF e 115 64 (leafFrame e + prov)) 11 11 0))).resumeFront
            asid page 1)
        else .next s1
      | none => .next s1

/-- `TABLE_WALK`: the walker's run-ahead completes a walk for a province's cluster, for every region of the address space
that has a partition there; a fault is not kept (R410, R414). -/
def execTableWalk (prov asid va : Nat) (s : State) : Host.Outcome State Fault Refusal :=
  let mine := (s.regions.filter fun (e : Nat × Region) =>
    e.2.phase ≠ .held && e.2.asid.toNat = asid && e.1 / 64 ≤ prov && prov ≤ (e.1 + 2 ^ e.2.shape - 1) / 64).map
      fun (e : Nat × Region) => (e.1, e.2.identity.toNat)
  if 2 ^ 56 ≤ va then .next s
  else match s.walk asid va with
    | some (e, sz, _) =>
      if leafMigrating e then .next s
      else .next (mine.foldl (fun t i =>
        t.keepTranslation prov ⟨i.1, asid, i.2, va / 2 ^ sz * 2 ^ sz, sz, leafFrame e, e⟩) s)
    | none => .next s

end Sys2Proof.Machine
end

