-- ==== Sys2Proof/Machine/Dispatch.lean ====
section
/-! DEFINITION. One arm per instruction: the direct call of its meaning. -/

namespace Sys2Proof.Machine

def exec (i : Instr) (s : State) : Host.Outcome State Fault Refusal :=
  match i with
  | .add rd ra rb => Sys2Proof.Machine.execAdd rd ra rb s
  | .sub rd ra rb => Sys2Proof.Machine.execSub rd ra rb s
  | .mul rd ra rb => Sys2Proof.Machine.execMul rd ra rb s
  | .mulh rd ra rb => Sys2Proof.Machine.execMulh rd ra rb s
  | .mulhn rd ra rb => Sys2Proof.Machine.execMulhn rd ra rb s
  | .div rd ra rb => Sys2Proof.Machine.execDiv rd ra rb s
  | .divn rd ra rb => Sys2Proof.Machine.execDivn rd ra rb s
  | .rem rd ra rb => Sys2Proof.Machine.execRem rd ra rb s
  | .remn rd ra rb => Sys2Proof.Machine.execRemn rd ra rb s
  | .and rd ra rb => Sys2Proof.Machine.execAnd rd ra rb s
  | .or rd ra rb => Sys2Proof.Machine.execOr rd ra rb s
  | .xor rd ra rb => Sys2Proof.Machine.execXor rd ra rb s
  | .sll rd ra rb => Sys2Proof.Machine.execSll rd ra rb s
  | .srl rd ra rb => Sys2Proof.Machine.execSrl rd ra rb s
  | .sra rd ra rb => Sys2Proof.Machine.execSra rd ra rb s
  | .slt rd ra rb => Sys2Proof.Machine.execSlt rd ra rb s
  | .sltn rd ra rb => Sys2Proof.Machine.execSltn rd ra rb s
  | .min rd ra rb => Sys2Proof.Machine.execMin rd ra rb s
  | .max rd ra rb => Sys2Proof.Machine.execMax rd ra rb s
  | .minn rd ra rb => Sys2Proof.Machine.execMinn rd ra rb s
  | .maxn rd ra rb => Sys2Proof.Machine.execMaxn rd ra rb s
  | .clz rd ra => Sys2Proof.Machine.execClz rd ra s
  | .ctz rd ra => Sys2Proof.Machine.execCtz rd ra s
  | .popc rd ra => Sys2Proof.Machine.execPopc rd ra s
  | .addImmediate rd ra imm => Sys2Proof.Machine.execAddImmediate rd ra imm s
  | .andImmediate rd ra imm => Sys2Proof.Machine.execAndImmediate rd ra imm s
  | .orImmediate rd ra imm => Sys2Proof.Machine.execOrImmediate rd ra imm s
  | .xorImmediate rd ra imm => Sys2Proof.Machine.execXorImmediate rd ra imm s
  | .sllImmediate rd ra sh => Sys2Proof.Machine.execSllImmediate rd ra sh s
  | .srlImmediate rd ra sh => Sys2Proof.Machine.execSrlImmediate rd ra sh s
  | .sraImmediate rd ra sh => Sys2Proof.Machine.execSraImmediate rd ra sh s
  | .sltImmediate rd ra imm => Sys2Proof.Machine.execSltImmediate rd ra imm s
  | .sltnImmediate rd ra imm => Sys2Proof.Machine.execSltnImmediate rd ra imm s
  | .mulImmediate rd ra imm => Sys2Proof.Machine.execMulImmediate rd ra imm s
  | .lih rd ra imm => Sys2Proof.Machine.execLih rd ra imm s
  | .csrr rd num => Sys2Proof.Machine.execCsrr rd num s
  | .csrw rd ra num => Sys2Proof.Machine.execCsrw rd ra num s
  | .csrs rd ra num => Sys2Proof.Machine.execCsrs rd ra num s
  | .csrc rd ra num => Sys2Proof.Machine.execCsrc rd ra num s
  | .ldS8 rd ra scope off => Sys2Proof.Machine.execLdS8 rd ra scope off s
  | .ldN8 rd ra scope off => Sys2Proof.Machine.execLdN8 rd ra scope off s
  | .ldS16 rd ra scope off => Sys2Proof.Machine.execLdS16 rd ra scope off s
  | .ldN16 rd ra scope off => Sys2Proof.Machine.execLdN16 rd ra scope off s
  | .ldS32 rd ra scope off => Sys2Proof.Machine.execLdS32 rd ra scope off s
  | .ldN32 rd ra scope off => Sys2Proof.Machine.execLdN32 rd ra scope off s
  | .ldN64 rd ra scope off => Sys2Proof.Machine.execLdN64 rd ra scope off s
  | .stN8 rd ra scope off => Sys2Proof.Machine.execStN8 rd ra scope off s
  | .stN16 rd ra scope off => Sys2Proof.Machine.execStN16 rd ra scope off s
  | .stN32 rd ra scope off => Sys2Proof.Machine.execStN32 rd ra scope off s
  | .stN64 rd ra scope off => Sys2Proof.Machine.execStN64 rd ra scope off s
  | .ldvGe rd ra rb sx size scope => Sys2Proof.Machine.execLdvGe rd ra rb sx size scope s
  | .ldvEq rd ra rb sx size scope => Sys2Proof.Machine.execLdvEq rd ra rb sx size scope s
  | .stv rd ra rb size scope => Sys2Proof.Machine.execStv rd ra rb size scope s
  | .stvKeep rd ra rb size scope => Sys2Proof.Machine.execStvKeep rd ra rb size scope s
  | .reclaim rd ra rb => Sys2Proof.Machine.execReclaim rd ra rb s
  | .amoAdd rd ra rb width scope => Sys2Proof.Machine.execAmoAdd rd ra rb width scope s
  | .amoSwp rd ra rb width scope => Sys2Proof.Machine.execAmoSwp rd ra rb width scope s
  | .amoCas rd ra rb width scope => Sys2Proof.Machine.execAmoCas rd ra rb width scope s
  | .amoMin rd ra rb width scope => Sys2Proof.Machine.execAmoMin rd ra rb width scope s
  | .amoMax rd ra rb width scope => Sys2Proof.Machine.execAmoMax rd ra rb width scope s
  | .amoMinn rd ra rb width scope => Sys2Proof.Machine.execAmoMinn rd ra rb width scope s
  | .amoMaxn rd ra rb width scope => Sys2Proof.Machine.execAmoMaxn rd ra rb width scope s
  | .amoAnd rd ra rb width scope => Sys2Proof.Machine.execAmoAnd rd ra rb width scope s
  | .amoOr rd ra rb width scope => Sys2Proof.Machine.execAmoOr rd ra rb width scope s
  | .amoXor rd ra rb width scope => Sys2Proof.Machine.execAmoXor rd ra rb width scope s
  | .pref ra scope off => Sys2Proof.Machine.execPref ra scope off s
  | .fence scope => Sys2Proof.Machine.execFence scope s
  | .fenceAcq scope => Sys2Proof.Machine.execFenceAcq scope s
  | .fenceRel scope => Sys2Proof.Machine.execFenceRel scope s
  | .beq ra rb off => Sys2Proof.Machine.execBeq ra rb off s
  | .bne ra rb off => Sys2Proof.Machine.execBne ra rb off s
  | .blt ra rb off => Sys2Proof.Machine.execBlt ra rb off s
  | .bge ra rb off => Sys2Proof.Machine.execBge ra rb off s
  | .bltn ra rb off => Sys2Proof.Machine.execBltn ra rb off s
  | .bgen ra rb off => Sys2Proof.Machine.execBgen ra rb off s
  | .jal rd off => Sys2Proof.Machine.execJal rd off s
  | .jalr rd ra imm => Sys2Proof.Machine.execJalr rd ra imm s
  | .post rd ra rb => Sys2Proof.Machine.execPost rd ra rb s
  | .bindl rd ra rb => Sys2Proof.Machine.execBindl rd ra rb s
  | .armt rd ra rb => Sys2Proof.Machine.execArmt rd ra rb s
  | .armb rd ra => Sys2Proof.Machine.execArmb rd ra s
  | .arms rd ra => Sys2Proof.Machine.execArms rd ra s
  | .endt => Sys2Proof.Machine.execEndt s
  | .chp ra rb => Sys2Proof.Machine.execChp ra rb s
  | .ecall ra rb => Sys2Proof.Machine.execEcall ra rb s
  | .tret => Sys2Proof.Machine.execTret s
  | .merid rd => Sys2Proof.Machine.execMerid rd s
  | .stnInit ra rb => Sys2Proof.Machine.execStnInit ra rb s
  | .stnArv ra => Sys2Proof.Machine.execStnArv ra s
  | .stnExp ra rb => Sys2Proof.Machine.execStnExp ra rb s
  | .stnDone ra => Sys2Proof.Machine.execStnDone ra s
  | .stnTest rd ra => Sys2Proof.Machine.execStnTest rd ra s
  | .trvCopy rd ra rb => Sys2Proof.Machine.execTrvCopy rd ra rb s
  | .trvGath rd ra rb => Sys2Proof.Machine.execTrvGath rd ra rb s
  | .trvScat rd ra rb => Sys2Proof.Machine.execTrvScat rd ra rb s
  | .trvRed rd ra rb => Sys2Proof.Machine.execTrvRed rd ra rb s
  | .trvFill rd ra rb => Sys2Proof.Machine.execTrvFill rd ra rb s
  | .trvFeed rd ra rb => Sys2Proof.Machine.execTrvFeed rd ra rb s
  | .trvFollow ra => Sys2Proof.Machine.execTrvFollow ra s
  | .trvPub rd ra => Sys2Proof.Machine.execTrvPub rd ra s
  | .trvXst rd ra rb => Sys2Proof.Machine.execTrvXst rd ra rb s
  | .trvCanc ra => Sys2Proof.Machine.execTrvCanc ra s
  | .trvStat rd ra => Sys2Proof.Machine.execTrvStat rd ra s
  | .bufSet ra rb => Sys2Proof.Machine.execBufSet ra rb s
  | .bufFree ra => Sys2Proof.Machine.execBufFree ra s
  | .bufStat rd ra => Sys2Proof.Machine.execBufStat rd ra s
  | .endMake rd ra => Sys2Proof.Machine.execEndMake rd ra s
  | .endBind rd ra rb => Sys2Proof.Machine.execEndBind rd ra rb s
  | .endClose ra => Sys2Proof.Machine.execEndClose ra s
  | .endStat rd ra => Sys2Proof.Machine.execEndStat rd ra s
  | .grLdw rd ra rb => Sys2Proof.Machine.execGrLdw rd ra rb s
  | .grMm rd ra rb => Sys2Proof.Machine.execGrMm rd ra rb s
  | .grScan rd ra rb => Sys2Proof.Machine.execGrScan rd ra rb s
  | .grDrn rd ra rb => Sys2Proof.Machine.execGrDrn rd ra rb s
  | .grZero ra => Sys2Proof.Machine.execGrZero ra s
  | .grSave rd ra rb => Sys2Proof.Machine.execGrSave rd ra rb s
  | .grRest rd ra rb => Sys2Proof.Machine.execGrRest rd ra rb s
  | .grStat rd ra => Sys2Proof.Machine.execGrStat rd ra s
  | .twSeek rd ra rb => Sys2Proof.Machine.execTwSeek rd ra rb s
  | .twRead rd ra => Sys2Proof.Machine.execTwRead rd ra s
  | .twEnc rd ra rb => Sys2Proof.Machine.execTwEnc rd ra rb s
  | .twStat rd ra => Sys2Proof.Machine.execTwStat rd ra s
  | .cpOpen ra => Sys2Proof.Machine.execCpOpen ra s
  | .cpOper ra rb => Sys2Proof.Machine.execCpOper ra rb s
  | .cpExpl ra => Sys2Proof.Machine.execCpExpl ra s
  | .cpObs rd ra => Sys2Proof.Machine.execCpObs rd ra s
  | .cpFix ra => Sys2Proof.Machine.execCpFix ra s
  | .cpJoin ra rb => Sys2Proof.Machine.execCpJoin ra rb s
  | .cpClose ra => Sys2Proof.Machine.execCpClose ra s
  | .scrOpen rd ra rb => Sys2Proof.Machine.execScrOpen rd ra rb s
  | .scrCnt rd ra => Sys2Proof.Machine.execScrCnt rd ra s
  | .segName rd ra rb => Sys2Proof.Machine.execSegName rd ra rb s
  | .segAtt rd ra rb => Sys2Proof.Machine.execSegAtt rd ra rb s
  | .segDet ra => Sys2Proof.Machine.execSegDet ra s
  | .segPin ra rb => Sys2Proof.Machine.execSegPin ra rb s
  | .segEvt ra rb => Sys2Proof.Machine.execSegEvt ra rb s
  | .segDrop ra => Sys2Proof.Machine.execSegDrop ra s
  | .segStat rd ra => Sys2Proof.Machine.execSegStat rd ra s
  | .projInv ra rb => Sys2Proof.Machine.execProjInv ra rb s
  | .projProbe rd ra rb => Sys2Proof.Machine.execProjProbe rd ra rb s
  | .pageDup ra rb => Sys2Proof.Machine.execPageDup ra rb s
  | .sndSet ra rb => Sys2Proof.Machine.execSndSet ra rb s
  | .sndOut rd ra => Sys2Proof.Machine.execSndOut rd ra s
  | .sndIn rd ra => Sys2Proof.Machine.execSndIn rd ra s
  | .sndStat rd ra => Sys2Proof.Machine.execSndStat rd ra s
  | .qKick ra rb => Sys2Proof.Machine.execQKick ra rb s
  | .strmIn rd ra rb => Sys2Proof.Machine.execStrmIn rd ra rb s
  | .strmOut rd ra rb => Sys2Proof.Machine.execStrmOut rd ra rb s
  | .strmBar ra => Sys2Proof.Machine.execStrmBar ra s
  | .strmStop ra => Sys2Proof.Machine.execStrmStop ra s
  | .strmStat rd ra => Sys2Proof.Machine.execStrmStat rd ra s
  | .iadd w => Sys2Proof.Machine.execIadd w s
  | .isub w => Sys2Proof.Machine.execIsub w s
  | .iadds w => Sys2Proof.Machine.execIadds w s
  | .isubs w => Sys2Proof.Machine.execIsubs w s
  | .imul w => Sys2Proof.Machine.execImul w s
  | .imulh w => Sys2Proof.Machine.execImulh w s
  | .imad w => Sys2Proof.Machine.execImad w s
  | .imin w => Sys2Proof.Machine.execImin w s
  | .imax w => Sys2Proof.Machine.execImax w s
  | .iabs w => Sys2Proof.Machine.execIabs w s
  | .ineg w => Sys2Proof.Machine.execIneg w s
  | .iavg w => Sys2Proof.Machine.execIavg w s
  | .shl w => Sys2Proof.Machine.execShl w s
  | .shr w => Sys2Proof.Machine.execShr w s
  | .sar w => Sys2Proof.Machine.execSar w s
  | .rot w => Sys2Proof.Machine.execRot w s
  | .cellAnd w => Sys2Proof.Machine.execCellAnd w s
  | .cellOr w => Sys2Proof.Machine.execCellOr w s
  | .cellXor w => Sys2Proof.Machine.execCellXor w s
  | .andn w => Sys2Proof.Machine.execAndn w s
  | .not w => Sys2Proof.Machine.execNot w s
  | .cellClz w => Sys2Proof.Machine.execCellClz w s
  | .cellCtz w => Sys2Proof.Machine.execCellCtz w s
  | .ffs w => Sys2Proof.Machine.execFfs w s
  | .cellPopc w => Sys2Proof.Machine.execCellPopc w s
  | .brev w => Sys2Proof.Machine.execBrev w s
  | .bfx w => Sys2Proof.Machine.execBfx w s
  | .bfi w => Sys2Proof.Machine.execBfi w s
  | .icmp w => Sys2Proof.Machine.execIcmp w s
  | .sel w => Sys2Proof.Machine.execSel w s
  | .mov w => Sys2Proof.Machine.execMov w s
  | .movc w => Sys2Proof.Machine.execMovc w s
  | .bcst w => Sys2Proof.Machine.execBcst w s
  | .lprm w => Sys2Proof.Machine.execLprm w s
  | .lshf w => Sys2Proof.Machine.execLshf w s
  | .redi w => Sys2Proof.Machine.execRedi w s
  | .scni w => Sys2Proof.Machine.execScni w s
  | .dot4 w => Sys2Proof.Machine.execDot4 w s
  | .dot2 w => Sys2Proof.Machine.execDot2 w s
  | .kop w => Sys2Proof.Machine.execKop w s
  | .enq w => Sys2Proof.Machine.execEnq w s
  | .deq w => Sys2Proof.Machine.execDeq w s
  | .adv w => Sys2Proof.Machine.execAdv w s
  | .peek w => Sys2Proof.Machine.execPeek w s
  | .qstat w => Sys2Proof.Machine.execQstat w s
  | .cellLd w => Sys2Proof.Machine.execCellLd w s
  | .cellSt w => Sys2Proof.Machine.execCellSt w s
  | .walk w => Sys2Proof.Machine.execWalk w s
  | .atom w => Sys2Proof.Machine.execAtom w s
  | .cellLdv w => Sys2Proof.Machine.execCellLdv w s
  | .cellStv w => Sys2Proof.Machine.execCellStv w s
  | .fadd w => Sys2Proof.Machine.execFadd w s
  | .fsub w => Sys2Proof.Machine.execFsub w s
  | .fmul w => Sys2Proof.Machine.execFmul w s
  | .ffma w => Sys2Proof.Machine.execFfma w s
  | .fmin w => Sys2Proof.Machine.execFmin w s
  | .fmax w => Sys2Proof.Machine.execFmax w s
  | .fabs w => Sys2Proof.Machine.execFabs w s
  | .fneg w => Sys2Proof.Machine.execFneg w s
  | .fcmp w => Sys2Proof.Machine.execFcmp w s
  | .frcp w => Sys2Proof.Machine.execFrcp w s
  | .frsq w => Sys2Proof.Machine.execFrsq w s
  | .fsqrt w => Sys2Proof.Machine.execFsqrt w s
  | .fexp2 w => Sys2Proof.Machine.execFexp2 w s
  | .flog2 w => Sys2Proof.Machine.execFlog2 w s
  | .ftanh w => Sys2Proof.Machine.execFtanh w s
  | .fsigm w => Sys2Proof.Machine.execFsigm w s
  | .fsinp w => Sys2Proof.Machine.execFsinp w s
  | .frnd w => Sys2Proof.Machine.execFrnd w s
  | .fcls w => Sys2Proof.Machine.execFcls w s
  | .redf w => Sys2Proof.Machine.execRedf w s
  | .scnf w => Sys2Proof.Machine.execScnf w s
  | .topk w => Sys2Proof.Machine.execTopk w s
  | .cvt w => Sys2Proof.Machine.execCvt w s
  | .bq w => Sys2Proof.Machine.execBq w s
  | .bdq w => Sys2Proof.Machine.execBdq w s
  | .sclb w => Sys2Proof.Machine.execSclb w s
  | .wadp w => Sys2Proof.Machine.execWadp w s
  | .gate w => Sys2Proof.Machine.execGate w s
  | .dly w => Sys2Proof.Machine.execDly w s
  | .mrg w => Sys2Proof.Machine.execMrg w s
  | .str w => Sys2Proof.Machine.execStr w s
  | .tag w => Sys2Proof.Machine.execTag w s
  | .proj w => Sys2Proof.Machine.execProj w s
  | .widn w => Sys2Proof.Machine.execWidn w s
  | .hin w => Sys2Proof.Machine.execHin w s
  | .hout w => Sys2Proof.Machine.execHout w s
  | .rdon w => Sys2Proof.Machine.execRdon w s
  | .rrte w => Sys2Proof.Machine.execRrte w s
  | .pois w => Sys2Proof.Machine.execPois w s
  | .halt w => Sys2Proof.Machine.execHalt w s
  | .trap w => Sys2Proof.Machine.execTrap w s
  | .nop w => Sys2Proof.Machine.execNop w s
  | .powerUp => Sys2Proof.Machine.execPowerUp s
  | .deviceReset => Sys2Proof.Machine.execDeviceReset s
  | .stagedImageLengthWrite image len => Sys2Proof.Machine.execStagedImageLengthWrite image len s
  | .securityVersionRaise version => Sys2Proof.Machine.execSecurityVersionRaise version s
  | .spdmMeasurementRequest index nonce => Sys2Proof.Machine.execSpdmMeasurementRequest index nonce s
  | .regionFatalError origin code parcel => Sys2Proof.Machine.execRegionFatalError origin code parcel s
  | .deviceFatalError code => Sys2Proof.Machine.execDeviceFatalError code s
  | .parcelPowerGate p => Sys2Proof.Machine.execParcelPowerGate p s
  | .parcelWake p => Sys2Proof.Machine.execParcelWake p s
  | .kickRegisterWrite q size value writer => Sys2Proof.Machine.execKickRegisterWrite q size value writer s
  | .dependenceCounterCheck launch => Sys2Proof.Machine.execDependenceCounterCheck launch s
  | .regionSchedulerDecision => Sys2Proof.Machine.execRegionSchedulerDecision s
  | .configurationPacket origin => Sys2Proof.Machine.execConfigurationPacket origin s
  | .parcelLoad p => Sys2Proof.Machine.execParcelLoad p s
  | .startPacket origin => Sys2Proof.Machine.execStartPacket origin s
  | .preemptionDrained origin => Sys2Proof.Machine.execPreemptionDrained origin s
  | .regionExit origin => Sys2Proof.Machine.execRegionExit origin s
  | .packetArrival k => Sys2Proof.Machine.execPacketArrival k s
  | .outboundPacketSend p dest => Sys2Proof.Machine.execOutboundPacketSend p dest s
  | .taskDispatch p => Sys2Proof.Machine.execTaskDispatch p s
  | .channelPromotion p ch => Sys2Proof.Machine.execChannelPromotion p ch s
  | .timeWakeupFire p ch => Sys2Proof.Machine.execTimeWakeupFire p ch s
  | .controlRegisterWrite p num value => Sys2Proof.Machine.execControlRegisterWrite p num value s
  | .bindingWrite p ch handler arg => Sys2Proof.Machine.execBindingWrite p ch handler arg s
  | .readyBitsWrite p value => Sys2Proof.Machine.execReadyBitsWrite p value s
  | .wakeupSlotArmTime p ch value => Sys2Proof.Machine.execWakeupSlotArmTime p ch value s
  | .wakeupSlotArmBuffer p ch value => Sys2Proof.Machine.execWakeupSlotArmBuffer p ch value s
  | .wakeupSlotArmStation p ch value => Sys2Proof.Machine.execWakeupSlotArmStation p ch value s
  | .wakeupSlotDisarm p ch value => Sys2Proof.Machine.execWakeupSlotDisarm p ch value s
  | .wakeupSlotArgumentWrite p ch arg time => Sys2Proof.Machine.execWakeupSlotArgumentWrite p ch arg time s
  | .laneRegisterWindowWrite p m off bytes => Sys2Proof.Machine.execLaneRegisterWindowWrite p m off bytes s
  | .contextStoreWrite p m off bytes writer => Sys2Proof.Machine.execContextStoreWrite p m off bytes writer s
  | .queueWindowWrite p m off bytes writer => Sys2Proof.Machine.execQueueWindowWrite p m off bytes writer s
  | .cellContinue p m => Sys2Proof.Machine.execCellContinue p m s
  | .cellSkip p m => Sys2Proof.Machine.execCellSkip p m s
  | .resumeRegion p m => Sys2Proof.Machine.execResumeRegion p m s
  | .inputWordArrival src => Sys2Proof.Machine.execInputWordArrival src s
  | .outputWordSend p m q => Sys2Proof.Machine.execOutputWordSend p m q s
  | .delayExpiry p m q => Sys2Proof.Machine.execDelayExpiry p m q s
  | .cellHalt p m => Sys2Proof.Machine.execCellHalt p m s
  | .cellPoisoned p m => Sys2Proof.Machine.execCellPoisoned p m s
  | .addressPortResponse p m => Sys2Proof.Machine.execAddressPortResponse p m s
  | .lateFault p m => Sys2Proof.Machine.execLateFault p m s
  | .walkNode p m => Sys2Proof.Machine.execWalkNode p m s
  | .widenerReleaseComplete p m => Sys2Proof.Machine.execWidenerReleaseComplete p m s
  | .hangMonitorFire origin => Sys2Proof.Machine.execHangMonitorFire origin s
  | .heldLdvComplete p m => Sys2Proof.Machine.execHeldLdvComplete p m s
  | .stationArrival k => Sys2Proof.Machine.execStationArrival k s
  | .stationBytes k => Sys2Proof.Machine.execStationBytes k s
  | .exchangeWriteArrival k => Sys2Proof.Machine.execExchangeWriteArrival k s
  | .fenceMarkerArrival k => Sys2Proof.Machine.execFenceMarkerArrival k s
  | .publish k => Sys2Proof.Machine.execPublish k s
  | .streamStart p slot => Sys2Proof.Machine.execStreamStart p slot s
  | .loaderWord p slot => Sys2Proof.Machine.execLoaderWord p slot s
  | .storerWord p slot => Sys2Proof.Machine.execStorerWord p slot s
  | .streamComplete p slot => Sys2Proof.Machine.execStreamComplete p slot s
  | .streamFault p slot code => Sys2Proof.Machine.execStreamFault p slot code s
  | .traverseBytesLand p slot => Sys2Proof.Machine.execTraverseBytesLand p slot s
  | .traverseComplete p slot => Sys2Proof.Machine.execTraverseComplete p slot s
  | .traverseFault p slot code => Sys2Proof.Machine.execTraverseFault p slot code s
  | .freedSlotNotice p handle => Sys2Proof.Machine.execFreedSlotNotice p handle s
  | .followOnIssue p slot => Sys2Proof.Machine.execFollowOnIssue p slot s
  | .reductionTile k => Sys2Proof.Machine.execReductionTile k s
  | .skipMarker k => Sys2Proof.Machine.execSkipMarker k s
  | .graticuleCommandStart p => Sys2Proof.Machine.execGraticuleCommandStart p s
  | .tileDone p => Sys2Proof.Machine.execTileDone p s
  | .aStreamWord p => Sys2Proof.Machine.execAStreamWord p s
  | .drainComplete p => Sys2Proof.Machine.execDrainComplete p s
  | .graticuleCommandComplete p => Sys2Proof.Machine.execGraticuleCommandComplete p s
  | .graticuleFault p code => Sys2Proof.Machine.execGraticuleFault p code s
  | .graticulePause p => Sys2Proof.Machine.execGraticulePause p s
  | .encoderRow prov => Sys2Proof.Machine.execEncoderRow prov s
  | .encoderFault prov code => Sys2Proof.Machine.execEncoderFault prov code s
  | .bindRequest k => Sys2Proof.Machine.execBindRequest k s
  | .itemEntry p port => Sys2Proof.Machine.execItemEntry p port s
  | .itemDelivery p port => Sys2Proof.Machine.execItemDelivery p port s
  | .itemAcknowledge p number => Sys2Proof.Machine.execItemAcknowledge p number s
  | .migrationMarker p number => Sys2Proof.Machine.execMigrationMarker p number s
  | .recordAdmission sheet => Sys2Proof.Machine.execRecordAdmission sheet s
  | .recordReturn sheet => Sys2Proof.Machine.execRecordReturn sheet s
  | .joinRecord sheet => Sys2Proof.Machine.execJoinRecord sheet s
  | .queryClosed sheet => Sys2Proof.Machine.execQueryClosed sheet s
  | .scribeItem p => Sys2Proof.Machine.execScribeItem p s
  | .scribeSourceComplete p => Sys2Proof.Machine.execScribeSourceComplete p s
  | .spillComplete seg => Sys2Proof.Machine.execSpillComplete seg s
  | .reloadComplete seg => Sys2Proof.Machine.execReloadComplete seg s
  | .segmentTransferFault seg code => Sys2Proof.Machine.execSegmentTransferFault seg code s
  | .tableWalk prov asid va => Sys2Proof.Machine.execTableWalk prov asid va s
  | .invalidateComplete k => Sys2Proof.Machine.execInvalidateComplete k s
  | .collapse asid va prov => Sys2Proof.Machine.execCollapse asid va prov s
  | .pageDupComplete k => Sys2Proof.Machine.execPageDupComplete k s
  | .soundingPageLand set entry => Sys2Proof.Machine.execSoundingPageLand set entry s
  | .soundingOutComplete set => Sys2Proof.Machine.execSoundingOutComplete set s
  | .soundingInComplete set => Sys2Proof.Machine.execSoundingInComplete set s
  | .soundingFault set code word1 => Sys2Proof.Machine.execSoundingFault set code word1 s
  | .doorbellWrite off size value => Sys2Proof.Machine.execDoorbellWrite off size value s
  | .hostIngressDeliver origin db => Sys2Proof.Machine.execHostIngressDeliver origin db s
  | .bar4Read off size => Sys2Proof.Machine.execBar4Read off size s
  | .bar4Write off bytes => Sys2Proof.Machine.execBar4Write off bytes s
  | .bar2Read off => Sys2Proof.Machine.execBar2Read off s
  | .hostAtomicopRequest bar off => Sys2Proof.Machine.execHostAtomicopRequest bar off s
  | .hostCompletion tag status data => Sys2Proof.Machine.execHostCompletion tag status data s
  | .hostTimeout tag => Sys2Proof.Machine.execHostTimeout tag s
  | .flitReceive port flit => Sys2Proof.Machine.execFlitReceive port flit s
  | .replayRequest port seq => Sys2Proof.Machine.execReplayRequest port seq s
  | .resendNotice dest seq => Sys2Proof.Machine.execResendNotice dest seq s
  | .packetAcknowledge dest seq => Sys2Proof.Machine.execPacketAcknowledge dest seq s
  | .portRetrainFailure port => Sys2Proof.Machine.execPortRetrainFailure port s
  | .debugRun => Sys2Proof.Machine.execDebugRun s
  | .debugCont => Sys2Proof.Machine.execDebugCont s
  | .debugStep => Sys2Proof.Machine.execDebugStep s
  | .breakTask ch => Sys2Proof.Machine.execBreakTask ch s
  | .breakCell p m slot => Sys2Proof.Machine.execBreakCell p m slot s
  | .breakFault => Sys2Proof.Machine.execBreakFault s
  | .breakPromise => Sys2Proof.Machine.execBreakPromise s
  | .breakKick q => Sys2Proof.Machine.execBreakKick q s
  | .printRegister n => Sys2Proof.Machine.execPrintRegister n s
  | .printControlRegister num => Sys2Proof.Machine.execPrintControlRegister num s
  | .printLaneRegister n => Sys2Proof.Machine.execPrintLaneRegister n s
  | .printPredicates => Sys2Proof.Machine.execPrintPredicates s
  | .printWindowRegister n => Sys2Proof.Machine.execPrintWindowRegister n s
  | .showQueues => Sys2Proof.Machine.execShowQueues s
  | .showBuffers => Sys2Proof.Machine.execShowBuffers s
  | .showStations => Sys2Proof.Machine.execShowStations s
  | .showStreams => Sys2Proof.Machine.execShowStreams s
  | .showCompass => Sys2Proof.Machine.execShowCompass s
  | .showSegments => Sys2Proof.Machine.execShowSegments s
  | .showQueue q => Sys2Proof.Machine.execShowQueue q s
  | .printMeridian => Sys2Proof.Machine.execPrintMeridian s
  | .illegalInstructionWord word => Sys2Proof.Machine.execIllegalInstructionWord word s
  | .instructionFetchFault code => Sys2Proof.Machine.execInstructionFetchFault code s
  | .parcelReset p => Sys2Proof.Machine.execParcelReset p s
  | .deviceControlRangeWrite off bytes writer => Sys2Proof.Machine.execDeviceControlRangeWrite off bytes writer s
  | .correctedSoftError parcel value => Sys2Proof.Machine.execCorrectedSoftError parcel value s
  | .systemConfiguration x y z number => Sys2Proof.Machine.execSystemConfiguration x y z number s
  | .ideKeyProgramming stream config => Sys2Proof.Machine.execIdeKeyProgramming stream config s
  | .pcieConfigurationWrite reg value => Sys2Proof.Machine.execPcieConfigurationWrite reg value s

end Sys2Proof.Machine
end

