-- ==== Sys2Proof/Machine/Settle.lean ====
section
/-! DEFINITION. What passes with every step: the end of a granted debugger step, time, the hang monitors, the completion
tests of an f-cycle's end, kicks that waited, and the choice of the next agent (R82, R161, R206, R297, R298, R474). -/

namespace Sys2Proof.Machine

/-! ### Stops of the debugger (R297, R298, R474) -/

/-- Whether a turn was a firing that a breakpoint waits for: the cell has fired that slot (R298). -/
def State.cellBreak (s : State) (turn : Turn) : Bool :=
  match turn with
  | .firing p m x k =>
    (match s.regionOf p with
     | some (o, _) =>
       let c := s.cell p m
       s.debugged o && s.debugger.breaks.any (fun b => b = .cell (p - o) m k) &&
         c.fireCtx.toNat = x && c.fireSlot.toNat = k && c.mode ≠ .frozen
     | none => false)
  | _ => false

/-- The bytes that a request writes to memory: those of its valid lanes, or what an atomic's operand holds (R252, R474). -/
def PortEntry.writtenBytes (e : PortEntry) : List (Nat × Byte) :=
  let shown := fun (n : Nat) (bytes : List Byte) (keep : Nat → Bool) =>
    (List.range n).filterMap fun i => if keep i then some (i, bytes.getD i 0) else none
  match e.op with
  | .store w ty => shown 64 (payloadBytes w.payload) (storeValid w ty)
  | .stv w ty _ => shown 64 (payloadBytes w.payload) (storeValid w ty)
  | .hout w => shown 64 (payloadBytes w.payload) (storeValid w 0)
  | .atom _ wide _ v _ => shown (if wide then 8 else 4) (Decode.leBytes 8 v.toNat) fun _ => true
  | _ => []

/-- A stop on a firing that writes memory also prints the address and the bytes (R474). -/
def State.sayStore (s : State) (p m : Nat) : State :=
  match (s.cell p m).port.getLast? with
  | some e => if e.writes && e.stamp = s.tick then s.say (.stored e.va e.writtenBytes) else s
  | none => s

/-- Stop the region of a cell at a firing. -/
def State.stopCell (s : State) (p m x k : Nat) : State :=
  match s.regionOf p with
  | some (o, _) => (s.stopAt o (.cell p m x k)).sayStore p m
  | none => s

/-- Instructions that may leave the program counter where it is: branches and jumps. -/
def mayStay : Instr → Bool
  | .beq _ _ _ | .bne _ _ _ | .blt _ _ _ | .bge _ _ _ | .bltn _ _ _ | .bgen _ _ _ | .jal _ _ | .jalr _ _ _ => true
  | _ => false

/-- Whether the core of a granted step has executed its instruction: it waits for nothing and stands elsewhere, or it took a
branch to itself. -/
def State.taskStepped (s : State) (p : Nat) (pc : Word) (turn : Turn) (ran : Bool) : Bool :=
  let c := s.core p
  c.running && c.waiting.isNone &&
    (c.pc ≠ pc || (ran && turn = .core p && (s.instrAt p pc).any mayStay))

/-- A granted debugger step stops again once its unit has acted: an instruction that holds or waits for the host has not yet
been executed, and one over `ENDT` waits for the next pick (R298). -/
def State.stepDone (s : State) (turn : Turn) (ran : Bool) : State :=
  match s.stepUnit, s.debugger.stop with
  | some (p, none), some (.task _ pc) =>
    if s.taskStepped p pc turn ran then
      match s.regionOf p with
      | some (o, _) => s.stopAt o (.task p (s.core p).pc)
      | none => s
    else s
  | stepped, _ =>
    match turn with
    | .firing q n x k => if ran && (s.cellBreak turn || stepped = some (q, some n)) then s.stopCell q n x k else s
    | _ => s

/-! ### The end of a step -/

/-- The monitors whose counters have reached `HANGIV` fire (R206). -/
def State.fireHangs (s : State) : State :=
  s.regions.foldl (fun t e => if t.hangReady e.1 e.2 then t.hangFire e.1 e.2 else t) s

/-- What ends a step: time passes, the hang monitors count, cells frozen in an ended f-cycle are reported, stations that it reached are tested, kicks land, launches that
wait for a station are judged, strips turn to their queues, a held sector may be written on, a dump and the links go on, and the next agent is chosen (log 1, 2, 3, 40,
48, 57). -/
def State.settle (s : State) (ran : Bool) : State :=
  let dt := Config.cycles s.tick
  let s1 := ((s.stepDone s.next ran).hangTick dt).fireHangs
  let s2 := ((if dt = 0 then s1 else s1.sendReports.testStations).landKicks.pollLaunches 1 fun _ => true).stripsTurn
  let s3 := match Config.evict s.tick with
    | some (key, sector) => s2.evictLine key sector
    | none => s2
  let s4 := s3.continueDump.linkTurn
  { s4 with meridian := s4.meridian + BitVec.ofNat 64 dt, tick := s.tick + 1, next := Config.nextTurn s.tick }

end Sys2Proof.Machine
end

