-- ==== Sys2Proof/Machine/Step.lean ====
section
/-! DEFINITION. One step of the part: what the turn's agent carries out, then what passes with every step. -/

namespace Sys2Proof.Machine

/-- One step. An agent that has nothing to do lets time pass. -/
def step (s : State) : Host.Outcome State Fault Refusal :=
  if s.held then .fault .deviceHeld
  else
    match s.due with
    | (none, t) => .next (t.settle false)
    | (some i, t) =>
      match exec i t with
      | .next u => .next ({ u with tick := t.tick, next := t.next }.settle true)
      | .fault f => .fault f
      | .refused r => .refused r

/-- The state with one instruction placed where the next step takes it. -/
def State.withFetchWord (s : State) (nbits w : Nat) : State :=
  if nbits = 32 then s.placeCore (Decode.leBytes 4 w)
  else if nbits = 64 then s.placeCell (Decode.leBytes 8 w)
  else s

end Sys2Proof.Machine
end

