-- ==== Sys2Proof/Safety.lean ====
section
/-! DEFINITION. What a well-kept state and a safe run are, in the terms that claims use. -/

namespace Sys2Proof.Machine

/-- A run of `n` steps that meets no fault and no refusal. -/
def safeFor : Nat → State → Prop
  | 0, _ => True
  | n + 1, s => ∃ t, step s = .next t ∧ safeFor n t

/-- Whether an operand passes the checks of R44 and R189: a data word or value of a tag that the instruction takes, or a
token of a kind that words on the fabric carry, where the instruction moves words or takes host tokens. -/
def Firing.takes (f : Firing) (o : Operand) : Bool :=
  let x := f.raw o
  let tagFits := x.tag.toNat < 6 || (x.tag.toNat < 9 && takesTag f.op x.tag.toNat)
  match x.word with
  | some l => if l.token then (l.kind = 0 || l.kind = 6 || l.kind = 8) && (moves f.op || f.op = 0xE7) else tagFits
  | none => tagFits

/-- A firing may complete: the operands that it reads pass the checks, and so do the words that it pops (R44, R189). -/
def Firing.fires (f : Firing) (os : List Operand) : Bool := os.all f.takes && f.c.mayConsume f.op f.w

/-- The address in lanes 1:0 of an operand (R252). -/
def Firing.addressOf (f : Firing) (o : Operand) : Word := (f.raw o).payload.extractLsb' 0 64
/-- Both lanes of an operand's address are valid, and it is aligned (R252, R254). -/
def Firing.addresses (f : Firing) (n : Nat) (o : Operand) : Bool :=
  (f.raw o).ownMask.getLsbD 0 && (f.raw o).ownMask.getLsbD 1 && (f.addressOf o).toNat % n = 0

/-! ### What an engine instruction asks of its descriptor -/

/-- The legend entry of an index is loaded for the kernel of a parcel (R49). -/
def State.hasLegend (s : State) (p idx : Nat) : Bool := ((s.regionOf p).bind fun x => x.2.entry idx).isSome
/-- The base of a tensor stands somewhere: a segment that it names is attached (R48). -/
def State.hasBase (s : State) (p : Nat) (e : Legend) : Bool :=
  ((s.regionOf p).bind fun x => s.legendBase x.1 x.2 e).isSome

/-- The fields that a kind of request takes in its operation word (R148-R151). -/
def TravSlot.opAllowed (t : TravSlot) : Bool :=
  let w := t.opWord
  match t.kind with
  | .copy | .feed => w = 0
  | .gath => w / 2 ^ 11 = 0 && !(t.pageMode && t.toTensor) && !t.fromBuffer
  | .scat => w / 2 ^ 10 = 0
  | .red => w / 2 ^ 24 = 0 && bits w 3 0 ≤ 5 && bits w 7 5 < 4 && bits w 15 8 ≤ bits w 23 16
  | _ => true

/-- A request's descriptor is one that its kind allows: its tensors are loaded, its patterns lie in them and keep to whole
words, and its index legend holds a row of indices (R148-R151). -/
def State.describes (s : State) (p : Nat) (t : TravSlot) : Bool :=
  let se := s.legendAt p t.srcIndex
  let de := s.legendAt p t.dstIndex
  let ix := s.legendAt p (t.opWord % 1024)
  t.srcIndex < 1024 && t.dstIndex < 1024 && (t.toTensor || (t.dstIndex = 0 && t.dstarts = 0)) && t.opAllowed &&
  (!(t.kind = .gath || t.kind = .scat) || (s.hasLegend p (t.opWord % 1024) && (lgFormat ix = 2 || lgFormat ix = 3) &&
    lgDim ix 1 = 1 && lgDim ix 2 = 1 && lgDim ix 3 = 1 && patStart t.starts 1 + patCount t.counts 1 ≤ lgDim ix 0)) &&
  (t.kind = .fill || (s.hasLegend p t.srcIndex && spanOk se t.starts t.counts (t.kind = .gath) &&
    (!t.pageMode || pageOk se t))) &&
  (!t.toTensor || (s.hasLegend p t.dstIndex && spanOk de t.dstarts t.counts (t.kind = .scat) &&
    (t.kind ≠ .red || (redFormat (lgFormat de) (bits t.opWord 3 0) && s.hasBase p de)) &&
    (t.kind = .fill || lgFormat se = lgFormat de)))

/-- How many link words of its pattern a request takes from its source, or fills. -/
def State.travWords (s : State) (p : Nat) (t : TravSlot) : Nat :=
  if t.kind = .fill then
    if t.toTensor then patWords (s.legendAt p t.dstIndex) t.counts else bufSize (s.buffer p t.handle) / 64
  else patWords (s.legendAt p t.srcIndex) t.counts
/-- How many units a request performs: words, or the blocks of a reduction's destination. -/
def State.travUnits (s : State) (p : Nat) (t : TravSlot) : Nat :=
  if t.kind = .red then
    let de := s.legendAt p t.dstIndex
    (redBlocks (((s.regionOf p).bind fun x => s.legendBase x.1 x.2 de).getD 0) de t).length
  else s.travWords p t

/-- The entries that a request names may be named: a feed's ring FREE and of one size, a source entry FULL and a destination
entry FREE and large enough, and no overlay of the target is open for another requester (R151, R156, R79). -/
def State.namesEntries (s : State) (p : Nat) (t : TravSlot) : Bool :=
  let b := s.buffer p t.handle
  let ring := (List.range t.ringLen).map fun i => s.buffer p ((t.handle + i) % 128)
  (if t.kind = .feed then ring.all fun x => bufState x = 0 && bufSize x = bufSize b && bufSize x ≠ 0
   else if t.fromBuffer then bufState b = 2 && 64 * s.travWords p t ≤ bufSize b
   else !t.fills || (bufState b = 0 && 64 * s.travWords p t ≤ bufSize b)) &&
  (!t.shadow || !s.overlayTaken p (!t.toTensor) (if t.toTensor then t.dstIndex else t.handle))

/-- A descriptor of `GR.LDW` that the spec allows: a block of B inside its tensor that fits the weight store (R332). -/
def State.allowsLoad (s : State) (p : Nat) (c : GrCommand) : Bool :=
  let d := c.desc
  let e := s.legendAt p (field d 16 2)
  let k0 := field d 0 2
  let n0 := field d 2 2
  let k := field d 8 2 + 1
  let n := field d 10 2 + 1
  (field d 4 4 = 0 && field d 12 4 = 0 && field d 20 12 = 0) && s.hasLegend p (field d 16 2) &&
  ((operandFormat (lgFormat e) || lgIsTcw e) && k0 + k ≤ lgDim e 0 && n0 + n ≤ lgDim e 1) &&
  (!lgIsBlock e || (k0 % lgBlock e = 0 && k % lgBlock e = 0)) && (!lgIsTcw e || (k0 = 0 && k = lgDim e 0)) &&
  64 * field d 18 2 + loadBytes (lgFormat e) (lgBlock e) k n ≤ 0x40000

/-- A descriptor of `GR.MM` that the spec allows (R333). -/
def State.allowsMultiply (s : State) (p : Nat) (c : GrCommand) : Bool :=
  let d := c.desc
  let a := s.legendAt p c.mmA
  let e := s.legendAt p c.target
  (field d 14 1 ≤ 1 && field d 15 1 = 0 && field d 24 8 = 0 && (c.stream || c.staging = 0)) && (!c.shadow || c.autodrain) &&
  s.hasLegend p c.mmA && (operandFormat (lgFormat a) && c.m0 + c.mmM ≤ lgDim a (if c.transposed then 1 else 0)) &&
  (!lgIsBlock a || (if c.transposed then c.mmK0 % lgBlock a = 0 else c.m0 % lgBlock a = 0 && c.mmM % lgBlock a = 0)) &&
  (!c.stream || (lgFormat a ≠ 10 && !c.transposed && c.staging % 64 = 0 &&
    c.staging + 2 * 256 * stepWords a (min 128 c.mmM) * 64 ≤ 0x60000)) &&
  (if c.autodrain then s.hasLegend p c.target && (drainFormat (lgFormat e) && drainWordOk c.drainWord.toNat e false &&
      c.mmRow0 + c.mmM ≤ lgDim e 1 && (!lgIsBlock e || c.mmCol0 % lgBlock e = 0))
   else c.target = 0 && field d 16 8 = 0)

/-- A descriptor of `GR.SCAN` that the spec allows (R334). -/
def State.allowsScan (s : State) (p : Nat) (c : GrCommand) : Bool :=
  let d := c.desc
  let fits := fun (i : Nat) =>
    let e := s.legendAt p i
    s.hasLegend p i && (8 ≤ lgFormat e && lgFormat e ≤ 10 && c.scanN ≤ lgDim e 0 && c.scanM ≤ lgDim e 1 &&
      c.scanT0 + c.scanT ≤ lgDim e 2)
  (c.scanM ≤ 128 && c.scanN ≤ 256 && field d 14 2 = 0 && field d 20 12 = 0 && (c.output || (c.target = 0 && !c.shadow))) &&
  fits (field d 0 2) && fits (field d 2 2) && drainWordOk c.drainWord.toNat (s.legendAt p (field d 0 2)) true &&
  (!c.output || fits c.target)

/-- A descriptor of `GR.DRN` that the spec allows (R335). -/
def State.allowsDrain (s : State) (p : Nat) (c : GrCommand) : Bool :=
  let d := c.desc
  let e := s.legendAt p c.target
  let rows := field d 4 2 + 1
  let cols := field d 6 2 + 1
  (field d 2 2 = 0 && field d 20 12 = 0 && field d 8 2 + rows ≤ 128 && field d 10 2 + cols ≤ 256) &&
  s.hasLegend p c.target && (drainFormat (lgFormat e) && drainWordOk c.drainWord.toNat e false &&
    field d 12 2 + rows ≤ lgDim e 1 && field d 14 2 + cols ≤ lgDim e 0) &&
  (!lgIsBlock e || (field d 14 2 % lgBlock e = 0 && cols % lgBlock e = 0))

end Sys2Proof.Machine
end

