-- ==== Sys2Proof/Certificates/Slice0/Obligations.lean ====
section
/-! DEFINITION. The statements about the model, each with the rules of spec/ that it rests on. -/

open Sys2Proof Sys2Proof.Machine

/-- Register forms of the Surveyor's arithmetic (R115). Each register form of major 0x01 completes: it writes xd with
its operation on xa and xb and goes on to the next word. -/
def Obligations.RegisterArithmetic : Prop :=
  ∀ (s : State) (rd ra rb : Reg),
    let a := s.reg ra
    let b := s.reg rb
    exec (.add rd ra rb) s = .next (s.writeReg rd (a + b)) ∧
    exec (.sub rd ra rb) s = .next (s.writeReg rd (a - b)) ∧
    exec (.mul rd ra rb) s = .next (s.writeReg rd (a * b)) ∧
    exec (.mulh rd ra rb) s = .next (s.writeReg rd (BitVec.ofInt 64 (a.toInt * b.toInt / 2 ^ 64))) ∧
    exec (.mulhn rd ra rb) s = .next (s.writeReg rd (BitVec.ofNat 64 (a.toNat * b.toNat / 2 ^ 64))) ∧
    (b ≠ 0 → exec (.div rd ra rb) s = .next (s.writeReg rd (BitVec.ofInt 64 (a.toInt.tdiv b.toInt)))) ∧
    (b ≠ 0 → exec (.divn rd ra rb) s = .next (s.writeReg rd (BitVec.ofNat 64 (a.toNat / b.toNat)))) ∧
    (b ≠ 0 → exec (.rem rd ra rb) s = .next (s.writeReg rd (BitVec.ofInt 64 (a.toInt.tmod b.toInt)))) ∧
    (b ≠ 0 → exec (.remn rd ra rb) s = .next (s.writeReg rd (BitVec.ofNat 64 (a.toNat % b.toNat)))) ∧
    exec (.and rd ra rb) s = .next (s.writeReg rd (a &&& b)) ∧
    exec (.or rd ra rb) s = .next (s.writeReg rd (a ||| b)) ∧
    exec (.xor rd ra rb) s = .next (s.writeReg rd (a ^^^ b)) ∧
    exec (.sll rd ra rb) s = .next (s.writeReg rd (a <<< (b.toNat % 64))) ∧
    exec (.srl rd ra rb) s = .next (s.writeReg rd (a >>> (b.toNat % 64))) ∧
    exec (.sra rd ra rb) s = .next (s.writeReg rd (a.sshiftRight (b.toNat % 64))) ∧
    exec (.slt rd ra rb) s = .next (s.writeReg rd (if a.toInt < b.toInt then 1 else 0)) ∧
    exec (.sltn rd ra rb) s = .next (s.writeReg rd (if a.toNat < b.toNat then 1 else 0)) ∧
    exec (.min rd ra rb) s = .next (s.writeReg rd (if a.toInt < b.toInt then a else b)) ∧
    exec (.max rd ra rb) s = .next (s.writeReg rd (if a.toInt < b.toInt then b else a)) ∧
    exec (.minn rd ra rb) s = .next (s.writeReg rd (if a.toNat < b.toNat then a else b)) ∧
    exec (.maxn rd ra rb) s = .next (s.writeReg rd (if a.toNat < b.toNat then b else a)) ∧
    exec (.clz rd ra) s = .next (s.writeReg rd (BitVec.ofNat 64 (clzNat 64 a.toNat))) ∧
    exec (.ctz rd ra) s = .next (s.writeReg rd (BitVec.ofNat 64 (ctzNat 64 a.toNat))) ∧
    exec (.popc rd ra) s = .next (s.writeReg rd (BitVec.ofNat 64 (popcNat 64 a.toNat)))

/-- What the bit counts count (R54, R115). For a number x of w bits that is not 0, clz leaves the highest set bit at w -
1 - clz, ctz is the index of the lowest set bit; both are w for 0, and popc is the number of set bits. -/
def Obligations.BitCounts : Prop :=
  ∀ w x : Nat, x < 2 ^ w →
    (x ≠ 0 → clzNat w x < w ∧ 2 ^ (w - 1 - clzNat w x) ≤ x ∧ x < 2 ^ (w - clzNat w x)) ∧
    (x ≠ 0 → ctzNat w x < w ∧ x % 2 ^ ctzNat w x = 0 ∧ x / 2 ^ ctzNat w x % 2 = 1) ∧
    clzNat w 0 = w ∧ ctzNat w 0 = w ∧
    popcNat w x = ((List.range w).filter fun i => x.testBit i).length

/-- Division by zero traps, and the one overflow wraps (R116). A divisor of 0 takes the trap INT_DIVZERO with xa as its
value; DIV of the lowest number by -1 gives that number and REM gives 0, without a fault. -/
def Obligations.DivisionByZero : Prop :=
  ∀ (s : State) (rd ra rb : Reg),
    (s.reg rb = 0 →
      exec (.div rd ra rb) s = .next (s.trapEntry s.here 0x13 (s.reg ra) 0 false) ∧
      exec (.divn rd ra rb) s = .next (s.trapEntry s.here 0x13 (s.reg ra) 0 false) ∧
      exec (.rem rd ra rb) s = .next (s.trapEntry s.here 0x13 (s.reg ra) 0 false) ∧
      exec (.remn rd ra rb) s = .next (s.trapEntry s.here 0x13 (s.reg ra) 0 false)) ∧
    (s.reg ra = 0x8000000000000000 → s.reg rb = 0xFFFFFFFFFFFFFFFF →
      exec (.div rd ra rb) s = .next (s.writeReg rd 0x8000000000000000) ∧
      exec (.rem rd ra rb) s = .next (s.writeReg rd 0))

/-- Immediate forms of the Surveyor's arithmetic (R117). Each immediate form of the majors 0x08 to 0x12 completes with
its register form's result on the extended immediate. -/
def Obligations.ImmediateArithmetic : Prop :=
  ∀ (s : State) (rd ra : Reg) (imm : BitVec 16) (sh : BitVec 6),
    let a := s.reg ra
    let sx : Word := imm.signExtend 64
    let zx : Word := imm.setWidth 64
    exec (.addImmediate rd ra imm) s = .next (s.writeReg rd (a + sx)) ∧
    exec (.andImmediate rd ra imm) s = .next (s.writeReg rd (a &&& zx)) ∧
    exec (.orImmediate rd ra imm) s = .next (s.writeReg rd (a ||| zx)) ∧
    exec (.xorImmediate rd ra imm) s = .next (s.writeReg rd (a ^^^ zx)) ∧
    exec (.sllImmediate rd ra sh) s = .next (s.writeReg rd (a <<< sh.toNat)) ∧
    exec (.srlImmediate rd ra sh) s = .next (s.writeReg rd (a >>> sh.toNat)) ∧
    exec (.sraImmediate rd ra sh) s = .next (s.writeReg rd (a.sshiftRight sh.toNat)) ∧
    exec (.sltImmediate rd ra imm) s = .next (s.writeReg rd (if a.toInt < sx.toInt then 1 else 0)) ∧
    exec (.sltnImmediate rd ra imm) s = .next (s.writeReg rd (if a.toNat < sx.toNat then 1 else 0)) ∧
    exec (.mulImmediate rd ra imm) s = .next (s.writeReg rd (a * sx)) ∧
    exec (.lih rd ra imm) s = .next (s.writeReg rd (a <<< 16 ||| zx))

/-- What writing a register changes (R89, R113). After writeReg, the register named holds the value, x0 still reads 0
and a write to it is discarded, every other register and every other register of control is as before, the program
counter is one word on, and nothing else of the device changes: other cores, cells, memory, versions, buffers,
stations and regions. -/
def Obligations.WriteRegisterFrame : Prop :=
  ∀ (s : State) (rd : Reg) (v : Word),
    let t := s.writeReg rd v
    let c := s.core s.here
    let d := t.core s.here
    (∀ r : Reg, t.reg r = if r = 0 then 0 else if r = rd then v else s.reg r) ∧
    d.pc = c.pc + 4 ∧
    (d.tcause, d.tval, d.tepc, d.hangiv, d.asid, d.chprio, d.flags) =
      (c.tcause, c.tval, c.tepc, c.hangiv, c.asid, c.chprio, c.flags) ∧
    (d.trap, d.wake, d.cls, d.ch, d.running, d.channels) = (c.trap, c.wake, c.cls, c.ch, c.running, c.channels) ∧
    (∀ q, q ≠ s.here → t.core q = s.core q) ∧
    (∀ q m, t.cell q m = s.cell q m) ∧
    (∀ q h, t.buffer q h = s.buffer q h) ∧ (∀ q n, t.station q n = s.station q n) ∧
    (∀ a, t.mem.get a = s.mem.get a) ∧ t.versions = s.versions ∧ t.regions = s.regions ∧ t.slices = s.slices

/-- Branches (R110, R126). A branch whose condition holds goes to its target where that is a multiple of 4 and raises
MISALIGNED with the target as its value where it is not; a branch whose condition fails goes on. -/
def Obligations.Branches : Prop :=
  ∀ (s : State) (ra rb : Reg) (off : BitVec 16),
    let a := s.reg ra
    let b := s.reg rb
    let t := (s.core s.here).pc + (off.signExtend 64 <<< 2)
    let go : Bool → State := fun c =>
      if c then (if t.toNat % 4 = 0 then s.onCore s.here fun c => { c with pc := t } else s.trapEntry s.here 4 t 0 false)
      else s.onCore s.here fun c => { c with pc := c.pc + 4 }
    exec (.beq ra rb off) s = .next (go (a = b)) ∧
    exec (.bne ra rb off) s = .next (go (a ≠ b)) ∧
    exec (.blt ra rb off) s = .next (go (a.toInt < b.toInt)) ∧
    exec (.bge ra rb off) s = .next (go (b.toInt ≤ a.toInt)) ∧
    exec (.bltn ra rb off) s = .next (go (a.toNat < b.toNat)) ∧
    exec (.bgen ra rb off) s = .next (go (b.toNat ≤ a.toNat))

/-- Jumps link and go (R127). JAL and JALR to an aligned target write the address of the next word and go there, JALR
taking its target before it writes; a target that is no multiple of 4 raises MISALIGNED. -/
def Obligations.Jumps : Prop :=
  ∀ (s : State) (rd ra : Reg) (off : BitVec 21) (imm : BitVec 16),
    let pc := (s.core s.here).pc
    let t := pc + (off.signExtend 64 <<< 2)
    let u := s.reg ra + imm.signExtend 64
    (t.toNat % 4 = 0 → exec (.jal rd off) s = .next (s.onCore s.here fun c => { c.put rd (pc + 4) with pc := t })) ∧
    (u.toNat % 4 = 0 → exec (.jalr rd ra imm) s = .next (s.onCore s.here fun c => { c.put rd (pc + 4) with pc := u })) ∧
    (t.toNat % 4 ≠ 0 → exec (.jal rd off) s = .next (s.trapEntry s.here 4 t 0 false)) ∧
    (u.toNat % 4 ≠ 0 → exec (.jalr rd ra imm) s = .next (s.trapEntry s.here 4 u 0 false))

/-- Taking a trap (R93, R94, R104). Taking a trap with TSTAT.t = 0 and ch127 bound, and no debugger on the region, saves
the program counter in TEPC, the engine and code in TCAUSE and the value in TVAL, sets t and w, keeps the channel
and the class, and goes to the handler of ch127; every general register and every byte of memory stays. -/
def Obligations.TrapEntry : Prop :=
  ∀ (s : State) (p : Nat) (code : Byte) (value : Word) (engine : Nat) (late : Bool),
    (s.core p).trap = false → ((s.core p).channel 127).bound = true → (∀ x, s.regionOf p = some x → s.debugged x.1 = false) →
    let c := s.core p
    let t := s.trapEntry p code value engine late
    let d := t.core p
    d.tepc = c.pc ∧ d.tcause = BitVec.ofNat 64 (engine * 256 + code.toNat) ∧ d.tval = value ∧
    d.trap = true ∧ d.wake = late ∧ d.pc = (c.channel 127).handler ∧
    d.regs = c.regs ∧ d.cls = c.cls ∧ d.ch = c.ch ∧ d.flags = c.flags ∧ d.chprio = c.chprio ∧ d.hangiv = c.hangiv ∧
    (∀ q, q ≠ p → t.core q = s.core q) ∧ (∀ a, t.mem.get a = s.mem.get a) ∧ t.regions = s.regions

/-- A trap inside a trap, or without a handler, ends the region (R104, R106). With TSTAT.t = 1 or ch127 unbound, a trap
stops the core and has the region controller abort the region, whose completion gets the code, the parcel and the
value. -/
def Obligations.TrapInsideTrap : Prop :=
  ∀ (s : State) (p : Nat) (code : Byte) (value : Word) (engine : Nat) (late : Bool),
    ((s.core p).trap = true ∨ ((s.core p).channel 127).bound = false) →
    s.trapEntry p code value engine late =
      ((s.log 1 code p (s.core p).asid value).onCore p fun c => { c with stopped := true, running := false }).abortAt p code
        value

/-- Returning from a trap, and ending a task (R105). TRET with t = 1 goes to TEPC and clears t where TEPC is a multiple
of 4; with t = 0 it raises ILLEGAL_INSTRUCTION; ENDT ends the task and clears t and w; a fault packet's task starts
with t = 0. -/
def Obligations.TrapReturn : Prop :=
  (∀ s : State, (s.core s.here).trap = true → (s.core s.here).tepc.toNat % 4 = 0 →
    exec .tret s = .next (s.onCore s.here fun c => { c with pc := c.tepc, trap := false })) ∧
  (∀ s : State, (s.core s.here).trap = false →
    exec .tret s = .next (s.trapEntry s.here 3 (instrWord .tret) 0 false)) ∧
  (∀ s : State, ∃ t, exec .endt s = .next t ∧ (t.core s.here).running = false ∧ (t.core s.here).trap = false ∧
    (t.core s.here).wake = false ∧ (t.parcel s.here).staged = none ∧ (t.core s.here).regs = (s.core s.here).regs) ∧
  (∀ (s : State) (p k ch : Nat) (e : ChannelEvent) (rest : List ChannelEvent),
    ((s.startTask p k ch e rest).core p).trap = false ∧ ((s.startTask p k ch e rest).core p).wake = false)

/-- Words that no entry assigns, and failed fetches (R93, R104, R110, R111). What the event for a word that no entry
assigns does, whatever the word it carries: it raises ILLEGAL_INSTRUCTION with the word as TVAL and, in the engine
format, the engine number of the word in TCAUSE, which is the model's choice (log 74); what the event for a fetch
that cannot be translated does: it raises its code with the program counter as TVAL. -/
def Obligations.FetchTraps : Prop :=
  ∀ (s : State) (word : BitVec 32) (code : Byte),
    exec (.illegalInstructionWord word) s = .next (s.trapEntry s.here 3 (word.setWidth 64)
      (if word.extractLsb' 26 6 = 0x3E then (word.extractLsb' 22 4).toNat else 0) false) ∧
    exec (.instructionFetchFault code) s = .next (s.trapEntry s.here code (s.core s.here).pc 0 false)

/-- Loads (R108, R118, R465). An aligned load that translates, and whose bytes are read, writes the value extended as
its type says and goes on; a load from host memory issues a request, where the port has a tag, and waits; a
misaligned load raises MISALIGNED with its address. -/
def Obligations.Loads : Prop :=
  ∀ (s : State) (rd ra : Reg) (sc : Scope) (off : BitVec 12),
    let u := Writer.core s.here
    let at_ : Nat → Word := fun size => s.reg ra + off.signExtend 64 * BitVec.ofNat 64 size
    let done : Instr → Nat → Bool → Prop := fun i size signed =>
      (∀ m s1 bs s2, (at_ size).toNat % size = 0 → translate u (at_ size) .read s = .ok m s1 →
        (∀ x, placeOf m.pa ≠ .host x) → readAt u sc m size (at_ size) s1 = .ok bs s2 →
        exec i s = .next (s2.writeReg rd (extend signed bs))) ∧
      (∀ m s1 x, (at_ size).toNat % size = 0 → translate u (at_ size) .read s = .ok m s1 → placeOf m.pa = .host x →
        s1.hostFull = false →
        exec i s = .next ((s1.askHost (.coreLoad s.here rd size signed (at_ size) x) [.read x size]).onCore s1.here fun c =>
          { c with waiting := some s1.host.nextTag })) ∧
      ((at_ size).toNat % size ≠ 0 → exec i s = .next (s.trapEntry s.here 4 (at_ size) 0 false))
    done (.ldS8 rd ra sc off) 1 true ∧ done (.ldN8 rd ra sc off) 1 false ∧
    done (.ldS16 rd ra sc off) 2 true ∧ done (.ldN16 rd ra sc off) 2 false ∧
    done (.ldS32 rd ra sc off) 4 true ∧ done (.ldN32 rd ra sc off) 4 false ∧ done (.ldN64 rd ra sc off) 8 false

/-- What a loaded value is (R2, R113, R118). The bytes are little-endian; without a sign the value is their number, and
with a sign the signed number that they hold. -/
def Obligations.LoadExtension : Prop :=
  ∀ bs : List Byte, bs.length = 1 ∨ bs.length = 2 ∨ bs.length = 4 ∨ bs.length = 8 →
    (extend false bs).toNat = Decode.leNat bs ∧
    (extend true bs).toInt = (BitVec.ofNat (8 * bs.length) (Decode.leNat bs)).toInt

/-- Stores (R70, R108, R118). An aligned store whose write is carried out stores the low bytes of xd, little-endian, and
goes on; a misaligned store raises MISALIGNED with its address, and one whose translation faults raises that fault
on the state before it. -/
def Obligations.Stores : Prop :=
  ∀ (s : State) (rd ra : Reg) (sc : Scope) (off : BitVec 12),
    let u := Writer.core s.here
    let at_ : Nat → Word := fun size => s.reg ra + off.signExtend 64 * BitVec.ofNat 64 size
    let done : Instr → Nat → Prop := fun i size =>
      (∀ s1, (at_ size).toNat % size = 0 →
        writeVa u .plain sc (at_ size) (Decode.leBytes size (s.reg rd).toNat) s = .ok () s1 →
        exec i s = .next (s1.advance s1.here)) ∧
      ((at_ size).toNat % size ≠ 0 → exec i s = .next (s.trapEntry s.here 4 (at_ size) 0 false)) ∧
      (∀ c v s1, (at_ size).toNat % size = 0 → translate u (at_ size) .write s = .error (.fault c v) s1 → c ≠ 3 →
        exec i s = .next (s.trapEntry s.here c v 0 false))
    done (.stN8 rd ra sc off) 1 ∧ done (.stN16 rd ra sc off) 2 ∧ done (.stN32 rd ra sc off) 4 ∧ done (.stN64 rd ra sc off) 8

/-- What a store to a scratchpad bank changes (R57, R62, R118). A store of a core, of 1, 2, 4 or 8 bytes, to a
scratchpad bank of a parcel that no segment reserves writes exactly its bytes: every byte outside them reads as
before, the version of the sector that they stand in grows by one and every other version stays, and no register,
flag, cell or buffer changes; the address is the one the store computes. -/
def Obligations.StoreFrame : Prop :=
  ∀ (s s1 t : State) (rd ra : Reg) (sc : Scope) (off : BitVec 12) (m : Mapping) (p o : Nat),
    let frame : Instr → Nat → Prop := fun i n =>
      let va := s.reg ra + off.signExtend 64 * BitVec.ofNat 64 n
      let a0 := s1.resolve m.pa
      va.toNat % n = 0 → translate (.core s.here) va .write s = .ok m s1 → placeOf m.pa = .parcel p o → o < 0x60000 →
      (∃ s2, reserveCheck (.core s.here) m.pa n va s1 = .ok () s2) → s.mem.wf = true → exec i s = .next t →
      (∀ a, (a < a0 ∨ a0 + n ≤ a) → t.mem.get a = s.mem.get a) ∧
      (∀ k < n, t.mem.get (a0 + k) = BitVec.ofNat 8 ((s.reg rd).toNat / 256 ^ k)) ∧
      (∀ k, t.versions.look 0 k = if k ∈ sectorsOf a0 n then s.versions.look 0 k + 1 else s.versions.look 0 k) ∧
      (∀ q, (t.core q).regs = (s.core q).regs ∧ (t.core q).flags = (s.core q).flags ∧ (t.core q).trap = (s.core q).trap) ∧
      (∀ q k, t.cell q k = s.cell q k) ∧ (∀ q h, t.buffer q h = s.buffer q h)
    frame (.stN8 rd ra sc off) 1 ∧ frame (.stN16 rd ra sc off) 2 ∧ frame (.stN32 rd ra sc off) 4 ∧
    frame (.stN64 rd ra sc off) 8

/-- Fences, prefetch and the meridian (R25, R72, R73, R119, R125). A fence releases and then acquires at its scope, its
two halves do one of these, a prefetch of an address that does not translate does nothing, MERID reads the meridian,
and each goes on to the next word. -/
def Obligations.OrderingInstructions : Prop :=
  ∀ (s : State) (rd ra : Reg) (sc : Scope) (off : BitVec 12),
    let u := Writer.core s.here
    let va := s.reg ra + off.signExtend 64 * 64
    exec (.fence sc) s = .next (((s.release u sc).acquire u sc).advance s.here) ∧
    exec (.fenceAcq sc) s = .next ((s.acquire u sc).advance s.here) ∧
    exec (.fenceRel sc) s = .next ((s.release u sc).advance s.here) ∧
    exec (.merid rd) s = .next (s.writeReg rd s.meridian) ∧
    (∀ m s1, translate u va .read s = .ok m s1 → placeOf m.pa = .hbm →
      exec (.pref ra sc off) s =
        .next ((s1.scopedRead u sc (leafNoAllocate m.leaf) (m.pa / 64 * 64) 64).2.advance s.here)) ∧
    (∀ c s1, translate u va .read s = .error c s1 → exec (.pref ra sc off) s = .next (s.advance s.here))

/-- Versioned loads (R64, R65, R120). A versioned load whose data is there writes it, extended, and clears FLAGS.nr; one
whose version is still to come leaves xd and sets FLAGS.nr; both go on. -/
def Obligations.VersionedLoads : Prop :=
  ∀ (s : State) (rd ra rb : Reg) (sx : Bool) (size : BitVec 2) (sc : Scope),
    let u := Writer.core s.here
    let n := 2 ^ size.toNat
    let load : Bool → Act (Option (List Byte)) := fun eq => do
      let m ← translate u (s.reg ra) .versionRead
      loadVersion u false sc m n ((s.reg rb).setWidth 12) eq (s.reg ra)
    let done : Instr → Bool → Prop := fun i eq =>
      (∀ bs s1, (s.reg ra).toNat % n = 0 → load eq s = .ok (some bs) s1 →
        exec i s = .next ((s1.writeReg rd (extend sx bs)).onCore s.here fun c => { c with flags := c.flags &&& ~~~2 })) ∧
      (∀ s1, (s.reg ra).toNat % n = 0 → load eq s = .ok none s1 →
        exec i s = .next ((s1.advance s1.here).onCore s.here fun c => { c with flags := c.flags ||| 2 })) ∧
      ((s.reg ra).toNat % n ≠ 0 → exec i s = .next (s.trapEntry s.here 4 (s.reg ra) 0 false))
    done (.ldvGe rd ra rb sx size sc) false ∧ done (.ldvEq rd ra rb sx size sc) true

/-- The distance of a version (R63). A version's distance is the signed 12-bit difference, between -2,048 and 2,047: 0
where the versions are equal, and every version has one. -/
def Obligations.VersionDistance : Prop :=
  ∀ v c : BitVec 12,
    -2048 ≤ distance v c ∧ distance v c ≤ 2047 ∧ (distance v c - ((v.toNat : Int) - c.toNat)) % 4096 = 0 ∧
    (distance v c = 0 ↔ v = c)

/-- Store-releases and reclaims (R66, R67, R121, R122). STV and STV.KEEP to an aligned address that translates and may
be versioned release at their scope, store, keep the new version where asked on a tracked page, and write the
version they created; RECLAIM of no sectors at an aligned address touches nothing and goes on; of one sector that
translates and may be versioned it retires the versions below its floor where the page is tracked; of up to 4,096,
the same for each sector in order; and of more it is illegal. -/
def Obligations.StoreReleases : Prop :=
  ∀ (s : State) (rd ra rb : Reg) (size : BitVec 2) (sc : Scope),
    let u := Writer.core s.here
    let va := s.reg ra
    let n := 2 ^ size.toNat
    let stored : Mapping → State → State := fun m s1 =>
      (s1.release u sc).storeVersion u (leafNoAllocate m.leaf) m.pa (Decode.leBytes n (s.reg rb).toNat)
    (∀ m s1 s2, va.toNat % n = 0 → translate u va .write s = .ok m s1 → versionCheck u m n va s1 = .ok () s2 →
      exec (.stv rd ra rb size sc) s =
        .next ((stored m s2).writeReg rd (((stored m s2).version m.pa).setWidth 64))) ∧
    (∀ m s1 s2, va.toNat % n = 0 → translate u va .write s = .ok m s1 → versionCheck u m n va s1 = .ok () s2 →
      leafTracked m.leaf = true →
      exec (.stvKeep rd ra rb size sc) s = .next (((stored m s2).keepVersion m.pa).writeReg rd
        ((((stored m s2).keepVersion m.pa).version m.pa).setWidth 64))) ∧
    (va.toNat % 32 = 0 → s.reg rd = 0 → exec (.reclaim rd ra rb) s = .next (s.advance s.here)) ∧
    (∀ m s1 s2, va.toNat % 32 = 0 → s.reg rd = 1 → translate u va .reclaim s = .ok m s1 →
      versionCheck u m 32 va s1 = .ok () s2 →
      exec (.reclaim rd ra rb) s = .next
        ((if leafTracked m.leaf then s2.retire m.pa ((s.reg rb).setWidth 12) else s2).advance s2.here)) ∧
    (∀ ms s1, va.toNat % 32 = 0 → (s.reg rd).toNat ≤ 4096 →
      ((List.range (s.reg rd).toNat).mapM fun k => do
        let m ← translate u (va + BitVec.ofNat 64 (32 * k)) .reclaim
        versionCheck u m 32 (va + BitVec.ofNat 64 (32 * k))
        pure m : Act (List Mapping)) s = .ok ms s1 →
      let t := ms.foldl
        (fun t m => if leafTracked m.leaf then State.retire t m.pa ((s.reg rb).setWidth 12) else t) s1
      exec (.reclaim rd ra rb) s = .next (t.advance t.here)) ∧
    (va.toNat % 32 = 0 → 4096 < (s.reg rd).toNat →
      exec (.reclaim rd ra rb) s = .next (s.trapEntry s.here 3 (instrWord (.reclaim rd ra rb)) 0 false))

/-- Atomics (R123, R124, R462, R465). An aligned atomic that translates to HBM is performed at the home of its scope,
the unit's own earlier stores of the sector first; one that translates to other memory of the device which may hold
versions is performed there; each writes the old value, sign-extended for MIN and MAX at n32, and goes on. ADD, SWP
and CAS to host memory issue an AtomicOp request, where those are enabled and the port has a tag, and wait; the
other operations are illegal there. The operations are those of R123. -/
def Obligations.Atomics : Prop :=
  (∀ (s : State) (rd ra rb : Reg) (w : AmoWidth) (sc : Scope),
    let u := Writer.core s.here
    let va := s.reg ra
    let n := amoBytes w
    let b := s.amoOperand w rb
    let lvl := scopeLevel u sc
    let done : Instr → AtomOp → Bool → Option (HostAtomic × Nat) → Prop := fun i op signed host =>
      (∀ m s1, va.toNat % n = 0 → translate u va .atomic s = .ok m s1 → placeOf m.pa = .hbm →
        let s2 := s1.pushSector u lvl m.pa
        let path := s2.path u (leafNoAllocate m.leaf) m.pa
        let home := path.filter fun e => lvl ≤ e.1
        let old := Decode.leNat ((List.range n).map fun k => s2.pathByte u lvl (m.pa / 32) (m.pa % 32 + k) home)
        let t := match op.apply (8 * n) old b with
          | some v => s2.storeSector u lvl m.pa (Decode.leBytes n v) path
          | none => s2
        exec i s = .next ((t.amoResult s.here w signed rd old).advance s.here)) ∧
      (∀ m s1 s2, va.toNat % n = 0 → translate u va .atomic s = .ok m s1 → placeOf m.pa ≠ .hbm →
        (∀ x, placeOf m.pa ≠ .host x) → versionCheck u m n va s1 = .ok () s2 →
        let old := Decode.leNat (s2.homeRead m.pa n)
        let t := match op.apply (8 * n) old b with
          | some v => s2.homeWrite m.pa (Decode.leBytes n v)
          | none => s2
        exec i s = .next ((t.amoResult s.here w signed rd old).advance s.here)) ∧
      (∀ m s1 x o cmp, va.toNat % n = 0 → translate u va .atomic s = .ok m s1 → placeOf m.pa = .host x →
        host = some (o, cmp) → s.host.atomicEnable = true → s1.hostFull = false →
        exec i s = .next ((s1.askHost (.coreAmo s.here rd n signed va x o b cmp) [.atomic x n]).onCore s1.here fun c =>
          { c with waiting := some s1.host.nextTag })) ∧
      (∀ m s1 x, va.toNat % n = 0 → translate u va .atomic s = .ok m s1 → placeOf m.pa = .host x →
        host = none → exec i s = .next (s.trapEntry s.here 3 (instrWord i) 0 false)) ∧
      (va.toNat % n ≠ 0 → exec i s = .next (s.trapEntry s.here 4 va 0 false))
    done (.amoAdd rd ra rb w sc) .add false (some (.fetchAdd, 0)) ∧
    done (.amoSwp rd ra rb w sc) .swap false (some (.swap, 0)) ∧
    done (.amoCas rd ra rb w sc) (.cas (s.amoOperand w rd)) false (some (.cas, s.amoOperand w rd)) ∧
    done (.amoMin rd ra rb w sc) (.min true) true none ∧ done (.amoMax rd ra rb w sc) (.max true) true none ∧
    done (.amoMinn rd ra rb w sc) (.min false) false none ∧ done (.amoMaxn rd ra rb w sc) (.max false) false none ∧
    done (.amoAnd rd ra rb w sc) .and false none ∧ done (.amoOr rd ra rb w sc) .or false none ∧
    done (.amoXor rd ra rb w sc) .xor false none) ∧
  (∀ w old b cmp : Nat,
    AtomOp.apply .add w old b = some ((old + b) % 2 ^ w) ∧ AtomOp.apply .swap w old b = some b ∧
    AtomOp.apply (.cas cmp) w old b = (if old = cmp then some b else none) ∧
    AtomOp.apply (.min true) w old b = some (if signedOf w b < signedOf w old then b else old) ∧
    AtomOp.apply (.max true) w old b = some (if signedOf w old < signedOf w b then b else old) ∧
    AtomOp.apply (.min false) w old b = some (min old b) ∧ AtomOp.apply (.max false) w old b = some (max old b) ∧
    AtomOp.apply .and w old b = some (old &&& b) ∧ AtomOp.apply .or w old b = some (old ||| b) ∧
    AtomOp.apply .xor w old b = some (old ^^^ b))

/-- Reading and writing control registers (R91, R92, R133). CSRR of each register of R91 reads it; CSRW, CSRS and CSRC
of a read-write register write it where its reserved bits stay zero and give its old value, and CSRS and CSRC of x0
only read; a number outside the table is illegal in all four, a value that would leave a reserved bit nonzero is
illegal too, and a write of a read-only register by CSRW, or by CSRS or CSRC of another register than x0, raises
PRIVILEGE and changes nothing but what the trap does. -/
def Obligations.ControlRegisters : Prop :=
  ∀ (s : State) (rd ra : Reg) (num : BitVec 16),
    let c := s.core s.here
    let set : Word → State := fun v => s.onCore s.here fun c => c.csrSet num.toNat v
    let writable := num = 1 ∨ num = 2 ∨ num = 3 ∨ num = 5 ∨ num = 7 ∨ num = 8
    let old : Word := (s.csrRead s.here num.toNat).getD 0
    exec (.csrr rd 0) s = .next (s.writeReg rd s.meridian) ∧ exec (.csrr rd 1) s = .next (s.writeReg rd c.tcause) ∧
    exec (.csrr rd 2) s = .next (s.writeReg rd c.tval) ∧ exec (.csrr rd 3) s = .next (s.writeReg rd c.tepc) ∧
    exec (.csrr rd 4) s = .next (s.writeReg rd c.tstat) ∧ exec (.csrr rd 5) s = .next (s.writeReg rd c.hangiv) ∧
    exec (.csrr rd 6) s = .next (s.writeReg rd (c.asid.setWidth 64)) ∧
    exec (.csrr rd 7) s = .next (s.writeReg rd c.chprio) ∧ exec (.csrr rd 8) s = .next (s.writeReg rd c.flags) ∧
    (writable → csrValueOk num.toNat (s.reg ra) = true →
      exec (.csrw rd ra num) s = .next ((set (s.reg ra)).writeReg rd old)) ∧
    (writable → ra ≠ 0 → csrValueOk num.toNat (old ||| s.reg ra) = true →
      exec (.csrs rd ra num) s = .next ((set (old ||| s.reg ra)).writeReg rd old)) ∧
    (writable → ra ≠ 0 → csrValueOk num.toNat (old &&& ~~~(s.reg ra)) = true →
      exec (.csrc rd ra num) s = .next ((set (old &&& ~~~(s.reg ra))).writeReg rd old)) ∧
    (∀ v, s.csrRead s.here num.toNat = some v →
      exec (.csrs rd 0 num) s = .next (s.writeReg rd v) ∧ exec (.csrc rd 0 num) s = .next (s.writeReg rd v)) ∧
    (let illegal : Instr → Prop := fun i => exec i s = .next (s.trapEntry s.here 3 (instrWord i) 0 false)
     (8 < num.toNat → illegal (.csrr rd num) ∧ illegal (.csrw rd ra num) ∧ illegal (.csrs rd ra num) ∧
       illegal (.csrc rd ra num)) ∧
     (writable → csrValueOk num.toNat (s.reg ra) = false → illegal (.csrw rd ra num)) ∧
     (writable → ra ≠ 0 → csrValueOk num.toNat (old ||| s.reg ra) = false → illegal (.csrs rd ra num)) ∧
     (writable → ra ≠ 0 → csrValueOk num.toNat (old &&& ~~~(s.reg ra)) = false → illegal (.csrc rd ra num))) ∧
    (num = 0 ∨ num = 4 ∨ num = 6 →
      let refused : Instr → Prop := fun i => exec i s = .next (s.trapEntry s.here 5 (num.setWidth 64) 0 false)
      refused (.csrw rd ra num) ∧ (ra ≠ 0 → refused (.csrs rd ra num) ∧ refused (.csrc rd ra num)))

/-- Posts, bindings, wakeups and priorities (R95, R96, R102, R128, R129, R130, R132). POST to a parcel of the region
with a place in the outbound queue enters the packet; BINDL binds, and unbinds with handler 0; the three arming
instructions arm their channel's slot; CHP writes one group's class; each goes on. -/
def Obligations.TaskInstructions : Prop :=
  ∀ (s : State) (rd ra rb : Reg),
    let p := s.here
    (∀ o r, s.regionOf p = some (o, r) → wbits (s.reg rd) 63 17 = 0 → wbits (s.reg rd) 15 7 < 2 ^ r.shape →
      (s.core p).outbound.length < 16 →
      ∃ k : Packet, exec (.post rd ra rb) s =
          .next ((s.onCore p fun c => { c with outbound := c.outbound ++ [k] }).advance p) ∧
        k.dest = o + wbits (s.reg rd) 15 7 ∧ k.ch.toNat = wbits (s.reg rd) 6 0 ∧ k.two = wbit (s.reg rd) 16 ∧
        k.word0 = s.reg ra ∧ k.word1 = (if wbit (s.reg rd) 16 then s.reg rb else 0) ∧ k.source = p ∧ k.frontEnd = false) ∧
    ((s.reg rd).toNat < 128 → (s.reg ra).toNat % 4 = 0 →
      exec (.bindl rd ra rb) s =
        .next ((s.onCore p fun c => c.bind s.meridian.toNat (s.reg rd).toNat (s.reg ra) (s.reg rb)).advance p)) ∧
    (s.reg rb &&& 0xFFFFFFFFFFFF0080 = 0 →
      exec (.armt rd ra rb) s = .next ((s.arm p 1 (s.reg rd) (s.reg ra) (s.reg rb)).advance p)) ∧
    (s.reg ra &&& 0xFFFFFFFFFFFF8080 = 0 → exec (.armb rd ra) s = .next ((s.arm p 2 (s.reg rd) 0 (s.reg ra)).advance p)) ∧
    (s.reg ra &&& 0xFFFFFFFFFFFFC080 = 0 → exec (.arms rd ra) s = .next ((s.arm p 3 (s.reg rd) 0 (s.reg ra)).advance p)) ∧
    ((s.reg ra).toNat ≤ 31 → (s.reg rb).toNat ≤ 3 →
      exec (.chp ra rb) s = .next ((s.onCore p fun c =>
        { c with chprio := setF c.chprio (2 * (s.reg ra).toNat + 1) (2 * (s.reg ra).toNat) (s.reg rb).toNat }).advance p))

/-- Exit, abort and log (R135). ECALL 2 logs and goes on; ECALL 0 releases, records the exit status and goes on, ECALL 1
ends the region with its status; after an exit was asked for, both only go on, with no release, which is the model's
choice (log 109); a higher code is illegal. -/
def Obligations.Ecall : Prop :=
  ∀ (s : State) (ra rb : Reg) (o : Nat) (r : Region), s.regionOf s.here = some (o, r) →
    (s.reg ra = 2 → exec (.ecall ra rb) s = .next ((s.log 0 0 s.here r.asid (s.reg rb)).advance s.here)) ∧
    (s.reg ra = 0 → r.exitAsked = false →
      exec (.ecall ra rb) s = .next (((s.release (.core s.here) .y).onRegion o fun r =>
        { r with exitAsked := true, status := (s.reg rb).setWidth 32 }).advance s.here)) ∧
    (s.reg ra = 1 → r.exitAsked = false →
      exec (.ecall ra rb) s = .next (s.endRegion o 1 0 ((s.reg rb).setWidth 32) 0 0 true)) ∧
    ((s.reg ra).toNat ≤ 1 → r.exitAsked = true → exec (.ecall ra rb) s = .next (s.advance s.here)) ∧
    (2 < (s.reg ra).toNat →
      exec (.ecall ra rb) s = .next (s.trapEntry s.here 3 (instrWord (.ecall ra rb)) 0 false))

/-- Station instructions (R161, R165, R171, R172, R173, R174, R175). STN.INIT with its reserved bits zero writes the
station, counts its armed wakeups anew and applies the completion test at once, which R171 does not say and is the
model's choice (log 40); STN.ARV releases at the scope of its station and sends an arrival to the core's own station
or to one of a parcel of its region, or, to an exchange station of another parcel, a marker with the count of its
writes; STN.EXP adds to the pending bytes where they fit; STN.DONE forces completion; STN.TEST reads the station,
acquiring at its scope where it is complete. -/
def Obligations.StationInstructions : Prop :=
  ∀ (s : State) (rd ra rb : Reg),
    let p := s.here
    let a := s.reg ra
    let b := s.reg rb
    let n := wbits a 5 0
    let x := s.station p n
    let settled : State → State := fun t => t.settleExchange p (t.exchangeFuel p)
    (wbits a 7 6 = 0 → wbits a 15 14 = 0 → wbits a 63 32 = 0 → wbits b 63 36 = 0 → wbits a 11 8 ≤ 6 → 
      (wbit a 13 = false ∨ ∀ e ∈ (s.parcel p).stations, e.1 ≠ n → stnExchange e.2 = false) →
      exec (.stnInit ra rb) s = .next ((settled
        (((s.initStation p n (stationInit x a b)).onCore p fun c => c.recount n).testStation p n)).advance p)) ∧
    (∀ o r, s.regionOf p = some (o, r) → wbits a 63 6 = 0 →
      exec (.stnArv ra) s = .next (({ s.release (.core p) (scopeOfCode (stnScope x)) with
        signals := (s.release (.core p) (scopeOfCode (stnScope x))).signals ++ [.arrive p n (p, 0, 0)] } : State).advance p)) ∧
    (∀ o r q t, s.regionOf p = some (o, r) → wbits a 63 16 = 0 → wbit a 6 = true → wbits a 15 7 < 2 ^ r.shape →
      q = o + wbits a 15 7 → t = s.release (.core p) (scopeOfCode (stnScope (s.station q n))) →
      (stnExchange (s.station q n) = false →
        exec (.stnArv ra) s = .next (({ t with signals := t.signals ++ [.arrive q n (p, 0, 0)] } : State).advance p)) ∧
      (stnExchange (s.station q n) = true →
        exec (.stnArv ra) s = .next ((({ t with signals := t.signals ++ [.marker q n p (s.exchangePhase p)
            ((s.parcel p).exch.sent.look 0 (q * 4 + s.exchangePhase p))] } : State).onExchange p fun e =>
          { e with sent := e.sent.drop (q * 4 + s.exchangePhase p) }).advance p))) ∧
    (wbits a 63 6 = 0 → wbits b 63 36 = 0 → stnPending x + b.toNat < 2 ^ 36 → stnComplete x = false → stnFault x = false →
      exec (.stnExp ra rb) s = .next ((s.setStation p n (setF x 95 60 (stnPending x + b.toNat))).advance p)) ∧
    (wbits a 63 6 = 0 → wbits b 63 36 = 0 → (2 ^ 36 ≤ stnPending x + b.toNat ∨ stnComplete x = true ∨ stnFault x = true) →
      exec (.stnExp ra rb) s = .next (s.trapEntry p 0x31 a 0 false)) ∧
    (wbits a 63 6 = 0 →
      exec (.stnDone ra) s = .next ((settled ((s.setStation p n
        (setF (setF (setF x 111 96 (stnExpected x)) 95 60 0) 50 50 1)).testStation p n)).advance p)) ∧
    (wbits a 63 6 = 0 → stnComplete x = false → exec (.stnTest rd ra) s = .next (s.writeReg rd (stationWord x))) ∧
    (wbits a 63 6 = 0 → stnComplete x = true → exec (.stnTest rd ra) s =
      .next ((s.acquire (.core p) (scopeOfCode (stnScope x))).writeReg rd (stationWord x)))

/-- What STN.TEST reads (R160, R175). The word holds the pending bytes, the arrivals, the low seven bits of the
completions, the phase and the fault, forced and complete bits, each in its own place. -/
def Obligations.StationWord : Prop :=
  ∀ x : BitVec 128,
    let v := stationWord x
    wbits v 63 28 = stnPending x ∧ wbits v 27 12 = stnArrivals x ∧ wbits v 11 5 = stnCompletions x % 128 ∧
    wbits v 4 3 = stnPhase x ∧ wbit v 2 = stnFault x ∧ wbit v 1 = stnForced x ∧ wbit v 0 = stnComplete x

/-- Buffer instructions (R154, R155, R156, R176). BUF.SET gives a FREE entry an aligned piece of the scratchpad and its
size, BUF.FREE frees a FULL or DRAINING entry and gives its notice once no read of it that a cell has fired waits,
BUF.STAT reads an entry's low half; setting an entry that is not FREE, and freeing one that is FREE or FILLING,
raise BUFFER_STATE. The trap value of BUF.SET is the handle, which is the model's choice (log 111: R176 gives a
value for BUF.FREE only), and that BUF.FREE waits with the state as it is is the model's choice too (log 62). -/
def Obligations.BufferInstructions : Prop :=
  ∀ (s : State) (rd ra rb : Reg) (h : Nat), (s.reg ra).toNat = h → h < 128 →
    let p := s.here
    let b := s.reg rb
    let e := s.buffer p h
    let base := wbits b 18 0
    let size := wbits b 38 20
    (wbits b 63 39 = 0 → wbit b 19 = false → bufState e = 0 → base % 64 = 0 → size % 64 = 0 → size ≠ 0 →
      base + size ≤ 0x60000 →
      exec (.bufSet ra rb) s = .next ((s.setBuffer p h (setF (setF e 38 20 size) 18 0 base)).advance p)) ∧
    (wbits b 63 39 = 0 → wbit b 19 = false → bufState e ≠ 0 →
      exec (.bufSet ra rb) s = .next (s.trapEntry p 0x32 (s.reg ra) 2 false)) ∧
    (2 ≤ bufState e → s.readsWait p h = false → exec (.bufFree ra) s = .next ((s.freeEntry p h).advance p)) ∧
    (2 ≤ bufState e → s.readsWait p h = true → exec (.bufFree ra) s = .next s) ∧
    (bufState e < 2 → exec (.bufFree ra) s = .next (s.trapEntry p 0x32 (s.reg ra) 2 false)) ∧
    exec (.bufStat rd ra) s = .next (s.writeReg rd (e.setWidth 64))

/-- The life of a buffer entry (R154, R155, R156). Accepting a request makes each entry that it names as destination
FILLING, under its slot and promise, and no other; a completed plain fill makes its entry FULL; a request that ends
early makes the entries that it still fills FREE; the first read of a cell makes a FULL entry DRAINING; freeing an
entry makes it FREE, clears its shadow bit, leaves its feed bit set only where a live ring names it and changes no
other entry. Each of these keeps the base and the size. -/
def Obligations.BufferLife : Prop :=
  ∀ (s : State) (p h : Nat), h < 128 →
    let keeps : State → Prop := fun t =>
      bufBase (t.buffer p h) = bufBase (s.buffer p h) ∧ bufSize (t.buffer p h) = bufSize (s.buffer p h)
    let named : TravSlot → Bool := fun x => (h + 128 - x.handle) % 128 < (if x.kind = .feed then x.ringLen else 1)
    (∀ slot x, slot < 64 → x.fills = true → let t := s.takeEntries p slot x
      keeps t ∧ (named x = false → t.buffer p h = s.buffer p h) ∧
      (named x = true → bufState (t.buffer p h) = 1 ∧ bufSlot (t.buffer p h) = slot ∧
        (t.buffer p h).extractLsb' 64 64 = x.promise ∧ bufShadow (t.buffer p h) = x.shadow ∧
        bufFeed (t.buffer p h) = decide (x.kind = .feed))) ∧
    (∀ slot x, s.trav p slot = some x → s.enginesRun p = true → x.done = false → s.travOver p slot x = true →
      (x.publish = true → x.published = true) → x.fills = true → x.kind ≠ .feed → x.shadow = false → x.handle = h →
      ∃ t, exec (.traverseComplete p slot) s = .next t ∧ bufState (t.buffer p h) = 2 ∧ keeps t) ∧
    (∀ slot x, x.fills = true → named x = true → let t := s.releaseEntries p slot x
      keeps t ∧ (bufState (s.buffer p h) = 1 → bufSlot (s.buffer p h) = slot → bufState (t.buffer p h) = 0)) ∧
    (∀ (c : Site) op w (e : Effect), c.p = p → e.drain = some (BitVec.ofNat 7 h) → bufState (s.buffer p h) = 2 →
      let t := s.commit c op w e
      bufState (t.buffer p h) = 3 ∧ keeps t) ∧
    (let t := s.freeEntry p h
     bufState (t.buffer p h) = 0 ∧ bufShadow (t.buffer p h) = false ∧ bufFeed (t.buffer p h) = s.inLiveRing p h ∧ keeps t ∧
     (∀ q k, (q, k) ≠ (p, h) → t.buffer q k = s.buffer q k) ∧ (∀ q, t.core q = s.core q))

/-- Traverse requests (R103, R147, R148, R149, R150, R151, R156, R157). A request whose control word is allowed, whose
descriptor reads and is one that its kind allows, whose entries may be named, whose staged command is there where it
asks for one, and for which a slot is free, takes the slot with the descriptor as captured, the units it will
perform and its staged command, writes its promise and goes on. -/
def Obligations.TraverseRequests : Prop :=
  ∀ (s : State) (rd ra rb : Reg),
    let p := s.here
    let c := s.reg ra
    let va := s.reg rb
    let sc := scopeOfCode (wbits c 24 21)
    let slotOf : TravKind → List Byte → TravSlot := fun kind d =>
      ⟨kind, c, d, (s.parcel p).serial, (s.core p).flags.getLsbD 0, 0, 0, s.newPromise, false, false, none, [], false, []⟩
    let allowed : TravKind → Prop := fun kind =>
      wbits c 63 30 = 0 ∧ wbits c 11 9 = 0 ∧ (kind = .feed ∨ wbits c 29 26 = 0) ∧ wbits c 24 21 ≤ 6 ∧
      (wbit c 20 = true → wbit c 19 = true) ∧ (wbit c 8 = true → wbit c 7 = true) ∧
      (wbit c 8 = false → wbit c 7 = true → wbits c 6 0 = 0) ∧ ¬(kind = .fill ∧ wbit c 8 = true) ∧
      ¬(kind = .red ∧ wbit c 7 = false) ∧ ¬(kind = .feed ∧ wbit c 7 = true) ∧ va.toNat % 32 = 0
    let done : Instr → TravKind → Prop := fun i kind =>
      ∀ d s1 slot, allowed kind → readVa (.engine p) sc va 32 (s.release (.core p) sc) = .ok d s1 →
        s1.describes p (slotOf kind d) = true → s1.namesEntries p (slotOf kind d) = true →
        (wbit c 25 = true → (s.parcel p).staged.isSome = true) → s.freeTrav p = some slot →
        ∃ t, exec i s = .next t ∧
          t.trav p slot = some { slotOf kind d with
            total := s1.travUnits p (slotOf kind d)
            follow := if wbit c 25 then (s.parcel p).staged else none } ∧
          t.reg rd = (if rd = 0 then 0 else s.newPromise)
    done (.trvCopy rd ra rb) .copy ∧ done (.trvGath rd ra rb) .gath ∧ done (.trvScat rd ra rb) .scat ∧
    done (.trvRed rd ra rb) .red ∧ done (.trvFill rd ra rb) .fill ∧ done (.trvFeed rd ra rb) .feed

/-- The other Traverse instructions (R150, R153, R157, R158, R163, R177). TRV.FOLLOW stages a Graticule command word
with its operands as they stand, TRV.PUB of a buffer or a tensor releases and asks for a publish, TRV.XST takes a
slot for an exchange transfer, TRV.CANC stops the request of a slot that is not over and does nothing to a free one,
or to a request that is over and whose slot stays taken until its follow-on is issued, which is the model's choice
(log 103), TRV.STAT reads the promise of a slot in use or the engine's flags and slots in use, which it may clear;
each goes on. -/
def Obligations.TraverseInstructions : Prop :=
  ∀ (s : State) (rd ra rb : Reg),
    let p := s.here
    let a := s.reg ra
    let b := s.reg rb
    (wbits a 63 32 = 0 → wbits a 31 26 = 0x3E → wbits a 25 22 = 4 → wbits a 21 17 = 0 →
      exec (.trvFollow ra) s = .next ((s.onParcel p fun x =>
        { x with staged := some ⟨a.setWidth 32, s.reg (a.extractLsb' 12 5), s.reg (a.extractLsb' 7 5)⟩ }).advance p)) ∧
    (∀ t, t = s.release (.core p) .d → wbits a 63 7 = 0 →
      exec (.trvPub rd ra) s = .next (({ t with
        publishes := t.publishes ++ [⟨p, true, wbits a 6 0, s.shadowSerials p true (wbits a 6 0), none⟩] }
        : State).writeReg rd s.newPromise)) ∧
    (∀ t, t = s.release (.core p) .d → wbits a 63 18 = 0 → wbit a 7 = true → wbits a 6 0 = 0 →
      s.hasLegend p (wbits a 17 8) = true →
      exec (.trvPub rd ra) s = .next (({ t with
        publishes := t.publishes ++ [⟨p, false, wbits a 17 8, s.shadowSerials p false (wbits a 17 8), none⟩] }
        : State).writeReg rd s.newPromise)) ∧
    (∀ o r slot, s.regionOf p = some (o, r) → wbits a 63 32 = 0 → wbit a 9 = false → wbits a 8 0 < 2 ^ r.shape →
      b.toNat % 32 = 0 → wbits a 20 10 + (wbits a 31 21 + 1) ≤ 2048 → b.toNat + 32 * (wbits a 31 21 + 1) ≤ 0x60000 →
      s.freeTrav p = some slot →
      ∃ t u, exec (.trvXst rd ra rb) s = .next t ∧ t.trav p slot = some u ∧ u.kind = .xst ∧ u.control = a ∧
        u.total = wbits a 31 21 + 1 ∧ u.pos = 0 ∧ t.reg rd = (if rd = 0 then 0 else s.newPromise)) ∧
    (∀ u, a.toNat < 64 → s.trav p a.toNat = some u → u.done = false →
      exec (.trvCanc ra) s = .next ((s.stopTrav p a.toNat).advance p)) ∧
    (a.toNat < 64 → s.trav p a.toNat = none → exec (.trvCanc ra) s = .next (s.advance p)) ∧
    (∀ u, a.toNat < 64 → s.trav p a.toNat = some u → u.done = true → exec (.trvCanc ra) s = .next (s.advance p)) ∧
    (∀ u, a.toNat < 64 → s.trav p a.toNat = some u → s.takenTrav p a.toNat = true →
      exec (.trvStat rd ra) s = .next (s.writeReg rd u.promise)) ∧
    (a.toNat < 64 → s.takenTrav p a.toNat = false → exec (.trvStat rd ra) s = .next (s.writeReg rd 0)) ∧
    (a = 0x100 → exec (.trvStat rd ra) s = .next
      (s.writeReg rd (BitVec.ofNat 64 ((s.parcel p).trvFlags.toNat + s.travCount p * 2 ^ 8)))) ∧
    (a = 0x300 → exec (.trvStat rd ra) s = .next ((s.onParcel p fun y => { y with trvFlags := 0 }).writeReg rd
      (BitVec.ofNat 64 ((s.parcel p).trvFlags.toNat + s.travCount p * 2 ^ 8))))

/-- Stream instructions (R137, R138, R139, R140, R143, R144). A stream whose control word is allowed, whose slot is not
busy, whose side of the port is free or held by another stream or by a stream-mode GR.MM, and whose pattern reads
and fits its tensor is opened and goes on; STRM.BAR makes later streams wait for the busy outbound streams named,
STRM.STOP stops a stream, STRM.STAT reads one. -/
def Obligations.StreamInstructions : Prop :=
  ∀ (s : State) (rd ra rb : Reg),
    let p := s.here
    let c := s.reg ra
    let va := s.reg rb
    let slot := wbits c 19 16
    let sc := scopeOfCode (wbits c 15 12)
    let done : Instr → Bool → Prop := fun i outbound =>
      ∀ e d s2, wbits c 63 31 = 0 → wbit c 23 = false → (outbound = true → wbits c 22 20 = 0) → wbits c 15 12 ≤ 6 →
        ((s.regionOf p).bind fun x => x.2.entry (wbits c 9 0)) = some e → va.toNat % 16 = 0 → (s.stream p slot).busy = false →
        (s.portHolder p (wbits c 11 10) outbound = .free ∨ (s.portHolder p (wbits c 11 10) outbound).isStream = true ∨
          (s.portHolder p (wbits c 11 10) outbound).isGraticule = true) →
        readVa (.engine p) sc va 16 (s.release (.core p) sc) = .ok d s2 →
        patternOk e (wordOf (d.take 8)) (wordOf (d.drop 8)) = true →
        ∃ t u, exec i s = .next t ∧ t.stream p slot = u ∧ u.state = 1 ∧ u.outbound = outbound ∧ u.control = c ∧
          u.starts = wordOf (d.take 8) ∧ u.counts = wordOf (d.drop 8) ∧ u.pos = 0 ∧
          t.reg rd = (if rd = 0 then 0 else s.newPromise)
    done (.strmIn rd ra rb) false ∧ done (.strmOut rd ra rb) true ∧
    (c.toNat < 2 ^ 16 → exec (.strmBar ra) s = .next ((s.onParcel p fun x =>
      { x with barrier := x.barrier ++
        (x.streams.filter fun (e : Nat × Stream) => wbit c e.1 && e.2.outbound && e.2.busy).map (·.2.serial) }).advance p)) ∧
    (c.toNat < 16 → exec (.strmStop ra) s = .next ((s.stopStream p c.toNat).advance p)) ∧
    (c.toNat < 16 → exec (.strmStat rd ra) s = .next (s.writeReg rd (s.stream p c.toNat).status))

/-- End instructions (R299, R301, R302, R304, R305, R306, R308, R309, R310, R313, R314). END.MAKE of an allowed kind
with fewer than 32 streams at the home makes a stream, emits a handle where it is asked to, and writes its producer
handle; END.BIND of a live end of a stream of this device, within the issuer's region, to a free side of a port
binds it there, begins the move of a bound end and writes its new handle; END.CLOSE closes a live end that stands at
the issuer or nowhere: a producer's takes no more items, a consumer's orphans the stream, and a survivor's frees it;
END.STAT reads an end; each of the last three asks the home where it stands on another device that the link reaches,
and waits; what devices ask and answer each other, and the record that a bound place keeps of an end of another
device, are the model's choice (log 56). -/
def Obligations.EndInstructions : Prop :=
  ∀ (s : State) (rd ra rb : Reg),
    let p := s.here
    let h := s.reg ra
    let b := s.reg rb
    let home := handleHome h
    let n := handleNumber h
    let k := handleConsumer h
    let port := wbits b 1 0
    let asks : Nat → Reg → Word → Nat → State := fun op rd ports port =>
      ((s.askHost (.endAsk p rd op h ports) []).onCore p fun c => { c with waiting := some s.host.nextTag }).moSend
        (handleDevice h) (.ask s.host.nextTag op h p port)
    let local_ : Prop := handleDevice h = s.link.number ∧ ∃ o r, s.regionOf p = some (o, r) ∧ home ∈ regionParcels o r
    let away : Prop := handleDevice h ≠ s.link.number ∧ (s.link.route (handleDevice h)).isSome = true ∧ s.hostFull = false
    let live : EndStream → Prop := fun e =>
      s.endRecord home n = some e ∧ (e.end_ k).closed = false ∧ handleSerial h = (e.end_ k).serial
    (wbits h 63 7 = 0 → wbits h 2 0 ≤ 5 → ((s.parcel p).ends.filter fun e => e.1 < 2 ^ 20).length < 32 →
      let m := (s.parcel p).endCount
      let handle := fun c => endHandle s.link.number p m c ⟨0, none, false⟩
      ∃ e, e.cap = h.extractLsb' 0 3 ∧ e.prod.loc = none ∧ e.cons.loc = none ∧ e.next = 0 ∧ e.orphaned = false ∧
        ∀ t, t = (s.setEndRecord p m e).onParcel p (fun x => { x with endCount := (m + 1) % 2 ^ 20 }) →
          exec (.endMake rd ra) s = .next ((if wbit h 3 then t.emit p (wbits h 5 4) (handle (wbit h 6)) else t).writeReg rd
            (handle false))) ∧
    (∀ e o r, handleDevice h = s.link.number → s.regionOf p = some (o, r) → home ∈ regionParcels o r →
      wbits b 63 5 = 0 → s.sideFree p port k = true → live e → e.orphaned = false →
      (∀ l ∈ e.places, l.device = s.link.number → l.parcel ∈ regionParcels o r) →
      let x := e.end_ k
      let x1 : EndRec := { x with serial := x.serial + 1, loc := some ⟨s.link.number, p, port⟩ }
      let moves := match x.loc with
        | some old => e.moves ++ [⟨k, x.serial, old, if k then e.given.isSome else e.begun, false, none⟩]
        | none => e.moves
      let e1 : EndStream :=
        { e.setEnd k x1 with moves := moves, begun := k && e.begun, given := if k then none else e.given }
      let v := endHandle s.link.number home n k x1
      let t := ((s.setEndRecord home n e1).pumpStream home n).takeSide p port k home n
      exec (.endBind rd ra rb) s = .next ((if wbit b 2 then t.emit p (wbits b 4 3) v else t).writeReg rd v)) ∧
    (away → wbits b 63 5 = 0 → s.sideFree p port k = true →
      let x := boundName h p port
      exec (.endBind rd ra rb) s = .next (((asks 1 rd b port).setEndRecord p (foreignNumber x)
        (placeRecord x ⟨s.link.number, p, port⟩)).takeSide p port k p (foreignNumber x))) ∧
    (∀ e, local_ → live e → (∀ l, (e.end_ k).loc = some l → l.device = s.link.number ∧ l.parcel = p) →
      let done : State → Prop := fun t => exec (.endClose ra) s = .next (t.advance t.here)
      (e.orphaned = true → done (s.dropStream home n e)) ∧
      (e.orphaned = false → k = true →
        done ((s.freeEnd home n true e.cons).orphanStream home n e false true false)) ∧
      (e.orphaned = false → k = false →
        done ((s.setEndRecord home n { e with prod := { e.prod with closed := true } }).pumpStream home n))) ∧
    (away → exec (.endClose ra) s = .next (asks 2 0 0 0)) ∧
    (∀ e, local_ → s.endRecord home n = some e → exec (.endStat rd ra) s = .next (s.writeReg rd (s.endStatus e k))) ∧
    (away → exec (.endStat rd ra) s = .next (asks 3 rd 0 0))

/-- Trellis instructions (R341, R342, R343, R344, R346). TW.SEEK to a row and position inside its tensor reads the bytes
of its window, one in a step, and with the last fills the window and writes it; TW.READ through a filled window
reads them likewise and then, in a step of its own, the scale, decodes one weight, gathers its flags, moves the
window on unless it is told to stay and writes the weight; TW.ENC whose descriptor and tensors are allowed asks the
province's encoder; TW.STAT reads a window or the encoder. -/
def Obligations.TrellisInstructions : Prop :=
  ∀ (s : State) (rd ra rb : Reg),
    let p := s.here
    let a := s.reg ra
    let b := s.reg rb
    let gathers : State → Nat → List Byte → State := fun t i bs => t.onCore p fun c =>
      { c with gathered := (s.core p).gathered ++ [(i, bs.headD 0)] }
    (∀ e, wbits a 7 3 = 0 → wbits a 19 18 = 0 → wbits a 63 23 = 0 → wbits b 31 22 = 0 → wbits b 63 48 = 0 →
      wbits a 22 20 ≤ 6 → ((s.regionOf p).bind fun x => x.2.entry (wbits a 17 8)) = some e → lgIsTcw e = true → wbits b 21 0 < lgRows e →
      wbits b 47 32 < lgDim e 0 →
      let sc := scopeOfCode (wbits a 22 20)
      let row := lgRow e (wbits b 21 0)
      let j := wbits b 47 32
      (∀ w s1, readWindow (.core p) p sc e row j false s = .ok w s1 →
        let v := windowWord (wbits a 17 8) (wbits b 21 0) (wbits a 22 20) j w
        exec (.twSeek rd ra rb) s = .next (((s1.useGathered p).setWindow p (wbits a 2 0) v).writeReg rd v)) ∧
      (∀ i k rest bs s1, (weightBytes e j).drop (s.core p).gathered.length = i :: k :: rest →
        readRow (.core p) p sc e row (8 * i) 1 s = .ok bs s1 →
        exec (.twSeek rd ra rb) s = .next (gathers s1 i bs))) ∧
    (∀ e, let v := s.window p (wbits a 2 0)
      a.toNat < 16 → wbit v 63 = true → ((s.regionOf p).bind fun x => x.2.entry (wbits v 62 53)) = some e →
      let sc := scopeOfCode (wbits v 30 28)
      let row := lgRow e (wbits v 52 31)
      let j := wbits v 27 12
      (∀ w rs s1 s2, readWindow (.core p) p sc e row j true s = .ok w s1 → readRowScale (.core p) p sc e row s1 = .ok rs s2 →
        exec (.twRead rd ra) s = .next ((((s2.useGathered p).grFlags p (twDecode w rs).flags).setWindow p (wbits a 2 0)
          (windowWord (wbits v 62 53) (wbits v 52 31) (wbits v 30 28) (if wbit a 3 then j else (j + 1) % lgDim e 0) w)).writeReg rd
            (BitVec.ofNat 64 ((twDecode w rs).code + w * 2 ^ 16 + j * 2 ^ 32)))) ∧
      (∀ i rest bs s1, (weightBytes e j).drop (s.core p).gathered.length = i :: rest →
        readRow (.core p) p sc e row (8 * i) 1 s = .ok bs s1 →
        exec (.twRead rd ra) s = .next (gathers s1 i bs))) ∧
    (∀ d s1 te oe, let r : EncRequest := ⟨1, 0, a, d, [], (s.core p).flags.getLsbD 0⟩
      wbits a 63 32 = 0 → wbits a 18 0 = 0 → (wbit a 20 = true → wbit a 19 = true) → wbits a 24 21 ≤ 6 →
      b.toNat % 32 = 0 →
      readVa (.engine p) (scopeOfCode (wbits a 24 21)) b 32 (s.release (.core p) (scopeOfCode (wbits a 24 21))) = .ok d s1 →
      field d 4 4 < 2 ^ 22 → field d 8 4 < 2 ^ 22 → field d 12 1 ≤ 1 → field d 13 19 = 0 →
      ((s1.regionOf p).bind fun x => x.2.entry r.targetIndex) = some te →
      ((s1.regionOf p).bind fun x => x.2.entry r.outIndex) = some oe → lgFormat te = 9 → lgIsTcw oe = true →
      (∀ k < 4, lgDim te k = lgDim oe k) → lgDim oe 0 ≤ 4096 → r.first + r.rows ≤ lgRows oe → (s.parcel p).enc.state = 0 →
      (r.shadow = true → s.overlayTaken p false r.outIndex = false ∧
        (r.autoScale = true → s.overlayTaken p false (lgScaleEntry oe) = false)) →
      ∃ t, exec (.twEnc rd ra rb) s = .next t ∧ (t.parcel p).enc = r ∧
        (t.province (p / 64)).encQueue = (s1.province (p / 64)).encQueue ++ [p]) ∧
    (a.toNat < 8 → exec (.twStat rd ra) s = .next (s.writeReg rd (s.window p a.toNat))) ∧
    (a = 8 → exec (.twStat rd ra) s = .next (s.writeReg rd (s.encStatus p)))

/-- Graticule instructions (R322, R323, R330, R331, R332, R333, R334, R335, R336, R337, R338, R340). A command whose
control word is allowed, whose descriptor reads and is one that the command allows, whose shadow target no other
requester holds, with a place in the queue and no save or restore in the way, enters the queue as captured, writes
its promise and goes on; GR.SAVE asks for a save; GR.REST of an idle or a saved Graticule reads the image and takes
the engine, the accumulators and the weights from it, or, where its first word is none of an image, leaves the
engine idle and reports it, all within the instruction's own step, with the scale lanes of the words staged when the
image was written, and with a second word of the report that is free, which are the model's choices (logs 42, 41 and
8); GR.STAT reads, clearing the flags when it is asked to. -/
def Obligations.GraticuleInstructions : Prop :=
  ∀ (s : State) (rd ra rb : Reg),
    let p := s.here
    let a := s.reg ra
    let b := s.reg rb
    let sc := scopeOfCode (wbits a 24 21)
    let ftz := (s.core p).flags.getLsbD 0
    let released := s.release (.core p) sc
    let allowed : Nat → Prop := fun fn => wbits a 63 32 = 0 ∧ a.toNat &&& grMask fn = a.toNat ∧
      (wbit a 20 = true → wbit a 19 = true) ∧ (fn = 4 ∨ wbits a 24 21 ≤ 6)
    let open_ : State → Prop := fun s1 =>
      (s1.parcel p).gr.saving = none ∧ (s1.parcel p).gr.saved = false ∧ (s1.parcel p).gr.queue.length < 8
    let queued : Instr → Nat → (State → GrCommand → Bool) → Prop := fun i fn allows =>
      ∀ d s1, allowed fn → b.toNat % 32 = 0 → readVa (.graticule p) sc b 32 released = .ok d s1 →
        let c : GrCommand := ⟨(s1.parcel p).serial, fn, a, d, b, ftz⟩
        allows s1 c = true → open_ s1 → (c.shadow = true → s1.overlayTaken p false c.target = false) →
        ∃ t, exec i s = .next t ∧ (t.parcel p).gr.queue = (s1.parcel p).gr.queue ++ [c] ∧
          t.reg rd = (if rd = 0 then 0 else s1.newPromise)
    queued (.grLdw rd ra rb) 0 (fun s1 c => s1.allowsLoad p c) ∧ queued (.grMm rd ra rb) 1 (fun s1 c => s1.allowsMultiply p c) ∧
    queued (.grScan rd ra rb) 2 (fun s1 c => s1.allowsScan p c) ∧ queued (.grDrn rd ra rb) 3 (fun s1 c => s1.allowsDrain p c) ∧
    (allowed 4 → open_ s →
      let c : GrCommand := ⟨(s.parcel p).serial, 4, a, [], s.reg 0, ftz⟩
      c.shadow = false →
      ∃ t, exec (.grZero ra) s = .next t ∧ (t.parcel p).gr.queue = (s.parcel p).gr.queue ++ [c]) ∧
    (allowed 5 → b.toNat % 4096 = 0 → (released.parcel p).gr.saving = none → (released.parcel p).gr.saved = false →
      let c : GrCommand := ⟨(released.parcel p).serial, 5, a, [], b, ftz⟩
      c.shadow = false →
      ∃ t, exec (.grSave rd ra rb) s = .next t ∧ (t.parcel p).gr.saving = some c ∧
        t.reg rd = (if rd = 0 then 0 else released.newPromise)) ∧
    (∀ bs s0 s1 t at_, allowed 6 → b.toNat % 4096 = 0 → (released.parcel p).gr.saving = none →
      ((released.parcel p).gr.saved = true ∨ (released.parcel p).gr.busy = false) →
      let c : GrCommand := ⟨(released.parcel p).serial, 6, a, [], b, ftz⟩
      c.shadow = false → readSpan (.graticule p) sc (spanFuel 0x81000) b 0x81000
        (released.onParcel p fun x => { x with serial := x.serial + 1 }) = .ok bs s0 →
      imageAddress p c .read s0 = .ok at_ s1 →
      t = (match (s1.gr p).running with | some r => s1.dropRun p r | none => s1) →
      (field bs 0 8 = 0x47520001 →
        exec (.grRest rd ra rb) s = .next ((((((t.homeWrite (tileAddress p 0 0 0) (slice bs 0x1000 0x40000)).homeWrite
          (weightAddress p 0) (slice bs 0x41000 0x40000)).onGr p fun g =>
            { graticuleOf bs with finishing := g.finishing ++ [c], lanes := (s1.images.find at_).getD g.lanes }).holdStream p)).writeReg rd
          released.newPromise)) ∧
      (field bs 0 8 ≠ 0x47520001 →
        exec (.grRest rd ra rb) s = .next (((t.onGr p fun g => { g with saved := false }).dropCommands p 3 6
          (Config.freeWord s1.tick)).writeReg rd released.newPromise))) ∧
    (a = 0 → exec (.grStat rd ra) s = .next (s.writeReg rd (s.parcel p).gr.status)) ∧
    (a = 1 → exec (.grStat rd ra) s = .next (s.writeReg rd (s.parcel p).gr.position)) ∧
    (a = 2 → exec (.grStat rd ra) s =
      .next ((s.onParcel p fun x => { x with gr := { x.gr with flags := 0 } }).writeReg rd (s.parcel p).gr.status)) ∧
    (4 ≤ a.toNat → a.toNat < 8 → exec (.grStat rd ra) s = .next (s.writeReg rd ((s.parcel p).gr.slotWord (a.toNat - 4))))

/-- Compass instructions (R363, R364, R366, R376, R377, R378, R379, R380, R381, R382). In a region of at least a sheet,
CP.OPEN with both port sides free and no query on the sheet opens one; with a query open, CP.OPER and CP.JOIN define
a slot no record is away at, CP.EXPL sets the exploration rate, CP.FIX fixes or frees the order, CP.OBS reads an
observation, CP.CLOSE asks for the end, and of a halted query frees it at once, the arrival of either going to the
parcel that issued it, which is the model's choice (log 44); each goes on. -/
def Obligations.CompassInstructions : Prop :=
  ∀ (s : State) (rd ra rb : Reg) (o : Nat) (r : Region), s.regionOf s.here = some (o, r) → 2 ≤ r.shape →
    let p := s.here
    let a := s.reg ra
    let b := s.reg rb
    let sheet := p / 4
    let mine : Nat → Prop := fun rel => rel < 2 ^ r.shape ∧ (o + rel) / 4 = sheet
    (wbits a 63 48 = 0 → wbits a 9 3 = 0 → mine (wbits a 31 23) → mine (wbits a 20 12) → s.query sheet = none →
      s.sideFree (o + wbits a 20 12) (wbits a 11 10) false = true →
      s.sideFree (o + wbits a 31 23) (wbits a 22 21) true = true →
      ∃ t q, exec (.cpOpen ra) s = .next t ∧ t.query sheet = some q ∧ q.opener = p ∧ q.inParcel = o + wbits a 20 12 ∧
        q.inPort = wbits a 11 10 ∧ q.outParcel = o + wbits a 31 23 ∧ q.outPort = wbits a 22 21 ∧ q.shift = wbits a 2 0 ∧
        q.slots = [] ∧ q.records = [] ∧ q.admitted = 0 ∧ q.halted = false ∧
        t.portHolder (o + wbits a 20 12) (wbits a 11 10) true = .query) ∧
    (∀ q, s.query sheet = some q → wbits a 63 36 = 0 → wbits a 7 3 = 0 → wbits b 63 16 = 0 →
      wbit a (8 + wbits a 2 0) = false → wbits a 17 16 ≠ 0 → mine (wbits a 26 18) →
      s.queueOwned (o + wbits a 26 18) (wbits a 30 27) (wbits a 32 31) = false →
      (q.records.any fun x => x.away = some (wbits a 2 0)) = false →
      ∃ t u x, exec (.cpOper ra rb) s = .next t ∧ t.query sheet = some u ∧ u.slots.find (wbits a 2 0) = some x ∧
        x.join = false ∧ x.parcel = o + wbits a 26 18 ∧ x.cell = wbits a 30 27 ∧ x.queue = wbits a 32 31 ∧
        x.prereq = a.extractLsb' 8 8 ∧ x.c = wbits b 15 0) ∧
    (∀ q d s1, s.query sheet = some q → wbits a 63 18 = 0 → wbits a 7 3 = 0 → wbit a (8 + wbits a 2 0) = false →
      wbits a 17 16 ≠ 0 → b.toNat % 32 = 0 → readVa (.core p) .s b 32 (s.release (.core p) .s) = .ok d s1 → s1.regionOf s1.here = some (o, r) →
      8 ≤ field d 0 1 → 1 ≤ field d 1 1 → field d 1 1 ≤ 8 → field d 0 1 + field d 1 1 ≤ 64 → field d 4 4 % 128 = 0 →
      field d 8 4 % 256 = 0 → 256 ≤ field d 8 4 → field d 3 1 < 8 → field d 14 18 = 0 →
      heldWay o r 2 sheet (field d 4 4) = true → heldWay o r 2 sheet (field d 4 4 + field d 8 4 - 1) = true →
      mine (field d 2 2 % 512) →
      (s.sideFree (o + field d 2 2 % 512) (field d 2 2 / 512 % 4) true = true ∨
        ∃ x, q.slots.find (wbits a 2 0) = some x ∧ x.join = true ∧ x.matchParcel = o + field d 2 2 % 512 ∧
          x.matchPort = field d 2 2 / 512 % 4) →
      (q.records.any fun x => x.away = some (wbits a 2 0)) = false →
      ∃ t u x, exec (.cpJoin ra rb) s = .next t ∧ t.query sheet = some u ∧ u.slots.find (wbits a 2 0) = some x ∧
        x.join = true ∧ x.keyOff = field d 0 1 ∧ x.keyLen = field d 1 1 ∧ x.size = field d 8 4 ∧
        x.area = sheetAddress p (field d 4 4)) ∧
    (∀ q, s.query sheet = some q → a.toNat < 16 →
      exec (.cpExpl ra) s = .next ((s.setQuery sheet (some { q with explore := a.toNat % 16, decisions := 0 })).advance p)) ∧
    (∀ q, s.query sheet = some q → a = 0 →
      exec (.cpFix ra) s = .next ((s.setQuery sheet (some { q with fixed := none })).advance p)) ∧
    (∀ q order, s.query sheet = some q → wbits a 63 28 = 0 → 1 ≤ wbits a 27 24 → wbits a 27 24 ≤ 8 →
      order = ((List.range (wbits a 27 24)).map fun k => wbits a (3 * k + 2) (3 * k)) → order.Nodup →
      exec (.cpFix ra) s = .next ((s.setQuery sheet (some { q with fixed := some order })).advance p)) ∧
    (∀ q, s.query sheet = some q → a.toNat < 14 → exec (.cpObs rd ra) s = .next (s.writeReg rd (q.observation a.toNat))) ∧
    (∀ q, s.query sheet = some q → a.toNat < 128 → q.halted = false →
      exec (.cpClose ra) s =
        .next ((s.setQuery sheet (some { q with closing := some (p, wbits a 5 0, wbit a 6) })).advance p)) ∧
    (∀ q, s.query sheet = some q → a.toNat < 128 → q.halted = true →
      ∃ t, exec (.cpClose ra) s = .next (t.advance p) ∧ t = s.closeQuery sheet { q with closing := some (p, wbits a 5 0, wbit a 6) } ∧
        t.query sheet = none)

/-- Scribe instructions (R369, R370, R371, R372, R384, R385). SCR.OPEN whose descriptor and schema read and are allowed,
to a free side of a port of the region or to the query of its sheet, starts the source from its first item, keeping
the counts; SCR.CNT reads a count, clearing it where asked, or the state; each goes on. -/
def Obligations.ScribeInstructions : Prop :=
  ∀ (s : State) (rd ra rb : Reg),
    let p := s.here
    let a := s.reg ra
    let b := s.reg rb
    let sc := scopeOfCode (wbits a 11 8)
    (∀ d s1 head s2 entries s3 o r, wbits a 63 25 = 0 → wbit a 7 = false → wbits a 11 8 ≤ 6 → b.toNat % 32 = 0 →
      readVa (.core p) sc b 32 (s.release (.core p) sc) = .ok d s1 → field d 8 8 < 2 ^ 40 → field d 28 4 = 0 →
      (wordOf (slice d 16 8)).toNat % 64 = 0 → readSpan (.core p) sc 2 (wordOf (slice d 16 8)) 16 s1 = .ok head s2 →
      1 ≤ field head 0 1 → field head 0 1 ≤ 15 →
      readSpan (.core p) sc 2 (wordOf (slice d 16 8) + 16) (16 * field head 0 1) s2 = .ok entries s3 →
      schemaBad (head ++ entries) = none → (s.scribe p).state ≠ 1 →
      let x : Scribe := { Scribe.reset with
        state := 1, control := a, desc := d, schema := head ++ entries, counts := (s.scribe p).counts }
      x.toQuery = false → s3.regionOf s3.here = some (o, r) → x.targetRel < 2 ^ r.shape →
      s.portHolder (o + x.targetRel) x.targetPort false = .free →
      ∃ t, exec (.scrOpen rd ra rb) s = .next t ∧ t.scribe p = x ∧
        t.portHolder (o + x.targetRel) x.targetPort false = .source ∧ t.reg rd = (if rd = 0 then 0 else s.newPromise)) ∧
    (∀ d s1 head s2 entries s3, wbits a 63 25 = 0 → wbit a 7 = false → wbits a 11 8 ≤ 6 → b.toNat % 32 = 0 →
      readVa (.core p) sc b 32 (s.release (.core p) sc) = .ok d s1 → field d 8 8 < 2 ^ 40 → field d 28 4 = 0 →
      (wordOf (slice d 16 8)).toNat % 64 = 0 → readSpan (.core p) sc 2 (wordOf (slice d 16 8)) 16 s1 = .ok head s2 →
      1 ≤ field head 0 1 → field head 0 1 ≤ 15 →
      readSpan (.core p) sc 2 (wordOf (slice d 16 8) + 16) (16 * field head 0 1) s2 = .ok entries s3 →
      schemaBad (head ++ entries) = none → (s.scribe p).state ≠ 1 → wbit a 13 = true → (s.query (p / 4)).isSome = true →
      ∃ t, exec (.scrOpen rd ra rb) s = .next t ∧ t.scribe p = { Scribe.reset with
        state := 1, control := a, desc := d, schema := head ++ entries, counts := (s.scribe p).counts }) ∧
    (8 ≤ a.toNat → a.toNat < 14 → exec (.scrCnt rd ra) s =
      .next ((s.onScribe p fun y => { y with counts := y.counts.setIfInBounds (a.toNat - 8) 0 }).writeReg rd
        (BitVec.ofNat 64 ((s.scribe p).counts.toList.getD (a.toNat - 8) 0)))) ∧
    (a.toNat < 6 → exec (.scrCnt rd ra) s =
      .next (s.writeReg rd (BitVec.ofNat 64 ((s.scribe p).counts.toList.getD a.toNat 0)))) ∧
    (a = 6 → exec (.scrCnt rd ra) s =
      .next (s.writeReg rd (BitVec.ofNat 64 ((s.scribe p).seq % 2 ^ 32 * 2 ^ 32 + (s.scribe p).state.toNat))))

/-- Segment instructions (R390, R391, R392, R393, R394, R397, R398, R399, R402, R403, R404). In a region, with a name
that is not 0: SEG.NAME of an allowed place that fits and is free makes a segment attached once; SEG.ATT of the
region's own or an unattached resident segment in place attaches it, and of a spilled one whose place is free it
starts the reload and is pending; SEG.DET, once the writes that cells issued before it are performed, releases and
detaches; SEG.PIN pins or unpins; SEG.EVT of an unattached, unpinned resident segment starts its spill and of a
spilled one makes its arrival; SEG.DROP removes it; SEG.STAT reads its state; each goes on. -/
def Obligations.SegmentInstructions : Prop :=
  ∀ (s : State) (rd ra rb : Reg) (o : Nat) (r : Region), s.regionOf s.here = some (o, r) → s.reg ra ≠ 0 →
    let p := s.here
    let a := s.reg ra
    let b := s.reg rb
    let me : Bool → PendingAttach := fun evict => ⟨o, p, wbits b 5 0, wbit b 6, evict⟩
    let attaches : Segment → Nat := fun g => (g.waiting.filter fun x => !x.evict).length
    (∀ bs s1 k, b.toNat % 32 = 0 → readVa (.core p) .d b 32 (s.release (.core p) .d) = .ok bs s1 →
      let w := field bs 8 2
      let pl : SegmentPlace := ⟨w % 2 = 1, bits w 2 1, bits w 6 3, bits w 15 7, field bs 12 4, field bs 16 4⟩
      let back := wordOf (slice bs 0 8)
      let g : Segment :=
        { asid := r.asid, name := a, place := pl, backing := back, state := .attached, count := 1, version := 0,
          stamp := s.meridian, pinned := false, torn := false, tornClear := false, origin := o, holder := some o,
          target := none, waiting := [], asked := false, needers := [], failed := [] }
      s1.regionOf s1.here = some (o, r) → wbits back 63 57 = 0 → field bs 10 2 = 0 → field bs 20 12 = 0 → pl.j ≤ 9 →
      (pl.slice = false ∧ pl.level = 0 ∧ pl.off + pl.size ≤ 0x60000 ∨ pl.slice = true ∧ pl.level ≠ 0 ∧ pl.j = 0) →
      pl.r0 % segUnits g = 0 → pl.off % 4096 = 0 → pl.size % 4096 = 0 → wbits back 11 0 = 0 → pl.size ≠ 0 →
      g.fits r = true → (s.inTheWay 65536 g o).isEmpty = true → s.segments.length < 65536 →
      s.segmentNamed r.asid a = none → (List.range (s.segments.length + 1)).find? (fun k => (s.segment k).isNone) = some k →
      exec (.segName rd ra rb) s = .next ((s1.setSegment k g).writeReg rd (viewAddress k))) ∧
    (∀ d g, s.segmentNamed r.asid a = some (d, g) → wbits b 63 8 = 0 → g.count + attaches g < 1023 →
      ((g.state = .attached ∧ g.holder = some o) ∨ (g.state = .resident ∧ g.inside o r = true)) →
      exec (.segAtt rd ra rb) s = .next ((s.attach d g o [me false]).writeReg rd (viewAddress d))) ∧
    (∀ d g, s.segmentNamed r.asid a = some (d, g) → wbits b 63 8 = 0 → g.count + attaches g < 1023 →
      g.state = .spilled → g.holder = none → g.target = none → wbit b 7 = false → g.fits r = true →
      (∀ e ∈ s.inTheWay d g o, e.2.state ≠ .attached ∧ ¬(e.2.state = .resident ∧ e.2.pinned = true)) →
      exec (.segAtt rd ra rb) s = .next ((s.setSegment d
        { g with state := .reloading, target := some o, holder := some o, waiting := g.waiting ++ [me false] }).writeReg rd
          (viewAddress d))) ∧
    (∀ d g, s.segmentNamed r.asid a = some (d, g) → g.state = .attached → g.holder = some o →
      s.portWrites o r ((s.core p).since.getD s.tick) = false →
      ∀ t, t = ((s.releaseAll o r g.scope).setSegment d (g.detach s.meridian)).onCore p (fun c => { c with since := none }) →
        exec (.segDet ra) s = .next (t.advance t.here)) ∧
    (∀ d g, s.segmentNamed r.asid a = some (d, g) → wbits b 63 1 = 0 → (g.state ≠ .attached ∨ g.holder = some o) →
      exec (.segPin ra rb) s = .next ((s.setSegment d { g with pinned := wbit b 0 }).advance p)) ∧
    (∀ d g, s.segmentNamed r.asid a = some (d, g) → wbits b 63 7 = 0 → g.state = .resident → g.pinned = false →
      exec (.segEvt ra rb) s = .next ((s.setSegment d
        { g with state := .spilling, asked := true, waiting := g.waiting ++ [me true] }).advance p)) ∧
    (∀ d g, s.segmentNamed r.asid a = some (d, g) → wbits b 63 7 = 0 → g.state = .spilled → g.pinned = false →
      ∀ t, t = s.segArrivals [me true] → exec (.segEvt ra rb) s = .next (t.advance t.here)) ∧
    (∀ d g, s.segmentNamed r.asid a = some (d, g) → g.state ≠ .reloading →
      (g.state ≠ .attached ∨ (g.holder = some o ∧ g.count = 1)) →
      exec (.segDrop ra) s = .next ({ s with segments := s.segments.drop d }.advance p)) ∧
    (∀ d g, s.segmentNamed r.asid a = some (d, g) → exec (.segStat rd ra) s = .next (s.writeReg rd (g.status (some o)))) ∧
    (s.segmentNamed r.asid a = none → exec (.segStat rd ra) s = .next (s.writeReg rd 0))

/-- Translation, Sounding and kick instructions (R82, R412, R416, R420, R426, R434, R435, R436, R437, R439, R457).
PROJ.INV and PAGE.DUP with allowed operands release and ask for their invalidation or copy, the page's leaf being
marked as migrating; PROJ.PROBE writes the code, size and address of a translation and clears FLAGS.nr, or sets it
where the page migrates; SND.SET releases and frees or binds an idle set inside the granted pages; SND.OUT and
SND.IN of a set within its grant release and start a transfer; SND.STAT reads a set; Q.KICK kicks a queue, at once
or behind the packets that a release parts from it; each goes on. -/
def Obligations.TranslationInstructions : Prop :=
  ∀ (s : State) (rd ra rb : Reg) (o : Nat) (r : Region), s.regionOf s.here = some (o, r) →
    let p := s.here
    let a := s.reg ra
    let b := s.reg rb
    let released := s.release (.core p) .d
    (wbits b 23 20 = 0 → wbits b 63 31 = 0 → (wbits b 19 0 ≠ 0 ∨ a = 0) → wbits a 11 0 = 0 →
      exec (.projInv ra rb) s = .next (({ released with invalidates := released.invalidates ++
        [⟨p, r.asid, a.toNat, wbits b 19 0, wbits b 29 24, wbit b 30, none, 0, 0, false, true⟩] } : State).advance p)) ∧
    (∀ k s1, ((b = 0 ∧ k = AccessKind.read) ∨ (b = 1 ∧ k = AccessKind.write) ∨ (b = 2 ∧ k = AccessKind.fetch)) →
      (∀ code size pa, s.probe (.core p) a k = (some (code, size, pa), s1) →
        exec (.projProbe rd ra rb) s = .next ((s1.onCore p fun c => { c with flags := setF c.flags 1 1 0 }).writeReg rd
          (BitVec.ofNat 64 (code.toNat * 2 ^ 56 + size * 2 ^ 48 + pa)))) ∧
      (s.probe (.core p) a k = (none, s1) →
        exec (.projProbe rd ra rb) s = .next ((s1.onCore p fun c => { c with flags := setF c.flags 1 1 1 }).advance s1.here))) ∧
    (∀ e at_, wbits b 14 7 = 0 → wbits b 63 48 = 0 → wbits a 11 0 = 0 → s.dupLeaf r.asid a = some (e, 12, at_) →
      leafKind e = 0 → e.getLsbD 3 = true → (leafIdentity e = 0 ∨ leafIdentity e = r.identity) →
      (∀ i < 8, placeOf ((wbits b 47 12 + i) * 4096) = .hbm) → leafDup e = false → leafMigrating e = false →
      (∀ v ∈ s.invalidates, ¬(v.dup.isSome = true ∧ v.asid = r.asid ∧ v.first = a.toNat)) →
      ∃ t, exec (.pageDup ra rb) s = .next t ∧
        t.invalidates = (released.writeLeaf at_ (setF e 12 12 1)).invalidates ++
          [⟨p, r.asid, a.toNat, 1, wbits b 5 0, wbit b 6, some (wbits b 47 12), at_, e, false, true⟩] ∧
        t.mem = (released.writeLeaf at_ (setF e 12 12 1)).mem) ∧
    (a.toNat < 4096 → b = 0 → ((s.pageSet a.toNat).state = 0 ∨ ((s.pageSet a.toNat).asid = r.asid ∧ (s.pageSet a.toNat).busy = false)) →
      exec (.sndSet ra rb) s = .next ({ released with sets := released.sets.drop a.toNat }.advance p)) ∧
    (∀ d s1, wbits a 63 13 = 0 → wbit a 12 = true → b.toNat % 32 = 0 → readVa (.core p) .d b 32 released = .ok d s1 →
      let n := wbits a 11 0
      let first := field d 12 4
      let pages := field d 16 4
      field d 8 4 < 65536 → 1 ≤ pages → pages ≤ 2 ^ 29 → field d 20 12 = 0 → (wordOf (slice d 0 8)).toNat % 16 = 0 →
      s.granted r.asid first pages = true → (s.pageSet n).state = 0 →
      (∀ e ∈ s.sets, e.2.state ≠ 0 → e.2.first + e.2.pages ≤ first ∨ first + pages ≤ e.2.first) →
      ∀ t, t = s1.onSet n (fun _ => { PageSet.reset with
        state := 1, asid := r.asid, table := wordOf (slice d 0 8), count := field d 8 4 + 1, first := first, pages := pages }) →
        exec (.sndSet ra rb) s = .next (t.advance t.here)) ∧
    (∀ i out bs s1, ((i = Instr.sndOut rd ra ∧ out = true) ∨ (i = Instr.sndIn rd ra ∧ out = false)) →
      let n := wbits a 11 0
      let x := s.pageSet n
      let es := (List.range x.count).map fun k => BitVec.ofNat 128 (field bs (16 * k) 16)
      wbits a 63 19 = 0 → x.state ≠ 0 → x.asid = r.asid → x.busy = false → (out = true ∨ x.state ≠ 1) →
      s.granted r.asid x.first x.pages = true →
      readSpan (.core p) .d (spanFuel (16 * x.count)) x.table (16 * x.count) released = .ok bs s1 →
      es.all entryOk = true →
      exec i s = .next ((s1.onSet n fun y =>
        { y with
          state := if out then 2 else 4, identity := r.identity, entries := es, used := if out then 0 else y.used, code := 0,
          flags := 0, parcel := p, station := wbits a 17 12, counted := wbit a 18, told := true, landed := [], offset := 0,
          failed := none }).writeReg rd s.newPromise)) ∧
    (a.toNat < 4096 → ((s.pageSet a.toNat).state = 0 ∨ (s.pageSet a.toNat).asid = r.asid) →
      exec (.sndStat rd ra) s = .next (s.writeReg rd (s.pageSet a.toNat).status)) ∧
    (∀ waits, waits = (s.postsBefore p (s.core p).fences || s.lateKicks.any fun k => k.parcel = p) → a.toNat < 4096 →
      (waits = false → exec (.qKick ra rb) s =
        .next ((s.kick a.toNat b (some p) (some (p, (s.core p).asid))).advance p)) ∧
      (waits = true → exec (.qKick ra rb) s = .next (({ s with
        lateKicks := s.lateKicks ++ [⟨p, (s.core p).asid, a.toNat, b, (s.core p).fences⟩] } : State).advance p)))

/-- Integer operations on elements (R44, R231, R232, R234, R235, R236, R237, R238, R239, R240). A firing whose sources
pass the checks of R44 and R189, and so do the words it pops, completes with one word of the instruction's type:
each element is the sum, difference, product, high half, multiply-add, minimum, maximum, absolute value, negation,
rounded average, shift, rotate, logic result, bit count, bit field or selected element of the sources' elements,
wrapped or clamped to the width as the instruction says; the word's mask is the sources' masks together. ICMP writes
all ones or zeros per element, or one predicate over the valid elements. -/
def Obligations.CellIntegerElements : Prop :=
  ∀ (w : CellWord) (s : State),
    let t := s.site
    let ty := w.ty.toNat
    let n := CellWord.width ty
    let m := 2 ^ n
    let sg := signedTy ty
    let v := intOf n sg
    let firing : Nat → Firing := fun op => ⟨s, t, s.cell t.p t.m, op, w⟩
    let els : Nat → Operand → List Nat := fun op o => ((firing op).raw o).values ty
    let mask : Nat → BitVec 16 := fun op =>
      ((firing op).raw w.a).mask &&& ((firing op).raw w.b).mask &&& ((firing op).raw (cOperand op w)).mask
    let fires : Nat → Prop := fun op => (firing op).fires [w.a, w.b, cOperand op w] = true
    let each : (CellWord → Instr) → Nat → (Nat → Nat → Nat → Nat) → Prop := fun i op g =>
      fires op → exec (i w) s = .next (s.commit t op w ((firing op).write
        (resultWord ty (zip3 g (els op w.a) (els op w.b) (els op (cOperand op w))) (mask op))))
    let clamp : Int → Nat := fun x => wrapInt n (satInt n sg x)
    each .iadd 0x00 (fun a b _ => (a + b) % m) ∧
    each .isub 0x01 (fun a b _ => (a + (m - b % m)) % m) ∧
    each .iadds 0x02 (fun a b _ => clamp (v a + v b)) ∧
    each .isubs 0x03 (fun a b _ => clamp (v a - v b)) ∧
    each .imul 0x04 (fun a b _ => a * b % m) ∧
    each .imulh 0x05 (fun a b _ => wrapInt n (v a * v b / 2 ^ n)) ∧
    each .imad 0x06 (fun a b c => (a * b + c) % m) ∧
    each .imin 0x07 (fun a b _ => if v a ≤ v b then a % m else b % m) ∧
    each .imax 0x08 (fun a b _ => if v a ≤ v b then b % m else a % m) ∧
    each .iabs 0x09 (fun a _ _ => if v a < 0 then (m - a % m) % m else a % m) ∧
    each .ineg 0x0A (fun a _ _ => (m - a % m) % m) ∧
    each .iavg 0x0B (fun a b _ => wrapInt n ((v a + v b + 1) / 2)) ∧
    each .shl 0x0C (fun a b _ => if n ≤ b then 0 else a * 2 ^ b % m) ∧
    each .shr 0x0D (fun a b _ => if n ≤ b then 0 else a / 2 ^ b) ∧
    each .sar 0x0E (fun a b _ => wrapInt n (intOf n true a / 2 ^ min b n)) ∧
    each .rot 0x0F (fun a b _ => (a * 2 ^ (b % n) + a / 2 ^ (n - b % n)) % m) ∧
    each .cellAnd 0x10 (fun a b _ => a &&& b) ∧
    each .cellOr 0x11 (fun a b _ => a ||| b) ∧
    each .cellXor 0x12 (fun a b _ => a ^^^ b) ∧
    each .andn 0x13 (fun a b _ => a &&& (m - 1 - b)) ∧
    each .not 0x14 (fun a _ _ => m - 1 - a) ∧
    each .cellClz 0x15 (fun a _ _ => clzNat n a) ∧
    each .cellCtz 0x16 (fun a _ _ => ctzNat n a) ∧
    each .ffs 0x17 (fun a _ _ => if a = 0 then 0 else ctzNat n a + 1) ∧
    each .cellPopc 0x18 (fun a _ _ => popcNat n a) ∧
    each .brev 0x19 (fun a _ _ => reverseBits n a) ∧
    each .bfx 0x1A (fun a _ _ => wrapInt n (intOf (w.cf 6 6 + 1) sg (a / 2 ^ w.cf 0 6 % 2 ^ (w.cf 6 6 + 1)))) ∧
    each .bfi 0x1B (fun a b _ => insertField (w.cf 0 6) (w.cf 6 6 + 1) a b) ∧
    each .sel 0x41 (fun a b c => if c = 0 then b else a) ∧
    (fires 0x40 →
      let hold := List.zipWith (fun a b => conditionHolds (w.cf 0 3) (v a) (v b)) (els 0x40 w.a) (els 0x40 w.b)
      let valid := elemMask ty (mask 0x40)
      (∀ k, w.dst = .pred k → w.cf 3 1 = 0 → exec (.icmp w) s = .next (s.commit t 0x40 w
        { (firing 0x40).quiet with pred := some ((hold.zip valid).any fun e => e.2 && e.1) })) ∧
      (∀ k, w.dst = .pred k → w.cf 3 1 = 1 → exec (.icmp w) s = .next (s.commit t 0x40 w
        { (firing 0x40).quiet with pred := some ((hold.zip valid).all fun e => !e.2 || e.1) })) ∧
      ((∀ k, w.dst ≠ .pred k) → exec (.icmp w) s = .next (s.commit t 0x40 w
        ((firing 0x40).write (resultWord ty (hold.map fun x => if x then m - 1 else 0) (mask 0x40))))))

/-- Moves, lanes, reductions and queue instructions (R44, R241, R242, R243, R244, R245, R246, R247, R248, R249, R250,
R251). MOV and DEQ pass a source's word on, a token not into a lane register; MOVC writes a sign- or zero-extended
constant; BCST, LPRM and LSHF move elements with their validity; REDI reduces by the tree and SCNI by the fold; DOT4
and DOT2 add each lane's products to an accumulator and saturate once; KOP reads its truth table; ENQ pushes a data
word or a token, and keeps the last bit of a word that it takes from a queue, where R247 sets the bit from the
modifier alone, which is the model's choice (log 23); ADV pops and pushes as many words as its count; PEEK writes
the head's sideband; QSTAT writes the counts of the words in the places of the queues. Each, where its sources and
popped words pass the checks of R44, fires and commits. -/
def Obligations.CellLaneInstructions : Prop :=
  ∀ (w : CellWord) (s : State),
    let t := s.site
    let c := s.cell t.p t.m
    let ty := w.ty.toNat
    let n := CellWord.width ty
    let count := CellWord.count ty
    let sg := signedTy ty
    let firing : Nat → Firing := fun op => ⟨s, t, c, op, w⟩
    let writes : Instr → Nat → LinkWord → Prop := fun i op x => exec i s = .next (s.commit t op w ((firing op).write x))
    let src : Nat → Operand → Source := fun op o => (firing op).raw o
    let fires : Nat → List Operand → Prop := fun op os => (firing op).fires os = true
    let marked : Nat → Operand → List (Nat × Bool) := fun op o =>
      ((src op o).values ty).zip (elemMask ty (src op o).ownMask)
    let wl := (src 0x42 w.a).link
    (fires 0x42 [w.a] → (wl.token = false ∨ ∀ i, w.dst ≠ .reg i) → writes (.mov w) 0x42 wl) ∧
    (fires 0x61 [w.a] → (wl.token = false ∨ ∀ i, w.dst ≠ .reg i) → writes (.deq w) 0x61 wl) ∧
    (fires 0x43 [] → writes (.movc w) 0x43 (resultWord ty (List.replicate count (wrapInt n (intOf 12 sg w.c.toNat))) 0xFFFF)) ∧
    (fires 0x44 [w.a] →
      let e := (marked 0x44 w.a).getD (w.cf 0 6) (0, false)
      writes (.bcst w) 0x44 (resultWord ty (List.replicate count e.1) (lanesValid ty (List.replicate count e.2)))) ∧
    (fires 0x45 [w.a, w.b] →
      let a := marked 0x45 w.a
      let b := marked 0x45 w.b
      writes (.lprm w) 0x45 (resultWord ty (b.map fun i => (a.getD (i.1 % count) (0, false)).1)
        (lanesValid ty (b.map fun i => (a.getD (i.1 % count) (0, false)).2 && i.2)))) ∧
    (fires 0x46 [w.a, w.b] →
      let l := ((marked 0x46 w.a ++ marked 0x46 w.b).drop (w.cf 0 7)).take count
      writes (.lshf w) 0x46 (resultWord ty (l.map (·.1)) (lanesValid ty (l.map (·.2))))) ∧
    (∀ op, fires op [w.a] →
      let xs := (marked op w.a).map fun e => if e.2 then intOf n sg e.1 else reduceIdentity (w.cf 0 3) n sg
      (op = 0x47 →
        let total := (treeFold (reduceStep (w.cf 0 3) n sg) 6 xs).headD 0
        writes (.redi w) 0x47 (resultWord ty [reduceWrite (w.cf 0 3) n sg total] (if n = 64 then 3 else 1))) ∧
      (op = 0x48 →
        let l := ((prefixes (reduceStep (w.cf 0 3) n sg) none xs).map (reduceWrite (w.cf 0 3) n sg)).zip
          ((marked op w.a).map (·.2))
        writes (.scni w) 0x48 (resultWord ty (l.map (·.1)) (lanesValid ty (l.map (·.2)))))) ∧
    (∀ op i, (op = 0x49 ∧ i = Instr.dot4 w) ∨ (op = 0x4A ∧ i = Instr.dot2 w) → fires op [w.a, w.b, cOperand op w] →
      let a := src op w.a
      let b := src op w.b
      let x := src op (cOperand op w)
      let prods := List.zipWith (fun y z => intOf n sg y * intOf n sg z) (a.values ty) (b.values ty)
      let sum := fun (l : Nat) => ((prods.drop (32 / n * l)).take (32 / n)).foldl (· + ·) (intOf 32 sg (laneOf x.payload l).toNat)
      writes i op (resultWord 0 ((List.range 16).map fun l => wrapInt 32 (satInt 32 sg (sum l)))
        (a.mask &&& b.mask &&& x.mask))) ∧
    (fires 0x4B [] → exec (.kop w) s = .next (s.commit t 0x4B w { (firing 0x4B).quiet with
      pred := some (w.c.getLsbD (2 * (firing 0x4B).predicate w.a + (firing 0x4B).predicate w.b)) })) ∧
    (fires 0x60 [w.a] →
      let l := { wl with last := wl.last || w.c.getLsbD 0 }
      writes (.enq w) 0x60 (if w.c.getLsbD 1 then { l with token := true, kind := BitVec.ofNat 5 (w.cf 2 5) } else l)) ∧
    (∀ q, w.dst = .oq q → fires 0x62 [] → exec (.adv w) s = .next (s.commit t 0x62 w
      { (firing 0x62).quiet with pushes := List.replicate (w.cf 0 4) (q, dataWord 0 0 0, false) })) ∧
    ((∀ q, w.dst ≠ .oq q) → fires 0x62 [] → exec (.adv w) s = .next (s.commit t 0x62 w (firing 0x62).quiet)) ∧
    writes (.peek w) 0x63
      (resultWord 1 [sideband wl / 2 ^ 32, wl.scale.toNat, (laneOf wl.payload 0).toNat] 0xFFFF) ∧
    (fires 0x64 [] → writes (.qstat w) 0x64 (resultWord 1
      ([c.iq[0].words.length, c.iq[1].words.length, c.iq[2].words.length, c.iq[3].words.length] ++
       queues4.map (fun q => 8 + c.depth q - (c.oq[q.toNat].words.length + c.oq[q.toNat].delay.length +
         (c.oq[q.toNat].waiting.filter Option.isSome).length)) ++
       [c.named.toNat, t.ctx]) 0xFFFF))

/-- Cell instructions at the address port (R44, R252, R254, R255, R256, R257, R258, R259, R286, R289). A firing of a
memory instruction whose sources and popped words pass the checks of R44, and whose address stands in valid lanes
and is aligned, puts one request with its scope and destination at the address port and commits: LD, ST, WALK, ATOM,
LDV, STV, PROJ and HOUT; LD of a buffer handle asks for the word of the buffer that its index names, and has it at
once where the port is empty and no segment reserves the word, which is the model's choice (log 29); a misaligned
address freezes the cell. -/
def Obligations.CellMemoryInstructions : Prop :=
  ∀ (w : CellWord) (s : State),
    let t := s.site
    let ty := w.ty.toNat
    let firing : Nat → Firing := fun op => ⟨s, t, s.cell t.p t.m, op, w⟩
    let entry : PortOp → Word → Scope → PortEntry := fun op va sc =>
      ⟨op, va, sc, entryDest w t.ctx, BitVec.ofNat 3 t.ctx, BitVec.ofNat 3 t.slot, none, s.tick⟩
    let sends : Instr → Nat → PortEntry → Prop := fun i op e =>
      exec i s = .next (s.commit t op w { (firing op).quiet with entry := some e })
    let src : Operand → Source := fun o => (firing 0).raw o
    let at_ : Operand → Word := fun o => (firing 0).addressOf o
    let ready : Nat → Nat → Operand → Prop := fun op n o =>
      (firing op).fires [w.a, w.b] = true ∧ (firing op).addresses n o = true
    let sc := scopeOfCode (w.cf 0 3)
    ((∀ h, w.a ≠ .handle h) → (firing 0x65).fires [w.a] = true → (firing 0x65).addresses 64 w.a = true →
      sends (.cellLd w) 0x65 (entry (.load (memTag w 3)) (at_ w.a) sc)) ∧
    (∀ h, w.a = .handle h → (firing 0x65).fires [w.b] = true →
      let i := (laneOf (src w.b).payload 0).toNat
      let e := s.buffer t.p h.toNat
      let pa := windowBase + t.p * 0x400000 + bufBase e + 64 * i
      let now := (s.cell t.p t.m).port = [] ∧ s.reservers (.cell t.p t.m) pa 64 = []
      i * 64 < bufSize e → ∃ data, (now → data = some (bytesPayload (s.homeRead pa 64))) ∧ (¬ now → data = none) ∧
        exec (.cellLd w) s = .next (s.commit t 0x65 w { (firing 0x65).quiet with
          entry := some (entry (.buffer h pa data (memTag w 3) w.pop) 0 .c), drain := some h })) ∧
    (ready 0x66 64 w.b → sends (.cellSt w) 0x66 (entry (.store (toLane (src w.a).link) w.ty) (at_ w.b) sc)) ∧
    (ready 0x67 64 w.a → sends (.walk w) 0x67 (entry (.walk (memTag w 6) (w.cf 3 3)
      ((laneOf (src w.b).payload 1).signExtend 64) (laneOf (src w.b).payload 0).toNat 0) (at_ w.a) sc)) ∧
    (ready 0x68 (CellWord.width ty / 8) w.a →
      let vs := (src w.b).values ty
      sends (.atom w) 0x68 (entry (.atom (w.cf 3 3) (CellWord.width ty = 64) (signedTy ty)
        (BitVec.ofNat 64 (vs.getD 0 0)) (BitVec.ofNat 64 (vs.getD 1 0))) (at_ w.a) sc)) ∧
    (ready 0x69 64 w.a → sends (.cellLdv w) 0x69
      (entry (.ldv (memTag w 3) (w.c.getLsbD 6) ((src w.b).payload.extractLsb' 0 12)) (at_ w.a) sc)) ∧
    (ready 0x6A 64 w.b →
      sends (.cellStv w) 0x6A (entry (.stv (toLane (src w.a).link) w.ty (w.c.getLsbD 6)) (at_ w.b) sc)) ∧
    ((firing 0xE5).fires [w.a] = true → (firing 0xE5).addresses 1 w.a = true →
      sends (.proj w) 0xE5 (entry (.proj (w.cf 0 2 = 1)) (at_ w.a) .c)) ∧
    (ready 0xE8 64 w.b → sends (.hout w) 0xE8 (entry (.hout (toLane (src w.a).link)) (at_ w.b) .y)) ∧
    (∀ op i, (op = 0x65 ∧ i = Instr.cellLd w) ∨ (op = 0x67 ∧ i = .walk w) ∨ (op = 0x69 ∧ i = .cellLdv w) →
      (∀ h, w.a ≠ .handle h) → (firing op).fires [w.a] = true → (firing op).addresses 1 w.a = true →
      (at_ w.a).toNat % 64 ≠ 0 →
      exec i s = .next (s.freeze t ⟨codeMisaligned, at_ w.a, 0, true⟩ false))

/-- Float operations on elements (R44, R263, R264, R265, R266, R267, R268, R269, R270, R271, R272, R273). A float firing
whose sources and popped words pass the checks of R44 computes each element's outcome (sum, difference, product,
fused multiply-add, minimum, maximum, absolute value, negation, reciprocal, roots, exponential, logarithm,
hyperbolic tangent, sigmoid, sine) on values flushed as the context asks, rounds each once in ascending order in its
mode, and commits with the flags that the valid elements raised; with an enabled trap among those flags it freezes
instead. -/
def Obligations.CellFloatElements : Prop :=
  ∀ (w : CellWord) (s : State),
    let t := s.site
    let c := s.cell t.p t.m
    let ty := w.ty.toNat
    let firing : Nat → Firing := fun op => ⟨s, t, c, op, w⟩
    let each : (CellWord → Instr) → Nat → (FVal → FVal → FVal → Pre) → Prop := fun i op g =>
      (firing op).fires [w.a, w.b, cOperand op w] = true →
        let f := firing op
        let as := (f.raw w.a).values ty
        let bs := (f.raw w.b).values ty
        let cs := (f.raw (cOperand op w)).values ty
        let mask := (f.raw w.a).mask &&& (f.raw w.b).mask &&& (f.raw (cOperand op w)).mask
        let outcomes := (as.zip (bs.zip cs)).map fun e => g (f.value e.1) (f.value e.2.1) (f.value e.2.2)
        let r := roundAll ((elemMask ty mask).zip (outcomes.map fun p gen => f.round p gen)) c.gen
        let flags := r.2.1.foldl (fun (a : FFlags) x => a ||| x) 0
        (flags &&& f.traps = 0 → exec (i w) s = .next (s.commit t op w
          { f.write (resultWord ty r.1 mask) with flags := flags, gen := r.2.2 })) ∧
        (flags &&& f.traps ≠ 0 → ∃ x, exec (i w) s = .next (s.freeze t x false) ∧
          (x.code = codeFpInvalid ∨ x.code = codeFpDivzero ∨ x.code = codeFpOverflow) ∧
          (x.code = codeFpInvalid ↔ flags &&& f.traps &&& flagInvalid ≠ 0))
    each .fadd 0x80 (fun a b _ => fAdd w.rnd a b) ∧
    each .fsub 0x81 (fun a b _ => fAdd w.rnd a b.negate) ∧
    each .fmul 0x82 (fun a b _ => fMulVal a b) ∧
    each .ffma 0x83 (fun a b d => fFma w.rnd a b d) ∧
    each .fmin 0x84 (fun a b _ => fPick false a b) ∧
    each .fmax 0x85 (fun a b _ => fPick true a b) ∧
    each .fabs 0x86 (fun a _ _ => (if a.sign then a.negate else a).pre) ∧
    each .fneg 0x87 (fun a _ _ => a.negate.pre) ∧
    each .frcp 0x89 (fun a _ _ => fRcp a) ∧
    each .frsq 0x8A (fun a _ _ => fRsq a) ∧
    each .fsqrt 0x8B (fun a _ _ => fSqrt a) ∧
    each .fexp2 0x8C (fun a _ _ => fExp2 a) ∧
    each .flog2 0x8D (fun a _ _ => fLog2 a) ∧
    each .ftanh 0x8E (fun a _ _ => fTanh a) ∧
    each .fsigm 0x8F (fun a _ _ => fSigm a) ∧
    each .fsinp 0x90 (fun a _ _ => fSinp a)

/-- Float compares, reductions, selections, conversions and block instructions (R44, R51, R264, R270, R271, R272, R273,
R274, R276, R277, R278, R279). Where their sources and popped words pass the checks of R44 and no enabled trap is
among the flags raised, FCMP and FCLS write a word or a predicate, FRND integral values, REDF the tree's value and
SCNF the fold's, TOPK the best candidates in order with their indices, CVT the converted part of a word with its
neighbours taken from B, BQ a quantized block in its place, its subnormal sources flushed where the context asks for
it, which is the model's choice (log 24), BDQ a block's values, SCLB the scale bytes or the word with its scales set
or advanced, and WADP the adapted blocks; the flags become sticky and the generator moves on. -/
def Obligations.CellFloatResults : Prop :=
  ∀ (w : CellWord) (s : State),
    let t := s.site
    let c := s.cell t.p t.m
    let ty := w.ty.toNat
    let firing : Nat → Firing := fun op => ⟨s, t, c, op, w⟩
    let src : Operand → Source := fun o => (firing 0).raw o
    let els : Operand → List Nat := fun o => (src o).values ty
    let mask := (src w.a).mask &&& (src w.b).mask
    let marked : Operand → List (Nat × Bool) := fun o => ((src o).values ty).zip (elemMask ty (src o).ownMask)
    let block : Source → Prop := fun x => x.tag = 3 ∨ x.tag = 4 ∨ x.tag = 5
    let fires : Nat → List Operand → Prop := fun op os => (firing op).fires os = true
    let traps := (firing 0).traps
    let ftz := (firing 0).ftz
    let ends : Instr → Nat → FFlags → BitVec 32 → Effect → Prop := fun i op flags gen e =>
      flags &&& traps = 0 → exec i s = .next (s.commit t op w { e with flags := flags, gen := gen })
    let either : List FFlags → FFlags := fun l => l.foldl (fun (a : FFlags) x => a ||| x) 0
    (fires 0x88 [w.a, w.b] →
      let ps := ((els w.a).zip (els w.b)).map fun e => ((firing 0x88).value e.1, (firing 0x88).value e.2)
      let flags := ((elemMask ty mask).zip ps).map fun e => if e.1 then conditionFlag (w.cf 0 3) e.2.1 e.2.2 else 0
      ends (.fcmp w) 0x88 (either flags) c.gen
        ((firing 0x88).judge (w.cf 3 1 = 1) mask (ps.map fun e => floatCondition (w.cf 0 3) e.1 e.2))) ∧
    (fires 0x91 [w.a, w.b] →
      let r := roundAll ((elemMask ty mask).zip ((els w.a).map fun a gen => (firing 0x91).integral ((firing 0x91).value a) gen)) c.gen
      ends (.frnd w) 0x91 (either r.2.1) r.2.2 ((firing 0x91).write (resultWord ty r.1 mask))) ∧
    (fires 0x92 [w.a, w.b] →
      let cls := fun (a : Nat) => w.c.getLsbD ((floatFmt ty).classOf ((floatFmt ty).decode a))
      exec (.fcls w) s = .next (s.commit t 0x92 w ((firing 0x92).judge (w.c.getLsbD 10) mask ((els w.a).map cls)))) ∧
    (fires 0x93 [w.a] →
      let a := (marked w.a).map fun e => (if e.2 then e.1 else (floatFmt ty).identity (w.cf 0 2), e.2)
      let r := floatTree ((firing 0x93).combine (w.cf 0 2)) (if ty = 2 then 4 else 5) (a.map (·.1)) c.gen 0
      ends (.redf w) 0x93 r.2.2 r.2.1 ((firing 0x93).write (resultWord ty [r.1.headD 0] 1))) ∧
    (∀ e l, fires 0x94 [w.a] →
      (marked w.a).map (fun e => (if e.2 then e.1 else (floatFmt ty).identity (w.cf 0 2), e.2)) = e :: l →
      let first := (floatFmt ty).finish .rne ftz c.gen ((firing 0x94).value e.1).pre
      let r := floatScan ((firing 0x94).combine (w.cf 0 2)) first.code (l.map (·.1)) c.gen
      ends (.scnf w) 0x94 (either ((first :: r.1).map (·.flags))) r.2
        ((firing 0x94).carry (((first :: r.1).map (·.code)).zip ((e :: l).map (·.2))))) ∧
    (fires 0x95 [w.a, w.b] →
      let x := src w.b
      let k := w.cf 0 3 + 1
      let d := match w.dst with
        | .reg i => c.v[i.toNat]
        | _ => LaneReg.reset
      let held := fun (i : Nat) => (laneMask d.tag d.scale).getLsbD i && (laneMask d.tag d.scale).getLsbD (8 + i)
      let flush := fun (v : Nat) => if ty = 2 && ftz && v % 2 ^ 31 < 2 ^ 23 then v / 2 ^ 31 * 2 ^ 31 else v
      let old : List Candidate := if w.c.getLsbD 4 then [] else ((List.range k).filter held).map fun i =>
        let v := flush (laneOf d.payload i).toNat
        ⟨(firing 0x95).rank i v, v, (laneOf d.payload (8 + i)).toNat⟩
      let lanes := ((List.range 16).filter fun l => ((src w.a).ownMask &&& x.ownMask).getLsbD l).map fun l => (l, (els w.a).getD l 0)
      let isNan := fun (v : Nat) => ty = 2 && ((floatFmt 2).decode v).isNan
      let new : List Candidate := (lanes.filter fun e => !isNan e.2).map fun e =>
        ⟨(firing 0x95).rank e.1 (flush e.2), flush e.2, (laneOf x.payload e.1).toNat⟩
      let best := ((old ++ new).foldl (fun l y => Candidate.insert (w.c.getLsbD 3) y l) []).take k
      let out := best.map (·.value) ++ List.replicate (8 - best.length) 0 ++ best.map (·.index)
      ends (.topk w) 0x95 (either (lanes.map fun e => if ty = 2 then sigFlag ((floatFmt 2).decode e.2) else 0)) c.gen
        ((firing 0x95).write (dataWord (pack 32 out)
          ((BitVec.ofNat 16 ((2 ^ best.length - 1) * 257)).setWidth 32) 0))) ∧
    (fires 0x96 [w.a, w.b] →
      let x := src w.a
      let b := marked w.b
      let st := w.cf 0 4
      let p := w.cf 4 3
      let ns := CellWord.count st
      let nd := CellWord.count ty
      let xs := (x.values st).zip (elemMask st x.ownMask)
      let conv := fun (e : Nat × Bool) => (e.2, convert st ty w.rnd ftz (firing 0x96).sat e.1)
      let keep := fun (e : Nat × Bool) => (w.b != .none && e.2, fun (g : BitVec 32) => (⟨e.1, 0, g⟩ : Rounded))
      let items := if nd ≤ ns then ((xs.drop (p * nd)).take nd).map conv
        else (b.take (p * ns)).map keep ++ xs.map conv ++ (b.drop ((p + 1) * ns)).map keep
      let r := roundAll items c.gen
      ends (.cvt w) 0x96 (either r.2.1) r.2.2 ((firing 0x96).carry (r.1.zip (items.map (·.1))))) ∧
    (fires 0xC0 [w.a, w.b] →
      let st := match w.cf 6 2 with | 0 => 2 | 1 => 7 | _ => 8
      let wd := widthCode (w.cf 2 2)
      let n := wd * blockLength wd
      let part := fun (z : Source) => ((z.values st).zip (elemMask st z.ownMask)).map fun e =>
        if e.2 then (floatFmt st).flush ftz ((floatFmt st).decode e.1) else .fin false 0 0
      let q := quantize wd (w.cf 4 2) w.rnd 0 c.gen ((part (src w.a) ++ part (src w.b)).take (blockLength wd))
      let d := match w.dst with
        | .reg i => c.v[i.toNat]
        | _ => LaneReg.reset
      let old : BitVec 512 × BitVec 32 := if d.tag = tagOfWidth wd then (d.payload, d.scale) else (0, 0)
      ends (.bq w) 0xC0 q.flags q.gen ((firing 0xC0).write
        (dataWord (BitVec.ofNat 512 (putBits old.1.toNat (n * w.cf 0 2) n (packNat wd q.codes)))
          (BitVec.ofNat 32 (putBits old.2.toNat (8 * w.cf 0 2) 8 q.scale)) (tagOfWidth wd)))) ∧
    (∀ x, x = src w.a → fires 0xC1 [w.a] → block x → ¬ (w.cf 2 1 = 1 ∧ tagWidth x.tag.toNat = 8) →
      let wd := tagWidth x.tag.toNat
      let len := blockLength wd
      let codes := (((wordCodes wd x.payload).drop (len * w.cf 0 2)).take len |>.drop (16 * w.cf 2 1)).take 16
      let vals := codes.map (blockValue wd 0 (scaleByte x.scale (w.cf 0 2)))
      ends (.bdq w) 0xC1 (either (vals.map fun v => if v.2 then flagInvalid else 0)) c.gen
        ((firing 0xC1).write (resultWord 2 (vals.map fun v => (fmtF32.finish .rne false 0 v.1.pre).code)
          (BitVec.ofNat 16 (2 ^ vals.length - 1))))) ∧
    (fires 0xC2 [w.a] → block (src w.a) → w.cf 0 2 = 0 → exec (.sclb w) s = .next (s.commit t 0xC2 w
      ((firing 0xC2).write (dataWord (pack 32 ((List.range 4).map (scaleByte (src w.a).scale))) 0xF 0)))) ∧
    (∀ x y, x = src w.a → y = src w.b → fires 0xC2 [w.a, w.b] → block x → y.ownMask.getLsbD 0 = true →
      let v := laneOf y.payload 0
      (w.cf 0 2 = 1 → exec (.sclb w) s = .next (s.commit t 0xC2 w ((firing 0xC2).write
        (dataWord x.payload (BitVec.ofNat 32 (putBits x.scale.toNat (8 * w.cf 2 2) 8 v.toNat)) x.tag)))) ∧
      (2 ≤ w.cf 0 2 →
        let r := (List.range 4).map fun j => advanceScale v.toInt (scaleByte x.scale j)
        ends (.sclb w) 0xC2 (either (r.map fun e => if e.2 then flagInvalid else 0)) c.gen
          ((firing 0xC2).write (dataWord x.payload (BitVec.ofNat 32 (packNat 8 (r.map (·.1)))) x.tag)))) ∧
    (∀ q j, w.a = .iq q j →
      let iw := (wadpWidths (w.cf 3 2)).1
      let ow := (wadpWidths (w.cf 3 2)).2
      let os := ((List.range ((wadpSpan w).2 + 1)).drop (wadpSpan w).1).map fun i => Operand.iq q (BitVec.ofNat 3 i)
      let words := os.map fun o => (src o).link
      fires 0xC3 os → (∀ o ∈ os, (src o).tag = tagOfWidth iw) →
      (w.cf 3 2 = 0 →
        let x := words.headD (dataWord 0 0 0)
        let part := ((wordCodes 4 x.payload).zipIdx.drop (64 * w.cf 0 3)).take 64
        exec (.wadp w) s = .next (s.commit t 0xC3 w ((firing 0xC3).write (blocksWord 8
          ((List.range 4).map fun j =>
            widerType (scaleByte x.scale (2 * w.cf 0 3 + j / 2) / 64) * 64 + scaleByte x.scale (2 * w.cf 0 3 + j / 2) % 64)
          (part.map fun e => widerCode (scaleByte x.scale (e.2 / 32) / 64) e.1))))) ∧
      (w.cf 3 2 ≠ 0 →
        let vals := words.flatMap fun x => wordValues iw 0 x.payload x.scale
        let used := (vals.drop (codesPerWord ow * w.cf 0 3 - codesPerWord iw * (wadpSpan w).1)).take (codesPerWord ow)
        let blocks := (List.range 4).map fun j => (used.drop (blockLength ow * j)).take (blockLength ow)
        let r := requantize ow (w.cf 5 2) w.rnd (blocks.map fun b => b.map (·.1)) c.gen
        ends (.wadp w) 0xC3 (either ((r.1.zip blocks).map fun e =>
            e.1.flags ||| (if e.2.any (·.2) then flagInvalid else 0))) r.2
          ((firing 0xC3).write (blocksWord ow (r.1.map (·.scale)) (r.1.flatMap (·.codes))))))

/-- Structural cell instructions (R44, R280, R281, R282, R283, R284, R285, R287, R288, R290, R291, R292). GATE passes
its data while its predicate is set and opens on a token; DLY, MRG and STR pass one word; TAG changes its context;
WIDN takes it into the widener; HIN turns a host token into data with an acquire; RDON marks a record, RRTE returns
it; POIS pushes poison, HALT halts, NOP only commits; TRAP freezes the cell with the code ILLEGAL and its constant
in word 1. Each but TRAP asks that its sources and popped words pass the checks of R44. -/
def Obligations.CellStructural : Prop :=
  ∀ (w : CellWord) (s : State),
    let t := s.site
    let c := s.cell t.p t.m
    let firing : Nat → Firing := fun op => ⟨s, t, c, op, w⟩
    let does : Instr → Nat → Effect → Prop := fun i op e => exec i s = .next (s.commit t op w e)
    let k := w.cf 0 3
    let src : Operand → Source := fun o => (firing 0).raw o
    let wl := (src w.a).link
    let fires : Nat → List Operand → Prop := fun op os => (firing op).fires os = true
    (fires 0xE0 [w.a] → c.k.getLsbD k = true → wl.last = false → does (.gate w) 0xE0 ((firing 0xE0).write wl)) ∧
    (fires 0xE0 [w.a] → c.k.getLsbD k = true → wl.last = true →
      does (.gate w) 0xE0 { (firing 0xE0).write wl with setPred := some (k, false) }) ∧
    (fires 0xE0 [w.b] → c.k.getLsbD k = false → (src w.b).link.token = true → (src w.b).link.kind = 0 →
      does (.gate w) 0xE0 { (firing 0xE0).quiet with setPred := some (k, true) }) ∧
    (fires 0xE1 [w.a] → does (.dly w) 0xE1 ((firing 0xE1).write wl)) ∧
    (∀ q j, w.a = .iq q j → 1 ≤ c.iq[q.toNat].filled → fires 0xE2 [w.a] →
      does (.mrg w) 0xE2 ((firing 0xE2).write wl)) ∧
    (∀ q j, w.a = .iq q j → c.iq[q.toNat].filled = 0 → fires 0xE2 [w.b] →
      does (.mrg w) 0xE2 ((firing 0xE2).write (src w.b).link)) ∧
    (fires 0xE3 [w.a, w.b] → laneOf (src w.b).payload 0 ≠ 0 →
      does (.str w) 0xE3 { (firing 0xE3).quiet with pushes := [(BitVec.ofNat 2 (w.cf 0 2), wl, false)] }) ∧
    (fires 0xE3 [w.a, w.b] → laneOf (src w.b).payload 0 = 0 → does (.str w) 0xE3 ((firing 0xE3).write wl)) ∧
    (fires 0xE4 [w.a] → does (.tag w) 0xE4 ((firing 0xE4).write { wl with ctx := BitVec.ofNat 3 (w.cf 0 3) })) ∧
    (∀ q, fires 0xE6 [w.a] → w.dst = .oq q →
      does (.widn w) 0xE6 { (firing 0xE6).quiet with
        widening := some ⟨wl, q, !w.c.getLsbD 3, scopeOfCode (w.cf 0 3), s.tick⟩ }) ∧
    (fires 0xE7 [w.a] → wl.token = true → wl.kind = 6 →
      does (.hin w) 0xE7
        { (firing 0xE7).write (dataWord ((src w.a).payload &&& 0xFFFFFFFFFFFFFFFF) 3 0) with acquireY := true }) ∧
    (fires 0xE9 [w.a] → (src w.a).tag = 7 → does (.rdon w) 0xE9 ((firing 0xE9).write
      { wl with scale := (src w.a).scale ||| BitVec.ofNat 32 (w.cf 0 9 * 2 ^ 16), last := false })) ∧
    (fires 0xEA [w.a] → (src w.a).tag = 7 → does (.rrte w) 0xEA { (firing 0xEA).quiet with record := some wl }) ∧
    (fires 0xEB [] → does (.pois w) 0xEB ((firing 0xEB).write (tokenWord 2 0))) ∧
    (fires 0xEC [] → does (.halt w) 0xEC { (firing 0xEC).quiet with halt := true }) ∧
    exec (.trap w) s = .next (s.freeze t ⟨codeIllegal, w.c.setWidth 64, 0, false⟩ false) ∧
    (fires 0xEE [] → does (.nop w) 0xEE (firing 0xEE).quiet)

/-- What a cell instruction leaves alone (R184, R192, R196, R197, R198, R252, R287, R291). Every cell instruction,
whether it commits or freezes its cell, leaves every byte of memory and every version, every Surveyor core, every
other parcel, every station, stream and Traverse request of its own parcel, and every cell of its parcel but its own
and its follower as they were; no buffer entry changes but the one that LD names. -/
def Obligations.CellFrame : Prop :=
  ∀ (i : Instr) (op : BitVec 8) (w : CellWord) (s : State), i.cellParts? = some (op, w) →
    let p := s.site.p
    ∃ t, exec i s = .next t ∧ t.mem = s.mem ∧ t.deep = s.deep ∧ t.versions = s.versions ∧ t.kept = s.kept ∧
      (∀ q, t.core q = s.core q) ∧ (∀ q, q ≠ p → t.parcel q = s.parcel q) ∧
      (t.parcel p).stations = (s.parcel p).stations ∧ (t.parcel p).streams = (s.parcel p).streams ∧
      (t.parcel p).travs = (s.parcel p).travs ∧ (t.parcel p).ports = (s.parcel p).ports ∧
      (∀ m, m ≠ s.site.m → s.followerOf p s.site.m ≠ some m → t.cell p m = s.cell p m) ∧
      ((∀ h, w.a ≠ .handle h) → (t.parcel p).buffers = (s.parcel p).buffers) ∧
      (∀ h n, w.a = .handle h → n ≠ h.toNat → t.buffer p n = s.buffer p n) ∧
      t.queues = s.queues ∧ t.segments = s.segments ∧ t.sets = s.sets ∧ t.launches = s.launches ∧
      t.meridian = s.meridian

/-- A task starts with its dispatch words and cleared registers (R90). When an idle running core of a running region
picks a channel with an event, TASK_DISPATCH starts its task: x1 and x2 hold the packet's words or the wakeup's time
and argument, x3 the information word, x4 the binding argument, and x5 to x31 are zero whatever they held before.
The program counter is at the handler and no trap flag is set, but for a checked wakeup at a promise whose entry is
FREE or FILLING: with ch127 bound that one takes the trap LATE_PROMISE at the handler's address, with TSTAT.w set
and in TVAL the promise of the request that fills the entry, or ones where none does. -/
def Obligations.TaskStart : Prop :=
  ∀ (s : State) (p o k ch : Nat) (r : Region) (e : ChannelEvent) (rest : List ChannelEvent),
    s.regionOf p = some (o, r) → s.coreRuns p = true → (s.core p).running = false → (s.core p).stopped = false →
    r.phase ≠ .preempting → r.exitAsked = false → (s.core p).pick s.meridian.toNat = some (k, ch) →
    ((s.core p).channel ch).fifo = e :: rest →
    let late : Prop := ∃ time arg control, e = .wakeup 1 time arg control ∧ control.getLsbD 15 = true ∧
      bufState (s.buffer p (getF control 14 8)) ≤ 1
    (late → ((s.core p).channel 127).bound = true) →
    ∃ t promoted, exec (.taskDispatch p) s = .next t ∧
      (∀ pk shared, e = .packet pk shared → (t.core p).get 1 = pk.word0 ∧
        (t.core p).get 2 = if pk.two then pk.word1 else 0) ∧
      (∀ kind time arg control, e = .wakeup kind time arg control → (t.core p).get 1 = time ∧ (t.core p).get 2 = arg) ∧
      (t.core p).get 3 = infoWord s.link.number p ch promoted e ∧
      (t.core p).get 4 = ((s.core p).channel ch).arg ∧
      (∀ n : Reg, n = 0 ∨ 5 ≤ n.toNat → (t.core p).get n = 0) ∧
      (t.core p).running = true ∧
      (¬late → (t.core p).pc = ((s.core p).channel ch).handler ∧ (t.core p).trap = false ∧ (t.core p).wake = false) ∧
      (∀ time arg control, e = .wakeup 1 time arg control → control.getLsbD 15 = true →
        let b := s.buffer p (getF control 14 8)
        bufState b ≤ 1 → (t.core p).trap = true ∧ (t.core p).wake = true ∧ (t.core p).tcause = 0x30 ∧
          (t.core p).tepc = ((s.core p).channel ch).handler ∧ (t.core p).pc = ((s.core p).channel 127).handler ∧
          (t.core p).tval = if bufState b = 1 then b.extractLsb' 64 64 else 0xFFFFFFFFFFFFFFFF)

/-- A step runs the instruction that is due (R89, R110, R183, R184, R479). Where the device is not held: at a core's
turn, the word at its program counter is fetched, and the instruction that the decoder reads from it is executed; at
a cell's turn, the operation word of the slot that fires; an event is executed as it stands. After it only what
passes with every step is added: time, the hang monitors, a write-on of a held sector, the packets of frozen cells,
a part of a dump, the turn of the links, and the choice of the next turn. On a device that is held after a fatal
error (R479) a turn of a core or a cell ends in the fault deviceHeld. That a step is one action of one agent in its
turn, and what settles after it, is the model's choice (logs 1 and 5), and so is the fault on a held device (log
91). -/
def Obligations.StepRunsInstruction : Prop :=
  (∀ (s t u : State) (p : Nat) (bs : List Byte) (i : Instr), s.held = false → s.next = .core p → s.coreRuns p = true →
    (s.core p).running = true → (s.core p).stopped = false → (s.core p).waiting = none → fetchLine p s = .ok bs t →
    Decode.surveyor (BitVec.ofNat 32 (field bs ((s.core p).pc.toNat % 64) 4)) = .ok i → exec i t = .next u →
    step s = .next (({ u with tick := t.tick, next := t.next } : State).settle true)) ∧
  (∀ (s u : State) (p m x k : Nat) (i : Instr), s.held = false → s.next = .cell p m → s.cellRuns p m = true →
    s.firingOf p m = some (x, k) → Decode.cell ((s.cell p m).slotWords x k).1 = .ok i →
    exec i { s with next := .firing p m x k } = .next u →
    step s = .next (({ u with tick := s.tick, next := .firing p m x k } : State).settle true)) ∧
  (∀ (s u : State) (i : Instr), s.next = .event i → exec i s = .next u →
    step s = .next (({ u with tick := s.tick, next := .event i } : State).settle true)) ∧
  (∀ (s : State), s.held = true → step s = .fault .deviceHeld)

/-- Words read as their instructions (R109, R110, R210, R211, R212). Words written out from the encodings of the manual
decode to the instructions that they stand for, one for each of several formats; a word that no entry assigns is
refused. -/
def Obligations.DecodedWords : Prop :=
  Decode.surveyor 0x04A63801#32 = .ok (.sub 5 6 7) ∧
  Decode.surveyor 0xD4A60004#32 = .ok (.bgen 5 6 4) ∧
  Decode.surveyor 0x11000008#32 = .ok (.csrr 8 8) ∧
  Decode.surveyor 0xF8CE8481#32 = .ok (.endBind 7 8 9) ∧
  Decode.cell 0x0614000010020003#64 = .ok (.imad ⟨1, .oq 0, .reg 1, .reg 2, .rne, false, 3⟩) ∧
  Decode.surveyor 0xFFFFFFFF#32 = .error .unassignedMajor

/-- Decoding an encoded instruction gives it back (R109, R110, R210, R211, R212, R215). For every well-formed
instruction, with every operand at every value that its encoding admits, the decoder reads the word that the encoder
gives as that instruction, Surveyor words and cell operation words alike. -/
def Obligations.EncodeDecode : Prop :=
  ∀ i : Instr, i.wellFormed = true →
    (∀ w, encode32 i = some w → Decode.surveyor w = .ok i) ∧ (∀ w, encode64 i = some w → Decode.cell w = .ok i)

/-- Every decoded word is the one word of its instruction (R109, R110, R210, R211, R212, R215). A word that the decoder
accepts is the word that the encoder gives for the instruction it reads, and that instruction is well formed: no bit
of an accepted word is ignored, and no two words have one meaning. -/
def Obligations.DecodeEncode : Prop :=
  (∀ (w : BitVec 32) (i : Instr), Decode.surveyor w = .ok i → encode32 i = some w ∧ i.wellFormed = true) ∧
  (∀ (w : BitVec 64) (i : Instr), Decode.cell w = .ok i → encode64 i = some w ∧ i.wellFormed = true)

/-- A write reads back, and nothing else changes (R2, R55, R59). Writing bytes at an address of a well-kept memory keeps
its form, reads back as those bytes, and leaves every address outside them as it was. -/
def Obligations.MemoryReadBack : Prop :=
  ∀ (m : Memory) (a : Nat) (bs : List Byte), m.wf = true →
    (m.write a bs).wf = true ∧ (m.write a bs).bytes a bs.length = bs ∧
      ∀ b, (b < a ∨ a + bs.length ≤ b) → (m.write a bs).get b = m.get b

/-- Every step keeps the canonical form of memory (R2, R55, R59, R431). Whatever the turn (a core's word, a cell's
firing, or any event of the part, boot and reset among them), a step that answers a next state from a state whose
memory and deep memory are in canonical form leaves both in canonical form. -/
def Obligations.StepKeepsMemory : Prop :=
  ∀ s t : State, s.mem.wf = true → s.deep.wf = true → step s = .next t → t.mem.wf = true ∧ t.deep.wf = true

/-- The state after reset (R25, R26, R60, R64, R91, R158, R162, R177, R214, R291, R442, R476). After reset the meridian
is 0, no region, launch, queue binding, segment or page set exists, every station, buffer entry and version is 0, no
stream is open, every core has CHPRIO and HANGIV at their values at load and x0 to x31 zero (the registers' zero is
the model's own choice, log 16), every cell slot is empty, 8 return credits stand at every parcel, memory lists
nothing, reads 0, which is the model's own choice (log 11), and is in canonical form, and the first turn is the boot
ROM's, which is the model's choice too (log 13). -/
def Obligations.ResetState : Prop :=
  let s := State.reset
  s.meridian = 0 ∧ s.regions = [] ∧ s.launches = [] ∧ s.segments = [] ∧ s.sets = [] ∧ s.flight = [] ∧
    s.next = .event .powerUp ∧ s.mem.wf = true ∧ s.deep.wf = true ∧ (∀ a, s.mem.get a = blank) ∧
    (∀ q, s.queues.look QueueShadow.reset q = QueueShadow.reset) ∧ (∀ a, s.versions.look 0 a = 0) ∧
    ∀ p, (∀ r, (s.core p).get r = 0) ∧ (s.core p).chprio = 0xC000000000000000 ∧ (s.core p).hangiv = 0x04000000 ∧
      (s.core p).flags = 0 ∧ (s.core p).running = false ∧ (∀ ch, ((s.core p).channel ch).bound = false) ∧
      (∀ n, s.station p n = 0) ∧ (∀ h, s.buffer p h = 0) ∧ (s.parcel p).ends = [] ∧ (s.parcel p).credits = 8 ∧
      ∀ m c k, (s.cell p m).slotWords c k = (0xFF00000000000000, 0) ∧ (s.cell p m).mode = .running

/-- Boot, measurement, fatal errors, power and resets (R162, R405, R476, R477, R478, R479, R482, R483, R484, R485).
Power-up and device reset run the boot ROM, which starts the boot partition's image where its signature and version
pass and waits in recovery otherwise; a staged image, a raised fuse, a measurement signed by the attestation key, a
stream key, a gated and a woken parcel and a parcel's reset have their stated effects, and a device reset keeps the
field book. A corrected soft error adds its event to the field book, behind those that stand there, of which it
keeps the last 16,384, and changes nothing else. A region-fatal error ends its region as by a fault, and on a held
device does nothing; a device-fatal error holds the device with its regions as they stand and begins the dump with
its header; a second one while the dump is written stops it, with both codes and the length written so far in its
header, and after that only the field book gains. Model's choices: the signature scheme and its free parts (log 7),
what a device reset keeps of what the rules do not name (log 51), what a parcel's reset clears (log 87), the held
device (log 91), the layout and pace of the dump (log 48) and the free value of the record of a region-fatal error
(log 8). -/
def Obligations.BootEvents : Prop :=
  ∀ s : State,
    (∃ t, exec .powerUp s = .next t ∧ t.meridian = 0 ∧ t.regions = [] ∧ t.mem = [] ∧ t.book = [] ∧ t.deep = s.deep ∧
      t.boot.fused = s.boot.fused ∧ t.boot.flash = s.boot.flash ∧
      t.boot.phase = (if s.imagePasses s.boot.flash then .running else .recovery)) ∧
    (∃ t, exec .deviceReset s = .next t ∧ t.meridian = 0 ∧ t.regions = [] ∧ t.segments = [] ∧ t.versions = [] ∧
      t.parcels = [] ∧ t.book = s.book ∧ t.deep = s.deep ∧ t.boot.fused = s.boot.fused ∧
      t.boot.phase = (if s.imagePasses s.boot.flash then .running else .recovery)) ∧
    (∀ image len, s.boot.phase = .recovery → len ≤ 0xFFFFF8 →
      let passes := s.imagePasses (image.take len)
      ∃ t, exec (.stagedImageLengthWrite image len) s = .next t ∧ t.boot.phase = (if passes then .running else .recovery) ∧
        t.boot.image = (if passes then image.take len else s.boot.image) ∧ t.boot.flash = s.boot.flash) ∧
    (∀ version, s.boot.phase = .running → ∃ t, exec (.securityVersionRaise version) s = .next t ∧
      t.boot.fused = max s.boot.fused version ∧ t.boot.image = s.boot.image ∧
      t.boot.measures = s.boot.measures ∧ t.mem = s.mem ∧ t.regions = s.regions) ∧
    (∀ index nonce d, s.boot.measures.find index = some d →
      exec (.spdmMeasurementRequest index nonce) s = .next { s with boot := { s.boot with
        answers := s.boot.answers ++ [(index, d, nonce,
          slhSign s.boot.attestKey (Config.signRandom s.tick) (Config.spdmMessage index d nonce))] } }) ∧
    (∀ stream config, stream < 4 → ∃ t, exec (.ideKeyProgramming stream config) s = .next t ∧
      t.boot.ide = s.boot.ide.put stream config ∧ t.boot.phase = s.boot.phase) ∧
    (∀ o r code parcel, s.regions.find o = some r → 0xF0 ≤ code.toNat → code.toNat ≤ 0xF7 →
      (s.boot.phase ≠ .held → exec (.regionFatalError o code parcel) s = .next
        ((s.log 8 code parcel r.asid 0).endRegion o 2 code 0 parcel (Config.freeWord s.tick) true)) ∧
      (s.boot.phase = .held → exec (.regionFatalError o code parcel) s = .next s)) ∧
    (∀ code, 0xF8 ≤ code.toNat → s.boot.phase ≠ .held → ∃ t, exec (.deviceFatalError code) s = .next t ∧
      t.boot.phase = .held ∧ t.regions = s.regions ∧ t.parcels = s.parcels ∧ t.book = (s.log 8 code 0 0 0).book ∧
      ∃ d, t.boot.dump = some d ∧ d.codes = [code] ∧ d.meridian = s.meridian ∧ d.written = 4096) ∧
    (∀ code d, 0xF8 ≤ code.toNat → s.boot.phase = .held → s.boot.dump = some d →
      (d.written < d.length → ∃ t, exec (.deviceFatalError code) s = .next t ∧
        t.boot.dump = some { d with codes := d.codes ++ [code], length := d.written }) ∧
      (d.length ≤ d.written → exec (.deviceFatalError code) s = .next (s.log 8 code 0 0 0))) ∧
    (∀ p, s.boot.phase = .running → p < 512 → s.parcelFree p = true →
      exec (.parcelPowerGate p) s = .next (s.onParcel p fun x => { x with gated := true })) ∧
    (∀ p, (s.parcel p).gated = true →
      exec (.parcelWake p) s = .next ((s.onParcel p fun x => { x with gated := false }).pollWakes p)) ∧
    (∀ p, p < 512 → ∃ t, exec (.parcelReset p) s = .next t ∧
      (∀ m, t.cell p m = Cell.reset) ∧ (∀ n, t.station p n = 0) ∧ (∀ r, (t.core p).get r = 0) ∧
      (t.parcel p).wasReset = true) ∧
    (∀ parcel value, let asid := ((s.regionOf parcel).map fun x => x.2.asid).getD 0
      ∃ t, exec (.correctedSoftError parcel value) s = .next t ∧ { t with book := s.book } = s ∧
        ((∀ x ∈ s.book.getLast?, x.meridian ≠ s.meridian) →
          t.book = (s.book ++ [(⟨s.meridian, 7, 0, parcel, asid, value⟩ : BookEvent)]).drop (s.book.length + 1 - 16384)))

/-- Kicks, launches, loading, start, pre-emption and exit (R26, R221, R223, R224, R439, R445, R449, R451, R452, R453,
R455, R456). A doubleword written to a kick register kicks its queue, but one of the host in recovery finds no
register and does nothing, and a write of another size is MISALIGNED at the device unit that made it: a trap of a
running core, a late fault of a cell, a packet of an engine; of the host, and of a core that runs nothing, it does
nothing. A launch whose dependence is met becomes ready; a scheduling decision after a change in the ready launches
or the regions places a launch and ages the rest, and none is made without one; a configuration packet checks the
header and the bindings, then takes packet after packet: a slot whose words are allowed, the end of a parcel with
nothing to refuse, the end of the image after every parcel; a parcel loads in its order, the first with the legend;
the start packets go to every bound channel 0 and the region runs; a drained region is saved, aborted where a write
of its save area faults, and waits where one must; a region whose exit is asked and whose work is over ends with its
status. Model's choices: the address and an engine's slot of that MISALIGNED (log 8), what a save area holds (log
48), the order of the checks of a loaded image (logs 60 and 120), an exit while a task still runs (log 61), when a
region counts as drained (log 90) and the order of examinations and events (logs 5 and 9). -/
def Obligations.LaunchEvents : Prop :=
  ∀ s : State,
    (∀ q value writer, q < 4096 → (writer = .host → s.boot.phase ≠ .recovery) →
      exec (.kickRegisterWrite q 8 value writer) s = .next (s.kick q value (unitParcel writer) none)) ∧
    (∀ q size value, s.boot.phase = .recovery → exec (.kickRegisterWrite q size value .host) s = .next s) ∧
    (∀ q size value writer, size ≠ 8 → writer = .host ∨ (∃ p, writer = .core p ∧ (s.core p).running = false) →
      exec (.kickRegisterWrite q size value writer) s = .next s) ∧
    (∀ q size value p, size ≠ 8 → (s.core p).running = true →
      ∃ v, exec (.kickRegisterWrite q size value (.core p)) s = .next (s.trapEntry p 4 v 0 false)) ∧
    (∀ q size value p m, size ≠ 8 → s.takesLate p m = true → let c := s.cell p m
      ∃ v, exec (.kickRegisterWrite q size value (.cell p m)) s = .next
        (s.freeze ⟨p, m, c.fireCtx.toNat, c.fireSlot.toNat⟩ ⟨4, v, 0, true⟩ true)) ∧
    (∀ q size value p, size ≠ 8 → s.enginesRun p = true →
      (∃ slot v, exec (.kickRegisterWrite q size value (.engine p)) s = .next (s.report p 4 1 slot none v)) ∧
      (∃ slot v, exec (.kickRegisterWrite q size value (.graticule p)) s = .next (s.report p 4 4 slot none v))) ∧
    (∀ k l, s.launches.find k = some l → l.ready = false → l.placed = false → l.depKind = 2 → s.dependenceMet l = true →
      exec (.dependenceCounterCheck k) s = .next (s.makeReady k)) ∧
    (s.boot.phase = .running → s.considered ≠ s.toConsider → ∃ t, exec .regionSchedulerDecision s = .next t ∧
      let u := ({ s with considered := s.toConsider } : State).decideFrom s.readyLaunches
      t.decisions = u.decisions + 1 ∧ t.regions = u.regions ∧ t.parcels = u.parcels ∧
      t.launches = u.launches.each fun _ l => if l.ready then { l with age := l.age + 1 } else l) ∧
    (s.considered = s.toConsider → exec .regionSchedulerDecision s = .next s) ∧
    (∀ o r hd bs, s.regions.find o = some r → s.boot.phase = .running → r.phase = .loading → r.loadPos = 0 →
      s.imageBytes o r 0 256 = .ok hd → (∀ c ∈ headerChecks r.shape hd, c.2 = true) → s.bindings o r hd = .ok bs →
      (∀ e ∈ bs.zipIdx, field e.1 0 2 < 512 ∧ field e.1 2 1 < 128 ∧ field e.1 3 1 = 0 ∧ field e.1 8 8 = 0 ∧
        bindHandler e.1 % 4 = 0 ∧ bindHandler e.1 < hdr hd 64 8 ∧ bindParcel e.1 < 2 ^ r.shape ∧
        ∀ a ∈ bs.take e.2, bindParcel a ≠ bindParcel e.1 ∨ bindChannel a ≠ bindChannel e.1) →
      exec (.configurationPacket o) s = .next (s.onRegion o fun r => { r with loadPos := 1 })) ∧
    (∀ o r hd hb pos, s.regions.find o = some r → s.boot.phase = .running → r.phase = .loading → r.loadPos = pos + 1 →
      s.imageBytes o r 0 256 = .ok hd → pos + 8 ≤ hdr hd 48 8 → s.imageWord o r (hdr hd 40 8 + pos) = .ok hb →
      let h := Decode.leNat hb
      let off := hdr hd 40 8 + pos
      packetFieldsOk h = true →
      (bits h 63 60 = 6 → r.loadParcel = 2 ^ r.shape →
        exec (.configurationPacket o) s = .next (s.onRegion o fun r => { r with phase := .loaded })) ∧
      (bits h 63 60 = 5 → bits h 59 51 < 2 ^ r.shape → bits h 59 51 = r.loadParcel →
        (∀ n ∈ r.seen, n / 2 ^ 64 ≠ packetKey h) → s.parcelFaults o r (bits h 59 51) = [] →
        exec (.configurationPacket o) s = .next (s.onRegion o fun r =>
          { r with loadPos := 1 + (pos + 8), loadParcel := bits h 59 51 + 1, seen := r.seen ++ [packetKey h * 2 ^ 64 + off] })) ∧
      (∀ b0 b1, bits h 63 60 = 0 → bits h 59 51 < 2 ^ r.shape → bits h 59 51 = r.loadParcel →
        (∀ n ∈ r.seen, n / 2 ^ 64 ≠ packetKey h) → pos + 24 ≤ hdr hd 48 8 → s.imageWord o r (off + 8) = .ok b0 →
        s.imageWord o r (off + 16) = .ok b1 → opWordOk (wordOf b0) = true → guardOk (wordOf b1) = true →
        guardFits (wordOf b0) (wordOf b1) = true →
        exec (.configurationPacket o) s = .next ((s.onCell (o + bits h 59 51) (bits h 50 47) fun c =>
            { c with slots := c.slots.put (bits h 46 44 * 8 + bits h 43 41) (wordOf b0, wordOf b1) }).onRegion o fun r =>
          { r with loadPos := 1 + (pos + 24), loadParcel := bits h 59 51, seen := r.seen ++ [packetKey h * 2 ^ 64 + off] }))) ∧
    (∀ o r c off, s.regions.find o = some r → s.boot.phase = .running → r.phase = .loading → r.loadPos = 0 →
      s.checkHeader o r = .error (.refused c off) → exec (.configurationPacket o) s = .next (s.refuseLoad o c off)) ∧
    (∀ p o r hd bs s1, s.regionOf p = some (o, r) → s.boot.phase = .running → r.phase = .loaded → p = o + r.loadedParcels →
      s.imageBytes o r 0 256 = .ok hd → s1.bindings o r hd = .ok bs →
      ((r.loadedParcels ≠ 0 ∧ s1 = s) ∨ (r.loadedParcels = 0 ∧ ∃ es : List Legend,
        ((List.range (hdr hd 32 2)).mapM fun i => (s.imageBytes o r (hdr hd 24 8 + 32 * i) 32).map fun b =>
          BitVec.ofNat 256 (Decode.leNat b)) = .ok es ∧ (∀ e ∈ es, legendOk es e = true) ∧
        s1 = s.onRegion o fun r => { r with
          identity := BitVec.ofNat 16 (hdr hd 6 2), legend := es.zipIdx.map fun e => (e.2, e.1), legendCount := es.length })) →
      s.bindings o r hd = .ok bs →
      exec (.parcelLoad p) s = .next (((s1.loadCore o r p hd bs).onParcel p fun x =>
        (x.seeded (p - o)).primed s.meridian.toNat).onRegion o fun r => { r with loadedParcels := r.loadedParcels + 1 })) ∧
    (∀ o r, s.regions.find o = some r → s.boot.phase = .running → r.phase = .loaded → r.loadedParcels = 2 ^ r.shape →
      ∃ t, exec (.startPacket o) s = .next t ∧ t.mem = s.mem ∧ t.parcels = s.parcels ∧
        t.flight = s.flight ++ ((regionParcels o r).filter fun p => ((s.core p).channel 0).bound).map (fun p =>
          ⟨p, 0, true, r.arg, BitVec.ofNat 64 (o + r.shape * 2 ^ 9), BitVec.ofNat 16 s.link.number, 0, true,
            Vector.replicate 6 0⟩) ∧
        ((t.regions.find o).any fun x => x.phase = .running) = true) ∧
    (∀ o r, s.regions.find o = some r → s.boot.phase = .running → r.phase = .preempting → 64 ≤ r.calm →
      s.underWay (regionParcels o r) = false → s.recordsSent (regionParcels o r) = true →
      (∀ p ∈ regionParcels o r, s.parcelDrained p r.unstopped = true) →
      exec (.preemptionDrained o) s = .next (match writeSave o r (s.saveHead o r) s with
        | .ok _ t => t.saveRegion o r
        | .error (.fault code va) _ => s.endRegion o 2 code 0 o va true
        | .error .hold t => t)) ∧
    (∀ o r, s.regions.find o = some r → s.boot.phase = .running → r.live = true → r.exitAsked = true →
      s.underWay (regionParcels o r) = false → (∀ p ∈ regionParcels o r, s.parcelOver p = true) →
      (s.heldSegments o = [] ∨ s.portWrites o r (s.tick + 1) = false) →
      exec (.regionExit o) s = .next (((s.heldSegments o).foldl (fun (t : State) e => t.releaseAll o r e.2.scope) s).endRegion o
        0 0 r.status 0 0 false))

/-- Packets, promotions, wakeups and the control window (R82, R91, R97, R98, R102, R129, R187, R203, R204, R219, R488).
The earliest packet for a core leaves its sender when its target has an entry for it and no earlier packet must
precede it, and waits otherwise, with every later packet for that core; it enters the channel's FIFO on a device
that is not held; a channel of age 65,536 is promoted; a time wakeup whose time has come fires; control registers,
bindings, ready bits and wakeup slots are written through the window as stated, and so are lane registers, context
stores of frozen cells and queue windows; continue and skip act on their cell, and resume, at any cell of a region
that the hang monitor froze, on the region. Model's choices: the times and the argument that the window's writes
leave as they stand, and what its reserved bits do (log 128), when a time wakeup and a promotion come (logs 63 and
64), what entry a packet takes (log 65), who may use the windows and what a write of word 0 does (logs 69, 75 and
76) and the order of packets of one core (log 126). -/
def Obligations.TaskEvents : Prop :=
  ∀ s : State,
    (∀ p dest k i, (s.core p).outbound.zipIdx.find? (fun e => e.1.dest = dest) = some (k, i) →
      let free : Prop := ((s.core dest).storeEntry k.ch.toNat).isSome = true ∧
        ∀ x ∈ (s.core p).outbound.take i, x.before k = false
      (free → exec (.outboundPacketSend p dest) s = .next
        { s.onCore p fun c => { c with outbound := c.outbound.eraseIdx i } with flight := s.flight ++ [k] }) ∧
      (¬free → exec (.outboundPacketSend p dest) s = .next s)) ∧
    (∀ k pk o r shared, s.flight[k]? = some pk → (∀ x ∈ s.flight.take k, x.before pk = false) → s.kickFirst pk = false → s.boot.phase ≠ .held →
      s.regionOf pk.dest = some (o, r) → ¬(pk.frontEnd = true ∧ pk.ch = 127) →
      (s.core pk.dest).storeEntry pk.ch.toNat = some shared →
      exec (.packetArrival k) s = .next (({ s with flight := s.flight.eraseIdx k } : State).onCore pk.dest fun c =>
        c.onChannel pk.ch.toNat fun h => h.push s.meridian.toNat (.packet pk shared))) ∧
    (∀ p ch, let h := (s.core p).channel ch
      let age := h.age + 2 * (s.meridian.toNat - h.since)
      h.ready = true → ¬ ((s.core p).running = true ∧ (s.core p).ch.toNat = ch) → 65536 ≤ age →
      exec (.channelPromotion p ch) s = .next (s.onCore p fun c => c.onChannel ch fun h =>
        { h with boost := h.boost + 1, age := age - 65536, since := s.meridian.toNat })) ∧
    (∀ p ch o r, let w := ((s.core p).channel ch).wake
      s.regionOf p = some (o, r) → r.debugStop = false → r.live = true → w.cond = 1 → w.pending = false →
      w.time.toNat ≤ s.meridian.toNat →
      exec (.timeWakeupFire p ch) s = .next (s.onCore p fun c => c.onChannel ch fun h =>
        h.fire s.meridian.toNat 1 (if w.time.toNat ≤ w.armed.toNat then w.armed + 1 else w.time))) ∧
    (∀ p num value, num ≤ 8 → csrValueOk num value = true → csrReadOnly num = false →
      exec (.controlRegisterWrite p num value) s = .next (s.onCore p fun c => c.csrSet num value)) ∧
    (∀ p num value, num ≤ 8 → csrReadOnly num = true → exec (.controlRegisterWrite p num value) s = .next s) ∧
    (∀ p ch handler arg, ch ≤ 127 → handler.toNat % 4 = 0 →
      exec (.bindingWrite p ch handler arg) s = .next (s.onCore p fun c => c.bind s.meridian.toNat ch handler arg)) ∧
    (∀ p value, exec (.readyBitsWrite p value) s = .next s) ∧
    (∀ p ch cond value i, (i = Instr.wakeupSlotArmTime p ch value ∧ cond = 1 ∨ i = Instr.wakeupSlotArmBuffer p ch value ∧ cond = 2 ∨
        i = Instr.wakeupSlotArmStation p ch value ∧ cond = 3) → ch ≤ 127 → wbits value 17 16 = cond → wbits value 63 19 = 0 →
      let control : Word := (value.setWidth 16).setWidth 64
      let w := ((s.core p).channel ch).wake
      control &&& wakeReserved cond = 0 → exec i s = .next (s.armSlot p ch cond w.arg w.time control)) ∧
    (∀ p ch value, wbits value 63 19 = 0 → wbits value 17 16 = 0 → wbit value 7 = false → ch ≤ 127 →
      exec (.wakeupSlotDisarm p ch value) s = .next (s.onCore p fun c => c.onChannel ch fun h =>
        { h with wake := { h.wake with cond := 0, control := value.setWidth 16 } })) ∧
    (∀ p ch arg time, ch ≤ 127 → exec (.wakeupSlotArgumentWrite p ch arg time) s = .next (s.onCore p fun c =>
      c.onChannel ch fun h => { h with wake := { h.wake with arg := arg, time := time } })) ∧
    (∀ p m off bytes, off + bytes.length ≤ 0x400 → exec (.laneRegisterWindowWrite p m off bytes) s = .next
      (s.onCell p m fun c => bytes.zipIdx.foldl (fun (c : Cell) e => c.laneWrite (off + e.2) [e.1]) c)) ∧
    (∀ p m off bytes writer, s.mayUseWindows writer p = true → off + bytes.length ≤ 0x500 → (s.cell p m).mode = .frozen →
      let ws := touchedWords ((s.parcel p).contextWord m) off bytes
      let c := ws.foldl (fun c e => c.contextSet e.1 e.2) (s.cell p m)
      (∀ e ∈ ws, c.contextOk e.1 = true) → s.contextFits p m c = true →
      exec (.contextStoreWrite p m off bytes writer) s = .next (s.onCell p m fun _ => c)) ∧
    (∀ p m off bytes writer, s.mayUseWindows writer p = true → off + bytes.length ≤ 0x400 →
      let ws := touchedWords (s.cell p m).queueWindowWord off bytes
      let commands : State → State := fun t => ws.foldl (fun t e => if e.1 = 0 then t.command p m e.2 else t) t
      (∀ e ∈ ws, (s.cell p m).queueWordOk e.1 e.2 = true) →
      ((s.cell p m).mode = .frozen ∨ (s.cell p m).mode = .halted →
        exec (.queueWindowWrite p m off bytes writer) s = .next (commands (s.onCell p m fun c =>
          ws.foldl (fun c e => c.queueWordSet s.meridian.toNat e.1 e.2) c))) ∧
      ((s.cell p m).mode = .running →
        exec (.queueWindowWrite p m off bytes writer) s = .next (commands (s.onCell p m fun c =>
          ws.foldl (fun c e => if e.1 = 0 then { c with flags := BitVec.ofNat 5 e.2 } else c) c)))) ∧
    (∀ p m, (s.cell p m).faulted = true → exec (.cellContinue p m) s = .next
      ((s.cure p m).onCell p m fun c => { c with mode := .running, faultReg := 0, faultAddr := 0 })) ∧
    (∀ p m e rest, (s.cell p m).faulted = true → (s.cell p m).lateFault = true → (s.cell p m).port = e :: rest →
      exec (.cellSkip p m) s = .next (((s.cure p m).onCell p m fun c =>
        { c with mode := .running, faultReg := 0, faultAddr := 0 }).onCell p m fun x =>
          { x.answer s.meridian.toNat e (dataWord 0 0 0) with port := rest })) ∧
    (∀ p m i op w, let c := s.cell p m
      let t : Site := ⟨p, m, getF c.faultReg 22 20, getF c.faultReg 19 17⟩
      c.faulted = true → c.lateFault = false → Decode.cell (c.faultWords t).1 = .ok i → i.cellParts? = some (op, w) →
      exec (.cellSkip p m) s = .next ((((s.cure p m).onCell p m fun c =>
          { c with mode := .running, faultReg := 0, faultAddr := 0 }).onCell p m fun x =>
        ((popBit op.toNat w ++ ownPops c op.toNat w).foldl (fun c e => c.pop e.1 e.2) x).settleGuard t (c.faultWords t).2).stir p
          |>.handOn t)) ∧
    (∀ p m o r, s.regionOf p = some (o, r) → r.hungUp = false → exec (.resumeRegion p m) s = .next s) ∧
    (∀ p m o r, s.regionOf p = some (o, r) → r.hungUp = true →
      exec (.resumeRegion p m) s = .next (((regionParcels o r).foldl (fun t n =>
        t.onParcel n fun x => { x with cells := x.cells.each fun _ c =>
          if c.mode = .frozen && c.hung.isSome then { c with mode := .running, hung := none, faultReg := 0 } else c })
        s).onRegion o fun r => { r with hang := 0, hungUp := false }))

/-- Words on the fabric, the address port and the hang monitor (R182, R188, R190, R193, R194, R196, R197, R205, R206,
R207, R216, R287). A word moves from an output queue, with the context tag of its routing word unless that keeps the
word's own, onto its route or port and from there into an input queue that takes it; a delayed word enters its queue
when its delay is over; a running cell whose queues hold only stop tokens halts and one with poison at a head, and
no late fault due, is poisoned; a widener forwards its word after its release or acquire; the address port answers
its oldest request, a load from memory or a probe, a held versioned load whose version has come and a walk's node; a
late fault freezes the cell; the hang monitor freezes a region that its interval has passed. Model's choices: the
order of requests at a port (log 30), what a cell does until the event of its stop token or poison (logs 31 and 98),
words that stand on a route (log 88), the fields of a hang (log 95), the requests that a release takes in (log 96)
and which buffer a hang names (log 99). -/
def Obligations.CellEvents : Prop :=
  ∀ s : State,
    (∀ p m q o x at_ rest, (s.cell p m).oq.toList[q]? = some o → o.delay = (x, at_) :: rest → s.enginesRun p = true →
      o.words.length < 8 → at_ + (s.cell p m).depth (BitVec.ofNat 2 q) ≤ s.meridian.toNat →
      exec (.delayExpiry p m q) s = .next (s.onCell p m fun c =>
        { c with oq := c.oq.setIfInBounds q { o with words := o.words ++ [x], delay := rest } })) ∧
    (∀ p m q x tp tm tq, (s.cell p m).wires.toList.getD q none = some x → s.routeTarget p m q = some (tp, tm, tq) →
      s.enginesRun p = true → (s.cell tp tm).accepts tq x = true →
      exec (.inputWordArrival (.cell p m q)) s = .next
        ((s.onCell p m fun c => { c with wires := c.wires.setIfInBounds q none }).enterQueue tp tm tq x)) ∧
    (∀ p port x rest, (s.port p port).inbound = x :: rest → s.enginesRun p = true →
      let g := (s.parcel p).ingress.toList.getD port 0
      g.getLsbD 63 = true → (s.cell p (getF g 62 59)).accepts (getF g 58 57) x = true →
      exec (.inputWordArrival (.port p port)) s = .next
        ((s.onPort p port fun w => { w with inbound := rest }).enterQueue p (getF g 62 59) (getF g 58 57) x)) ∧
    (∀ p m q o x rest, (s.cell p m).oq.toList[q]? = some o → o.words = x :: rest → s.enginesRun p = true →
      ((s.cell p m).routes.toList.getD q 0).getLsbD 63 = true →
      let left := s.onCell p m fun c =>
        { c with oq := c.oq.setIfInBounds q { o with words := rest, head := o.head + 1 } }
      let route := (s.cell p m).routes.toList.getD q 0
      let port := getF route 62 59 - 4
      let y : LinkWord := if route.getLsbD 54 then x else { x with ctx := route.extractLsb' 55 3 }
      ((s.routeTarget p m q).isSome = true → (s.cell p m).wires.toList.getD q none = none →
        exec (.outputWordSend p m q) s = .next
          (left.onCell p m fun c => { c with wires := c.wires.setIfInBounds q (some y) })) ∧
      (s.routeTarget p m q = none → (s.port p port).outbound = [] →
        exec (.outputWordSend p m q) s = .next (left.onPort p port fun w => { w with outbound := w.outbound ++ [y] }))) ∧
    (∀ p m, s.enginesRun p = true → (s.cell p m).mode = .running → (s.cell p m).widening = none →
      (s.cell p m).headToken 1 = true → s.someSlot p m = false →
      ∃ t, exec (.cellHalt p m) s = .next t ∧ (t.cell p m).mode = .halted ∧ t.mem = s.mem) ∧
    (∀ p m, s.enginesRun p = true → (s.cell p m).mode = .running → (s.cell p m).headToken 2 = true → s.lateDue p m = none →
      ∃ t, exec (.cellPoisoned p m) s = .next t ∧ (t.cell p m).mode = .poisoned ∧ t.mem = s.mem) ∧
    (∀ p m w, (s.cell p m).widening = some w → s.enginesRun p = true → (s.cell p m).mode ≠ .frozen →
      (w.word.token = false ∨ w.word.kind ≠ 2) →
      (w.out = true → ∀ x ∈ s.innerCells p m, ∀ e ∈ (s.cell x.1 x.2).port, e.writes = true → w.stamp ≤ e.stamp) →
      exec (.widenerReleaseComplete p m) s = .next
        (((s.innerCells p m).foldl (fun (t : State) x =>
          if w.out then t.release (.cell x.1 x.2) w.scope else t.acquire (.cell x.1 x.2) w.scope) s).onCell p m fun c =>
          { c.push s.meridian.toNat w.queue c.fireCtx.toNat false w.word with widening := none })) ∧
    (∀ p m e rest, (s.cell p m).port = e :: rest → s.portRuns p m = true →
      (∀ tag a s1 bs s2, e.op = .load tag → translate (.cell p m) e.va .read s = .ok a s1 → (∀ x, placeOf a.pa ≠ .host x) →
        readAt (.cell p m) e.scope a 64 e.va s1 = .ok bs s2 →
        exec (.addressPortResponse p m) s = .next (s2.respond p m e (memWord tag (bytesPayload bs)))) ∧
      (∀ write code size pa s1, e.op = .proj write →
        s.probe (.cell p m) e.va (if write then .write else .read) = (some (code, size, pa), s1) →
        exec (.addressPortResponse p m) s = .next (s1.respond p m e
          (dataWord (BitVec.ofNat 512 (pa + (code.toNat + size * 2 ^ 8) * 2 ^ 64)) 7 0))) ∧
      (∀ tag eq v a s1 bs s2, e.op = .ldv tag eq v → translate (.cell p m) e.va .versionRead s = .ok a s1 →
        loadVersion (.cell p m) true e.scope a 64 v eq e.va s1 = .ok (some bs) s2 →
        exec (.heldLdvComplete p m) s = .next (s2.respond p m e (memWord tag (bytesPayload bs)))) ∧
      (∀ tag f off limit count a s1 bs s2, e.op = .walk tag f off limit count → s.pausing p = false →
        (s.cell p m).walkRoom e count = true → e.va.toNat % 64 = 0 → translate (.cell p m) e.va .read s = .ok a s1 →
        (∀ x, placeOf a.pa ≠ .host x) → readAt (.cell p m) e.scope a 64 e.va s1 = .ok bs s2 →
        let next := wordOf (slice bs (8 * f) 8) + off
        let last : Bool := next = 0 || count + 1 = limit
        exec (.walkNode p m) s = .next (s2.walkOn p m e tag f off limit count
          { memWord tag (bytesPayload bs) with last := last } (if last then none else some next))) ∧
      (∀ tag c v t, e.op = .load tag → s.takesLate p m = true → translate (.cell p m) e.va .read s = .error (.fault c v) t →
        exec (.lateFault p m) s = .next (s.lateFreeze p m e c v))) ∧
    (∀ o r, s.regions.find o = some r → r.phase = .running → r.debugStop = false → r.hungUp = false →
      (s.core o).hangiv ≠ 0 → (s.core o).hangiv.toNat ≤ r.hang →
      ((regionParcels o r).any fun p => (s.parcel p).cells.any fun e => e.2.faulted) = false →
      exec (.hangMonitorFire o) s = .next (s.hangFire o r))

/-- Signals, streams, Traverse transfers and publishes (R137, R139, R141, R142, R144, R151, R152, R156, R159, R161,
R165, R168). An arrival, counted bytes, an exchange write or a marker reaches its station or its phase; a queued
stream whose turn it is starts and holds its port side; a loader's word enters the port and a storer's word leaves
it; a finished stream frees its slot and sends its arrival, a faulted one stops; a request's bytes land, it
completes or faults; a freed ring entry is FILLING again for the first tile of the feed that goes there, where one
is left, and that tile's words land in it; a follow-on command is issued; a publish shows the hidden bytes; a
reduction tile or skip marker meets its home. Model's choices: which event of the table may come when and what tests
a station once in an f-cycle (logs 5 and 40), the order in which units of requests land and tiles are named (logs 33
and 34), what bytes count (log 37), the corners of feeds and cancels (logs 38 and 103), streams that wait behind
others (logs 77 and 78), the reported causes that have none in the model and the address of such a fault (logs 85
and 130), shadow requests (log 8) and the mode of a tile (log 129). -/
def Obligations.TransferEvents : Prop :=
  ∀ s : State,
    (∀ k p n sender, s.signals[k]? = some (.arrive p n sender) → (s.parcel p).wasReset = false →
      exec (.stationArrival k) s = .next (s.meetSignal k p fun t => t.onArrive p n sender)) ∧
    (∀ k p n b sender, s.signals[k]? = some (.bytes p n b sender) → (s.parcel p).wasReset = false →
      exec (.stationBytes k) s = .next (s.meetSignal k p fun t => t.onBytes p n b sender)) ∧
    (∀ k p runs src phase sender, s.signals[k]? = some (.write p runs src phase sender) →
      exec (.exchangeWriteArrival k) s = .next (s.meetSignal k p fun t => t.onExchange p fun e =>
        { e with parked := e.parked ++ [(src, phase, runs)] })) ∧
    (∀ k p n src phase count, s.signals[k]? = some (.marker p n src phase count) → (s.parcel p).wasReset = false →
      exec (.fenceMarkerArrival k) s = .next (s.meetSignal k p fun t => t.onExchange p fun e =>
        { e with markers := e.markers ++ [(src, phase, count, n)] })) ∧
    (∀ p slot, let t := s.stream p slot
      s.enginesRun p = true → t.state = 1 → s.portHolder p t.port t.outbound = .free →
      ((s.parcel p).streams.all fun (e : Nat × Stream) =>
        !(e.2.busy && e.2.outbound = t.outbound && e.2.port = t.port && e.2.serial < t.serial)) = true →
      (t.waits.all fun n => n ∉ (s.parcel p).liveSerials) = true →
      exec (.streamStart p slot) s = .next ((s.onStream p slot fun t => { t with state := 2 }).onPort p t.port fun w =>
        if t.outbound then { w with outHolder := .stream slot } else { w with inHolder := .stream slot })) ∧
    (∀ p slot, let t := s.stream p slot
      let e := s.streamEntry p t
      let rw := rowWords e t.counts
      let row := patRow t.starts t.counts (t.pos / rw)
      let place := wordPlace e t.starts t.counts (t.pos % rw)
      let base := ((s.regionOf p).bind fun x => s.legendBase x.1 x.2 e).getD 0
      let enter : State → LinkWord → State := fun u x => (u.onPort p t.port fun w =>
        { w with inbound := w.inbound ++ [{ x with last := t.pos + 1 = s.streamTotal p t, ctx := t.control.extractLsb' 20 3 }] }).onStream
          p slot fun t => { t with pos := t.pos + 1 }
      s.enginesRun p = true → t.state = 2 → t.outbound = false → (s.port p t.port).inbound = [] → t.reason ≠ 1 →
      t.pos < s.streamTotal p t →
      (∀ bs u, lgIsBlock e = false → s.hasBase p e = true →
        readSpan (.engine p) t.scope (spanFuel place.2.1) (rowAddress base e row place.1) place.2.1 s = .ok bs u →
        exec (.loaderWord p slot) s = .next (enter u (dataWord (BitVec.ofNat 512 (Decode.leNat bs % 2 ^ place.2.2))
          (if lgFormat e = 19 then 0xE000FFFF else lanesFor place.2.2) (BitVec.ofNat 4 (lgTag e))))) ∧
      (∀ x u, makeWord p t.scope e t.starts t.counts row (t.pos % rw) s = .ok x u →
        exec (.loaderWord p slot) s = .next (enter u x))) ∧
    (∀ p slot x rest, let t := s.stream p slot
      let e := s.streamEntry p t
      let rw := rowWords e t.counts
      let row := patRow t.starts t.counts (t.pos / rw)
      let place := wordPlace e t.starts t.counts (t.pos % rw)
      let base := ((s.regionOf p).bind fun x => s.legendBase x.1 x.2 e).getD 0
      let data := (payloadBytes x.payload).take place.2.1
      let taken := s.onPort p t.port fun w => { w with outbound := rest }
      s.enginesRun p = true → t.state = 2 → t.outbound = true → t.pos < s.streamTotal p t →
      (s.port p t.port).outbound = x :: rest → x.token = false → x.fmt.toNat = lgTag e →
      (∀ u, lgIsTcw e = false → lgIsBlock e = false → lgFormat e ≠ 19 → taken.hasBase p e = true →
        writeMasked (.engine p) .engine t.scope (rowAddress base e row place.1) data
          (fun i => validElement (linkMask x) (lgBits e) (i / (lgBits e / 8))) taken = .ok () u →
        exec (.storerWord p slot) s = .next (u.onStream p slot fun t => { t with pos := t.pos + 1 })) ∧
      (∀ u, storeWord p t.scope e t.starts t.counts row (t.pos % rw) x taken = .ok () u →
        exec (.storerWord p slot) s = .next (u.onStream p slot fun t => { t with pos := t.pos + 1 }))) ∧
    (∀ p slot, let t := s.stream p slot
      s.enginesRun p = true → t.state = 2 → t.reason = 0 → s.streamTotal p t ≤ t.pos →
      exec (.streamComplete p slot) s = .next (s.completeStream p slot)) ∧
    (∀ p slot code, let t := s.stream p slot
      s.enginesRun p = true → t.state = 2 → t.pos < s.streamTotal p t →
      exec (.streamFault p slot code) s = .next (s.faultStream p slot code (s.streamAddress p t t.pos))) ∧
    (∀ p slot t, s.trav p slot = some t → s.enginesRun p = true → t.pos < t.total → s.heldBack p slot t = false →
      (t.kind = .feed → s.tileStarted p slot t = true ∧ s.feedHalted p t = false) →
      let pa := s.entryAddress p (s.fillPlace p t t.pos).1 (s.fillPlace p t t.pos).2
      let data := (List.range 64).map fun i => BitVec.ofNat 8 (t.opWord / 2 ^ (8 * (i % 4)))
      let forth : State → Nat → State := fun u n =>
        ((if n = 0 then u else u.landed p slot t n).onTrav p slot fun x => { x with pos := x.pos + 1 }).afterUnit p t
      (∀ u, t.kind = .fill → t.toTensor = false → t.fromBuffer = false →
        reserveCheck (.engine p) pa 64 (Config.freeWord s.tick) s = .ok () u →
        exec (.traverseBytesLand p slot) s = .next (forth (if t.shadow then u.hide p true t.handle pa none data
          else u.homeWrite pa data) 64)) ∧
      (∀ n u, travStep p slot t s = .ok n u → exec (.traverseBytesLand p slot) s = .next (forth u n))) ∧
    (∀ p slot t, s.trav p slot = some t → s.enginesRun p = true → t.done = false → s.travOver p slot t = true →
      (t.publish = true → t.published = true) →
      let b := s.buffer p t.handle
      let u := if t.fills && t.kind ≠ .feed && !t.shadow then s.putBuffer p t.handle (setF b 63 62 2)
        else if t.fromBuffer && bufState b = 3 then s.freeEntry p t.handle
        else s.endRing p t
      let v := if t.follow.isSome then u.setTrav p slot { t with done := true } else u.dropTrav p slot
      exec (.traverseComplete p slot) s = .next
        (if t.counted then v.sendArrival p t.station 1 (t.mark slot) else v)) ∧
    (∀ p slot t code, s.trav p slot = some t → s.enginesRun p = true → t.pos < t.total →
      exec (.traverseFault p slot code) s = .next (s.faultTrav p slot code (s.unitVa p t))) ∧
    (∀ p h slot t, ((s.parcel p).travs.find? fun (e : Nat × TravSlot) => e.2.inRing h && h ∈ e.2.notices) = some (slot, t) →
      s.enginesRun p = true → bufState (s.buffer p h) = 0 → h < 128 →
      let words := max 1 (bufSize (s.buffer p t.handle) / 64)
      let place := (h + 128 - t.handle) % 128
      let next := (t.pos / words / t.ringLen + (if t.pos / words % t.ringLen ≤ place then 0 else 1)) * t.ringLen + place
      let noticed := s.setTrav p slot { t with notices := t.notices.erase h }
      (t.total ≤ next * words → exec (.freedSlotNotice p h) s = .next noticed) ∧
      (next * words < t.total → ∃ b, exec (.freedSlotNotice p h) s = .next (noticed.setBuffer p h b) ∧
        bufState b = 1 ∧ bufSlot b = slot % 64 ∧ b.extractLsb' 64 64 = t.promise ∧ bufShadow b = t.shadow ∧ bufFeed b = true ∧
        bufBase b = bufBase (s.buffer p h) ∧ bufSize b = bufSize (s.buffer p h) ∧
        ∀ i < words, s.fillPlace p t (next * words + i) = (h, 64 * i))) ∧
    (∀ p slot t x, s.trav p slot = some t → t.follow = some x → s.enginesRun p = true → s.travOver p slot t = true →
      (t.shadow = true → t.published = true) → (s.gr p).queue.length < 8 →
      let gone : State → State := fun u => if t.done then u.dropTrav p slot else u.setTrav p slot { t with follow := none }
      (stagedFn x.word = some 4 → wbits x.a 63 32 = 0 → x.a.toNat &&& grMask 4 = x.a.toNat →
        (s.gr p).saving = none → (s.gr p).saved = false →
        exec (.followOnIssue p slot) s = .next (gone ((s.onParcel p fun y => { y with serial := y.serial + 1 }).onGr p fun g =>
          { g with queue := g.queue ++ [⟨(s.parcel p).serial, 4, x.a, [], x.b, (s.core p).flags.getLsbD 0⟩] }))) ∧
      (∀ w u, issueStaged p x s = .ok w u → exec (.followOnIssue p slot) s = .next (gone u))) ∧
    (∀ k v u, s.publishes[k]? = some v → s.publishDue k v = true →
      publishCheck (.engine v.parcel) v.parcel v.buffer v.index s = .ok () u →
      exec (.publish k) s = .next (s.performPublish k v)) ∧
    (∀ k v, s.tiles[k]? = some v → s.enginesRun v.parcel = true ∨ v.parcel = strayParcel →
      (v.skip = false → exec (.reductionTile k) s = .next (s.meetTile k)) ∧
      (v.skip = true → s.enginesRun v.parcel = true → exec (.skipMarker k) s = .next (s.meetTile k)))

/-- Graticule, encoder, ends, Compass and Scribe at work (R302, R305, R308, R325, R327, R338, R352, R363, R365, R369,
R382, R384). A Graticule command starts, a C tile begins, a chunk is multiplied, a streamed word is staged, a drain
writes its rows, a finished command sends its arrival, a fault stops it and a save writes its image; an encoder row
is begun and finished, and an error stops it; a bind request is answered, an item enters, is delivered and
acknowledged, and a move takes its next step; a record is admitted or returned; a record of a join is written to its
side of the table and each matching earlier record of the other side goes with it to the match port, and one for a
full side halts the query; a closed query ends; a Scribe item is decoded or sent and its source completes. Model's
choices: which event of the table may come when (log 5), the free words of reports (log 8), the moves of an end (log
41 for the lanes of a saved image, log 42 for a save in one step), the record and table formats (logs 43, 44 and
45), what a home is told (log 56), the order of Scribe items (log 86), partial rows (log 115) and the packing of b6
words (log 116); a table that a segment reserves halts its query (log 135). -/
def Obligations.EngineEvents : Prop :=
  ∀ s : State,
    (∀ p c rest, (s.gr p).queue = c :: rest → s.enginesRun p = true → (s.gr p).running = none →
      (s.gr p).saving = none → (s.gr p).saved = false → s.pausing p = false → c.fn = 4 → (s.gr p).tile c.tile ≠ 3 →
      exec (.graticuleCommandStart p) s = .next
        (((s.onGr p fun g => { g with queue := rest }).zeroTile p c.tile).onGr p fun g => g.setTile c.tile 2)) ∧
    (∀ p r, let g := s.gr p
      let c := r.cmd
      let sw := g.slotWord c.slot
      let a := s.legendAt p c.mmA
      let tile := (c.tile + r.tile) % 2
      g.running = some r → s.enginesRun p = true → g.saved = false → g.saving = none → s.pausing p = false → c.fn ≠ 2 →
      s.drainWaits p c (s.runBlocks p r) = false →
      (r.begun = false → g.tile tile ≠ 3 → exec (.tileDone p) s = .next (s.beginTile p r)) ∧
      (∀ u, r.begun = true → c.stream = true → s.hasLegend p c.mmA = true → chunkWords c a sw r.tile r.chunk ≤ r.staged →
        reserveCheck (.graticule p) (stagingAddress p c a sw r.tile r.chunk 0) (64 * chunkWords c a sw r.tile r.chunk)
          (Config.freeWord s.tick) s = .ok () u →
        ∃ t, exec (.tileDone p) s = .next t ∧
          (r.chunk + 1 < kChunks sw → (t.gr p).running = some { r with
            staged := r.staged - chunkWords c a sw r.tile r.chunk, chunk := r.chunk + 1 }) ∧
          (kChunks sw ≤ r.chunk + 1 → r.tile + 1 = c.mTiles * nTiles sw → c.autodrain = false →
            (t.gr p).running = none ∧ (t.gr p).finishing = g.finishing ++ [c])) ∧
      (∀ t, r.begun = true → c.stream = false → runChunk p r s = .ok () t → exec (.tileDone p) s = .next t)) ∧
    (∀ p r x rest, let g := s.gr p
      let c := r.cmd
      let sw := g.slotWord c.slot
      let a := s.legendAt p c.mmA
      let first := chunkWords c a sw r.tile r.chunk
      let f := r.following sw
      let second := if f.1 < c.mTiles * nTiles sw then chunkWords c a sw f.1 f.2 else 0
      let place := if r.staged < first then stagingOffset c a sw r.tile r.chunk r.staged
        else stagingOffset c a sw f.1 f.2 (r.staged - first)
      g.running = some r → (s.port p c.port).outbound = x :: rest → s.enginesRun p = true → c.fn = 1 →
      c.stream = true → g.saving = none → g.saved = false → s.pausing p = false → x.token = false →
      r.staged < first + second → x.fmt.toNat = lgTag a →
      ∀ u, reserveCheck (.graticule p) (windowBase + p * 0x400000 + place) 64 (Config.freeWord s.tick) s = .ok () u →
      exec (.aStreamWord p) s = .next (((s.onPort p c.port fun w => { w with outbound := rest }).homeWrite
        (windowBase + p * 0x400000 + place) (payloadBytes x.payload)).onGr p fun g =>
          { g with running := some { r with staged := r.staged + 1 }, lanes := g.lanes.put place x.scale })) ∧
    (∀ p d rest, (s.gr p).drains = d :: rest → s.enginesRun p = true → s.hasLegend p d.legend = true →
      let e := s.legendAt p d.legend
      let base := ((s.regionOf p).bind fun x => s.legendBase x.1 x.2 e).getD 0
      let ended : State → FFlags → BitVec 32 → State := fun t f gen => (t.grFlags p f).onGr p fun g => { g.endDrain d with gen := gen }
      (∀ t, d.rows = 1 → lgIsBlock e = false → d.cmd.shadow = false → s.hasBase p e = true →
        let out := convertRow (lgFormat e) (modeOf (bits d.word.toNat 2 0)) d.cmd.ftz
          ((List.range d.cols).map fun j => s.tileCode p d.tile d.tileRow (d.tileCol + j)) (s.gr p).gen
        let data := out.1.flatMap (Decode.leBytes (lgBits e / 8))
        writeSpan (.graticule p) d.cmd.scope (spanFuel data.length) (rowAddress base e (d.row0, 0, 0) (elementBit e d.col0)) data s =
          .ok () t → exec (.drainComplete p) s = .next (ended t out.2.1 out.2.2)) ∧
      (∀ f gen t, drainRows p d e d.rows 0 (0, (s.gr p).gen) s = .ok (f, gen) t →
        exec (.drainComplete p) s = .next (ended t f gen))) ∧
    (∀ p c rest, (s.gr p).finishing = c :: rest → s.enginesRun p = true →
      (c.publish = true → s.shadowSerials p false c.target = []) →
      ∀ u, (if c.publish then publishCheck (.graticule p) p false c.target else pure ()) s = .ok () u →
      let t := ((if c.publish then s.showOverlay p false c.target else s).onGr p fun g =>
        { g with finishing := rest }).leaveStream p c
      exec (.graticuleCommandComplete p) s = .next
        (if c.counted then (t.release (.graticule p) c.scope).sendArrival p (wbits c.control 31 26) 4
          (hiddenMark c.fn (if c.shadow && !c.publish then some c.target else none)) else t)) ∧
    (∀ p code, s.enginesRun p = true → (s.gr p).saved = false →
      let base : Nat → Word := fun i => ((s.regionOf p).bind fun x => s.legendBase x.1 x.2 (s.legendAt p i)).getD 0
      (∀ r, (s.gr p).running = some r →
        exec (.graticuleFault p code) s = .next (s.faultGr p r.cmd code (base r.cmd.mmA))) ∧
      (∀ d rest, (s.gr p).running = none → (s.gr p).drains = d :: rest → exec (.graticuleFault p code) s = .next
        ((s.onGr p fun g => g.endDrain { d with final := false }).faultGr p d.cmd code (base d.legend)))) ∧
    (∀ p c, let image := (s.gr p).header ++ s.homeRead (tileAddress p 0 0 0) 0x40000 ++ s.homeRead (weightAddress p 0) 0x40000
      (s.gr p).saving = some c → s.enginesRun p = true → (s.gr p).drains = [] →
      (∀ r, (s.gr p).running = some r → r.interruptible = true) →
      let done : State → State := fun t => t.onGr p fun g => { g with saving := none }
      let write : Act Nat := do
        writeSpan (.graticule p) c.scope (spanFuel image.length) c.va image
        imageAddress p c .write
      exec (.graticulePause p) s = .next (match write s with
        | .ok at_ t => ({ done t with images := t.images.put at_ (s.gr p).lanes } : State).onGr p fun g =>
            { g with saved := true, finishing := g.finishing ++ [c] }
        | .error (.fault code v) _ => (done s).faultGr p c code v
        | .error .hold t => t)) ∧
    (∀ prov p queue, (s.province prov).encQueue = p :: queue → s.enginesRun p = true →
      let r := (s.parcel p).enc
      let o := s.legendAt p r.outIndex
      let row := lgRow o (r.first + r.rowsDone)
      let base := ((s.regionOf p).bind fun x => s.legendBase x.1 x.2 o).getD 0
      r.rowsDone < r.rows →
      (∀ rest u, r.rest = [] → beginRow p r s = .ok rest u → exec (.encoderRow prov) s = .next
        (if rest.isEmpty then u.rowEncoded p else u.onEnc p fun r => { r with state := 2, rest := rest })) ∧
      (∀ i b u, r.rest = [(i, b)] → i < (twBits (lgBlock o) (lgDim o 0) + 7) / 8 → r.shadow = false →
        s.hasLegend p r.outIndex = true → s.hasBase p o = true →
        writeSpan (.engine p) r.scope (spanFuel 1) (rowAddress base o row (8 * i)) [b] s = .ok () u →
        exec (.encoderRow prov) s = .next (u.rowEncoded p)) ∧
      (∀ u, r.rest ≠ [] → writeEncoded p r r.rest s = .ok () u → exec (.encoderRow prov) s = .next (u.rowEncoded p))) ∧
    (∀ prov p rest code, (s.province prov).encQueue = p :: rest → s.enginesRun p = true →
      let r := (s.parcel p).enc
      r.rowsDone < r.rows → outsideCode code = true →
      exec (.encoderFault prov code) s = .next (s.faultEncoder p code (s.encoderAddress p r))) ∧
    (∀ k tag op h loc, s.link.asks[k]? = some (tag, op, h, loc) →
      let a := State.homeAnswer { s with link := { s.link with asks := s.link.asks.eraseIdx k } } op h loc
      exec (.bindRequest k) s = .next (a.2.2.moSend loc.device (.answer tag op h a.1 a.2.1))) ∧
    (∀ p port h n e x rest, s.portHolder p port true = .endOf h n → (s.port p port).outbound = x :: rest →
      s.endRecord h n = some e → s.enginesRun p = true → e.prod.closed = false →
      let u := s.onPort p port fun w => { w with outbound := rest }
      (e.orphaned = true → exec (.itemEntry p port) s = .next (u.setEndRecord h n { e with discarded := e.discarded + 1 })) ∧
      (e.orphaned = false → e.active false = some ⟨s.link.number, p, port⟩ →
        (foreignOf n = none ∨ e.begun = true) → e.outstanding < e.room →
        exec (.itemEntry p port) s = .next (u.sendItem h n e x))) ∧
    (∀ p port h n e x, s.portHolder p port false = .endOf h n → s.endRecord h n = some e →
      (e.arrived.find? fun y => y.1 = e.delivered) = some x → s.enginesRun p = true → (s.port p port).inbound = [] →
      (foreignOf n = none ∨ e.begun = true ∨ e.orphaned = true) →
      (if e.orphaned then e.cons.loc else e.active true) = some ⟨s.link.number, p, port⟩ →
      exec (.itemDelivery p port) s = .next (((s.onPort p port fun w => { w with inbound := [x.2] }).setEndRecord h n
        { e with delivered := e.delivered + 1, arrived := e.arrived.erase x }).tellHome n (.delivered (e.delivered + 1)))) ∧
    (∀ p n e, s.endRecord p n = some e → e.acked < e.delivered → s.standsStill p = false →
      let e1 : EndStream := { e with acked := e.acked + 1, retained := e.retained.filter fun x => x.1 ≠ e.acked }
      exec (.itemAcknowledge p n) s = .next (((s.setEndRecord p n e1).tellDelivered p n e1).pumpStream p n)) ∧
    (∀ p n e, s.endRecord p n = some e →
      (∀ m, e.moves.find? (s.moveReady n e) = some m → exec (.migrationMarker p n) s = .next (s.moveStep p n e m)) ∧
      (e.moves.find? (s.moveReady n e) = none → exec (.migrationMarker p n) s = .next (s.pumpStream p n))) ∧
    (∀ sheet q q1 x rest, s.query sheet = some q → s.queryRuns q = true →
      let t := s.sendWaiting sheet q
      t.query sheet = some q1 → (t.port q.inParcel q.inPort).outbound = x :: rest → q1.admits = true → t.returnsDue sheet = false → x.token = false →
      exec (.recordAdmission sheet) s = .next
        ((t.onPort q1.inParcel q1.inPort fun w => { w with outbound := rest }).enrol sheet q1 x)) ∧
    (∀ sheet p x rest, (s.compass sheet).returns = (p, x) :: rest → s.enginesRun p = true →
      let u := State.onParcel { s with compasses := s.compasses.alter Compass.reset sheet fun c => { c with returns := rest } } p
        fun y => { y with credits := y.credits + 1 }
      (s.query sheet = none → exec (.recordReturn sheet) s = .next u) ∧
      (∀ q, s.query sheet = some q → q.record (recId x) = none →
        exec (.recordReturn sheet) s = .next (u.setQuery sheet (some { q with stray := q.stray + 1 }))) ∧
      (∀ q r i o, s.query sheet = some q → q.record (recId x) = some r → r.away = some i → q.slots.find i = some o →
        r.waits = false → o.join = false → recLength x ≤ 56 →
        let q1 := q.observe i (if recDiscard x then 1 else 0) (u.meridian.toNat - r.sent)
        exec (.recordReturn sheet) s = .next (if recDiscard x
          then u.setQuery sheet (some { q1.without (recId x) with discarded := q1.discarded + 1 })
          else u.decide sheet q1 { setStamp x (recStamp r.word) with
            scale := setF (setF x.scale 25 25 (recSide r.word)) 23 16 (recDone x ||| BitVec.ofNat 8 (2 ^ i)).toNat }))) ∧
    (∀ sheet q x rest r i o, s.query sheet = some q → q.joinQueue = x :: rest → s.queryRuns q = true → q.halted = false →
      q.record (recId x) = some r → r.away = some i → q.slots.find i = some o →
      let side := recSide x
      let y := setStamp x o.stamp
      let o1 := { o with stamp := (o.stamp + 1) % 2 ^ 32 }
      (o.size / 2 ≤ 128 * o.fill side → exec (.joinRecord sheet) s = .next (s.haltQuery sheet { q.without (recId x) with
        slots := q.slots.put i o1, records := (q.without (recId x)).records ++ [⟨y, none, r.sent, false⟩], joinQueue := rest }
        i codeBufferState)) ∧
      (∀ u, 128 * o.fill side < o.size / 2 → joinCheck q o side s = .ok () u →
        let found := ((List.range (o.fill (1 - side))).map (s.joinEntry o (1 - side))).filter fun e =>
          o.key e.payload = o.key y.payload && dist32 (recStamp e) o.stamp < 0
        let o2 := if side = 0 then { o1 with fill0 := o.fill0 + 1 } else { o1 with fill1 := o.fill1 + 1 }
        let q1 := { q.without (recId x) with slots := q.slots.put i o2, joinQueue := rest, joined := q.joined + 1 }
        exec (.joinRecord sheet) s = .next (((s.homeWrite (o.entryAddress side (o.fill side)) (recordEntry y)).intoPort
          o.matchParcel o.matchPort (found.flatMap fun e => [plainRecord e false, plainRecord y true])).setQuery sheet
            (some (q1.observe i (if found.isEmpty then 1 else 0) (s.meridian.toNat - r.sent)))))) ∧
    (∀ sheet q, s.query sheet = some q → s.queryRuns q = true → q.closing.isSome = true → q.records = [] →
      exec (.queryClosed sheet) s = .next (s.closeQuery sheet q)) ∧
    (∀ p, let x := s.scribe p
      let k := Config.scribeOrder s.tick % (x.pending.length + 1)
      s.enginesRun p = true → x.state = 1 → x.decoded = true → x.pending ≠ [] →
      exec (.scribeItem p) s = .next (s.sendSample p (if k < x.pending.length then k else 0))) ∧
    (∀ p bs pos u, let x := s.scribe p
      s.enginesRun p = true → x.state = 1 → x.decoded = false → x.pending = [] → s.scribeTurn p = true →
      (decodeItem p x).run s = .ok (.ok (.ok bs, pos)) u →
      exec (.scribeItem p) s = .next ((u.onScribe p fun y => { y with
        seq := y.seq + 1, offset := pos, passed := y.passed + 1, pending := y.pending ++ [recordOf x bs] }).scribeServed p)) ∧
    (∀ p, let x := s.scribe p
      s.enginesRun p = true → x.state = 1 → x.decoded = true → x.pending = [] →
      exec (.scribeSourceComplete p) s = .next (if wbit x.control 6 then
        ((s.endSource p).release (.engine p) x.scope).sendArrival p (wbits x.control 5 0) 7 0 else s.endSource p))

/-- Segments, translation and Sounding at work (R392, R394, R395, R414, R417, R420, R421, R422, R431, R432, R433, R438).
A spill copies the segment to its backing, and the segment is SPILLED or begins its reload; a reload copies it back
and it is RESIDENT or attached; a segment's transfer can fault; a table walk keeps the translation for each region
there; an invalidation completes or goes on to its copy, and a page duplication completes or, where the page is
gone, is undone; a collapse moves a replicated page and what was held there goes on; a page set's pages land or are
stored, its table is written with the last, and its transfer completes or faults. Model's choices: who is told at a
spill and after a failed one, and the address of such a fault (log 53), the versions of a copied page (log 54), when
the pages of a set are read and written (log 55) and the replica that a front unit reads (log 124). -/
def Obligations.DirectoryEvents : Prop :=
  ∀ s : State,
    (∀ d g pas t, s.segment d = some g → g.state = .spilling → backingPages g .write s = .ok pas t →
      let mine := g.waiting.filter fun x => !x.evict && g.holder = some x.origin
      let others := g.waiting.filter fun x => !x.evict && g.holder ≠ some x.origin
      exec (.spillComplete d) s = .next ((((t.copyPages (g.pages g.origin) pas).setSegment d
        { g with state := if g.target.isSome then .reloading else .spilled, waiting := mine, asked := false, needers := [] }).segArrivals
          (g.waiting.filter (·.evict))).tellRequests others codeSegmentBusy g.name)) ∧
    (∀ d g o pas t, s.segment d = some g → g.state = .reloading → g.target = some o → s.inTheWay d g o = [] →
      backingPages g .read s = .ok pas t →
      let g1 := { g with state := .resident, origin := o, target := none, waiting := [] }
      (g.waiting = [] → exec (.reloadComplete d) s = .next ((t.copyPages pas (g.pages o)).setSegment d
        { g1 with holder := none, count := 0 })) ∧
      (∀ w rest, g.waiting = w :: rest → exec (.reloadComplete d) s = .next
        ((t.copyPages pas (g.pages o)).attach d g1 w.origin g.waiting))) ∧
    (∀ d g code, s.segment d = some g → ∃ k < max 1 g.bytes,
      exec (.segmentTransferFault d code) s = .next (s.failTransfer d g code (g.backing + BitVec.ofNat 64 k))) ∧
    (∀ prov asid va e sz at_, va < 2 ^ 56 → s.walk asid va = some (e, sz, at_) → leafMigrating e = false →
      let there := s.regions.filter fun (x : Nat × Region) =>
        x.2.phase ≠ .held && x.2.asid.toNat = asid && x.1 / 64 ≤ prov && prov ≤ (x.1 + 2 ^ x.2.shape - 1) / 64
      exec (.tableWalk prov asid va) s = .next (there.foldl (fun t (x : Nat × Region) =>
        t.keepTranslation prov ⟨x.1, asid, x.2.identity.toNat, va / 2 ^ sz * 2 ^ sz, sz, leafFrame e, e⟩) s)) ∧
    (∀ k v, s.invalidates[k]? = some v → v.dup = none →
      exec (.invalidateComplete k) s = .next ((s.performInvalidate v).invalidateOver k v)) ∧
    (∀ k v f, s.invalidates[k]? = some v → v.dup = some f → v.copying = false →
      exec (.invalidateComplete k) s = .next { s.performInvalidate v with
        invalidates := (s.performInvalidate v).invalidates.set k { v with copying := true } }) ∧
    (∀ k v f, s.invalidates[k]? = some v → v.dup = some f → v.copying = true →
      (∀ e sz at_, s.dupLeaf v.asid (BitVec.ofNat 64 v.first) = some (e, sz, at_) →
        exec (.pageDupComplete k) s = .next (((((List.range 8).foldl (fun (t : State) i =>
          t.copyPage (leafFrame e * 4096) ((f + i) * 4096)) s).writeLeaf at_
            (setF (setF (setF e 115 64 f) 11 11 1) 12 12 0)).performInvalidate v).invalidateOver k v)) ∧
      (s.dupLeaf v.asid (BitVec.ofNat 64 v.first) = none →
        exec (.pageDupComplete k) s = .next (s.failDup k v codeAbsent))) ∧
    (∀ asid va prov x e sz at_, let page := va / 4096 * 4096
      (s.collapses.find? fun y => y.1 = asid && y.2.1 = page) = some x → x.2.2 = prov →
      let t : State := { s with collapses := s.collapses.filter fun y => !(y.1 = asid && y.2.1 = page) }
      t.walk asid page = some (e, sz, at_) → leafDup e = true → leafMigrating e = false →
      exec (.collapse asid va prov) s = .next (((t.dropTranslations asid page 1).writeLeaf at_
        (setF (setF e 115 64 (leafFrame e + prov)) 11 11 0)).resumeFront asid page 1)) ∧
    (∀ n, let x := s.pageSet n
      let k := x.landed.length
      let e := x.entries.getD k 0
      x.state = 2 →
      (∀ pas t, k < x.count → pagePieces x e .read s = .ok pas t →
        let out := compressPage e (pas.flatMap fun pa => t.homeRead pa 4096)
        64 * x.offset + out.1.length ≤ 16384 * x.pages →
        ∃ u, exec (.soundingOutComplete n) s = .next u ∧ u.mem = t.mem ∧
          u.deep = t.deep.write (x.deepAddress x.offset) out.1) ∧
      (∀ e pa t, x.count = 1 → k = 1 → x.entries = [e] → setAddress x x.table .write s = .ok pa t →
        exec (.soundingOutComplete n) s = .next (((t.homeWrite (pa + 10) (Decode.leBytes 6 (getF e 127 80))).onSet n
          fun y => { y with state := 3 }).setArrival x)) ∧
      (∀ t, x.count ≤ k → storeTable x s = .ok () t →
        exec (.soundingOutComplete n) s = .next ((t.onSet n fun y => { y with state := 3 }).setArrival x))) ∧
    (∀ n k page fl pas t, let x := s.pageSet n
      let e := x.entries.getD k 0
      x.state = 4 → k < x.count → k ∉ x.landed → 64 * entryOffset e + entryLength e ≤ 16384 * x.pages →
      expandPage e (s.deep.bytes (x.deepAddress (entryOffset e)) (entryLength e)) = some (page, fl) →
      pagePieces x e .write s = .ok pas t →
      exec (.soundingPageLand n k) s = .next ((pas.zipIdx.foldl (fun (t : State) p =>
        t.homeWrite p.1 (slice page (4096 * p.2) 4096)) t).onSet n fun y =>
          { y with landed := y.landed ++ [k], flags := y.flags ||| fl })) ∧
    (∀ n, let x := s.pageSet n
      x.state = 4 → x.count ≤ x.landed.length →
      (x.failed = none → exec (.soundingInComplete n) s = .next
        (((s.onSet n fun y => { y with state := 5 }).setArrival x).pollLaunches 3 fun w => wbits w 11 0 = n)) ∧
      (∀ k, x.failed = some k → exec (.soundingInComplete n) s = .next
        (s.failSet n x codeDeepMedia (BitVec.ofNat 64 k)))) ∧
    (∀ n code word, (s.pageSet n).busy = true → ((s.pageSet n).state ≠ 4 ∨ code ≠ codeDeepMedia) →
      exec (.soundingFault n code word) s = .next (s.failSet n (s.pageSet n) code word))

/-- The host port, MoLink and the debugger (R80, R288, R295, R297, R298, R439, R461, R462, R463, R464, R466, R467). A
doorbell enters its FIFO and, where its region is not being pre-empted, a token its queue; the host reads and writes
the memory window, reads a queue's kick maximum, and gets Unsupported Request for the others; a completion or
timeout ends its request; data flits, holes, replay requests, resend notices and acknowledgements move the link, a
failed port gives way to its spare, and the shape and the device's number are set and measured; the control range
and the PCIe registers are written by whom R441 lets write them; the debugger runs, continues what it stopped,
steps, sets breakpoints, and prints what it is asked for without changing the part. Model's choices: the session and
its prints (logs 52, 94, 93), the PCIe registers and BAR0 (log 49), measurements (log 50), packets and flits (log
57), the order of what the link does (logs 58 and 59), queues and the host port (logs 9, 10, 73, 76, 100) and the
torus (log 101). -/
def Obligations.HostEvents : Prop :=
  ∀ s : State,
    let quiet : Instr → Prop := fun i => ∃ t, exec i s = .next t ∧ { t with debugger := s.debugger } = s
    (∀ off value k r, s.doorbellRegion (off / 0x1000) = some (k, r) → s.boot.phase = .running → off % 0x40 = 0 →
      let db := off % 0x1000 / 0x40
      let fifo := s.host.doorbells.look ([] : List Word) (k * 64 + db)
      fifo.length < 16 → (s.ingressNode k r db).isSome = true → exec (.doorbellWrite off 8 value) s = .next
        { s with host := { s.host with doorbells := s.host.doorbells.put (k * 64 + db) (fifo ++ [value]) } }) ∧
    (∀ o db r v rest p m q, s.regions.find o = some r → s.host.doorbells.look ([] : List Word) (o * 64 + db) = v :: rest →
      s.ingressNode o r db = some (p, m, q) → s.enginesRun p = true → s.pausing p = false → (s.cell p m).accepts q (ingressToken v) = true →
      let t : State := { s with host := { s.host with doorbells := s.host.doorbells.put (o * 64 + db) rest } }
      exec (.hostIngressDeliver o db) s = .next (t.enterQueue p m q (ingressToken v))) ∧
    (∀ off size, (s.barsUp = true → off + size ≤ hbmBytes →
        exec (.bar4Read off size) s = .next (s.answerHost (.data (s.homeRead off size)))) ∧
      (hbmBytes < off + size → exec (.bar4Read off size) s = .next (s.answerHost .unsupported))) ∧
    (∀ q < 4096, s.barsUp = true → s.hostRead 0 (0x1000 * q) 8 = .data (Decode.leBytes 8 (s.shadow q).kick.toNat)) ∧
    (∀ off bytes, s.barsUp = true → off + bytes.length ≤ hbmBytes →
      exec (.bar4Write off bytes) s = .next (s.homeWrite off bytes)) ∧
    (∀ bar off, exec (.bar2Read off) s = .next (s.answerHost .unsupported) ∧
      exec (.hostAtomicopRequest bar off) s = .next (s.answerHost .unsupported)) ∧
    (∀ tag status data, (s.host.requests.find tag).isSome = true → data.length = s.requestBytes tag →
      exec (.hostCompletion tag status data) s = .next (s.hostEnds tag fun atomic => hostResult atomic status data) ∧
      exec (.hostTimeout tag) s = .next (s.hostEnds tag fun _ => .error codeHostTimeout)) ∧
    (∀ value, exec (.pcieConfigurationWrite 0x28 value) s = .next
        { s with host := { s.host with atomicEnable := wbit value 6, timeoutRange := value.extractLsb' 0 4 } } ∧
      exec (.pcieConfigurationWrite 0x08 value) s = .next { s with host := { s.host with control := value.setWidth 16 } } ∧
      ∀ reg, reg ≠ 0x08 → reg ≠ 0x28 → exec (.pcieConfigurationWrite reg value) s = .next
        { s with host := { s.host with registers := s.host.registers.put reg value } }) ∧
    (∀ off bytes writer, bytes.length = 8 →
      (off < 0x1000000 → off % 0x1000 = 0 → exec (.deviceControlRangeWrite off bytes writer) s = .next
        (s.kick (off / 0x1000) (wordOf bytes) (unitParcel writer) none)) ∧
      (0x1000000 ≤ off → off + 8 ≤ 0x10A0008 → off % 8 = 0 →
        (if 0x1040000 ≤ off ∧ off < 0x10A0000 then privileged writer = true else writer = .cartouche) →
        exec (.deviceControlRangeWrite off bytes writer) s = .next (s.setControlWord off (Decode.leNat bytes))) ∧
      (0x1000000 ≤ off → off + 8 ≤ 0x1040000 → writer ≠ .cartouche → exec (.deviceControlRangeWrite off bytes writer) s =
        .next (if writer = .debugger then s.refuseDebug codePrivilege else s))) ∧
    (∀ port (flit : Flit), s.boot.phase = .running → (s.link.port port).working = true → flit.crcOk = true →
      let x := s.link.port port
      let t : State := { s with link := s.link.onPort port fun x => x.acknowledged flit.ack flit.credits }
      (flit.kind = .data → flit.seq = x.expected → exec (.flitReceive port flit) s = .next
        ((wholePackets flit x.torn).foldl (fun (t : State) k => t.meetPacket k) { t with
          link := t.link.onPort port (fun y => y.accept (x.torn && flit.cont && flit.packets.isEmpty)) })) ∧
      (flit.kind = .hole → flit.seq = x.expected → exec (.flitReceive port flit) s = .next
        (State.logHole { t with link := t.link.onPort port fun y => y.accept true } port)) ∧
      (flit.kind = .replay → exec (.flitReceive port flit) s = .next (t.replayFrom port flit.seq))) ∧
    (∀ port (flit : Flit), s.boot.phase = .running → (s.link.port port).working = true → flit.crcOk = false →
      exec (.flitReceive port flit) s = .next { s with link := s.link.onPort port LinkPort.ask }) ∧
    (∀ port dest seq, exec (.replayRequest port seq) s = .next (s.replayFrom port seq) ∧
      exec (.resendNotice dest seq) s = .next (s.moResend seq) ∧
      exec (.packetAcknowledge dest seq) s = .next (s.moFree dest seq)) ∧
    (∀ port, s.boot.phase = .running → (s.link.port port).working = true →
      let x := s.link.port port
      let for_ := x.spareFor.getD port
      let failed := s.link.onPort port fun _ => { LinkPort.reset with failed := true, out := x.out }
      let swapped := match s.link.spareOf for_ with
        | some k => failed.onPort k fun y => { y with working := true, spareFor := some for_ }
        | none => failed
      exec (.portRetrainFailure port) s = .next (State.loseDevices { s with
        link := ((x.replay ++ x.waiting).flatMap fun f => f.packets).foldl (fun (l : MoLink) k => l.transmit k) swapped })) ∧
    (∀ x y z number, s.boot.phase = .running → torusSize x = true → torusSize y = true → torusSize z = true →
      x * y * z ≤ 16384 → number < x * y * z → ∃ t, exec (.systemConfiguration x y z number) s = .next t ∧
        t.link.shape = (x, y, z) ∧ t.link.number = number ∧ t.link.dead = [] ∧ t.link.retained = s.link.retained ∧
        (∀ n < 16, n ∉ sparePorts → (t.link.port n).working = true ∧ (t.link.port n).failed = false) ∧
        t.boot.measures = s.boot.measures.put 3 (shakeDigest ([x, y, z, number].flatMap (Decode.leBytes 2))) ∧
        t.mem = s.mem ∧ t.parcels = s.parcels ∧ t.regions = s.regions) ∧
    (s.debugger.launch = none → ∃ t l, exec .debugRun s = .next t ∧ t.launches = s.launches.put s.launchCount l ∧
      l.ready = true ∧ t.debugger.launch = some s.launchCount ∧ t.mem = s.mem) ∧
    (s.stoppedParcels ≠ [] ∨ s.debugger.held ≠ [] →
      let armed := s.stoppedParcels.foldl (fun (t : State) p => t.onCore p fun c => c.rearm s.meridian) s
      let going : State := { armed with
        regions := armed.regions.each fun _ r => { r with debugStop := false }
        debugger := { armed.debugger with stop := none, stepping := false, held := [] } }
      let awake := s.stoppedParcels.foldl (fun (t : State) p => if (t.parcel p).gated then t else t.pollWakes p)
        (State.lateAnswers going)
      exec .debugCont s = .next (s.debugger.held.foldl (fun (t : State) e =>
        t.strip e.1 e.2.1 (e.2.2.map fun p => (p, (t.core p).asid))) awake)) ∧
    (s.stoppedParcels ≠ [] →
      (∀ p, s.stoppedTask = some p → exec .debugStep s = .next (State.lateAnswers { s with debugger := { s.debugger with
        stop := some (.task p (s.core p).pc), stepping := true } })) ∧
      (s.stoppedTask = none → exec .debugStep s = .next (State.lateAnswers
        { s with debugger := { s.debugger with stepping := true } }))) ∧
    (∀ ch p m slot q, exec (.breakTask ch) s = .next (s.addBreak (.task ch)) ∧
      exec (.breakCell p m slot) s = .next (s.addBreak (.cell p m slot)) ∧ exec .breakFault s = .next (s.addBreak .fault) ∧
      exec .breakPromise s = .next (s.addBreak .promise) ∧ exec (.breakKick q) s = .next (s.addBreak (.kick q))) ∧
    (∀ p n, s.stoppedTask = some p →
      exec (.printRegister n) s = .next (s.say (.value "x" n ((s.core p).get (BitVec.ofNat 5 n))))) ∧
    (∀ p num v, s.stoppedTask = some p → s.csrRead p num = some v →
      exec (.printControlRegister num) s = .next (s.say (.value "control" num v))) ∧
    (∀ n, n < 16 → let v := (s.cell s.debugger.lastCell.1 s.debugger.lastCell.2).v.toList.getD n LaneReg.reset
      exec (.printLaneRegister n) s = .next
        (s.say (.lanes (s.relative s.debugger.lastCell.1) s.debugger.lastCell.2 n v.payload v.tag))) ∧
    exec .printPredicates s = .next (s.say (.preds (s.relative s.debugger.lastCell.1) s.debugger.lastCell.2
      (s.cell s.debugger.lastCell.1 s.debugger.lastCell.2).k)) ∧
    (∀ o r n, s.session = some (o, r) → n < 8 → exec (.printWindowRegister n) s = .next
      (let w := (s.parcel (s.stoppedTask.getD o)).windows.toList.getD n 0
       s.say (.window n w (wbit w 63) (wbits w 62 53) (wbits w 52 31) (wbits w 30 28) (wbits w 27 12) (wbits w 11 0)))) ∧
    exec .printMeridian s = .next (s.say (.value "meridian" 0 s.meridian)) ∧
    (∀ o r, s.session = some (o, r) →
      let shown : Instr → List Printed → Prop := fun i l => exec i s = .next (l.foldl (fun (t : State) x => t.say x) s)
      let parcels := regionParcels o r
      shown .showQueues (parcels.flatMap fun p =>
        ((s.parcel p).cells.filter fun (e : Nat × Cell) => e.2.holdsWord || e.2.fired).map fun e =>
          .cell (p - o) e.1 e.2.mode e.2.fireCtx e.2.fireSlot e.2.k
            (e.2.iq.toList.map (·.words.length) ++ e.2.oq.toList.map fun q => q.words.length + q.delay.length)) ∧
      shown .showBuffers (parcels.flatMap fun p =>
        ((s.parcel p).buffers.filter fun (e : Nat × BitVec 128) => bufState e.2 ≠ 0).map fun e => .buffer (p - o) e.1 e.2) ∧
      shown .showStations (parcels.flatMap fun p => (s.parcel p).inits.map fun n => .station (p - o) n (s.station p n)) ∧
      shown .showStreams (parcels.flatMap fun p =>
        ((s.parcel p).streams.filter fun (e : Nat × Stream) => e.2.state ≠ 0).map fun e =>
          .stream (p - o) e.1 e.2.status (wbits e.2.control 9 0)) ∧
      shown .showSegments ((s.segments.filter fun (e : Nat × Segment) => e.2.asid = r.asid).map fun e =>
        .segment e.2.name (e.2.status (some o))) ∧
      shown .showCompass ((s.compasses.filter fun (e : Nat × Compass) => o < 4 * e.1 + 4 && 4 * e.1 < o + 2 ^ r.shape).filterMap
        fun (e : Nat × Compass) => e.2.query.map fun q => .compass e.1 (q.slots.map (fun x => q.observation x.1) ++
          [BitVec.ofNat 64 (q.records.filter fun x => x.away.isNone).length,
           BitVec.ofNat 64 (q.records.filter fun x => x.away.isSome).length] ++ [8, 9, 10, 11, 12].map q.observation))) ∧
    (∀ q bs t, frontRead (q % 8) (s.shadow q).asid.toNat (s.shadow q).user 16 s = .ok bs t →
      exec (.showQueue q) s = .next (s.say (.queue q (s.shadow q) (BitVec.ofNat 32 (field bs 8 4)) (BitVec.ofNat 32 (field bs 0 4))))) ∧
    quiet .showQueues ∧ quiet .showBuffers ∧ quiet .showStations ∧ quiet .showStreams ∧ quiet .showCompass ∧
    quiet .showSegments ∧ (∀ q, quiet (.showQueue q)) ∧ quiet .printPredicates ∧ (∀ n, quiet (.printRegister n))
end

