-- ==== Sys2Proof/Laws/Encoding.lean ====
section
/-! SUPPORT. What the decoder's fields find in the words that the encoder builds, format by format. -/

namespace Sys2Proof.Laws

open Sys2Proof Sys2Proof.Decode

theorem fld_hi {n m : Nat} (x : BitVec n) (y : BitVec m) (lo k : Nat) (h : m ≤ lo) :
    fld (x ++ y) lo k = fld x (lo - m) k := by
  simp only [fld]; ext i hi
  simp only [BitVec.getElem_extractLsb', BitVec.getLsbD_append]
  rw [if_neg (by omega)]; congr 1; omega
theorem fld_lo {n m : Nat} (x : BitVec n) (y : BitVec m) (lo k : Nat) (h : lo + k ≤ m) :
    fld (x ++ y) lo k = fld y lo k := by
  simp only [fld]; ext i hi
  simp only [BitVec.getElem_extractLsb', BitVec.getLsbD_append]
  rw [if_pos (by omega)]
@[simp] theorem fld_all {n : Nat} (x : BitVec n) : fld x 0 n = x := by
  simp only [fld]; ext i hi; simp
/-- A field that spans two neighbouring parts whole. -/
theorem fld_two {n a b : Nat} (x : BitVec n) (y : BitVec a) (z : BitVec b) :
    fld (x ++ y ++ z) 0 (a + b) = y ++ z := by
  simp only [fld]; ext i hi
  simp only [BitVec.getElem_extractLsb', BitVec.getLsbD_append, BitVec.getElem_append]
  by_cases h : i < b
  · rw [if_pos (by omega), dif_pos h]; simp [BitVec.getLsbD_eq_getElem h]
  · rw [if_neg (by omega), dif_neg h, if_pos (by omega)]; simp [BitVec.getLsbD_eq_getElem (show i - b < a by omega)]


section
variable (maj : BitVec 6) (rd ra rb : Reg) (f : BitVec 11)
@[simp] theorem r_major : fld (Encode.r maj rd ra rb f) 26 6 = maj :=
  (fld_hi (maj ++ rd ++ ra ++ rb) f 26 6 (by decide)).trans <| (fld_hi (maj ++ rd ++ ra) rb 15 6 (by decide)).trans <| (fld_hi (maj ++ rd) ra 10 6 (by decide)).trans <| (fld_hi maj rd 5 6 (by decide)).trans (fld_all maj)
@[simp] theorem r_rd : fld (Encode.r maj rd ra rb f) 21 5 = rd :=
  (fld_hi (maj ++ rd ++ ra ++ rb) f 21 5 (by decide)).trans <| (fld_hi (maj ++ rd ++ ra) rb 10 5 (by decide)).trans <| (fld_hi (maj ++ rd) ra 5 5 (by decide)).trans <| (fld_lo maj rd 0 5 (by decide)).trans (fld_all rd)
@[simp] theorem r_ra : fld (Encode.r maj rd ra rb f) 16 5 = ra :=
  (fld_hi (maj ++ rd ++ ra ++ rb) f 16 5 (by decide)).trans <| (fld_hi (maj ++ rd ++ ra) rb 5 5 (by decide)).trans <| (fld_lo (maj ++ rd) ra 0 5 (by decide)).trans (fld_all ra)
@[simp] theorem r_rb : fld (Encode.r maj rd ra rb f) 11 5 = rb :=
  (fld_hi (maj ++ rd ++ ra ++ rb) f 11 5 (by decide)).trans <| (fld_lo (maj ++ rd ++ ra) rb 0 5 (by decide)).trans (fld_all rb)
@[simp] theorem r_f : fld (Encode.r maj rd ra rb f) 0 11 = f :=
  (fld_lo (maj ++ rd ++ ra ++ rb) f 0 11 (by decide)).trans (fld_all f)
end

section
variable (maj : BitVec 6) (rd ra : Reg) (imm : BitVec 16)
@[simp] theorem i_major : fld (Encode.i maj rd ra imm) 26 6 = maj :=
  (fld_hi (maj ++ rd ++ ra) imm 26 6 (by decide)).trans <| (fld_hi (maj ++ rd) ra 10 6 (by decide)).trans <| (fld_hi maj rd 5 6 (by decide)).trans (fld_all maj)
@[simp] theorem i_rd : fld (Encode.i maj rd ra imm) 21 5 = rd :=
  (fld_hi (maj ++ rd ++ ra) imm 21 5 (by decide)).trans <| (fld_hi (maj ++ rd) ra 5 5 (by decide)).trans <| (fld_lo maj rd 0 5 (by decide)).trans (fld_all rd)
@[simp] theorem i_ra : fld (Encode.i maj rd ra imm) 16 5 = ra :=
  (fld_hi (maj ++ rd ++ ra) imm 16 5 (by decide)).trans <| (fld_lo (maj ++ rd) ra 0 5 (by decide)).trans (fld_all ra)
@[simp] theorem i_imm : fld (Encode.i maj rd ra imm) 0 16 = imm :=
  (fld_lo (maj ++ rd ++ ra) imm 0 16 (by decide)).trans (fld_all imm)
end

section
variable (maj : BitVec 6) (rd : Reg) (off : BitVec 21)
@[simp] theorem j_major : fld (Encode.j maj rd off) 26 6 = maj :=
  (fld_hi (maj ++ rd) off 26 6 (by decide)).trans <| (fld_hi maj rd 5 6 (by decide)).trans (fld_all maj)
@[simp] theorem j_rd : fld (Encode.j maj rd off) 21 5 = rd :=
  (fld_hi (maj ++ rd) off 21 5 (by decide)).trans <| (fld_lo maj rd 0 5 (by decide)).trans (fld_all rd)
@[simp] theorem j_off : fld (Encode.j maj rd off) 0 21 = off :=
  (fld_lo (maj ++ rd) off 0 21 (by decide)).trans (fld_all off)
end

section
variable (maj : BitVec 6) (rd ra : Reg) (sc : Scope) (off : BitVec 12)
@[simp] theorem m_major : fld (Encode.m maj rd ra sc off) 26 6 = maj :=
  (fld_hi (maj ++ rd ++ ra ++ (BitVec.ofNat 4 (scopeCode sc))) off 26 6 (by decide)).trans <| (fld_hi (maj ++ rd ++ ra) (BitVec.ofNat 4 (scopeCode sc)) 14 6 (by decide)).trans <| (fld_hi (maj ++ rd) ra 10 6 (by decide)).trans <| (fld_hi maj rd 5 6 (by decide)).trans (fld_all maj)
@[simp] theorem m_rd : fld (Encode.m maj rd ra sc off) 21 5 = rd :=
  (fld_hi (maj ++ rd ++ ra ++ (BitVec.ofNat 4 (scopeCode sc))) off 21 5 (by decide)).trans <| (fld_hi (maj ++ rd ++ ra) (BitVec.ofNat 4 (scopeCode sc)) 9 5 (by decide)).trans <| (fld_hi (maj ++ rd) ra 5 5 (by decide)).trans <| (fld_lo maj rd 0 5 (by decide)).trans (fld_all rd)
@[simp] theorem m_ra : fld (Encode.m maj rd ra sc off) 16 5 = ra :=
  (fld_hi (maj ++ rd ++ ra ++ (BitVec.ofNat 4 (scopeCode sc))) off 16 5 (by decide)).trans <| (fld_hi (maj ++ rd ++ ra) (BitVec.ofNat 4 (scopeCode sc)) 4 5 (by decide)).trans <| (fld_lo (maj ++ rd) ra 0 5 (by decide)).trans (fld_all ra)
@[simp] theorem m_scope : fld (Encode.m maj rd ra sc off) 12 4 = (BitVec.ofNat 4 (scopeCode sc)) :=
  (fld_hi (maj ++ rd ++ ra ++ (BitVec.ofNat 4 (scopeCode sc))) off 12 4 (by decide)).trans <| (fld_lo (maj ++ rd ++ ra) (BitVec.ofNat 4 (scopeCode sc)) 0 4 (by decide)).trans (fld_all (BitVec.ofNat 4 (scopeCode sc)))
@[simp] theorem m_off : fld (Encode.m maj rd ra sc off) 0 12 = off :=
  (fld_lo (maj ++ rd ++ ra ++ (BitVec.ofNat 4 (scopeCode sc))) off 0 12 (by decide)).trans (fld_all off)
end

section
variable (eng : BitVec 4) (rd ra rb : Reg) (f : BitVec 7)
@[simp] theorem e_major : fld (Encode.e eng rd ra rb f) 26 6 = 0x3E#6 :=
  (fld_hi (0x3E#6 ++ eng ++ rd ++ ra ++ rb) f 26 6 (by decide)).trans <| (fld_hi (0x3E#6 ++ eng ++ rd ++ ra) rb 19 6 (by decide)).trans <| (fld_hi (0x3E#6 ++ eng ++ rd) ra 14 6 (by decide)).trans <| (fld_hi (0x3E#6 ++ eng) rd 9 6 (by decide)).trans <| (fld_hi 0x3E#6 eng 4 6 (by decide)).trans (fld_all 0x3E#6)
@[simp] theorem e_eng : fld (Encode.e eng rd ra rb f) 22 4 = eng :=
  (fld_hi (0x3E#6 ++ eng ++ rd ++ ra ++ rb) f 22 4 (by decide)).trans <| (fld_hi (0x3E#6 ++ eng ++ rd ++ ra) rb 15 4 (by decide)).trans <| (fld_hi (0x3E#6 ++ eng ++ rd) ra 10 4 (by decide)).trans <| (fld_hi (0x3E#6 ++ eng) rd 5 4 (by decide)).trans <| (fld_lo 0x3E#6 eng 0 4 (by decide)).trans (fld_all eng)
@[simp] theorem e_rd : fld (Encode.e eng rd ra rb f) 17 5 = rd :=
  (fld_hi (0x3E#6 ++ eng ++ rd ++ ra ++ rb) f 17 5 (by decide)).trans <| (fld_hi (0x3E#6 ++ eng ++ rd ++ ra) rb 10 5 (by decide)).trans <| (fld_hi (0x3E#6 ++ eng ++ rd) ra 5 5 (by decide)).trans <| (fld_lo (0x3E#6 ++ eng) rd 0 5 (by decide)).trans (fld_all rd)
@[simp] theorem e_ra : fld (Encode.e eng rd ra rb f) 12 5 = ra :=
  (fld_hi (0x3E#6 ++ eng ++ rd ++ ra ++ rb) f 12 5 (by decide)).trans <| (fld_hi (0x3E#6 ++ eng ++ rd ++ ra) rb 5 5 (by decide)).trans <| (fld_lo (0x3E#6 ++ eng ++ rd) ra 0 5 (by decide)).trans (fld_all ra)
@[simp] theorem e_rb : fld (Encode.e eng rd ra rb f) 7 5 = rb :=
  (fld_hi (0x3E#6 ++ eng ++ rd ++ ra ++ rb) f 7 5 (by decide)).trans <| (fld_lo (0x3E#6 ++ eng ++ rd ++ ra) rb 0 5 (by decide)).trans (fld_all rb)
@[simp] theorem e_f : fld (Encode.e eng rd ra rb f) 0 7 = f :=
  (fld_lo (0x3E#6 ++ eng ++ rd ++ ra ++ rb) f 0 7 (by decide)).trans (fld_all f)
end

/-- A field inside the function field of format R. -/
@[simp] theorem r_inner (maj : BitVec 6) (rd ra rb : Reg) (f : BitVec 11) (lo k : Nat) (h : lo + k ≤ 11) :
    fld (Encode.r maj rd ra rb f) lo k = fld f lo k := fld_lo (maj ++ rd ++ ra ++ rb) f lo k h
/-- The four bits above an `addImmediate` shift count. -/
theorem i_inner (maj : BitVec 6) (rd ra : Reg) (imm : BitVec 16) (lo k : Nat) (h : lo + k ≤ 16) :
    fld (Encode.i maj rd ra imm) lo k = fld imm lo k := fld_lo (maj ++ rd ++ ra) imm lo k h

@[simp] theorem r_unused (maj : BitVec 6) (rd : Reg) (f : BitVec 11) : fld (Encode.r maj rd 0#5 0#5 f) 11 10 = 0 := by
  exact (fld_hi (maj ++ rd ++ 0#5 ++ 0#5) f 11 10 (by decide)).trans ((fld_two (maj ++ rd) 0#5 0#5).trans (by decide))

/-- Scope codes read back (R108). -/
@[simp] theorem scope_round (sc : Scope) : scopeOf (scopeCode sc % 16) = some sc := by cases sc <;> rfl

/-- The shift count of an immediate shift, and the zeros above it (R117). -/
@[simp] theorem i_shift (maj : BitVec 6) (rd ra : Reg) (sh : BitVec 6) :
    fld (Encode.i maj rd ra (0#10 ++ sh)) 0 6 = sh ∧ fld (Encode.i maj rd ra (0#10 ++ sh)) 6 10 = 0 :=
  ⟨(i_inner maj rd ra (0#10 ++ sh) 0 6 (by decide)).trans ((fld_lo (0#10) sh 0 6 (by decide)).trans (fld_all sh)),
    (i_inner maj rd ra (0#10 ++ sh) 6 10 (by decide)).trans ((fld_hi (0#10) sh 6 10 (by decide)).trans (fld_all _))⟩

/-- The function field of versioned accesses (R120, R121). -/
@[simp] theorem vf_fields (b8 b7 : Bool) (size : BitVec 2) (sc : Scope) :
    fld (Encode.vf b8 b7 size sc) 9 2 = 0 ∧ fld (Encode.vf b8 b7 size sc) 8 1 = BitVec.ofBool b8 ∧
    fld (Encode.vf b8 b7 size sc) 7 1 = BitVec.ofBool b7 ∧ fld (Encode.vf b8 b7 size sc) 6 1 = 0 ∧
    fld (Encode.vf b8 b7 size sc) 6 2 = BitVec.ofBool b7 ++ 0#1 ∧
    fld (Encode.vf b8 b7 size sc) 4 2 = size ∧ scopeOf (fld (Encode.vf b8 b7 size sc) 0 4).toNat = some sc := by
  revert size; cases b8 <;> cases b7 <;> cases sc <;> decide

/-- The function field of atomics (R123). -/
@[simp] theorem af_fields (op : BitVec 4) (wd : AmoWidth) (sc : Scope) :
    fld (Encode.af op wd sc) 10 1 = 0 ∧ fld (Encode.af op wd sc) 6 4 = op ∧
    amoWidthOf (fld (Encode.af op wd sc) 4 2).toNat = some wd ∧ scopeOf (fld (Encode.af op wd sc) 0 4).toNat = some sc := by
  revert op; cases wd <;> cases sc <;> decide

/-! ### Cell operation words -/

section
variable (op : BitVec 8) (ty : BitVec 4) (d a b : BitVec 12) (r : BitVec 3) (p : BitVec 1) (c : BitVec 12)
theorem cell_op : fld (op ++ ty ++ d ++ a ++ b ++ r ++ p ++ c : BitVec 64) 56 8 = op :=
  (fld_hi (op ++ ty ++ d ++ a ++ b ++ r ++ p) c 56 8 (by decide)).trans <| (fld_hi (op ++ ty ++ d ++ a ++ b ++ r) p 44 8 (by decide)).trans <| (fld_hi (op ++ ty ++ d ++ a ++ b) r 43 8 (by decide)).trans <| (fld_hi (op ++ ty ++ d ++ a) b 40 8 (by decide)).trans <| (fld_hi (op ++ ty ++ d) a 28 8 (by decide)).trans <| (fld_hi (op ++ ty) d 16 8 (by decide)).trans <| (fld_hi op ty 4 8 (by decide)).trans (fld_all op)
theorem cell_ty : fld (op ++ ty ++ d ++ a ++ b ++ r ++ p ++ c : BitVec 64) 52 4 = ty :=
  (fld_hi (op ++ ty ++ d ++ a ++ b ++ r ++ p) c 52 4 (by decide)).trans <| (fld_hi (op ++ ty ++ d ++ a ++ b ++ r) p 40 4 (by decide)).trans <| (fld_hi (op ++ ty ++ d ++ a ++ b) r 39 4 (by decide)).trans <| (fld_hi (op ++ ty ++ d ++ a) b 36 4 (by decide)).trans <| (fld_hi (op ++ ty ++ d) a 24 4 (by decide)).trans <| (fld_hi (op ++ ty) d 12 4 (by decide)).trans <| (fld_lo op ty 0 4 (by decide)).trans (fld_all ty)
theorem cell_d : fld (op ++ ty ++ d ++ a ++ b ++ r ++ p ++ c : BitVec 64) 40 12 = d :=
  (fld_hi (op ++ ty ++ d ++ a ++ b ++ r ++ p) c 40 12 (by decide)).trans <| (fld_hi (op ++ ty ++ d ++ a ++ b ++ r) p 28 12 (by decide)).trans <| (fld_hi (op ++ ty ++ d ++ a ++ b) r 27 12 (by decide)).trans <| (fld_hi (op ++ ty ++ d ++ a) b 24 12 (by decide)).trans <| (fld_hi (op ++ ty ++ d) a 12 12 (by decide)).trans <| (fld_lo (op ++ ty) d 0 12 (by decide)).trans (fld_all d)
theorem cell_a : fld (op ++ ty ++ d ++ a ++ b ++ r ++ p ++ c : BitVec 64) 28 12 = a :=
  (fld_hi (op ++ ty ++ d ++ a ++ b ++ r ++ p) c 28 12 (by decide)).trans <| (fld_hi (op ++ ty ++ d ++ a ++ b ++ r) p 16 12 (by decide)).trans <| (fld_hi (op ++ ty ++ d ++ a ++ b) r 15 12 (by decide)).trans <| (fld_hi (op ++ ty ++ d ++ a) b 12 12 (by decide)).trans <| (fld_lo (op ++ ty ++ d) a 0 12 (by decide)).trans (fld_all a)
theorem cell_b : fld (op ++ ty ++ d ++ a ++ b ++ r ++ p ++ c : BitVec 64) 16 12 = b :=
  (fld_hi (op ++ ty ++ d ++ a ++ b ++ r ++ p) c 16 12 (by decide)).trans <| (fld_hi (op ++ ty ++ d ++ a ++ b ++ r) p 4 12 (by decide)).trans <| (fld_hi (op ++ ty ++ d ++ a ++ b) r 3 12 (by decide)).trans <| (fld_lo (op ++ ty ++ d ++ a) b 0 12 (by decide)).trans (fld_all b)
theorem cell_r : fld (op ++ ty ++ d ++ a ++ b ++ r ++ p ++ c : BitVec 64) 13 3 = r :=
  (fld_hi (op ++ ty ++ d ++ a ++ b ++ r ++ p) c 13 3 (by decide)).trans <| (fld_hi (op ++ ty ++ d ++ a ++ b ++ r) p 1 3 (by decide)).trans <| (fld_lo (op ++ ty ++ d ++ a ++ b) r 0 3 (by decide)).trans (fld_all r)
theorem cell_p : fld (op ++ ty ++ d ++ a ++ b ++ r ++ p ++ c : BitVec 64) 12 1 = p :=
  (fld_hi (op ++ ty ++ d ++ a ++ b ++ r ++ p) c 12 1 (by decide)).trans <| (fld_lo (op ++ ty ++ d ++ a ++ b ++ r) p 0 1 (by decide)).trans (fld_all p)
theorem cell_c : fld (op ++ ty ++ d ++ a ++ b ++ r ++ p ++ c : BitVec 64) 0 12 = c :=
  (fld_lo (op ++ ty ++ d ++ a ++ b ++ r ++ p) c 0 12 (by decide)).trans (fld_all c)
end

/-- Operand fields read back (R211). -/
theorem operand_round (o : Operand) : operandOf (Encode.operand o) = some o := by
  cases o with
  | reg n => revert n; decide
  | iq q w => revert q w; decide
  | oq q => revert q; decide
  | pred k => revert k; decide
  | const k => revert k; decide
  | ap => decide
  | handle h => revert h; decide
  | special x => cases x <;> decide
  | none => decide

/-- Rounding codes read back (R45). -/
theorem rounding_round (r : Rounding) : roundingOf (BitVec.ofNat 3 (roundingCode r)).toNat = some r := by
  cases r <;> rfl

/-- A cell operation word of a well-formed operation reads back (R210-R215). -/
theorem cell_round (op : BitVec 8) (w : CellWord) (i : Instr) (ho : ofOpcode op.toNat w = some i)
    (hw : i.wellFormed = true) : cell (Encode.cellWord op w) = .ok i := by
  obtain ⟨ty, d, a, b, r, p, c⟩ := w
  simp only [cell, Encode.cellWord, cell_op, cell_ty, cell_d, cell_a, cell_b, cell_r, cell_p, cell_c, operand_round,
    rounding_round]
  have hp : (BitVec.ofBool p == 1#1) = p := by cases p <;> rfl
  have hp1 : (BitVec.ofBool p == 1) = p := hp
  rw [hp1, ho]; simp [hw]

end Sys2Proof.Laws
end

