-- ==== Sys2Proof/Laws/Memory.lean ====
section
/-! SUPPORT. Sparse tables, and memory as a canonical list: what a store leaves to be read, and that every operation
keeps the canonical form. -/

namespace Sys2Proof.Laws

open Sys2Proof Sys2Proof.Machine

/-! ### Tables -/

theorem look_put_same {α : Type} (d : α) (t : Table α) (k : Nat) (x : α) : (t.put k x).look d k = x := by
  induction t with
  | nil => simp [Table.put, Table.look]
  | cons e t ih =>
    obtain ⟨i, v⟩ := e
    simp only [Table.put]
    split
    · simp [Table.look]
    · split
      · simp [Table.look]
      · rename_i h; simp [Table.look, Ne.symm h, ih]

theorem look_put_other {α : Type} (d : α) (t : Table α) (k j : Nat) (x : α) (h : k ≠ j) :
    (t.put k x).look d j = t.look d j := by
  induction t with
  | nil => simp [Table.put, Table.look, h]
  | cons e t ih =>
    obtain ⟨i, v⟩ := e
    simp only [Table.put]
    split
    · simp [Table.look, h]
    · split
      · rename_i hki; subst hki; simp [Table.look, h]
      · simp [Table.look, ih]

/-- What a table holds after one value is stored. -/
theorem look_put {α : Type} (d : α) (t : Table α) (k j : Nat) (x : α) :
    (t.put k x).look d j = if k = j then x else t.look d j := by
  split
  · rename_i h; subst h; exact look_put_same d t k x
  · rename_i h; exact look_put_other d t k j x h

theorem find_put {α : Type} (t : Table α) (k j : Nat) (x : α) :
    (t.put k x).find j = if k = j then some x else t.find j := by
  induction t with
  | nil => simp [Table.put, Table.find]
  | cons e t ih =>
    obtain ⟨i, v⟩ := e
    simp only [Table.put]
    split
    · simp [Table.find]
    · split
      · rename_i hki; subst hki; simp only [Table.find]; split <;> simp_all
      · simp only [Table.find, ih]; split <;> split <;> simp_all

/-! ### The canonical form -/

/-- Every listed address of a memory is above a bound. -/
def Above (a : Nat) (m : Memory) : Prop := ∀ e ∈ m, a < e.1

theorem wf_cons (a : Nat) (b : Byte) (t : Memory) :
    Memory.wf ((a, b) :: t) = true ↔ b ≠ blank ∧ Above a t ∧ Memory.wf t = true := by
  induction t generalizing a b with
  | nil => simp [Memory.wf, Above]
  | cons e t ih =>
    obtain ⟨c, v⟩ := e
    have h := ih c v
    simp only [Memory.wf, Bool.and_eq_true, decide_eq_true_eq] at h ⊢
    constructor
    · rintro ⟨⟨hb, hac⟩, hw⟩
      refine ⟨by simpa using hb, ?_, hw⟩
      intro x hx
      rcases List.mem_cons.1 hx with rfl | hx
      · exact hac
      · exact lt_trans hac ((h.1 hw).2.1 x hx)
    · rintro ⟨hb, ha, hw⟩
      exact ⟨⟨by simpa using hb, ha (c, v) (by simp)⟩, hw⟩

theorem above_set {a k : Nat} {m : Memory} (b : Byte) (h : Above a m) (hk : a < k) : Above a (m.set k b) := by
  induction m with
  | nil => intro e he; simp only [Memory.set] at he; split at he <;> simp_all
  | cons x t ih =>
    obtain ⟨i, v⟩ := x
    have hi : a < i := h (i, v) (by simp)
    have ht : Above a t := fun e he => h e (List.mem_cons_of_mem _ he)
    intro e he
    simp only [Memory.set] at he
    split at he
    · split at he
      · exact h e he
      · rcases List.mem_cons.1 he with rfl | he
        · exact hk
        · exact h e he
    · split at he
      · split at he
        · exact ht e he
        · rcases List.mem_cons.1 he with rfl | he
          · exact hk
          · exact ht e he
      · rcases List.mem_cons.1 he with rfl | he
        · exact hi
        · exact ih ht e he

/-- Storing a byte keeps the canonical form. -/
theorem wf_set {m : Memory} (a : Nat) (b : Byte) (h : m.wf = true) : (m.set a b).wf = true := by
  induction m with
  | nil => simp only [Memory.set]; split <;> simp_all [Memory.wf]
  | cons x t ih =>
    obtain ⟨i, v⟩ := x
    obtain ⟨hv, hab, hw⟩ := (wf_cons i v t).1 h
    simp only [Memory.set]
    split
    · rename_i hai
      split
      · exact h
      · rename_i hb
        refine (wf_cons _ _ _).2 ⟨hb, ?_, h⟩
        intro e he
        rcases List.mem_cons.1 he with rfl | he
        · exact hai
        · exact lt_trans hai (hab e he)
    · split
      · rename_i hai; subst hai
        split
        · exact hw
        · rename_i hb; exact (wf_cons _ _ _).2 ⟨hb, hab, hw⟩
      · exact (wf_cons _ _ _).2 ⟨hv, above_set b hab (by omega), ih hw⟩

/-- Storing bytes keeps the canonical form. -/
theorem wf_write {m : Memory} (a : Nat) (bs : List Byte) (h : m.wf = true) : (m.write a bs).wf = true := by
  induction bs generalizing m a with
  | nil => exact h
  | cons b bs ih => exact ih (a + 1) (wf_set a b h)

/-- Taking cells out keeps the canonical form. -/
theorem wf_filter {m : Memory} (f : Nat × Byte → Bool) (h : m.wf = true) : Memory.wf (m.filter f) = true := by
  induction m with
  | nil => rfl
  | cons x t ih =>
    obtain ⟨i, v⟩ := x
    obtain ⟨hv, hab, hw⟩ := (wf_cons i v t).1 h
    rw [List.filter_cons]
    split
    · exact (wf_cons _ _ _).2 ⟨hv, fun e he => hab e (List.mem_filter.1 he).1, ih hw⟩
    · exact ih hw

/-! ### Reading what was stored -/

theorem get_of_above {m : Memory} {a : Nat} (h : Above a m) : m.get a = blank := by
  induction m with
  | nil => rfl
  | cons x t ih =>
    obtain ⟨i, v⟩ := x
    have hi : a < i := h (i, v) (by simp)
    simp only [Memory.get, Table.look]
    rw [if_neg (by omega)]
    exact ih fun e he => h e (List.mem_cons_of_mem _ he)

/-- A byte stored in a canonical memory is read back, and every other address reads as before. -/
theorem get_set {m : Memory} (h : m.wf = true) (a j : Nat) (b : Byte) :
    (m.set a b).get j = if a = j then b else m.get j := by
  induction m with
  | nil =>
    simp only [Memory.set, Memory.get]
    split
    · rename_i hb; subst hb; simp [Table.look]
    · simp [Table.look]
  | cons x t ih =>
    obtain ⟨i, v⟩ := x
    obtain ⟨hv, hab, hw⟩ := (wf_cons i v t).1 h
    simp only [Memory.set]
    split
    · rename_i hai
      split
      · rename_i hb; subst hb
        split
        · rename_i e; subst e
          refine get_of_above ?_
          intro e he
          rcases List.mem_cons.1 he with rfl | he
          · exact hai
          · exact lt_trans hai (hab e he)
        · rfl
      · simp [Memory.get, Table.look]
    · split
      · rename_i hai; subst hai
        split
        · rename_i hb; subst hb
          split
          · rename_i e; subst e; exact get_of_above hab
          · rename_i e; simp [Memory.get, Table.look, e]
        · split
          · rename_i e; simp [Memory.get, Table.look, e]
          · rename_i e; simp [Memory.get, Table.look, e]
      · rename_i h1 h2
        have := ih hw
        simp only [Memory.get, Table.look] at this ⊢
        rw [this]
        split <;> split <;> first | rfl | omega

/-- The canonical form after reset. -/
theorem reset_mem_wf : State.reset.mem.wf = true ∧ State.reset.deep.wf = true := by decide

end Sys2Proof.Laws
end

