-- ==== Sys2Proof/Laws/State.lean ====
section
/-! SUPPORT. What each named update of the state leaves in each field, and what the accessors find after it. -/

namespace Sys2Proof.Laws

open Sys2Proof Sys2Proof.Machine

variable (s : State)

/-! ### `onParcel` -/

@[simp] theorem onParcel_meridian (p : Nat) (f : Parcel → Parcel) : (s.onParcel p f).meridian = s.meridian := rfl
@[simp] theorem onParcel_tick (p : Nat) (f : Parcel → Parcel) : (s.onParcel p f).tick = s.tick := rfl
@[simp] theorem onParcel_next (p : Nat) (f : Parcel → Parcel) : (s.onParcel p f).next = s.next := rfl
@[simp] theorem onParcel_mem (p : Nat) (f : Parcel → Parcel) : (s.onParcel p f).mem = s.mem := rfl
@[simp] theorem onParcel_deep (p : Nat) (f : Parcel → Parcel) : (s.onParcel p f).deep = s.deep := rfl
@[simp] theorem onParcel_versions (p : Nat) (f : Parcel → Parcel) : (s.onParcel p f).versions = s.versions := rfl
@[simp] theorem onParcel_kept (p : Nat) (f : Parcel → Parcel) : (s.onParcel p f).kept = s.kept := rfl
@[simp] theorem onParcel_holds (p : Nat) (f : Parcel → Parcel) : (s.onParcel p f).holds = s.holds := rfl
@[simp] theorem onParcel_slices (p : Nat) (f : Parcel → Parcel) : (s.onParcel p f).slices = s.slices := rfl
@[simp] theorem onParcel_overlays (p : Nat) (f : Parcel → Parcel) : (s.onParcel p f).overlays = s.overlays := rfl
@[simp] theorem onParcel_reds (p : Nat) (f : Parcel → Parcel) : (s.onParcel p f).reds = s.reds := rfl
@[simp] theorem onParcel_tiles (p : Nat) (f : Parcel → Parcel) : (s.onParcel p f).tiles = s.tiles := rfl
@[simp] theorem onParcel_signals (p : Nat) (f : Parcel → Parcel) : (s.onParcel p f).signals = s.signals := rfl
@[simp] theorem onParcel_publishes (p : Nat) (f : Parcel → Parcel) : (s.onParcel p f).publishes = s.publishes := rfl
@[simp] theorem onParcel_flight (p : Nat) (f : Parcel → Parcel) : (s.onParcel p f).flight = s.flight := rfl
@[simp] theorem onParcel_reports (p : Nat) (f : Parcel → Parcel) : (s.onParcel p f).reports = s.reports := rfl
@[simp] theorem onParcel_lateKicks (p : Nat) (f : Parcel → Parcel) : (s.onParcel p f).lateKicks = s.lateKicks := rfl
@[simp] theorem onParcel_compasses (p : Nat) (f : Parcel → Parcel) : (s.onParcel p f).compasses = s.compasses := rfl
@[simp] theorem onParcel_provinces (p : Nat) (f : Parcel → Parcel) : (s.onParcel p f).provinces = s.provinces := rfl
@[simp] theorem onParcel_regions (p : Nat) (f : Parcel → Parcel) : (s.onParcel p f).regions = s.regions := rfl
@[simp] theorem onParcel_launches (p : Nat) (f : Parcel → Parcel) : (s.onParcel p f).launches = s.launches := rfl
@[simp] theorem onParcel_launchCount (p : Nat) (f : Parcel → Parcel) : (s.onParcel p f).launchCount = s.launchCount := rfl
@[simp] theorem onParcel_decisions (p : Nat) (f : Parcel → Parcel) : (s.onParcel p f).decisions = s.decisions := rfl
@[simp] theorem onParcel_considered (p : Nat) (f : Parcel → Parcel) : (s.onParcel p f).considered = s.considered := rfl
@[simp] theorem onParcel_queues (p : Nat) (f : Parcel → Parcel) : (s.onParcel p f).queues = s.queues := rfl
@[simp] theorem onParcel_stripTurns (p : Nat) (f : Parcel → Parcel) : (s.onParcel p f).stripTurns = s.stripTurns := rfl
@[simp] theorem onParcel_asids (p : Nat) (f : Parcel → Parcel) : (s.onParcel p f).asids = s.asids := rfl
@[simp] theorem onParcel_grants (p : Nat) (f : Parcel → Parcel) : (s.onParcel p f).grants = s.grants := rfl
@[simp] theorem onParcel_dropped (p : Nat) (f : Parcel → Parcel) : (s.onParcel p f).dropped = s.dropped := rfl
@[simp] theorem onParcel_segments (p : Nat) (f : Parcel → Parcel) : (s.onParcel p f).segments = s.segments := rfl
@[simp] theorem onParcel_sets (p : Nat) (f : Parcel → Parcel) : (s.onParcel p f).sets = s.sets := rfl
@[simp] theorem onParcel_invalidates (p : Nat) (f : Parcel → Parcel) : (s.onParcel p f).invalidates = s.invalidates := rfl
@[simp] theorem onParcel_collapses (p : Nat) (f : Parcel → Parcel) : (s.onParcel p f).collapses = s.collapses := rfl
@[simp] theorem onParcel_tests (p : Nat) (f : Parcel → Parcel) : (s.onParcel p f).tests = s.tests := rfl
@[simp] theorem onParcel_heldWalks (p : Nat) (f : Parcel → Parcel) : (s.onParcel p f).heldWalks = s.heldWalks := rfl
@[simp] theorem onParcel_frontWrites (p : Nat) (f : Parcel → Parcel) : (s.onParcel p f).frontWrites = s.frontWrites := rfl
@[simp] theorem onParcel_host (p : Nat) (f : Parcel → Parcel) : (s.onParcel p f).host = s.host := rfl
@[simp] theorem onParcel_link (p : Nat) (f : Parcel → Parcel) : (s.onParcel p f).link = s.link := rfl
@[simp] theorem onParcel_boot (p : Nat) (f : Parcel → Parcel) : (s.onParcel p f).boot = s.boot := rfl
@[simp] theorem onParcel_book (p : Nat) (f : Parcel → Parcel) : (s.onParcel p f).book = s.book := rfl
@[simp] theorem onParcel_debugger (p : Nat) (f : Parcel → Parcel) : (s.onParcel p f).debugger = s.debugger := rfl
@[simp] theorem onParcel_images (p : Nat) (f : Parcel → Parcel) : (s.onParcel p f).images = s.images := rfl

/-! ### `onCore` -/

@[simp] theorem onCore_meridian (p : Nat) (f : Core → Core) : (s.onCore p f).meridian = s.meridian := rfl
@[simp] theorem onCore_tick (p : Nat) (f : Core → Core) : (s.onCore p f).tick = s.tick := rfl
@[simp] theorem onCore_next (p : Nat) (f : Core → Core) : (s.onCore p f).next = s.next := rfl
@[simp] theorem onCore_mem (p : Nat) (f : Core → Core) : (s.onCore p f).mem = s.mem := rfl
@[simp] theorem onCore_deep (p : Nat) (f : Core → Core) : (s.onCore p f).deep = s.deep := rfl
@[simp] theorem onCore_versions (p : Nat) (f : Core → Core) : (s.onCore p f).versions = s.versions := rfl
@[simp] theorem onCore_kept (p : Nat) (f : Core → Core) : (s.onCore p f).kept = s.kept := rfl
@[simp] theorem onCore_holds (p : Nat) (f : Core → Core) : (s.onCore p f).holds = s.holds := rfl
@[simp] theorem onCore_slices (p : Nat) (f : Core → Core) : (s.onCore p f).slices = s.slices := rfl
@[simp] theorem onCore_overlays (p : Nat) (f : Core → Core) : (s.onCore p f).overlays = s.overlays := rfl
@[simp] theorem onCore_reds (p : Nat) (f : Core → Core) : (s.onCore p f).reds = s.reds := rfl
@[simp] theorem onCore_tiles (p : Nat) (f : Core → Core) : (s.onCore p f).tiles = s.tiles := rfl
@[simp] theorem onCore_signals (p : Nat) (f : Core → Core) : (s.onCore p f).signals = s.signals := rfl
@[simp] theorem onCore_publishes (p : Nat) (f : Core → Core) : (s.onCore p f).publishes = s.publishes := rfl
@[simp] theorem onCore_flight (p : Nat) (f : Core → Core) : (s.onCore p f).flight = s.flight := rfl
@[simp] theorem onCore_reports (p : Nat) (f : Core → Core) : (s.onCore p f).reports = s.reports := rfl
@[simp] theorem onCore_lateKicks (p : Nat) (f : Core → Core) : (s.onCore p f).lateKicks = s.lateKicks := rfl
@[simp] theorem onCore_compasses (p : Nat) (f : Core → Core) : (s.onCore p f).compasses = s.compasses := rfl
@[simp] theorem onCore_provinces (p : Nat) (f : Core → Core) : (s.onCore p f).provinces = s.provinces := rfl
@[simp] theorem onCore_regions (p : Nat) (f : Core → Core) : (s.onCore p f).regions = s.regions := rfl
@[simp] theorem onCore_launches (p : Nat) (f : Core → Core) : (s.onCore p f).launches = s.launches := rfl
@[simp] theorem onCore_launchCount (p : Nat) (f : Core → Core) : (s.onCore p f).launchCount = s.launchCount := rfl
@[simp] theorem onCore_decisions (p : Nat) (f : Core → Core) : (s.onCore p f).decisions = s.decisions := rfl
@[simp] theorem onCore_considered (p : Nat) (f : Core → Core) : (s.onCore p f).considered = s.considered := rfl
@[simp] theorem onCore_queues (p : Nat) (f : Core → Core) : (s.onCore p f).queues = s.queues := rfl
@[simp] theorem onCore_stripTurns (p : Nat) (f : Core → Core) : (s.onCore p f).stripTurns = s.stripTurns := rfl
@[simp] theorem onCore_asids (p : Nat) (f : Core → Core) : (s.onCore p f).asids = s.asids := rfl
@[simp] theorem onCore_grants (p : Nat) (f : Core → Core) : (s.onCore p f).grants = s.grants := rfl
@[simp] theorem onCore_dropped (p : Nat) (f : Core → Core) : (s.onCore p f).dropped = s.dropped := rfl
@[simp] theorem onCore_segments (p : Nat) (f : Core → Core) : (s.onCore p f).segments = s.segments := rfl
@[simp] theorem onCore_sets (p : Nat) (f : Core → Core) : (s.onCore p f).sets = s.sets := rfl
@[simp] theorem onCore_invalidates (p : Nat) (f : Core → Core) : (s.onCore p f).invalidates = s.invalidates := rfl
@[simp] theorem onCore_collapses (p : Nat) (f : Core → Core) : (s.onCore p f).collapses = s.collapses := rfl
@[simp] theorem onCore_tests (p : Nat) (f : Core → Core) : (s.onCore p f).tests = s.tests := rfl
@[simp] theorem onCore_heldWalks (p : Nat) (f : Core → Core) : (s.onCore p f).heldWalks = s.heldWalks := rfl
@[simp] theorem onCore_frontWrites (p : Nat) (f : Core → Core) : (s.onCore p f).frontWrites = s.frontWrites := rfl
@[simp] theorem onCore_host (p : Nat) (f : Core → Core) : (s.onCore p f).host = s.host := rfl
@[simp] theorem onCore_link (p : Nat) (f : Core → Core) : (s.onCore p f).link = s.link := rfl
@[simp] theorem onCore_boot (p : Nat) (f : Core → Core) : (s.onCore p f).boot = s.boot := rfl
@[simp] theorem onCore_book (p : Nat) (f : Core → Core) : (s.onCore p f).book = s.book := rfl
@[simp] theorem onCore_debugger (p : Nat) (f : Core → Core) : (s.onCore p f).debugger = s.debugger := rfl
@[simp] theorem onCore_images (p : Nat) (f : Core → Core) : (s.onCore p f).images = s.images := rfl

/-! ### `onCell` -/

@[simp] theorem onCell_meridian (p m : Nat) (f : Cell → Cell) : (s.onCell p m f).meridian = s.meridian := rfl
@[simp] theorem onCell_tick (p m : Nat) (f : Cell → Cell) : (s.onCell p m f).tick = s.tick := rfl
@[simp] theorem onCell_next (p m : Nat) (f : Cell → Cell) : (s.onCell p m f).next = s.next := rfl
@[simp] theorem onCell_mem (p m : Nat) (f : Cell → Cell) : (s.onCell p m f).mem = s.mem := rfl
@[simp] theorem onCell_deep (p m : Nat) (f : Cell → Cell) : (s.onCell p m f).deep = s.deep := rfl
@[simp] theorem onCell_versions (p m : Nat) (f : Cell → Cell) : (s.onCell p m f).versions = s.versions := rfl
@[simp] theorem onCell_kept (p m : Nat) (f : Cell → Cell) : (s.onCell p m f).kept = s.kept := rfl
@[simp] theorem onCell_holds (p m : Nat) (f : Cell → Cell) : (s.onCell p m f).holds = s.holds := rfl
@[simp] theorem onCell_slices (p m : Nat) (f : Cell → Cell) : (s.onCell p m f).slices = s.slices := rfl
@[simp] theorem onCell_overlays (p m : Nat) (f : Cell → Cell) : (s.onCell p m f).overlays = s.overlays := rfl
@[simp] theorem onCell_reds (p m : Nat) (f : Cell → Cell) : (s.onCell p m f).reds = s.reds := rfl
@[simp] theorem onCell_tiles (p m : Nat) (f : Cell → Cell) : (s.onCell p m f).tiles = s.tiles := rfl
@[simp] theorem onCell_signals (p m : Nat) (f : Cell → Cell) : (s.onCell p m f).signals = s.signals := rfl
@[simp] theorem onCell_publishes (p m : Nat) (f : Cell → Cell) : (s.onCell p m f).publishes = s.publishes := rfl
@[simp] theorem onCell_flight (p m : Nat) (f : Cell → Cell) : (s.onCell p m f).flight = s.flight := rfl
@[simp] theorem onCell_reports (p m : Nat) (f : Cell → Cell) : (s.onCell p m f).reports = s.reports := rfl
@[simp] theorem onCell_lateKicks (p m : Nat) (f : Cell → Cell) : (s.onCell p m f).lateKicks = s.lateKicks := rfl
@[simp] theorem onCell_compasses (p m : Nat) (f : Cell → Cell) : (s.onCell p m f).compasses = s.compasses := rfl
@[simp] theorem onCell_provinces (p m : Nat) (f : Cell → Cell) : (s.onCell p m f).provinces = s.provinces := rfl
@[simp] theorem onCell_regions (p m : Nat) (f : Cell → Cell) : (s.onCell p m f).regions = s.regions := rfl
@[simp] theorem onCell_launches (p m : Nat) (f : Cell → Cell) : (s.onCell p m f).launches = s.launches := rfl
@[simp] theorem onCell_launchCount (p m : Nat) (f : Cell → Cell) : (s.onCell p m f).launchCount = s.launchCount := rfl
@[simp] theorem onCell_decisions (p m : Nat) (f : Cell → Cell) : (s.onCell p m f).decisions = s.decisions := rfl
@[simp] theorem onCell_considered (p m : Nat) (f : Cell → Cell) : (s.onCell p m f).considered = s.considered := rfl
@[simp] theorem onCell_queues (p m : Nat) (f : Cell → Cell) : (s.onCell p m f).queues = s.queues := rfl
@[simp] theorem onCell_stripTurns (p m : Nat) (f : Cell → Cell) : (s.onCell p m f).stripTurns = s.stripTurns := rfl
@[simp] theorem onCell_asids (p m : Nat) (f : Cell → Cell) : (s.onCell p m f).asids = s.asids := rfl
@[simp] theorem onCell_grants (p m : Nat) (f : Cell → Cell) : (s.onCell p m f).grants = s.grants := rfl
@[simp] theorem onCell_dropped (p m : Nat) (f : Cell → Cell) : (s.onCell p m f).dropped = s.dropped := rfl
@[simp] theorem onCell_segments (p m : Nat) (f : Cell → Cell) : (s.onCell p m f).segments = s.segments := rfl
@[simp] theorem onCell_sets (p m : Nat) (f : Cell → Cell) : (s.onCell p m f).sets = s.sets := rfl
@[simp] theorem onCell_invalidates (p m : Nat) (f : Cell → Cell) : (s.onCell p m f).invalidates = s.invalidates := rfl
@[simp] theorem onCell_collapses (p m : Nat) (f : Cell → Cell) : (s.onCell p m f).collapses = s.collapses := rfl
@[simp] theorem onCell_tests (p m : Nat) (f : Cell → Cell) : (s.onCell p m f).tests = s.tests := rfl
@[simp] theorem onCell_heldWalks (p m : Nat) (f : Cell → Cell) : (s.onCell p m f).heldWalks = s.heldWalks := rfl
@[simp] theorem onCell_frontWrites (p m : Nat) (f : Cell → Cell) : (s.onCell p m f).frontWrites = s.frontWrites := rfl
@[simp] theorem onCell_host (p m : Nat) (f : Cell → Cell) : (s.onCell p m f).host = s.host := rfl
@[simp] theorem onCell_link (p m : Nat) (f : Cell → Cell) : (s.onCell p m f).link = s.link := rfl
@[simp] theorem onCell_boot (p m : Nat) (f : Cell → Cell) : (s.onCell p m f).boot = s.boot := rfl
@[simp] theorem onCell_book (p m : Nat) (f : Cell → Cell) : (s.onCell p m f).book = s.book := rfl
@[simp] theorem onCell_debugger (p m : Nat) (f : Cell → Cell) : (s.onCell p m f).debugger = s.debugger := rfl
@[simp] theorem onCell_images (p m : Nat) (f : Cell → Cell) : (s.onCell p m f).images = s.images := rfl

/-! ### `onRegion` -/

@[simp] theorem onRegion_meridian (o : Nat) (f : Region → Region) : (s.onRegion o f).meridian = s.meridian := rfl
@[simp] theorem onRegion_tick (o : Nat) (f : Region → Region) : (s.onRegion o f).tick = s.tick := rfl
@[simp] theorem onRegion_next (o : Nat) (f : Region → Region) : (s.onRegion o f).next = s.next := rfl
@[simp] theorem onRegion_mem (o : Nat) (f : Region → Region) : (s.onRegion o f).mem = s.mem := rfl
@[simp] theorem onRegion_deep (o : Nat) (f : Region → Region) : (s.onRegion o f).deep = s.deep := rfl
@[simp] theorem onRegion_versions (o : Nat) (f : Region → Region) : (s.onRegion o f).versions = s.versions := rfl
@[simp] theorem onRegion_kept (o : Nat) (f : Region → Region) : (s.onRegion o f).kept = s.kept := rfl
@[simp] theorem onRegion_holds (o : Nat) (f : Region → Region) : (s.onRegion o f).holds = s.holds := rfl
@[simp] theorem onRegion_slices (o : Nat) (f : Region → Region) : (s.onRegion o f).slices = s.slices := rfl
@[simp] theorem onRegion_overlays (o : Nat) (f : Region → Region) : (s.onRegion o f).overlays = s.overlays := rfl
@[simp] theorem onRegion_reds (o : Nat) (f : Region → Region) : (s.onRegion o f).reds = s.reds := rfl
@[simp] theorem onRegion_tiles (o : Nat) (f : Region → Region) : (s.onRegion o f).tiles = s.tiles := rfl
@[simp] theorem onRegion_signals (o : Nat) (f : Region → Region) : (s.onRegion o f).signals = s.signals := rfl
@[simp] theorem onRegion_publishes (o : Nat) (f : Region → Region) : (s.onRegion o f).publishes = s.publishes := rfl
@[simp] theorem onRegion_flight (o : Nat) (f : Region → Region) : (s.onRegion o f).flight = s.flight := rfl
@[simp] theorem onRegion_reports (o : Nat) (f : Region → Region) : (s.onRegion o f).reports = s.reports := rfl
@[simp] theorem onRegion_lateKicks (o : Nat) (f : Region → Region) : (s.onRegion o f).lateKicks = s.lateKicks := rfl
@[simp] theorem onRegion_parcels (o : Nat) (f : Region → Region) : (s.onRegion o f).parcels = s.parcels := rfl
@[simp] theorem onRegion_compasses (o : Nat) (f : Region → Region) : (s.onRegion o f).compasses = s.compasses := rfl
@[simp] theorem onRegion_provinces (o : Nat) (f : Region → Region) : (s.onRegion o f).provinces = s.provinces := rfl
@[simp] theorem onRegion_launches (o : Nat) (f : Region → Region) : (s.onRegion o f).launches = s.launches := rfl
@[simp] theorem onRegion_launchCount (o : Nat) (f : Region → Region) : (s.onRegion o f).launchCount = s.launchCount := rfl
@[simp] theorem onRegion_decisions (o : Nat) (f : Region → Region) : (s.onRegion o f).decisions = s.decisions := rfl
@[simp] theorem onRegion_considered (o : Nat) (f : Region → Region) : (s.onRegion o f).considered = s.considered := rfl
@[simp] theorem onRegion_queues (o : Nat) (f : Region → Region) : (s.onRegion o f).queues = s.queues := rfl
@[simp] theorem onRegion_stripTurns (o : Nat) (f : Region → Region) : (s.onRegion o f).stripTurns = s.stripTurns := rfl
@[simp] theorem onRegion_asids (o : Nat) (f : Region → Region) : (s.onRegion o f).asids = s.asids := rfl
@[simp] theorem onRegion_grants (o : Nat) (f : Region → Region) : (s.onRegion o f).grants = s.grants := rfl
@[simp] theorem onRegion_dropped (o : Nat) (f : Region → Region) : (s.onRegion o f).dropped = s.dropped := rfl
@[simp] theorem onRegion_segments (o : Nat) (f : Region → Region) : (s.onRegion o f).segments = s.segments := rfl
@[simp] theorem onRegion_sets (o : Nat) (f : Region → Region) : (s.onRegion o f).sets = s.sets := rfl
@[simp] theorem onRegion_invalidates (o : Nat) (f : Region → Region) : (s.onRegion o f).invalidates = s.invalidates := rfl
@[simp] theorem onRegion_collapses (o : Nat) (f : Region → Region) : (s.onRegion o f).collapses = s.collapses := rfl
@[simp] theorem onRegion_tests (o : Nat) (f : Region → Region) : (s.onRegion o f).tests = s.tests := rfl
@[simp] theorem onRegion_heldWalks (o : Nat) (f : Region → Region) : (s.onRegion o f).heldWalks = s.heldWalks := rfl
@[simp] theorem onRegion_frontWrites (o : Nat) (f : Region → Region) : (s.onRegion o f).frontWrites = s.frontWrites := rfl
@[simp] theorem onRegion_host (o : Nat) (f : Region → Region) : (s.onRegion o f).host = s.host := rfl
@[simp] theorem onRegion_link (o : Nat) (f : Region → Region) : (s.onRegion o f).link = s.link := rfl
@[simp] theorem onRegion_boot (o : Nat) (f : Region → Region) : (s.onRegion o f).boot = s.boot := rfl
@[simp] theorem onRegion_book (o : Nat) (f : Region → Region) : (s.onRegion o f).book = s.book := rfl
@[simp] theorem onRegion_debugger (o : Nat) (f : Region → Region) : (s.onRegion o f).debugger = s.debugger := rfl
@[simp] theorem onRegion_images (o : Nat) (f : Region → Region) : (s.onRegion o f).images = s.images := rfl

/-! ### `setBuffer` -/

@[simp] theorem setBuffer_meridian (p h : Nat) (b : BitVec 128) : (s.setBuffer p h b).meridian = s.meridian := rfl
@[simp] theorem setBuffer_tick (p h : Nat) (b : BitVec 128) : (s.setBuffer p h b).tick = s.tick := rfl
@[simp] theorem setBuffer_next (p h : Nat) (b : BitVec 128) : (s.setBuffer p h b).next = s.next := rfl
@[simp] theorem setBuffer_mem (p h : Nat) (b : BitVec 128) : (s.setBuffer p h b).mem = s.mem := rfl
@[simp] theorem setBuffer_deep (p h : Nat) (b : BitVec 128) : (s.setBuffer p h b).deep = s.deep := rfl
@[simp] theorem setBuffer_versions (p h : Nat) (b : BitVec 128) : (s.setBuffer p h b).versions = s.versions := rfl
@[simp] theorem setBuffer_kept (p h : Nat) (b : BitVec 128) : (s.setBuffer p h b).kept = s.kept := rfl
@[simp] theorem setBuffer_holds (p h : Nat) (b : BitVec 128) : (s.setBuffer p h b).holds = s.holds := rfl
@[simp] theorem setBuffer_slices (p h : Nat) (b : BitVec 128) : (s.setBuffer p h b).slices = s.slices := rfl
@[simp] theorem setBuffer_overlays (p h : Nat) (b : BitVec 128) : (s.setBuffer p h b).overlays = s.overlays := rfl
@[simp] theorem setBuffer_reds (p h : Nat) (b : BitVec 128) : (s.setBuffer p h b).reds = s.reds := rfl
@[simp] theorem setBuffer_tiles (p h : Nat) (b : BitVec 128) : (s.setBuffer p h b).tiles = s.tiles := rfl
@[simp] theorem setBuffer_signals (p h : Nat) (b : BitVec 128) : (s.setBuffer p h b).signals = s.signals := rfl
@[simp] theorem setBuffer_publishes (p h : Nat) (b : BitVec 128) : (s.setBuffer p h b).publishes = s.publishes := rfl
@[simp] theorem setBuffer_flight (p h : Nat) (b : BitVec 128) : (s.setBuffer p h b).flight = s.flight := rfl
@[simp] theorem setBuffer_reports (p h : Nat) (b : BitVec 128) : (s.setBuffer p h b).reports = s.reports := rfl
@[simp] theorem setBuffer_lateKicks (p h : Nat) (b : BitVec 128) : (s.setBuffer p h b).lateKicks = s.lateKicks := rfl
@[simp] theorem setBuffer_compasses (p h : Nat) (b : BitVec 128) : (s.setBuffer p h b).compasses = s.compasses := rfl
@[simp] theorem setBuffer_provinces (p h : Nat) (b : BitVec 128) : (s.setBuffer p h b).provinces = s.provinces := rfl
@[simp] theorem setBuffer_regions (p h : Nat) (b : BitVec 128) : (s.setBuffer p h b).regions = s.regions := rfl
@[simp] theorem setBuffer_launches (p h : Nat) (b : BitVec 128) : (s.setBuffer p h b).launches = s.launches := rfl
@[simp] theorem setBuffer_launchCount (p h : Nat) (b : BitVec 128) : (s.setBuffer p h b).launchCount = s.launchCount := rfl
@[simp] theorem setBuffer_decisions (p h : Nat) (b : BitVec 128) : (s.setBuffer p h b).decisions = s.decisions := rfl
@[simp] theorem setBuffer_considered (p h : Nat) (b : BitVec 128) : (s.setBuffer p h b).considered = s.considered := rfl
@[simp] theorem setBuffer_queues (p h : Nat) (b : BitVec 128) : (s.setBuffer p h b).queues = s.queues := rfl
@[simp] theorem setBuffer_stripTurns (p h : Nat) (b : BitVec 128) : (s.setBuffer p h b).stripTurns = s.stripTurns := rfl
@[simp] theorem setBuffer_asids (p h : Nat) (b : BitVec 128) : (s.setBuffer p h b).asids = s.asids := rfl
@[simp] theorem setBuffer_grants (p h : Nat) (b : BitVec 128) : (s.setBuffer p h b).grants = s.grants := rfl
@[simp] theorem setBuffer_dropped (p h : Nat) (b : BitVec 128) : (s.setBuffer p h b).dropped = s.dropped := rfl
@[simp] theorem setBuffer_segments (p h : Nat) (b : BitVec 128) : (s.setBuffer p h b).segments = s.segments := rfl
@[simp] theorem setBuffer_sets (p h : Nat) (b : BitVec 128) : (s.setBuffer p h b).sets = s.sets := rfl
@[simp] theorem setBuffer_invalidates (p h : Nat) (b : BitVec 128) : (s.setBuffer p h b).invalidates = s.invalidates := rfl
@[simp] theorem setBuffer_collapses (p h : Nat) (b : BitVec 128) : (s.setBuffer p h b).collapses = s.collapses := rfl
@[simp] theorem setBuffer_tests (p h : Nat) (b : BitVec 128) : (s.setBuffer p h b).tests = s.tests := rfl
@[simp] theorem setBuffer_heldWalks (p h : Nat) (b : BitVec 128) : (s.setBuffer p h b).heldWalks = s.heldWalks := rfl
@[simp] theorem setBuffer_frontWrites (p h : Nat) (b : BitVec 128) : (s.setBuffer p h b).frontWrites = s.frontWrites := rfl
@[simp] theorem setBuffer_host (p h : Nat) (b : BitVec 128) : (s.setBuffer p h b).host = s.host := rfl
@[simp] theorem setBuffer_link (p h : Nat) (b : BitVec 128) : (s.setBuffer p h b).link = s.link := rfl
@[simp] theorem setBuffer_boot (p h : Nat) (b : BitVec 128) : (s.setBuffer p h b).boot = s.boot := rfl
@[simp] theorem setBuffer_book (p h : Nat) (b : BitVec 128) : (s.setBuffer p h b).book = s.book := rfl
@[simp] theorem setBuffer_debugger (p h : Nat) (b : BitVec 128) : (s.setBuffer p h b).debugger = s.debugger := rfl
@[simp] theorem setBuffer_images (p h : Nat) (b : BitVec 128) : (s.setBuffer p h b).images = s.images := rfl

/-! ### `setStation` -/

@[simp] theorem setStation_meridian (p n : Nat) (b : BitVec 128) : (s.setStation p n b).meridian = s.meridian := rfl
@[simp] theorem setStation_tick (p n : Nat) (b : BitVec 128) : (s.setStation p n b).tick = s.tick := rfl
@[simp] theorem setStation_next (p n : Nat) (b : BitVec 128) : (s.setStation p n b).next = s.next := rfl
@[simp] theorem setStation_mem (p n : Nat) (b : BitVec 128) : (s.setStation p n b).mem = s.mem := rfl
@[simp] theorem setStation_deep (p n : Nat) (b : BitVec 128) : (s.setStation p n b).deep = s.deep := rfl
@[simp] theorem setStation_versions (p n : Nat) (b : BitVec 128) : (s.setStation p n b).versions = s.versions := rfl
@[simp] theorem setStation_kept (p n : Nat) (b : BitVec 128) : (s.setStation p n b).kept = s.kept := rfl
@[simp] theorem setStation_holds (p n : Nat) (b : BitVec 128) : (s.setStation p n b).holds = s.holds := rfl
@[simp] theorem setStation_slices (p n : Nat) (b : BitVec 128) : (s.setStation p n b).slices = s.slices := rfl
@[simp] theorem setStation_overlays (p n : Nat) (b : BitVec 128) : (s.setStation p n b).overlays = s.overlays := rfl
@[simp] theorem setStation_reds (p n : Nat) (b : BitVec 128) : (s.setStation p n b).reds = s.reds := rfl
@[simp] theorem setStation_tiles (p n : Nat) (b : BitVec 128) : (s.setStation p n b).tiles = s.tiles := rfl
@[simp] theorem setStation_signals (p n : Nat) (b : BitVec 128) : (s.setStation p n b).signals = s.signals := rfl
@[simp] theorem setStation_publishes (p n : Nat) (b : BitVec 128) : (s.setStation p n b).publishes = s.publishes := rfl
@[simp] theorem setStation_flight (p n : Nat) (b : BitVec 128) : (s.setStation p n b).flight = s.flight := rfl
@[simp] theorem setStation_reports (p n : Nat) (b : BitVec 128) : (s.setStation p n b).reports = s.reports := rfl
@[simp] theorem setStation_lateKicks (p n : Nat) (b : BitVec 128) : (s.setStation p n b).lateKicks = s.lateKicks := rfl
@[simp] theorem setStation_compasses (p n : Nat) (b : BitVec 128) : (s.setStation p n b).compasses = s.compasses := rfl
@[simp] theorem setStation_provinces (p n : Nat) (b : BitVec 128) : (s.setStation p n b).provinces = s.provinces := rfl
@[simp] theorem setStation_regions (p n : Nat) (b : BitVec 128) : (s.setStation p n b).regions = s.regions := rfl
@[simp] theorem setStation_launches (p n : Nat) (b : BitVec 128) : (s.setStation p n b).launches = s.launches := rfl
@[simp] theorem setStation_launchCount (p n : Nat) (b : BitVec 128) : (s.setStation p n b).launchCount = s.launchCount := rfl
@[simp] theorem setStation_decisions (p n : Nat) (b : BitVec 128) : (s.setStation p n b).decisions = s.decisions := rfl
@[simp] theorem setStation_considered (p n : Nat) (b : BitVec 128) : (s.setStation p n b).considered = s.considered := rfl
@[simp] theorem setStation_queues (p n : Nat) (b : BitVec 128) : (s.setStation p n b).queues = s.queues := rfl
@[simp] theorem setStation_stripTurns (p n : Nat) (b : BitVec 128) : (s.setStation p n b).stripTurns = s.stripTurns := rfl
@[simp] theorem setStation_asids (p n : Nat) (b : BitVec 128) : (s.setStation p n b).asids = s.asids := rfl
@[simp] theorem setStation_grants (p n : Nat) (b : BitVec 128) : (s.setStation p n b).grants = s.grants := rfl
@[simp] theorem setStation_dropped (p n : Nat) (b : BitVec 128) : (s.setStation p n b).dropped = s.dropped := rfl
@[simp] theorem setStation_segments (p n : Nat) (b : BitVec 128) : (s.setStation p n b).segments = s.segments := rfl
@[simp] theorem setStation_sets (p n : Nat) (b : BitVec 128) : (s.setStation p n b).sets = s.sets := rfl
@[simp] theorem setStation_invalidates (p n : Nat) (b : BitVec 128) : (s.setStation p n b).invalidates = s.invalidates := rfl
@[simp] theorem setStation_collapses (p n : Nat) (b : BitVec 128) : (s.setStation p n b).collapses = s.collapses := rfl
@[simp] theorem setStation_tests (p n : Nat) (b : BitVec 128) : (s.setStation p n b).tests = s.tests := rfl
@[simp] theorem setStation_heldWalks (p n : Nat) (b : BitVec 128) : (s.setStation p n b).heldWalks = s.heldWalks := rfl
@[simp] theorem setStation_frontWrites (p n : Nat) (b : BitVec 128) : (s.setStation p n b).frontWrites = s.frontWrites := rfl
@[simp] theorem setStation_host (p n : Nat) (b : BitVec 128) : (s.setStation p n b).host = s.host := rfl
@[simp] theorem setStation_link (p n : Nat) (b : BitVec 128) : (s.setStation p n b).link = s.link := rfl
@[simp] theorem setStation_boot (p n : Nat) (b : BitVec 128) : (s.setStation p n b).boot = s.boot := rfl
@[simp] theorem setStation_book (p n : Nat) (b : BitVec 128) : (s.setStation p n b).book = s.book := rfl
@[simp] theorem setStation_debugger (p n : Nat) (b : BitVec 128) : (s.setStation p n b).debugger = s.debugger := rfl
@[simp] theorem setStation_images (p n : Nat) (b : BitVec 128) : (s.setStation p n b).images = s.images := rfl

/-! ### `setLine` -/

@[simp] theorem setLine_meridian (k x : Nat) (l : Line) : (s.setLine k x l).meridian = s.meridian := rfl
@[simp] theorem setLine_tick (k x : Nat) (l : Line) : (s.setLine k x l).tick = s.tick := rfl
@[simp] theorem setLine_next (k x : Nat) (l : Line) : (s.setLine k x l).next = s.next := rfl
@[simp] theorem setLine_mem (k x : Nat) (l : Line) : (s.setLine k x l).mem = s.mem := rfl
@[simp] theorem setLine_deep (k x : Nat) (l : Line) : (s.setLine k x l).deep = s.deep := rfl
@[simp] theorem setLine_versions (k x : Nat) (l : Line) : (s.setLine k x l).versions = s.versions := rfl
@[simp] theorem setLine_kept (k x : Nat) (l : Line) : (s.setLine k x l).kept = s.kept := rfl
@[simp] theorem setLine_holds (k x : Nat) (l : Line) : (s.setLine k x l).holds = s.holds := rfl
@[simp] theorem setLine_overlays (k x : Nat) (l : Line) : (s.setLine k x l).overlays = s.overlays := rfl
@[simp] theorem setLine_reds (k x : Nat) (l : Line) : (s.setLine k x l).reds = s.reds := rfl
@[simp] theorem setLine_tiles (k x : Nat) (l : Line) : (s.setLine k x l).tiles = s.tiles := rfl
@[simp] theorem setLine_signals (k x : Nat) (l : Line) : (s.setLine k x l).signals = s.signals := rfl
@[simp] theorem setLine_publishes (k x : Nat) (l : Line) : (s.setLine k x l).publishes = s.publishes := rfl
@[simp] theorem setLine_flight (k x : Nat) (l : Line) : (s.setLine k x l).flight = s.flight := rfl
@[simp] theorem setLine_reports (k x : Nat) (l : Line) : (s.setLine k x l).reports = s.reports := rfl
@[simp] theorem setLine_lateKicks (k x : Nat) (l : Line) : (s.setLine k x l).lateKicks = s.lateKicks := rfl
@[simp] theorem setLine_parcels (k x : Nat) (l : Line) : (s.setLine k x l).parcels = s.parcels := rfl
@[simp] theorem setLine_compasses (k x : Nat) (l : Line) : (s.setLine k x l).compasses = s.compasses := rfl
@[simp] theorem setLine_provinces (k x : Nat) (l : Line) : (s.setLine k x l).provinces = s.provinces := rfl
@[simp] theorem setLine_regions (k x : Nat) (l : Line) : (s.setLine k x l).regions = s.regions := rfl
@[simp] theorem setLine_launches (k x : Nat) (l : Line) : (s.setLine k x l).launches = s.launches := rfl
@[simp] theorem setLine_launchCount (k x : Nat) (l : Line) : (s.setLine k x l).launchCount = s.launchCount := rfl
@[simp] theorem setLine_decisions (k x : Nat) (l : Line) : (s.setLine k x l).decisions = s.decisions := rfl
@[simp] theorem setLine_considered (k x : Nat) (l : Line) : (s.setLine k x l).considered = s.considered := rfl
@[simp] theorem setLine_queues (k x : Nat) (l : Line) : (s.setLine k x l).queues = s.queues := rfl
@[simp] theorem setLine_stripTurns (k x : Nat) (l : Line) : (s.setLine k x l).stripTurns = s.stripTurns := rfl
@[simp] theorem setLine_asids (k x : Nat) (l : Line) : (s.setLine k x l).asids = s.asids := rfl
@[simp] theorem setLine_grants (k x : Nat) (l : Line) : (s.setLine k x l).grants = s.grants := rfl
@[simp] theorem setLine_dropped (k x : Nat) (l : Line) : (s.setLine k x l).dropped = s.dropped := rfl
@[simp] theorem setLine_segments (k x : Nat) (l : Line) : (s.setLine k x l).segments = s.segments := rfl
@[simp] theorem setLine_sets (k x : Nat) (l : Line) : (s.setLine k x l).sets = s.sets := rfl
@[simp] theorem setLine_invalidates (k x : Nat) (l : Line) : (s.setLine k x l).invalidates = s.invalidates := rfl
@[simp] theorem setLine_collapses (k x : Nat) (l : Line) : (s.setLine k x l).collapses = s.collapses := rfl
@[simp] theorem setLine_tests (k x : Nat) (l : Line) : (s.setLine k x l).tests = s.tests := rfl
@[simp] theorem setLine_heldWalks (k x : Nat) (l : Line) : (s.setLine k x l).heldWalks = s.heldWalks := rfl
@[simp] theorem setLine_frontWrites (k x : Nat) (l : Line) : (s.setLine k x l).frontWrites = s.frontWrites := rfl
@[simp] theorem setLine_host (k x : Nat) (l : Line) : (s.setLine k x l).host = s.host := rfl
@[simp] theorem setLine_link (k x : Nat) (l : Line) : (s.setLine k x l).link = s.link := rfl
@[simp] theorem setLine_boot (k x : Nat) (l : Line) : (s.setLine k x l).boot = s.boot := rfl
@[simp] theorem setLine_book (k x : Nat) (l : Line) : (s.setLine k x l).book = s.book := rfl
@[simp] theorem setLine_debugger (k x : Nat) (l : Line) : (s.setLine k x l).debugger = s.debugger := rfl
@[simp] theorem setLine_images (k x : Nat) (l : Line) : (s.setLine k x l).images = s.images := rfl

/-! ### `log` -/

@[simp] theorem log_meridian (k : Nat) (c : Byte) (p : Nat) (a : BitVec 14) (v : Word) : (s.log k c p a v).meridian = s.meridian := rfl
@[simp] theorem log_tick (k : Nat) (c : Byte) (p : Nat) (a : BitVec 14) (v : Word) : (s.log k c p a v).tick = s.tick := rfl
@[simp] theorem log_next (k : Nat) (c : Byte) (p : Nat) (a : BitVec 14) (v : Word) : (s.log k c p a v).next = s.next := rfl
@[simp] theorem log_mem (k : Nat) (c : Byte) (p : Nat) (a : BitVec 14) (v : Word) : (s.log k c p a v).mem = s.mem := rfl
@[simp] theorem log_deep (k : Nat) (c : Byte) (p : Nat) (a : BitVec 14) (v : Word) : (s.log k c p a v).deep = s.deep := rfl
@[simp] theorem log_versions (k : Nat) (c : Byte) (p : Nat) (a : BitVec 14) (v : Word) : (s.log k c p a v).versions = s.versions := rfl
@[simp] theorem log_kept (k : Nat) (c : Byte) (p : Nat) (a : BitVec 14) (v : Word) : (s.log k c p a v).kept = s.kept := rfl
@[simp] theorem log_holds (k : Nat) (c : Byte) (p : Nat) (a : BitVec 14) (v : Word) : (s.log k c p a v).holds = s.holds := rfl
@[simp] theorem log_slices (k : Nat) (c : Byte) (p : Nat) (a : BitVec 14) (v : Word) : (s.log k c p a v).slices = s.slices := rfl
@[simp] theorem log_overlays (k : Nat) (c : Byte) (p : Nat) (a : BitVec 14) (v : Word) : (s.log k c p a v).overlays = s.overlays := rfl
@[simp] theorem log_reds (k : Nat) (c : Byte) (p : Nat) (a : BitVec 14) (v : Word) : (s.log k c p a v).reds = s.reds := rfl
@[simp] theorem log_tiles (k : Nat) (c : Byte) (p : Nat) (a : BitVec 14) (v : Word) : (s.log k c p a v).tiles = s.tiles := rfl
@[simp] theorem log_signals (k : Nat) (c : Byte) (p : Nat) (a : BitVec 14) (v : Word) : (s.log k c p a v).signals = s.signals := rfl
@[simp] theorem log_publishes (k : Nat) (c : Byte) (p : Nat) (a : BitVec 14) (v : Word) : (s.log k c p a v).publishes = s.publishes := rfl
@[simp] theorem log_flight (k : Nat) (c : Byte) (p : Nat) (a : BitVec 14) (v : Word) : (s.log k c p a v).flight = s.flight := rfl
@[simp] theorem log_reports (k : Nat) (c : Byte) (p : Nat) (a : BitVec 14) (v : Word) : (s.log k c p a v).reports = s.reports := rfl
@[simp] theorem log_lateKicks (k : Nat) (c : Byte) (p : Nat) (a : BitVec 14) (v : Word) : (s.log k c p a v).lateKicks = s.lateKicks := rfl
@[simp] theorem log_parcels (k : Nat) (c : Byte) (p : Nat) (a : BitVec 14) (v : Word) : (s.log k c p a v).parcels = s.parcels := rfl
@[simp] theorem log_compasses (k : Nat) (c : Byte) (p : Nat) (a : BitVec 14) (v : Word) : (s.log k c p a v).compasses = s.compasses := rfl
@[simp] theorem log_provinces (k : Nat) (c : Byte) (p : Nat) (a : BitVec 14) (v : Word) : (s.log k c p a v).provinces = s.provinces := rfl
@[simp] theorem log_regions (k : Nat) (c : Byte) (p : Nat) (a : BitVec 14) (v : Word) : (s.log k c p a v).regions = s.regions := rfl
@[simp] theorem log_launches (k : Nat) (c : Byte) (p : Nat) (a : BitVec 14) (v : Word) : (s.log k c p a v).launches = s.launches := rfl
@[simp] theorem log_launchCount (k : Nat) (c : Byte) (p : Nat) (a : BitVec 14) (v : Word) : (s.log k c p a v).launchCount = s.launchCount := rfl
@[simp] theorem log_decisions (k : Nat) (c : Byte) (p : Nat) (a : BitVec 14) (v : Word) : (s.log k c p a v).decisions = s.decisions := rfl
@[simp] theorem log_considered (k : Nat) (c : Byte) (p : Nat) (a : BitVec 14) (v : Word) : (s.log k c p a v).considered = s.considered := rfl
@[simp] theorem log_queues (k : Nat) (c : Byte) (p : Nat) (a : BitVec 14) (v : Word) : (s.log k c p a v).queues = s.queues := rfl
@[simp] theorem log_stripTurns (k : Nat) (c : Byte) (p : Nat) (a : BitVec 14) (v : Word) : (s.log k c p a v).stripTurns = s.stripTurns := rfl
@[simp] theorem log_asids (k : Nat) (c : Byte) (p : Nat) (a : BitVec 14) (v : Word) : (s.log k c p a v).asids = s.asids := rfl
@[simp] theorem log_grants (k : Nat) (c : Byte) (p : Nat) (a : BitVec 14) (v : Word) : (s.log k c p a v).grants = s.grants := rfl
@[simp] theorem log_dropped (k : Nat) (c : Byte) (p : Nat) (a : BitVec 14) (v : Word) : (s.log k c p a v).dropped = s.dropped := rfl
@[simp] theorem log_segments (k : Nat) (c : Byte) (p : Nat) (a : BitVec 14) (v : Word) : (s.log k c p a v).segments = s.segments := rfl
@[simp] theorem log_sets (k : Nat) (c : Byte) (p : Nat) (a : BitVec 14) (v : Word) : (s.log k c p a v).sets = s.sets := rfl
@[simp] theorem log_invalidates (k : Nat) (c : Byte) (p : Nat) (a : BitVec 14) (v : Word) : (s.log k c p a v).invalidates = s.invalidates := rfl
@[simp] theorem log_collapses (k : Nat) (c : Byte) (p : Nat) (a : BitVec 14) (v : Word) : (s.log k c p a v).collapses = s.collapses := rfl
@[simp] theorem log_tests (k : Nat) (c : Byte) (p : Nat) (a : BitVec 14) (v : Word) : (s.log k c p a v).tests = s.tests := rfl
@[simp] theorem log_heldWalks (k : Nat) (c : Byte) (p : Nat) (a : BitVec 14) (v : Word) : (s.log k c p a v).heldWalks = s.heldWalks := rfl
@[simp] theorem log_frontWrites (k : Nat) (c : Byte) (p : Nat) (a : BitVec 14) (v : Word) : (s.log k c p a v).frontWrites = s.frontWrites := rfl
@[simp] theorem log_host (k : Nat) (c : Byte) (p : Nat) (a : BitVec 14) (v : Word) : (s.log k c p a v).host = s.host := rfl
@[simp] theorem log_link (k : Nat) (c : Byte) (p : Nat) (a : BitVec 14) (v : Word) : (s.log k c p a v).link = s.link := rfl
@[simp] theorem log_boot (k : Nat) (c : Byte) (p : Nat) (a : BitVec 14) (v : Word) : (s.log k c p a v).boot = s.boot := rfl
@[simp] theorem log_debugger (k : Nat) (c : Byte) (p : Nat) (a : BitVec 14) (v : Word) : (s.log k c p a v).debugger = s.debugger := rfl
@[simp] theorem log_images (k : Nat) (c : Byte) (p : Nat) (a : BitVec 14) (v : Word) : (s.log k c p a v).images = s.images := rfl

/-! ### `post` -/

@[simp] theorem post_meridian (d c : Nat) (two : Bool) (v w : Word) : (s.post d c two v w).meridian = s.meridian := rfl
@[simp] theorem post_tick (d c : Nat) (two : Bool) (v w : Word) : (s.post d c two v w).tick = s.tick := rfl
@[simp] theorem post_next (d c : Nat) (two : Bool) (v w : Word) : (s.post d c two v w).next = s.next := rfl
@[simp] theorem post_mem (d c : Nat) (two : Bool) (v w : Word) : (s.post d c two v w).mem = s.mem := rfl
@[simp] theorem post_deep (d c : Nat) (two : Bool) (v w : Word) : (s.post d c two v w).deep = s.deep := rfl
@[simp] theorem post_versions (d c : Nat) (two : Bool) (v w : Word) : (s.post d c two v w).versions = s.versions := rfl
@[simp] theorem post_kept (d c : Nat) (two : Bool) (v w : Word) : (s.post d c two v w).kept = s.kept := rfl
@[simp] theorem post_holds (d c : Nat) (two : Bool) (v w : Word) : (s.post d c two v w).holds = s.holds := rfl
@[simp] theorem post_slices (d c : Nat) (two : Bool) (v w : Word) : (s.post d c two v w).slices = s.slices := rfl
@[simp] theorem post_overlays (d c : Nat) (two : Bool) (v w : Word) : (s.post d c two v w).overlays = s.overlays := rfl
@[simp] theorem post_reds (d c : Nat) (two : Bool) (v w : Word) : (s.post d c two v w).reds = s.reds := rfl
@[simp] theorem post_tiles (d c : Nat) (two : Bool) (v w : Word) : (s.post d c two v w).tiles = s.tiles := rfl
@[simp] theorem post_signals (d c : Nat) (two : Bool) (v w : Word) : (s.post d c two v w).signals = s.signals := rfl
@[simp] theorem post_publishes (d c : Nat) (two : Bool) (v w : Word) : (s.post d c two v w).publishes = s.publishes := rfl
@[simp] theorem post_reports (d c : Nat) (two : Bool) (v w : Word) : (s.post d c two v w).reports = s.reports := rfl
@[simp] theorem post_lateKicks (d c : Nat) (two : Bool) (v w : Word) : (s.post d c two v w).lateKicks = s.lateKicks := rfl
@[simp] theorem post_parcels (d c : Nat) (two : Bool) (v w : Word) : (s.post d c two v w).parcels = s.parcels := rfl
@[simp] theorem post_compasses (d c : Nat) (two : Bool) (v w : Word) : (s.post d c two v w).compasses = s.compasses := rfl
@[simp] theorem post_provinces (d c : Nat) (two : Bool) (v w : Word) : (s.post d c two v w).provinces = s.provinces := rfl
@[simp] theorem post_regions (d c : Nat) (two : Bool) (v w : Word) : (s.post d c two v w).regions = s.regions := rfl
@[simp] theorem post_launches (d c : Nat) (two : Bool) (v w : Word) : (s.post d c two v w).launches = s.launches := rfl
@[simp] theorem post_launchCount (d c : Nat) (two : Bool) (v w : Word) : (s.post d c two v w).launchCount = s.launchCount := rfl
@[simp] theorem post_decisions (d c : Nat) (two : Bool) (v w : Word) : (s.post d c two v w).decisions = s.decisions := rfl
@[simp] theorem post_considered (d c : Nat) (two : Bool) (v w : Word) : (s.post d c two v w).considered = s.considered := rfl
@[simp] theorem post_queues (d c : Nat) (two : Bool) (v w : Word) : (s.post d c two v w).queues = s.queues := rfl
@[simp] theorem post_stripTurns (d c : Nat) (two : Bool) (v w : Word) : (s.post d c two v w).stripTurns = s.stripTurns := rfl
@[simp] theorem post_asids (d c : Nat) (two : Bool) (v w : Word) : (s.post d c two v w).asids = s.asids := rfl
@[simp] theorem post_grants (d c : Nat) (two : Bool) (v w : Word) : (s.post d c two v w).grants = s.grants := rfl
@[simp] theorem post_dropped (d c : Nat) (two : Bool) (v w : Word) : (s.post d c two v w).dropped = s.dropped := rfl
@[simp] theorem post_segments (d c : Nat) (two : Bool) (v w : Word) : (s.post d c two v w).segments = s.segments := rfl
@[simp] theorem post_sets (d c : Nat) (two : Bool) (v w : Word) : (s.post d c two v w).sets = s.sets := rfl
@[simp] theorem post_invalidates (d c : Nat) (two : Bool) (v w : Word) : (s.post d c two v w).invalidates = s.invalidates := rfl
@[simp] theorem post_collapses (d c : Nat) (two : Bool) (v w : Word) : (s.post d c two v w).collapses = s.collapses := rfl
@[simp] theorem post_tests (d c : Nat) (two : Bool) (v w : Word) : (s.post d c two v w).tests = s.tests := rfl
@[simp] theorem post_heldWalks (d c : Nat) (two : Bool) (v w : Word) : (s.post d c two v w).heldWalks = s.heldWalks := rfl
@[simp] theorem post_frontWrites (d c : Nat) (two : Bool) (v w : Word) : (s.post d c two v w).frontWrites = s.frontWrites := rfl
@[simp] theorem post_host (d c : Nat) (two : Bool) (v w : Word) : (s.post d c two v w).host = s.host := rfl
@[simp] theorem post_link (d c : Nat) (two : Bool) (v w : Word) : (s.post d c two v w).link = s.link := rfl
@[simp] theorem post_boot (d c : Nat) (two : Bool) (v w : Word) : (s.post d c two v w).boot = s.boot := rfl
@[simp] theorem post_book (d c : Nat) (two : Bool) (v w : Word) : (s.post d c two v w).book = s.book := rfl
@[simp] theorem post_debugger (d c : Nat) (two : Bool) (v w : Word) : (s.post d c two v w).debugger = s.debugger := rfl
@[simp] theorem post_images (d c : Nat) (two : Bool) (v w : Word) : (s.post d c two v w).images = s.images := rfl

/-! ### `writeReg` -/

@[simp] theorem writeReg_meridian (rd : Reg) (v : Word) : (s.writeReg rd v).meridian = s.meridian := rfl
@[simp] theorem writeReg_tick (rd : Reg) (v : Word) : (s.writeReg rd v).tick = s.tick := rfl
@[simp] theorem writeReg_next (rd : Reg) (v : Word) : (s.writeReg rd v).next = s.next := rfl
@[simp] theorem writeReg_mem (rd : Reg) (v : Word) : (s.writeReg rd v).mem = s.mem := rfl
@[simp] theorem writeReg_deep (rd : Reg) (v : Word) : (s.writeReg rd v).deep = s.deep := rfl
@[simp] theorem writeReg_versions (rd : Reg) (v : Word) : (s.writeReg rd v).versions = s.versions := rfl
@[simp] theorem writeReg_kept (rd : Reg) (v : Word) : (s.writeReg rd v).kept = s.kept := rfl
@[simp] theorem writeReg_holds (rd : Reg) (v : Word) : (s.writeReg rd v).holds = s.holds := rfl
@[simp] theorem writeReg_slices (rd : Reg) (v : Word) : (s.writeReg rd v).slices = s.slices := rfl
@[simp] theorem writeReg_overlays (rd : Reg) (v : Word) : (s.writeReg rd v).overlays = s.overlays := rfl
@[simp] theorem writeReg_reds (rd : Reg) (v : Word) : (s.writeReg rd v).reds = s.reds := rfl
@[simp] theorem writeReg_tiles (rd : Reg) (v : Word) : (s.writeReg rd v).tiles = s.tiles := rfl
@[simp] theorem writeReg_signals (rd : Reg) (v : Word) : (s.writeReg rd v).signals = s.signals := rfl
@[simp] theorem writeReg_publishes (rd : Reg) (v : Word) : (s.writeReg rd v).publishes = s.publishes := rfl
@[simp] theorem writeReg_flight (rd : Reg) (v : Word) : (s.writeReg rd v).flight = s.flight := rfl
@[simp] theorem writeReg_reports (rd : Reg) (v : Word) : (s.writeReg rd v).reports = s.reports := rfl
@[simp] theorem writeReg_lateKicks (rd : Reg) (v : Word) : (s.writeReg rd v).lateKicks = s.lateKicks := rfl
@[simp] theorem writeReg_compasses (rd : Reg) (v : Word) : (s.writeReg rd v).compasses = s.compasses := rfl
@[simp] theorem writeReg_provinces (rd : Reg) (v : Word) : (s.writeReg rd v).provinces = s.provinces := rfl
@[simp] theorem writeReg_regions (rd : Reg) (v : Word) : (s.writeReg rd v).regions = s.regions := rfl
@[simp] theorem writeReg_launches (rd : Reg) (v : Word) : (s.writeReg rd v).launches = s.launches := rfl
@[simp] theorem writeReg_launchCount (rd : Reg) (v : Word) : (s.writeReg rd v).launchCount = s.launchCount := rfl
@[simp] theorem writeReg_decisions (rd : Reg) (v : Word) : (s.writeReg rd v).decisions = s.decisions := rfl
@[simp] theorem writeReg_considered (rd : Reg) (v : Word) : (s.writeReg rd v).considered = s.considered := rfl
@[simp] theorem writeReg_queues (rd : Reg) (v : Word) : (s.writeReg rd v).queues = s.queues := rfl
@[simp] theorem writeReg_stripTurns (rd : Reg) (v : Word) : (s.writeReg rd v).stripTurns = s.stripTurns := rfl
@[simp] theorem writeReg_asids (rd : Reg) (v : Word) : (s.writeReg rd v).asids = s.asids := rfl
@[simp] theorem writeReg_grants (rd : Reg) (v : Word) : (s.writeReg rd v).grants = s.grants := rfl
@[simp] theorem writeReg_dropped (rd : Reg) (v : Word) : (s.writeReg rd v).dropped = s.dropped := rfl
@[simp] theorem writeReg_segments (rd : Reg) (v : Word) : (s.writeReg rd v).segments = s.segments := rfl
@[simp] theorem writeReg_sets (rd : Reg) (v : Word) : (s.writeReg rd v).sets = s.sets := rfl
@[simp] theorem writeReg_invalidates (rd : Reg) (v : Word) : (s.writeReg rd v).invalidates = s.invalidates := rfl
@[simp] theorem writeReg_collapses (rd : Reg) (v : Word) : (s.writeReg rd v).collapses = s.collapses := rfl
@[simp] theorem writeReg_tests (rd : Reg) (v : Word) : (s.writeReg rd v).tests = s.tests := rfl
@[simp] theorem writeReg_heldWalks (rd : Reg) (v : Word) : (s.writeReg rd v).heldWalks = s.heldWalks := rfl
@[simp] theorem writeReg_frontWrites (rd : Reg) (v : Word) : (s.writeReg rd v).frontWrites = s.frontWrites := rfl
@[simp] theorem writeReg_host (rd : Reg) (v : Word) : (s.writeReg rd v).host = s.host := rfl
@[simp] theorem writeReg_link (rd : Reg) (v : Word) : (s.writeReg rd v).link = s.link := rfl
@[simp] theorem writeReg_boot (rd : Reg) (v : Word) : (s.writeReg rd v).boot = s.boot := rfl
@[simp] theorem writeReg_book (rd : Reg) (v : Word) : (s.writeReg rd v).book = s.book := rfl
@[simp] theorem writeReg_debugger (rd : Reg) (v : Word) : (s.writeReg rd v).debugger = s.debugger := rfl
@[simp] theorem writeReg_images (rd : Reg) (v : Word) : (s.writeReg rd v).images = s.images := rfl

/-! ### `advance` -/

@[simp] theorem advance_meridian (p : Nat) : (s.advance p).meridian = s.meridian := rfl
@[simp] theorem advance_tick (p : Nat) : (s.advance p).tick = s.tick := rfl
@[simp] theorem advance_next (p : Nat) : (s.advance p).next = s.next := rfl
@[simp] theorem advance_mem (p : Nat) : (s.advance p).mem = s.mem := rfl
@[simp] theorem advance_deep (p : Nat) : (s.advance p).deep = s.deep := rfl
@[simp] theorem advance_versions (p : Nat) : (s.advance p).versions = s.versions := rfl
@[simp] theorem advance_kept (p : Nat) : (s.advance p).kept = s.kept := rfl
@[simp] theorem advance_holds (p : Nat) : (s.advance p).holds = s.holds := rfl
@[simp] theorem advance_slices (p : Nat) : (s.advance p).slices = s.slices := rfl
@[simp] theorem advance_overlays (p : Nat) : (s.advance p).overlays = s.overlays := rfl
@[simp] theorem advance_reds (p : Nat) : (s.advance p).reds = s.reds := rfl
@[simp] theorem advance_tiles (p : Nat) : (s.advance p).tiles = s.tiles := rfl
@[simp] theorem advance_signals (p : Nat) : (s.advance p).signals = s.signals := rfl
@[simp] theorem advance_publishes (p : Nat) : (s.advance p).publishes = s.publishes := rfl
@[simp] theorem advance_flight (p : Nat) : (s.advance p).flight = s.flight := rfl
@[simp] theorem advance_reports (p : Nat) : (s.advance p).reports = s.reports := rfl
@[simp] theorem advance_lateKicks (p : Nat) : (s.advance p).lateKicks = s.lateKicks := rfl
@[simp] theorem advance_compasses (p : Nat) : (s.advance p).compasses = s.compasses := rfl
@[simp] theorem advance_provinces (p : Nat) : (s.advance p).provinces = s.provinces := rfl
@[simp] theorem advance_regions (p : Nat) : (s.advance p).regions = s.regions := rfl
@[simp] theorem advance_launches (p : Nat) : (s.advance p).launches = s.launches := rfl
@[simp] theorem advance_launchCount (p : Nat) : (s.advance p).launchCount = s.launchCount := rfl
@[simp] theorem advance_decisions (p : Nat) : (s.advance p).decisions = s.decisions := rfl
@[simp] theorem advance_considered (p : Nat) : (s.advance p).considered = s.considered := rfl
@[simp] theorem advance_queues (p : Nat) : (s.advance p).queues = s.queues := rfl
@[simp] theorem advance_stripTurns (p : Nat) : (s.advance p).stripTurns = s.stripTurns := rfl
@[simp] theorem advance_asids (p : Nat) : (s.advance p).asids = s.asids := rfl
@[simp] theorem advance_grants (p : Nat) : (s.advance p).grants = s.grants := rfl
@[simp] theorem advance_dropped (p : Nat) : (s.advance p).dropped = s.dropped := rfl
@[simp] theorem advance_segments (p : Nat) : (s.advance p).segments = s.segments := rfl
@[simp] theorem advance_sets (p : Nat) : (s.advance p).sets = s.sets := rfl
@[simp] theorem advance_invalidates (p : Nat) : (s.advance p).invalidates = s.invalidates := rfl
@[simp] theorem advance_collapses (p : Nat) : (s.advance p).collapses = s.collapses := rfl
@[simp] theorem advance_tests (p : Nat) : (s.advance p).tests = s.tests := rfl
@[simp] theorem advance_heldWalks (p : Nat) : (s.advance p).heldWalks = s.heldWalks := rfl
@[simp] theorem advance_frontWrites (p : Nat) : (s.advance p).frontWrites = s.frontWrites := rfl
@[simp] theorem advance_host (p : Nat) : (s.advance p).host = s.host := rfl
@[simp] theorem advance_link (p : Nat) : (s.advance p).link = s.link := rfl
@[simp] theorem advance_boot (p : Nat) : (s.advance p).boot = s.boot := rfl
@[simp] theorem advance_book (p : Nat) : (s.advance p).book = s.book := rfl
@[simp] theorem advance_debugger (p : Nat) : (s.advance p).debugger = s.debugger := rfl
@[simp] theorem advance_images (p : Nat) : (s.advance p).images = s.images := rfl

/-! ### `jump` -/

@[simp] theorem jump_meridian (a : Word) : (s.jump a).meridian = s.meridian := rfl
@[simp] theorem jump_tick (a : Word) : (s.jump a).tick = s.tick := rfl
@[simp] theorem jump_next (a : Word) : (s.jump a).next = s.next := rfl
@[simp] theorem jump_mem (a : Word) : (s.jump a).mem = s.mem := rfl
@[simp] theorem jump_deep (a : Word) : (s.jump a).deep = s.deep := rfl
@[simp] theorem jump_versions (a : Word) : (s.jump a).versions = s.versions := rfl
@[simp] theorem jump_kept (a : Word) : (s.jump a).kept = s.kept := rfl
@[simp] theorem jump_holds (a : Word) : (s.jump a).holds = s.holds := rfl
@[simp] theorem jump_slices (a : Word) : (s.jump a).slices = s.slices := rfl
@[simp] theorem jump_overlays (a : Word) : (s.jump a).overlays = s.overlays := rfl
@[simp] theorem jump_reds (a : Word) : (s.jump a).reds = s.reds := rfl
@[simp] theorem jump_tiles (a : Word) : (s.jump a).tiles = s.tiles := rfl
@[simp] theorem jump_signals (a : Word) : (s.jump a).signals = s.signals := rfl
@[simp] theorem jump_publishes (a : Word) : (s.jump a).publishes = s.publishes := rfl
@[simp] theorem jump_flight (a : Word) : (s.jump a).flight = s.flight := rfl
@[simp] theorem jump_reports (a : Word) : (s.jump a).reports = s.reports := rfl
@[simp] theorem jump_lateKicks (a : Word) : (s.jump a).lateKicks = s.lateKicks := rfl
@[simp] theorem jump_compasses (a : Word) : (s.jump a).compasses = s.compasses := rfl
@[simp] theorem jump_provinces (a : Word) : (s.jump a).provinces = s.provinces := rfl
@[simp] theorem jump_regions (a : Word) : (s.jump a).regions = s.regions := rfl
@[simp] theorem jump_launches (a : Word) : (s.jump a).launches = s.launches := rfl
@[simp] theorem jump_launchCount (a : Word) : (s.jump a).launchCount = s.launchCount := rfl
@[simp] theorem jump_decisions (a : Word) : (s.jump a).decisions = s.decisions := rfl
@[simp] theorem jump_considered (a : Word) : (s.jump a).considered = s.considered := rfl
@[simp] theorem jump_queues (a : Word) : (s.jump a).queues = s.queues := rfl
@[simp] theorem jump_stripTurns (a : Word) : (s.jump a).stripTurns = s.stripTurns := rfl
@[simp] theorem jump_asids (a : Word) : (s.jump a).asids = s.asids := rfl
@[simp] theorem jump_grants (a : Word) : (s.jump a).grants = s.grants := rfl
@[simp] theorem jump_dropped (a : Word) : (s.jump a).dropped = s.dropped := rfl
@[simp] theorem jump_segments (a : Word) : (s.jump a).segments = s.segments := rfl
@[simp] theorem jump_sets (a : Word) : (s.jump a).sets = s.sets := rfl
@[simp] theorem jump_invalidates (a : Word) : (s.jump a).invalidates = s.invalidates := rfl
@[simp] theorem jump_collapses (a : Word) : (s.jump a).collapses = s.collapses := rfl
@[simp] theorem jump_tests (a : Word) : (s.jump a).tests = s.tests := rfl
@[simp] theorem jump_heldWalks (a : Word) : (s.jump a).heldWalks = s.heldWalks := rfl
@[simp] theorem jump_frontWrites (a : Word) : (s.jump a).frontWrites = s.frontWrites := rfl
@[simp] theorem jump_host (a : Word) : (s.jump a).host = s.host := rfl
@[simp] theorem jump_link (a : Word) : (s.jump a).link = s.link := rfl
@[simp] theorem jump_boot (a : Word) : (s.jump a).boot = s.boot := rfl
@[simp] theorem jump_book (a : Word) : (s.jump a).book = s.book := rfl
@[simp] theorem jump_debugger (a : Word) : (s.jump a).debugger = s.debugger := rfl
@[simp] theorem jump_images (a : Word) : (s.jump a).images = s.images := rfl

/-! ### `linkJump` -/

@[simp] theorem linkJump_meridian (rd : Reg) (a : Word) : (s.linkJump rd a).meridian = s.meridian := rfl
@[simp] theorem linkJump_tick (rd : Reg) (a : Word) : (s.linkJump rd a).tick = s.tick := rfl
@[simp] theorem linkJump_next (rd : Reg) (a : Word) : (s.linkJump rd a).next = s.next := rfl
@[simp] theorem linkJump_mem (rd : Reg) (a : Word) : (s.linkJump rd a).mem = s.mem := rfl
@[simp] theorem linkJump_deep (rd : Reg) (a : Word) : (s.linkJump rd a).deep = s.deep := rfl
@[simp] theorem linkJump_versions (rd : Reg) (a : Word) : (s.linkJump rd a).versions = s.versions := rfl
@[simp] theorem linkJump_kept (rd : Reg) (a : Word) : (s.linkJump rd a).kept = s.kept := rfl
@[simp] theorem linkJump_holds (rd : Reg) (a : Word) : (s.linkJump rd a).holds = s.holds := rfl
@[simp] theorem linkJump_slices (rd : Reg) (a : Word) : (s.linkJump rd a).slices = s.slices := rfl
@[simp] theorem linkJump_overlays (rd : Reg) (a : Word) : (s.linkJump rd a).overlays = s.overlays := rfl
@[simp] theorem linkJump_reds (rd : Reg) (a : Word) : (s.linkJump rd a).reds = s.reds := rfl
@[simp] theorem linkJump_tiles (rd : Reg) (a : Word) : (s.linkJump rd a).tiles = s.tiles := rfl
@[simp] theorem linkJump_signals (rd : Reg) (a : Word) : (s.linkJump rd a).signals = s.signals := rfl
@[simp] theorem linkJump_publishes (rd : Reg) (a : Word) : (s.linkJump rd a).publishes = s.publishes := rfl
@[simp] theorem linkJump_flight (rd : Reg) (a : Word) : (s.linkJump rd a).flight = s.flight := rfl
@[simp] theorem linkJump_reports (rd : Reg) (a : Word) : (s.linkJump rd a).reports = s.reports := rfl
@[simp] theorem linkJump_lateKicks (rd : Reg) (a : Word) : (s.linkJump rd a).lateKicks = s.lateKicks := rfl
@[simp] theorem linkJump_compasses (rd : Reg) (a : Word) : (s.linkJump rd a).compasses = s.compasses := rfl
@[simp] theorem linkJump_provinces (rd : Reg) (a : Word) : (s.linkJump rd a).provinces = s.provinces := rfl
@[simp] theorem linkJump_regions (rd : Reg) (a : Word) : (s.linkJump rd a).regions = s.regions := rfl
@[simp] theorem linkJump_launches (rd : Reg) (a : Word) : (s.linkJump rd a).launches = s.launches := rfl
@[simp] theorem linkJump_launchCount (rd : Reg) (a : Word) : (s.linkJump rd a).launchCount = s.launchCount := rfl
@[simp] theorem linkJump_decisions (rd : Reg) (a : Word) : (s.linkJump rd a).decisions = s.decisions := rfl
@[simp] theorem linkJump_considered (rd : Reg) (a : Word) : (s.linkJump rd a).considered = s.considered := rfl
@[simp] theorem linkJump_queues (rd : Reg) (a : Word) : (s.linkJump rd a).queues = s.queues := rfl
@[simp] theorem linkJump_stripTurns (rd : Reg) (a : Word) : (s.linkJump rd a).stripTurns = s.stripTurns := rfl
@[simp] theorem linkJump_asids (rd : Reg) (a : Word) : (s.linkJump rd a).asids = s.asids := rfl
@[simp] theorem linkJump_grants (rd : Reg) (a : Word) : (s.linkJump rd a).grants = s.grants := rfl
@[simp] theorem linkJump_dropped (rd : Reg) (a : Word) : (s.linkJump rd a).dropped = s.dropped := rfl
@[simp] theorem linkJump_segments (rd : Reg) (a : Word) : (s.linkJump rd a).segments = s.segments := rfl
@[simp] theorem linkJump_sets (rd : Reg) (a : Word) : (s.linkJump rd a).sets = s.sets := rfl
@[simp] theorem linkJump_invalidates (rd : Reg) (a : Word) : (s.linkJump rd a).invalidates = s.invalidates := rfl
@[simp] theorem linkJump_collapses (rd : Reg) (a : Word) : (s.linkJump rd a).collapses = s.collapses := rfl
@[simp] theorem linkJump_tests (rd : Reg) (a : Word) : (s.linkJump rd a).tests = s.tests := rfl
@[simp] theorem linkJump_heldWalks (rd : Reg) (a : Word) : (s.linkJump rd a).heldWalks = s.heldWalks := rfl
@[simp] theorem linkJump_frontWrites (rd : Reg) (a : Word) : (s.linkJump rd a).frontWrites = s.frontWrites := rfl
@[simp] theorem linkJump_host (rd : Reg) (a : Word) : (s.linkJump rd a).host = s.host := rfl
@[simp] theorem linkJump_link (rd : Reg) (a : Word) : (s.linkJump rd a).link = s.link := rfl
@[simp] theorem linkJump_boot (rd : Reg) (a : Word) : (s.linkJump rd a).boot = s.boot := rfl
@[simp] theorem linkJump_book (rd : Reg) (a : Word) : (s.linkJump rd a).book = s.book := rfl
@[simp] theorem linkJump_debugger (rd : Reg) (a : Word) : (s.linkJump rd a).debugger = s.debugger := rfl
@[simp] theorem linkJump_images (rd : Reg) (a : Word) : (s.linkJump rd a).images = s.images := rfl

/-! ### `trapReturn` -/

@[simp] theorem trapReturn_meridian (p : Nat) : (s.trapReturn p).meridian = s.meridian := rfl
@[simp] theorem trapReturn_tick (p : Nat) : (s.trapReturn p).tick = s.tick := rfl
@[simp] theorem trapReturn_next (p : Nat) : (s.trapReturn p).next = s.next := rfl
@[simp] theorem trapReturn_mem (p : Nat) : (s.trapReturn p).mem = s.mem := rfl
@[simp] theorem trapReturn_deep (p : Nat) : (s.trapReturn p).deep = s.deep := rfl
@[simp] theorem trapReturn_versions (p : Nat) : (s.trapReturn p).versions = s.versions := rfl
@[simp] theorem trapReturn_kept (p : Nat) : (s.trapReturn p).kept = s.kept := rfl
@[simp] theorem trapReturn_holds (p : Nat) : (s.trapReturn p).holds = s.holds := rfl
@[simp] theorem trapReturn_slices (p : Nat) : (s.trapReturn p).slices = s.slices := rfl
@[simp] theorem trapReturn_overlays (p : Nat) : (s.trapReturn p).overlays = s.overlays := rfl
@[simp] theorem trapReturn_reds (p : Nat) : (s.trapReturn p).reds = s.reds := rfl
@[simp] theorem trapReturn_tiles (p : Nat) : (s.trapReturn p).tiles = s.tiles := rfl
@[simp] theorem trapReturn_signals (p : Nat) : (s.trapReturn p).signals = s.signals := rfl
@[simp] theorem trapReturn_publishes (p : Nat) : (s.trapReturn p).publishes = s.publishes := rfl
@[simp] theorem trapReturn_flight (p : Nat) : (s.trapReturn p).flight = s.flight := rfl
@[simp] theorem trapReturn_reports (p : Nat) : (s.trapReturn p).reports = s.reports := rfl
@[simp] theorem trapReturn_lateKicks (p : Nat) : (s.trapReturn p).lateKicks = s.lateKicks := rfl
@[simp] theorem trapReturn_compasses (p : Nat) : (s.trapReturn p).compasses = s.compasses := rfl
@[simp] theorem trapReturn_provinces (p : Nat) : (s.trapReturn p).provinces = s.provinces := rfl
@[simp] theorem trapReturn_regions (p : Nat) : (s.trapReturn p).regions = s.regions := rfl
@[simp] theorem trapReturn_launches (p : Nat) : (s.trapReturn p).launches = s.launches := rfl
@[simp] theorem trapReturn_launchCount (p : Nat) : (s.trapReturn p).launchCount = s.launchCount := rfl
@[simp] theorem trapReturn_decisions (p : Nat) : (s.trapReturn p).decisions = s.decisions := rfl
@[simp] theorem trapReturn_considered (p : Nat) : (s.trapReturn p).considered = s.considered := rfl
@[simp] theorem trapReturn_queues (p : Nat) : (s.trapReturn p).queues = s.queues := rfl
@[simp] theorem trapReturn_stripTurns (p : Nat) : (s.trapReturn p).stripTurns = s.stripTurns := rfl
@[simp] theorem trapReturn_asids (p : Nat) : (s.trapReturn p).asids = s.asids := rfl
@[simp] theorem trapReturn_grants (p : Nat) : (s.trapReturn p).grants = s.grants := rfl
@[simp] theorem trapReturn_dropped (p : Nat) : (s.trapReturn p).dropped = s.dropped := rfl
@[simp] theorem trapReturn_segments (p : Nat) : (s.trapReturn p).segments = s.segments := rfl
@[simp] theorem trapReturn_sets (p : Nat) : (s.trapReturn p).sets = s.sets := rfl
@[simp] theorem trapReturn_invalidates (p : Nat) : (s.trapReturn p).invalidates = s.invalidates := rfl
@[simp] theorem trapReturn_collapses (p : Nat) : (s.trapReturn p).collapses = s.collapses := rfl
@[simp] theorem trapReturn_tests (p : Nat) : (s.trapReturn p).tests = s.tests := rfl
@[simp] theorem trapReturn_heldWalks (p : Nat) : (s.trapReturn p).heldWalks = s.heldWalks := rfl
@[simp] theorem trapReturn_frontWrites (p : Nat) : (s.trapReturn p).frontWrites = s.frontWrites := rfl
@[simp] theorem trapReturn_host (p : Nat) : (s.trapReturn p).host = s.host := rfl
@[simp] theorem trapReturn_link (p : Nat) : (s.trapReturn p).link = s.link := rfl
@[simp] theorem trapReturn_boot (p : Nat) : (s.trapReturn p).boot = s.boot := rfl
@[simp] theorem trapReturn_book (p : Nat) : (s.trapReturn p).book = s.book := rfl
@[simp] theorem trapReturn_debugger (p : Nat) : (s.trapReturn p).debugger = s.debugger := rfl
@[simp] theorem trapReturn_images (p : Nat) : (s.trapReturn p).images = s.images := rfl

/-! ### `endTask` -/

@[simp] theorem endTask_meridian (p : Nat) : (s.endTask p).meridian = s.meridian := rfl
@[simp] theorem endTask_tick (p : Nat) : (s.endTask p).tick = s.tick := rfl
@[simp] theorem endTask_next (p : Nat) : (s.endTask p).next = s.next := rfl
@[simp] theorem endTask_mem (p : Nat) : (s.endTask p).mem = s.mem := rfl
@[simp] theorem endTask_deep (p : Nat) : (s.endTask p).deep = s.deep := rfl
@[simp] theorem endTask_versions (p : Nat) : (s.endTask p).versions = s.versions := rfl
@[simp] theorem endTask_kept (p : Nat) : (s.endTask p).kept = s.kept := rfl
@[simp] theorem endTask_holds (p : Nat) : (s.endTask p).holds = s.holds := rfl
@[simp] theorem endTask_slices (p : Nat) : (s.endTask p).slices = s.slices := rfl
@[simp] theorem endTask_overlays (p : Nat) : (s.endTask p).overlays = s.overlays := rfl
@[simp] theorem endTask_reds (p : Nat) : (s.endTask p).reds = s.reds := rfl
@[simp] theorem endTask_tiles (p : Nat) : (s.endTask p).tiles = s.tiles := rfl
@[simp] theorem endTask_signals (p : Nat) : (s.endTask p).signals = s.signals := rfl
@[simp] theorem endTask_publishes (p : Nat) : (s.endTask p).publishes = s.publishes := rfl
@[simp] theorem endTask_flight (p : Nat) : (s.endTask p).flight = s.flight := rfl
@[simp] theorem endTask_reports (p : Nat) : (s.endTask p).reports = s.reports := rfl
@[simp] theorem endTask_lateKicks (p : Nat) : (s.endTask p).lateKicks = s.lateKicks := rfl
@[simp] theorem endTask_compasses (p : Nat) : (s.endTask p).compasses = s.compasses := rfl
@[simp] theorem endTask_provinces (p : Nat) : (s.endTask p).provinces = s.provinces := rfl
@[simp] theorem endTask_regions (p : Nat) : (s.endTask p).regions = s.regions := rfl
@[simp] theorem endTask_launches (p : Nat) : (s.endTask p).launches = s.launches := rfl
@[simp] theorem endTask_launchCount (p : Nat) : (s.endTask p).launchCount = s.launchCount := rfl
@[simp] theorem endTask_decisions (p : Nat) : (s.endTask p).decisions = s.decisions := rfl
@[simp] theorem endTask_considered (p : Nat) : (s.endTask p).considered = s.considered := rfl
@[simp] theorem endTask_queues (p : Nat) : (s.endTask p).queues = s.queues := rfl
@[simp] theorem endTask_stripTurns (p : Nat) : (s.endTask p).stripTurns = s.stripTurns := rfl
@[simp] theorem endTask_asids (p : Nat) : (s.endTask p).asids = s.asids := rfl
@[simp] theorem endTask_grants (p : Nat) : (s.endTask p).grants = s.grants := rfl
@[simp] theorem endTask_dropped (p : Nat) : (s.endTask p).dropped = s.dropped := rfl
@[simp] theorem endTask_segments (p : Nat) : (s.endTask p).segments = s.segments := rfl
@[simp] theorem endTask_sets (p : Nat) : (s.endTask p).sets = s.sets := rfl
@[simp] theorem endTask_invalidates (p : Nat) : (s.endTask p).invalidates = s.invalidates := rfl
@[simp] theorem endTask_collapses (p : Nat) : (s.endTask p).collapses = s.collapses := rfl
@[simp] theorem endTask_tests (p : Nat) : (s.endTask p).tests = s.tests := rfl
@[simp] theorem endTask_heldWalks (p : Nat) : (s.endTask p).heldWalks = s.heldWalks := rfl
@[simp] theorem endTask_frontWrites (p : Nat) : (s.endTask p).frontWrites = s.frontWrites := rfl
@[simp] theorem endTask_host (p : Nat) : (s.endTask p).host = s.host := rfl
@[simp] theorem endTask_link (p : Nat) : (s.endTask p).link = s.link := rfl
@[simp] theorem endTask_boot (p : Nat) : (s.endTask p).boot = s.boot := rfl
@[simp] theorem endTask_book (p : Nat) : (s.endTask p).book = s.book := rfl
@[simp] theorem endTask_debugger (p : Nat) : (s.endTask p).debugger = s.debugger := rfl
@[simp] theorem endTask_images (p : Nat) : (s.endTask p).images = s.images := rfl

/-! ### Accessors after an update -/

@[simp] theorem parcel_onParcel (p q : Nat) (f : Parcel → Parcel) :
    (s.onParcel p f).parcel q = if p = q then f (s.parcel p) else s.parcel q := look_put _ _ _ _ _
@[simp] theorem core_onParcel (p q : Nat) (f : Parcel → Parcel) :
    (s.onParcel p f).core q = if p = q then (f (s.parcel p)).core else s.core q := by
  simp only [State.core, parcel_onParcel]; split <;> rfl
@[simp] theorem core_onCore (p q : Nat) (f : Core → Core) :
    (s.onCore p f).core q = if p = q then f (s.core p) else s.core q := core_onParcel s p q _
@[simp] theorem core_onCell (p m q : Nat) (f : Cell → Cell) : (s.onCell p m f).core q = s.core q := by
  simp only [State.onCell, core_onParcel]; split <;> simp_all [State.core]
@[simp] theorem cell_onCell (p m q n : Nat) (f : Cell → Cell) :
    (s.onCell p m f).cell q n = if p = q ∧ m = n then f (s.cell p m) else s.cell q n := by
  simp only [State.cell, State.onCell, parcel_onParcel]
  by_cases h : p = q
  · subst h; simp only [if_true, true_and, look_put]
  · simp [h]
@[simp] theorem cell_onCore (p q n : Nat) (f : Core → Core) : (s.onCore p f).cell q n = s.cell q n := by
  simp only [State.cell, State.onCore, parcel_onParcel]; split <;> simp_all
@[simp] theorem buffer_setBuffer (p h q k : Nat) (b : BitVec 128) :
    (s.setBuffer p h b).buffer q k = if p = q ∧ h = k then b else s.buffer q k := by
  simp only [State.buffer, State.setBuffer, parcel_onParcel]
  by_cases e : p = q
  · subst e; simp only [if_true, true_and, look_put]
  · simp [e]
@[simp] theorem station_setStation (p h q k : Nat) (b : BitVec 128) :
    (s.setStation p h b).station q k = if p = q ∧ h = k then b else s.station q k := by
  simp only [State.station, State.setStation, parcel_onParcel]
  by_cases e : p = q
  · subst e; simp only [if_true, true_and, look_put]
  · simp [e]
@[simp] theorem regionOf_onParcel (p q : Nat) (f : Parcel → Parcel) : (s.onParcel p f).regionOf q = s.regionOf q := rfl
@[simp] theorem regionOf_onCore (p q : Nat) (f : Core → Core) : (s.onCore p f).regionOf q = s.regionOf q := rfl
@[simp] theorem regionOf_onCell (p m q : Nat) (f : Cell → Cell) : (s.onCell p m f).regionOf q = s.regionOf q := rfl

/-! ### Registers -/

@[simp] theorem get_put (c : Core) (rd r : Reg) (v : Word) :
    (c.put rd v).get r = if r = 0 then 0 else if r = rd then v else c.get r := by
  unfold Core.put Core.get
  by_cases h0 : r = 0
  · rw [if_pos h0, if_pos h0]
  · rw [if_neg h0, if_neg h0, if_neg h0]
    by_cases h : rd = 0
    · rw [if_pos h, if_neg (fun e => h0 (e.trans h))]
    · rw [if_neg h]
      by_cases e : r = rd
      · subst e; rw [if_pos rfl]; exact Vector.getElem_set_self _
      · rw [if_neg e]; exact Vector.getElem_set_ne rd.isLt _ (fun he => e (BitVec.eq_of_toNat_eq he).symm)

@[simp] theorem put_pc (c : Core) (rd : Reg) (v : Word) : (c.put rd v).pc = c.pc := by
  simp only [Core.put]; split <;> rfl
@[simp] theorem put_tcause (c : Core) (rd : Reg) (v : Word) : (c.put rd v).tcause = c.tcause := by
  simp only [Core.put]; split <;> rfl
@[simp] theorem put_tval (c : Core) (rd : Reg) (v : Word) : (c.put rd v).tval = c.tval := by
  simp only [Core.put]; split <;> rfl
@[simp] theorem put_tepc (c : Core) (rd : Reg) (v : Word) : (c.put rd v).tepc = c.tepc := by
  simp only [Core.put]; split <;> rfl
@[simp] theorem put_hangiv (c : Core) (rd : Reg) (v : Word) : (c.put rd v).hangiv = c.hangiv := by
  simp only [Core.put]; split <;> rfl
@[simp] theorem put_asid (c : Core) (rd : Reg) (v : Word) : (c.put rd v).asid = c.asid := by
  simp only [Core.put]; split <;> rfl
@[simp] theorem put_chprio (c : Core) (rd : Reg) (v : Word) : (c.put rd v).chprio = c.chprio := by
  simp only [Core.put]; split <;> rfl
@[simp] theorem put_flags (c : Core) (rd : Reg) (v : Word) : (c.put rd v).flags = c.flags := by
  simp only [Core.put]; split <;> rfl
@[simp] theorem put_trap (c : Core) (rd : Reg) (v : Word) : (c.put rd v).trap = c.trap := by
  simp only [Core.put]; split <;> rfl
@[simp] theorem put_wake (c : Core) (rd : Reg) (v : Word) : (c.put rd v).wake = c.wake := by
  simp only [Core.put]; split <;> rfl
@[simp] theorem put_cls (c : Core) (rd : Reg) (v : Word) : (c.put rd v).cls = c.cls := by
  simp only [Core.put]; split <;> rfl
@[simp] theorem put_ch (c : Core) (rd : Reg) (v : Word) : (c.put rd v).ch = c.ch := by
  simp only [Core.put]; split <;> rfl
@[simp] theorem put_running (c : Core) (rd : Reg) (v : Word) : (c.put rd v).running = c.running := by
  simp only [Core.put]; split <;> rfl
@[simp] theorem put_stopped (c : Core) (rd : Reg) (v : Word) : (c.put rd v).stopped = c.stopped := by
  simp only [Core.put]; split <;> rfl
@[simp] theorem put_waiting (c : Core) (rd : Reg) (v : Word) : (c.put rd v).waiting = c.waiting := by
  simp only [Core.put]; split <;> rfl
@[simp] theorem put_quiet (c : Core) (rd : Reg) (v : Word) : (c.put rd v).quiet = c.quiet := by
  simp only [Core.put]; split <;> rfl
@[simp] theorem put_channels (c : Core) (rd : Reg) (v : Word) : (c.put rd v).channels = c.channels := by
  simp only [Core.put]; split <;> rfl
@[simp] theorem put_last (c : Core) (rd : Reg) (v : Word) : (c.put rd v).last = c.last := by
  simp only [Core.put]; split <;> rfl
@[simp] theorem put_outbound (c : Core) (rd : Reg) (v : Word) : (c.put rd v).outbound = c.outbound := by
  simp only [Core.put]; split <;> rfl
@[simp] theorem put_icache (c : Core) (rd : Reg) (v : Word) : (c.put rd v).icache = c.icache := by
  simp only [Core.put]; split <;> rfl
@[simp] theorem put_fences (c : Core) (rd : Reg) (v : Word) : (c.put rd v).fences = c.fences := by
  simp only [Core.put]; split <;> rfl
@[simp] theorem put_since (c : Core) (rd : Reg) (v : Word) : (c.put rd v).since = c.since := by
  simp only [Core.put]; split <;> rfl
@[simp] theorem put_gathered (c : Core) (rd : Reg) (v : Word) : (c.put rd v).gathered = c.gathered := by
  simp only [Core.put]; split <;> rfl

@[simp] theorem here_onParcel (p : Nat) (f : Parcel → Parcel) : (s.onParcel p f).here = s.here := rfl
@[simp] theorem here_writeReg (rd : Reg) (v : Word) : (s.writeReg rd v).here = s.here := rfl

/-- What a register of the running core holds after `writeReg`: `x0` stays 0 (R113). -/
@[simp] theorem reg_writeReg (rd r : Reg) (v : Word) :
    (s.writeReg rd v).reg r = if r = 0 then 0 else if r = rd then v else s.reg r := by
  have h : (s.writeReg rd v).core s.here = { (s.core s.here).put rd v with pc := (s.core s.here).pc + 4 } := by
    simp [State.writeReg]
  show ((s.writeReg rd v).core s.here).get r = _
  rw [h]
  exact get_put (s.core s.here) rd r v

/-- Every other core is as it was. -/
theorem core_writeReg_other (rd : Reg) (v : Word) (q : Nat) (h : q ≠ s.here) : (s.writeReg rd v).core q = s.core q := by
  simp [State.writeReg, Ne.symm h]

end Sys2Proof.Laws
end

