-- ==== Sys2Proof/Laws/Ops.lean ====
section
/-! SUPPORT. What the shared operations can do: how an instruction of a core or a cell ends, and that the operations on
memory keep its canonical form. -/

namespace Sys2Proof.Laws

open Sys2Proof Sys2Proof.Machine

/-! ### How an instruction of a core ends -/

theorem attempt_ok {s t : State} {i : Instr} {e : Nat} {k : Act Unit} (h : k s = .ok () t) :
    s.attempt i e k = .next t := by simp [State.attempt, h]
theorem attempt_hold {s t : State} {i : Instr} {e : Nat} {k : Act Unit} (h : k s = .error .hold t) :
    s.attempt i e k = .next t := by simp [State.attempt, h]
theorem attempt_fault {s t : State} {i : Instr} {e : Nat} {k : Act Unit} {c : Byte} {v : Word}
    (h : k s = .error (.fault c v) t) :
    s.attempt i e k = .next (s.trapEntry s.here c (if c = codeIllegal then instrWord i else v) e false) := by
  simp [State.attempt, h]
/-- An instruction of a core completes, waits, or traps; it never stops the machine. -/
theorem attempt_cases (s : State) (i : Instr) (e : Nat) (k : Act Unit) :
    (∃ t, k s = .ok () t ∧ s.attempt i e k = .next t) ∨ (∃ t, k s = .error .hold t ∧ s.attempt i e k = .next t) ∨
    ∃ t c v, k s = .error (.fault c v) t ∧
      s.attempt i e k = .next (s.trapEntry s.here c (if c = codeIllegal then instrWord i else v) e false) := by
  cases h : k s with
  | ok a t => exact .inl ⟨t, rfl, attempt_ok h⟩
  | error x t => cases x with
    | hold => exact .inr (.inl ⟨t, rfl, attempt_hold h⟩)
    | fault c v => exact .inr (.inr ⟨t, c, v, rfl, attempt_fault h⟩)

theorem check_true (c : Byte) (v : Word) (s : State) : check true c v s = .ok () s := rfl
theorem check_false (c : Byte) (v : Word) (s : State) : check false c v s = .error (.fault c v) s := rfl

/-! ### How a firing ends -/

theorem fire_ok {s : State} {op : Nat} {w : CellWord} {k : Firing → Except CellStop Effect} {e : Effect}
    (h : k ⟨s, s.site, s.cell s.site.p s.site.m, op, w⟩ = .ok e) (hc : (s.cell s.site.p s.site.m).mayConsume op w = true) :
    s.fire op w k = s.commit s.site op w e := by
  simp [State.fire, h, hc]
theorem fire_illegal {s : State} {op : Nat} {w : CellWord} {k : Firing → Except CellStop Effect} {e : Effect}
    (h : k ⟨s, s.site, s.cell s.site.p s.site.m, op, w⟩ = .ok e) (hc : (s.cell s.site.p s.site.m).mayConsume op w = false) :
    s.fire op w k = s.freeze s.site cellIllegal false := by
  simp [State.fire, h, hc]
theorem fire_error {s : State} {op : Nat} {w : CellWord} {k : Firing → Except CellStop Effect} {x : CellStop}
    (h : k ⟨s, s.site, s.cell s.site.p s.site.m, op, w⟩ = .error x) : s.fire op w k = s.freeze s.site x false := by
  simp [State.fire, h]
/-- A firing commits its effect, where the words that it pops carry tags it may consume, or freezes its cell. -/
theorem fire_cases (s : State) (op : Nat) (w : CellWord) (k : Firing → Except CellStop Effect) :
    (∃ e, k ⟨s, s.site, s.cell s.site.p s.site.m, op, w⟩ = .ok e ∧ (s.cell s.site.p s.site.m).mayConsume op w = true ∧
      s.fire op w k = s.commit s.site op w e) ∨
    ∃ x, s.fire op w k = s.freeze s.site x false := by
  cases h : k ⟨s, s.site, s.cell s.site.p s.site.m, op, w⟩ with
  | ok e =>
    cases hc : (s.cell s.site.p s.site.m).mayConsume op w with
    | true => exact .inl ⟨e, rfl, rfl, fire_ok h hc⟩
    | false => exact .inr ⟨_, fire_illegal h hc⟩
  | error x => exact .inr ⟨x, fire_error h⟩

/-! ### Operations that leave memory alone -/

/-- Both memories are as before. -/
def SameMem (s t : State) : Prop := t.mem = s.mem ∧ t.deep = s.deep

theorem SameMem.rfl' (s : State) : SameMem s s := ⟨rfl, rfl⟩
theorem SameMem.trans {s t u : State} (h : SameMem s t) (k : SameMem t u) : SameMem s u :=
  ⟨k.1.trans h.1, k.2.trans h.2⟩
/-- A fold of steps that leave memory alone leaves it alone. -/
theorem SameMem.foldl {α : Type} {f : State → α → State} (h : ∀ s a, SameMem s (f s a)) :
    ∀ (l : List α) (s : State), SameMem s (l.foldl f s)
  | [], s => SameMem.rfl' s
  | a :: l, s => (h s a).trans (SameMem.foldl h l (f s a))

theorem sameMem_onParcel (s : State) (p : Nat) (f : Parcel → Parcel) : SameMem s (s.onParcel p f) := ⟨rfl, rfl⟩
theorem sameMem_onCell (s : State) (p m : Nat) (f : Cell → Cell) : SameMem s (s.onCell p m f) := ⟨rfl, rfl⟩
theorem sameMem_onCore (s : State) (p : Nat) (f : Core → Core) : SameMem s (s.onCore p f) := ⟨rfl, rfl⟩
theorem sameMem_onRegion (s : State) (o : Nat) (f : Region → Region) : SameMem s (s.onRegion o f) := ⟨rfl, rfl⟩
theorem sameMem_serveHolds (s : State) (sector k : Nat) : SameMem s (s.serveHolds sector k) := by
  unfold State.serveHolds
  dsimp only
  split <;> exact ⟨rfl, rfl⟩
theorem sameMem_bump (s : State) (sector k : Nat) : SameMem s (s.bump sector k) := sameMem_serveHolds _ sector k
theorem sameMem_setLine (s : State) (key sector : Nat) (l : Line) : SameMem s (s.setLine key sector l) := ⟨rfl, rfl⟩
theorem sameMem_invalidate (s : State) (key : Nat) : SameMem s (s.invalidate key) := ⟨rfl, rfl⟩
theorem sameMem_stir (s : State) (p : Nat) : SameMem s (s.stir p) := by
  unfold State.stir; split <;> exact ⟨rfl, rfl⟩
theorem sameMem_handOn (s : State) (t : Site) : SameMem s (s.handOn t) := by
  unfold State.handOn; split <;> exact ⟨rfl, rfl⟩
theorem sameMem_acquire (s : State) (u : Writer) (sc : Scope) : SameMem s (s.acquire u sc) := by
  unfold State.acquire
  split
  · exact SameMem.foldl (f := fun (t : State) (e : Nat × Nat) => t.invalidate e.2) (fun t e => sameMem_invalidate t e.2) _ _
  · exact SameMem.rfl' s
theorem sameMem_log (s : State) (kind : Nat) (code : Byte) (p : Nat) (asid : BitVec 14) (value : Word) :
    SameMem s (s.log kind code p asid value) := ⟨rfl, rfl⟩
/-- What `needMet` changes is the segments' needers alone. -/
theorem needMet_eq (s : State) (u : Writer) (code : Byte) : ∃ l, s.needMet u code = { s with segments := l } := by
  unfold State.needMet
  split
  · exact ⟨_, rfl⟩
  · exact ⟨s.segments, rfl⟩
@[simp] theorem needMet_mem (s : State) (u : Writer) (code : Byte) : (s.needMet u code).mem = s.mem := by
  obtain ⟨l, h⟩ := needMet_eq s u code
  rw [h]
@[simp] theorem needMet_parcels (s : State) (u : Writer) (code : Byte) : (s.needMet u code).parcels = s.parcels := by
  obtain ⟨l, h⟩ := needMet_eq s u code
  rw [h]
@[simp] theorem needMet_core (s : State) (u : Writer) (code : Byte) (p : Nat) : (s.needMet u code).core p = s.core p := by
  obtain ⟨l, h⟩ := needMet_eq s u code
  rw [h]
  rfl
@[simp] theorem needMet_regions (s : State) (u : Writer) (code : Byte) : (s.needMet u code).regions = s.regions := by
  obtain ⟨l, h⟩ := needMet_eq s u code
  rw [h]
@[simp] theorem needMet_debugger (s : State) (u : Writer) (code : Byte) : (s.needMet u code).debugger = s.debugger := by
  obtain ⟨l, h⟩ := needMet_eq s u code
  rw [h]
@[simp] theorem needMet_regionOf (s : State) (u : Writer) (code : Byte) (q : Nat) :
    (s.needMet u code).regionOf q = s.regionOf q := by
  obtain ⟨l, h⟩ := needMet_eq s u code
  rw [h]
  rfl
@[simp] theorem needMet_meridian (s : State) (u : Writer) (code : Byte) : (s.needMet u code).meridian = s.meridian := by
  obtain ⟨l, h⟩ := needMet_eq s u code
  rw [h]
theorem sameMem_post (s : State) (dest ch : Nat) (two : Bool) (w0 w1 : Word) : SameMem s (s.post dest ch two w0 w1) :=
  ⟨rfl, rfl⟩
theorem sameMem_returnRecord (s : State) (p : Nat) (x : LinkWord) : SameMem s (s.returnRecord p x) := ⟨rfl, rfl⟩
theorem sameMem_setBuffer (s : State) (p h : Nat) (b : BitVec 128) : SameMem s (s.setBuffer p h b) := ⟨rfl, rfl⟩

/-- A firing's commit leaves memory alone. -/
theorem sameMem_commit (s : State) (t : Site) (op : Nat) (w : CellWord) (e : Effect) : SameMem s (s.commit t op w e) := by
  have h2 : SameMem s (if e.acquireY then (s.onCell t.p t.m (e.onCell s.meridian.toNat t op w)).acquire (.cell t.p t.m) .y
      else s.onCell t.p t.m (e.onCell s.meridian.toNat t op w)) := by
    split
    · exact (sameMem_onCell _ _ _ _).trans (sameMem_acquire _ _ _)
    · exact sameMem_onCell _ _ _ _
  have h3 : ∀ u : State, SameMem s u → SameMem s (match e.drain with
      | some h =>
        let b := u.buffer t.p h.toNat
        if bufState b = 2 then u.setBuffer t.p h.toNat (setF b 63 62 3) else u
      | none => u) := by
    intro u hu
    split
    · dsimp only
      split
      · exact hu.trans (sameMem_setBuffer _ _ _ _)
      · exact hu
    · exact hu
  have h4 : ∀ u : State, SameMem s u → SameMem s (match e.record with
      | some x => (u.onParcel t.p fun y => { y with credits := y.credits - 1 }).returnRecord t.p x
      | none => u) := by
    intro u hu
    split
    · exact hu.trans ((sameMem_onParcel _ _ _).trans (sameMem_returnRecord _ _ _))
    · exact hu
  exact ((h4 _ (h3 _ h2)).trans (sameMem_stir _ _)).trans (sameMem_handOn _ _)

/-- A freeze leaves memory alone. -/
theorem sameMem_freeze (s : State) (t : Site) (x : CellStop) (late : Bool) : SameMem s (s.freeze t x late) := by
  unfold State.freeze
  dsimp only
  split <;> exact ⟨rfl, rfl⟩

/-- A firing leaves memory alone. -/
theorem sameMem_fire (s : State) (op : Nat) (w : CellWord) (k : Firing → Except CellStop Effect) :
    SameMem s (s.fire op w k) := by
  rcases fire_cases s op w k with ⟨e, _, _, h⟩ | ⟨x, h⟩ <;> rw [h]
  · exact sameMem_commit _ _ _ _ _
  · exact sameMem_freeze _ _ _ _

/-! ### Operations that keep memory's form -/

/-- Both memories are in canonical form. -/
def Kept (s : State) : Prop := s.mem.wf = true ∧ s.deep.wf = true

theorem SameMem.kept {s t : State} (h : SameMem s t) (k : Kept s) : Kept t := by
  unfold Kept; rw [h.1, h.2]; exact k
/-- A fold of steps that keep the form keeps it. -/
theorem Kept.foldl {α : Type} {f : State → α → State} (h : ∀ s a, Kept s → Kept (f s a)) :
    ∀ (l : List α) (s : State), Kept s → Kept (l.foldl f s)
  | [], _, k => k
  | a :: l, s, k => Kept.foldl h l (f s a) (h s a k)

theorem wf_sets (l : List (Nat × Byte)) (base : Nat) : ∀ m : Memory, m.wf = true →
    (l.foldl (fun (m : Memory) (e : Nat × Byte) => m.set (base + e.1) e.2) m).wf = true := by
  induction l with
  | nil => exact fun _ h => h
  | cons e l ih => exact fun m h => ih _ (wf_set (base + e.1) e.2 h)

theorem kept_homeWrite (s : State) (pa : Nat) (data : List Byte) (h : Kept s) : Kept (s.homeWrite pa data) := by
  have h1 : Kept { s with mem := s.mem.write (s.resolve pa) data } := ⟨wf_write _ _ h.1, h.2⟩
  unfold State.homeWrite
  dsimp only
  split
  · exact (SameMem.foldl (fun t x => sameMem_bump t x 1) _ _).kept h1
  · exact h1

theorem kept_writeOn (s : State) (key sector : Nat) (up : Option Nat) (h : Kept s) : Kept (s.writeOn key sector up) := by
  unfold State.writeOn
  dsimp only
  split
  · exact h
  · split
    · exact h
    · exact (sameMem_bump _ sector _).kept ⟨wf_sets _ _ _ h.1, h.2⟩

theorem kept_fenceEnqueues (s : State) (u : Writer) (lvl : Nat) (h : Kept s) : Kept (s.fenceEnqueues u lvl) := by
  unfold State.fenceEnqueues
  split <;> exact h

theorem kept_drainHolder (s : State) (key : Nat) (up : Option Nat) (h : Kept s) : Kept (s.drainHolder key up) :=
  Kept.foldl (fun t e k => kept_writeOn t key e.1 up k) _ _ h

theorem kept_release (s : State) (u : Writer) (sc : Scope) (h : Kept s) : Kept (s.release u sc) := by
  apply kept_fenceEnqueues
  unfold State.drainPath
  split
  · exact Kept.foldl (fun t e k => Kept.foldl (fun t2 x k2 => kept_writeOn t2 _ _ _ k2) _ t k) _ _ h
  · exact h

theorem kept_storeSector (s : State) (u : Writer) (lvl pa : Nat) (data : List Byte) (l : List (Nat × Nat)) (h : Kept s) :
    Kept (s.storeSector u lvl pa data l) := by
  induction l with
  | nil => exact kept_homeWrite s pa data h
  | cons e l ih =>
    unfold State.storeSector
    dsimp only
    split
    · exact h
    · split
      · exact ih
      · exact ih

theorem kept_pushOwn (s : State) (u : Writer) (lvl sector : Nat) (l : List (Nat × Nat)) (h : Kept s) :
    Kept (s.pushOwn u lvl sector l) := by
  induction l generalizing s with
  | nil => exact h
  | cons e l ih =>
    unfold State.pushOwn
    dsimp only
    split
    · exact h
    · apply ih
      split
      · exact kept_writeOn _ _ _ _ h
      · exact h

theorem kept_extendSector (s : State) (u : Writer) (lvl pa : Nat) (data : List Byte) (l : List (Nat × Nat)) (h : Kept s) :
    Kept (s.extendSector u lvl pa data l) := by
  induction l with
  | nil => exact ⟨wf_write _ _ h.1, h.2⟩
  | cons e l ih =>
    unfold State.extendSector
    dsimp only
    split
    · exact h
    · split
      · exact ih
      · exact ih

theorem kept_scopedWrite (s : State) (u : Writer) (sc : Scope) (noalloc : Bool) (pa : Nat) (data : List Byte)
    (h : Kept s) : Kept (s.scopedWrite u sc noalloc pa data) :=
  Kept.foldl (fun t e k => kept_storeSector _ _ _ e.1 e.2 _ (kept_pushOwn t u _ _ _ k)) _ _ h

end Sys2Proof.Laws
end

