-- ==== Sys2Proof/Laws/PerInstr.lean ====
section
/-! SUPPORT. Statements about every instruction as syntax, one lemma for each constructor. -/

namespace Sys2Proof.Laws.RoundTrip

open Sys2Proof Sys2Proof.Decode

set_option Elab.async false

/-- The decoder reads the words that the encoder gives a well-formed instruction, as that instruction. -/
def Statement (i : Instr) : Prop :=
  i.wellFormed = true →
    (∀ w, encode32 i = some w → surveyor w = .ok i) ∧ (∀ w, encode64 i = some w → cell w = .ok i)

theorem word32 {i : Instr} {v : BitVec 32} (he : encode32 i = some v) (hc : i.cellParts? = none)
    (hd : i.wellFormed = true → surveyor v = .ok i) : Statement i := by
  intro hw
  refine ⟨fun w h => ?_, fun w h => ?_⟩
  · rw [he] at h; cases h; exact hd hw
  · simp [encode64, hc] at h

theorem word64 {i : Instr} {op : BitVec 8} {w : CellWord} (he : encode32 i = none) (hc : i.cellParts? = some (op, w))
    (ho : ofOpcode op.toNat w = some i) : Statement i := by
  intro hw
  refine ⟨fun v h => ?_, fun v h => ?_⟩
  · rw [he] at h; cases h
  · simp only [encode64, hc, Option.some.injEq] at h; subst h; exact cell_round op w i ho hw

theorem noWord {i : Instr} (he : encode32 i = none) (hc : i.cellParts? = none) : Statement i := by
  intro _
  refine ⟨fun v h => ?_, fun v h => ?_⟩
  · rw [he] at h; cases h
  · simp [encode64, hc] at h


theorem add (rd : Reg) (ra : Reg) (rb : Reg) : Statement (.add rd ra rb) := word32 rfl rfl (fun _ => by simp [surveyor, arith, rrr])
theorem sub (rd : Reg) (ra : Reg) (rb : Reg) : Statement (.sub rd ra rb) := word32 rfl rfl (fun _ => by simp [surveyor, arith, rrr])
theorem mul (rd : Reg) (ra : Reg) (rb : Reg) : Statement (.mul rd ra rb) := word32 rfl rfl (fun _ => by simp [surveyor, arith, rrr])
theorem mulh (rd : Reg) (ra : Reg) (rb : Reg) : Statement (.mulh rd ra rb) := word32 rfl rfl (fun _ => by simp [surveyor, arith, rrr])
theorem mulhn (rd : Reg) (ra : Reg) (rb : Reg) : Statement (.mulhn rd ra rb) := word32 rfl rfl (fun _ => by simp [surveyor, arith, rrr])
theorem div (rd : Reg) (ra : Reg) (rb : Reg) : Statement (.div rd ra rb) := word32 rfl rfl (fun _ => by simp [surveyor, arith, rrr])
theorem divn (rd : Reg) (ra : Reg) (rb : Reg) : Statement (.divn rd ra rb) := word32 rfl rfl (fun _ => by simp [surveyor, arith, rrr])
theorem rem (rd : Reg) (ra : Reg) (rb : Reg) : Statement (.rem rd ra rb) := word32 rfl rfl (fun _ => by simp [surveyor, arith, rrr])
theorem remn (rd : Reg) (ra : Reg) (rb : Reg) : Statement (.remn rd ra rb) := word32 rfl rfl (fun _ => by simp [surveyor, arith, rrr])
theorem and (rd : Reg) (ra : Reg) (rb : Reg) : Statement (.and rd ra rb) := word32 rfl rfl (fun _ => by simp [surveyor, arith, rrr])
theorem or (rd : Reg) (ra : Reg) (rb : Reg) : Statement (.or rd ra rb) := word32 rfl rfl (fun _ => by simp [surveyor, arith, rrr])
theorem xor (rd : Reg) (ra : Reg) (rb : Reg) : Statement (.xor rd ra rb) := word32 rfl rfl (fun _ => by simp [surveyor, arith, rrr])
theorem sll (rd : Reg) (ra : Reg) (rb : Reg) : Statement (.sll rd ra rb) := word32 rfl rfl (fun _ => by simp [surveyor, arith, rrr])
theorem srl (rd : Reg) (ra : Reg) (rb : Reg) : Statement (.srl rd ra rb) := word32 rfl rfl (fun _ => by simp [surveyor, arith, rrr])
theorem sra (rd : Reg) (ra : Reg) (rb : Reg) : Statement (.sra rd ra rb) := word32 rfl rfl (fun _ => by simp [surveyor, arith, rrr])
theorem slt (rd : Reg) (ra : Reg) (rb : Reg) : Statement (.slt rd ra rb) := word32 rfl rfl (fun _ => by simp [surveyor, arith, rrr])
theorem sltn (rd : Reg) (ra : Reg) (rb : Reg) : Statement (.sltn rd ra rb) := word32 rfl rfl (fun _ => by simp [surveyor, arith, rrr])
theorem min (rd : Reg) (ra : Reg) (rb : Reg) : Statement (.min rd ra rb) := word32 rfl rfl (fun _ => by simp [surveyor, arith, rrr])
theorem max (rd : Reg) (ra : Reg) (rb : Reg) : Statement (.max rd ra rb) := word32 rfl rfl (fun _ => by simp [surveyor, arith, rrr])
theorem minn (rd : Reg) (ra : Reg) (rb : Reg) : Statement (.minn rd ra rb) := word32 rfl rfl (fun _ => by simp [surveyor, arith, rrr])
theorem maxn (rd : Reg) (ra : Reg) (rb : Reg) : Statement (.maxn rd ra rb) := word32 rfl rfl (fun _ => by simp [surveyor, arith, rrr])
theorem clz (rd : Reg) (ra : Reg) : Statement (.clz rd ra) := word32 rfl rfl (fun _ => by simp [surveyor, arith, rr])
theorem ctz (rd : Reg) (ra : Reg) : Statement (.ctz rd ra) := word32 rfl rfl (fun _ => by simp [surveyor, arith, rr])
theorem popc (rd : Reg) (ra : Reg) : Statement (.popc rd ra) := word32 rfl rfl (fun _ => by simp [surveyor, arith, rr])
theorem addImmediate (rd : Reg) (ra : Reg) (imm : BitVec 16) : Statement (.addImmediate rd ra imm) := word32 rfl rfl (fun _ => by simp [surveyor, immI])
theorem andImmediate (rd : Reg) (ra : Reg) (imm : BitVec 16) : Statement (.andImmediate rd ra imm) := word32 rfl rfl (fun _ => by simp [surveyor, immI])
theorem orImmediate (rd : Reg) (ra : Reg) (imm : BitVec 16) : Statement (.orImmediate rd ra imm) := word32 rfl rfl (fun _ => by simp [surveyor, immI])
theorem xorImmediate (rd : Reg) (ra : Reg) (imm : BitVec 16) : Statement (.xorImmediate rd ra imm) := word32 rfl rfl (fun _ => by simp [surveyor, immI])
theorem sllImmediate (rd : Reg) (ra : Reg) (sh : BitVec 6) : Statement (.sllImmediate rd ra sh) := word32 rfl rfl (fun _ => by simp [surveyor, immSh])
theorem srlImmediate (rd : Reg) (ra : Reg) (sh : BitVec 6) : Statement (.srlImmediate rd ra sh) := word32 rfl rfl (fun _ => by simp [surveyor, immSh])
theorem sraImmediate (rd : Reg) (ra : Reg) (sh : BitVec 6) : Statement (.sraImmediate rd ra sh) := word32 rfl rfl (fun _ => by simp [surveyor, immSh])
theorem sltImmediate (rd : Reg) (ra : Reg) (imm : BitVec 16) : Statement (.sltImmediate rd ra imm) := word32 rfl rfl (fun _ => by simp [surveyor, immI])
theorem sltnImmediate (rd : Reg) (ra : Reg) (imm : BitVec 16) : Statement (.sltnImmediate rd ra imm) := word32 rfl rfl (fun _ => by simp [surveyor, immI])
theorem mulImmediate (rd : Reg) (ra : Reg) (imm : BitVec 16) : Statement (.mulImmediate rd ra imm) := word32 rfl rfl (fun _ => by simp [surveyor, immI])
theorem lih (rd : Reg) (ra : Reg) (imm : BitVec 16) : Statement (.lih rd ra imm) := word32 rfl rfl (fun _ => by simp [surveyor, immI])
theorem csrr (rd : Reg) (num : BitVec 16) : Statement (.csrr rd num) := word32 rfl rfl (fun _ => by simp [surveyor])
theorem csrw (rd : Reg) (ra : Reg) (num : BitVec 16) : Statement (.csrw rd ra num) := word32 rfl rfl (fun _ => by simp [surveyor, immI])
theorem csrs (rd : Reg) (ra : Reg) (num : BitVec 16) : Statement (.csrs rd ra num) := word32 rfl rfl (fun _ => by simp [surveyor, immI])
theorem csrc (rd : Reg) (ra : Reg) (num : BitVec 16) : Statement (.csrc rd ra num) := word32 rfl rfl (fun _ => by simp [surveyor, immI])
theorem ldS8 (rd : Reg) (ra : Reg) (scope : Scope) (off : BitVec 12) : Statement (.ldS8 rd ra scope off) := word32 rfl rfl (fun _ => by simp [surveyor, fmtM, scope_round])
theorem ldN8 (rd : Reg) (ra : Reg) (scope : Scope) (off : BitVec 12) : Statement (.ldN8 rd ra scope off) := word32 rfl rfl (fun _ => by simp [surveyor, fmtM, scope_round])
theorem ldS16 (rd : Reg) (ra : Reg) (scope : Scope) (off : BitVec 12) : Statement (.ldS16 rd ra scope off) := word32 rfl rfl (fun _ => by simp [surveyor, fmtM, scope_round])
theorem ldN16 (rd : Reg) (ra : Reg) (scope : Scope) (off : BitVec 12) : Statement (.ldN16 rd ra scope off) := word32 rfl rfl (fun _ => by simp [surveyor, fmtM, scope_round])
theorem ldS32 (rd : Reg) (ra : Reg) (scope : Scope) (off : BitVec 12) : Statement (.ldS32 rd ra scope off) := word32 rfl rfl (fun _ => by simp [surveyor, fmtM, scope_round])
theorem ldN32 (rd : Reg) (ra : Reg) (scope : Scope) (off : BitVec 12) : Statement (.ldN32 rd ra scope off) := word32 rfl rfl (fun _ => by simp [surveyor, fmtM, scope_round])
theorem ldN64 (rd : Reg) (ra : Reg) (scope : Scope) (off : BitVec 12) : Statement (.ldN64 rd ra scope off) := word32 rfl rfl (fun _ => by simp [surveyor, fmtM, scope_round])
theorem stN8 (rd : Reg) (ra : Reg) (scope : Scope) (off : BitVec 12) : Statement (.stN8 rd ra scope off) := word32 rfl rfl (fun _ => by simp [surveyor, fmtM, scope_round])
theorem stN16 (rd : Reg) (ra : Reg) (scope : Scope) (off : BitVec 12) : Statement (.stN16 rd ra scope off) := word32 rfl rfl (fun _ => by simp [surveyor, fmtM, scope_round])
theorem stN32 (rd : Reg) (ra : Reg) (scope : Scope) (off : BitVec 12) : Statement (.stN32 rd ra scope off) := word32 rfl rfl (fun _ => by simp [surveyor, fmtM, scope_round])
theorem stN64 (rd : Reg) (ra : Reg) (scope : Scope) (off : BitVec 12) : Statement (.stN64 rd ra scope off) := word32 rfl rfl (fun _ => by simp [surveyor, fmtM, scope_round])
theorem ldvGe (rd : Reg) (ra : Reg) (rb : Reg) (sx : Bool) (size : BitVec 2) (scope : Scope) : Statement (.ldvGe rd ra rb sx size scope) := word32 rfl rfl (fun hw => by cases sx <;> simp_all [surveyor, ldv, Instr.wellFormed])
theorem ldvEq (rd : Reg) (ra : Reg) (rb : Reg) (sx : Bool) (size : BitVec 2) (scope : Scope) : Statement (.ldvEq rd ra rb sx size scope) := word32 rfl rfl (fun hw => by cases sx <;> simp_all [surveyor, ldv, Instr.wellFormed])
theorem stv (rd : Reg) (ra : Reg) (rb : Reg) (size : BitVec 2) (scope : Scope) : Statement (.stv rd ra rb size scope) := word32 rfl rfl (fun _ => by simp [surveyor, Decode.stv])
theorem stvKeep (rd : Reg) (ra : Reg) (rb : Reg) (size : BitVec 2) (scope : Scope) : Statement (.stvKeep rd ra rb size scope) := word32 rfl rfl (fun _ => by simp [surveyor, Decode.stv])
theorem reclaim (rd : Reg) (ra : Reg) (rb : Reg) : Statement (.reclaim rd ra rb) := word32 rfl rfl (fun _ => by simp [surveyor, rrr])
theorem amoAdd (rd : Reg) (ra : Reg) (rb : Reg) (width : AmoWidth) (scope : Scope) : Statement (.amoAdd rd ra rb width scope) := word32 rfl rfl (fun hw => by simp_all [surveyor, amo, Instr.wellFormed])
theorem amoSwp (rd : Reg) (ra : Reg) (rb : Reg) (width : AmoWidth) (scope : Scope) : Statement (.amoSwp rd ra rb width scope) := word32 rfl rfl (fun hw => by simp_all [surveyor, amo, Instr.wellFormed])
theorem amoCas (rd : Reg) (ra : Reg) (rb : Reg) (width : AmoWidth) (scope : Scope) : Statement (.amoCas rd ra rb width scope) := word32 rfl rfl (fun hw => by cases width <;> simp_all [surveyor, amo, Instr.wellFormed])
theorem amoMin (rd : Reg) (ra : Reg) (rb : Reg) (width : AmoWidth) (scope : Scope) : Statement (.amoMin rd ra rb width scope) := word32 rfl rfl (fun hw => by simp_all [surveyor, amo, Instr.wellFormed])
theorem amoMax (rd : Reg) (ra : Reg) (rb : Reg) (width : AmoWidth) (scope : Scope) : Statement (.amoMax rd ra rb width scope) := word32 rfl rfl (fun hw => by simp_all [surveyor, amo, Instr.wellFormed])
theorem amoMinn (rd : Reg) (ra : Reg) (rb : Reg) (width : AmoWidth) (scope : Scope) : Statement (.amoMinn rd ra rb width scope) := word32 rfl rfl (fun hw => by simp_all [surveyor, amo, Instr.wellFormed])
theorem amoMaxn (rd : Reg) (ra : Reg) (rb : Reg) (width : AmoWidth) (scope : Scope) : Statement (.amoMaxn rd ra rb width scope) := word32 rfl rfl (fun hw => by simp_all [surveyor, amo, Instr.wellFormed])
theorem amoAnd (rd : Reg) (ra : Reg) (rb : Reg) (width : AmoWidth) (scope : Scope) : Statement (.amoAnd rd ra rb width scope) := word32 rfl rfl (fun hw => by simp_all [surveyor, amo, Instr.wellFormed])
theorem amoOr (rd : Reg) (ra : Reg) (rb : Reg) (width : AmoWidth) (scope : Scope) : Statement (.amoOr rd ra rb width scope) := word32 rfl rfl (fun hw => by simp_all [surveyor, amo, Instr.wellFormed])
theorem amoXor (rd : Reg) (ra : Reg) (rb : Reg) (width : AmoWidth) (scope : Scope) : Statement (.amoXor rd ra rb width scope) := word32 rfl rfl (fun hw => by simp_all [surveyor, amo, Instr.wellFormed])
theorem pref (ra : Reg) (scope : Scope) (off : BitVec 12) : Statement (.pref ra scope off) := word32 rfl rfl (fun _ => by simp [surveyor, fmtM, scope_round])
theorem fence (scope : Scope) : Statement (.fence scope) := word32 rfl rfl (fun _ => by cases scope <;> rfl)
theorem fenceAcq (scope : Scope) : Statement (.fenceAcq scope) := word32 rfl rfl (fun _ => by cases scope <;> rfl)
theorem fenceRel (scope : Scope) : Statement (.fenceRel scope) := word32 rfl rfl (fun _ => by cases scope <;> rfl)
theorem beq (ra : Reg) (rb : Reg) (off : BitVec 16) : Statement (.beq ra rb off) := word32 rfl rfl (fun _ => by simp [surveyor, fmtB])
theorem bne (ra : Reg) (rb : Reg) (off : BitVec 16) : Statement (.bne ra rb off) := word32 rfl rfl (fun _ => by simp [surveyor, fmtB])
theorem blt (ra : Reg) (rb : Reg) (off : BitVec 16) : Statement (.blt ra rb off) := word32 rfl rfl (fun _ => by simp [surveyor, fmtB])
theorem bge (ra : Reg) (rb : Reg) (off : BitVec 16) : Statement (.bge ra rb off) := word32 rfl rfl (fun _ => by simp [surveyor, fmtB])
theorem bltn (ra : Reg) (rb : Reg) (off : BitVec 16) : Statement (.bltn ra rb off) := word32 rfl rfl (fun _ => by simp [surveyor, fmtB])
theorem bgen (ra : Reg) (rb : Reg) (off : BitVec 16) : Statement (.bgen ra rb off) := word32 rfl rfl (fun _ => by simp [surveyor, fmtB])
theorem jal (rd : Reg) (off : BitVec 21) : Statement (.jal rd off) := word32 rfl rfl (fun _ => by simp [surveyor])
theorem jalr (rd : Reg) (ra : Reg) (imm : BitVec 16) : Statement (.jalr rd ra imm) := word32 rfl rfl (fun _ => by simp [surveyor, immI])
theorem post (rd : Reg) (ra : Reg) (rb : Reg) : Statement (.post rd ra rb) := word32 rfl rfl (fun _ => by simp [surveyor, task, rrr])
theorem bindl (rd : Reg) (ra : Reg) (rb : Reg) : Statement (.bindl rd ra rb) := word32 rfl rfl (fun _ => by simp [surveyor, task, rrr])
theorem armt (rd : Reg) (ra : Reg) (rb : Reg) : Statement (.armt rd ra rb) := word32 rfl rfl (fun _ => by simp [surveyor, task, rrr])
theorem armb (rd : Reg) (ra : Reg) : Statement (.armb rd ra) := word32 rfl rfl (fun _ => by simp [surveyor, task, rr])
theorem arms (rd : Reg) (ra : Reg) : Statement (.arms rd ra) := word32 rfl rfl (fun _ => by simp [surveyor, task, rr])
theorem chp (ra : Reg) (rb : Reg) : Statement (.chp ra rb) := word32 rfl rfl (fun _ => by simp [surveyor, task, rab])
theorem ecall (ra : Reg) (rb : Reg) : Statement (.ecall ra rb) := word32 rfl rfl (fun _ => by simp [surveyor, system, rab])
theorem merid (rd : Reg) : Statement (.merid rd) := word32 rfl rfl (fun _ => by simp [surveyor, system])
theorem stnInit (ra : Reg) (rb : Reg) : Statement (.stnInit ra rb) := word32 rfl rfl (fun _ => by simp [surveyor, engine, engAB])
theorem stnArv (ra : Reg) : Statement (.stnArv ra) := word32 rfl rfl (fun _ => by simp [surveyor, engine, engA])
theorem stnExp (ra : Reg) (rb : Reg) : Statement (.stnExp ra rb) := word32 rfl rfl (fun _ => by simp [surveyor, engine, engAB])
theorem stnDone (ra : Reg) : Statement (.stnDone ra) := word32 rfl rfl (fun _ => by simp [surveyor, engine, engA])
theorem stnTest (rd : Reg) (ra : Reg) : Statement (.stnTest rd ra) := word32 rfl rfl (fun _ => by simp [surveyor, engine, engDA])
theorem trvCopy (rd : Reg) (ra : Reg) (rb : Reg) : Statement (.trvCopy rd ra rb) := word32 rfl rfl (fun _ => by simp [surveyor, engine, eng3])
theorem trvGath (rd : Reg) (ra : Reg) (rb : Reg) : Statement (.trvGath rd ra rb) := word32 rfl rfl (fun _ => by simp [surveyor, engine, eng3])
theorem trvScat (rd : Reg) (ra : Reg) (rb : Reg) : Statement (.trvScat rd ra rb) := word32 rfl rfl (fun _ => by simp [surveyor, engine, eng3])
theorem trvRed (rd : Reg) (ra : Reg) (rb : Reg) : Statement (.trvRed rd ra rb) := word32 rfl rfl (fun _ => by simp [surveyor, engine, eng3])
theorem trvFill (rd : Reg) (ra : Reg) (rb : Reg) : Statement (.trvFill rd ra rb) := word32 rfl rfl (fun _ => by simp [surveyor, engine, eng3])
theorem trvFeed (rd : Reg) (ra : Reg) (rb : Reg) : Statement (.trvFeed rd ra rb) := word32 rfl rfl (fun _ => by simp [surveyor, engine, eng3])
theorem trvFollow (ra : Reg) : Statement (.trvFollow ra) := word32 rfl rfl (fun _ => by simp [surveyor, engine, engA])
theorem trvPub (rd : Reg) (ra : Reg) : Statement (.trvPub rd ra) := word32 rfl rfl (fun _ => by simp [surveyor, engine, engDA])
theorem trvXst (rd : Reg) (ra : Reg) (rb : Reg) : Statement (.trvXst rd ra rb) := word32 rfl rfl (fun _ => by simp [surveyor, engine, eng3])
theorem trvCanc (ra : Reg) : Statement (.trvCanc ra) := word32 rfl rfl (fun _ => by simp [surveyor, engine, engA])
theorem trvStat (rd : Reg) (ra : Reg) : Statement (.trvStat rd ra) := word32 rfl rfl (fun _ => by simp [surveyor, engine, engDA])
theorem bufSet (ra : Reg) (rb : Reg) : Statement (.bufSet ra rb) := word32 rfl rfl (fun _ => by simp [surveyor, engine, engAB])
theorem bufFree (ra : Reg) : Statement (.bufFree ra) := word32 rfl rfl (fun _ => by simp [surveyor, engine, engA])
theorem bufStat (rd : Reg) (ra : Reg) : Statement (.bufStat rd ra) := word32 rfl rfl (fun _ => by simp [surveyor, engine, engDA])
theorem endMake (rd : Reg) (ra : Reg) : Statement (.endMake rd ra) := word32 rfl rfl (fun _ => by simp [surveyor, engine, engDA])
theorem endBind (rd : Reg) (ra : Reg) (rb : Reg) : Statement (.endBind rd ra rb) := word32 rfl rfl (fun _ => by simp [surveyor, engine, eng3])
theorem endClose (ra : Reg) : Statement (.endClose ra) := word32 rfl rfl (fun _ => by simp [surveyor, engine, engA])
theorem endStat (rd : Reg) (ra : Reg) : Statement (.endStat rd ra) := word32 rfl rfl (fun _ => by simp [surveyor, engine, engDA])
theorem grLdw (rd : Reg) (ra : Reg) (rb : Reg) : Statement (.grLdw rd ra rb) := word32 rfl rfl (fun _ => by simp [surveyor, engine, eng3])
theorem grMm (rd : Reg) (ra : Reg) (rb : Reg) : Statement (.grMm rd ra rb) := word32 rfl rfl (fun _ => by simp [surveyor, engine, eng3])
theorem grScan (rd : Reg) (ra : Reg) (rb : Reg) : Statement (.grScan rd ra rb) := word32 rfl rfl (fun _ => by simp [surveyor, engine, eng3])
theorem grDrn (rd : Reg) (ra : Reg) (rb : Reg) : Statement (.grDrn rd ra rb) := word32 rfl rfl (fun _ => by simp [surveyor, engine, eng3])
theorem grZero (ra : Reg) : Statement (.grZero ra) := word32 rfl rfl (fun _ => by simp [surveyor, engine, engA])
theorem grSave (rd : Reg) (ra : Reg) (rb : Reg) : Statement (.grSave rd ra rb) := word32 rfl rfl (fun _ => by simp [surveyor, engine, eng3])
theorem grRest (rd : Reg) (ra : Reg) (rb : Reg) : Statement (.grRest rd ra rb) := word32 rfl rfl (fun _ => by simp [surveyor, engine, eng3])
theorem grStat (rd : Reg) (ra : Reg) : Statement (.grStat rd ra) := word32 rfl rfl (fun _ => by simp [surveyor, engine, engDA])
theorem twSeek (rd : Reg) (ra : Reg) (rb : Reg) : Statement (.twSeek rd ra rb) := word32 rfl rfl (fun _ => by simp [surveyor, engine, eng3])
theorem twRead (rd : Reg) (ra : Reg) : Statement (.twRead rd ra) := word32 rfl rfl (fun _ => by simp [surveyor, engine, engDA])
theorem twEnc (rd : Reg) (ra : Reg) (rb : Reg) : Statement (.twEnc rd ra rb) := word32 rfl rfl (fun _ => by simp [surveyor, engine, eng3])
theorem twStat (rd : Reg) (ra : Reg) : Statement (.twStat rd ra) := word32 rfl rfl (fun _ => by simp [surveyor, engine, engDA])
theorem cpOpen (ra : Reg) : Statement (.cpOpen ra) := word32 rfl rfl (fun _ => by simp [surveyor, engine, engA])
theorem cpOper (ra : Reg) (rb : Reg) : Statement (.cpOper ra rb) := word32 rfl rfl (fun _ => by simp [surveyor, engine, engAB])
theorem cpExpl (ra : Reg) : Statement (.cpExpl ra) := word32 rfl rfl (fun _ => by simp [surveyor, engine, engA])
theorem cpObs (rd : Reg) (ra : Reg) : Statement (.cpObs rd ra) := word32 rfl rfl (fun _ => by simp [surveyor, engine, engDA])
theorem cpFix (ra : Reg) : Statement (.cpFix ra) := word32 rfl rfl (fun _ => by simp [surveyor, engine, engA])
theorem cpJoin (ra : Reg) (rb : Reg) : Statement (.cpJoin ra rb) := word32 rfl rfl (fun _ => by simp [surveyor, engine, engAB])
theorem cpClose (ra : Reg) : Statement (.cpClose ra) := word32 rfl rfl (fun _ => by simp [surveyor, engine, engA])
theorem scrOpen (rd : Reg) (ra : Reg) (rb : Reg) : Statement (.scrOpen rd ra rb) := word32 rfl rfl (fun _ => by simp [surveyor, engine, eng3])
theorem scrCnt (rd : Reg) (ra : Reg) : Statement (.scrCnt rd ra) := word32 rfl rfl (fun _ => by simp [surveyor, engine, engDA])
theorem segName (rd : Reg) (ra : Reg) (rb : Reg) : Statement (.segName rd ra rb) := word32 rfl rfl (fun _ => by simp [surveyor, engine, eng3])
theorem segAtt (rd : Reg) (ra : Reg) (rb : Reg) : Statement (.segAtt rd ra rb) := word32 rfl rfl (fun _ => by simp [surveyor, engine, eng3])
theorem segDet (ra : Reg) : Statement (.segDet ra) := word32 rfl rfl (fun _ => by simp [surveyor, engine, engA])
theorem segPin (ra : Reg) (rb : Reg) : Statement (.segPin ra rb) := word32 rfl rfl (fun _ => by simp [surveyor, engine, engAB])
theorem segEvt (ra : Reg) (rb : Reg) : Statement (.segEvt ra rb) := word32 rfl rfl (fun _ => by simp [surveyor, engine, engAB])
theorem segDrop (ra : Reg) : Statement (.segDrop ra) := word32 rfl rfl (fun _ => by simp [surveyor, engine, engA])
theorem segStat (rd : Reg) (ra : Reg) : Statement (.segStat rd ra) := word32 rfl rfl (fun _ => by simp [surveyor, engine, engDA])
theorem projInv (ra : Reg) (rb : Reg) : Statement (.projInv ra rb) := word32 rfl rfl (fun _ => by simp [surveyor, engine, engAB])
theorem projProbe (rd : Reg) (ra : Reg) (rb : Reg) : Statement (.projProbe rd ra rb) := word32 rfl rfl (fun _ => by simp [surveyor, engine, eng3])
theorem pageDup (ra : Reg) (rb : Reg) : Statement (.pageDup ra rb) := word32 rfl rfl (fun _ => by simp [surveyor, engine, engAB])
theorem sndSet (ra : Reg) (rb : Reg) : Statement (.sndSet ra rb) := word32 rfl rfl (fun _ => by simp [surveyor, engine, engAB])
theorem sndOut (rd : Reg) (ra : Reg) : Statement (.sndOut rd ra) := word32 rfl rfl (fun _ => by simp [surveyor, engine, engDA])
theorem sndIn (rd : Reg) (ra : Reg) : Statement (.sndIn rd ra) := word32 rfl rfl (fun _ => by simp [surveyor, engine, engDA])
theorem sndStat (rd : Reg) (ra : Reg) : Statement (.sndStat rd ra) := word32 rfl rfl (fun _ => by simp [surveyor, engine, engDA])
theorem qKick (ra : Reg) (rb : Reg) : Statement (.qKick ra rb) := word32 rfl rfl (fun _ => by simp [surveyor, engine, engAB])
theorem strmIn (rd : Reg) (ra : Reg) (rb : Reg) : Statement (.strmIn rd ra rb) := word32 rfl rfl (fun _ => by simp [surveyor, engine, eng3])
theorem strmOut (rd : Reg) (ra : Reg) (rb : Reg) : Statement (.strmOut rd ra rb) := word32 rfl rfl (fun _ => by simp [surveyor, engine, eng3])
theorem strmBar (ra : Reg) : Statement (.strmBar ra) := word32 rfl rfl (fun _ => by simp [surveyor, engine, engA])
theorem strmStop (ra : Reg) : Statement (.strmStop ra) := word32 rfl rfl (fun _ => by simp [surveyor, engine, engA])
theorem strmStat (rd : Reg) (ra : Reg) : Statement (.strmStat rd ra) := word32 rfl rfl (fun _ => by simp [surveyor, engine, engDA])
theorem illegalInstructionWord (word : BitVec 32) : Statement (.illegalInstructionWord word) := noWord rfl rfl
theorem instructionFetchFault (code : Byte) : Statement (.instructionFetchFault code) := noWord rfl rfl
theorem iadd (w : CellWord) : Statement (.iadd w) := word64 rfl rfl rfl
theorem isub (w : CellWord) : Statement (.isub w) := word64 rfl rfl rfl
theorem iadds (w : CellWord) : Statement (.iadds w) := word64 rfl rfl rfl
theorem isubs (w : CellWord) : Statement (.isubs w) := word64 rfl rfl rfl
theorem imul (w : CellWord) : Statement (.imul w) := word64 rfl rfl rfl
theorem imulh (w : CellWord) : Statement (.imulh w) := word64 rfl rfl rfl
theorem imad (w : CellWord) : Statement (.imad w) := word64 rfl rfl rfl
theorem imin (w : CellWord) : Statement (.imin w) := word64 rfl rfl rfl
theorem imax (w : CellWord) : Statement (.imax w) := word64 rfl rfl rfl
theorem iabs (w : CellWord) : Statement (.iabs w) := word64 rfl rfl rfl
theorem ineg (w : CellWord) : Statement (.ineg w) := word64 rfl rfl rfl
theorem iavg (w : CellWord) : Statement (.iavg w) := word64 rfl rfl rfl
theorem shl (w : CellWord) : Statement (.shl w) := word64 rfl rfl rfl
theorem shr (w : CellWord) : Statement (.shr w) := word64 rfl rfl rfl
theorem sar (w : CellWord) : Statement (.sar w) := word64 rfl rfl rfl
theorem rot (w : CellWord) : Statement (.rot w) := word64 rfl rfl rfl
theorem cellAnd (w : CellWord) : Statement (.cellAnd w) := word64 rfl rfl rfl
theorem cellOr (w : CellWord) : Statement (.cellOr w) := word64 rfl rfl rfl
theorem cellXor (w : CellWord) : Statement (.cellXor w) := word64 rfl rfl rfl
theorem andn (w : CellWord) : Statement (.andn w) := word64 rfl rfl rfl
theorem not (w : CellWord) : Statement (.not w) := word64 rfl rfl rfl
theorem cellClz (w : CellWord) : Statement (.cellClz w) := word64 rfl rfl rfl
theorem cellCtz (w : CellWord) : Statement (.cellCtz w) := word64 rfl rfl rfl
theorem ffs (w : CellWord) : Statement (.ffs w) := word64 rfl rfl rfl
theorem cellPopc (w : CellWord) : Statement (.cellPopc w) := word64 rfl rfl rfl
theorem brev (w : CellWord) : Statement (.brev w) := word64 rfl rfl rfl
theorem bfx (w : CellWord) : Statement (.bfx w) := word64 rfl rfl rfl
theorem bfi (w : CellWord) : Statement (.bfi w) := word64 rfl rfl rfl
theorem icmp (w : CellWord) : Statement (.icmp w) := word64 rfl rfl rfl
theorem sel (w : CellWord) : Statement (.sel w) := word64 rfl rfl rfl
theorem mov (w : CellWord) : Statement (.mov w) := word64 rfl rfl rfl
theorem movc (w : CellWord) : Statement (.movc w) := word64 rfl rfl rfl
theorem bcst (w : CellWord) : Statement (.bcst w) := word64 rfl rfl rfl
theorem lprm (w : CellWord) : Statement (.lprm w) := word64 rfl rfl rfl
theorem lshf (w : CellWord) : Statement (.lshf w) := word64 rfl rfl rfl
theorem redi (w : CellWord) : Statement (.redi w) := word64 rfl rfl rfl
theorem scni (w : CellWord) : Statement (.scni w) := word64 rfl rfl rfl
theorem dot4 (w : CellWord) : Statement (.dot4 w) := word64 rfl rfl rfl
theorem dot2 (w : CellWord) : Statement (.dot2 w) := word64 rfl rfl rfl
theorem kop (w : CellWord) : Statement (.kop w) := word64 rfl rfl rfl
theorem enq (w : CellWord) : Statement (.enq w) := word64 rfl rfl rfl
theorem deq (w : CellWord) : Statement (.deq w) := word64 rfl rfl rfl
theorem adv (w : CellWord) : Statement (.adv w) := word64 rfl rfl rfl
theorem peek (w : CellWord) : Statement (.peek w) := word64 rfl rfl rfl
theorem qstat (w : CellWord) : Statement (.qstat w) := word64 rfl rfl rfl
theorem cellLd (w : CellWord) : Statement (.cellLd w) := word64 rfl rfl rfl
theorem cellSt (w : CellWord) : Statement (.cellSt w) := word64 rfl rfl rfl
theorem walk (w : CellWord) : Statement (.walk w) := word64 rfl rfl rfl
theorem atom (w : CellWord) : Statement (.atom w) := word64 rfl rfl rfl
theorem cellLdv (w : CellWord) : Statement (.cellLdv w) := word64 rfl rfl rfl
theorem cellStv (w : CellWord) : Statement (.cellStv w) := word64 rfl rfl rfl
theorem fadd (w : CellWord) : Statement (.fadd w) := word64 rfl rfl rfl
theorem fsub (w : CellWord) : Statement (.fsub w) := word64 rfl rfl rfl
theorem fmul (w : CellWord) : Statement (.fmul w) := word64 rfl rfl rfl
theorem ffma (w : CellWord) : Statement (.ffma w) := word64 rfl rfl rfl
theorem fmin (w : CellWord) : Statement (.fmin w) := word64 rfl rfl rfl
theorem fmax (w : CellWord) : Statement (.fmax w) := word64 rfl rfl rfl
theorem fabs (w : CellWord) : Statement (.fabs w) := word64 rfl rfl rfl
theorem fneg (w : CellWord) : Statement (.fneg w) := word64 rfl rfl rfl
theorem fcmp (w : CellWord) : Statement (.fcmp w) := word64 rfl rfl rfl
theorem frcp (w : CellWord) : Statement (.frcp w) := word64 rfl rfl rfl
theorem frsq (w : CellWord) : Statement (.frsq w) := word64 rfl rfl rfl
theorem fsqrt (w : CellWord) : Statement (.fsqrt w) := word64 rfl rfl rfl
theorem fexp2 (w : CellWord) : Statement (.fexp2 w) := word64 rfl rfl rfl
theorem flog2 (w : CellWord) : Statement (.flog2 w) := word64 rfl rfl rfl
theorem ftanh (w : CellWord) : Statement (.ftanh w) := word64 rfl rfl rfl
theorem fsigm (w : CellWord) : Statement (.fsigm w) := word64 rfl rfl rfl
theorem fsinp (w : CellWord) : Statement (.fsinp w) := word64 rfl rfl rfl
theorem frnd (w : CellWord) : Statement (.frnd w) := word64 rfl rfl rfl
theorem fcls (w : CellWord) : Statement (.fcls w) := word64 rfl rfl rfl
theorem redf (w : CellWord) : Statement (.redf w) := word64 rfl rfl rfl
theorem scnf (w : CellWord) : Statement (.scnf w) := word64 rfl rfl rfl
theorem topk (w : CellWord) : Statement (.topk w) := word64 rfl rfl rfl
theorem cvt (w : CellWord) : Statement (.cvt w) := word64 rfl rfl rfl
theorem bq (w : CellWord) : Statement (.bq w) := word64 rfl rfl rfl
theorem bdq (w : CellWord) : Statement (.bdq w) := word64 rfl rfl rfl
theorem sclb (w : CellWord) : Statement (.sclb w) := word64 rfl rfl rfl
theorem wadp (w : CellWord) : Statement (.wadp w) := word64 rfl rfl rfl
theorem gate (w : CellWord) : Statement (.gate w) := word64 rfl rfl rfl
theorem dly (w : CellWord) : Statement (.dly w) := word64 rfl rfl rfl
theorem mrg (w : CellWord) : Statement (.mrg w) := word64 rfl rfl rfl
theorem str (w : CellWord) : Statement (.str w) := word64 rfl rfl rfl
theorem tag (w : CellWord) : Statement (.tag w) := word64 rfl rfl rfl
theorem proj (w : CellWord) : Statement (.proj w) := word64 rfl rfl rfl
theorem widn (w : CellWord) : Statement (.widn w) := word64 rfl rfl rfl
theorem hin (w : CellWord) : Statement (.hin w) := word64 rfl rfl rfl
theorem hout (w : CellWord) : Statement (.hout w) := word64 rfl rfl rfl
theorem rdon (w : CellWord) : Statement (.rdon w) := word64 rfl rfl rfl
theorem rrte (w : CellWord) : Statement (.rrte w) := word64 rfl rfl rfl
theorem pois (w : CellWord) : Statement (.pois w) := word64 rfl rfl rfl
theorem halt (w : CellWord) : Statement (.halt w) := word64 rfl rfl rfl
theorem trap (w : CellWord) : Statement (.trap w) := word64 rfl rfl rfl
theorem nop (w : CellWord) : Statement (.nop w) := word64 rfl rfl rfl
theorem endt : Statement (.endt) := word32 rfl rfl (fun _ => rfl)
theorem tret : Statement (.tret) := word32 rfl rfl (fun _ => rfl)
theorem powerUp : Statement (.powerUp) := noWord rfl rfl
theorem deviceReset : Statement (.deviceReset) := noWord rfl rfl
theorem stagedImageLengthWrite (image : List Byte) (len : Nat) : Statement (.stagedImageLengthWrite image len) := noWord rfl rfl
theorem securityVersionRaise (version : Nat) : Statement (.securityVersionRaise version) := noWord rfl rfl
theorem spdmMeasurementRequest (index : Nat) (nonce : Nat) : Statement (.spdmMeasurementRequest index nonce) := noWord rfl rfl
theorem regionFatalError (origin : Nat) (code : Byte) (parcel : Nat) : Statement (.regionFatalError origin code parcel) := noWord rfl rfl
theorem deviceFatalError (code : Byte) : Statement (.deviceFatalError code) := noWord rfl rfl
theorem parcelPowerGate (p : Nat) : Statement (.parcelPowerGate p) := noWord rfl rfl
theorem parcelWake (p : Nat) : Statement (.parcelWake p) := noWord rfl rfl
theorem kickRegisterWrite (q : Nat) (size : Nat) (value : Word) (writer : Writer) : Statement (.kickRegisterWrite q size value writer) := noWord rfl rfl
theorem dependenceCounterCheck (launch : Nat) : Statement (.dependenceCounterCheck launch) := noWord rfl rfl
theorem regionSchedulerDecision : Statement (.regionSchedulerDecision) := noWord rfl rfl
theorem configurationPacket (origin : Nat) : Statement (.configurationPacket origin) := noWord rfl rfl
theorem parcelLoad (p : Nat) : Statement (.parcelLoad p) := noWord rfl rfl
theorem startPacket (origin : Nat) : Statement (.startPacket origin) := noWord rfl rfl
theorem preemptionDrained (origin : Nat) : Statement (.preemptionDrained origin) := noWord rfl rfl
theorem regionExit (origin : Nat) : Statement (.regionExit origin) := noWord rfl rfl
theorem packetArrival (k : Nat) : Statement (.packetArrival k) := noWord rfl rfl
theorem outboundPacketSend (p : Nat) (dest : Nat) : Statement (.outboundPacketSend p dest) := noWord rfl rfl
theorem taskDispatch (p : Nat) : Statement (.taskDispatch p) := noWord rfl rfl
theorem channelPromotion (p : Nat) (ch : Nat) : Statement (.channelPromotion p ch) := noWord rfl rfl
theorem timeWakeupFire (p : Nat) (ch : Nat) : Statement (.timeWakeupFire p ch) := noWord rfl rfl
theorem controlRegisterWrite (p : Nat) (num : Nat) (value : Word) : Statement (.controlRegisterWrite p num value) := noWord rfl rfl
theorem bindingWrite (p : Nat) (ch : Nat) (handler : Word) (arg : Word) : Statement (.bindingWrite p ch handler arg) := noWord rfl rfl
theorem readyBitsWrite (p : Nat) (value : Word) : Statement (.readyBitsWrite p value) := noWord rfl rfl
theorem wakeupSlotArmTime (p : Nat) (ch : Nat) (value : Word) : Statement (.wakeupSlotArmTime p ch value) := noWord rfl rfl
theorem wakeupSlotArmBuffer (p : Nat) (ch : Nat) (value : Word) : Statement (.wakeupSlotArmBuffer p ch value) := noWord rfl rfl
theorem wakeupSlotArmStation (p : Nat) (ch : Nat) (value : Word) : Statement (.wakeupSlotArmStation p ch value) := noWord rfl rfl
theorem wakeupSlotDisarm (p : Nat) (ch : Nat) (value : Word) : Statement (.wakeupSlotDisarm p ch value) := noWord rfl rfl
theorem wakeupSlotArgumentWrite (p : Nat) (ch : Nat) (arg : Word) (time : Word) : Statement (.wakeupSlotArgumentWrite p ch arg time) := noWord rfl rfl
theorem laneRegisterWindowWrite (p : Nat) (m : Nat) (off : Nat) (bytes : List Byte) : Statement (.laneRegisterWindowWrite p m off bytes) := noWord rfl rfl
theorem contextStoreWrite (p : Nat) (m : Nat) (off : Nat) (bytes : List Byte) (writer : Writer) : Statement (.contextStoreWrite p m off bytes writer) := noWord rfl rfl
theorem queueWindowWrite (p : Nat) (m : Nat) (off : Nat) (bytes : List Byte) (writer : Writer) : Statement (.queueWindowWrite p m off bytes writer) := noWord rfl rfl
theorem cellContinue (p : Nat) (m : Nat) : Statement (.cellContinue p m) := noWord rfl rfl
theorem cellSkip (p : Nat) (m : Nat) : Statement (.cellSkip p m) := noWord rfl rfl
theorem resumeRegion (p : Nat) (m : Nat) : Statement (.resumeRegion p m) := noWord rfl rfl
theorem inputWordArrival (src : LinkSource) : Statement (.inputWordArrival src) := noWord rfl rfl
theorem outputWordSend (p : Nat) (m : Nat) (q : Nat) : Statement (.outputWordSend p m q) := noWord rfl rfl
theorem delayExpiry (p : Nat) (m : Nat) (q : Nat) : Statement (.delayExpiry p m q) := noWord rfl rfl
theorem cellHalt (p : Nat) (m : Nat) : Statement (.cellHalt p m) := noWord rfl rfl
theorem cellPoisoned (p : Nat) (m : Nat) : Statement (.cellPoisoned p m) := noWord rfl rfl
theorem addressPortResponse (p : Nat) (m : Nat) : Statement (.addressPortResponse p m) := noWord rfl rfl
theorem lateFault (p : Nat) (m : Nat) : Statement (.lateFault p m) := noWord rfl rfl
theorem walkNode (p : Nat) (m : Nat) : Statement (.walkNode p m) := noWord rfl rfl
theorem widenerReleaseComplete (p : Nat) (m : Nat) : Statement (.widenerReleaseComplete p m) := noWord rfl rfl
theorem hangMonitorFire (origin : Nat) : Statement (.hangMonitorFire origin) := noWord rfl rfl
theorem heldLdvComplete (p : Nat) (m : Nat) : Statement (.heldLdvComplete p m) := noWord rfl rfl
theorem stationArrival (k : Nat) : Statement (.stationArrival k) := noWord rfl rfl
theorem stationBytes (k : Nat) : Statement (.stationBytes k) := noWord rfl rfl
theorem exchangeWriteArrival (k : Nat) : Statement (.exchangeWriteArrival k) := noWord rfl rfl
theorem fenceMarkerArrival (k : Nat) : Statement (.fenceMarkerArrival k) := noWord rfl rfl
theorem publish (k : Nat) : Statement (.publish k) := noWord rfl rfl
theorem streamStart (p : Nat) (slot : Nat) : Statement (.streamStart p slot) := noWord rfl rfl
theorem loaderWord (p : Nat) (slot : Nat) : Statement (.loaderWord p slot) := noWord rfl rfl
theorem storerWord (p : Nat) (slot : Nat) : Statement (.storerWord p slot) := noWord rfl rfl
theorem streamComplete (p : Nat) (slot : Nat) : Statement (.streamComplete p slot) := noWord rfl rfl
theorem streamFault (p : Nat) (slot : Nat) (code : Byte) : Statement (.streamFault p slot code) := noWord rfl rfl
theorem traverseBytesLand (p : Nat) (slot : Nat) : Statement (.traverseBytesLand p slot) := noWord rfl rfl
theorem traverseComplete (p : Nat) (slot : Nat) : Statement (.traverseComplete p slot) := noWord rfl rfl
theorem traverseFault (p : Nat) (slot : Nat) (code : Byte) : Statement (.traverseFault p slot code) := noWord rfl rfl
theorem freedSlotNotice (p : Nat) (handle : Nat) : Statement (.freedSlotNotice p handle) := noWord rfl rfl
theorem followOnIssue (p : Nat) (slot : Nat) : Statement (.followOnIssue p slot) := noWord rfl rfl
theorem reductionTile (k : Nat) : Statement (.reductionTile k) := noWord rfl rfl
theorem skipMarker (k : Nat) : Statement (.skipMarker k) := noWord rfl rfl
theorem graticuleCommandStart (p : Nat) : Statement (.graticuleCommandStart p) := noWord rfl rfl
theorem tileDone (p : Nat) : Statement (.tileDone p) := noWord rfl rfl
theorem aStreamWord (p : Nat) : Statement (.aStreamWord p) := noWord rfl rfl
theorem drainComplete (p : Nat) : Statement (.drainComplete p) := noWord rfl rfl
theorem graticuleCommandComplete (p : Nat) : Statement (.graticuleCommandComplete p) := noWord rfl rfl
theorem graticuleFault (p : Nat) (code : Byte) : Statement (.graticuleFault p code) := noWord rfl rfl
theorem graticulePause (p : Nat) : Statement (.graticulePause p) := noWord rfl rfl
theorem encoderRow (prov : Nat) : Statement (.encoderRow prov) := noWord rfl rfl
theorem encoderFault (prov : Nat) (code : Byte) : Statement (.encoderFault prov code) := noWord rfl rfl
theorem bindRequest (k : Nat) : Statement (.bindRequest k) := noWord rfl rfl
theorem itemEntry (p : Nat) (port : Nat) : Statement (.itemEntry p port) := noWord rfl rfl
theorem itemDelivery (p : Nat) (port : Nat) : Statement (.itemDelivery p port) := noWord rfl rfl
theorem itemAcknowledge (p : Nat) (number : Nat) : Statement (.itemAcknowledge p number) := noWord rfl rfl
theorem migrationMarker (p : Nat) (number : Nat) : Statement (.migrationMarker p number) := noWord rfl rfl
theorem recordAdmission (sheet : Nat) : Statement (.recordAdmission sheet) := noWord rfl rfl
theorem recordReturn (sheet : Nat) : Statement (.recordReturn sheet) := noWord rfl rfl
theorem joinRecord (sheet : Nat) : Statement (.joinRecord sheet) := noWord rfl rfl
theorem queryClosed (sheet : Nat) : Statement (.queryClosed sheet) := noWord rfl rfl
theorem scribeItem (p : Nat) : Statement (.scribeItem p) := noWord rfl rfl
theorem scribeSourceComplete (p : Nat) : Statement (.scribeSourceComplete p) := noWord rfl rfl
theorem spillComplete (seg : Nat) : Statement (.spillComplete seg) := noWord rfl rfl
theorem reloadComplete (seg : Nat) : Statement (.reloadComplete seg) := noWord rfl rfl
theorem segmentTransferFault (seg : Nat) (code : Byte) : Statement (.segmentTransferFault seg code) := noWord rfl rfl
theorem tableWalk (prov : Nat) (asid : Nat) (va : Nat) : Statement (.tableWalk prov asid va) := noWord rfl rfl
theorem invalidateComplete (k : Nat) : Statement (.invalidateComplete k) := noWord rfl rfl
theorem collapse (asid : Nat) (va : Nat) (prov : Nat) : Statement (.collapse asid va prov) := noWord rfl rfl
theorem pageDupComplete (k : Nat) : Statement (.pageDupComplete k) := noWord rfl rfl
theorem soundingPageLand (set : Nat) (entry : Nat) : Statement (.soundingPageLand set entry) := noWord rfl rfl
theorem soundingOutComplete (set : Nat) : Statement (.soundingOutComplete set) := noWord rfl rfl
theorem soundingInComplete (set : Nat) : Statement (.soundingInComplete set) := noWord rfl rfl
theorem soundingFault (set : Nat) (code : Byte) (word1 : Word) : Statement (.soundingFault set code word1) := noWord rfl rfl
theorem doorbellWrite (off : Nat) (size : Nat) (value : Word) : Statement (.doorbellWrite off size value) := noWord rfl rfl
theorem hostIngressDeliver (origin : Nat) (db : Nat) : Statement (.hostIngressDeliver origin db) := noWord rfl rfl
theorem bar4Read (off : Nat) (size : Nat) : Statement (.bar4Read off size) := noWord rfl rfl
theorem bar4Write (off : Nat) (bytes : List Byte) : Statement (.bar4Write off bytes) := noWord rfl rfl
theorem bar2Read (off : Nat) : Statement (.bar2Read off) := noWord rfl rfl
theorem hostAtomicopRequest (bar : Nat) (off : Nat) : Statement (.hostAtomicopRequest bar off) := noWord rfl rfl
theorem hostCompletion (tag : Nat) (status : CompletionStatus) (data : List Byte) : Statement (.hostCompletion tag status data) := noWord rfl rfl
theorem hostTimeout (tag : Nat) : Statement (.hostTimeout tag) := noWord rfl rfl
theorem flitReceive (port : Nat) (flit : Flit) : Statement (.flitReceive port flit) := noWord rfl rfl
theorem replayRequest (port : Nat) (seq : Nat) : Statement (.replayRequest port seq) := noWord rfl rfl
theorem resendNotice (dest : Nat) (seq : Nat) : Statement (.resendNotice dest seq) := noWord rfl rfl
theorem packetAcknowledge (dest : Nat) (seq : Nat) : Statement (.packetAcknowledge dest seq) := noWord rfl rfl
theorem portRetrainFailure (port : Nat) : Statement (.portRetrainFailure port) := noWord rfl rfl
theorem debugRun : Statement (.debugRun) := noWord rfl rfl
theorem debugCont : Statement (.debugCont) := noWord rfl rfl
theorem debugStep : Statement (.debugStep) := noWord rfl rfl
theorem breakTask (ch : Nat) : Statement (.breakTask ch) := noWord rfl rfl
theorem breakCell (p : Nat) (m : Nat) (slot : Nat) : Statement (.breakCell p m slot) := noWord rfl rfl
theorem breakFault : Statement (.breakFault) := noWord rfl rfl
theorem breakPromise : Statement (.breakPromise) := noWord rfl rfl
theorem breakKick (q : Nat) : Statement (.breakKick q) := noWord rfl rfl
theorem printRegister (n : Nat) : Statement (.printRegister n) := noWord rfl rfl
theorem printControlRegister (num : Nat) : Statement (.printControlRegister num) := noWord rfl rfl
theorem printLaneRegister (n : Nat) : Statement (.printLaneRegister n) := noWord rfl rfl
theorem printPredicates : Statement (.printPredicates) := noWord rfl rfl
theorem printWindowRegister (n : Nat) : Statement (.printWindowRegister n) := noWord rfl rfl
theorem showQueues : Statement (.showQueues) := noWord rfl rfl
theorem showBuffers : Statement (.showBuffers) := noWord rfl rfl
theorem showStations : Statement (.showStations) := noWord rfl rfl
theorem showStreams : Statement (.showStreams) := noWord rfl rfl
theorem showCompass : Statement (.showCompass) := noWord rfl rfl
theorem showSegments : Statement (.showSegments) := noWord rfl rfl
theorem showQueue (q : Nat) : Statement (.showQueue q) := noWord rfl rfl
theorem printMeridian : Statement (.printMeridian) := noWord rfl rfl
theorem parcelReset (p : Nat) : Statement (.parcelReset p) := noWord rfl rfl
theorem deviceControlRangeWrite (off : Nat) (bytes : List Byte) (writer : Writer) : Statement (.deviceControlRangeWrite off bytes writer) := noWord rfl rfl
theorem correctedSoftError (parcel : Nat) (value : Word) : Statement (.correctedSoftError parcel value) := noWord rfl rfl
theorem systemConfiguration (x : Nat) (y : Nat) (z : Nat) (number : Nat) : Statement (.systemConfiguration x y z number) := noWord rfl rfl
theorem ideKeyProgramming (stream : Nat) (config : Nat) : Statement (.ideKeyProgramming stream config) := noWord rfl rfl
theorem pcieConfigurationWrite (reg : Nat) (value : Word) : Statement (.pcieConfigurationWrite reg value) := noWord rfl rfl

end Sys2Proof.Laws.RoundTrip
end

