-- ==== Sys2Proof/Laws/Requests.lean ====
section
/-! SUPPORT. When the checks of an engine request pass: what its instruction asks of the descriptor, as conditions on the
state. -/

namespace Sys2Proof.Laws

open Sys2Proof Sys2Proof.Machine

theorem act_bind_ok {α β : Type} {k : Act α} {f : α → Act β} {s t : State} {a : α} (h : k s = .ok a t) :
    (k >>= f) s = f a t := by
  simp [bind, EStateM.bind, h]
theorem check_of {c : Bool} {x : Byte} {v : Word} {s : State} (h : c = true) : check c x v s = .ok () s := by
  rw [h]; rfl

theorem legendOf_ok {s : State} {p idx : Nat} (h : s.hasLegend p idx = true) :
    legendOf p idx s = .ok (s.legendAt p idx) s := by
  obtain ⟨e, he⟩ := Option.isSome_iff_exists.mp h
  have hl : s.legendAt p idx = e := by rw [State.legendAt, he]; rfl
  rw [hl]
  show (match (s.regionOf p).bind fun x => x.2.entry idx with
    | some e => pure e | none => raise codeIllegal 0 : Act Legend) s = _
  rw [he]; rfl
theorem baseOf_ok {s : State} {p : Nat} {e : Legend} (h : s.hasBase p e = true) :
    baseOf p e s = .ok (((s.regionOf p).bind fun x => s.legendBase x.1 x.2 e).getD 0) s := by
  obtain ⟨b, hb⟩ := Option.isSome_iff_exists.mp h
  show (match (s.regionOf p).bind fun x => s.legendBase x.1 x.2 e with
    | some b => pure b | none => raise codeAttachMiss (lgAddress e) : Act Word) s = _
  rw [hb]; rfl

/-- A descriptor that its kind allows passes every check. -/
theorem checkDescriptor_ok {s : State} {p : Nat} {t : TravSlot} (h : s.describes p t = true) :
    checkDescriptor p t s = .ok () s := by
  simp only [State.describes, Bool.and_eq_true] at h
  obtain ⟨⟨⟨⟨⟨⟨h1, h2⟩, h3⟩, h4⟩, h5⟩, h6⟩, h7⟩ := h
  have l1 := @legendOf_ok s p (t.opWord % 1024)
  have l2 := @legendOf_ok s p t.srcIndex
  have l3 := @legendOf_ok s p t.dstIndex
  unfold checkDescriptor
  rw [act_bind_ok (check_of (by simp_all)), act_bind_ok (check_of (by simp_all))]
  cases hk : t.kind <;> cases ht : t.toTensor <;>
    simp_all [TravSlot.opAllowed, bind, EStateM.bind, pure, EStateM.pure, check_of]

/-- The units of a request whose descriptor is allowed. -/
theorem unitCount_ok {s : State} {p : Nat} {t : TravSlot} (h : s.describes p t = true)
    (ht : t.kind = .red → t.toTensor = true) : unitCount p t s = .ok (s.travUnits p t) s := by
  unfold unitCount State.travUnits State.travWords
  simp only [State.describes, Bool.and_eq_true] at h
  have l3 := @legendOf_ok s p t.dstIndex
  have l4 := @baseOf_ok s p (s.legendAt p t.dstIndex)
  cases hk : t.kind <;> simp_all [bind, EStateM.bind, pure, EStateM.pure, get, getThe, MonadStateOf.get, EStateM.get]

/-- The entries that a request names may be named. -/
theorem checkEntries_ok {s : State} {p : Nat} {t : TravSlot} (h : s.namesEntries p t = true) :
    checkEntries p t (s.travWords p t) s = .ok () s := by
  unfold checkEntries
  simp only [State.namesEntries, Bool.and_eq_true] at h
  obtain ⟨h1, h2⟩ := h
  by_cases hk : t.kind = .feed
  · have r1 : (((List.range t.ringLen).map fun i => s.buffer p ((t.handle + i) % 128)).all fun x => bufState x = 0) = true := by
      simp_all
    have r2 : (((List.range t.ringLen).map fun i => s.buffer p ((t.handle + i) % 128)).all fun x =>
        bufSize x = bufSize (s.buffer p t.handle) && bufSize x ≠ 0) = true := by
      simp only [hk, if_true, List.all_eq_true] at h1 ⊢
      intro x hx
      have h := h1 x hx
      simp only [Bool.and_eq_true] at h ⊢
      exact ⟨h.1.2, h.2⟩
    simp only [bind, EStateM.bind, get, getThe, MonadStateOf.get, EStateM.get, hk, if_true, check_of r1, check_of r2]
    cases hs : t.shadow <;> simp_all [pure, EStateM.pure, check_of]
  · cases hb : t.fromBuffer <;> cases hf : t.fills <;> cases hs : t.shadow <;>
      simp_all [bind, EStateM.bind, pure, EStateM.pure, check_of, get, getThe, MonadStateOf.get, EStateM.get]

/-! ### Graticule descriptors -/

theorem need_of {c : Bool} {s : State} (h : c = true) : need c s = .ok () s := check_of h

theorem checkLoad_ok {s : State} {p : Nat} {c : GrCommand} (h : s.allowsLoad p c = true) : checkLoad p c s = .ok () s := by
  simp only [State.allowsLoad, Bool.and_assoc] at h
  have l1 := @legendOf_ok s p (field c.desc 16 2)
  unfold checkLoad
  simp_all [bind, EStateM.bind, need_of]

theorem checkMultiply_ok {s : State} {p : Nat} {c : GrCommand} (h : s.allowsMultiply p c = true) :
    checkMultiply p c s = .ok () s := by
  simp only [State.allowsMultiply] at h
  have l1 := @legendOf_ok s p c.mmA
  have l2 := @legendOf_ok s p c.target
  unfold checkMultiply
  cases ha : c.autodrain <;> cases hs : c.stream <;> cases ht : c.transposed <;>
    simp_all [bind, EStateM.bind, need_of]

theorem checkScan_ok {s : State} {p : Nat} {c : GrCommand} (h : s.allowsScan p c = true) : checkScan p c s = .ok () s := by
  simp only [State.allowsScan] at h
  have l1 := @legendOf_ok s p (field c.desc 0 2)
  have l2 := @legendOf_ok s p (field c.desc 2 2)
  have l3 := @legendOf_ok s p c.target
  unfold checkScan
  cases ho : c.output <;> simp_all [bind, EStateM.bind, pure, EStateM.pure, need_of]

theorem checkDrain_ok {s : State} {p : Nat} {c : GrCommand} (h : s.allowsDrain p c = true) : checkDrain p c s = .ok () s := by
  simp only [State.allowsDrain] at h
  have l1 := @legendOf_ok s p c.target
  unfold checkDrain
  simp_all [bind, EStateM.bind, need_of]

end Sys2Proof.Laws
end

