-- ==== Sys2Proof/Tests/Slice0.lean ====
section
/-! SUPPORT. Tests: words from the manual's encodings, ill-formed instructions, single steps with results worked out
from the manual, and states that meet the hypotheses of the statements. -/

namespace Sys2Proof.Tests

open Sys2Proof Sys2Proof.Machine

set_option Elab.async false

/-! ### Words -/

/-- Every word decodes to the instruction beside it, which is well formed and encodes to the word again. -/
def reads32 (l : List (BitVec 32 × Instr)) : Bool :=
  l.all fun e => (Decode.surveyor e.1).toOption == some e.2 && encode32 e.2 == some e.1 && e.2.wellFormed
/-- The same for operation words of cells. -/
def reads64 (l : List (BitVec 64 × Instr)) : Bool :=
  l.all fun e => (Decode.cell e.1).toOption == some e.2 && encode64 e.2 == some e.1 && e.2.wellFormed

theorem test_decode_arith : reads32 [
    (0x04A64000#32, Instr.add 5 6 8),
    (0x04A64001#32, Instr.sub 5 6 8),
    (0x04A64002#32, Instr.mul 5 6 8),
    (0x04A64003#32, Instr.mulh 5 6 8),
    (0x04A64004#32, Instr.mulhn 5 6 8),
    (0x04A64005#32, Instr.div 5 6 8),
    (0x04A64006#32, Instr.divn 5 6 8),
    (0x04A64007#32, Instr.rem 5 6 8),
    (0x04A64008#32, Instr.remn 5 6 8),
    (0x04A64010#32, Instr.and 5 6 8),
    (0x04A64011#32, Instr.or 5 6 8),
    (0x04A64012#32, Instr.xor 5 6 8),
    (0x04A64018#32, Instr.sll 5 6 8),
    (0x04A64019#32, Instr.srl 5 6 8),
    (0x04A6401A#32, Instr.sra 5 6 8),
    (0x04A64020#32, Instr.slt 5 6 8),
    (0x04A64021#32, Instr.sltn 5 6 8),
    (0x04A64022#32, Instr.min 5 6 8),
    (0x04A64023#32, Instr.max 5 6 8),
    (0x04A64024#32, Instr.minn 5 6 8),
    (0x04A64025#32, Instr.maxn 5 6 8),
    (0x04A60030#32, Instr.clz 5 6),
    (0x04A60031#32, Instr.ctz 5 6),
    (0x04A60032#32, Instr.popc 5 6)] = true := by decide

theorem test_decode_immediate : reads32 [
    (0x20A683AC#32, Instr.addImmediate 5 6 33708),
    (0x24A683AC#32, Instr.andImmediate 5 6 33708),
    (0x28A683AC#32, Instr.orImmediate 5 6 33708),
    (0x2CA683AC#32, Instr.xorImmediate 5 6 33708),
    (0x30A60025#32, Instr.sllImmediate 5 6 37),
    (0x34A60025#32, Instr.srlImmediate 5 6 37),
    (0x38A60025#32, Instr.sraImmediate 5 6 37),
    (0x3CA683AC#32, Instr.sltImmediate 5 6 33708),
    (0x40A683AC#32, Instr.sltnImmediate 5 6 33708),
    (0x44A683AC#32, Instr.mulImmediate 5 6 33708),
    (0x48A683AC#32, Instr.lih 5 6 33708),
    (0x10A083AC#32, Instr.csrr 5 33708)] = true := by decide

theorem test_decode_system : reads32 [
    (0x14A683AC#32, Instr.csrw 5 6 33708),
    (0x18A683AC#32, Instr.csrs 5 6 33708),
    (0x1CA683AC#32, Instr.csrc 5 6 33708),
    (0x08A64000#32, Instr.post 5 6 8),
    (0x08A64001#32, Instr.bindl 5 6 8),
    (0x08A64002#32, Instr.armt 5 6 8),
    (0x08A60003#32, Instr.armb 5 6),
    (0x08A60004#32, Instr.arms 5 6),
    (0x08000005#32, Instr.endt),
    (0x08064006#32, Instr.chp 6 8),
    (0x0C064000#32, Instr.ecall 6 8),
    (0x0C000001#32, Instr.tret),
    (0x0CA00002#32, Instr.merid 5)] = true := by decide

theorem test_decode_load_store : reads32 [
    (0x60A64805#32, Instr.ldS8 5 6 .v 2053),
    (0x64A65805#32, Instr.ldN8 5 6 .d 2053),
    (0x68A66805#32, Instr.ldS16 5 6 .y 2053),
    (0x6CA60805#32, Instr.ldN16 5 6 .c 2053),
    (0x70A61805#32, Instr.ldS32 5 6 .p 2053),
    (0x74A62805#32, Instr.ldN32 5 6 .s 2053),
    (0x78A63805#32, Instr.ldN64 5 6 .q 2053),
    (0x80A64805#32, Instr.stN8 5 6 .v 2053),
    (0x84A65805#32, Instr.stN16 5 6 .d 2053),
    (0x88A66805#32, Instr.stN32 5 6 .y 2053),
    (0x8CA60805#32, Instr.stN64 5 6 .c 2053)] = true := by decide

theorem test_decode_versions_atomics : reads32 [
    (0x90A640A1#32, Instr.ldvGe 5 6 8 true 2 .p),
    (0x90A641A2#32, Instr.ldvEq 5 6 8 true 2 .s),
    (0x94A64013#32, Instr.stv 5 6 8 1 .q),
    (0x94A64134#32, Instr.stvKeep 5 6 8 3 .v),
    (0x98A64000#32, Instr.reclaim 5 6 8),
    (0x9CA64016#32, Instr.amoAdd 5 6 8 .n64 .y),
    (0x9CA64050#32, Instr.amoSwp 5 6 8 .n64 .c),
    (0x9C8640A1#32, Instr.amoCas 4 6 8 .n128 .p),
    (0x9CA640D2#32, Instr.amoMin 5 6 8 .n64 .s),
    (0x9CA64113#32, Instr.amoMax 5 6 8 .n64 .q),
    (0x9CA64154#32, Instr.amoMinn 5 6 8 .n64 .v),
    (0x9CA64195#32, Instr.amoMaxn 5 6 8 .n64 .d),
    (0x9CA641D6#32, Instr.amoAnd 5 6 8 .n64 .y),
    (0x9CA64210#32, Instr.amoOr 5 6 8 .n64 .c),
    (0x9CA64251#32, Instr.amoXor 5 6 8 .n64 .p),
    (0xA0062805#32, Instr.pref 6 .s 2053),
    (0x0C000103#32, Instr.fence .q),
    (0x0C000114#32, Instr.fenceAcq .v),
    (0x0C000125#32, Instr.fenceRel .d)] = true := by decide

theorem test_decode_branches : reads32 [
    (0xC0C8FFF0#32, Instr.beq 6 8 65520),
    (0xC4C8FFF0#32, Instr.bne 6 8 65520),
    (0xC8C8FFF0#32, Instr.blt 6 8 65520),
    (0xCCC8FFF0#32, Instr.bge 6 8 65520),
    (0xD0C8FFF0#32, Instr.bltn 6 8 65520),
    (0xD4C8FFF0#32, Instr.bgen 6 8 65520),
    (0xD8BFFFF0#32, Instr.jal 5 2097136),
    (0xDCA683AC#32, Instr.jalr 5 6 33708)] = true := by decide

theorem test_decode_engine_a : reads32 [
    (0xF8006400#32, Instr.stnInit 6 8),
    (0xF8006001#32, Instr.stnArv 6),
    (0xF8006402#32, Instr.stnExp 6 8),
    (0xF8006003#32, Instr.stnDone 6),
    (0xF80A6004#32, Instr.stnTest 5 6),
    (0xF84A6400#32, Instr.trvCopy 5 6 8),
    (0xF84A6401#32, Instr.trvGath 5 6 8),
    (0xF84A6402#32, Instr.trvScat 5 6 8),
    (0xF84A6403#32, Instr.trvRed 5 6 8),
    (0xF84A6404#32, Instr.trvFill 5 6 8),
    (0xF84A6405#32, Instr.trvFeed 5 6 8),
    (0xF8406006#32, Instr.trvFollow 6),
    (0xF84A6007#32, Instr.trvPub 5 6),
    (0xF84A6408#32, Instr.trvXst 5 6 8),
    (0xF8406009#32, Instr.trvCanc 6),
    (0xF84A600A#32, Instr.trvStat 5 6),
    (0xF8806400#32, Instr.bufSet 6 8),
    (0xF8806001#32, Instr.bufFree 6),
    (0xF88A6002#32, Instr.bufStat 5 6),
    (0xF8CA6000#32, Instr.endMake 5 6),
    (0xF8CA6401#32, Instr.endBind 5 6 8),
    (0xF8C06002#32, Instr.endClose 6),
    (0xF8CA6003#32, Instr.endStat 5 6)] = true := by decide

theorem test_decode_engine_b : reads32 [
    (0xF90A6400#32, Instr.grLdw 5 6 8),
    (0xF90A6401#32, Instr.grMm 5 6 8),
    (0xF90A6402#32, Instr.grScan 5 6 8),
    (0xF90A6403#32, Instr.grDrn 5 6 8),
    (0xF9006004#32, Instr.grZero 6),
    (0xF90A6405#32, Instr.grSave 5 6 8),
    (0xF90A6406#32, Instr.grRest 5 6 8),
    (0xF90A6007#32, Instr.grStat 5 6),
    (0xF94A6400#32, Instr.twSeek 5 6 8),
    (0xF94A6001#32, Instr.twRead 5 6),
    (0xF94A6402#32, Instr.twEnc 5 6 8),
    (0xF94A6003#32, Instr.twStat 5 6),
    (0xF9806000#32, Instr.cpOpen 6),
    (0xF9806401#32, Instr.cpOper 6 8),
    (0xF9806002#32, Instr.cpExpl 6),
    (0xF98A6003#32, Instr.cpObs 5 6),
    (0xF9806004#32, Instr.cpFix 6),
    (0xF9806405#32, Instr.cpJoin 6 8),
    (0xF9806006#32, Instr.cpClose 6),
    (0xF9CA6400#32, Instr.scrOpen 5 6 8),
    (0xF9CA6001#32, Instr.scrCnt 5 6)] = true := by decide

theorem test_decode_engine_c : reads32 [
    (0xFA0A6400#32, Instr.segName 5 6 8),
    (0xFA0A6401#32, Instr.segAtt 5 6 8),
    (0xFA006002#32, Instr.segDet 6),
    (0xFA006403#32, Instr.segPin 6 8),
    (0xFA006404#32, Instr.segEvt 6 8),
    (0xFA006005#32, Instr.segDrop 6),
    (0xFA0A6006#32, Instr.segStat 5 6),
    (0xFA406400#32, Instr.projInv 6 8),
    (0xFA4A6401#32, Instr.projProbe 5 6 8),
    (0xFA406402#32, Instr.pageDup 6 8),
    (0xFA806400#32, Instr.sndSet 6 8),
    (0xFA8A6001#32, Instr.sndOut 5 6),
    (0xFA8A6002#32, Instr.sndIn 5 6),
    (0xFA8A6003#32, Instr.sndStat 5 6),
    (0xFAC06400#32, Instr.qKick 6 8),
    (0xFB0A6400#32, Instr.strmIn 5 6 8),
    (0xFB0A6401#32, Instr.strmOut 5 6 8),
    (0xFB006002#32, Instr.strmBar 6),
    (0xFB006003#32, Instr.strmStop 6),
    (0xFB0A6004#32, Instr.strmStat 5 6)] = true := by decide

theorem test_decode_cell_int_1 : reads64 [
    (0x0000032008010000#64, Instr.iadd ⟨0, .reg 3, .iq 0 0, .const 1, .rne, false, 0x0⟩),
    (0x0100032008010000#64, Instr.isub ⟨0, .reg 3, .iq 0 0, .const 1, .rne, false, 0x0⟩),
    (0x0250010020030000#64, Instr.iadds ⟨5, .reg 1, .reg 2, .reg 3, .rne, false, 0x0⟩),
    (0x0350010020030000#64, Instr.isubs ⟨5, .reg 1, .reg 2, .reg 3, .rne, false, 0x0⟩),
    (0x0400032008010000#64, Instr.imul ⟨0, .reg 3, .iq 0 0, .const 1, .rne, false, 0x0⟩),
    (0x0500032008010000#64, Instr.imulh ⟨0, .reg 3, .iq 0 0, .const 1, .rne, false, 0x0⟩),
    (0x0614000010020003#64, Instr.imad ⟨1, .oq 0, .reg 1, .reg 2, .rne, false, 0x3⟩),
    (0x0700032008010000#64, Instr.imin ⟨0, .reg 3, .iq 0 0, .const 1, .rne, false, 0x0⟩),
    (0x0800032008010000#64, Instr.imax ⟨0, .reg 3, .iq 0 0, .const 1, .rne, false, 0x0⟩),
    (0x095005201E000000#64, Instr.iabs ⟨5, .reg 5, .iq 1 0, .none, .rne, false, 0x0⟩),
    (0x0AA005201E000000#64, Instr.ineg ⟨10, .reg 5, .iq 1 0, .none, .rne, false, 0x0⟩),
    (0x0B00032008010000#64, Instr.iavg ⟨0, .reg 3, .iq 0 0, .const 1, .rne, false, 0x0⟩),
    (0x0C10040048020000#64, Instr.shl ⟨1, .reg 4, .reg 4, .const 2, .rne, false, 0x0⟩),
    (0x0D10040048020000#64, Instr.shr ⟨1, .reg 4, .reg 4, .const 2, .rne, false, 0x0⟩),
    (0x0E10040048020000#64, Instr.sar ⟨1, .reg 4, .reg 4, .const 2, .rne, false, 0x0⟩),
    (0x0F10040048020000#64, Instr.rot ⟨1, .reg 4, .reg 4, .const 2, .rne, false, 0x0⟩),
    (0x1010040048020000#64, Instr.cellAnd ⟨1, .reg 4, .reg 4, .const 2, .rne, false, 0x0⟩),
    (0x1110040048020000#64, Instr.cellOr ⟨1, .reg 4, .reg 4, .const 2, .rne, false, 0x0⟩),
    (0x1210040048020000#64, Instr.cellXor ⟨1, .reg 4, .reg 4, .const 2, .rne, false, 0x0⟩),
    (0x1310040048020000#64, Instr.andn ⟨1, .reg 4, .reg 4, .const 2, .rne, false, 0x0⟩),
    (0x14A005201E000000#64, Instr.not ⟨10, .reg 5, .iq 1 0, .none, .rne, false, 0x0⟩),
    (0x15A005201E000000#64, Instr.cellClz ⟨10, .reg 5, .iq 1 0, .none, .rne, false, 0x0⟩),
    (0x16A005201E000000#64, Instr.cellCtz ⟨10, .reg 5, .iq 1 0, .none, .rne, false, 0x0⟩),
    (0x17A005201E000000#64, Instr.ffs ⟨10, .reg 5, .iq 1 0, .none, .rne, false, 0x0⟩)] = true := by decide

theorem test_decode_cell_int_2 : reads64 [
    (0x18A005201E000000#64, Instr.cellPopc ⟨10, .reg 5, .iq 1 0, .none, .rne, false, 0x0⟩),
    (0x19A005201E000000#64, Instr.brev ⟨10, .reg 5, .iq 1 0, .none, .rne, false, 0x0⟩),
    (0x1A0006007E000244#64, Instr.bfx ⟨0, .reg 6, .reg 7, .none, .rne, false, 0x244⟩),
    (0x1B10060010060244#64, Instr.bfi ⟨1, .reg 6, .reg 1, .reg 6, .rne, false, 0x244⟩)] = true := by decide

theorem test_decode_cell_lanes : reads64 [
    (0x4006022008000002#64, Instr.icmp ⟨0, .pred 2, .iq 0 0, .const 0, .rne, false, 0x2⟩),
    (0x4110000010020603#64, Instr.sel ⟨1, .reg 0, .reg 1, .reg 2, .rne, false, 0x603⟩),
    (0x420400200E001000#64, Instr.mov ⟨0, .oq 0, .iq 0 0, .none, .rne, true, 0x0⟩),
    (0x435002E00E000FFB#64, Instr.movc ⟨5, .reg 2, .none, .none, .rne, false, 0xFFB⟩),
    (0x441001202E000005#64, Instr.bcst ⟨1, .reg 1, .iq 2 0, .none, .rne, false, 0x5⟩),
    (0x4510030010020000#64, Instr.lprm ⟨1, .reg 3, .reg 1, .reg 2, .rne, false, 0x0⟩),
    (0x4610040010020003#64, Instr.lshf ⟨1, .reg 4, .reg 1, .reg 2, .rne, false, 0x3⟩),
    (0x470401200E001000#64, Instr.redi ⟨0, .oq 1, .iq 0 0, .none, .rne, true, 0x0⟩),
    (0x480002001E000001#64, Instr.scni ⟨0, .reg 2, .reg 1, .none, .rne, false, 0x1⟩),
    (0x4990012002010001#64, Instr.dot4 ⟨9, .reg 1, .iq 0 0, .iq 1 0, .rne, false, 0x1⟩),
    (0x4A50012002010001#64, Instr.dot2 ⟨5, .reg 1, .iq 0 0, .iq 1 0, .rne, false, 0x1⟩),
    (0x4B06046016020008#64, Instr.kop ⟨0, .pred 4, .pred 1, .pred 2, .rne, false, 0x8⟩)] = true := by decide

theorem test_decode_cell_queue_memory : reads64 [
    (0x600402003E000001#64, Instr.enq ⟨0, .oq 2, .reg 3, .none, .rne, false, 0x1⟩),
    (0x61000120BE000000#64, Instr.deq ⟨0, .reg 1, .iq 3 2, .none, .rne, false, 0x0⟩),
    (0x620E00201E000003#64, Instr.adv ⟨0, .none, .iq 1 0, .none, .rne, false, 0x3⟩),
    (0x631007204E000000#64, Instr.peek ⟨1, .reg 7, .iq 0 1, .none, .rne, false, 0x0⟩),
    (0x641008E00E000000#64, Instr.qstat ⟨1, .reg 8, .none, .none, .rne, false, 0x0⟩),
    (0x652002001E000005#64, Instr.cellLd ⟨2, .reg 2, .reg 1, .none, .rne, false, 0x5⟩),
    (0x660A000020010005#64, Instr.cellSt ⟨0, .ap, .reg 2, .reg 1, .rne, false, 0x5⟩),
    (0x670401001002001D#64, Instr.walk ⟨0, .oq 1, .reg 1, .reg 2, .rne, false, 0x1D⟩),
    (0x6840030010020005#64, Instr.atom ⟨4, .reg 3, .reg 1, .reg 2, .rne, false, 0x5⟩),
    (0x6920020010030005#64, Instr.cellLdv ⟨2, .reg 2, .reg 1, .reg 3, .rne, false, 0x5⟩),
    (0x6A00040020010005#64, Instr.cellStv ⟨0, .reg 4, .reg 2, .reg 1, .rne, false, 0x5⟩)] = true := by decide

theorem test_decode_cell_float : reads64 [
    (0x8020032000010000#64, Instr.fadd ⟨2, .reg 3, .iq 0 0, .reg 1, .rne, false, 0x0⟩),
    (0x8120032000010000#64, Instr.fsub ⟨2, .reg 3, .iq 0 0, .reg 1, .rne, false, 0x0⟩),
    (0x8220032000010000#64, Instr.fmul ⟨2, .reg 3, .iq 0 0, .reg 1, .rne, false, 0x0⟩),
    (0x8384010010022003#64, Instr.ffma ⟨8, .oq 1, .reg 1, .reg 2, .rz, false, 0x3⟩),
    (0x8470052002010000#64, Instr.fmin ⟨7, .reg 5, .iq 0 0, .iq 1 0, .rne, false, 0x0⟩),
    (0x8570052002010000#64, Instr.fmax ⟨7, .reg 5, .iq 0 0, .iq 1 0, .rne, false, 0x0⟩),
    (0x862002002E000000#64, Instr.fabs ⟨2, .reg 2, .reg 2, .none, .rne, false, 0x0⟩),
    (0x872002002E000000#64, Instr.fneg ⟨2, .reg 2, .reg 2, .none, .rne, false, 0x0⟩),
    (0x8826012008000002#64, Instr.fcmp ⟨2, .pred 1, .iq 0 0, .const 0, .rne, false, 0x2⟩),
    (0x892004003E000000#64, Instr.frcp ⟨2, .reg 4, .reg 3, .none, .rne, false, 0x0⟩),
    (0x8A2004003E000000#64, Instr.frsq ⟨2, .reg 4, .reg 3, .none, .rne, false, 0x0⟩),
    (0x8B2004003E000000#64, Instr.fsqrt ⟨2, .reg 4, .reg 3, .none, .rne, false, 0x0⟩),
    (0x8C2004003E000000#64, Instr.fexp2 ⟨2, .reg 4, .reg 3, .none, .rne, false, 0x0⟩),
    (0x8D2004003E000000#64, Instr.flog2 ⟨2, .reg 4, .reg 3, .none, .rne, false, 0x0⟩),
    (0x8E2004003E000000#64, Instr.ftanh ⟨2, .reg 4, .reg 3, .none, .rne, false, 0x0⟩),
    (0x8F2004003E000000#64, Instr.fsigm ⟨2, .reg 4, .reg 3, .none, .rne, false, 0x0⟩),
    (0x902004003E000000#64, Instr.fsinp ⟨2, .reg 4, .reg 3, .none, .rne, false, 0x0⟩),
    (0x912006006E006000#64, Instr.frnd ⟨2, .reg 6, .reg 6, .none, .rd, false, 0x0⟩),
    (0x922600200E000003#64, Instr.fcls ⟨2, .pred 0, .iq 0 0, .none, .rne, false, 0x3⟩),
    (0x932400200E001000#64, Instr.redf ⟨2, .oq 0, .iq 0 0, .none, .rne, true, 0x0⟩),
    (0x942400200E001000#64, Instr.scnf ⟨2, .oq 0, .iq 0 0, .none, .rne, true, 0x0⟩),
    (0x9520082000091002#64, Instr.topk ⟨2, .reg 8, .iq 0 0, .reg 9, .rne, true, 0x2⟩),
    (0x9680020010020012#64, Instr.cvt ⟨8, .reg 2, .reg 1, .reg 2, .rne, false, 0x12⟩)] = true := by decide

theorem test_decode_cell_structural : reads64 [
    (0xC0F004200E000092#64, Instr.bq ⟨15, .reg 4, .iq 0 0, .none, .rne, false, 0x92⟩),
    (0xC12005004E000006#64, Instr.bdq ⟨2, .reg 5, .reg 4, .none, .rne, false, 0x6⟩),
    (0xC2F004004801000D#64, Instr.sclb ⟨15, .reg 4, .reg 4, .const 1, .rne, false, 0xD⟩),
    (0xC3F400200E001037#64, Instr.wadp ⟨15, .oq 0, .iq 0 0, .none, .rne, true, 0x37⟩),
    (0xE004002002010001#64, Instr.gate ⟨0, .oq 0, .iq 0 0, .iq 1 0, .rne, false, 0x1⟩),
    (0xE124012028030004#64, Instr.dly ⟨2, .oq 1, .iq 2 0, .const 3, .rne, false, 0x4⟩),
    (0xE204002002010000#64, Instr.mrg ⟨0, .oq 0, .iq 0 0, .iq 1 0, .rne, false, 0x0⟩),
    (0xE304002006011002#64, Instr.str ⟨0, .oq 0, .iq 0 0, .pred 1, .rne, true, 0x2⟩),
    (0xE40401200E001005#64, Instr.tag ⟨0, .oq 1, .iq 0 0, .none, .rne, true, 0x5⟩),
    (0xE50400001E000001#64, Instr.proj ⟨0, .oq 0, .reg 1, .none, .rne, false, 0x1⟩),
    (0xE60400200E001005#64, Instr.widn ⟨0, .oq 0, .iq 0 0, .none, .rne, true, 0x5⟩),
    (0xE70400203E000002#64, Instr.hin ⟨0, .oq 0, .iq 3 0, .none, .rne, false, 0x2⟩),
    (0xE80A002000011000#64, Instr.hout ⟨0, .ap, .iq 0 0, .reg 1, .rne, true, 0x0⟩),
    (0xE9F401200E001104#64, Instr.rdon ⟨15, .oq 1, .iq 0 0, .none, .rne, true, 0x104⟩),
    (0xEAFE00200E001000#64, Instr.rrte ⟨15, .none, .iq 0 0, .none, .rne, true, 0x0⟩),
    (0xEB0402E00E000000#64, Instr.pois ⟨0, .oq 2, .none, .none, .rne, false, 0x0⟩),
    (0xEC0E00E00E000000#64, Instr.halt ⟨0, .none, .none, .none, .rne, false, 0x0⟩),
    (0xED0E00E00E00002A#64, Instr.trap ⟨0, .none, .none, .none, .rne, false, 0x2A⟩),
    (0xEE0E00201E001000#64, Instr.nop ⟨0, .none, .iq 1 0, .none, .rne, true, 0x0⟩)] = true := by decide

/-! ### Ill-formed instructions, one for each check -/

theorem test_illformed_type_1 : ([
    Instr.iadd ⟨13, .reg 3, .iq 0 0, .const 1, .rne, false, 0x0⟩,
    Instr.isub ⟨13, .reg 3, .iq 0 0, .const 1, .rne, false, 0x0⟩,
    Instr.iadds ⟨13, .reg 1, .reg 2, .reg 3, .rne, false, 0x0⟩,
    Instr.isubs ⟨13, .reg 1, .reg 2, .reg 3, .rne, false, 0x0⟩,
    Instr.imul ⟨13, .reg 3, .iq 0 0, .const 1, .rne, false, 0x0⟩,
    Instr.imulh ⟨13, .reg 3, .iq 0 0, .const 1, .rne, false, 0x0⟩,
    Instr.imad ⟨13, .oq 0, .reg 1, .reg 2, .rne, false, 0x3⟩,
    Instr.imin ⟨13, .reg 3, .iq 0 0, .const 1, .rne, false, 0x0⟩,
    Instr.imax ⟨13, .reg 3, .iq 0 0, .const 1, .rne, false, 0x0⟩,
    Instr.iabs ⟨13, .reg 5, .iq 1 0, .none, .rne, false, 0x0⟩,
    Instr.ineg ⟨13, .reg 5, .iq 1 0, .none, .rne, false, 0x0⟩,
    Instr.iavg ⟨13, .reg 3, .iq 0 0, .const 1, .rne, false, 0x0⟩,
    Instr.shl ⟨13, .reg 4, .reg 4, .const 2, .rne, false, 0x0⟩,
    Instr.shr ⟨13, .reg 4, .reg 4, .const 2, .rne, false, 0x0⟩,
    Instr.sar ⟨13, .reg 4, .reg 4, .const 2, .rne, false, 0x0⟩,
    Instr.rot ⟨13, .reg 4, .reg 4, .const 2, .rne, false, 0x0⟩,
    Instr.cellAnd ⟨13, .reg 4, .reg 4, .const 2, .rne, false, 0x0⟩,
    Instr.cellOr ⟨13, .reg 4, .reg 4, .const 2, .rne, false, 0x0⟩,
    Instr.cellXor ⟨13, .reg 4, .reg 4, .const 2, .rne, false, 0x0⟩,
    Instr.andn ⟨13, .reg 4, .reg 4, .const 2, .rne, false, 0x0⟩,
    Instr.not ⟨13, .reg 5, .iq 1 0, .none, .rne, false, 0x0⟩,
    Instr.cellClz ⟨13, .reg 5, .iq 1 0, .none, .rne, false, 0x0⟩,
    Instr.cellCtz ⟨13, .reg 5, .iq 1 0, .none, .rne, false, 0x0⟩,
    Instr.ffs ⟨13, .reg 5, .iq 1 0, .none, .rne, false, 0x0⟩,
    Instr.cellPopc ⟨13, .reg 5, .iq 1 0, .none, .rne, false, 0x0⟩,
    Instr.brev ⟨13, .reg 5, .iq 1 0, .none, .rne, false, 0x0⟩,
    Instr.bfx ⟨13, .reg 6, .reg 7, .none, .rne, false, 0x244⟩,
    Instr.bfi ⟨13, .reg 6, .reg 1, .reg 6, .rne, false, 0x244⟩,
    Instr.icmp ⟨13, .pred 2, .iq 0 0, .const 0, .rne, false, 0x2⟩,
    Instr.sel ⟨13, .reg 0, .reg 1, .reg 2, .rne, false, 0x603⟩,
    Instr.mov ⟨13, .oq 0, .iq 0 0, .none, .rne, true, 0x0⟩] : List Instr).all (fun i => !i.wellFormed) = true := by decide

theorem test_illformed_type_2 : ([
    Instr.movc ⟨13, .reg 2, .none, .none, .rne, false, 0xFFB⟩,
    Instr.bcst ⟨13, .reg 1, .iq 2 0, .none, .rne, false, 0x5⟩,
    Instr.lprm ⟨13, .reg 3, .reg 1, .reg 2, .rne, false, 0x0⟩,
    Instr.lshf ⟨13, .reg 4, .reg 1, .reg 2, .rne, false, 0x3⟩,
    Instr.redi ⟨13, .oq 1, .iq 0 0, .none, .rne, true, 0x0⟩,
    Instr.scni ⟨13, .reg 2, .reg 1, .none, .rne, false, 0x1⟩,
    Instr.dot4 ⟨13, .reg 1, .iq 0 0, .iq 1 0, .rne, false, 0x1⟩,
    Instr.dot2 ⟨13, .reg 1, .iq 0 0, .iq 1 0, .rne, false, 0x1⟩,
    Instr.kop ⟨13, .pred 4, .pred 1, .pred 2, .rne, false, 0x8⟩,
    Instr.enq ⟨13, .oq 2, .reg 3, .none, .rne, false, 0x1⟩,
    Instr.deq ⟨13, .reg 1, .iq 3 2, .none, .rne, false, 0x0⟩,
    Instr.adv ⟨13, .none, .iq 1 0, .none, .rne, false, 0x3⟩,
    Instr.peek ⟨13, .reg 7, .iq 0 1, .none, .rne, false, 0x0⟩,
    Instr.qstat ⟨13, .reg 8, .none, .none, .rne, false, 0x0⟩,
    Instr.cellLd ⟨2, .ap, .reg 1, .none, .rne, false, 0x5⟩,
    Instr.walk ⟨15, .oq 1, .reg 1, .reg 2, .rne, false, 0x0⟩,
    Instr.atom ⟨13, .reg 3, .reg 1, .reg 2, .rne, false, 0x5⟩,
    Instr.cellLdv ⟨15, .reg 2, .reg 1, .reg 3, .rne, false, 0x0⟩,
    Instr.fadd ⟨13, .reg 3, .iq 0 0, .reg 1, .rne, false, 0x0⟩,
    Instr.fsub ⟨13, .reg 3, .iq 0 0, .reg 1, .rne, false, 0x0⟩,
    Instr.fmul ⟨13, .reg 3, .iq 0 0, .reg 1, .rne, false, 0x0⟩,
    Instr.ffma ⟨13, .oq 1, .reg 1, .reg 2, .rz, false, 0x3⟩,
    Instr.fmin ⟨13, .reg 5, .iq 0 0, .iq 1 0, .rne, false, 0x0⟩,
    Instr.fmax ⟨13, .reg 5, .iq 0 0, .iq 1 0, .rne, false, 0x0⟩,
    Instr.fabs ⟨13, .reg 2, .reg 2, .none, .rne, false, 0x0⟩,
    Instr.fneg ⟨13, .reg 2, .reg 2, .none, .rne, false, 0x0⟩,
    Instr.fcmp ⟨13, .pred 1, .iq 0 0, .const 0, .rne, false, 0x2⟩,
    Instr.frcp ⟨13, .reg 4, .reg 3, .none, .rne, false, 0x0⟩,
    Instr.frsq ⟨13, .reg 4, .reg 3, .none, .rne, false, 0x0⟩,
    Instr.fsqrt ⟨13, .reg 4, .reg 3, .none, .rne, false, 0x0⟩,
    Instr.fexp2 ⟨13, .reg 4, .reg 3, .none, .rne, false, 0x0⟩] : List Instr).all (fun i => !i.wellFormed) = true := by decide

theorem test_illformed_type_3 : ([
    Instr.flog2 ⟨13, .reg 4, .reg 3, .none, .rne, false, 0x0⟩,
    Instr.ftanh ⟨13, .reg 4, .reg 3, .none, .rne, false, 0x0⟩,
    Instr.fsigm ⟨13, .reg 4, .reg 3, .none, .rne, false, 0x0⟩,
    Instr.fsinp ⟨13, .reg 4, .reg 3, .none, .rne, false, 0x0⟩,
    Instr.frnd ⟨13, .reg 6, .reg 6, .none, .rd, false, 0x0⟩,
    Instr.fcls ⟨13, .pred 0, .iq 0 0, .none, .rne, false, 0x3⟩,
    Instr.redf ⟨13, .oq 0, .iq 0 0, .none, .rne, true, 0x0⟩,
    Instr.scnf ⟨13, .oq 0, .iq 0 0, .none, .rne, true, 0x0⟩,
    Instr.topk ⟨13, .reg 8, .iq 0 0, .reg 9, .rne, true, 0x2⟩,
    Instr.cvt ⟨15, .reg 2, .reg 1, .reg 2, .rne, false, 0x12⟩,
    Instr.bq ⟨13, .reg 4, .iq 0 0, .none, .rne, false, 0x92⟩,
    Instr.bdq ⟨13, .reg 5, .reg 4, .none, .rne, false, 0x6⟩,
    Instr.sclb ⟨13, .reg 4, .reg 4, .const 1, .rne, false, 0xD⟩,
    Instr.wadp ⟨13, .oq 0, .iq 0 0, .none, .rne, true, 0x37⟩,
    Instr.gate ⟨13, .oq 0, .iq 0 0, .iq 1 0, .rne, false, 0x1⟩,
    Instr.dly ⟨15, .oq 1, .iq 2 0, .const 3, .rne, false, 0x4⟩,
    Instr.mrg ⟨13, .oq 0, .iq 0 0, .iq 1 0, .rne, false, 0x0⟩,
    Instr.str ⟨13, .oq 0, .iq 0 0, .pred 1, .rne, true, 0x2⟩,
    Instr.tag ⟨13, .oq 1, .iq 0 0, .none, .rne, true, 0x5⟩,
    Instr.proj ⟨13, .oq 0, .reg 1, .none, .rne, false, 0x1⟩,
    Instr.widn ⟨13, .oq 0, .iq 0 0, .none, .rne, true, 0x5⟩,
    Instr.hin ⟨13, .oq 0, .iq 3 0, .none, .rne, false, 0x2⟩,
    Instr.hout ⟨13, .ap, .iq 0 0, .reg 1, .rne, true, 0x0⟩,
    Instr.rdon ⟨13, .oq 1, .iq 0 0, .none, .rne, true, 0x104⟩,
    Instr.rrte ⟨13, .none, .iq 0 0, .none, .rne, true, 0x0⟩,
    Instr.pois ⟨13, .oq 2, .none, .none, .rne, false, 0x0⟩,
    Instr.halt ⟨13, .none, .none, .none, .rne, false, 0x0⟩,
    Instr.trap ⟨13, .none, .none, .none, .rne, false, 0x2A⟩,
    Instr.nop ⟨13, .none, .iq 1 0, .none, .rne, true, 0x0⟩] : List Instr).all (fun i => !i.wellFormed) = true := by decide

theorem test_illformed_destination_1 : ([
    Instr.iadd ⟨0, .const 0, .iq 0 0, .const 1, .rne, false, 0x0⟩,
    Instr.isub ⟨0, .const 0, .iq 0 0, .const 1, .rne, false, 0x0⟩,
    Instr.iadds ⟨5, .const 0, .reg 2, .reg 3, .rne, false, 0x0⟩,
    Instr.isubs ⟨5, .const 0, .reg 2, .reg 3, .rne, false, 0x0⟩,
    Instr.imul ⟨0, .const 0, .iq 0 0, .const 1, .rne, false, 0x0⟩,
    Instr.imulh ⟨0, .const 0, .iq 0 0, .const 1, .rne, false, 0x0⟩,
    Instr.imad ⟨1, .const 0, .reg 1, .reg 2, .rne, false, 0x3⟩,
    Instr.imin ⟨0, .const 0, .iq 0 0, .const 1, .rne, false, 0x0⟩,
    Instr.imax ⟨0, .const 0, .iq 0 0, .const 1, .rne, false, 0x0⟩,
    Instr.iabs ⟨5, .const 0, .iq 1 0, .none, .rne, false, 0x0⟩,
    Instr.ineg ⟨10, .const 0, .iq 1 0, .none, .rne, false, 0x0⟩,
    Instr.iavg ⟨0, .const 0, .iq 0 0, .const 1, .rne, false, 0x0⟩,
    Instr.shl ⟨1, .const 0, .reg 4, .const 2, .rne, false, 0x0⟩,
    Instr.shr ⟨1, .const 0, .reg 4, .const 2, .rne, false, 0x0⟩,
    Instr.sar ⟨1, .const 0, .reg 4, .const 2, .rne, false, 0x0⟩,
    Instr.rot ⟨1, .const 0, .reg 4, .const 2, .rne, false, 0x0⟩,
    Instr.cellAnd ⟨1, .const 0, .reg 4, .const 2, .rne, false, 0x0⟩,
    Instr.cellOr ⟨1, .const 0, .reg 4, .const 2, .rne, false, 0x0⟩,
    Instr.cellXor ⟨1, .const 0, .reg 4, .const 2, .rne, false, 0x0⟩,
    Instr.andn ⟨1, .const 0, .reg 4, .const 2, .rne, false, 0x0⟩,
    Instr.not ⟨10, .const 0, .iq 1 0, .none, .rne, false, 0x0⟩,
    Instr.cellClz ⟨10, .const 0, .iq 1 0, .none, .rne, false, 0x0⟩,
    Instr.cellCtz ⟨10, .const 0, .iq 1 0, .none, .rne, false, 0x0⟩,
    Instr.ffs ⟨10, .const 0, .iq 1 0, .none, .rne, false, 0x0⟩,
    Instr.cellPopc ⟨10, .const 0, .iq 1 0, .none, .rne, false, 0x0⟩,
    Instr.brev ⟨10, .const 0, .iq 1 0, .none, .rne, false, 0x0⟩,
    Instr.bfx ⟨0, .const 0, .reg 7, .none, .rne, false, 0x244⟩,
    Instr.bfi ⟨1, .const 0, .reg 1, .reg 6, .rne, false, 0x244⟩,
    Instr.icmp ⟨0, .const 0, .iq 0 0, .const 0, .rne, false, 0x2⟩,
    Instr.sel ⟨1, .const 0, .reg 1, .reg 2, .rne, false, 0x603⟩,
    Instr.mov ⟨0, .const 0, .iq 0 0, .none, .rne, true, 0x0⟩] : List Instr).all (fun i => !i.wellFormed) = true := by decide

theorem test_illformed_destination_2 : ([
    Instr.movc ⟨5, .const 0, .none, .none, .rne, false, 0xFFB⟩,
    Instr.bcst ⟨1, .const 0, .iq 2 0, .none, .rne, false, 0x5⟩,
    Instr.lprm ⟨1, .const 0, .reg 1, .reg 2, .rne, false, 0x0⟩,
    Instr.lshf ⟨1, .const 0, .reg 1, .reg 2, .rne, false, 0x3⟩,
    Instr.redi ⟨0, .const 0, .iq 0 0, .none, .rne, true, 0x0⟩,
    Instr.scni ⟨0, .const 0, .reg 1, .none, .rne, false, 0x1⟩,
    Instr.dot4 ⟨9, .const 0, .iq 0 0, .iq 1 0, .rne, false, 0x1⟩,
    Instr.dot2 ⟨5, .const 0, .iq 0 0, .iq 1 0, .rne, false, 0x1⟩,
    Instr.kop ⟨0, .const 0, .pred 1, .pred 2, .rne, false, 0x8⟩,
    Instr.enq ⟨0, .const 0, .reg 3, .none, .rne, false, 0x1⟩,
    Instr.deq ⟨0, .const 0, .iq 3 2, .none, .rne, false, 0x0⟩,
    Instr.adv ⟨0, .const 0, .iq 1 0, .none, .rne, false, 0x3⟩,
    Instr.peek ⟨1, .const 0, .iq 0 1, .none, .rne, false, 0x0⟩,
    Instr.qstat ⟨1, .const 0, .none, .none, .rne, false, 0x0⟩,
    Instr.cellLd ⟨2, .const 0, .reg 1, .none, .rne, false, 0x5⟩,
    Instr.cellSt ⟨0, .const 0, .reg 2, .reg 1, .rne, false, 0x5⟩,
    Instr.walk ⟨0, .const 0, .reg 1, .reg 2, .rne, false, 0x1D⟩,
    Instr.atom ⟨4, .const 0, .reg 1, .reg 2, .rne, false, 0x5⟩,
    Instr.cellLdv ⟨2, .const 0, .reg 1, .reg 3, .rne, false, 0x5⟩,
    Instr.cellStv ⟨0, .const 0, .reg 2, .reg 1, .rne, false, 0x5⟩,
    Instr.fadd ⟨2, .const 0, .iq 0 0, .reg 1, .rne, false, 0x0⟩,
    Instr.fsub ⟨2, .const 0, .iq 0 0, .reg 1, .rne, false, 0x0⟩,
    Instr.fmul ⟨2, .const 0, .iq 0 0, .reg 1, .rne, false, 0x0⟩,
    Instr.ffma ⟨8, .const 0, .reg 1, .reg 2, .rz, false, 0x3⟩,
    Instr.fmin ⟨7, .const 0, .iq 0 0, .iq 1 0, .rne, false, 0x0⟩,
    Instr.fmax ⟨7, .const 0, .iq 0 0, .iq 1 0, .rne, false, 0x0⟩,
    Instr.fabs ⟨2, .const 0, .reg 2, .none, .rne, false, 0x0⟩,
    Instr.fneg ⟨2, .const 0, .reg 2, .none, .rne, false, 0x0⟩,
    Instr.fcmp ⟨2, .const 0, .iq 0 0, .const 0, .rne, false, 0x2⟩,
    Instr.frcp ⟨2, .const 0, .reg 3, .none, .rne, false, 0x0⟩,
    Instr.frsq ⟨2, .const 0, .reg 3, .none, .rne, false, 0x0⟩] : List Instr).all (fun i => !i.wellFormed) = true := by decide

theorem test_illformed_destination_3 : ([
    Instr.fsqrt ⟨2, .const 0, .reg 3, .none, .rne, false, 0x0⟩,
    Instr.fexp2 ⟨2, .const 0, .reg 3, .none, .rne, false, 0x0⟩,
    Instr.flog2 ⟨2, .const 0, .reg 3, .none, .rne, false, 0x0⟩,
    Instr.ftanh ⟨2, .const 0, .reg 3, .none, .rne, false, 0x0⟩,
    Instr.fsigm ⟨2, .const 0, .reg 3, .none, .rne, false, 0x0⟩,
    Instr.fsinp ⟨2, .const 0, .reg 3, .none, .rne, false, 0x0⟩,
    Instr.frnd ⟨2, .const 0, .reg 6, .none, .rd, false, 0x0⟩,
    Instr.fcls ⟨2, .const 0, .iq 0 0, .none, .rne, false, 0x3⟩,
    Instr.redf ⟨2, .const 0, .iq 0 0, .none, .rne, true, 0x0⟩,
    Instr.scnf ⟨2, .const 0, .iq 0 0, .none, .rne, true, 0x0⟩,
    Instr.topk ⟨2, .const 0, .iq 0 0, .reg 9, .rne, true, 0x2⟩,
    Instr.cvt ⟨8, .const 0, .reg 1, .reg 2, .rne, false, 0x12⟩,
    Instr.bq ⟨15, .const 0, .iq 0 0, .none, .rne, false, 0x92⟩,
    Instr.bdq ⟨2, .const 0, .reg 4, .none, .rne, false, 0x6⟩,
    Instr.sclb ⟨15, .const 0, .reg 4, .const 1, .rne, false, 0xD⟩,
    Instr.wadp ⟨15, .const 0, .iq 0 0, .none, .rne, true, 0x37⟩,
    Instr.gate ⟨0, .const 0, .iq 0 0, .iq 1 0, .rne, false, 0x1⟩,
    Instr.dly ⟨2, .const 0, .iq 2 0, .const 3, .rne, false, 0x4⟩,
    Instr.mrg ⟨0, .const 0, .iq 0 0, .iq 1 0, .rne, false, 0x0⟩,
    Instr.str ⟨0, .const 0, .iq 0 0, .pred 1, .rne, true, 0x2⟩,
    Instr.tag ⟨0, .const 0, .iq 0 0, .none, .rne, true, 0x5⟩,
    Instr.proj ⟨0, .const 0, .reg 1, .none, .rne, false, 0x1⟩,
    Instr.widn ⟨0, .const 0, .iq 0 0, .none, .rne, true, 0x5⟩,
    Instr.hin ⟨0, .const 0, .iq 3 0, .none, .rne, false, 0x2⟩,
    Instr.hout ⟨0, .const 0, .iq 0 0, .reg 1, .rne, true, 0x0⟩,
    Instr.rdon ⟨15, .const 0, .iq 0 0, .none, .rne, true, 0x104⟩,
    Instr.rrte ⟨15, .oq 0, .iq 0 0, .none, .rne, true, 0x0⟩,
    Instr.pois ⟨0, .const 0, .none, .none, .rne, false, 0x0⟩,
    Instr.halt ⟨0, .oq 0, .none, .none, .rne, false, 0x0⟩,
    Instr.trap ⟨0, .oq 0, .none, .none, .rne, false, 0x2A⟩,
    Instr.nop ⟨0, .oq 0, .iq 1 0, .none, .rne, true, 0x0⟩] : List Instr).all (fun i => !i.wellFormed) = true := by decide

theorem test_illformed_source_1 : ([
    Instr.iadd ⟨0, .reg 3, .pred 0, .const 1, .rne, false, 0x0⟩,
    Instr.isub ⟨0, .reg 3, .pred 0, .const 1, .rne, false, 0x0⟩,
    Instr.iadds ⟨5, .reg 1, .pred 0, .reg 3, .rne, false, 0x0⟩,
    Instr.isubs ⟨5, .reg 1, .pred 0, .reg 3, .rne, false, 0x0⟩,
    Instr.imul ⟨0, .reg 3, .pred 0, .const 1, .rne, false, 0x0⟩,
    Instr.imulh ⟨0, .reg 3, .pred 0, .const 1, .rne, false, 0x0⟩,
    Instr.imad ⟨1, .oq 0, .pred 0, .reg 2, .rne, false, 0x3⟩,
    Instr.imin ⟨0, .reg 3, .pred 0, .const 1, .rne, false, 0x0⟩,
    Instr.imax ⟨0, .reg 3, .pred 0, .const 1, .rne, false, 0x0⟩,
    Instr.iabs ⟨5, .reg 5, .pred 0, .none, .rne, false, 0x0⟩,
    Instr.ineg ⟨10, .reg 5, .pred 0, .none, .rne, false, 0x0⟩,
    Instr.iavg ⟨0, .reg 3, .pred 0, .const 1, .rne, false, 0x0⟩,
    Instr.shl ⟨1, .reg 4, .pred 0, .const 2, .rne, false, 0x0⟩,
    Instr.shr ⟨1, .reg 4, .pred 0, .const 2, .rne, false, 0x0⟩,
    Instr.sar ⟨1, .reg 4, .pred 0, .const 2, .rne, false, 0x0⟩,
    Instr.rot ⟨1, .reg 4, .pred 0, .const 2, .rne, false, 0x0⟩,
    Instr.cellAnd ⟨1, .reg 4, .pred 0, .const 2, .rne, false, 0x0⟩,
    Instr.cellOr ⟨1, .reg 4, .pred 0, .const 2, .rne, false, 0x0⟩,
    Instr.cellXor ⟨1, .reg 4, .pred 0, .const 2, .rne, false, 0x0⟩,
    Instr.andn ⟨1, .reg 4, .pred 0, .const 2, .rne, false, 0x0⟩,
    Instr.not ⟨10, .reg 5, .pred 0, .none, .rne, false, 0x0⟩,
    Instr.cellClz ⟨10, .reg 5, .pred 0, .none, .rne, false, 0x0⟩,
    Instr.cellCtz ⟨10, .reg 5, .pred 0, .none, .rne, false, 0x0⟩,
    Instr.ffs ⟨10, .reg 5, .pred 0, .none, .rne, false, 0x0⟩,
    Instr.cellPopc ⟨10, .reg 5, .pred 0, .none, .rne, false, 0x0⟩,
    Instr.brev ⟨10, .reg 5, .pred 0, .none, .rne, false, 0x0⟩,
    Instr.bfx ⟨0, .reg 6, .pred 0, .none, .rne, false, 0x244⟩,
    Instr.bfi ⟨1, .reg 6, .pred 0, .reg 6, .rne, false, 0x244⟩,
    Instr.icmp ⟨0, .pred 2, .pred 0, .const 0, .rne, false, 0x2⟩,
    Instr.sel ⟨1, .reg 0, .pred 0, .reg 2, .rne, false, 0x603⟩,
    Instr.mov ⟨0, .oq 0, .pred 0, .none, .rne, true, 0x0⟩] : List Instr).all (fun i => !i.wellFormed) = true := by decide

theorem test_illformed_source_2 : ([
    Instr.movc ⟨5, .reg 2, .reg 0, .none, .rne, false, 0xFFB⟩,
    Instr.bcst ⟨1, .reg 1, .pred 0, .none, .rne, false, 0x5⟩,
    Instr.lprm ⟨1, .reg 3, .pred 0, .reg 2, .rne, false, 0x0⟩,
    Instr.lshf ⟨1, .reg 4, .pred 0, .reg 2, .rne, false, 0x3⟩,
    Instr.redi ⟨0, .oq 1, .pred 0, .none, .rne, true, 0x0⟩,
    Instr.scni ⟨0, .reg 2, .pred 0, .none, .rne, false, 0x1⟩,
    Instr.dot4 ⟨9, .reg 1, .pred 0, .iq 1 0, .rne, false, 0x1⟩,
    Instr.dot2 ⟨5, .reg 1, .pred 0, .iq 1 0, .rne, false, 0x1⟩,
    Instr.kop ⟨0, .pred 4, .const 0, .pred 2, .rne, false, 0x8⟩,
    Instr.enq ⟨0, .oq 2, .pred 0, .none, .rne, false, 0x1⟩,
    Instr.deq ⟨0, .reg 1, .pred 0, .none, .rne, false, 0x0⟩,
    Instr.adv ⟨0, .none, .none, .none, .rne, false, 0x3⟩,
    Instr.peek ⟨1, .reg 7, .pred 0, .none, .rne, false, 0x0⟩,
    Instr.qstat ⟨1, .reg 8, .reg 0, .none, .rne, false, 0x0⟩,
    Instr.cellLd ⟨2, .reg 2, .pred 0, .none, .rne, false, 0x5⟩,
    Instr.cellSt ⟨0, .ap, .pred 0, .reg 1, .rne, false, 0x5⟩,
    Instr.walk ⟨0, .oq 1, .pred 0, .reg 2, .rne, false, 0x1D⟩,
    Instr.atom ⟨4, .reg 3, .pred 0, .reg 2, .rne, false, 0x5⟩,
    Instr.cellLdv ⟨2, .reg 2, .pred 0, .reg 3, .rne, false, 0x5⟩,
    Instr.cellStv ⟨0, .reg 4, .pred 0, .reg 1, .rne, false, 0x5⟩,
    Instr.fadd ⟨2, .reg 3, .pred 0, .reg 1, .rne, false, 0x0⟩,
    Instr.fsub ⟨2, .reg 3, .pred 0, .reg 1, .rne, false, 0x0⟩,
    Instr.fmul ⟨2, .reg 3, .pred 0, .reg 1, .rne, false, 0x0⟩,
    Instr.ffma ⟨8, .oq 1, .pred 0, .reg 2, .rz, false, 0x3⟩,
    Instr.fmin ⟨7, .reg 5, .pred 0, .iq 1 0, .rne, false, 0x0⟩,
    Instr.fmax ⟨7, .reg 5, .pred 0, .iq 1 0, .rne, false, 0x0⟩,
    Instr.fabs ⟨2, .reg 2, .pred 0, .none, .rne, false, 0x0⟩,
    Instr.fneg ⟨2, .reg 2, .pred 0, .none, .rne, false, 0x0⟩,
    Instr.fcmp ⟨2, .pred 1, .pred 0, .const 0, .rne, false, 0x2⟩,
    Instr.frcp ⟨2, .reg 4, .pred 0, .none, .rne, false, 0x0⟩,
    Instr.frsq ⟨2, .reg 4, .pred 0, .none, .rne, false, 0x0⟩] : List Instr).all (fun i => !i.wellFormed) = true := by decide

theorem test_illformed_source_3 : ([
    Instr.fsqrt ⟨2, .reg 4, .pred 0, .none, .rne, false, 0x0⟩,
    Instr.fexp2 ⟨2, .reg 4, .pred 0, .none, .rne, false, 0x0⟩,
    Instr.flog2 ⟨2, .reg 4, .pred 0, .none, .rne, false, 0x0⟩,
    Instr.ftanh ⟨2, .reg 4, .pred 0, .none, .rne, false, 0x0⟩,
    Instr.fsigm ⟨2, .reg 4, .pred 0, .none, .rne, false, 0x0⟩,
    Instr.fsinp ⟨2, .reg 4, .pred 0, .none, .rne, false, 0x0⟩,
    Instr.frnd ⟨2, .reg 6, .pred 0, .none, .rd, false, 0x0⟩,
    Instr.fcls ⟨2, .pred 0, .pred 0, .none, .rne, false, 0x3⟩,
    Instr.redf ⟨2, .oq 0, .pred 0, .none, .rne, true, 0x0⟩,
    Instr.scnf ⟨2, .oq 0, .pred 0, .none, .rne, true, 0x0⟩,
    Instr.topk ⟨2, .reg 8, .pred 0, .reg 9, .rne, true, 0x2⟩,
    Instr.cvt ⟨8, .reg 2, .pred 0, .reg 2, .rne, false, 0x12⟩,
    Instr.bq ⟨15, .reg 4, .pred 0, .none, .rne, false, 0x92⟩,
    Instr.bdq ⟨2, .reg 5, .pred 0, .none, .rne, false, 0x6⟩,
    Instr.sclb ⟨15, .reg 4, .pred 0, .const 1, .rne, false, 0xD⟩,
    Instr.wadp ⟨15, .oq 0, .pred 0, .none, .rne, true, 0x37⟩,
    Instr.gate ⟨0, .oq 0, .pred 0, .iq 1 0, .rne, false, 0x1⟩,
    Instr.dly ⟨2, .oq 1, .pred 0, .const 3, .rne, false, 0x4⟩,
    Instr.mrg ⟨0, .oq 0, .pred 0, .iq 1 0, .rne, false, 0x0⟩,
    Instr.str ⟨0, .oq 0, .pred 0, .pred 1, .rne, true, 0x2⟩,
    Instr.tag ⟨0, .oq 1, .pred 0, .none, .rne, true, 0x5⟩,
    Instr.proj ⟨0, .oq 0, .pred 0, .none, .rne, false, 0x1⟩,
    Instr.widn ⟨0, .oq 0, .pred 0, .none, .rne, true, 0x5⟩,
    Instr.hin ⟨0, .oq 0, .pred 0, .none, .rne, false, 0x2⟩,
    Instr.hout ⟨0, .ap, .pred 0, .reg 1, .rne, true, 0x0⟩,
    Instr.rdon ⟨15, .oq 1, .pred 0, .none, .rne, true, 0x104⟩,
    Instr.rrte ⟨15, .none, .pred 0, .none, .rne, true, 0x0⟩,
    Instr.pois ⟨0, .oq 2, .reg 0, .none, .rne, false, 0x0⟩,
    Instr.halt ⟨0, .none, .reg 0, .none, .rne, false, 0x0⟩,
    Instr.trap ⟨0, .none, .reg 0, .none, .rne, false, 0x2A⟩,
    Instr.nop ⟨0, .none, .reg 0, .none, .rne, true, 0x0⟩] : List Instr).all (fun i => !i.wellFormed) = true := by decide

theorem test_illformed_second_source_1 : ([
    Instr.iadd ⟨0, .reg 3, .iq 0 0, .ap, .rne, false, 0x0⟩,
    Instr.isub ⟨0, .reg 3, .iq 0 0, .ap, .rne, false, 0x0⟩,
    Instr.iadds ⟨5, .reg 1, .reg 2, .ap, .rne, false, 0x0⟩,
    Instr.isubs ⟨5, .reg 1, .reg 2, .ap, .rne, false, 0x0⟩,
    Instr.imul ⟨0, .reg 3, .iq 0 0, .ap, .rne, false, 0x0⟩,
    Instr.imulh ⟨0, .reg 3, .iq 0 0, .ap, .rne, false, 0x0⟩,
    Instr.imad ⟨1, .oq 0, .reg 1, .ap, .rne, false, 0x3⟩,
    Instr.imin ⟨0, .reg 3, .iq 0 0, .ap, .rne, false, 0x0⟩,
    Instr.imax ⟨0, .reg 3, .iq 0 0, .ap, .rne, false, 0x0⟩,
    Instr.iabs ⟨5, .reg 5, .iq 1 0, .ap, .rne, false, 0x0⟩,
    Instr.ineg ⟨10, .reg 5, .iq 1 0, .ap, .rne, false, 0x0⟩,
    Instr.iavg ⟨0, .reg 3, .iq 0 0, .ap, .rne, false, 0x0⟩,
    Instr.shl ⟨1, .reg 4, .reg 4, .ap, .rne, false, 0x0⟩,
    Instr.shr ⟨1, .reg 4, .reg 4, .ap, .rne, false, 0x0⟩,
    Instr.sar ⟨1, .reg 4, .reg 4, .ap, .rne, false, 0x0⟩,
    Instr.rot ⟨1, .reg 4, .reg 4, .ap, .rne, false, 0x0⟩,
    Instr.cellAnd ⟨1, .reg 4, .reg 4, .ap, .rne, false, 0x0⟩,
    Instr.cellOr ⟨1, .reg 4, .reg 4, .ap, .rne, false, 0x0⟩,
    Instr.cellXor ⟨1, .reg 4, .reg 4, .ap, .rne, false, 0x0⟩,
    Instr.andn ⟨1, .reg 4, .reg 4, .ap, .rne, false, 0x0⟩,
    Instr.not ⟨10, .reg 5, .iq 1 0, .ap, .rne, false, 0x0⟩,
    Instr.cellClz ⟨10, .reg 5, .iq 1 0, .ap, .rne, false, 0x0⟩,
    Instr.cellCtz ⟨10, .reg 5, .iq 1 0, .ap, .rne, false, 0x0⟩,
    Instr.ffs ⟨10, .reg 5, .iq 1 0, .ap, .rne, false, 0x0⟩,
    Instr.cellPopc ⟨10, .reg 5, .iq 1 0, .ap, .rne, false, 0x0⟩,
    Instr.brev ⟨10, .reg 5, .iq 1 0, .ap, .rne, false, 0x0⟩,
    Instr.bfx ⟨0, .reg 6, .reg 7, .ap, .rne, false, 0x244⟩,
    Instr.bfi ⟨1, .reg 6, .reg 1, .ap, .rne, false, 0x244⟩,
    Instr.icmp ⟨0, .pred 2, .iq 0 0, .ap, .rne, false, 0x2⟩,
    Instr.sel ⟨1, .reg 0, .reg 1, .ap, .rne, false, 0x603⟩,
    Instr.mov ⟨0, .oq 0, .iq 0 0, .ap, .rne, true, 0x0⟩] : List Instr).all (fun i => !i.wellFormed) = true := by decide

theorem test_illformed_second_source_2 : ([
    Instr.movc ⟨5, .reg 2, .none, .ap, .rne, false, 0xFFB⟩,
    Instr.bcst ⟨1, .reg 1, .iq 2 0, .ap, .rne, false, 0x5⟩,
    Instr.lprm ⟨1, .reg 3, .reg 1, .ap, .rne, false, 0x0⟩,
    Instr.lshf ⟨1, .reg 4, .reg 1, .ap, .rne, false, 0x3⟩,
    Instr.redi ⟨0, .oq 1, .iq 0 0, .ap, .rne, true, 0x0⟩,
    Instr.scni ⟨0, .reg 2, .reg 1, .ap, .rne, false, 0x1⟩,
    Instr.dot4 ⟨9, .reg 1, .iq 0 0, .ap, .rne, false, 0x1⟩,
    Instr.dot2 ⟨5, .reg 1, .iq 0 0, .ap, .rne, false, 0x1⟩,
    Instr.kop ⟨0, .pred 4, .pred 1, .ap, .rne, false, 0x8⟩,
    Instr.enq ⟨0, .oq 2, .reg 3, .ap, .rne, false, 0x1⟩,
    Instr.deq ⟨0, .reg 1, .iq 3 2, .ap, .rne, false, 0x0⟩,
    Instr.adv ⟨0, .none, .iq 1 0, .ap, .rne, false, 0x3⟩,
    Instr.peek ⟨1, .reg 7, .iq 0 1, .ap, .rne, false, 0x0⟩,
    Instr.qstat ⟨1, .reg 8, .none, .ap, .rne, false, 0x0⟩,
    Instr.cellLd ⟨2, .reg 2, .reg 1, .ap, .rne, false, 0x5⟩,
    Instr.cellSt ⟨0, .ap, .reg 2, .ap, .rne, false, 0x5⟩,
    Instr.walk ⟨0, .oq 1, .reg 1, .ap, .rne, false, 0x1D⟩,
    Instr.atom ⟨4, .reg 3, .reg 1, .ap, .rne, false, 0x5⟩,
    Instr.cellLdv ⟨2, .reg 2, .reg 1, .ap, .rne, false, 0x5⟩,
    Instr.cellStv ⟨0, .reg 4, .reg 2, .ap, .rne, false, 0x5⟩,
    Instr.fadd ⟨2, .reg 3, .iq 0 0, .ap, .rne, false, 0x0⟩,
    Instr.fsub ⟨2, .reg 3, .iq 0 0, .ap, .rne, false, 0x0⟩,
    Instr.fmul ⟨2, .reg 3, .iq 0 0, .ap, .rne, false, 0x0⟩,
    Instr.ffma ⟨8, .oq 1, .reg 1, .ap, .rz, false, 0x3⟩,
    Instr.fmin ⟨7, .reg 5, .iq 0 0, .ap, .rne, false, 0x0⟩,
    Instr.fmax ⟨7, .reg 5, .iq 0 0, .ap, .rne, false, 0x0⟩,
    Instr.fabs ⟨2, .reg 2, .reg 2, .ap, .rne, false, 0x0⟩,
    Instr.fneg ⟨2, .reg 2, .reg 2, .ap, .rne, false, 0x0⟩,
    Instr.fcmp ⟨2, .pred 1, .iq 0 0, .ap, .rne, false, 0x2⟩,
    Instr.frcp ⟨2, .reg 4, .reg 3, .ap, .rne, false, 0x0⟩,
    Instr.frsq ⟨2, .reg 4, .reg 3, .ap, .rne, false, 0x0⟩] : List Instr).all (fun i => !i.wellFormed) = true := by decide

theorem test_illformed_second_source_3 : ([
    Instr.fsqrt ⟨2, .reg 4, .reg 3, .ap, .rne, false, 0x0⟩,
    Instr.fexp2 ⟨2, .reg 4, .reg 3, .ap, .rne, false, 0x0⟩,
    Instr.flog2 ⟨2, .reg 4, .reg 3, .ap, .rne, false, 0x0⟩,
    Instr.ftanh ⟨2, .reg 4, .reg 3, .ap, .rne, false, 0x0⟩,
    Instr.fsigm ⟨2, .reg 4, .reg 3, .ap, .rne, false, 0x0⟩,
    Instr.fsinp ⟨2, .reg 4, .reg 3, .ap, .rne, false, 0x0⟩,
    Instr.frnd ⟨2, .reg 6, .reg 6, .ap, .rd, false, 0x0⟩,
    Instr.fcls ⟨2, .pred 0, .iq 0 0, .ap, .rne, false, 0x3⟩,
    Instr.redf ⟨2, .oq 0, .iq 0 0, .ap, .rne, true, 0x0⟩,
    Instr.scnf ⟨2, .oq 0, .iq 0 0, .ap, .rne, true, 0x0⟩,
    Instr.topk ⟨2, .reg 8, .iq 0 0, .ap, .rne, true, 0x2⟩,
    Instr.cvt ⟨8, .reg 2, .reg 1, .ap, .rne, false, 0x12⟩,
    Instr.bq ⟨15, .reg 4, .iq 0 0, .ap, .rne, false, 0x92⟩,
    Instr.bdq ⟨2, .reg 5, .reg 4, .ap, .rne, false, 0x6⟩,
    Instr.sclb ⟨15, .reg 4, .reg 4, .ap, .rne, false, 0xD⟩,
    Instr.wadp ⟨15, .oq 0, .iq 0 0, .ap, .rne, true, 0x37⟩,
    Instr.gate ⟨0, .oq 0, .iq 0 0, .ap, .rne, false, 0x1⟩,
    Instr.dly ⟨2, .oq 1, .iq 2 0, .ap, .rne, false, 0x4⟩,
    Instr.mrg ⟨0, .oq 0, .iq 0 0, .ap, .rne, false, 0x0⟩,
    Instr.str ⟨0, .oq 0, .iq 0 0, .ap, .rne, true, 0x2⟩,
    Instr.tag ⟨0, .oq 1, .iq 0 0, .ap, .rne, true, 0x5⟩,
    Instr.proj ⟨0, .oq 0, .reg 1, .ap, .rne, false, 0x1⟩,
    Instr.widn ⟨0, .oq 0, .iq 0 0, .ap, .rne, true, 0x5⟩,
    Instr.hin ⟨0, .oq 0, .iq 3 0, .ap, .rne, false, 0x2⟩,
    Instr.hout ⟨0, .ap, .iq 0 0, .ap, .rne, true, 0x0⟩,
    Instr.rdon ⟨15, .oq 1, .iq 0 0, .ap, .rne, true, 0x104⟩,
    Instr.rrte ⟨15, .none, .iq 0 0, .ap, .rne, true, 0x0⟩,
    Instr.pois ⟨0, .oq 2, .none, .ap, .rne, false, 0x0⟩,
    Instr.halt ⟨0, .none, .none, .ap, .rne, false, 0x0⟩,
    Instr.trap ⟨0, .none, .none, .ap, .rne, false, 0x2A⟩,
    Instr.nop ⟨0, .none, .iq 1 0, .ap, .rne, true, 0x0⟩] : List Instr).all (fun i => !i.wellFormed) = true := by decide

theorem test_illformed_rounding_1 : ([
    Instr.iadd ⟨0, .reg 3, .iq 0 0, .const 1, .rz, false, 0x0⟩,
    Instr.isub ⟨0, .reg 3, .iq 0 0, .const 1, .rz, false, 0x0⟩,
    Instr.iadds ⟨5, .reg 1, .reg 2, .reg 3, .rz, false, 0x0⟩,
    Instr.isubs ⟨5, .reg 1, .reg 2, .reg 3, .rz, false, 0x0⟩,
    Instr.imul ⟨0, .reg 3, .iq 0 0, .const 1, .rz, false, 0x0⟩,
    Instr.imulh ⟨0, .reg 3, .iq 0 0, .const 1, .rz, false, 0x0⟩,
    Instr.imad ⟨1, .oq 0, .reg 1, .reg 2, .rz, false, 0x3⟩,
    Instr.imin ⟨0, .reg 3, .iq 0 0, .const 1, .rz, false, 0x0⟩,
    Instr.imax ⟨0, .reg 3, .iq 0 0, .const 1, .rz, false, 0x0⟩,
    Instr.iabs ⟨5, .reg 5, .iq 1 0, .none, .rz, false, 0x0⟩,
    Instr.ineg ⟨10, .reg 5, .iq 1 0, .none, .rz, false, 0x0⟩,
    Instr.iavg ⟨0, .reg 3, .iq 0 0, .const 1, .rz, false, 0x0⟩,
    Instr.shl ⟨1, .reg 4, .reg 4, .const 2, .rz, false, 0x0⟩,
    Instr.shr ⟨1, .reg 4, .reg 4, .const 2, .rz, false, 0x0⟩,
    Instr.sar ⟨1, .reg 4, .reg 4, .const 2, .rz, false, 0x0⟩,
    Instr.rot ⟨1, .reg 4, .reg 4, .const 2, .rz, false, 0x0⟩,
    Instr.cellAnd ⟨1, .reg 4, .reg 4, .const 2, .rz, false, 0x0⟩,
    Instr.cellOr ⟨1, .reg 4, .reg 4, .const 2, .rz, false, 0x0⟩,
    Instr.cellXor ⟨1, .reg 4, .reg 4, .const 2, .rz, false, 0x0⟩,
    Instr.andn ⟨1, .reg 4, .reg 4, .const 2, .rz, false, 0x0⟩,
    Instr.not ⟨10, .reg 5, .iq 1 0, .none, .rz, false, 0x0⟩,
    Instr.cellClz ⟨10, .reg 5, .iq 1 0, .none, .rz, false, 0x0⟩,
    Instr.cellCtz ⟨10, .reg 5, .iq 1 0, .none, .rz, false, 0x0⟩,
    Instr.ffs ⟨10, .reg 5, .iq 1 0, .none, .rz, false, 0x0⟩,
    Instr.cellPopc ⟨10, .reg 5, .iq 1 0, .none, .rz, false, 0x0⟩,
    Instr.brev ⟨10, .reg 5, .iq 1 0, .none, .rz, false, 0x0⟩,
    Instr.bfx ⟨0, .reg 6, .reg 7, .none, .rz, false, 0x244⟩,
    Instr.bfi ⟨1, .reg 6, .reg 1, .reg 6, .rz, false, 0x244⟩,
    Instr.icmp ⟨0, .pred 2, .iq 0 0, .const 0, .rz, false, 0x2⟩,
    Instr.sel ⟨1, .reg 0, .reg 1, .reg 2, .rz, false, 0x603⟩,
    Instr.mov ⟨0, .oq 0, .iq 0 0, .none, .rz, true, 0x0⟩] : List Instr).all (fun i => !i.wellFormed) = true := by decide

theorem test_illformed_rounding_2 : ([
    Instr.movc ⟨5, .reg 2, .none, .none, .rz, false, 0xFFB⟩,
    Instr.bcst ⟨1, .reg 1, .iq 2 0, .none, .rz, false, 0x5⟩,
    Instr.lprm ⟨1, .reg 3, .reg 1, .reg 2, .rz, false, 0x0⟩,
    Instr.lshf ⟨1, .reg 4, .reg 1, .reg 2, .rz, false, 0x3⟩,
    Instr.redi ⟨0, .oq 1, .iq 0 0, .none, .rz, true, 0x0⟩,
    Instr.scni ⟨0, .reg 2, .reg 1, .none, .rz, false, 0x1⟩,
    Instr.dot4 ⟨9, .reg 1, .iq 0 0, .iq 1 0, .rz, false, 0x1⟩,
    Instr.dot2 ⟨5, .reg 1, .iq 0 0, .iq 1 0, .rz, false, 0x1⟩,
    Instr.kop ⟨0, .pred 4, .pred 1, .pred 2, .rz, false, 0x8⟩,
    Instr.enq ⟨0, .oq 2, .reg 3, .none, .rz, false, 0x1⟩,
    Instr.deq ⟨0, .reg 1, .iq 3 2, .none, .rz, false, 0x0⟩,
    Instr.adv ⟨0, .none, .iq 1 0, .none, .rz, false, 0x3⟩,
    Instr.peek ⟨1, .reg 7, .iq 0 1, .none, .rz, false, 0x0⟩,
    Instr.qstat ⟨1, .reg 8, .none, .none, .rz, false, 0x0⟩,
    Instr.cellLd ⟨2, .reg 2, .reg 1, .none, .rz, false, 0x5⟩,
    Instr.cellSt ⟨0, .ap, .reg 2, .reg 1, .rz, false, 0x5⟩,
    Instr.walk ⟨0, .oq 1, .reg 1, .reg 2, .rz, false, 0x1D⟩,
    Instr.atom ⟨4, .reg 3, .reg 1, .reg 2, .rz, false, 0x5⟩,
    Instr.cellLdv ⟨2, .reg 2, .reg 1, .reg 3, .rz, false, 0x5⟩,
    Instr.cellStv ⟨0, .reg 4, .reg 2, .reg 1, .rz, false, 0x5⟩,
    Instr.fmin ⟨7, .reg 5, .iq 0 0, .iq 1 0, .rz, false, 0x0⟩,
    Instr.fmax ⟨7, .reg 5, .iq 0 0, .iq 1 0, .rz, false, 0x0⟩,
    Instr.fabs ⟨2, .reg 2, .reg 2, .none, .rz, false, 0x0⟩,
    Instr.fneg ⟨2, .reg 2, .reg 2, .none, .rz, false, 0x0⟩,
    Instr.fcmp ⟨2, .pred 1, .iq 0 0, .const 0, .rz, false, 0x2⟩,
    Instr.fcls ⟨2, .pred 0, .iq 0 0, .none, .rz, false, 0x3⟩,
    Instr.topk ⟨2, .reg 8, .iq 0 0, .reg 9, .rz, true, 0x2⟩,
    Instr.bdq ⟨2, .reg 5, .reg 4, .none, .rz, false, 0x6⟩,
    Instr.sclb ⟨15, .reg 4, .reg 4, .const 1, .rz, false, 0xD⟩,
    Instr.gate ⟨0, .oq 0, .iq 0 0, .iq 1 0, .rz, false, 0x1⟩,
    Instr.dly ⟨2, .oq 1, .iq 2 0, .const 3, .rz, false, 0x4⟩] : List Instr).all (fun i => !i.wellFormed) = true := by decide

theorem test_illformed_rounding_3 : ([
    Instr.mrg ⟨0, .oq 0, .iq 0 0, .iq 1 0, .rz, false, 0x0⟩,
    Instr.str ⟨0, .oq 0, .iq 0 0, .pred 1, .rz, true, 0x2⟩,
    Instr.tag ⟨0, .oq 1, .iq 0 0, .none, .rz, true, 0x5⟩,
    Instr.proj ⟨0, .oq 0, .reg 1, .none, .rz, false, 0x1⟩,
    Instr.widn ⟨0, .oq 0, .iq 0 0, .none, .rz, true, 0x5⟩,
    Instr.hin ⟨0, .oq 0, .iq 3 0, .none, .rz, false, 0x2⟩,
    Instr.hout ⟨0, .ap, .iq 0 0, .reg 1, .rz, true, 0x0⟩,
    Instr.rdon ⟨15, .oq 1, .iq 0 0, .none, .rz, true, 0x104⟩,
    Instr.rrte ⟨15, .none, .iq 0 0, .none, .rz, true, 0x0⟩,
    Instr.pois ⟨0, .oq 2, .none, .none, .rz, false, 0x0⟩,
    Instr.halt ⟨0, .none, .none, .none, .rz, false, 0x0⟩,
    Instr.trap ⟨0, .none, .none, .none, .rz, false, 0x2A⟩,
    Instr.nop ⟨0, .none, .iq 1 0, .none, .rz, true, 0x0⟩,
    Instr.redf ⟨2, .oq 0, .iq 0 0, .none, .rz, true, 0x1⟩,
    Instr.scnf ⟨2, .oq 0, .iq 0 0, .none, .rz, true, 0x2⟩,
    Instr.wadp ⟨15, .oq 0, .iq 0 0, .none, .rz, true, 0x0⟩] : List Instr).all (fun i => !i.wellFormed) = true := by decide

theorem test_illformed_constant_1 : ([
    Instr.iadd ⟨0, .reg 3, .iq 0 0, .const 1, .rne, false, 0xFFF⟩,
    Instr.isub ⟨0, .reg 3, .iq 0 0, .const 1, .rne, false, 0xFFF⟩,
    Instr.iadds ⟨5, .reg 1, .reg 2, .reg 3, .rne, false, 0xFFF⟩,
    Instr.isubs ⟨5, .reg 1, .reg 2, .reg 3, .rne, false, 0xFFF⟩,
    Instr.imul ⟨0, .reg 3, .iq 0 0, .const 1, .rne, false, 0xFFF⟩,
    Instr.imulh ⟨0, .reg 3, .iq 0 0, .const 1, .rne, false, 0xFFF⟩,
    Instr.imad ⟨1, .oq 0, .reg 1, .reg 2, .rne, false, 0xE00⟩,
    Instr.imin ⟨0, .reg 3, .iq 0 0, .const 1, .rne, false, 0xFFF⟩,
    Instr.imax ⟨0, .reg 3, .iq 0 0, .const 1, .rne, false, 0xFFF⟩,
    Instr.iabs ⟨5, .reg 5, .iq 1 0, .none, .rne, false, 0xFFF⟩,
    Instr.ineg ⟨10, .reg 5, .iq 1 0, .none, .rne, false, 0xFFF⟩,
    Instr.iavg ⟨0, .reg 3, .iq 0 0, .const 1, .rne, false, 0xFFF⟩,
    Instr.shl ⟨1, .reg 4, .reg 4, .const 2, .rne, false, 0xFFF⟩,
    Instr.shr ⟨1, .reg 4, .reg 4, .const 2, .rne, false, 0xFFF⟩,
    Instr.sar ⟨1, .reg 4, .reg 4, .const 2, .rne, false, 0xFFF⟩,
    Instr.rot ⟨1, .reg 4, .reg 4, .const 2, .rne, false, 0xFFF⟩,
    Instr.cellAnd ⟨1, .reg 4, .reg 4, .const 2, .rne, false, 0xFFF⟩,
    Instr.cellOr ⟨1, .reg 4, .reg 4, .const 2, .rne, false, 0xFFF⟩,
    Instr.cellXor ⟨1, .reg 4, .reg 4, .const 2, .rne, false, 0xFFF⟩,
    Instr.andn ⟨1, .reg 4, .reg 4, .const 2, .rne, false, 0xFFF⟩,
    Instr.not ⟨10, .reg 5, .iq 1 0, .none, .rne, false, 0xFFF⟩,
    Instr.cellClz ⟨10, .reg 5, .iq 1 0, .none, .rne, false, 0xFFF⟩,
    Instr.cellCtz ⟨10, .reg 5, .iq 1 0, .none, .rne, false, 0xFFF⟩,
    Instr.ffs ⟨10, .reg 5, .iq 1 0, .none, .rne, false, 0xFFF⟩,
    Instr.cellPopc ⟨10, .reg 5, .iq 1 0, .none, .rne, false, 0xFFF⟩,
    Instr.brev ⟨10, .reg 5, .iq 1 0, .none, .rne, false, 0xFFF⟩,
    Instr.bfx ⟨0, .reg 6, .reg 7, .none, .rne, false, 0xFFF⟩,
    Instr.bfi ⟨1, .reg 6, .reg 1, .reg 6, .rne, false, 0xFFF⟩,
    Instr.icmp ⟨0, .pred 2, .iq 0 0, .const 0, .rne, false, 0xFFF⟩,
    Instr.sel ⟨1, .reg 0, .reg 1, .reg 2, .rne, false, 0xE00⟩,
    Instr.mov ⟨0, .oq 0, .iq 0 0, .none, .rne, true, 0xFFF⟩] : List Instr).all (fun i => !i.wellFormed) = true := by decide

theorem test_illformed_constant_2 : ([
    Instr.bcst ⟨1, .reg 1, .iq 2 0, .none, .rne, false, 0xFFF⟩,
    Instr.lprm ⟨1, .reg 3, .reg 1, .reg 2, .rne, false, 0xFFF⟩,
    Instr.lshf ⟨1, .reg 4, .reg 1, .reg 2, .rne, false, 0xFFF⟩,
    Instr.redi ⟨0, .oq 1, .iq 0 0, .none, .rne, true, 0xFFF⟩,
    Instr.scni ⟨0, .reg 2, .reg 1, .none, .rne, false, 0xFFF⟩,
    Instr.dot4 ⟨9, .reg 1, .iq 0 0, .iq 1 0, .rne, false, 0xE00⟩,
    Instr.dot2 ⟨5, .reg 1, .iq 0 0, .iq 1 0, .rne, false, 0xE00⟩,
    Instr.kop ⟨0, .pred 4, .pred 1, .pred 2, .rne, false, 0xFFF⟩,
    Instr.enq ⟨0, .oq 2, .reg 3, .none, .rne, false, 0xFFF⟩,
    Instr.deq ⟨0, .reg 1, .iq 3 2, .none, .rne, false, 0xFFF⟩,
    Instr.adv ⟨0, .none, .iq 1 0, .none, .rne, false, 0xFFF⟩,
    Instr.peek ⟨1, .reg 7, .iq 0 1, .none, .rne, false, 0xFFF⟩,
    Instr.qstat ⟨1, .reg 8, .none, .none, .rne, false, 0xFFF⟩,
    Instr.cellLd ⟨2, .reg 2, .reg 1, .none, .rne, false, 0xFFF⟩,
    Instr.cellSt ⟨0, .ap, .reg 2, .reg 1, .rne, false, 0xFFF⟩,
    Instr.walk ⟨0, .oq 1, .reg 1, .reg 2, .rne, false, 0xFFF⟩,
    Instr.atom ⟨4, .reg 3, .reg 1, .reg 2, .rne, false, 0xFFF⟩,
    Instr.cellLdv ⟨2, .reg 2, .reg 1, .reg 3, .rne, false, 0xFFF⟩,
    Instr.cellStv ⟨0, .reg 4, .reg 2, .reg 1, .rne, false, 0xFFF⟩,
    Instr.fadd ⟨2, .reg 3, .iq 0 0, .reg 1, .rne, false, 0xFFF⟩,
    Instr.fsub ⟨2, .reg 3, .iq 0 0, .reg 1, .rne, false, 0xFFF⟩,
    Instr.fmul ⟨2, .reg 3, .iq 0 0, .reg 1, .rne, false, 0xFFF⟩,
    Instr.ffma ⟨8, .oq 1, .reg 1, .reg 2, .rz, false, 0xE00⟩,
    Instr.fmin ⟨7, .reg 5, .iq 0 0, .iq 1 0, .rne, false, 0xFFF⟩,
    Instr.fmax ⟨7, .reg 5, .iq 0 0, .iq 1 0, .rne, false, 0xFFF⟩,
    Instr.fabs ⟨2, .reg 2, .reg 2, .none, .rne, false, 0xFFF⟩,
    Instr.fneg ⟨2, .reg 2, .reg 2, .none, .rne, false, 0xFFF⟩,
    Instr.fcmp ⟨2, .pred 1, .iq 0 0, .const 0, .rne, false, 0xFFF⟩,
    Instr.frcp ⟨2, .reg 4, .reg 3, .none, .rne, false, 0xFFF⟩,
    Instr.frsq ⟨2, .reg 4, .reg 3, .none, .rne, false, 0xFFF⟩,
    Instr.fsqrt ⟨2, .reg 4, .reg 3, .none, .rne, false, 0xFFF⟩] : List Instr).all (fun i => !i.wellFormed) = true := by decide

theorem test_illformed_constant_3 : ([
    Instr.fexp2 ⟨2, .reg 4, .reg 3, .none, .rne, false, 0xFFF⟩,
    Instr.flog2 ⟨2, .reg 4, .reg 3, .none, .rne, false, 0xFFF⟩,
    Instr.ftanh ⟨2, .reg 4, .reg 3, .none, .rne, false, 0xFFF⟩,
    Instr.fsigm ⟨2, .reg 4, .reg 3, .none, .rne, false, 0xFFF⟩,
    Instr.fsinp ⟨2, .reg 4, .reg 3, .none, .rne, false, 0xFFF⟩,
    Instr.frnd ⟨2, .reg 6, .reg 6, .none, .rd, false, 0xFFF⟩,
    Instr.fcls ⟨2, .pred 0, .iq 0 0, .none, .rne, false, 0xFFF⟩,
    Instr.redf ⟨2, .oq 0, .iq 0 0, .none, .rne, true, 0xFFF⟩,
    Instr.scnf ⟨2, .oq 0, .iq 0 0, .none, .rne, true, 0xFFF⟩,
    Instr.topk ⟨2, .reg 8, .iq 0 0, .reg 9, .rne, true, 0xFFF⟩,
    Instr.cvt ⟨8, .reg 2, .reg 1, .reg 2, .rne, false, 0xFFF⟩,
    Instr.bq ⟨15, .reg 4, .iq 0 0, .none, .rne, false, 0xFFF⟩,
    Instr.bdq ⟨2, .reg 5, .reg 4, .none, .rne, false, 0xFFF⟩,
    Instr.sclb ⟨15, .reg 4, .reg 4, .const 1, .rne, false, 0xFFF⟩,
    Instr.wadp ⟨15, .oq 0, .iq 0 0, .none, .rne, true, 0xFFF⟩,
    Instr.gate ⟨0, .oq 0, .iq 0 0, .iq 1 0, .rne, false, 0xFFF⟩,
    Instr.dly ⟨2, .oq 1, .iq 2 0, .const 3, .rne, false, 0xFFF⟩,
    Instr.mrg ⟨0, .oq 0, .iq 0 0, .iq 1 0, .rne, false, 0xFFF⟩,
    Instr.str ⟨0, .oq 0, .iq 0 0, .pred 1, .rne, true, 0xFFF⟩,
    Instr.tag ⟨0, .oq 1, .iq 0 0, .none, .rne, true, 0xFFF⟩,
    Instr.proj ⟨0, .oq 0, .reg 1, .none, .rne, false, 0xFFF⟩,
    Instr.widn ⟨0, .oq 0, .iq 0 0, .none, .rne, true, 0xFFF⟩,
    Instr.hin ⟨0, .oq 0, .iq 3 0, .none, .rne, false, 0xFFF⟩,
    Instr.hout ⟨0, .ap, .iq 0 0, .reg 1, .rne, true, 0xFFF⟩,
    Instr.rdon ⟨15, .oq 1, .iq 0 0, .none, .rne, true, 0xFFF⟩,
    Instr.rrte ⟨15, .none, .iq 0 0, .none, .rne, true, 0xFFF⟩,
    Instr.pois ⟨0, .oq 2, .none, .none, .rne, false, 0xFFF⟩,
    Instr.halt ⟨0, .none, .none, .none, .rne, false, 0xFFF⟩,
    Instr.nop ⟨0, .none, .iq 1 0, .none, .rne, true, 0xFFF⟩,
    Instr.trap ⟨0, .none, .none, .none, .rne, false, 0x0⟩,
    Instr.icmp ⟨0, .reg 0, .iq 0 0, .const 0, .rne, false, 0x8⟩] : List Instr).all (fun i => !i.wellFormed) = true := by decide

theorem test_illformed_constant_4 : ([
    Instr.icmp ⟨0, .pred 2, .iq 0 0, .const 0, .rne, false, 0x6⟩,
    Instr.redi ⟨0, .oq 1, .iq 0 0, .none, .rne, true, 0x7⟩,
    Instr.redf ⟨2, .oq 0, .iq 0 0, .none, .rne, true, 0x3⟩,
    Instr.fcmp ⟨2, .reg 0, .iq 0 0, .const 0, .rne, false, 0x8⟩,
    Instr.fcls ⟨2, .reg 0, .iq 0 0, .none, .rne, false, 0x400⟩,
    Instr.enq ⟨0, .oq 2, .reg 3, .none, .rne, false, 0x6⟩,
    Instr.enq ⟨0, .oq 2, .reg 3, .none, .rne, false, 0x4⟩,
    Instr.adv ⟨0, .none, .iq 1 0, .none, .rne, false, 0x0⟩,
    Instr.adv ⟨0, .none, .iq 1 0, .none, .rne, false, 0x9⟩,
    Instr.cellLd ⟨2, .reg 2, .reg 1, .none, .rne, false, 0x7⟩,
    Instr.cellLd ⟨2, .reg 2, .reg 1, .none, .rne, false, 0x18⟩,
    Instr.cvt ⟨8, .reg 2, .reg 1, .reg 2, .rne, false, 0x18⟩,
    Instr.bq ⟨15, .reg 4, .iq 0 0, .none, .rne, false, 0xC0⟩,
    Instr.bq ⟨15, .reg 4, .iq 0 0, .none, .rne, false, 0xC⟩,
    Instr.bq ⟨15, .reg 4, .iq 0 0, .none, .rne, false, 0x34⟩,
    Instr.sclb ⟨15, .reg 4, .reg 4, .const 1, .rne, false, 0x3⟩,
    Instr.sclb ⟨15, .reg 4, .reg 4, .const 1, .rne, false, 0x6⟩,
    Instr.wadp ⟨15, .oq 0, .iq 0 0, .none, .rne, true, 0x2⟩,
    Instr.wadp ⟨15, .oq 0, .iq 0 0, .none, .rne, true, 0x70⟩,
    Instr.proj ⟨0, .oq 0, .reg 1, .none, .rne, false, 0x2⟩] : List Instr).all (fun i => !i.wellFormed) = true := by decide

theorem test_illformed_pop : ([
    Instr.deq ⟨0, .reg 1, .iq 3 2, .none, .rne, true, 0x0⟩,
    Instr.adv ⟨0, .none, .iq 1 0, .none, .rne, true, 0x3⟩,
    Instr.gate ⟨0, .oq 0, .iq 0 0, .iq 1 0, .rne, true, 0x1⟩,
    Instr.mrg ⟨0, .oq 0, .iq 0 0, .iq 1 0, .rne, true, 0x0⟩,
    Instr.hin ⟨0, .oq 0, .iq 3 0, .none, .rne, true, 0x2⟩] : List Instr).all (fun i => !i.wellFormed) = true := by decide

theorem test_illformed_core : ([
    Instr.ldvGe 1 2 3 true 3 .d,
    Instr.ldvEq 1 2 3 true 3 .d,
    Instr.amoAdd 2 4 6 .n128 .d,
    Instr.amoSwp 2 4 6 .n128 .d,
    Instr.amoMin 2 4 6 .n128 .d,
    Instr.amoMax 2 4 6 .n128 .d,
    Instr.amoMinn 2 4 6 .n128 .d,
    Instr.amoMaxn 2 4 6 .n128 .d,
    Instr.amoAnd 2 4 6 .n128 .d,
    Instr.amoOr 2 4 6 .n128 .d,
    Instr.amoXor 2 4 6 .n128 .d,
    Instr.amoCas 3 4 6 .n128 .d,
    Instr.amoCas 0 4 6 .n128 .d,
    Instr.amoCas 2 4 7 .n128 .d] : List Instr).all (fun i => !i.wellFormed) = true := by decide

/-! ### Small states -/

/-- A running part with one kernel's region on parcel 0, at core 0's turn. -/
def onCore (f : Core → Core) : State :=
  { State.reset.onCore 0 f with
    regions := [(0, placedRegion)], boot := { Boot.reset with phase := .running }, next := .core 0 }
/-- The same with registers 1 to 3 holding values. -/
def regs (a b c : Word) : State :=
  onCore fun x => ((x.put 1 a).put 2 b).put 3 c
/-- A running part at the firing of slot 0 of cell 0. -/
def onCell (f : Cell → Cell) : State :=
  { State.reset.onCell 0 0 f with
    regions := [(0, placedRegion)], boot := { Boot.reset with phase := .running }, next := .firing 0 0 0 0 }
/-- A lane register whose first lanes hold values. -/
def lanes (l : List Nat) : LaneReg := ⟨pack 32 l, 0xFFFF, 0⟩
/-- The same with registers 1 to 3 holding lanes. -/
def cell3 (a b c : List Nat) : State :=
  onCell fun x => { x with v := ((x.v.set 1 (lanes a)).set 2 (lanes b)).set 3 (lanes c) }

/-- The next state of an outcome. -/
def next? (o : Host.Outcome State Fault Refusal) : Option State :=
  match o with
  | .next t => some t
  | _ => none
/-- A register of core 0 after an instruction. -/
def regAfter (i : Instr) (s : State) (r : Reg) : Option Word := (next? (exec i s)).map fun t => t.reg r
/-- The cause of the trap that an instruction took. -/
def causeAfter (i : Instr) (s : State) : Option Word := (next? (exec i s)).map fun t => (t.core 0).tcause
/-- The lowest lanes of a lane register after an instruction. -/
def lanesAfter (i : Instr) (s : State) (r n : Nat) : Option (List Nat) :=
  (next? (exec i s)).map fun t => (List.range n).map fun l => (laneOf (((t.cell 0 0).v.toList.getD r LaneReg.reset).payload) l).toNat
/-- The same with trap handlers bound. -/
def trapping (s : State) : State := s.onCore 0 fun c => c.bind 0 127 0x1000 0

/-! ### The Surveyor core: results worked out from R115-R123 by hand -/

theorem test_add_wraps : regAfter (.add 4 1 2) (regs 0xFFFFFFFFFFFFFFFF 2 0) 4 = some 1 := by decide +kernel
theorem test_add_same : regAfter (.add 1 1 1) (regs 0x8000000000000001 0 0) 1 = some 2 := by decide +kernel
theorem test_sub_borrow : regAfter (.sub 4 1 2) (regs 1 2 0) 4 = some 0xFFFFFFFFFFFFFFFF := by decide +kernel
theorem test_x0_discards : regAfter (.add 0 1 2) (regs 3 4 0) 0 = some 0 := by decide +kernel
theorem test_mulh_signed : regAfter (.mulh 4 1 2) (regs 0xFFFFFFFFFFFFFFFF 2 0) 4 = some 0xFFFFFFFFFFFFFFFF := by decide +kernel
theorem test_mulhn : regAfter (.mulhn 4 1 2) (regs 0xFFFFFFFFFFFFFFFF 2 0) 4 = some 1 := by decide +kernel
theorem test_div_toward_zero : regAfter (.div 4 1 2) (regs 0xFFFFFFFFFFFFFFF9 2 0) 4 = some 0xFFFFFFFFFFFFFFFD := by decide +kernel
theorem test_rem_sign : regAfter (.rem 4 1 2) (regs 0xFFFFFFFFFFFFFFF9 2 0) 4 = some 0xFFFFFFFFFFFFFFFF := by decide +kernel
theorem test_div_zero_traps : causeAfter (.div 4 1 2) (trapping (regs 7 0 0)) = some codeIntDivzero.toNat := by decide +kernel
theorem test_clz_zero : regAfter (.clz 4 1) (regs 0 0 0) 4 = some 64 := by decide +kernel
theorem test_sra : regAfter (.sraImmediate 4 1 63) (regs 0x8000000000000000 0 0) 4 = some 0xFFFFFFFFFFFFFFFF := by decide +kernel
theorem test_lih : regAfter (.lih 10 1 3) (regs 1 0 0) 10 = some 0x10003 := by decide +kernel
theorem test_branch_taken : (next? (exec (.bgen 1 2 4) (regs 5 5 0))).map (fun t => (t.core 0).pc) = some 16 := by decide +kernel
theorem test_branch_not : (next? (exec (.bgen 1 2 4) (regs 4 5 0))).map (fun t => (t.core 0).pc) = some 4 := by decide +kernel
theorem test_jalr : (next? (exec (.jalr 0 1 0) (regs 0x40 0 0))).map (fun t => (t.core 0).pc) = some 0x40 := by decide +kernel
theorem test_misaligned_traps : causeAfter (.ldN64 4 1 .d 0) (trapping (regs 0x1001 0 0)) = some codeMisaligned.toNat := by
  decide +kernel
theorem test_trap_saves_pc : (next? (exec .tret (trapping (regs 0 0 0)))).map (fun t => ((t.core 0).tepc, (t.core 0).pc, (t.core 0).trap)) =
    some (0, 0x1000, true) := by decide +kernel
theorem test_csr_flags : regAfter (.csrr 8 8) (onCore fun c => { c with flags := 5 }) 8 = some 5 := by decide +kernel
theorem test_merid : regAfter (.merid 6) { regs 0 0 0 with meridian := 77 } 6 = some 77 := by decide +kernel
theorem test_endt : (next? (exec .endt (onCore fun c => { c with running := true }))).map (fun t => (t.core 0).running) =
    some false := by decide +kernel

/-! ### Versions: the manual's example after R63 -/

theorem test_version_behind : distance 4094 0 = -2 := by decide +kernel
theorem test_version_ahead : distance 1 0 = 1 := by decide +kernel
theorem test_version_outside : distance 2048 0 = -2048 := by decide +kernel

/-! ### Cells: results worked out by hand -/

theorem test_iadd_wraps : lanesAfter (.iadd ⟨1, .reg 4, .reg 1, .reg 2, .rne, false, 0⟩)
    (cell3 [0xFFFFFFFF, 7] [2, 8] []) 4 2 = some [1, 15] := by decide +kernel
theorem test_iadds_clamps : lanesAfter (.iadds ⟨5, .reg 4, .reg 1, .reg 2, .rne, false, 0⟩)
    (cell3 [0x7FFF8000] [0x0001FFFF] []) 4 1 = some [0x7FFF8000] := by decide +kernel
theorem test_imulh_signed : lanesAfter (.imulh ⟨0, .reg 4, .reg 1, .reg 2, .rne, false, 0⟩)
    (cell3 [0xFFFFFFFF] [2] []) 4 1 = some [0xFFFFFFFF] := by decide +kernel
theorem test_iavg_rounds_up : lanesAfter (.iavg ⟨0, .reg 4, .reg 1, .reg 2, .rne, false, 0⟩)
    (cell3 [1] [2] []) 4 1 = some [2] := by decide +kernel
theorem test_shl_full_width : lanesAfter (.shl ⟨1, .reg 4, .reg 1, .reg 2, .rne, false, 0⟩)
    (cell3 [1] [32] []) 4 1 = some [0] := by decide +kernel
theorem test_sar_full_width : lanesAfter (.sar ⟨1, .reg 4, .reg 1, .reg 2, .rne, false, 0⟩)
    (cell3 [0x80000000] [40] []) 4 1 = some [0xFFFFFFFF] := by decide +kernel
theorem test_bfx_sign : lanesAfter (.bfx ⟨0, .reg 6, .reg 1, .none, .rne, false, 0x244⟩)
    (cell3 [0x2000] [] []) 6 1 = some [0xFFFFFE00] := by decide +kernel
theorem test_movc_sign : lanesAfter (.movc ⟨5, .reg 2, .none, .none, .rne, false, 0xFFB⟩)
    (cell3 [] [] []) 2 1 = some [0xFFFBFFFB] := by decide +kernel
theorem test_redi_adds : lanesAfter (.redi ⟨1, .reg 4, .reg 1, .none, .rne, false, 0⟩)
    (cell3 [1, 2, 3, 4] [] []) 4 2 = some [10, 0] := by decide +kernel
theorem test_scni_adds : lanesAfter (.scni ⟨1, .reg 4, .reg 1, .none, .rne, false, 0⟩)
    (cell3 [1, 2, 3, 4] [] []) 4 4 = some [1, 3, 6, 10] := by decide +kernel
theorem test_dot4_saturates : lanesAfter (.dot4 ⟨9, .reg 4, .reg 1, .reg 2, .rne, false, 3⟩)
    (cell3 [0x01010101] [0x01010101] [0x7FFFFFFE]) 4 1 = some [0x7FFFFFFF] := by decide +kernel
theorem test_fadd : lanesAfter (.fadd ⟨2, .reg 4, .reg 1, .reg 2, .rne, false, 0⟩)
    (cell3 [0x3F800000] [0x40000000] []) 4 1 = some [0x40400000] := by decide +kernel
theorem test_fadd_even : lanesAfter (.fadd ⟨2, .reg 4, .reg 1, .reg 2, .rne, false, 0⟩)
    (cell3 [0x4B800000] [0x3F800000] []) 4 1 = some [0x4B800000] := by decide +kernel
theorem test_fmin_zero : lanesAfter (.fmin ⟨2, .reg 4, .reg 1, .reg 2, .rne, false, 0⟩)
    (cell3 [0] [0x80000000] []) 4 1 = some [0x80000000] := by decide +kernel
theorem test_fabs_nan : lanesAfter (.fabs ⟨2, .reg 4, .reg 1, .none, .rne, false, 0⟩)
    (cell3 [0xFFC00001] [] []) 4 1 = some [0x7FC00000] := by decide +kernel
theorem test_cvt_narrow : lanesAfter (.cvt ⟨8, .reg 4, .reg 1, .none, .rne, false, 0x02⟩)
    (cell3 [0x3F800000, 0x40000000] [] []) 4 1 = some [0x40003F80] := by decide +kernel
theorem test_trap_freezes : (next? (exec (.trap ⟨0, .none, .none, .none, .rne, false, 42⟩) (cell3 [] [] []))).map
    (fun t => ((t.cell 0 0).mode, (t.cell 0 0).faultReg.toNat % 256, t.reports.map (·.word1))) =
    some (.frozen, 3, [42]) := by decide +kernel
theorem test_halt : (next? (exec (.halt ⟨0, .none, .none, .none, .rne, false, 0⟩) (cell3 [] [] []))).map
    (fun t => (t.cell 0 0).mode) = some .halted := by decide +kernel
theorem test_enq_pushes : (next? (exec (.enq ⟨0, .oq 2, .reg 1, .none, .rne, false, 1⟩) (cell3 [5] [] []))).map
    (fun t => ((t.cell 0 0).oq.toList.map fun q => q.words.map fun x => (laneOf x.payload 0, x.last))) =
    some [[], [], [(5, true)], []] := by decide +kernel

/-! ### Witnesses: states and operands that meet the hypotheses of the statements -/

/-- Whether a piece of an instruction's effect went through, its value, and the state it left. -/
def went {α : Type} (r : EStateM.Result Stop State α) : Bool :=
  match r with
  | .ok _ _ => true
  | .error _ _ => false
def valueOf {α : Type} [Inhabited α] (r : EStateM.Result Stop State α) : α :=
  match r with
  | .ok a _ => a
  | .error _ _ => default
def stateOf {α : Type} (r : EStateM.Result Stop State α) : State :=
  match r with
  | .ok _ t => t
  | .error _ t => t
def stopOf {α : Type} (r : EStateM.Result Stop State α) : Stop :=
  match r with
  | .ok _ _ => .hold
  | .error e _ => e
theorem went_eq {α : Type} [Inhabited α] {r : EStateM.Result Stop State α} (h : went r = true) :
    r = .ok (valueOf r) (stateOf r) := by
  cases r with
  | ok a t => rfl
  | error e t => simp [went] at h
theorem stopped_eq {α : Type} {r : EStateM.Result Stop State α} (h : went r = false) : r = .error (stopOf r) (stateOf r) := by
  cases r with
  | ok a t => simp [went] at h
  | error e t => rfl

theorem went_as {α : Type} [Inhabited α] {r : EStateM.Result Stop State α} {a : α} (h : went r = true)
    (v : valueOf r = a) : r = .ok a (stateOf r) := v ▸ went_eq h
theorem stopped_as {α : Type} {r : EStateM.Result Stop State α} {e : Stop} (h : went r = false) (v : stopOf r = e) :
    r = .error e (stateOf r) := v ▸ stopped_eq h

/-- A page table that maps 1 GiB of HBM, of parcel windows and of host memory, one after another from address 0. -/
def tables : Memory :=
  [(0x10000, 1), (0x10008, 0x11), (0x11000, 1), (0x11008, 0x12), (0x12000, 1), (0x12008, 0x13), (0x13000, 0x1F),
   (0x13001, 0x22), (0x13040, 0x5F), (0x13041, 2), (0x1304B, 0x10), (0x13080, 0x9F), (0x13081, 2), (0x1308C, 0x04)]
/-- The state of `regs` with that table. -/
def mapped (a b c : Word) : State := { regs a b c with mem := tables, asids := [(0, 0x10001)] }

theorem test_tables_wf : tables.wf = true := by decide +kernel
theorem test_mapped_hbm : (translate (.core 0) 0x20000 .read (mapped 0 0 0) |> fun r => (valueOf r).pa) = 0x20000 := by decide +kernel

theorem witness_registerArithmetic : ∃ (s : State) (rb : Reg), s.reg rb ≠ 0 := ⟨regs 1 2 3, 2, by decide +kernel⟩
theorem witness_bitCounts : ∃ w x : Nat, x < 2 ^ w ∧ x ≠ 0 := ⟨8, 255, by decide +kernel⟩
theorem witness_divisionByZero : ∃ (s : State) (rb : Reg), s.reg rb = 0 := ⟨regs 1 0 3, 2, by decide +kernel⟩
theorem witness_division_overflow : ∃ (s : State) (ra rb : Reg),
    s.reg ra = 0x8000000000000000 ∧ s.reg rb = 0xFFFFFFFFFFFFFFFF :=
  ⟨regs 0x8000000000000000 0xFFFFFFFFFFFFFFFF 0, 1, 2, by decide +kernel⟩
theorem witness_jumps : ∃ (s : State) (ra : Reg) (off : BitVec 21) (imm : BitVec 16),
    ((s.core s.here).pc + (off.signExtend 64 <<< 2)).toNat % 4 = 0 ∧ (s.reg ra + imm.signExtend 64).toNat % 4 = 0 :=
  ⟨regs 4 0 0, 1, 0x1FFFFF, 0xFFFC, by decide +kernel⟩
theorem witness_jumps_misaligned : ∃ (s : State) (ra : Reg) (off : BitVec 21) (imm : BitVec 16),
    ((s.core s.here).pc + (off.signExtend 64 <<< 2)).toNat % 4 ≠ 0 ∧ (s.reg ra + imm.signExtend 64).toNat % 4 ≠ 0 :=
  ⟨(regs 2 0 0).onCore 0 fun c => { c with pc := 2 }, 1, 0, 0, by decide +kernel⟩
theorem witness_trapEntry : ∃ (s : State) (p : Nat), (s.core p).trap = false ∧ ((s.core p).channel 127).bound = true ∧
    ∀ x, s.regionOf p = some x → s.debugged x.1 = false :=
  ⟨trapping (regs 0 0 0), 0, by decide +kernel, by decide +kernel, fun x h => by
    have : (trapping (regs 0 0 0)).regionOf 0 = some (0, placedRegion) := by decide +kernel
    rw [this] at h; cases h; decide +kernel⟩
theorem witness_trapInsideTrap : ∃ (s : State) (p : Nat), (s.core p).trap = true :=
  ⟨onCore fun c => { c with trap := true }, 0, by decide +kernel⟩
theorem witness_trapUnbound : ∃ (s : State) (p : Nat), ((s.core p).channel 127).bound = false :=
  ⟨State.reset, 0, by decide +kernel⟩
theorem witness_trapReturn : ∃ s : State, (s.core s.here).trap = true ∧ (s.core s.here).tepc.toNat % 4 = 0 :=
  ⟨onCore fun c => { c with trap := true, tepc := 8 }, by decide +kernel⟩
theorem witness_trapReturn_untrapped : ∃ s : State, (s.core s.here).trap = false := ⟨regs 0 0 0, by decide +kernel⟩

theorem witness_loads : ∃ (s : State) (ra : Reg) (off : BitVec 12) (size : Nat) (m : Mapping) (s1 s2 : State) (bs : List Byte),
    (s.reg ra + off.signExtend 64 * BitVec.ofNat 64 size).toNat % size = 0 ∧
    translate (.core s.here) (s.reg ra + off.signExtend 64 * BitVec.ofNat 64 size) .read s = .ok m s1 ∧
    (∀ x, placeOf m.pa ≠ .host x) ∧
    readAt (.core s.here) .d m size (s.reg ra + off.signExtend 64 * BitVec.ofNat 64 size) s1 = .ok bs s2 :=
  ⟨mapped 0x20008 0 0, 1, 0xFFF, 8, _, _, _, _, by decide +kernel, went_eq (by decide +kernel), by
    have h : placeOf (valueOf (translate (.core 0) 0x20000 .read (mapped 0x20008 0 0))).pa = .hbm := by decide +kernel
    intro x hx; exact absurd (h.symm.trans hx) (by simp), went_eq (by decide +kernel)⟩
theorem witness_loads_host : ∃ (s : State) (ra : Reg) (m : Mapping) (s1 : State) (x : Nat),
    (s.reg ra).toNat % 8 = 0 ∧ translate (.core s.here) (s.reg ra) .read s = .ok m s1 ∧ placeOf m.pa = .host x ∧
    s1.hostFull = false :=
  ⟨mapped 0x80000000 0 0, 1, _, _, 0, by decide +kernel, went_eq (by decide +kernel), by decide +kernel, by decide +kernel⟩
theorem witness_loads_misaligned : ∃ (s : State) (ra : Reg), (s.reg ra).toNat % 8 ≠ 0 := ⟨mapped 7 0 0, 1, by decide +kernel⟩
theorem witness_loadExtension : ∃ bs : List Byte, bs.length = 1 ∨ bs.length = 2 ∨ bs.length = 4 ∨ bs.length = 8 :=
  ⟨[0x80], by decide⟩
theorem witness_stores : ∃ (s : State) (rd ra : Reg) (s1 : State), (s.reg ra).toNat % 8 = 0 ∧
    writeVa (.core s.here) .plain .d (s.reg ra) (Decode.leBytes 8 (s.reg rd).toNat) s = .ok () s1 :=
  ⟨mapped 0x3FFFFFF8 5 0, 2, 1, _, by decide +kernel, went_eq (by decide +kernel)⟩
theorem witness_stores_faulting : ∃ (s : State) (ra : Reg) (c : Byte) (v : Word) (s1 : State), (s.reg ra).toNat % 8 = 0 ∧
    translate (.core s.here) (s.reg ra) .write s = .error (.fault c v) s1 ∧ c ≠ 3 :=
  ⟨mapped 0xC0000000 0 0, 1, codeAbsent, 0xC0000000, _, by decide +kernel,
    stopped_as (by decide +kernel) (by decide +kernel), by decide⟩
theorem witness_storeFrame : ∃ (s s1 s2 t : State) (rd ra : Reg) (off : BitVec 12) (m : Mapping) (p o : Nat),
    (s.reg ra + off.signExtend 64 * 8).toNat % 8 = 0 ∧
    translate (.core s.here) (s.reg ra + off.signExtend 64 * 8) .write s = .ok m s1 ∧ placeOf m.pa = .parcel p o ∧
    o < 0x60000 ∧ reserveCheck (.core s.here) m.pa 8 (s.reg ra + off.signExtend 64 * 8) s1 = .ok () s2 ∧
    s.mem.wf = true ∧ exec (.stN64 rd ra .d off) s = .next t :=
  ⟨mapped 0x4005FFF8 5 0, _, _, _, 2, 1, 0, _, 0, 0x5FFF8, by decide +kernel, went_eq (by decide +kernel), by decide +kernel,
    by decide, went_eq (by decide +kernel), by decide +kernel, rfl⟩
theorem witness_storeFrame_1 : ∃ (s s1 s2 t : State) (rd ra : Reg) (off : BitVec 12) (m : Mapping) (p o : Nat),
    (s.reg ra + off.signExtend 64 * 1).toNat % 1 = 0 ∧
    translate (.core s.here) (s.reg ra + off.signExtend 64 * 1) .write s = .ok m s1 ∧ placeOf m.pa = .parcel p o ∧
    o < 0x60000 ∧ reserveCheck (.core s.here) m.pa 1 (s.reg ra + off.signExtend 64 * 1) s1 = .ok () s2 ∧
    s.mem.wf = true ∧ exec (.stN8 rd ra .d off) s = .next t :=
  ⟨mapped 0x4005FFFF 5 0, _, _, _, 2, 1, 0, _, 0, 0x5FFFF, by decide +kernel, went_eq (by decide +kernel), by decide +kernel,
    by decide, went_eq (by decide +kernel), by decide +kernel, rfl⟩
theorem witness_storeFrame_2 : ∃ (s s1 s2 t : State) (rd ra : Reg) (off : BitVec 12) (m : Mapping) (p o : Nat),
    (s.reg ra + off.signExtend 64 * 2).toNat % 2 = 0 ∧
    translate (.core s.here) (s.reg ra + off.signExtend 64 * 2) .write s = .ok m s1 ∧ placeOf m.pa = .parcel p o ∧
    o < 0x60000 ∧ reserveCheck (.core s.here) m.pa 2 (s.reg ra + off.signExtend 64 * 2) s1 = .ok () s2 ∧
    s.mem.wf = true ∧ exec (.stN16 rd ra .d off) s = .next t :=
  ⟨mapped 0x4005FFFE 5 0, _, _, _, 2, 1, 0, _, 0, 0x5FFFE, by decide +kernel, went_eq (by decide +kernel), by decide +kernel,
    by decide, went_eq (by decide +kernel), by decide +kernel, rfl⟩
theorem witness_storeFrame_4 : ∃ (s s1 s2 t : State) (rd ra : Reg) (off : BitVec 12) (m : Mapping) (p o : Nat),
    (s.reg ra + off.signExtend 64 * 4).toNat % 4 = 0 ∧
    translate (.core s.here) (s.reg ra + off.signExtend 64 * 4) .write s = .ok m s1 ∧ placeOf m.pa = .parcel p o ∧
    o < 0x60000 ∧ reserveCheck (.core s.here) m.pa 4 (s.reg ra + off.signExtend 64 * 4) s1 = .ok () s2 ∧
    s.mem.wf = true ∧ exec (.stN32 rd ra .d off) s = .next t :=
  ⟨mapped 0x4005FFFC 5 0, _, _, _, 2, 1, 0, _, 0, 0x5FFFC, by decide +kernel, went_eq (by decide +kernel), by decide +kernel,
    by decide, went_eq (by decide +kernel), by decide +kernel, rfl⟩
theorem witness_prefetch : ∃ (s : State) (ra : Reg) (m : Mapping) (s1 : State),
    translate (.core s.here) (s.reg ra) .read s = .ok m s1 ∧ placeOf m.pa = .hbm :=
  ⟨mapped 0x20000 0 0, 1, _, _, went_eq (by decide +kernel), by decide +kernel⟩
theorem witness_prefetch_absent : ∃ (s : State) (ra : Reg) (c : Stop) (s1 : State),
    translate (.core s.here) (s.reg ra) .read s = .error c s1 := ⟨regs 0 0 0, 1, _, _, stopped_eq (by decide +kernel)⟩
theorem witness_versionedLoads : ∃ (s s1 : State) (ra rb : Reg) (bs : List Byte), (s.reg ra).toNat % 8 = 0 ∧
    (do let m ← translate (.core s.here) (s.reg ra) .versionRead
        loadVersion (.core s.here) false .d m 8 ((s.reg rb).setWidth 12) false (s.reg ra) : Act (Option (List Byte))) s =
      .ok (some bs) s1 :=
  ⟨mapped 0x20000 0 0, _, 1, 2, List.replicate 8 0, by decide +kernel, went_as (by decide +kernel) (by decide +kernel)⟩
theorem witness_versionedLoads_coming : ∃ (s s1 : State) (ra rb : Reg), (s.reg ra).toNat % 8 = 0 ∧
    (do let m ← translate (.core s.here) (s.reg ra) .versionRead
        loadVersion (.core s.here) false .d m 8 ((s.reg rb).setWidth 12) false (s.reg ra) : Act (Option (List Byte))) s =
      .ok none s1 :=
  ⟨mapped 0x20000 1 0, _, 1, 2, by decide +kernel, went_as (by decide +kernel) (by decide +kernel)⟩
theorem witness_storeReleases : ∃ (s s1 s2 : State) (ra : Reg) (m : Mapping), (s.reg ra).toNat % 8 = 0 ∧
    translate (.core s.here) (s.reg ra) .write s = .ok m s1 ∧ versionCheck (.core s.here) m 8 (s.reg ra) s1 = .ok () s2 ∧
    leafTracked m.leaf = true :=
  ⟨mapped 0x20000 0 0, _, _, 1, _, by decide +kernel, went_eq (by decide +kernel), went_eq (by decide +kernel),
    by decide +kernel⟩
theorem witness_reclaim : ∃ (s : State) (rd ra : Reg), (s.reg ra).toNat % 32 = 0 ∧ s.reg rd = 0 :=
  ⟨regs 32 0 0, 2, 1, by decide +kernel⟩
theorem witness_reclaim_one : ∃ (s s1 s2 : State) (rd ra : Reg) (m : Mapping), (s.reg ra).toNat % 32 = 0 ∧ s.reg rd = 1 ∧
    translate (.core s.here) (s.reg ra) .reclaim s = .ok m s1 ∧ versionCheck (.core s.here) m 32 (s.reg ra) s1 = .ok () s2 :=
  ⟨mapped 0x20020 1 0, _, _, 2, 1, _, by decide +kernel, by decide +kernel, went_eq (by decide +kernel), went_eq (by decide +kernel)⟩
theorem witness_reclaim_many : ∃ (s s1 : State) (rd ra : Reg) (ms : List Mapping), (s.reg ra).toNat % 32 = 0 ∧
    (s.reg rd).toNat = 2 ∧ ((List.range (s.reg rd).toNat).mapM fun k => do
        let m ← translate (.core s.here) (s.reg ra + BitVec.ofNat 64 (32 * k)) .reclaim
        versionCheck (.core s.here) m 32 (s.reg ra + BitVec.ofNat 64 (32 * k))
        pure m : Act (List Mapping)) s = .ok ms s1 :=
  ⟨mapped 0x20020 2 0, _, 2, 1, _, by decide +kernel, by decide +kernel, went_eq (by decide +kernel)⟩
theorem witness_reclaim_illegal : ∃ (s : State) (rd ra : Reg), (s.reg ra).toNat % 32 = 0 ∧ 4096 < (s.reg rd).toNat :=
  ⟨regs 32 4097 0, 2, 1, by decide +kernel⟩
theorem witness_atomics : ∃ (s s1 : State) (ra : Reg) (m : Mapping), (s.reg ra).toNat % 8 = 0 ∧
    translate (.core s.here) (s.reg ra) .atomic s = .ok m s1 ∧ placeOf m.pa = .hbm :=
  ⟨mapped 0x20000 1 0, _, 1, _, by decide +kernel, went_eq (by decide +kernel), by decide +kernel⟩
theorem witness_atomics_bank : ∃ (s s1 s2 : State) (ra : Reg) (m : Mapping), (s.reg ra).toNat % 8 = 0 ∧
    translate (.core s.here) (s.reg ra) .atomic s = .ok m s1 ∧ placeOf m.pa ≠ .hbm ∧ (∀ x, placeOf m.pa ≠ .host x) ∧
    versionCheck (.core s.here) m 8 (s.reg ra) s1 = .ok () s2 :=
  ⟨mapped 0x40000000 1 0, _, _, 1, _, by decide +kernel, went_eq (by decide +kernel), by decide +kernel, by
    have h : placeOf (valueOf (translate (.core 0) 0x40000000 .atomic (mapped 0x40000000 1 0))).pa = .parcel 0 0 := by decide +kernel
    intro x hx; exact absurd (h.symm.trans hx) (by simp), went_eq (by decide +kernel)⟩
theorem witness_atomics_host : ∃ (s s1 : State) (ra : Reg) (m : Mapping) (x : Nat), (s.reg ra).toNat % 8 = 0 ∧
    translate (.core s.here) (s.reg ra) .atomic s = .ok m s1 ∧ placeOf m.pa = .host x ∧ s.host.atomicEnable = true ∧
    s1.hostFull = false :=
  ⟨{ mapped 0x80000000 0 0 with host := { State.reset.host with atomicEnable := true } }, _, 1, _, 0, by decide +kernel,
    went_eq (by decide +kernel), by decide +kernel, by decide +kernel, by decide +kernel⟩
theorem witness_atomics_misaligned : ∃ (s : State) (ra : Reg), (s.reg ra).toNat % amoBytes .n128 ≠ 0 :=
  ⟨regs 8 0 0, 1, by decide +kernel⟩
theorem witness_controlRegisters : ∃ (s : State) (ra : Reg) (num : BitVec 16),
    (num = 1 ∨ num = 2 ∨ num = 3 ∨ num = 5 ∨ num = 7 ∨ num = 8) ∧ ra ≠ 0 ∧ csrValueOk num.toNat (s.reg ra) = true ∧
    csrValueOk num.toNat ((s.csrRead s.here num.toNat).getD 0 ||| s.reg ra) = true ∧
    csrValueOk num.toNat ((s.csrRead s.here num.toNat).getD 0 &&& ~~~(s.reg ra)) = true :=
  ⟨regs 3 0 0, 1, 8, by decide +kernel⟩
theorem witness_controlRegisters_read : ∃ (s : State) (num : BitVec 16) (v : Word), s.csrRead s.here num.toNat = some v :=
  ⟨regs 3 0 0, 4, 0, by decide +kernel⟩
theorem witness_controlRegisters_outside : ∃ num : BitVec 16, 8 < num.toNat := ⟨9, by decide⟩
theorem witness_controlRegisters_reserved : ∃ (s : State) (ra : Reg) (num : BitVec 16), num = 8 ∧ ra ≠ 0 ∧
    csrValueOk num.toNat (s.reg ra) = false ∧ csrValueOk num.toNat ((s.csrRead s.here num.toNat).getD 0 ||| s.reg ra) = false :=
  ⟨regs 0xFFFFFFFFFFFFFFFF 0 0, 1, 8, by decide +kernel⟩
theorem witness_controlRegisters_reservedClear : ∃ (s : State) (ra : Reg) (num : BitVec 16), num = 8 ∧ ra ≠ 0 ∧
    csrValueOk num.toNat ((s.csrRead s.here num.toNat).getD 0 &&& ~~~(s.reg ra)) = false :=
  ⟨(regs 1 0 0).onCore 0 fun c => { c with flags := 0xFFFFFFFFFFFFFFFF }, 1, 8, by decide +kernel⟩
theorem witness_controlRegisters_readOnly : ∃ num : BitVec 16, num = 0 ∨ num = 4 ∨ num = 6 := ⟨6, by decide⟩
theorem witness_post : ∃ (s : State) (rd : Reg) (o : Nat) (r : Region), s.regionOf s.here = some (o, r) ∧
    wbits (s.reg rd) 63 17 = 0 ∧ wbits (s.reg rd) 15 7 < 2 ^ r.shape ∧ (s.core s.here).outbound.length < 16 :=
  ⟨regs 0x1007F 0 0, 1, 0, placedRegion, by decide +kernel⟩
theorem witness_bindl : ∃ (s : State) (rd ra : Reg), (s.reg rd).toNat < 128 ∧ (s.reg ra).toNat % 4 = 0 :=
  ⟨regs 127 8 0, 1, 2, by decide +kernel⟩
theorem witness_arming : ∃ (s : State) (ra rb : Reg), s.reg rb &&& 0xFFFFFFFFFFFF0080 = 0 ∧
    s.reg ra &&& 0xFFFFFFFFFFFF8080 = 0 ∧ s.reg ra &&& 0xFFFFFFFFFFFFC080 = 0 :=
  ⟨regs 0x3F7F 0xFF7F 0, 1, 2, by decide +kernel⟩
theorem witness_chp : ∃ (s : State) (ra rb : Reg), (s.reg ra).toNat ≤ 31 ∧ (s.reg rb).toNat ≤ 3 :=
  ⟨regs 31 3 0, 1, 2, by decide +kernel⟩
theorem witness_ecall_log : ∃ (s : State) (ra : Reg) (o : Nat) (r : Region), s.regionOf s.here = some (o, r) ∧ s.reg ra = 2 :=
  ⟨regs 2 0 0, 1, 0, placedRegion, by decide +kernel⟩
theorem witness_ecall_exit : ∃ (s : State) (ra : Reg) (o : Nat) (r : Region), s.regionOf s.here = some (o, r) ∧
    s.reg ra = 0 ∧ r.exitAsked = false := ⟨regs 0 0 0, 1, 0, placedRegion, by decide +kernel⟩
theorem witness_ecall_abort : ∃ (s : State) (ra : Reg) (o : Nat) (r : Region), s.regionOf s.here = some (o, r) ∧
    s.reg ra = 1 ∧ r.exitAsked = false := ⟨regs 1 0 0, 1, 0, placedRegion, by decide +kernel⟩
theorem witness_ecall_again : ∃ (s : State) (ra : Reg) (o : Nat) (r : Region), s.regionOf s.here = some (o, r) ∧
    (s.reg ra).toNat ≤ 1 ∧ r.exitAsked = true :=
  ⟨{ regs 1 0 0 with regions := [(0, { placedRegion with exitAsked := true })] }, 1, 0,
    { placedRegion with exitAsked := true }, by decide +kernel⟩
theorem witness_ecall_illegal : ∃ (s : State) (ra : Reg) (o : Nat) (r : Region), s.regionOf s.here = some (o, r) ∧
    2 < (s.reg ra).toNat := ⟨regs 3 0 0, 1, 0, placedRegion, by decide +kernel⟩

/-- A legend entry with a format, a block field, a scale entry, `n` elements in dimension 0 and an address. -/
def entryOf (fmt block scale n addr : Nat) : Legend :=
  BitVec.ofNat 256 (fmt * 2 ^ 251 + block * 2 ^ 235 + scale * 2 ^ 224 + (n - 1) * 2 ^ 64 + addr)
/-- A state whose kernel has a legend table. -/
def legended (l : List Legend) (s : State) : State :=
  { s with regions := [(0, { placedRegion with legend := l.zipIdx.map fun x => (x.2, x.1), legendCount := l.length })] }
theorem witness_station_init : ∃ (s : State) (ra rb : Reg), wbits (s.reg ra) 7 6 = 0 ∧ wbits (s.reg ra) 15 14 = 0 ∧
    wbits (s.reg ra) 63 32 = 0 ∧ wbits (s.reg rb) 63 36 = 0 ∧ wbits (s.reg ra) 11 8 ≤ 6 ∧ wbit (s.reg ra) 13 = false :=
  ⟨regs 0xFFFF163F 0xFFFFFFFFF 0, 1, 2, by decide +kernel⟩
theorem witness_station_arrive : ∃ (s : State) (ra : Reg) (o : Nat) (r : Region), s.regionOf s.here = some (o, r) ∧
    wbits (s.reg ra) 63 6 = 0 := ⟨regs 63 0 0, 1, 0, placedRegion, by decide +kernel⟩
theorem witness_station_arriveThere : ∃ (s : State) (ra : Reg) (o : Nat) (r : Region), s.regionOf s.here = some (o, r) ∧
    wbits (s.reg ra) 63 16 = 0 ∧ wbit (s.reg ra) 6 = true ∧ wbits (s.reg ra) 15 7 < 2 ^ r.shape ∧
    stnExchange (s.station (o + wbits (s.reg ra) 15 7) (wbits (s.reg ra) 5 0)) = false :=
  ⟨{ regs 0x1FF 0 0 with regions := [(0, { placedRegion with shape := 2 })] }, 1, 0, { placedRegion with shape := 2 }, by decide +kernel⟩
theorem witness_station_arriveExchange : ∃ (s : State) (ra : Reg) (o : Nat) (r : Region), s.regionOf s.here = some (o, r) ∧
    wbits (s.reg ra) 63 16 = 0 ∧ wbit (s.reg ra) 6 = true ∧ wbits (s.reg ra) 15 7 < 2 ^ r.shape ∧
    stnExchange (s.station (o + wbits (s.reg ra) 15 7) (wbits (s.reg ra) 5 0)) = true :=
  ⟨({ regs 0x1FF 0 0 with regions := [(0, { placedRegion with shape := 2 })] }).setStation 3 63 (setF 0 57 57 1), 1, 0,
    { placedRegion with shape := 2 }, by decide +kernel⟩
theorem witness_station_expect : ∃ (s : State) (ra rb : Reg), let x := s.station s.here (wbits (s.reg ra) 5 0)
    wbits (s.reg ra) 63 6 = 0 ∧ wbits (s.reg rb) 63 36 = 0 ∧ stnPending x + (s.reg rb).toNat < 2 ^ 36 ∧
    stnComplete x = false ∧ stnFault x = false :=
  ⟨(regs 3 5 0).setStation 0 3 (setF 0 95 60 0xFFFFFFFFA), 1, 2, by decide +kernel⟩
theorem witness_station_expect_state : ∃ (s : State) (ra rb : Reg), let x := s.station s.here (wbits (s.reg ra) 5 0)
    wbits (s.reg ra) 63 6 = 0 ∧ wbits (s.reg rb) 63 36 = 0 ∧ 2 ^ 36 ≤ stnPending x + (s.reg rb).toNat :=
  ⟨(regs 3 6 0).setStation 0 3 (setF 0 95 60 0xFFFFFFFFA), 1, 2, by decide +kernel⟩
theorem witness_station_done : ∃ (s : State) (ra : Reg), wbits (s.reg ra) 63 6 = 0 ∧
    stnComplete (s.station s.here (wbits (s.reg ra) 5 0)) = false :=
  ⟨(regs 3 0 0).setStation 0 3 (setF 0 95 60 1), 1, by decide +kernel⟩
theorem witness_station_complete : ∃ (s : State) (ra : Reg), wbits (s.reg ra) 63 6 = 0 ∧
    stnComplete (s.station s.here (wbits (s.reg ra) 5 0)) = true :=
  ⟨(regs 3 0 0).setStation 0 3 (setF 0 52 52 1), 1, by decide +kernel⟩
theorem witness_buffer_set : ∃ (s : State) (ra rb : Reg), let b := s.reg rb
    (s.reg ra).toNat < 128 ∧ wbits b 63 39 = 0 ∧ wbit b 19 = false ∧ bufState (s.buffer s.here 127) = 0 ∧
    wbits b 18 0 % 64 = 0 ∧ wbits b 38 20 % 64 = 0 ∧ wbits b 38 20 ≠ 0 ∧ wbits b 18 0 + wbits b 38 20 ≤ 0x60000 :=
  ⟨regs 127 0x405FFC0 0, 1, 2, by decide +kernel⟩
theorem witness_buffer_full : ∃ (s : State) (ra rb : Reg), (s.reg ra).toNat < 128 ∧ wbits (s.reg rb) 63 39 = 0 ∧
    wbit (s.reg rb) 19 = false ∧ 2 ≤ bufState (s.buffer s.here (s.reg ra).toNat) :=
  ⟨(regs 5 0x405FFC0 0).setBuffer 0 5 (setF 0 63 62 2), 1, 2, by decide +kernel⟩
theorem witness_buffer_free : ∃ (s : State) (ra : Reg), (s.reg ra).toNat < 128 ∧
    2 ≤ bufState (s.buffer s.here (s.reg ra).toNat) ∧ s.readsWait s.here (s.reg ra).toNat = false :=
  ⟨(regs 127 0 0).setBuffer 0 127 (setF 0 63 62 3), 1, by decide +kernel⟩
theorem witness_buffer_free_waits : ∃ (s : State) (ra : Reg), (s.reg ra).toNat < 128 ∧
    2 ≤ bufState (s.buffer s.here (s.reg ra).toNat) ∧ s.readsWait s.here (s.reg ra).toNat = true :=
  ⟨((regs 127 0 0).setBuffer 0 127 (setF 0 63 62 2)).onCell 0 0 fun c =>
    { c with port := [⟨.buffer 127 0 none 3 false, 0, .p, .drop, 0, 0, none, 0⟩] }, 1, by decide +kernel⟩
theorem witness_buffer_filling : ∃ (s : State) (ra : Reg), (s.reg ra).toNat < 128 ∧
    bufState (s.buffer s.here (s.reg ra).toNat) < 2 ∧ bufState (s.buffer s.here (s.reg ra).toNat) ≠ 0 :=
  ⟨(regs 5 0 0).setBuffer 0 5 (setF 0 63 62 1), 1, by decide +kernel⟩

/-- The state of the Traverse witnesses: one tensor of 32-bit numbers, and a buffer entry of 64 bytes. -/
def traversing (c : Word) : State := (legended [entryOf 2 0 0 1 0x30000] (mapped c 0x20000 0)).setBuffer 0 0 (setF 0 38 20 64)
/-- A request of a kind as the core of a state issues it. -/
def slotFor (kind : TravKind) (ra : Reg) (s : State) (d : List Byte) : TravSlot :=
  ⟨kind, s.reg ra, d, (s.parcel s.here).serial, (s.core s.here).flags.getLsbD 0, 0, 0, s.newPromise, false, false, none, [],
    false, []⟩
/-- What the statement of Traverse requests asks of a state, a control word and a descriptor. -/
def TraverseMeets (kind : TravKind) (s : State) (ra rb : Reg) : Prop :=
  let p := s.here
  let c := s.reg ra
  let va := s.reg rb
  let sc := scopeOfCode (wbits c 24 21)
  (wbits c 63 30 = 0 ∧ wbits c 11 9 = 0 ∧ (kind = .feed ∨ wbits c 29 26 = 0) ∧ wbits c 24 21 ≤ 6 ∧
    (wbit c 20 = true → wbit c 19 = true) ∧ (wbit c 8 = true → wbit c 7 = true) ∧
    (wbit c 8 = false → wbit c 7 = true → wbits c 6 0 = 0) ∧ ¬(kind = .fill ∧ wbit c 8 = true) ∧
    ¬(kind = .red ∧ wbit c 7 = false) ∧ ¬(kind = .feed ∧ wbit c 7 = true) ∧ va.toNat % 32 = 0) ∧
  ∃ d s1 slot, readVa (.engine p) sc va 32 (s.release (.core p) sc) = .ok d s1 ∧
    (s1.describes p (slotFor kind ra s d) = true ∧ s1.namesEntries p (slotFor kind ra s d) = true ∧
      (wbit c 25 = true → (s.parcel p).staged.isSome = true) ∧ s.freeTrav p = some slot)
theorem witness_traverse_copy : ∃ s ra rb, TraverseMeets .copy s ra rb :=
  ⟨traversing 0, 1, 2, by decide +kernel, _, _, 0, went_eq (by decide +kernel), by decide +kernel⟩
theorem witness_traverse_gath : ∃ s ra rb, TraverseMeets .gath s ra rb :=
  ⟨traversing 0, 1, 2, by decide +kernel, _, _, 0, went_eq (by decide +kernel), by decide +kernel⟩
theorem witness_traverse_scat : ∃ s ra rb, TraverseMeets .scat s ra rb :=
  ⟨traversing 0x80, 1, 2, by decide +kernel, _, _, 0, went_eq (by decide +kernel), by decide +kernel⟩
theorem witness_traverse_red : ∃ s ra rb, TraverseMeets .red s ra rb :=
  ⟨traversing 0x80, 1, 2, by decide +kernel, _, _, 0, went_eq (by decide +kernel), by decide +kernel⟩
theorem witness_traverse_fill : ∃ s ra rb, TraverseMeets .fill s ra rb :=
  ⟨traversing 0, 1, 2, by decide +kernel, _, _, 0, went_eq (by decide +kernel), by decide +kernel⟩
theorem witness_traverse_feed : ∃ s ra rb, TraverseMeets .feed s ra rb :=
  ⟨traversing 0, 1, 2, by decide +kernel, _, _, 0, went_eq (by decide +kernel), by decide +kernel⟩
theorem witness_traverse_staged : ∃ s ra rb, TraverseMeets .copy s ra rb ∧ wbit (s.reg ra) 25 = true :=
  ⟨(traversing 0x2000000).onParcel 0 fun x => { x with staged := some ⟨0xF9000000, 0, 0⟩ }, 1, 2,
    ⟨by decide +kernel, _, _, 0, went_eq (by decide +kernel), by decide +kernel⟩, by decide +kernel⟩
theorem witness_traverse_follow : ∃ (s : State) (ra : Reg), let a := s.reg ra
    wbits a 63 32 = 0 ∧ wbits a 31 26 = 0x3E ∧ wbits a 25 22 = 4 ∧ wbits a 21 17 = 0 :=
  ⟨regs 0xF901FFFF 0 0, 1, by decide +kernel⟩
theorem witness_traverse_publish : ∃ (s : State) (ra : Reg), wbits (s.reg ra) 63 7 = 0 := ⟨regs 127 0 0, 1, by decide +kernel⟩
theorem witness_traverse_publishTensor : ∃ (s : State) (ra : Reg), wbits (s.reg ra) 63 18 = 0 ∧ wbit (s.reg ra) 7 = true ∧
    wbits (s.reg ra) 6 0 = 0 ∧ s.hasLegend s.here (wbits (s.reg ra) 17 8) = true := ⟨traversing 0x80, 1, by decide +kernel⟩
theorem witness_traverse_xst : ∃ (s : State) (ra rb : Reg) (o : Nat) (r : Region) (slot : Nat), let a := s.reg ra
    let b := s.reg rb
    s.regionOf s.here = some (o, r) ∧ wbits a 63 32 = 0 ∧ wbit a 9 = false ∧ wbits a 8 0 < 2 ^ r.shape ∧
    b.toNat % 32 = 0 ∧ wbits a 20 10 + (wbits a 31 21 + 1) ≤ 2048 ∧ b.toNat + 32 * (wbits a 31 21 + 1) ≤ 0x60000 ∧
    s.freeTrav s.here = some slot :=
  ⟨regs 0x1FFC00 0x5FFE0 0, 1, 2, 0, placedRegion, 0, by decide +kernel⟩
theorem witness_traverse_slot : ∃ (s : State) (ra : Reg) (u : TravSlot), (s.reg ra).toNat < 64 ∧
    s.trav s.here (s.reg ra).toNat = some u ∧ u.done = false :=
  ⟨(regs 63 0 0).setTrav 0 63 (slotFor .copy 1 (regs 0 0 0) []), 1, _, by decide +kernel,
    Option.eq_some_of_isSome (by decide +kernel), by decide +kernel⟩
theorem witness_traverse_over : ∃ (s : State) (ra : Reg) (u : TravSlot), (s.reg ra).toNat < 64 ∧
    s.trav s.here (s.reg ra).toNat = some u ∧ u.done = true :=
  ⟨(regs 0 0 0).setTrav 0 0 { slotFor .copy 1 (regs 0 0 0) [] with done := true }, 1, _, by decide +kernel,
    Option.eq_some_of_isSome (by decide +kernel), by decide +kernel⟩
theorem witness_traverse_taken : ∃ (s : State) (ra : Reg) (u : TravSlot), (s.reg ra).toNat < 64 ∧
    s.trav s.here (s.reg ra).toNat = some u ∧ s.takenTrav s.here (s.reg ra).toNat = true :=
  ⟨(regs 63 0 0).setTrav 0 63 (slotFor .copy 1 (regs 0 0 0) []), 1, _, by decide +kernel,
    Option.eq_some_of_isSome (by decide +kernel), by decide +kernel⟩
theorem witness_traverse_noSlot : ∃ (s : State) (ra : Reg), (s.reg ra).toNat < 64 ∧ s.trav s.here (s.reg ra).toNat = none ∧
    s.takenTrav s.here (s.reg ra).toNat = false :=
  ⟨regs 63 0 0, 1, by decide +kernel⟩
theorem witness_traverse_engine : ∃ (s : State) (ra rb : Reg), s.reg ra = 0x100 ∧ s.reg rb = 0x300 :=
  ⟨regs 0x100 0x300 0, 1, 2, by decide +kernel⟩

/-- The state of the stream witnesses: one tensor of 32-bit numbers. -/
def streaming (c : Word) : State := legended [entryOf 10 0 0 1 0x30000] (mapped c 0x20000 0)
theorem witness_stream : ∃ (s : State) (ra rb : Reg) (outbound : Bool) (e : Legend) (d : List Byte) (s2 : State),
    let p := s.here
    let c := s.reg ra
    let sc := scopeOfCode (wbits c 15 12)
    wbits c 63 31 = 0 ∧ wbit c 23 = false ∧ (outbound = true → wbits c 22 20 = 0) ∧ wbits c 15 12 ≤ 6 ∧
    ((s.regionOf p).bind fun x => x.2.entry (wbits c 9 0)) = some e ∧ (s.reg rb).toNat % 16 = 0 ∧
    (s.stream p (wbits c 19 16)).busy = false ∧
    (s.portHolder p (wbits c 11 10) outbound = .free ∨ (s.portHolder p (wbits c 11 10) outbound).isStream = true ∨
      (s.portHolder p (wbits c 11 10) outbound).isGraticule = true) ∧
    readVa (.engine p) sc (s.reg rb) 16 (s.release (.core p) sc) = .ok d s2 ∧
    patternOk e (wordOf (d.take 8)) (wordOf (d.drop 8)) = true :=
  ⟨streaming 0xF0C00, 1, 2, true, entryOf 10 0 0 1 0x30000, _, _, by decide +kernel, by decide +kernel, by decide +kernel, by decide +kernel,
    by decide +kernel, by decide +kernel, by decide +kernel, by decide +kernel, went_eq (by decide +kernel), by decide +kernel⟩
theorem witness_stream_others : ∃ (s : State) (ra : Reg), (s.reg ra).toNat < 16 := ⟨regs 15 0 0, 1, by decide +kernel⟩

theorem witness_end_make : ∃ (s : State) (ra : Reg), wbits (s.reg ra) 63 7 = 0 ∧ wbits (s.reg ra) 2 0 ≤ 5 ∧
    ((s.parcel s.here).ends.filter fun e => e.1 < 2 ^ 20).length < 32 := ⟨regs 0x7D 0 0, 1, by decide +kernel⟩
/-- The state after `END.MAKE`, with the producer's handle in register 1. -/
def made : State := (next? (exec (.endMake 1 2) (regs 0 0 0))).getD State.reset
/-- The record of the stream that it made. -/
def madeEnd : EndStream := (made.endRecord 0 0).getD default
/-- A place of this device stands at a parcel of a region. -/
def nearBy (s : State) (o : Nat) (r : Region) (l : EndLoc) : Bool := l.device ≠ s.link.number || l.parcel ∈ regionParcels o r
theorem witness_end_bind : ∃ (s : State) (ra rb : Reg) (e : EndStream) (o : Nat) (r : Region), let h := s.reg ra
    let b := s.reg rb
    let k := handleConsumer h
    handleDevice h = s.link.number ∧ s.regionOf s.here = some (o, r) ∧ handleHome h ∈ regionParcels o r ∧ wbits b 63 5 = 0 ∧
    s.sideFree s.here (wbits b 1 0) k = true ∧
    (s.endRecord (handleHome h) (handleNumber h) = some e ∧ (e.end_ k).closed = false ∧ handleSerial h = (e.end_ k).serial) ∧
    e.orphaned = false ∧ (∀ l ∈ e.places, nearBy s o r l = true) :=
  ⟨made, 1, 2, madeEnd, 0, placedRegion, by decide +kernel⟩
/-- The state of a second device of a torus of two, with the handle of a stream of the first in register 1. -/
def abroad : State :=
  { regs 0 0 0 with link := { MoLink.reset with shape := (2, 1, 1), number := 1, ports := [(0, { LinkPort.reset with working := true })] } }
theorem witness_end_away : ∃ (s : State) (ra rb : Reg), handleDevice (s.reg ra) ≠ s.link.number ∧
    (s.link.route (handleDevice (s.reg ra))).isSome = true ∧ s.hostFull = false ∧ wbits (s.reg rb) 63 5 = 0 ∧
    s.sideFree s.here (wbits (s.reg rb) 1 0) (handleConsumer (s.reg ra)) = true := ⟨abroad, 1, 2, by decide +kernel⟩
/-- What the statement asks of a state for `END.CLOSE`. -/
abbrev Closes (s : State) (ra : Reg) (e : EndStream) (o : Nat) (r : Region) : Prop :=
  let h := s.reg ra
  let k := handleConsumer h
  (handleDevice h = s.link.number ∧ s.regionOf s.here = some (o, r) ∧ handleHome h ∈ regionParcels o r) ∧
  (s.endRecord (handleHome h) (handleNumber h) = some e ∧ (e.end_ k).closed = false ∧ handleSerial h = (e.end_ k).serial) ∧
  ((e.end_ k).loc.all fun l => l.device = s.link.number && l.parcel = s.here) = true
theorem witness_end_close : ∃ (s : State) (ra : Reg) (e : EndStream) (o : Nat) (r : Region), Closes s ra e o r ∧
    e.orphaned = false ∧ handleConsumer (s.reg ra) = false := ⟨made, 1, madeEnd, 0, placedRegion, by decide +kernel⟩
theorem witness_end_close_consumer : ∃ (s : State) (ra : Reg) (e : EndStream) (o : Nat) (r : Region), Closes s ra e o r ∧
    e.orphaned = false ∧ handleConsumer (s.reg ra) = true :=
  ⟨made.onCore 0 fun c => c.put 1 0x8000000, 1, madeEnd, 0, placedRegion, by decide +kernel⟩
theorem witness_end_close_survivor : ∃ (s : State) (ra : Reg) (e : EndStream) (o : Nat) (r : Region), Closes s ra e o r ∧
    e.orphaned = true :=
  ⟨made.setEndRecord 0 0 { madeEnd with orphaned := true }, 1, { madeEnd with orphaned := true }, 0, placedRegion, by decide +kernel⟩
theorem witness_end_status : ∃ (s : State) (ra : Reg) (e : EndStream) (o : Nat) (r : Region),
    handleDevice (s.reg ra) = s.link.number ∧ s.regionOf s.here = some (o, r) ∧ handleHome (s.reg ra) ∈ regionParcels o r ∧
    s.endRecord (handleHome (s.reg ra)) (handleNumber (s.reg ra)) = some e :=
  ⟨made, 1, madeEnd, 0, placedRegion, by decide +kernel⟩

/-- The state of the Trellis witnesses: a trellis tensor of 8 weights, its scales in another page, and a window. -/
def woven (a b : Word) : State :=
  (legended [entryOf 18 5 1 8 0x30000, entryOf 9 0 0 8 0x40000000] (mapped a b 0)).setWindow 0 7 (windowWord 0 0 0 7 5)
/-- That state with all but the last `n` bytes of the window gathered. -/
def gathering (n : Nat) (a b : Word) : State := (woven a b).onCore 0 fun c =>
  let l := weightBytes (entryOf 18 5 1 8 0x30000) 7
  { c with gathered := (l.take (l.length - n)).map fun i => (i, 1) }
theorem witness_trellis_gather : ∃ (s : State) (ra rb : Reg) (e : Legend) (i k : Nat) (rest : List Nat) (bs : List Byte) (s1 : State),
    let a := s.reg ra
    let b := s.reg rb
    (wbits a 7 3 = 0 ∧ wbits a 19 18 = 0 ∧ wbits a 63 23 = 0 ∧ wbits b 31 22 = 0 ∧ wbits b 63 48 = 0 ∧
      wbits a 22 20 ≤ 6 ∧ ((s.regionOf s.here).bind fun x => x.2.entry (wbits a 17 8)) = some e ∧ lgIsTcw e = true ∧
      wbits b 21 0 < lgRows e ∧ wbits b 47 32 < lgDim e 0 ∧
      (weightBytes e (wbits b 47 32)).drop (s.core s.here).gathered.length = i :: k :: rest) ∧
    readRow (.core s.here) s.here (scopeOfCode (wbits a 22 20)) e (lgRow e (wbits b 21 0)) (8 * i) 1 s = .ok bs s1 :=
  ⟨gathering 2 7 0x700000000, 1, 2, entryOf 18 5 1 8 0x30000, 1, 0, [], _, _, ⟨by decide +kernel, by decide +kernel,
    by decide +kernel, by decide +kernel, by decide +kernel, by decide +kernel, by decide +kernel, by decide +kernel,
    by decide +kernel, by decide +kernel, by decide +kernel⟩, went_eq (by decide +kernel)⟩
theorem witness_trellis_seek : ∃ (s : State) (ra rb : Reg) (e : Legend) (w : Nat) (s1 : State),
    let a := s.reg ra
    let b := s.reg rb
    wbits a 7 3 = 0 ∧ wbits a 19 18 = 0 ∧ wbits a 63 23 = 0 ∧ wbits b 31 22 = 0 ∧ wbits b 63 48 = 0 ∧
    wbits a 22 20 ≤ 6 ∧ ((s.regionOf s.here).bind fun x => x.2.entry (wbits a 17 8)) = some e ∧ lgIsTcw e = true ∧ wbits b 21 0 < lgRows e ∧
    wbits b 47 32 < lgDim e 0 ∧
    readWindow (.core s.here) s.here (scopeOfCode (wbits a 22 20)) e (lgRow e (wbits b 21 0)) (wbits b 47 32) false s = .ok w s1 :=
  ⟨gathering 1 7 0x700000000, 1, 2, entryOf 18 5 1 8 0x30000, _, _, by decide +kernel, by decide +kernel, by decide +kernel,
    by decide +kernel, by decide +kernel, by decide +kernel, by decide +kernel, by decide +kernel, by decide +kernel, by decide +kernel,
    went_eq (by decide +kernel)⟩
theorem witness_trellis_read : ∃ (s : State) (ra : Reg) (e : Legend) (w rs : Nat) (s1 s2 : State),
    let a := s.reg ra
    let v := s.window s.here (wbits a 2 0)
    a.toNat < 16 ∧ wbit v 63 = true ∧ ((s.regionOf s.here).bind fun x => x.2.entry (wbits v 62 53)) = some e ∧
    readWindow (.core s.here) s.here (scopeOfCode (wbits v 30 28)) e (lgRow e (wbits v 52 31)) (wbits v 27 12) true s = .ok w s1 ∧
    readRowScale (.core s.here) s.here (scopeOfCode (wbits v 30 28)) e (lgRow e (wbits v 52 31)) s1 = .ok rs s2 :=
  ⟨gathering 0 7 0, 1, entryOf 18 5 1 8 0x30000, _, _, _, _, by decide +kernel, by decide +kernel, by decide +kernel, went_eq (by decide +kernel),
    went_eq (by decide +kernel)⟩
theorem witness_trellis_readGather : ∃ (s : State) (ra : Reg) (e : Legend) (i : Nat) (rest : List Nat) (bs : List Byte) (s1 : State),
    let a := s.reg ra
    let v := s.window s.here (wbits a 2 0)
    (a.toNat < 16 ∧ wbit v 63 = true ∧ ((s.regionOf s.here).bind fun x => x.2.entry (wbits v 62 53)) = some e ∧
      (weightBytes e (wbits v 27 12)).drop (s.core s.here).gathered.length = i :: rest) ∧
    readRow (.core s.here) s.here (scopeOfCode (wbits v 30 28)) e (lgRow e (wbits v 52 31)) (8 * i) 1 s = .ok bs s1 :=
  ⟨gathering 1 7 0, 1, entryOf 18 5 1 8 0x30000, 0, [], _, _, ⟨by decide +kernel, by decide +kernel, by decide +kernel, by decide +kernel⟩,
    went_eq (by decide +kernel)⟩
/-- The state of the encoder's witness: a tensor, a trellis tensor of its shape, and a descriptor that names them. -/
def encoding : State :=
  { legended [entryOf 9 0 0 4 0x30000, entryOf 18 4 0 4 0x40000] (mapped 0 0x20000 0) with mem := tables ++ [(0x20002, 1)] }
theorem witness_trellis_encode : ∃ (s : State) (ra rb : Reg) (d : List Byte) (s1 : State) (te oe : Legend),
    let a := s.reg ra
    let b := s.reg rb
    let r : EncRequest := ⟨1, 0, a, d, [], (s.core s.here).flags.getLsbD 0⟩
    (wbits a 63 32 = 0 ∧ wbits a 18 0 = 0 ∧ (wbit a 20 = true → wbit a 19 = true) ∧ wbits a 24 21 ≤ 6 ∧ b.toNat % 32 = 0) ∧
    readVa (.engine s.here) (scopeOfCode (wbits a 24 21)) b 32 (s.release (.core s.here) (scopeOfCode (wbits a 24 21))) = .ok d s1 ∧
    (field d 4 4 < 2 ^ 22 ∧ field d 8 4 < 2 ^ 22 ∧ field d 12 1 ≤ 1 ∧ field d 13 19 = 0) ∧
    ((s1.regionOf s.here).bind fun x => x.2.entry r.targetIndex) = some te ∧
    ((s1.regionOf s.here).bind fun x => x.2.entry r.outIndex) = some oe ∧
    (lgFormat te = 9 ∧ lgIsTcw oe = true ∧ (∀ k < 4, lgDim te k = lgDim oe k) ∧ lgDim oe 0 ≤ 4096 ∧
      r.first + r.rows ≤ lgRows oe ∧ (s.parcel s.here).enc.state = 0 ∧
      (r.shadow = true → s.overlayTaken s.here false r.outIndex = false ∧
        (r.autoScale = true → s.overlayTaken s.here false (lgScaleEntry oe) = false))) :=
  ⟨encoding, 1, 2, _, _, entryOf 9 0 0 4 0x30000, entryOf 18 4 0 4 0x40000, by decide +kernel, went_eq (by decide +kernel),
    by decide +kernel, by decide +kernel, by decide +kernel,
    by decide +kernel⟩
theorem witness_trellis_status : ∃ (s : State) (ra : Reg), (s.reg ra).toNat < 8 := ⟨regs 7 0 0, 1, by decide +kernel⟩
theorem witness_trellis_encoderStatus : ∃ (s : State) (ra : Reg), s.reg ra = 8 := ⟨regs 8 0 0, 1, by decide +kernel⟩

/-- The state of the Graticule witnesses: one `f32` tensor of one element. -/
def tiled (a b : Word) : State := legended [entryOf 10 0 0 1 0x30000] (mapped a b 0)
/-- What the statement of Graticule instructions asks of a queued command. -/
def QueuedMeets (fn : Nat) (allows : State → GrCommand → Bool) (s : State) (ra rb : Reg) : Prop :=
  let p := s.here
  let a := s.reg ra
  let b := s.reg rb
  let sc := scopeOfCode (wbits a 24 21)
  (wbits a 63 32 = 0 ∧ a.toNat &&& grMask fn = a.toNat ∧ (wbit a 20 = true → wbit a 19 = true) ∧ wbits a 24 21 ≤ 6 ∧
    b.toNat % 32 = 0) ∧
  ∃ d s1, readVa (.graticule p) sc b 32 (s.release (.core p) sc) = .ok d s1 ∧
    (let c : GrCommand := ⟨(s1.parcel p).serial, fn, a, d, b, (s.core p).flags.getLsbD 0⟩
     allows s1 c = true ∧ ((s1.parcel p).gr.saving = none ∧ (s1.parcel p).gr.saved = false ∧
     (s1.parcel p).gr.queue.length < 8) ∧ (c.shadow = true → s1.overlayTaken p false c.target = false))
theorem witness_graticule_ldw : ∃ s ra rb, QueuedMeets 0 (fun s1 c => s1.allowsLoad 0 c) s ra rb :=
  ⟨tiled 0xC000 0x20000, 1, 2, by decide +kernel, _, _, went_eq (by decide +kernel), by decide +kernel⟩
theorem witness_graticule_mm : ∃ s ra rb, QueuedMeets 1 (fun s1 c => s1.allowsMultiply 0 c) s ra rb :=
  ⟨tiled 0x30000 0x20000, 1, 2, by decide +kernel, _, _, went_eq (by decide +kernel), by decide +kernel⟩
theorem witness_graticule_mm_shadow : ∃ s ra rb, QueuedMeets 1 (fun s1 c => s1.allowsMultiply 0 c) s ra rb ∧ wbit (s.reg ra) 19 = true :=
  ⟨tiled 0x1C0000 0x20000, 1, 2, ⟨by decide +kernel, _, _, went_eq (by decide +kernel), by decide +kernel⟩, by decide +kernel⟩
theorem witness_graticule_scan : ∃ s ra rb, QueuedMeets 2 (fun s1 c => s1.allowsScan 0 c) s ra rb :=
  ⟨tiled 0x10000 0x20000, 1, 2, by decide +kernel, _, _, went_eq (by decide +kernel), by decide +kernel⟩
theorem witness_graticule_drn : ∃ s ra rb, QueuedMeets 3 (fun s1 c => s1.allowsDrain 0 c) s ra rb :=
  ⟨tiled 0x10000 0x20000, 1, 2, by decide +kernel, _, _, went_eq (by decide +kernel), by decide +kernel⟩
theorem witness_graticule_zero : ∃ (s : State) (ra : Reg), let a := s.reg ra
    wbits a 63 32 = 0 ∧ a.toNat &&& grMask 4 = a.toNat ∧ wbit a 20 = false ∧ wbit a 19 = false ∧
    (s.parcel s.here).gr.saving = none ∧ (s.parcel s.here).gr.saved = false ∧ (s.parcel s.here).gr.queue.length < 8 ∧
    GrCommand.shadow ⟨(s.parcel s.here).serial, 4, a, [], s.reg 0, false⟩ = false :=
  ⟨regs 0x10000 0 0, 1, by decide +kernel⟩
theorem witness_graticule_save : ∃ (s : State) (ra rb : Reg), let a := s.reg ra
    let released := s.release (.core s.here) (scopeOfCode (wbits a 24 21))
    wbits a 63 32 = 0 ∧ a.toNat &&& grMask 5 = a.toNat ∧ wbit a 20 = false ∧ wbit a 19 = false ∧ wbits a 24 21 ≤ 6 ∧
    (s.reg rb).toNat % 4096 = 0 ∧ (released.parcel s.here).gr.saving = none ∧ (released.parcel s.here).gr.saved = false ∧
    GrCommand.shadow ⟨(released.parcel s.here).serial, 5, a, [], s.reg rb, false⟩ = false :=
  ⟨regs 0xC00000 0x3000 0, 1, 2, by decide +kernel⟩
/-- A segment of this kernel, attached once, of `size` bytes in each of `2 ^ j` parcels. -/
def segmentOf (j size : Nat) : Segment :=
  { (default : Segment) with name := 5, place := ⟨false, 0, j, 0, 0, size⟩, state := .attached, count := 1, holder := some 0 }
/-- A state with that segment at index 0, in a region of shape 2. -/
def viewed (g : Segment) (s : State) : State :=
  { s with segments := [(0, g)], regions := [(0, { placedRegion with shape := 2, ways := (64, 0, 0) })] }
/-- The state of the restore's witnesses: what stands at the image, and a saved or an idle engine. -/
def restoring (bytes : Memory) (saved : Bool) : State :=
  ({ viewed (segmentOf 2 0x60000) (regs 0 (viewAddress 0) 0) with mem := bytes }).onGr 0 fun g => { g with saved := saved }
/-- What the statement asks of a state for `GR.REST`. -/
def RestMeets (s : State) (ra rb : Reg) (image : Bool) : Prop :=
  let p := s.here
  let a := s.reg ra
  let sc := scopeOfCode (wbits a 24 21)
  let released := s.release (.core p) sc
  (wbits a 63 32 = 0 ∧ a.toNat &&& grMask 6 = a.toNat ∧ (wbit a 20 = true → wbit a 19 = true) ∧ wbits a 24 21 ≤ 6 ∧
    (s.reg rb).toNat % 4096 = 0 ∧ (released.parcel p).gr.saving = none ∧
    ((released.parcel p).gr.saved = true ∨ (released.parcel p).gr.busy = false) ∧
    GrCommand.shadow ⟨(released.parcel p).serial, 6, a, [], s.reg rb, (s.core p).flags.getLsbD 0⟩ = false) ∧
  ∃ bs s0 at_ s1, readSpan (.graticule p) sc (spanFuel 0x81000) (s.reg rb) 0x81000
      (released.onParcel p fun x => { x with serial := x.serial + 1 }) = .ok bs s0 ∧
    imageAddress p ⟨(released.parcel p).serial, 6, a, [], s.reg rb, (s.core p).flags.getLsbD 0⟩ .read s0 = .ok at_ s1 ∧
    decide (field bs 0 8 = 0x47520001) = image
theorem witness_graticule_restore : ∃ s ra rb, RestMeets s ra rb true :=
  ⟨restoring [(0x10000000000, 1), (0x10000000002, 0x52), (0x10000000003, 0x47)] true, 1, 2, by decide +kernel, _, _, _, _,
    went_eq (by decide +kernel), went_eq (by decide +kernel), by decide +kernel⟩
theorem witness_graticule_restore_other : ∃ s ra rb, RestMeets s ra rb false :=
  ⟨restoring [] false, 1, 2, by decide +kernel, _, _, _, _, went_eq (by decide +kernel), went_eq (by decide +kernel), by decide +kernel⟩
theorem witness_graticule_stat : ∃ (s : State) (ra : Reg), 4 ≤ (s.reg ra).toNat ∧ (s.reg ra).toNat < 8 := ⟨regs 7 0 0, 1, by decide +kernel⟩
theorem witness_graticule_stat_status : ∃ (s : State) (ra rb rc : Reg), s.reg ra = 0 ∧ s.reg rb = 1 ∧ s.reg rc = 2 :=
  ⟨regs 0 1 2, 1, 2, 3, by decide +kernel⟩

/-- A state whose region is a sheet with an open query. -/
def asking (q : Query) (s : State) : State :=
  { s with regions := [(0, { placedRegion with shape := 2, ways := (64, 0, 0) })], compasses := [(0, ⟨some q, []⟩)] }
def sheetRegion : Region := { placedRegion with shape := 2, ways := (64, 0, 0) }
theorem witness_compass_open : ∃ (s : State) (ra : Reg), let a := s.reg ra
    let mine : Nat → Prop := fun rel => rel < 2 ^ sheetRegion.shape ∧ (0 + rel) / 4 = s.here / 4
    s.regionOf s.here = some (0, sheetRegion) ∧ wbits a 63 48 = 0 ∧ wbits a 9 3 = 0 ∧ mine (wbits a 31 23) ∧ mine (wbits a 20 12) ∧
    s.query (s.here / 4) = none ∧ s.sideFree (0 + wbits a 20 12) (wbits a 11 10) false = true ∧
    s.sideFree (0 + wbits a 31 23) (wbits a 22 21) true = true :=
  ⟨{ regs 0xFFFF01E02C07 0 0 with regions := [(0, sheetRegion)] }, 1, by decide +kernel⟩
theorem witness_compass_operator : ∃ (s : State) (ra rb : Reg) (q : Query), let a := s.reg ra
    s.regionOf s.here = some (0, sheetRegion) ∧ s.query (s.here / 4) = some q ∧ wbits a 63 36 = 0 ∧ wbits a 7 3 = 0 ∧
    wbits (s.reg rb) 63 16 = 0 ∧ wbit a (8 + wbits a 2 0) = false ∧ wbits a 17 16 ≠ 0 ∧
    (wbits a 26 18 < 2 ^ sheetRegion.shape ∧ (0 + wbits a 26 18) / 4 = s.here / 4) ∧
    s.queueOwned (0 + wbits a 26 18) (wbits a 30 27) (wbits a 32 31) = false ∧
    (q.records.any fun x => x.away = some (wbits a 2 0)) = false :=
  ⟨asking default (regs 0xFF80F7F07 0xFFFF 0), 1, 2, default, by decide +kernel⟩
theorem witness_compass_join : ∃ (s s1 : State) (ra rb : Reg) (q : Query) (d : List Byte) (o : Nat) (r : Region),
    let a := s.reg ra
    let sheet := s.here / 4
    (s.regionOf s.here = some (o, r) ∧ 2 ≤ r.shape ∧ s.query sheet = some q ∧ wbits a 63 18 = 0 ∧ wbits a 7 3 = 0 ∧
      wbit a (8 + wbits a 2 0) = false ∧ wbits a 17 16 ≠ 0 ∧ (s.reg rb).toNat % 32 = 0) ∧
    readVa (.core s.here) .s (s.reg rb) 32 (s.release (.core s.here) .s) = .ok d s1 ∧
    (s1.regionOf s1.here = some (o, r) ∧ 8 ≤ field d 0 1 ∧ 1 ≤ field d 1 1 ∧ field d 1 1 ≤ 8 ∧
      field d 0 1 + field d 1 1 ≤ 64 ∧ field d 4 4 % 128 = 0 ∧ field d 8 4 % 256 = 0 ∧ 256 ≤ field d 8 4 ∧ field d 3 1 < 8 ∧
      field d 14 18 = 0 ∧ heldWay o r 2 sheet (field d 4 4) = true ∧
      heldWay o r 2 sheet (field d 4 4 + field d 8 4 - 1) = true ∧
      (field d 2 2 % 512 < 2 ^ r.shape ∧ (o + field d 2 2 % 512) / 4 = sheet) ∧
      s.sideFree (o + field d 2 2 % 512) (field d 2 2 / 512 % 4) true = true ∧
      (q.records.any fun x => x.away = some (wbits a 2 0)) = false) :=
  ⟨{ asking default (mapped 0x3FB02 0x20000 0) with mem := tables ++ [(0x20000, 56), (0x20001, 8), (0x20002, 3), (0x20009, 1)] }, _,
    1, 2, default, _, 0, sheetRegion, by decide +kernel, went_eq (by decide +kernel), by decide +kernel⟩
/-- A query whose slot 0 holds a join that puts its matches into port 1 of parcel 3. -/
def joining : Query :=
  { (default : Query) with slots := [(0, { (default : Operator) with join := true, matchParcel := 3, matchPort := 1 })] }
theorem witness_compass_join_again : ∃ (s : State) (q : Query) (x : Operator), s.query (s.here / 4) = some q ∧
    q.slots.find 0 = some x ∧ x.join = true ∧ x.matchParcel = 0 + 3 ∧ x.matchPort = 1 :=
  ⟨asking joining (regs 0 0 0), joining, _, by decide +kernel, Option.eq_some_of_isSome (by decide +kernel), by decide +kernel⟩
theorem witness_compass_others : ∃ (s : State) (ra rb rc : Reg) (q : Query), s.regionOf s.here = some (0, sheetRegion) ∧
    2 ≤ sheetRegion.shape ∧ s.query (s.here / 4) = some q ∧ (s.reg ra).toNat < 16 ∧ (s.reg rb).toNat < 14 ∧
    (s.reg rc).toNat < 128 ∧ q.halted = false :=
  ⟨asking default (regs 15 13 127), 1, 2, 3, default, by decide +kernel⟩
theorem witness_compass_close_halted : ∃ (s : State) (ra : Reg) (q : Query), s.query (s.here / 4) = some q ∧
    (s.reg ra).toNat < 128 ∧ q.halted = true :=
  ⟨asking { (default : Query) with halted := true } (regs 127 0 0), 1, { (default : Query) with halted := true }, by decide +kernel⟩
theorem witness_compass_fix : ∃ (s : State) (ra rb : Reg) (q : Query) (order : List Nat), s.query (s.here / 4) = some q ∧
    s.reg rb = 0 ∧ wbits (s.reg ra) 63 28 = 0 ∧ 1 ≤ wbits (s.reg ra) 27 24 ∧ wbits (s.reg ra) 27 24 ≤ 8 ∧
    order = ((List.range (wbits (s.reg ra) 27 24)).map fun k => wbits (s.reg ra) (3 * k + 2) (3 * k)) ∧ order.Nodup :=
  ⟨asking default (regs 0x8FAC688 0 0), 1, 2, default, [0, 1, 2, 3, 4, 5, 6, 7], by decide +kernel⟩

/-- The state of the Scribe's witness: a descriptor that names a schema of one entry in a segment. -/
def scribing : State :=
  { viewed (segmentOf 0 0x1000) (mapped 0x1800000 0x20000 0) with
    mem := tables ++ [(0x20017, 1), (0x10000000000, 1), (0x10000000001, 8)] }
theorem witness_scribe_open : ∃ (s s1 s2 s3 : State) (ra rb : Reg) (d head entries : List Byte) (o : Nat) (r : Region),
    let p := s.here
    let a := s.reg ra
    let b := s.reg rb
    let sc := scopeOfCode (wbits a 11 8)
    let x : Scribe := { Scribe.reset with
      state := 1, control := a, desc := d, schema := head ++ entries, counts := (s.scribe p).counts }
    (wbits a 63 25 = 0 ∧ wbit a 7 = false ∧ wbits a 11 8 ≤ 6 ∧ b.toNat % 32 = 0) ∧
    readVa (.core p) sc b 32 (s.release (.core p) sc) = .ok d s1 ∧
    (field d 8 8 < 2 ^ 40 ∧ field d 28 4 = 0 ∧ (wordOf (slice d 16 8)).toNat % 64 = 0) ∧
    readSpan (.core p) sc 2 (wordOf (slice d 16 8)) 16 s1 = .ok head s2 ∧
    (1 ≤ field head 0 1 ∧ field head 0 1 ≤ 15) ∧
    readSpan (.core p) sc 2 (wordOf (slice d 16 8) + 16) (16 * field head 0 1) s2 = .ok entries s3 ∧
    (schemaBad (head ++ entries) = none ∧ (s.scribe p).state ≠ 1 ∧ x.toQuery = false ∧ s3.regionOf s3.here = some (o, r) ∧
    x.targetRel < 2 ^ r.shape ∧ s.portHolder (o + x.targetRel) x.targetPort false = .free) :=
  ⟨scribing, _, _, _, 1, 2, _, _, _, 0, sheetRegion, by decide +kernel, went_eq (by decide +kernel), by decide +kernel,
    went_eq (by decide +kernel), by decide +kernel, went_eq (by decide +kernel), by decide +kernel⟩
theorem witness_scribe_openQuery : ∃ (s s1 s2 s3 : State) (ra rb : Reg) (d head entries : List Byte),
    let p := s.here
    let a := s.reg ra
    let b := s.reg rb
    let sc := scopeOfCode (wbits a 11 8)
    (wbits a 63 25 = 0 ∧ wbit a 7 = false ∧ wbits a 11 8 ≤ 6 ∧ b.toNat % 32 = 0) ∧
    readVa (.core p) sc b 32 (s.release (.core p) sc) = .ok d s1 ∧
    (field d 8 8 < 2 ^ 40 ∧ field d 28 4 = 0 ∧ (wordOf (slice d 16 8)).toNat % 64 = 0) ∧
    readSpan (.core p) sc 2 (wordOf (slice d 16 8)) 16 s1 = .ok head s2 ∧
    (1 ≤ field head 0 1 ∧ field head 0 1 ≤ 15) ∧
    readSpan (.core p) sc 2 (wordOf (slice d 16 8) + 16) (16 * field head 0 1) s2 = .ok entries s3 ∧
    (schemaBad (head ++ entries) = none ∧ (s.scribe p).state ≠ 1 ∧ wbit a 13 = true ∧ (s.query (p / 4)).isSome = true) :=
  ⟨{ scribing.onCore 0 (fun c => c.put 1 0x1802000) with compasses := [(0, ⟨some default, []⟩)] }, _, _, _, 1, 2, _, _, _,
    by decide +kernel, went_eq (by decide +kernel), by decide +kernel, went_eq (by decide +kernel), by decide +kernel,
    went_eq (by decide +kernel), by decide +kernel⟩
theorem witness_scribe_count : ∃ (s : State) (ra rb rc : Reg), (s.reg ra).toNat < 6 ∧ s.reg rb = 6 ∧ 8 ≤ (s.reg rc).toNat ∧
    (s.reg rc).toNat < 14 := ⟨regs 5 6 13, 1, 2, 3, by decide +kernel⟩

theorem witness_segment_name : ∃ (s s1 : State) (ra rb : Reg) (o k : Nat) (r : Region) (bs : List Byte), let a := s.reg ra
    let w := field bs 8 2
    let pl : SegmentPlace := ⟨w % 2 = 1, bits w 2 1, bits w 6 3, bits w 15 7, field bs 12 4, field bs 16 4⟩
    let back := wordOf (slice bs 0 8)
    let g : Segment :=
      { asid := r.asid, name := a, place := pl, backing := back, state := .attached, count := 1, version := 0,
        stamp := s.meridian, pinned := false, torn := false, tornClear := false, origin := o, holder := some o,
        target := none, waiting := [], asked := false, needers := [], failed := [] }
    (s.regionOf s.here = some (o, r) ∧ a ≠ 0 ∧ (s.reg rb).toNat % 32 = 0) ∧
    readVa (.core s.here) .d (s.reg rb) 32 (s.release (.core s.here) .d) = .ok bs s1 ∧
    (s1.regionOf s1.here = some (o, r) ∧ wbits back 63 57 = 0 ∧ field bs 10 2 = 0 ∧ field bs 20 12 = 0 ∧ pl.j ≤ 9 ∧
    (pl.slice = false ∧ pl.level = 0 ∧ pl.off + pl.size ≤ 0x60000 ∨ pl.slice = true ∧ pl.level ≠ 0 ∧ pl.j = 0) ∧ pl.r0 % segUnits g = 0 ∧ pl.off % 4096 = 0 ∧ pl.size % 4096 = 0 ∧ wbits back 11 0 = 0 ∧ pl.size ≠ 0 ∧ g.fits r = true ∧ (s.inTheWay 65536 g o).isEmpty = true ∧ s.segments.length < 65536 ∧
    s.segmentNamed r.asid a = none ∧ (List.range (s.segments.length + 1)).find? (fun k => (s.segment k).isNone) = some k) :=
  ⟨{ mapped 5 0x20000 0 with mem := tables ++ [(0x20012, 6)] }, _, 1, 2, 0, 0, placedRegion, _, by decide +kernel,
    went_eq (by decide +kernel), by decide +kernel⟩
/-- Attaches that wait for a segment. -/
def attaches (g : Segment) : Nat := (g.waiting.filter fun x => !x.evict).length
theorem witness_segment_attached : ∃ (s : State) (ra rb rc : Reg) (g : Segment), s.regionOf s.here = some (0, sheetRegion) ∧
    s.reg ra ≠ 0 ∧ s.segmentNamed sheetRegion.asid (s.reg ra) = some (0, g) ∧ wbits (s.reg rb) 63 8 = 0 ∧
    wbits (s.reg rc) 63 1 = 0 ∧ g.count + attaches g < 1023 ∧ g.state = .attached ∧ g.holder = some 0 ∧ g.count = 1 ∧
    s.portWrites 0 sheetRegion ((s.core s.here).since.getD s.tick) = false :=
  ⟨viewed (segmentOf 0 0x1000) (regs 5 0xFF 1), 1, 2, 3, segmentOf 0 0x1000, by decide +kernel⟩
theorem witness_segment_resident : ∃ (s : State) (ra rb : Reg) (g : Segment), s.regionOf s.here = some (0, sheetRegion) ∧
    s.reg ra ≠ 0 ∧ s.segmentNamed sheetRegion.asid (s.reg ra) = some (0, g) ∧ wbits (s.reg rb) 63 7 = 0 ∧
    g.state = .resident ∧ g.inside 0 sheetRegion = true ∧ g.pinned = false ∧ g.count + attaches g < 1023 :=
  ⟨viewed { segmentOf 0 0x1000 with state := .resident, holder := none, count := 0 } (regs 5 0x7F 0), 1, 2,
    { segmentOf 0 0x1000 with state := .resident, holder := none, count := 0 }, by decide +kernel⟩
theorem witness_segment_spilled : ∃ (s : State) (ra rb : Reg) (g : Segment), s.regionOf s.here = some (0, sheetRegion) ∧
    s.reg ra ≠ 0 ∧ s.segmentNamed sheetRegion.asid (s.reg ra) = some (0, g) ∧ wbits (s.reg rb) 63 8 = 0 ∧
    wbit (s.reg rb) 7 = false ∧ g.count + attaches g < 1023 ∧ g.state = .spilled ∧ g.holder = none ∧ g.target = none ∧
    g.fits sheetRegion = true ∧ g.pinned = false ∧ s.inTheWay 0 g 0 = [] :=
  ⟨viewed { segmentOf 0 0x1000 with state := .spilled, holder := none, count := 0 } (regs 5 0x7F 0), 1, 2,
    { segmentOf 0 0x1000 with state := .spilled, holder := none, count := 0 }, by decide +kernel⟩
theorem witness_segment_unnamed : ∃ (s : State) (ra : Reg) (r : Region), s.regionOf s.here = some (0, r) ∧ s.reg ra ≠ 0 ∧
    s.segmentNamed r.asid (s.reg ra) = none := ⟨regs 5 0 0, 1, placedRegion, by decide +kernel⟩

theorem witness_translation_invalidate : ∃ (s : State) (ra rb : Reg) (r : Region), let b := s.reg rb
    s.regionOf s.here = some (0, r) ∧ wbits b 23 20 = 0 ∧ wbits b 63 31 = 0 ∧ (wbits b 19 0 ≠ 0 ∨ s.reg ra = 0) ∧ wbits (s.reg ra) 11 0 = 0 :=
  ⟨regs 0x3000 0x7F0FFFFF 0, 1, 2, placedRegion, by decide +kernel⟩
theorem witness_translation_probe : ∃ (s s1 : State) (ra rb : Reg) (code : Byte) (size pa : Nat), s.reg rb = 0 ∧
    s.probe (.core s.here) (s.reg ra) .read = (some (code, size, pa), s1) :=
  ⟨mapped 0x20000 0 0, ((mapped 0x20000 0 0).probe (.core 0) 0x20000 .read).2, 1, 2, 0, 30, 0x20000, by decide +kernel,
    Prod.ext (by decide +kernel) rfl⟩
/-- A table whose first leaf migrates. -/
theorem witness_translation_probe_migrating : ∃ (s s1 : State) (ra rb : Reg), s.reg rb = 2 ∧
    s.probe (.core s.here) (s.reg ra) .fetch = (none, s1) :=
  ⟨{ mapped 0 2 0 with mem := tables.set 0x13001 0x32 }, _, 1, 2, by decide +kernel,
    Prod.ext (by decide +kernel) rfl⟩
/-- A table that maps one page of 4096 bytes at address 0. -/
def onePage : Memory :=
  [(0x10000, 1), (0x10008, 0x11), (0x11000, 1), (0x11008, 0x12), (0x12000, 1), (0x12008, 0x13), (0x13000, 1), (0x13008, 0x14),
   (0x14000, 1), (0x14008, 0x15), (0x15000, 0x1B), (0x15008, 0x20)]
theorem witness_translation_duplicate : ∃ (s : State) (ra rb : Reg) (r : Region) (e : BitVec 128) (at_ : Nat), let a := s.reg ra
    let b := s.reg rb
    s.regionOf s.here = some (0, r) ∧ wbits b 14 7 = 0 ∧ wbits b 63 48 = 0 ∧ wbits a 11 0 = 0 ∧
    s.dupLeaf r.asid a = some (e, 12, at_) ∧ leafKind e = 0 ∧ e.getLsbD 3 = true ∧
    (leafIdentity e = 0 ∨ leafIdentity e = r.identity) ∧
    (∀ i < 8, placeOf ((wbits b 47 12 + i) * 4096) = .hbm) ∧ leafDup e = false ∧ leafMigrating e = false ∧ s.invalidates = [] :=
  ⟨{ mapped 0 0x3007F 0 with mem := onePage }, 1, 2, placedRegion, 0x20000000000000001B, 0x15000, by decide +kernel⟩
theorem witness_translation_setFree : ∃ (s : State) (ra rb : Reg), (s.reg ra).toNat < 4096 ∧ s.reg rb = 0 ∧
    (s.pageSet (s.reg ra).toNat).state = 0 := ⟨regs 4095 0 0, 1, 2, by decide +kernel⟩
theorem witness_translation_setBind : ∃ (s s1 : State) (ra rb : Reg) (r : Region) (d : List Byte), let a := s.reg ra
    (s.regionOf s.here = some (0, r) ∧ wbits a 63 13 = 0 ∧ wbit a 12 = true ∧ (s.reg rb).toNat % 32 = 0) ∧
    readVa (.core s.here) .d (s.reg rb) 32 (s.release (.core s.here) .d) = .ok d s1 ∧
    (field d 8 4 < 65536 ∧ 1 ≤ field d 16 4 ∧ field d 16 4 ≤ 2 ^ 29 ∧ field d 20 12 = 0 ∧ (wordOf (slice d 0 8)).toNat % 16 = 0 ∧
      s.granted r.asid (field d 12 4) (field d 16 4) = true ∧ (s.pageSet (wbits a 11 0)).state = 0 ∧ s.sets = []) :=
  ⟨{ mapped 0x1FFF 0x20000 0 with grants := [(0, (0, 1))], mem := tables ++ [(0x20010, 1)] }, _, 1, 2, placedRegion, _,
    by decide +kernel, went_eq (by decide +kernel), by decide +kernel⟩
/-- A state with a bound set whose table holds one good entry. -/
def setBound (st : BitVec 3) : State :=
  { mapped 7 0 0 with sets := [(7, { (default : PageSet) with state := st, table := 0x20000, count := 1, pages := 1 })],
                      grants := [(0, (0, 1))] }
theorem witness_translation_transfer : ∃ (s s1 : State) (ra : Reg) (r : Region) (bs : List Byte), let a := s.reg ra
    let x := s.pageSet (wbits a 11 0)
    let es := (List.range x.count).map fun k => BitVec.ofNat 128 (field bs (16 * k) 16)
    (s.regionOf s.here = some (0, r) ∧ wbits a 63 19 = 0 ∧ x.state ≠ 0 ∧ x.asid = r.asid ∧ x.busy = false ∧ x.state ≠ 1 ∧
      s.granted r.asid x.first x.pages = true) ∧
    readSpan (.core s.here) .d (spanFuel (16 * x.count)) x.table (16 * x.count) (s.release (.core s.here) .d) = .ok bs s1 ∧
    es.all entryOk = true :=
  ⟨setBound 3, _, 1, placedRegion, _, by decide +kernel, went_eq (by decide +kernel), by decide +kernel⟩
theorem witness_translation_kick : ∃ (s u : State) (ra : Reg), (s.reg ra).toNat < 4096 ∧ (u.reg ra).toNat < 4096 ∧
    (s.postsBefore s.here (s.core s.here).fences || s.lateKicks.any fun k => k.parcel = s.here) = false ∧
    (u.postsBefore u.here (u.core u.here).fences || u.lateKicks.any fun k => k.parcel = u.here) = true :=
  ⟨regs 4095 0 0, { regs 4095 0 0 with lateKicks := [⟨0, 0, 1, 0, 0⟩] }, 1, by decide +kernel⟩
theorem witness_translation_others : ∃ (s : State) (ra : Reg) (r : Region), s.regionOf s.here = some (0, r) ∧
    (s.reg ra).toNat < 4096 ∧ (s.pageSet (s.reg ra).toNat).asid = r.asid ∧ (s.pageSet (s.reg ra).toNat).busy = false :=
  ⟨setBound 1, 1, placedRegion, by decide +kernel⟩

/-- A cell whose registers 1 to 3 hold words of a tag, with valid scales. -/
def blocks (tag : BitVec 4) (a b : Nat) : State := onCell fun x =>
  { x with v := (x.v.set 1 ⟨BitVec.ofNat 512 a, 0x3C3C3C3C, tag⟩).set 2 ⟨BitVec.ofNat 512 b, 0xFFFF, 0⟩ }
/-- A cell with words in input queue 0. -/
def queued (l : List LinkWord) (f : Cell → Cell) : State := onCell fun x => f { x with iq := x.iq.set 0 ⟨l, [], [], 0⟩ }
/-- The firing of an operation word at the state's site. -/
def firingOf (s : State) (op : Nat) (w : CellWord) : Firing := ⟨s, s.site, s.cell s.site.p s.site.m, op, w⟩
/-- An operation word over registers 1 and 2 into register 4. -/
def word12 (ty : BitVec 4) (c : BitVec 12) : CellWord := ⟨ty, .reg 4, .reg 1, .reg 2, .rne, false, c⟩
/-- An operation word on queue 0 and register 2. -/
def wordQ (dst : Operand) (c : BitVec 12) : CellWord := ⟨0, dst, .iq 0 0, .reg 2, .rne, false, c⟩
/-- What a firing of an operation reads from an operand. -/
abbrev srcOf (s : State) (op : Nat) (w : CellWord) (o : Operand) : Source := (firingOf s op w).raw o
/-- Whether the sources of a firing pass the checks. -/
abbrev firesOn (s : State) (op : Nat) (w : CellWord) (os : List Operand) : Prop := (firingOf s op w).fires os = true
/-- The cell of the state's site. -/
abbrev siteCell (s : State) : Cell := s.cell s.site.p s.site.m

theorem witness_cell_elements : ∃ (s : State) (w : CellWord), ∀ op < 0x42, firesOn s op w [w.a, w.b, cOperand op w] :=
  ⟨cell3 [7] [3] [], word12 0 3, by decide +kernel⟩
theorem witness_cell_compare : ∃ (s : State) (w v : CellWord) (k : BitVec 3),
    (firesOn s 0x40 w [w.a, w.b, cOperand 0x40 w] ∧ w.dst = .pred k ∧ w.cf 3 1 = 0) ∧
      (firesOn s 0x40 v [v.a, v.b, cOperand 0x40 v] ∧ v.dst = .pred k ∧ v.cf 3 1 = 1) :=
  ⟨cell3 [7] [3] [], { word12 0 0 with dst := .pred 5 }, { word12 0 8 with dst := .pred 5 }, 5, by decide +kernel⟩
theorem witness_cell_compare_word : ∃ (s : State) (w : CellWord), firesOn s 0x40 w [w.a, w.b, cOperand 0x40 w] ∧
    ∀ k, w.dst ≠ .pred k := ⟨cell3 [7] [3] [], word12 0 0, by decide +kernel⟩
theorem witness_cell_move : ∃ (s : State) (w : CellWord), firesOn s 0x42 w [w.a] ∧ firesOn s 0x61 w [w.a] ∧
    (srcOf s 0x42 w w.a).link.token = true ∧ ∀ i, w.dst ≠ .reg i :=
  ⟨queued [tokenWord 0 0] id, wordQ (.oq 0) 0, by decide +kernel⟩
theorem witness_cell_move_data : ∃ (s : State) (w : CellWord), firesOn s 0x42 w [w.a] ∧ firesOn s 0x61 w [w.a] ∧
    (srcOf s 0x42 w w.a).link.token = false ∧ w.dst = .reg 4 :=
  ⟨queued [dataWord 1 0xFFFF 0] id, wordQ (.reg 4) 0, by decide +kernel⟩
theorem witness_cell_lanes : ∃ (s : State) (w : CellWord), firesOn s 0x43 w [] ∧ firesOn s 0x44 w [w.a] ∧
    firesOn s 0x45 w [w.a, w.b] ∧ firesOn s 0x46 w [w.a, w.b] ∧ firesOn s 0x4B w [] :=
  ⟨cell3 [7] [3] [], word12 0 3, by decide +kernel⟩
theorem witness_cell_reduction : ∃ (s : State) (w : CellWord), ∀ op ∈ [0x47, 0x48], firesOn s op w [w.a] :=
  ⟨cell3 [7] [3] [], word12 0 3, by decide +kernel⟩
theorem witness_cell_dot : ∃ (s : State) (w : CellWord), ∀ op ∈ [0x49, 0x4A], firesOn s op w [w.a, w.b, cOperand op w] :=
  ⟨cell3 [7] [3] [], word12 8 3, by decide +kernel⟩
theorem witness_cell_enqueue : ∃ (s : State) (w v : CellWord), (firesOn s 0x60 w [w.a] ∧ w.c.getLsbD 1 = false) ∧
    firesOn s 0x60 v [v.a] ∧ v.c.getLsbD 1 = true := ⟨cell3 [7] [3] [], word12 0 1, word12 0 2, by decide +kernel⟩
theorem witness_cell_advance : ∃ (s : State) (w v : CellWord) (q : BitVec 2), (v.dst = .oq q ∧ firesOn s 0x62 v []) ∧
    (∀ q, w.dst ≠ .oq q) ∧ firesOn s 0x62 w [] :=
  ⟨cell3 [7] [3] [], word12 0 1, { word12 0 0 with dst := .oq 3 }, 3, by decide +kernel⟩
theorem witness_cell_queue_counts : ∃ (s : State) (w : CellWord), firesOn s 0x64 w [] :=
  ⟨queued [tokenWord 0 0] id, wordQ (.reg 4) 0, by decide +kernel⟩
/-- A cell whose register 1 holds an address and register 2 the words 5 and 6. -/
def addressing (lo : Nat) : State := cell3 [lo, 1] [5, 6] []
theorem witness_cell_addresses : ∃ (s : State) (w : CellWord), (∀ h, w.a ≠ .handle h) ∧
    ∀ op ∈ [0x65, 0x67, 0x68, 0x69], firesOn s op w [w.a, w.b] ∧ firesOn s op w [w.a] ∧
      (firingOf s op w).addresses 64 w.a = true := ⟨addressing 0x40, word12 0 3, by decide +kernel⟩
theorem witness_cell_stores : ∃ (s : State) (w : CellWord), ∀ op ∈ [0x66, 0x6A, 0xE8], firesOn s op w [w.a, w.b] ∧
    (firingOf s op w).addresses 64 w.b = true := ⟨cell3 [5] [0x40] [], word12 0 3, by decide +kernel⟩
theorem witness_cell_atomics : ∃ (s : State) (w v : CellWord),
    (CellWord.width w.ty.toNat = 32 ∧ firesOn s 0x68 w [w.a, w.b] ∧ (firingOf s 0x68 w).addresses 4 w.a = true) ∧
    CellWord.width v.ty.toNat = 64 ∧ firesOn s 0x68 v [v.a, v.b] ∧ (firingOf s 0x68 v).addresses 8 v.a = true :=
  ⟨addressing 0x48, word12 0 0, word12 3 0, by decide +kernel⟩
/-- A cell with a full buffer 9 and the index 5 in register 1. -/
def handling (l : List PortEntry) : State :=
  ((cell3 [5] [6] []).onCell 0 0 fun c => { c with port := l }).setBuffer 0 9 (setF 0 38 20 448)
theorem witness_cell_handle : ∃ (s u : State) (w : CellWord) (h : BitVec 7),
    (w.a = .handle h ∧ firesOn s 0x65 w [w.b] ∧ firesOn u 0x65 w [w.b]) ∧
    ((laneOf (srcOf s 0 w w.b).payload 0).toNat * 64 < bufSize (s.buffer s.site.p h.toNat) ∧ (siteCell s).port = [] ∧
      s.reservers (.cell s.site.p s.site.m) (windowBase + s.site.p * 0x400000 +
        bufBase (s.buffer s.site.p h.toNat) + 64 * (laneOf (srcOf s 0 w w.b).payload 0).toNat) 64 = []) ∧
    (laneOf (srcOf u 0 w w.b).payload 0).toNat * 64 < bufSize (u.buffer u.site.p h.toNat) ∧ (siteCell u).port ≠ [] :=
  ⟨handling [], handling [⟨.proj false, 0, .c, .reg 0, 0, 0, none, 0⟩], { word12 0 0 with a := .handle 9 }, 9, by decide +kernel⟩
theorem witness_cell_translate : ∃ (s : State) (w : CellWord), firesOn s 0xE5 w [w.a] ∧
    (firingOf s 0xE5 w).addresses 1 w.a = true := ⟨addressing 0x44, word12 0 3, by decide +kernel⟩
theorem witness_cell_misaligned : ∃ (s : State) (w : CellWord), (∀ h, w.a ≠ .handle h) ∧
    ∀ op ∈ [0x65, 0x67, 0x69], firesOn s op w [w.a] ∧ (firingOf s op w).addresses 1 w.a = true ∧
      ((firingOf s 0 w).addressOf w.a).toNat % 64 ≠ 0 := ⟨addressing 0x44, word12 0 3, by decide +kernel⟩
theorem witness_cell_floats : ∃ (s : State) (w : CellWord), ∀ op ∈ (List.range 17).map (0x80 + ·),
    firesOn s op w [w.a, w.b, cOperand op w] := ⟨cell3 [0x3F800000] [0x40000000] [], word12 2 3, by decide +kernel⟩
/-- The flags of `FRCP` on a state. -/
def rcpFlags (s : State) : FFlags :=
  let f := firingOf s 0x89 (word12 2 0)
  let mask := (f.raw (.reg 1)).mask &&& (f.raw (.reg 2)).mask &&& (f.raw (cOperand 0x89 (word12 2 0))).mask
  let as := (f.raw (.reg 1)).values 2
  (roundAll ((elemMask 2 mask).zip ((as.map fun e => fRcp (f.value e)).map fun p gen => f.round p gen))
    f.c.gen).2.1.foldl (fun (a : FFlags) x => a ||| x) 0
theorem witness_cell_floats_untrapped : ∃ s, rcpFlags s ≠ 0 ∧ rcpFlags s &&& (firingOf s 0x89 (word12 2 0)).traps = 0 ∧
    firesOn s 0x89 (word12 2 0) [.reg 1, .reg 2, cOperand 0x89 (word12 2 0)] := ⟨cell3 [0] [] [], by decide +kernel⟩
theorem witness_cell_floats_trapped : ∃ s, rcpFlags s &&& (firingOf s 0x89 (word12 2 0)).traps ≠ 0 ∧
    firesOn s 0x89 (word12 2 0) [.reg 1, .reg 2, cOperand 0x89 (word12 2 0)] :=
  ⟨(cell3 [0] [] []).onCell 0 0 fun c => { c with consts := [(7, 0x40000000)] }, by decide +kernel⟩

theorem witness_float_results : ∃ (s : State) (w : CellWord), (∀ op ∈ [0x88, 0x91, 0x92, 0x95], firesOn s op w [w.a, w.b]) ∧
    firesOn s 0x93 w [w.a] ∧ (firingOf s 0 w).traps = 0 := ⟨cell3 [0x3F800000] [3] [], word12 2 7, by decide +kernel⟩
theorem witness_float_fold : ∃ (s : State) (w : CellWord) (e : Nat × Bool) (l : List (Nat × Bool)), firesOn s 0x94 w [w.a] ∧
    (((srcOf s 0 w w.a).values w.ty.toNat).zip (elemMask w.ty.toNat (srcOf s 0 w w.a).ownMask)).map
      (fun e => (if e.2 then e.1 else (floatFmt w.ty.toNat).identity (w.cf 0 2), e.2)) = e :: l :=
  ⟨cell3 [0x3F800000] [] [], word12 2 0, (0x3F800000, true), List.replicate 15 (0, true), by decide +kernel⟩
theorem witness_float_convert : ∃ (s : State) (w : CellWord), firesOn s 0x96 w [w.a, w.b] ∧ firesOn s 0xC0 w [w.a, w.b] :=
  ⟨cell3 [0x3F800000] [3] [], word12 7 2, by decide +kernel⟩
/-- Whether a source holds blocks. -/
abbrev isBlock (x : Source) : Prop := x.tag = 3 ∨ x.tag = 4 ∨ x.tag = 5
theorem witness_float_dequantize : ∃ (s : State) (w : CellWord), firesOn s 0xC1 w [w.a] ∧ isBlock (srcOf s 0 w w.a) ∧
    ¬ (w.cf 2 1 = 1 ∧ tagWidth (srcOf s 0 w w.a).tag.toNat = 8) := ⟨blocks 3 0x76543210 0, word12 2 3, by decide +kernel⟩
theorem witness_float_scales : ∃ (s : State) (u v w : CellWord), (u.cf 0 2 = 0 ∧ v.cf 0 2 = 1 ∧ 2 ≤ w.cf 0 2) ∧
    (firesOn s 0xC2 u [u.a] ∧ isBlock (srcOf s 0 u u.a)) ∧
    (firesOn s 0xC2 v [v.a, v.b] ∧ isBlock (srcOf s 0 v v.a) ∧ (srcOf s 0 v v.b).ownMask.getLsbD 0 = true) ∧
    firesOn s 0xC2 w [w.a, w.b] ∧ isBlock (srcOf s 0 w w.a) ∧ (srcOf s 0 w w.b).ownMask.getLsbD 0 = true :=
  ⟨blocks 5 0x76543210 7, word12 0 0, word12 0 0xD, word12 0 2, by decide +kernel⟩
/-- The words that `WADP` reads. -/
abbrev adapterOperands (w : CellWord) (q : BitVec 2) : List Operand :=
  ((List.range ((wadpSpan w).2 + 1)).drop (wadpSpan w).1).map fun i => Operand.iq q (BitVec.ofNat 3 i)
theorem witness_float_adapt : ∃ (s : State) (v w : CellWord) (q : BitVec 2) (j : BitVec 3), (v.cf 3 2 = 0 ∧ w.cf 3 2 ≠ 0) ∧
    (v.a = .iq q j ∧ firesOn s 0xC3 v (adapterOperands v q) ∧
      ∀ o ∈ adapterOperands v q, (srcOf s 0 v o).tag = tagOfWidth (wadpWidths (v.cf 3 2)).1) ∧
    w.a = .iq q j ∧ firesOn s 0xC3 w (adapterOperands w q) ∧
      ∀ o ∈ adapterOperands w q, (srcOf s 0 w o).tag = tagOfWidth (wadpWidths (w.cf 3 2)).1 :=
  ⟨queued [dataWord 0x76543210 0x3C3C3C3C 3] id, wordQ (.reg 4) 1, wordQ (.reg 4) 0x10, 0, 0, by decide +kernel⟩

theorem witness_structure_gate : ∃ (s u v : State) (w x : CellWord),
    (firesOn s 0xE0 w [w.a] ∧ (siteCell s).k.getLsbD (w.cf 0 3) = true ∧ (srcOf s 0 w w.a).link.last = false) ∧
    (firesOn u 0xE0 w [w.a] ∧ (siteCell u).k.getLsbD (w.cf 0 3) = true ∧ (srcOf u 0 w w.a).link.last = true) ∧
    firesOn v 0xE0 x [x.b] ∧ (siteCell v).k.getLsbD (x.cf 0 3) = false ∧ (srcOf v 0 x x.b).link.token = true ∧
      (srcOf v 0 x x.b).link.kind = 0 :=
  ⟨queued [dataWord 1 0xFFFF 0] fun c => { c with k := 0x80 },
    queued [{ dataWord 1 0xFFFF 0 with last := true }] fun c => { c with k := 0x80 }, queued [tokenWord 0 0] id,
    wordQ (.oq 0) 7, { wordQ (.oq 0) 7 with a := .reg 2, b := .iq 0 0 }, by decide +kernel⟩
theorem witness_structure_moves : ∃ (s : State) (w : CellWord), (∀ op ∈ [0xE1, 0xE4], firesOn s op w [w.a]) ∧
    ∀ op ∈ [0xEB, 0xEC, 0xEE], firesOn s op w [] := ⟨cell3 [7] [3] [], word12 0 3, by decide +kernel⟩
theorem witness_structure_merge : ∃ (s u : State) (w : CellWord) (q : BitVec 2) (j : BitVec 3), w.a = .iq q j ∧
    (1 ≤ (siteCell s).iq[q.toNat].filled ∧ firesOn s 0xE2 w [w.a]) ∧
    (siteCell u).iq[q.toNat].filled = 0 ∧ firesOn u 0xE2 w [w.b] :=
  ⟨queued [dataWord 1 0xFFFF 0] id, queued [] id, { wordQ (.oq 0) 0 with pop := false }, 0, 0, by decide +kernel⟩
theorem witness_structure_steer : ∃ (s u : State) (w : CellWord),
    (firesOn s 0xE3 w [w.a, w.b] ∧ laneOf (srcOf s 0 w w.b).payload 0 ≠ 0) ∧
    firesOn u 0xE3 w [w.a, w.b] ∧ laneOf (srcOf u 0 w w.b).payload 0 = 0 :=
  ⟨cell3 [7] [3] [], cell3 [7] [0] [], { word12 0 3 with dst := .oq 1 }, by decide +kernel⟩
theorem witness_structure_widen : ∃ (s : State) (w : CellWord) (q : BitVec 2), firesOn s 0xE6 w [w.a] ∧ w.dst = .oq q :=
  ⟨cell3 [7] [3] [], { word12 0 3 with dst := .oq 1 }, 1, by decide +kernel⟩
theorem witness_structure_host : ∃ (s : State) (w : CellWord), firesOn s 0xE7 w [w.a] ∧ (srcOf s 0 w w.a).link.token = true ∧
    (srcOf s 0 w w.a).link.kind = 6 := ⟨queued [tokenWord 6 0] id, wordQ (.oq 0) 0, by decide +kernel⟩
theorem witness_structure_record : ∃ (s : State) (w : CellWord), firesOn s 0xE9 w [w.a] ∧ firesOn s 0xEA w [w.a] ∧
    (srcOf s 0 w w.a).tag = 7 := ⟨queued [dataWord 1 0xFFFF 7] id, wordQ (.oq 0) 3, by decide +kernel⟩
theorem witness_cellFrame : ∃ (i : Instr) (op : BitVec 8) (w : CellWord), i.cellParts? = some (op, w) ∧ (∀ h, w.a ≠ .handle h) :=
  ⟨.iadd (word12 0 0), 0, word12 0 0, by decide +kernel, by decide +kernel⟩
theorem witness_cellFrame_handle : ∃ (i : Instr) (op : BitVec 8) (w : CellWord) (h : BitVec 7), i.cellParts? = some (op, w) ∧
    w.a = .handle h := ⟨.cellLd { word12 0 0 with a := .handle 9 }, 0x65, { word12 0 0 with a := .handle 9 }, 9, by decide +kernel, rfl⟩

/-- A core whose channel 5 is bound and holds an event. -/
def pending (e : ChannelEvent) : State := onCore fun c =>
  { c.bind 0 5 0x40 9 with channels := (c.bind 0 5 0x40 9).channels.alter Channel.reset 5 fun x => { x with fifo := [e] } }
theorem witness_task_packet : ∃ (s : State) (p o k ch : Nat) (r : Region) (pk : Packet) (shared : Bool),
    s.regionOf p = some (o, r) ∧ s.coreRuns p = true ∧ (s.core p).running = false ∧ (s.core p).stopped = false ∧
    r.phase ≠ .preempting ∧ r.exitAsked = false ∧ (s.core p).pick s.meridian.toNat = some (k, ch) ∧
    ((s.core p).channel ch).fifo = [.packet pk shared] :=
  ⟨pending (.packet ⟨0, 5, true, 3, 4, 0, 0, false, Vector.replicate 6 0⟩ false), 0, 0, 0, 5, placedRegion, ⟨0, 5, true, 3, 4, 0, 0, false, Vector.replicate 6 0⟩, false,
    by decide +kernel⟩
theorem witness_task_wakeup : ∃ (s : State) (p o k ch : Nat) (r : Region) (kind : BitVec 2) (time arg : Word) (control : BitVec 16),
    s.regionOf p = some (o, r) ∧ s.coreRuns p = true ∧ (s.core p).running = false ∧ (s.core p).stopped = false ∧
    r.phase ≠ .preempting ∧ r.exitAsked = false ∧ (s.core p).pick s.meridian.toNat = some (k, ch) ∧
    ((s.core p).channel ch).fifo = [.wakeup kind time arg control] ∧ control.getLsbD 15 = false :=
  ⟨pending (.wakeup 1 3 4 0), 0, 0, 0, 5, placedRegion, 1, 3, 4, 0, by decide +kernel⟩

/-- A core whose channel 5 holds a checked wakeup at the promise of entry 9, in a state of that entry. -/
def promised (state : Nat) (bound : Bool) : State :=
  ((pending (.wakeup 1 3 4 0x8900)).onCore 0 fun c => if bound then c.bind 0 127 0x80 0 else c).setBuffer 0 9
    (setF (setF 0 63 62 state) 127 64 77)
theorem witness_task_checked : ∃ (s : State) (p o k ch : Nat) (r : Region) (time arg : Word) (control : BitVec 16),
    s.regionOf p = some (o, r) ∧ s.coreRuns p = true ∧ (s.core p).running = false ∧ (s.core p).stopped = false ∧
    r.phase ≠ .preempting ∧ r.exitAsked = false ∧ (s.core p).pick s.meridian.toNat = some (k, ch) ∧
    ((s.core p).channel ch).fifo = [.wakeup 1 time arg control] ∧ control.getLsbD 15 = true ∧
    2 ≤ bufState (s.buffer p (getF control 14 8)) :=
  ⟨promised 2 false, 0, 0, 0, 5, placedRegion, 3, 4, 0x8900, by decide +kernel⟩
theorem witness_task_late : ∀ state ∈ [0, 1], ∃ (s : State) (p o k ch : Nat) (r : Region) (time arg : Word) (control : BitVec 16),
    s.regionOf p = some (o, r) ∧ s.coreRuns p = true ∧ (s.core p).running = false ∧ (s.core p).stopped = false ∧
    r.phase ≠ .preempting ∧ r.exitAsked = false ∧ (s.core p).pick s.meridian.toNat = some (k, ch) ∧
    ((s.core p).channel ch).fifo = [.wakeup 1 time arg control] ∧ control.getLsbD 15 = true ∧
    bufState (s.buffer p (getF control 14 8)) = state ∧ ((s.core p).channel 127).bound = true := fun state h =>
  ⟨promised state true, 0, 0, 0, 5, placedRegion, 3, 4, 0x8900, (by decide +kernel : ∀ state ∈ [0, 1],
    (promised state true).regionOf 0 = some (0, placedRegion) ∧ (promised state true).coreRuns 0 = true ∧
    ((promised state true).core 0).running = false ∧ ((promised state true).core 0).stopped = false ∧
    placedRegion.phase ≠ .preempting ∧ placedRegion.exitAsked = false ∧
    ((promised state true).core 0).pick (promised state true).meridian.toNat = some (0, 5) ∧
    (((promised state true).core 0).channel 5).fifo = [.wakeup 1 3 4 0x8900] ∧ (0x8900 : BitVec 16).getLsbD 15 = true ∧
    bufState ((promised state true).buffer 0 (getF (0x8900 : BitVec 16) 14 8)) = state ∧
    (((promised state true).core 0).channel 127).bound = true) state h⟩

/-- The state with the word of `SUB x5, x6, x7` at the program counter of core 0. -/
def subPlaced : State := State.reset.placeCore (Decode.leBytes 4 0x04A63801)
theorem witness_step_core : ∃ (s t u : State) (p : Nat) (bs : List Byte) (i : Instr),
    (s.held = false ∧ s.next = .core p ∧ s.coreRuns p = true ∧ (s.core p).running = true ∧ (s.core p).stopped = false ∧
      (s.core p).waiting = none) ∧ fetchLine p s = .ok bs t ∧
    Decode.surveyor (BitVec.ofNat 32 (field bs ((s.core p).pc.toNat % 64) 4)) = .ok i ∧ exec i t = .next u := by
  have h : BitVec.ofNat 32 (field (valueOf (fetchLine 0 subPlaced)) ((subPlaced.core 0).pc.toNat % 64) 4) = 0x04A63801 := by
    decide +kernel
  exact ⟨subPlaced, _, _, 0, _, .sub 5 6 7, by decide +kernel, went_eq (by decide +kernel), h ▸ by rfl, rfl⟩
/-- The state with the word of `IADD.u32 oq0, v1, v2` in slot 0 of cell 0. -/
def iaddPlaced : State := { State.reset.placeCell (Decode.leBytes 8 0x0014000010020000) with next := .cell 0 0 }
theorem witness_step_cell : ∃ (s u : State) (p m x k : Nat) (i : Instr),
    (s.held = false ∧ s.next = .cell p m ∧ s.cellRuns p m = true ∧ s.firingOf p m = some (x, k)) ∧
    Decode.cell ((s.cell p m).slotWords x k).1 = .ok i ∧ exec i { s with next := .firing p m x k } = .next u := by
  have h : ((iaddPlaced.cell 0 0).slotWords 0 0).1 = 0x0014000010020000 := by decide +kernel
  exact ⟨iaddPlaced, _, 0, 0, 0, 0, .iadd ⟨1, .oq 0, .reg 1, .reg 2, .rne, false, 0⟩, by decide +kernel, h ▸ by rfl, rfl⟩
theorem witness_step_event : ∃ (s u : State) (i : Instr), s.next = .event i ∧ exec i s = .next u :=
  ⟨{ State.reset with next := .event (.timeWakeupFire 0 0) }, _, .timeWakeupFire 0 0, rfl, rfl⟩
theorem witness_step_held : ∃ s : State, s.held = true := ⟨{ State.reset with boot := { Boot.reset with phase := .held }, next := .core 0 }, by decide +kernel⟩

theorem witness_encodeDecode : ∃ (i j : Instr) (v : BitVec 32) (w : BitVec 64), (i.wellFormed = true ∧ encode32 i = some v) ∧
    (j.wellFormed = true ∧ encode64 j = some w) :=
  ⟨.add 5 6 7, .iadd (word12 0 0), _, _, ⟨by decide +kernel, rfl⟩, ⟨by decide +kernel, rfl⟩⟩
theorem witness_decodeEncode : ∃ (v : BitVec 32) (i : Instr) (w : BitVec 64) (j : Instr), Decode.surveyor v = .ok i ∧
    Decode.cell w = .ok j := ⟨0x04A63801, .sub 5 6 7, 0x0614000010020003, .imad ⟨1, .oq 0, .reg 1, .reg 2, .rne, false, 3⟩, rfl, rfl⟩
theorem witness_memoryReadBack : ∃ (m : Memory) (a : Nat) (bs : List Byte) (b c : Nat), m.wf = true ∧ bs ≠ [] ∧ b < a ∧
    a + bs.length ≤ c := ⟨tables, 0x13081, [0, 7], 0x13080, 0x13083, by decide +kernel⟩
theorem witness_stepKeepsMemory : ∃ s t : State, s.mem.wf = true ∧ s.deep.wf = true ∧ step s = .next t := by
  have h : (next? (step State.reset)).isSome = true := by decide +kernel
  cases e : step State.reset with
  | next t => exact ⟨State.reset, t, by decide +kernel, by decide +kernel, e⟩
  | fault f => rw [e] at h; simp [next?] at h
  | refused r => rw [e] at h; simp [next?] at h

/-- A running part with a region on parcel 0 and a page table. -/
def placed (r : Region) : State := { mapped 0 0 0 with regions := [(0, r)] }
theorem witness_boot_recovery : ∃ (s : State) (len : Nat), s.boot.phase = .recovery ∧ len ≤ 0xFFFFF8 :=
  ⟨{ State.reset with boot := { Boot.reset with phase := .recovery } }, 8, by decide +kernel⟩
theorem witness_boot_running : ∃ s : State, s.boot.phase = .running ∧ s.boot.phase ≠ .held := ⟨regs 0 0 0, by decide +kernel⟩
theorem witness_boot_measure : ∃ (s : State) (index : Nat) (d : BitVec 512), s.boot.measures.find index = some d :=
  ⟨{ State.reset with boot := { Boot.reset with measures := [(2, 5)] } }, 2, 5, by decide +kernel⟩
theorem witness_boot_regionFatal : ∃ (s : State) (o : Nat) (r : Region) (code : Byte), s.regions.find o = some r ∧
    0xF0 ≤ code.toNat ∧ code.toNat ≤ 0xF7 := ⟨placed placedRegion, 0, placedRegion, 0xF7, by decide +kernel⟩
theorem witness_boot_regionFatal_held : ∃ (s : State) (o : Nat) (r : Region) (code : Byte), s.regions.find o = some r ∧
    0xF0 ≤ code.toNat ∧ code.toNat ≤ 0xF7 ∧ s.boot.phase = .held :=
  ⟨{ placed placedRegion with boot := { Boot.reset with phase := .held } }, 0, placedRegion, 0xF0, by decide +kernel⟩
theorem witness_boot_deviceFatal : ∃ (s : State) (code : Byte), 0xF8 ≤ code.toNat ∧ s.boot.phase ≠ .held :=
  ⟨placed placedRegion, 0xF8, by decide +kernel⟩
theorem witness_boot_stream : ∃ stream < 4, stream = 3 := ⟨3, by decide, rfl⟩
theorem witness_boot_secondFatal : ∃ (s : State) (code : Byte) (d : Dump), 0xF8 ≤ code.toNat ∧ s.boot.phase = .held ∧
    s.boot.dump = some d ∧ d.written < d.length :=
  ⟨{ State.reset with boot := { Boot.reset with phase := .held, dump := some { (default : Dump) with length := 1 } } }, 0xFF,
    { (default : Dump) with length := 1 }, by decide +kernel⟩
theorem witness_boot_laterFatal : ∃ (s : State) (code : Byte) (d : Dump), 0xF8 ≤ code.toNat ∧ s.boot.phase = .held ∧
    s.boot.dump = some d ∧ d.length ≤ d.written :=
  ⟨{ State.reset with boot := { Boot.reset with phase := .held, dump := some default } }, 0xF8, default, by decide +kernel⟩
theorem witness_boot_soft : ∃ s : State, ∀ x ∈ s.book.getLast?, x.meridian ≠ s.meridian :=
  ⟨{ State.reset with book := [default], meridian := 5 }, by decide +kernel⟩
theorem witness_boot_parcel : ∃ p < 512, p = 511 := ⟨511, by decide, rfl⟩
theorem witness_boot_gate : ∃ (s : State) (p : Nat), s.boot.phase = .running ∧ p < 512 ∧ s.parcelFree p = true :=
  ⟨regs 0 0 0, 511, by decide +kernel⟩
theorem witness_boot_gated : ∃ (s : State) (p : Nat), (s.parcel p).gated = true :=
  ⟨(regs 0 0 0).onParcel 511 fun x => { x with gated := true }, 511, by decide +kernel⟩

theorem ok_some {ε α : Type} {r : Except ε α} (h : r.toOption.isSome = true) : ∃ a, r = .ok a := by
  cases r with
  | ok a => exact ⟨a, rfl⟩
  | error e => simp [Except.toOption] at h
theorem ok_has {ε α : Type} {r : Except ε α} (p : α → Bool) (h : r.toOption.any p = true) : ∃ a, r = .ok a ∧ p a = true := by
  cases r with
  | ok a => exact ⟨a, rfl, h⟩
  | error e => simp [Except.toOption] at h

theorem some_has {α : Type} {o : Option α} (p : α → Bool) (h : o.any p = true) : ∃ a, o = some a ∧ p a = true := by
  cases o with
  | none => simp at h
  | some a => exact ⟨a, rfl, h⟩
theorem witness_launch_kick : ∃ q size : Nat, q < 4096 ∧ size ≠ 8 := ⟨4095, 4, by decide⟩
theorem witness_launch_kickSize : ∃ (s : State) (p size : Nat), size ≠ 8 ∧ (s.core p).running = true :=
  ⟨onCore fun c => { c with running := true }, 0, 4, by decide +kernel⟩
theorem witness_launch_kickIdle : ∃ (s : State) (p : Nat) (writer : Writer), writer = .core p ∧ (s.core p).running = false :=
  ⟨State.reset, 0, .core 0, by decide +kernel⟩
theorem witness_launch_kickCell : ∃ (s : State) (p m : Nat), s.takesLate p m = true := ⟨onCell id, 0, 0, by decide +kernel⟩
theorem witness_launch_kickEngine : ∃ (s : State) (p : Nat), s.enginesRun p = true := ⟨regs 0 0 0, 0, by decide +kernel⟩
theorem witness_launch_dependence : ∃ (s : State) (k : Nat) (l : Launch), s.launches.find k = some l ∧ l.ready = false ∧
    l.placed = false ∧ l.depKind = 2 ∧ s.dependenceMet l = true :=
  ⟨{ mapped 0 0 0 with launches := [(3, { (default : Launch) with depKind := 2, dep := 0x20000 })] }, 3,
    { (default : Launch) with depKind := 2, dep := 0x20000 }, by decide +kernel⟩
theorem witness_launch_kickHost : ∃ (s : State) (q : Nat) (writer : Writer), q < 4096 ∧ writer = .host ∧ s.boot.phase ≠ .recovery :=
  ⟨regs 0 0 0, 4095, .host, by decide +kernel⟩
theorem witness_launch_recovery : ∃ s : State, s.boot.phase = .recovery :=
  ⟨{ State.reset with boot := { Boot.reset with phase := .recovery } }, by decide +kernel⟩
theorem witness_launch_decision : ∃ s u : State, (s.boot.phase = .running ∧ s.considered ≠ s.toConsider) ∧
    u.considered = u.toConsider :=
  ⟨{ regs 0 0 0 with launches := [(3, { (default : Launch) with ready := true })] }, State.reset, by decide +kernel⟩
/-- A region that loads the image at 0x20000, and that image: a header with one binding entry, whose packets start at offset
256; the last two bytes of the first packet word and the length of all are given. -/
def loadingRegion : Region := { placedRegion with phase := .loading, image := 0x20000 }
def loadingImage (len kind : Byte) (words : Memory) : Memory :=
  tables ++ [(0x20000, 0x31), (0x20001, 0x4B), (0x20002, 0x4E), (0x20003, 0x47), (0x20029, 1), (0x20030, len), (0x20040, 8),
    (0x20049, 2), (0x20050, 1)] ++ (if kind = 0 then [] else [(0x20107, kind)]) ++ words ++ [(0x20202, 5), (0x20204, 4)]
/-- The part with that region and image. -/
def loadingState (r : Region) (len kind : Byte) (words : Memory) : State :=
  { placed r with mem := loadingImage len kind words }
theorem test_loadingImage_wf : (loadingImage 24 0x50 [(0x20113, 0x10)]).wf = true := by decide +kernel
/-- Whether the header of an image is read. -/
abbrev headed (s : State) (o : Nat) (r : Region) (hd : List Byte) : Prop := s.imageBytes o r 0 256 = .ok hd
/-- What the loader asks of binding entries. -/
abbrev bindsWell (r : Region) (hd : List Byte) (bs : List (List Byte)) : Prop :=
  ∀ e ∈ bs.zipIdx, field e.1 0 2 < 512 ∧ field e.1 2 1 < 128 ∧ field e.1 3 1 = 0 ∧ field e.1 8 8 = 0 ∧
    bindHandler e.1 % 4 = 0 ∧ bindHandler e.1 < hdr hd 64 8 ∧ bindParcel e.1 < 2 ^ r.shape ∧
    ∀ a ∈ bs.take e.2, bindParcel a ≠ bindParcel e.1 ∨ bindChannel a ≠ bindChannel e.1
theorem witness_launch_header : ∃ (s : State) (o : Nat) (r : Region) (hd : List Byte) (bs : List (List Byte)),
    (s.regions.find o = some r ∧ s.boot.phase = .running ∧ r.phase = .loading ∧ r.loadPos = 0) ∧ headed s o r hd ∧
    (∀ c ∈ headerChecks r.shape hd, c.2 = true) ∧ s.bindings o r hd = .ok bs ∧ bs ≠ [] ∧ bindsWell r hd bs := by
  obtain ⟨hd, h, hp⟩ := ok_has (r := (loadingState loadingRegion 8 0x60 []).imageBytes 0 loadingRegion 0 256)
    (fun hd => decide (∀ c ∈ headerChecks 0 hd, c.2 = true) &&
      ((loadingState loadingRegion 8 0x60 []).bindings 0 loadingRegion hd).toOption.any fun bs =>
        !bs.isEmpty && decide (bindsWell loadingRegion hd bs)) (by decide +kernel)
  simp only [Bool.and_eq_true, decide_eq_true_eq] at hp
  obtain ⟨bs, b, hb⟩ := ok_has _ hp.2
  simp only [Bool.and_eq_true, decide_eq_true_eq] at hb
  exact ⟨_, 0, loadingRegion, hd, bs, by decide +kernel, h, hp.1, b, by simpa using hb.1, hb.2⟩
theorem witness_launch_header_refused : ∃ (s : State) (o : Nat) (r : Region) (c : Byte) (off : Nat), (s.regions.find o = some r ∧
    s.boot.phase = .running ∧ r.phase = .loading ∧ r.loadPos = 0) ∧ s.checkHeader o r = .error (.refused c off) :=
  ⟨placed loadingRegion, 0, loadingRegion, codeIllegalWord, 0, by decide +kernel, by
    have h : (match (placed loadingRegion).checkHeader 0 loadingRegion with
      | .ok _ => none
      | .error x => some x) = some (.refused codeIllegalWord 0) := by decide +kernel
    cases e : (placed loadingRegion).checkHeader 0 loadingRegion with
    | ok a => rw [e] at h; cases h
    | error x => rw [e] at h; simpa using h⟩
/-- A region whose next packet is the first, at a parcel. -/
def packetRegion (parcel : Nat) : Region := { loadingRegion with loadPos := 1, loadParcel := parcel }
/-- The header of an image and the word at an offset of it, read together. -/
def readPacket (s : State) (r : Region) : Option (List Byte × List Byte) := do
  let hd ← (s.imageBytes 0 r 0 256).toOption
  let hb ← (s.imageWord 0 r (hdr hd 40 8)).toOption
  pure (hd, hb)
theorem readPacket_ok {s : State} {r : Region} {hd hb : List Byte} (h : readPacket s r = some (hd, hb)) :
    headed s 0 r hd ∧ s.imageWord 0 r (hdr hd 40 8) = .ok hb := by
  unfold readPacket at h
  cases e : s.imageBytes 0 r 0 256 with
  | error x => simp [e, Except.toOption] at h
  | ok a =>
    cases f : s.imageWord 0 r (hdr a 40 8) with
    | error x => simp [e, f, Except.toOption] at h
    | ok b => simp [e, f, Except.toOption] at h; obtain ⟨rfl, rfl⟩ := h; exact ⟨e, f⟩
/-- What every packet's hypotheses share. -/
abbrev takesPacket (s : State) (r : Region) (hd hb : List Byte) (need : Nat) : Prop :=
  (s.regions.find 0 = some r ∧ s.boot.phase = .running ∧ r.phase = .loading ∧ r.loadPos = 0 + 1) ∧ headed s 0 r hd ∧
    0 + need ≤ hdr hd 48 8 ∧ s.imageWord 0 r (hdr hd 40 8) = .ok hb ∧ packetFieldsOk (Decode.leNat hb) = true
theorem witness_launch_imageEnd : ∃ (s : State) (r : Region) (hd hb : List Byte), takesPacket s r hd hb 8 ∧
    bits (Decode.leNat hb) 63 60 = 6 ∧ r.loadParcel = 2 ^ r.shape := by
  have h : (readPacket (loadingState (packetRegion 1) 8 0x60 []) (packetRegion 1)).any (fun x => 0 + 8 ≤ hdr x.1 48 8 &&
    packetFieldsOk (Decode.leNat x.2) && bits (Decode.leNat x.2) 63 60 = 6) = true := by decide +kernel
  obtain ⟨⟨hd, hb⟩, e, p⟩ := some_has _ h
  simp only [Bool.and_eq_true, decide_eq_true_eq] at p
  have q := readPacket_ok e
  exact ⟨_, packetRegion 1, hd, hb, ⟨by decide +kernel, q.1, p.1.1, q.2, p.1.2⟩, p.2, by decide⟩
theorem witness_launch_parcelEnd : ∃ (s : State) (r : Region) (hd hb : List Byte), takesPacket s r hd hb 8 ∧
    bits (Decode.leNat hb) 63 60 = 5 ∧ bits (Decode.leNat hb) 59 51 < 2 ^ r.shape ∧
    bits (Decode.leNat hb) 59 51 = r.loadParcel ∧ (∀ n ∈ r.seen, n / 2 ^ 64 ≠ packetKey (Decode.leNat hb)) ∧
    s.parcelFaults 0 r (bits (Decode.leNat hb) 59 51) = [] := by
  have h : (readPacket (loadingState (packetRegion 0) 8 0x50 []) (packetRegion 0)).any (fun x => 0 + 8 ≤ hdr x.1 48 8 &&
    packetFieldsOk (Decode.leNat x.2) && (bits (Decode.leNat x.2) 63 60 = 5 && bits (Decode.leNat x.2) 59 51 = 0)) = true := by
    decide +kernel
  have g : (loadingState (packetRegion 0) 8 0x50 []).parcelFaults 0 (packetRegion 0) 0 = [] := by decide +kernel
  obtain ⟨⟨hd, hb⟩, e, p⟩ := some_has _ h
  simp only [Bool.and_eq_true, decide_eq_true_eq] at p
  have q := readPacket_ok e
  refine ⟨_, packetRegion 0, hd, hb, ⟨by decide +kernel, q.1, p.1.1, q.2, p.1.2⟩, p.2.1, ?_, ?_, ?_, ?_⟩
  · rw [p.2.2]; decide
  · rw [p.2.2]; decide
  · intro n hn; cases hn
  · rw [p.2.2]; exact g
/-- The image whose one packet holds the word of `IADD.u32 oq0, v1, v2` for slot 0 of cell 0. -/
def slotImage : State := loadingState (packetRegion 0) 24 0 [(0x2010A, 2), (0x2010B, 0x10), (0x2010E, 0x14)]
theorem witness_launch_slot : ∃ (s : State) (r : Region) (hd hb b0 b1 : List Byte), takesPacket s r hd hb 24 ∧
    bits (Decode.leNat hb) 63 60 = 0 ∧ bits (Decode.leNat hb) 59 51 < 2 ^ r.shape ∧
    bits (Decode.leNat hb) 59 51 = r.loadParcel ∧ (∀ n ∈ r.seen, n / 2 ^ 64 ≠ packetKey (Decode.leNat hb)) ∧
    s.imageWord 0 r (hdr hd 40 8 + 8) = .ok b0 ∧ s.imageWord 0 r (hdr hd 40 8 + 16) = .ok b1 ∧
    opWordOk (wordOf b0) = true ∧ guardOk (wordOf b1) = true ∧ guardFits (wordOf b0) (wordOf b1) = true := by
  have h : (readPacket slotImage (packetRegion 0)).any (fun x => 0 + 24 ≤ hdr x.1 48 8 &&
    packetFieldsOk (Decode.leNat x.2) && (bits (Decode.leNat x.2) 63 60 = 0 && bits (Decode.leNat x.2) 59 51 = 0) &&
    hdr x.1 40 8 = 256) = true := by decide +kernel
  have g0 : (slotImage.imageWord 0 (packetRegion 0) (256 + 8)).toOption.any (fun b => opWordOk (wordOf b) && b == [0, 0, 2, 16, 0, 0, 20, 0]) = true := by
    decide +kernel
  have g1 : (slotImage.imageWord 0 (packetRegion 0) (256 + 16)).toOption.any (fun b => guardOk (wordOf b) &&
    guardFits (wordOf [0, 0, 2, 16, 0, 0, 20, 0]) (wordOf b)) = true := by decide +kernel
  obtain ⟨⟨hd, hb⟩, e, p⟩ := some_has _ h
  simp only [Bool.and_eq_true, decide_eq_true_eq] at p
  obtain ⟨⟨⟨p1, p2⟩, p3, p4⟩, p5⟩ := p
  have q := readPacket_ok e
  obtain ⟨b0, e0, h0⟩ := ok_has _ g0
  obtain ⟨b1, e1, h1⟩ := ok_has _ g1
  simp only [Bool.and_eq_true, beq_iff_eq] at h0 h1
  refine ⟨slotImage, packetRegion 0, hd, hb, b0, b1, ⟨by decide +kernel, q.1, p1, q.2, p2⟩, p3, ?_, ?_, ?_, ?_, ?_, h0.1, h1.1, ?_⟩
  · rw [p4]; decide
  · rw [p4]; decide
  · intro n hn; cases hn
  · rw [p5]; exact e0
  · rw [p5]; exact e1
  · rw [h0.2]; exact h1.2
/-- A region whose image is checked and whose parcels are next, and the same with its legend read. -/
def loadedRegion : Region := { loadingRegion with phase := .loaded }
def loadedState : State := loadingState loadedRegion 8 0x60 []
def legendRead : State := loadedState.onRegion 0 fun r => { r with identity := 0, legend := [], legendCount := 0 }
theorem toOption_ok {ε α : Type} {r : Except ε α} {a : α} (h : r.toOption = some a) : r = .ok a := by
  cases r with
  | ok b => simpa [Except.toOption] using h
  | error e => simp [Except.toOption] at h
/-- The one binding entry of an image whose header names it. -/
theorem bindings_one {t : State} {hd x : List Byte} (n : hdr hd 80 4 = 1) (o : hdr hd 72 8 = 512)
    (h : t.imageBytes 0 loadedRegion 512 16 = .ok x) : t.bindings 0 loadedRegion hd = .ok [x] := by
  unfold State.bindings
  rw [n, o]
  show (do let a ← t.imageBytes 0 loadedRegion (512 + 16 * 0) 16; pure [a]) = _
  rw [Nat.mul_zero, Nat.add_zero, h]; rfl
theorem witness_launch_parcel : ∃ (s : State) (p o : Nat) (r : Region) (hd : List Byte) (bs : List (List Byte)) (es : List Legend)
    (s1 : State), (s.regionOf p = some (o, r) ∧ s.boot.phase = .running ∧ r.phase = .loaded ∧ p = o + r.loadedParcels) ∧
    headed s o r hd ∧ s1.bindings o r hd = .ok bs ∧ s.bindings o r hd = .ok bs ∧ r.loadedParcels = 0 ∧
    ((List.range (hdr hd 32 2)).mapM fun i => (s.imageBytes o r (hdr hd 24 8 + 32 * i) 32).map fun b =>
      BitVec.ofNat 256 (Decode.leNat b)) = .ok es ∧ (∀ e ∈ es, legendOk es e = true) ∧
    s1 = s.onRegion o fun r => { r with
      identity := BitVec.ofNat 16 (hdr hd 6 2), legend := es.zipIdx.map fun e => (e.2, e.1), legendCount := es.length } := by
  obtain ⟨hd, h, hp⟩ := ok_has (r := loadedState.imageBytes 0 loadedRegion 0 256) (fun hd => hdr hd 32 2 = 0 && hdr hd 6 2 = 0 &&
    hdr hd 80 4 = 1 && hdr hd 72 8 = 512) (by decide +kernel)
  obtain ⟨x, hx, hy⟩ := ok_has (r := loadedState.imageBytes 0 loadedRegion 512 16)
    (fun b => (legendRead.imageBytes 0 loadedRegion 512 16).toOption == some b) (by decide +kernel)
  simp only [Bool.and_eq_true, decide_eq_true_eq] at hp
  obtain ⟨⟨⟨h1, h2⟩, h3⟩, h4⟩ := hp
  refine ⟨loadedState, 0, 0, loadedRegion, hd, [x], [], legendRead, by decide +kernel, h,
    bindings_one h3 h4 (toOption_ok (by simpa using hy)), bindings_one h3 h4 hx, rfl, ?_, ?_, ?_⟩
  · rw [h1]; rfl
  · intro e he; cases he
  · rw [h2]; rfl
theorem witness_launch_laterParcel : ∃ (s : State) (p o : Nat) (r : Region), s.regionOf p = some (o, r) ∧
    s.boot.phase = .running ∧ r.phase = .loaded ∧ p = o + r.loadedParcels ∧ r.loadedParcels ≠ 0 :=
  ⟨loadingState { loadingRegion with phase := .loaded, shape := 1, loadedParcels := 1 } 8 0x60 [], 1, 0,
    { loadingRegion with phase := .loaded, shape := 1, loadedParcels := 1 }, by decide +kernel⟩
theorem witness_launch_start : ∃ (s : State) (o : Nat) (r : Region), s.regions.find o = some r ∧ s.boot.phase = .running ∧
    r.phase = .loaded ∧ r.loadedParcels = 2 ^ r.shape :=
  ⟨placed { placedRegion with phase := .loaded, loadedParcels := 1 }, 0,
    { placedRegion with phase := .loaded, loadedParcels := 1 }, by decide +kernel⟩
/-- A drained region whose save area is HBM. -/
def drainedRegion : Region := { placedRegion with phase := .preempting, calm := 64, save := 0x1000000 }
def drained : State := placed drainedRegion
theorem went_unit {r : EStateM.Result Stop State Unit} (h : went r = true) : ∃ t, r = .ok () t := ⟨_, went_eq h⟩
theorem witness_launch_drained : ∃ (s : State) (o : Nat) (r : Region), (s.regions.find o = some r ∧ s.boot.phase = .running ∧
    r.phase = .preempting ∧ 64 ≤ r.calm ∧ s.underWay (regionParcels o r) = false ∧ s.recordsSent (regionParcels o r) = true ∧
    ∀ p ∈ regionParcels o r, s.parcelDrained p r.unstopped = true) := ⟨drained, 0, drainedRegion, by decide +kernel⟩
theorem witness_launch_exit : ∃ (s : State) (o : Nat) (r : Region), s.regions.find o = some r ∧ s.boot.phase = .running ∧
    r.live = true ∧ r.exitAsked = true ∧ s.underWay (regionParcels o r) = false ∧
    (∀ p ∈ regionParcels o r, s.parcelOver p = true) ∧ s.heldSegments o = [] :=
  ⟨placed { placedRegion with exitAsked := true }, 0, { placedRegion with exitAsked := true }, by decide +kernel⟩

/-- A packet for a channel. -/
def packetTo (dest : Nat) (ch : BitVec 7) : Packet := ⟨dest, ch, false, 1, 0, 0, 0, false, Vector.replicate 6 0⟩
theorem witness_task_send : ∃ (s : State) (p dest : Nat) (k : Packet) (i : Nat),
    (s.core p).outbound.zipIdx.find? (fun e => e.1.dest = dest) = some (k, i) ∧
    ((s.core dest).storeEntry k.ch.toNat).isSome = true ∧ ∀ x ∈ (s.core p).outbound.take i, x.before k = false :=
  ⟨onCore fun c => { c with outbound := [packetTo 5 7, packetTo 3 7] }, 0, 3, packetTo 3 7, 1, by decide +kernel⟩
/-- A packet that its core sends after a fence. -/
def fencedPacket : Packet := { packetTo 3 7 with fences := Vector.replicate 6 1 }
theorem witness_task_sendWaits : ∃ (s : State) (p dest : Nat) (k : Packet) (i : Nat),
    (s.core p).outbound.zipIdx.find? (fun e => e.1.dest = dest) = some (k, i) ∧
    ∃ x ∈ (s.core p).outbound.take i, x.before k = true :=
  ⟨onCore fun c => { c with outbound := [packetTo 5 7, fencedPacket] }, 0, 3, fencedPacket, 1, by decide +kernel⟩
theorem witness_task_arrival : ∃ (s : State) (k : Nat) (pk : Packet) (o : Nat) (r : Region) (shared : Bool),
    s.flight[k]? = some pk ∧ (∀ x ∈ s.flight.take k, x.before pk = false) ∧ s.kickFirst pk = false ∧ s.boot.phase ≠ .held ∧
    s.regionOf pk.dest = some (o, r) ∧ ¬(pk.frontEnd = true ∧ pk.ch = 127) ∧
    (s.core pk.dest).storeEntry pk.ch.toNat = some shared :=
  ⟨{ regs 0 0 0 with flight := [packetTo 0 6, packetTo 0 7] }, 1, packetTo 0 7, 0, placedRegion, false, by decide +kernel⟩
theorem witness_task_promotion : ∃ (s : State) (p ch : Nat), let h := (s.core p).channel ch
    h.ready = true ∧ ¬ ((s.core p).running = true ∧ (s.core p).ch.toNat = ch) ∧
      65536 ≤ h.age + 2 * (s.meridian.toNat - h.since) :=
  ⟨{ pending (.packet (packetTo 0 5) false) with meridian := 32768 }, 0, 5, by decide +kernel⟩
theorem witness_task_time : ∃ (s : State) (p ch o : Nat) (r : Region), let w := ((s.core p).channel ch).wake
    s.regionOf p = some (o, r) ∧ r.debugStop = false ∧ r.live = true ∧ w.cond = 1 ∧ w.pending = false ∧
      w.time.toNat ≤ s.meridian.toNat :=
  ⟨{ onCore fun c => c.onChannel 5 fun h => { h with wake := { h.wake with cond := 1, time := 9 } } with meridian := 9 }, 0, 5, 0,
    placedRegion, by decide +kernel⟩
theorem witness_task_window : ∃ (num ro ch off : Nat) (value handler : Word) (bytes : List Byte), num ≤ 8 ∧
    csrValueOk num value = true ∧ csrReadOnly num = false ∧ ro ≤ 8 ∧ csrReadOnly ro = true ∧ ch ≤ 127 ∧ handler.toNat % 4 = 0 ∧
    off + bytes.length ≤ 0x400 := ⟨8, 4, 127, 0x3F8, 3, 0x40, [1, 2, 3, 4, 5, 6, 7, 8], by decide +kernel⟩
theorem witness_task_arm : ∀ cond ∈ [1, 2, 3], ∃ (ch : Nat) (value : Word), ch ≤ 127 ∧ wbits value 17 16 = cond ∧
    wbits value 63 19 = 0 ∧ (value.setWidth 16).setWidth 64 &&& wakeReserved cond = 0 := fun cond h =>
  ⟨127, BitVec.ofNat 64 (cond * 2 ^ 16), (by decide +kernel : ∀ cond ∈ [1, 2, 3], 127 ≤ 127 ∧
    wbits (BitVec.ofNat 64 (cond * 2 ^ 16)) 17 16 = cond ∧ wbits (BitVec.ofNat 64 (cond * 2 ^ 16)) 63 19 = 0 ∧
    ((BitVec.ofNat 64 (cond * 2 ^ 16)).setWidth 16).setWidth 64 &&& wakeReserved cond = 0) cond h⟩
theorem witness_task_disarm : ∃ (ch : Nat) (value : Word), wbits value 63 19 = 0 ∧ wbits value 17 16 = 0 ∧
    wbit value 7 = false ∧ ch ≤ 127 := ⟨127, 0x40, by decide +kernel⟩
theorem witness_task_context : ∃ (s : State) (p m off : Nat) (bytes : List Byte) (writer : Writer),
    let ws := touchedWords ((s.parcel p).contextWord m) off bytes
    let c := ws.foldl (fun c e => c.contextSet e.1 e.2) (s.cell p m)
    s.mayUseWindows writer p = true ∧ off + bytes.length ≤ 0x500 ∧ (s.cell p m).mode = .frozen ∧ ws ≠ [] ∧
      (∀ e ∈ ws, c.contextOk e.1 = true) ∧ s.contextFits p m c = true :=
  ⟨onCell fun c => { c with mode := .frozen }, 0, 0, 0x400, [1, 2, 3, 4], .core 0, by decide +kernel⟩
theorem witness_task_queues : ∃ (s u v : State) (p m off : Nat) (bytes : List Byte) (writer : Writer),
    (s.mayUseWindows writer p = true ∧ u.mayUseWindows writer p = true ∧ v.mayUseWindows writer p = true) ∧
    off + bytes.length ≤ 0x400 ∧
    (∀ x ∈ [s, u, v], ∀ e ∈ touchedWords (x.cell p m).queueWindowWord off bytes, (x.cell p m).queueWordOk e.1 e.2 = true) ∧
    (s.cell p m).mode = .frozen ∧ (u.cell p m).mode = .halted ∧ (v.cell p m).mode = .running :=
  ⟨onCell fun c => { c with mode := .frozen }, onCell fun c => { c with mode := .halted }, onCell id, 0, 0, 0x18,
    [1, 2, 3], .core 0, by decide +kernel⟩
/-- A cell that a fault froze at a firing of slot 0. -/
def faulted (f : Cell → Cell) : State := onCell fun c => f { c with mode := .frozen, faultReg := 0x8000000000000000 }
theorem witness_task_faulted : ∃ (s : State) (p m : Nat), (s.cell p m).faulted = true := ⟨faulted id, 0, 0, by decide +kernel⟩
theorem witness_task_skipLate : ∃ (s : State) (p m : Nat) (e : PortEntry) (rest : List PortEntry), (s.cell p m).faulted = true ∧
    (s.cell p m).lateFault = true ∧ (s.cell p m).port = e :: rest :=
  ⟨faulted fun c => { c with faultReg := 0x8000000000800000, port := [⟨.proj false, 0, .c, .reg 0, 0, 0, none, 0⟩] }, 0, 0,
    ⟨.proj false, 0, .c, .reg 0, 0, 0, none, 0⟩, [], by decide +kernel⟩
theorem witness_task_skip : ∃ (s : State) (p m : Nat) (i : Instr) (op : BitVec 8) (w : CellWord),
    ((s.cell p m).faulted = true ∧ (s.cell p m).lateFault = false) ∧
    Decode.cell ((s.cell p m).faultWords ⟨p, m, getF (s.cell p m).faultReg 22 20, getF (s.cell p m).faultReg 19 17⟩).1 = .ok i ∧
    i.cellParts? = some (op, w) := by
  have h : (((faulted fun c => { c with slots := [(0, 0x0014000010020000, 0)] }).cell 0 0).faultWords
    ⟨0, 0, getF ((faulted fun c => { c with slots := [(0, 0x0014000010020000, 0)] }).cell 0 0).faultReg 22 20,
      getF ((faulted fun c => { c with slots := [(0, 0x0014000010020000, 0)] }).cell 0 0).faultReg 19 17⟩).1 =
    0x0014000010020000 := by decide +kernel
  exact ⟨faulted fun c => { c with slots := [(0, 0x0014000010020000, 0)] }, 0, 0, .iadd ⟨1, .oq 0, .reg 1, .reg 2, .rne, false, 0⟩,
    0, ⟨1, .oq 0, .reg 1, .reg 2, .rne, false, 0⟩, by decide +kernel, h ▸ by rfl, by decide +kernel⟩
theorem witness_task_resume : ∀ hung, ∃ (s : State) (p o : Nat) (r : Region), s.regionOf p = some (o, r) ∧ r.hungUp = hung :=
  fun hung => ⟨placed { placedRegion with hungUp := hung }, 0, 0, { placedRegion with hungUp := hung }, by cases hung <;> decide +kernel⟩

/-- A cell with one word in output queue 1, which has a route. -/
def sending (route : Word) (f : Cell → Cell) : State := onCell fun c =>
  f { c with oq := c.oq.set 1 ⟨[dataWord 1 0xFFFF 0], [], [], 0⟩, routes := c.routes.set 1 route }
theorem witness_fabric_delay : ∃ (s : State) (p m q : Nat) (o : Queue) (x : LinkWord) (at_ : Nat) (rest : List (LinkWord × Nat)),
    (s.cell p m).oq.toList[q]? = some o ∧ o.delay = (x, at_) :: rest ∧ s.enginesRun p = true ∧ o.words.length < 8 ∧
      at_ + (s.cell p m).depth (BitVec.ofNat 2 q) ≤ s.meridian.toNat :=
  ⟨{ onCell fun c => { c with oq := c.oq.set 1 ⟨[], [(dataWord 1 0xFFFF 0, 4)], [], 0⟩, routes := c.routes.set 1 0x8005000000000000 }
      with meridian := 9 }, 0, 0, 1, ⟨[], [(dataWord 1 0xFFFF 0, 4)], [], 0⟩, dataWord 1 0xFFFF 0, 4, [], by decide +kernel⟩
theorem witness_fabric_wire : ∃ (s : State) (p m q : Nat) (x : LinkWord) (tp tm tq : Nat),
    (s.cell p m).wires.toList.getD q none = some x ∧ s.routeTarget p m q = some (tp, tm, tq) ∧ s.enginesRun p = true ∧
      (s.cell tp tm).accepts tq x = true :=
  ⟨sending 0x8800000000000000 fun c => { c with wires := c.wires.set 1 (some (dataWord 1 0xFFFF 0)) }, 0, 0, 1, dataWord 1 0xFFFF 0, 0, 1, 0,
    by decide +kernel⟩
theorem witness_fabric_port : ∃ (s : State) (p port : Nat) (x : LinkWord) (rest : List LinkWord),
    let g := (s.parcel p).ingress.toList.getD port 0
    (s.port p port).inbound = x :: rest ∧ s.enginesRun p = true ∧ g.getLsbD 63 = true ∧
      (s.cell p (getF g 62 59)).accepts (getF g 58 57) x = true :=
  ⟨((regs 0 0 0).onPort 0 2 fun w => { w with inbound := [dataWord 1 0xFFFF 0] }).onParcel 0 fun x =>
    { x with ingress := x.ingress.set 2 0x9200000000000000 }, 0, 2, dataWord 1 0xFFFF 0, [], by decide +kernel⟩
theorem witness_fabric_send : ∃ (s : State) (p m q : Nat) (o : Queue) (x : LinkWord) (rest : List LinkWord),
    (s.cell p m).oq.toList[q]? = some o ∧ o.words = x :: rest ∧ s.enginesRun p = true ∧
      ((s.cell p m).routes.toList.getD q 0).getLsbD 63 = true ∧ (s.routeTarget p m q).isSome = true ∧
      (s.cell p m).wires.toList.getD q none = none :=
  ⟨sending 0x8800000000000000 id, 0, 0, 1, ⟨[dataWord 1 0xFFFF 0], [], [], 0⟩, dataWord 1 0xFFFF 0, [], by decide +kernel⟩
theorem witness_fabric_sendPort : ∃ (s : State) (p m q : Nat) (o : Queue) (x : LinkWord) (rest : List LinkWord),
    (s.cell p m).oq.toList[q]? = some o ∧ o.words = x :: rest ∧ s.enginesRun p = true ∧
      ((s.cell p m).routes.toList.getD q 0).getLsbD 63 = true ∧ s.routeTarget p m q = none ∧
      (s.port p (getF ((s.cell p m).routes.toList.getD q 0) 62 59 - 4)).outbound = [] :=
  ⟨sending 0xA000000000000000 id, 0, 0, 1, ⟨[dataWord 1 0xFFFF 0], [], [], 0⟩, dataWord 1 0xFFFF 0, [], by decide +kernel⟩
theorem witness_cell_halts : ∃ (s : State) (p m : Nat), s.enginesRun p = true ∧ (s.cell p m).mode = .running ∧
    (s.cell p m).widening = none ∧ (s.cell p m).headToken 1 = true ∧ s.someSlot p m = false :=
  ⟨queued [tokenWord 1 0] id, 0, 0, by decide +kernel⟩
theorem witness_cell_poisons : ∃ (s : State) (p m : Nat), s.enginesRun p = true ∧ (s.cell p m).mode = .running ∧
    (s.cell p m).headToken 2 = true ∧ s.lateDue p m = none := ⟨queued [tokenWord 2 0] id, 0, 0, by decide +kernel⟩
/-- A cell whose widener holds a word that it took at step 3. -/
def widening (out : Bool) : State := onCell fun c => { c with widening := some ⟨dataWord 1 0xFFFF 0, 1, out, .s, 3⟩ }
theorem witness_cell_widens : ∀ out : Bool, ∃ (s : State) (p m : Nat) (w : Widening), (s.cell p m).widening = some w ∧ w.out = out ∧
    s.enginesRun p = true ∧ (s.cell p m).mode ≠ .frozen ∧ (w.word.token = false ∨ w.word.kind ≠ 2) ∧
    ∀ x ∈ s.innerCells p m, ∀ e ∈ (s.cell x.1 x.2).port, e.writes = true → w.stamp ≤ e.stamp := fun out =>
  ⟨widening out, 0, 0, ⟨dataWord 1 0xFFFF 0, 1, out, .s, 3⟩, (by decide +kernel : ∀ out : Bool,
    ((widening out).cell 0 0).widening = some ⟨dataWord 1 0xFFFF 0, 1, out, .s, 3⟩ ∧ out = out ∧
    (widening out).enginesRun 0 = true ∧ ((widening out).cell 0 0).mode ≠ .frozen ∧
    ((dataWord 1 0xFFFF 0).token = false ∨ (dataWord 1 0xFFFF 0).kind ≠ 2) ∧
    ∀ x ∈ (widening out).innerCells 0 0, ∀ e ∈ ((widening out).cell x.1 x.2).port, e.writes = true → 3 ≤ e.stamp) out⟩
/-- A request at the address port, and a cell whose port holds it. -/
def portEntry (op : PortOp) (va : Word) : PortEntry := ⟨op, va, .d, .queue 1 0, 0, 0, none, 0⟩
def asked (op : PortOp) (va : Word) : State :=
  { onCell fun c => { c with port := [portEntry op va] } with mem := tables, asids := [(0, 0x10001)] }
/-- What a request's hypotheses share: the translation and the read of its 64 bytes. -/
theorem witness_port_load : ∃ (s : State) (p m : Nat) (e : PortEntry) (rest : List PortEntry) (tag : BitVec 4) (a : Mapping)
    (s1 : State) (bs : List Byte) (s2 : State), ((s.cell p m).port = e :: rest ∧ s.portRuns p m = true ∧ e.op = .load tag) ∧
    translate (.cell p m) e.va .read s = .ok a s1 ∧ (∀ x, placeOf a.pa ≠ .host x) ∧
    readAt (.cell p m) e.scope a 64 e.va s1 = .ok bs s2 :=
  ⟨asked (.load 0) 0x20000, 0, 0, portEntry (.load 0) 0x20000, [], 0, _, _, _, _, by decide +kernel, went_eq (by decide +kernel), by
    have h : placeOf (valueOf (translate (.cell 0 0) (portEntry (.load 0) 0x20000).va .read (asked (.load 0) 0x20000))).pa = .hbm := by
      decide +kernel
    intro x; rw [h]; exact nofun, went_eq (by decide +kernel)⟩
theorem witness_port_probe : ∃ (s : State) (p m : Nat) (e : PortEntry) (rest : List PortEntry) (code : Byte) (size pa : Nat)
    (s1 : State), ((s.cell p m).port = e :: rest ∧ s.portRuns p m = true ∧ e.op = .proj false) ∧
    s.probe (.cell p m) e.va .read = (some (code, size, pa), s1) := by
  have h : ((asked (.proj false) 0x20000).probe (.cell 0 0) 0x20000 .read).1.isSome = true := by decide +kernel
  obtain ⟨x, hx⟩ := Option.isSome_iff_exists.mp h
  exact ⟨asked (.proj false) 0x20000, 0, 0, portEntry (.proj false) 0x20000, [], x.1, x.2.1, x.2.2, _, by decide +kernel,
    Prod.ext hx rfl⟩
theorem witness_port_ldv : ∃ (s : State) (p m : Nat) (e : PortEntry) (rest : List PortEntry) (tag : BitVec 4) (a : Mapping)
    (s1 : State) (bs : List Byte) (s2 : State), ((s.cell p m).port = e :: rest ∧ s.portRuns p m = true ∧ e.op = .ldv tag false 0) ∧
    translate (.cell p m) e.va .versionRead s = .ok a s1 ∧
    loadVersion (.cell p m) true e.scope a 64 0 false e.va s1 = .ok (some bs) s2 := by
  have h : (valueOf (loadVersion (.cell 0 0) true .d (valueOf (translate (.cell 0 0) 0x20000 .versionRead (asked (.ldv 0 false 0) 0x20000)))
    64 0 false 0x20000 (stateOf (translate (.cell 0 0) 0x20000 .versionRead (asked (.ldv 0 false 0) 0x20000))))).isSome = true := by
    decide +kernel
  obtain ⟨x, hx⟩ := Option.isSome_iff_exists.mp h
  exact ⟨asked (.ldv 0 false 0) 0x20000, 0, 0, portEntry (.ldv 0 false 0) 0x20000, [], 0, _, _, x, _, by decide +kernel,
    went_eq (by decide +kernel), went_as (by decide +kernel) hx⟩
theorem witness_port_walk : ∃ (s : State) (p m : Nat) (e : PortEntry) (rest : List PortEntry) (tag : BitVec 4) (f : Nat)
    (off : Word) (limit count : Nat) (a : Mapping) (s1 : State) (bs : List Byte) (s2 : State),
    ((s.cell p m).port = e :: rest ∧ s.portRuns p m = true ∧ e.op = .walk tag f off limit count ∧ s.pausing p = false ∧
      (s.cell p m).walkRoom e count = true ∧ e.va.toNat % 64 = 0) ∧ translate (.cell p m) e.va .read s = .ok a s1 ∧
    (∀ x, placeOf a.pa ≠ .host x) ∧ readAt (.cell p m) e.scope a 64 e.va s1 = .ok bs s2 :=
  ⟨asked (.walk 0 1 0 4 0) 0x20000, 0, 0, portEntry (.walk 0 1 0 4 0) 0x20000, [], 0, 1, 0, 4, 0, _, _, _, _, by decide +kernel,
    went_eq (by decide +kernel), by
    have h : placeOf (valueOf (translate (.cell 0 0) (portEntry (.walk 0 1 0 4 0) 0x20000).va .read (asked (.walk 0 1 0 4 0) 0x20000))).pa
      = .hbm := by decide +kernel
    intro x; rw [h]; exact nofun, went_eq (by decide +kernel)⟩
theorem witness_port_late : ∃ (s : State) (p m : Nat) (e : PortEntry) (rest : List PortEntry) (c : Byte) (v : Word) (t : State),
    ((s.cell p m).port = e :: rest ∧ s.portRuns p m = true ∧ e.op = .load 0 ∧ s.takesLate p m = true) ∧
    translate (.cell p m) e.va .read s = .error (.fault c v) t :=
  ⟨asked (.load 0) 0xC0000000, 0, 0, portEntry (.load 0) 0xC0000000, [], codeAbsent, 0xC0000000, _, by decide +kernel,
    stopped_as (by decide +kernel) (by decide +kernel)⟩
theorem witness_hang : ∃ (s : State) (o : Nat) (r : Region), s.regions.find o = some r ∧ r.phase = .running ∧
    r.debugStop = false ∧ r.hungUp = false ∧ (s.core o).hangiv ≠ 0 ∧ (s.core o).hangiv.toNat ≤ r.hang ∧
    ((regionParcels o r).any fun p => (s.parcel p).cells.any fun e => e.2.faulted) = false :=
  ⟨placed { placedRegion with hang := 0x4000000 }, 0, { placedRegion with hang := 0x4000000 }, by decide +kernel⟩

/-- A state whose tensors stand in a segment of its scratchpad. -/
def seen (l : List Legend) (s : State) : State := { legended l s with segments := [(0, segmentOf 0 0x60000)] }
/-- The view address of a place in that segment. -/
def viewAt (off : Nat) : Nat := 2 ^ 56 + off
theorem witness_signal_arrive : ∃ (s : State) (k p n : Nat) (sender : Nat × Nat × Nat),
    s.signals[k]? = some (.arrive p n sender) ∧ (s.parcel p).wasReset = false :=
  ⟨{ regs 0 0 0 with signals := [.arrive 0 63 (0, 1, 2)] }, 0, 0, 63, (0, 1, 2), by decide +kernel⟩
theorem witness_signal_bytes : ∃ (s : State) (k p n b : Nat) (sender : Nat × Nat × Nat),
    s.signals[k]? = some (.bytes p n b sender) ∧ (s.parcel p).wasReset = false :=
  ⟨{ regs 0 0 0 with signals := [.bytes 0 63 64 (0, 1, 2)] }, 0, 0, 63, 64, (0, 1, 2), by decide +kernel⟩
theorem witness_signal_write : ∃ (s : State) (k p : Nat) (runs : List (Nat × List Byte)) (src phase : Nat)
    (sender : Nat × Nat × Nat), s.signals[k]? = some (.write p runs src phase sender) :=
  ⟨{ regs 0 0 0 with signals := [.write 0 [(32, [1])] 1 0 (0, 1, 2)] }, 0, 0, [(32, [1])], 1, 0, (0, 1, 2), by decide +kernel⟩
theorem witness_signal_marker : ∃ (s : State) (k p n src phase count : Nat),
    s.signals[k]? = some (.marker p n src phase count) ∧ (s.parcel p).wasReset = false :=
  ⟨{ regs 0 0 0 with signals := [.marker 0 1 2 0 3] }, 0, 0, 1, 2, 0, 3, by decide +kernel⟩

/-- A state with stream 4 of parcel 0 on port 1, on the tensor of the stream witnesses. -/
def streamed (t : Stream) (w : WidePort) : State :=
  ((seen [entryOf 10 0 0 1 (viewAt 0)] (regs 0 0 0)).onStream 0 4 fun _ => t).onPort 0 1 fun _ => w
def streamOf (state : BitVec 2) (outbound : Bool) (pos : Nat) : Stream :=
  { Stream.reset with state := state, outbound := outbound, control := 0x400, pos := pos }
theorem witness_stream_start : ∃ (s : State) (p slot : Nat), let t := s.stream p slot
    s.enginesRun p = true ∧ t.state = 1 ∧ s.portHolder p t.port t.outbound = .free ∧
    ((s.parcel p).streams.all fun (e : Nat × Stream) =>
      !(e.2.busy && e.2.outbound = t.outbound && e.2.port = t.port && e.2.serial < t.serial)) = true ∧
    (t.waits.all fun n => n ∉ (s.parcel p).liveSerials) = true :=
  ⟨streamed (streamOf 1 false 0) WidePort.reset, 0, 4, by decide +kernel⟩
theorem witness_stream_loader : ∃ (s : State) (p slot : Nat) (x : LinkWord) (u : State), let t := s.stream p slot
    let e := s.streamEntry p t
    let rw := rowWords e t.counts
    (s.enginesRun p = true ∧ t.state = 2 ∧ t.outbound = false ∧ (s.port p t.port).inbound = [] ∧ t.reason ≠ 1 ∧
      t.pos < s.streamTotal p t) ∧
    makeWord p t.scope e t.starts t.counts (patRow t.starts t.counts (t.pos / rw)) (t.pos % rw) s = .ok x u :=
  ⟨streamed (streamOf 2 false 0) WidePort.reset, 0, 4, _, _, by decide +kernel, went_eq (by decide +kernel)⟩
theorem witness_stream_loaderBytes : ∃ (s : State) (p slot : Nat) (bs : List Byte) (u : State), let t := s.stream p slot
    let e := s.streamEntry p t
    let rw := rowWords e t.counts
    let row := patRow t.starts t.counts (t.pos / rw)
    let place := wordPlace e t.starts t.counts (t.pos % rw)
    let base := ((s.regionOf p).bind fun x => s.legendBase x.1 x.2 e).getD 0
    (s.enginesRun p = true ∧ t.state = 2 ∧ t.outbound = false ∧ (s.port p t.port).inbound = [] ∧ t.reason ≠ 1 ∧
      t.pos < s.streamTotal p t ∧ lgIsBlock e = false ∧ s.hasBase p e = true) ∧
    readSpan (.engine p) t.scope (spanFuel place.2.1) (rowAddress base e row place.1) place.2.1 s = .ok bs u :=
  ⟨streamed (streamOf 2 false 0) WidePort.reset, 0, 4, _, _, by decide +kernel, went_eq (by decide +kernel)⟩
theorem witness_stream_storer : ∃ (s : State) (p slot : Nat) (x : LinkWord) (rest : List LinkWord) (u : State),
    let t := s.stream p slot
    let e := s.streamEntry p t
    let rw := rowWords e t.counts
    (s.enginesRun p = true ∧ t.state = 2 ∧ t.outbound = true ∧ t.pos < s.streamTotal p t ∧
      (s.port p t.port).outbound = x :: rest ∧ x.token = false ∧ x.fmt.toNat = lgTag e) ∧
    storeWord p t.scope e t.starts t.counts (patRow t.starts t.counts (t.pos / rw)) (t.pos % rw) x
      (s.onPort p t.port fun w => { w with outbound := rest }) = .ok () u :=
  (went_unit (by decide +kernel)).elim fun u h =>
    ⟨streamed (streamOf 2 true 0) { WidePort.reset with outbound := [dataWord 7 0xFFFF 0] }, 0, 4, dataWord 7 0xFFFF 0, [], u,
      by decide +kernel, h⟩
theorem witness_stream_storerBytes : ∃ (s : State) (p slot : Nat) (x : LinkWord) (rest : List LinkWord) (u : State),
    let t := s.stream p slot
    let e := s.streamEntry p t
    let rw := rowWords e t.counts
    let row := patRow t.starts t.counts (t.pos / rw)
    let place := wordPlace e t.starts t.counts (t.pos % rw)
    let base := ((s.regionOf p).bind fun x => s.legendBase x.1 x.2 e).getD 0
    let taken := s.onPort p t.port fun w => { w with outbound := rest }
    (s.enginesRun p = true ∧ t.state = 2 ∧ t.outbound = true ∧ t.pos < s.streamTotal p t ∧
      (s.port p t.port).outbound = x :: rest ∧ x.token = false ∧ x.fmt.toNat = lgTag e ∧ lgIsTcw e = false ∧ lgIsBlock e = false ∧
      lgFormat e ≠ 19 ∧ taken.hasBase p e = true) ∧
    writeMasked (.engine p) .engine t.scope (rowAddress base e row place.1) ((payloadBytes x.payload).take place.2.1)
      (fun i => validElement (linkMask x) (lgBits e) (i / (lgBits e / 8))) taken = .ok () u :=
  (went_unit (by decide +kernel)).elim fun u h =>
    ⟨streamed (streamOf 2 true 0) { WidePort.reset with outbound := [dataWord 7 0xFFFF 0] }, 0, 4, dataWord 7 0xFFFF 0, [], u,
      by decide +kernel, h⟩
theorem witness_stream_over : ∃ (s : State) (p slot : Nat), let t := s.stream p slot
    s.enginesRun p = true ∧ t.state = 2 ∧ t.reason = 0 ∧ s.streamTotal p t ≤ t.pos :=
  ⟨streamed (streamOf 2 true 1) WidePort.reset, 0, 4, by decide +kernel⟩
theorem witness_stream_faults : ∃ (s : State) (p slot : Nat), let t := s.stream p slot
    s.enginesRun p = true ∧ t.state = 2 ∧ t.pos < s.streamTotal p t :=
  ⟨streamed (streamOf 2 true 0) WidePort.reset, 0, 4, by decide +kernel⟩

/-- A state with Traverse slot 6 of parcel 0 in use. -/
def traversed (t : TravSlot) : State :=
  ((seen [entryOf 2 0 0 1 (viewAt 0x1000)] (regs 0 0 0)).setBuffer 0 5 (setF (setF 0 38 20 64) 63 62 1)).setTrav 0 6 t
def slotAt (kind : TravKind) (control : Word) (pos total : Nat) : TravSlot :=
  ⟨kind, control, List.replicate 32 0, 0, false, pos, total, 0, false, false, none, [], false, []⟩
theorem witness_traverse_land : ∃ (s : State) (p slot : Nat) (t : TravSlot) (n : Nat) (u : State), (s.trav p slot = some t ∧
    s.enginesRun p = true ∧ t.pos < t.total ∧ s.heldBack p slot t = false ∧ t.kind ≠ .feed) ∧ travStep p slot t s = .ok n u :=
  ⟨traversed (slotAt .copy 5 0 1), 0, 6, slotAt .copy 5 0 1, _, _, by decide +kernel, went_eq (by decide +kernel)⟩
theorem witness_traverse_fed : ∃ (s : State) (p slot : Nat) (t : TravSlot), s.trav p slot = some t ∧ s.enginesRun p = true ∧
    t.pos < t.total ∧ s.heldBack p slot t = false ∧ t.kind = .feed ∧ s.tileStarted p slot t = true ∧ s.feedHalted p t = false :=
  ⟨(traversed (slotAt .feed 5 0 1)).setBuffer 0 5 (setF (setF (setF 0 38 20 64) 63 62 1) 61 56 6), 0, 6, slotAt .feed 5 0 1,
    by decide +kernel⟩
theorem witness_landing_fill : ∃ (s : State) (p slot : Nat) (t : TravSlot) (u : State), (s.trav p slot = some t ∧
    s.enginesRun p = true ∧ t.pos < t.total ∧ s.heldBack p slot t = false ∧ t.kind = .fill ∧ t.toTensor = false ∧
      t.fromBuffer = false) ∧
    reserveCheck (.engine p) (s.entryAddress p (s.fillPlace p t t.pos).1 (s.fillPlace p t t.pos).2) 64 (Config.freeWord s.tick) s =
      .ok () u :=
  (went_unit (by decide +kernel)).elim fun u h => ⟨traversed (slotAt .fill 5 0 1), 0, 6, slotAt .fill 5 0 1, u, by decide +kernel, h⟩
theorem witness_landing_over : ∃ (s : State) (p slot : Nat) (t : TravSlot), s.trav p slot = some t ∧ s.enginesRun p = true ∧
    t.done = false ∧ s.travOver p slot t = true ∧ (t.publish = true → t.published = true) ∧ t.fills = false ∧ t.fromBuffer = false ∧ t.follow = none :=
  ⟨traversed (slotAt .copy 0x80 1 1), 0, 6, slotAt .copy 0x80 1 1, by decide +kernel⟩
theorem witness_traverse_ring : ∃ (s : State) (p h slot : Nat) (t : TravSlot),
    ((s.parcel p).travs.find? fun (e : Nat × TravSlot) => e.2.inRing h && h ∈ e.2.notices) = some (slot, t) ∧
    s.enginesRun p = true ∧ bufState (s.buffer p h) = 0 ∧ h < 128 ∧
      let words := max 1 (bufSize (s.buffer p t.handle) / 64)
      let place := (h + 128 - t.handle) % 128
      (t.pos / words / t.ringLen + (if t.pos / words % t.ringLen ≤ place then 0 else 1)) * t.ringLen + place < t.total / words :=
  ⟨traversed { slotAt .feed 0x4000007 1 2 with notices := [8] }, 0, 8, 6, { slotAt .feed 0x4000007 1 2 with notices := [8] },
    by decide +kernel⟩
theorem witness_traverse_ringOver : ∃ (s : State) (p h slot : Nat) (t : TravSlot),
    ((s.parcel p).travs.find? fun (e : Nat × TravSlot) => e.2.inRing h && h ∈ e.2.notices) = some (slot, t) ∧
    s.enginesRun p = true ∧ bufState (s.buffer p h) = 0 ∧ h < 128 ∧
      let words := max 1 (bufSize (s.buffer p t.handle) / 64)
      let place := (h + 128 - t.handle) % 128
      t.total ≤ ((t.pos / words / t.ringLen + (if t.pos / words % t.ringLen ≤ place then 0 else 1)) * t.ringLen + place) * words :=
  ⟨traversed { slotAt .feed 0x4000007 2 2 with notices := [8] }, 0, 8, 6, { slotAt .feed 0x4000007 2 2 with notices := [8] },
    by decide +kernel⟩
/-- The transitions of an entry: taken by a request, full, given back, read first. -/
theorem witness_life_taken : ∃ (slot h k : Nat) (x : TravSlot), slot < 64 ∧ x.fills = true ∧ h < 128 ∧ k < 128 ∧
    (h + 128 - x.handle) % 128 < (if x.kind = .feed then x.ringLen else 1) ∧
    ¬(k + 128 - x.handle) % 128 < (if x.kind = .feed then x.ringLen else 1) :=
  ⟨63, 127, 126, slotAt .fill 0x7F 0 1, by decide +kernel⟩
theorem witness_life_full : ∃ (s : State) (p slot : Nat) (x : TravSlot), s.trav p slot = some x ∧ s.enginesRun p = true ∧
    x.done = false ∧ s.travOver p slot x = true ∧ (x.publish = true → x.published = true) ∧ x.fills = true ∧ x.kind ≠ .feed ∧
    x.shadow = false := ⟨traversed (slotAt .fill 5 1 1), 0, 6, slotAt .fill 5 1 1, by decide +kernel⟩
theorem witness_life_back : ∃ (s : State) (p h slot : Nat) (x : TravSlot), x.fills = true ∧ x.handle = h ∧ x.kind ≠ .feed ∧
    bufState (s.buffer p h) = 1 ∧ bufSlot (s.buffer p h) = slot := ⟨traversed (slotAt .fill 5 0 1), 0, 5, 0, slotAt .fill 5 0 1, by decide +kernel⟩
theorem witness_life_read : ∃ (s : State) (p h : Nat) (e : Effect), e.drain = some (BitVec.ofNat 7 h) ∧
    bufState (s.buffer p h) = 2 :=
  ⟨(regs 0 0 0).setBuffer 0 127 (setF 0 63 62 2), 0, 127, ⟨none, none, none, [], 0, 0, none, none, false, false, some 127, none⟩,
    rfl, by decide +kernel⟩
theorem witness_traverse_followed : ∃ (s : State) (p slot : Nat) (t : TravSlot) (x : Staged) (w : Unit) (u : State),
    (s.trav p slot = some t ∧ t.follow = some x ∧ s.enginesRun p = true ∧ s.travOver p slot t = true ∧
      (t.shadow = true → t.published = true) ∧ (s.gr p).queue.length < 8 ∧ stagedFn x.word = some 4 ∧ wbits x.a 63 32 = 0 ∧
      x.a.toNat &&& grMask 4 = x.a.toNat ∧ (s.gr p).saving = none ∧ (s.gr p).saved = false) ∧ issueStaged p x s = .ok w u :=
  (went_unit (by decide +kernel)).elim fun u h =>
    ⟨traversed { slotAt .copy 0x80 1 1 with done := true, follow := some ⟨0xF9000004, 0x10000, 0⟩ }, 0, 6,
      { slotAt .copy 0x80 1 1 with done := true, follow := some ⟨0xF9000004, 0x10000, 0⟩ }, ⟨0xF9000004, 0x10000, 0⟩, (), u,
      by decide +kernel, h⟩
theorem witness_publish : ∃ (s : State) (k : Nat) (v : Publish) (u : State), (s.publishes[k]? = some v ∧ s.publishDue k v = true) ∧
    publishCheck (.engine v.parcel) v.parcel v.buffer v.index s = .ok () u :=
  (went_unit (by decide +kernel)).elim fun u h =>
    ⟨{ regs 0 0 0 with publishes := [⟨0, true, 5, [], none⟩] }, 0, ⟨0, true, 5, [], none⟩, u, by decide +kernel, h⟩
theorem witness_tile : ∃ (s : State) (k : Nat) (v : RedTile), s.tiles[k]? = some v ∧
    (s.enginesRun v.parcel = true ∨ v.parcel = strayParcel) ∧ v.skip = false :=
  ⟨{ regs 0 0 0 with tiles := [default] }, 0, default, by decide +kernel⟩
theorem witness_tile_stray : ∃ (s : State) (k : Nat) (v : RedTile), s.tiles[k]? = some v ∧ v.parcel = strayParcel ∧ v.skip = false :=
  ⟨{ regs 0 0 0 with tiles := [{ (default : RedTile) with parcel := strayParcel }] }, 0, { (default : RedTile) with parcel := strayParcel },
    by decide +kernel⟩
theorem witness_tile_skip : ∃ (s : State) (k : Nat) (v : RedTile), s.tiles[k]? = some v ∧ s.enginesRun v.parcel = true ∧
    v.skip = true := ⟨{ regs 0 0 0 with tiles := [{ (default : RedTile) with skip := true }] }, 0,
      { (default : RedTile) with skip := true }, by decide +kernel⟩

/-- A state with a Graticule at work on an `f16` tensor. -/
def multiplying (g : Graticule → Graticule) : State := (seen [entryOf 8 0 0 1 (viewAt 0)] (regs 0 0 0)).onGr 0 g
def grCommand (fn : Nat) (control : Word) : GrCommand := ⟨0, fn, control, List.replicate 32 0, 0, false⟩
theorem witness_gr_start : ∃ (s : State) (p : Nat) (c : GrCommand) (rest : List GrCommand), (s.gr p).queue = c :: rest ∧
    s.enginesRun p = true ∧ (s.gr p).running = none ∧ (s.gr p).saving = none ∧ (s.gr p).saved = false ∧ s.pausing p = false ∧
    c.fn = 4 ∧ (s.gr p).tile c.tile ≠ 3 :=
  ⟨multiplying fun g => { g with queue := [grCommand 4 0x10000] }, 0, grCommand 4 0x10000, [], by decide +kernel⟩
/-- A run of a command at its first chunk. -/
def grRun (control : Word) (staged : Nat) (begun : Bool) : GrRun := ⟨grCommand 1 control, 0, 0, staged, begun⟩
/-- What the chunk's hypotheses share. -/
abbrev chunkDue (s : State) (p : Nat) (r : GrRun) : Prop := (s.gr p).running = some r ∧ s.enginesRun p = true ∧
  (s.gr p).saved = false ∧ (s.gr p).saving = none ∧ s.pausing p = false ∧ r.cmd.fn ≠ 2 ∧ s.drainWaits p r.cmd (s.runBlocks p r) = false
theorem witness_gr_begin : ∃ (s : State) (p : Nat) (r : GrRun), chunkDue s p r ∧ r.begun = false ∧
    (s.gr p).tile ((r.cmd.tile + r.tile) % 2) ≠ 3 :=
  ⟨multiplying fun g => { g with running := some (grRun 0 0 false) }, 0, grRun 0 0 false, by decide +kernel⟩
theorem witness_gr_chunk : ∃ (s : State) (p : Nat) (r : GrRun) (t : State), (chunkDue s p r ∧ r.begun = true ∧
    r.cmd.stream = false) ∧ runChunk p r s = .ok () t :=
  (went_unit (by decide +kernel)).elim fun t h =>
    ⟨multiplying fun g => { g with running := some (grRun 0 0 true) }, 0, grRun 0 0 true, t, by decide +kernel, h⟩
/-- What a streamed chunk's hypotheses share. -/
abbrev streamDue (s : State) (p : Nat) (r : GrRun) : Prop := chunkDue s p r ∧ r.begun = true ∧ r.cmd.stream = true ∧
  s.hasLegend p r.cmd.mmA = true ∧
  chunkWords r.cmd (s.legendAt p r.cmd.mmA) ((s.gr p).slotWord r.cmd.slot) r.tile r.chunk ≤ r.staged
/-- The staging area of a run's chunk is not reserved. -/
def stagingFree (s : State) (p : Nat) (r : GrRun) : Bool :=
  let c := r.cmd
  let a := s.legendAt p c.mmA
  let sw := (s.gr p).slotWord c.slot
  went (reserveCheck (.graticule p) (stagingAddress p c a sw r.tile r.chunk 0) (64 * chunkWords c a sw r.tile r.chunk)
    (Config.freeWord s.tick) s)
theorem witness_gr_streamed : ∃ (s : State) (p : Nat) (r : GrRun), streamDue s p r ∧ stagingFree s p r = true ∧
    r.chunk + 1 < kChunks ((s.gr p).slotWord r.cmd.slot) :=
  ⟨multiplying fun g => { g with running := some (grRun 0x2800 256 true), slots := g.slots.set 0 0x4000000 }, 0, grRun 0x2800 256 true,
    by decide +kernel⟩
theorem witness_gr_streamedLast : ∃ (s : State) (p : Nat) (r : GrRun), streamDue s p r ∧ stagingFree s p r = true ∧
    kChunks ((s.gr p).slotWord r.cmd.slot) ≤ r.chunk + 1 ∧
    r.tile + 1 = r.cmd.mTiles * nTiles ((s.gr p).slotWord r.cmd.slot) ∧ r.cmd.autodrain = false :=
  ⟨multiplying fun g => { g with running := some (grRun 0x2800 1 true) }, 0, grRun 0x2800 1 true, by decide +kernel⟩
theorem witness_gr_stream : ∃ (s : State) (p : Nat) (r : GrRun) (x : LinkWord) (rest : List LinkWord), let g := s.gr p
    let c := r.cmd
    let sw := g.slotWord c.slot
    let a := s.legendAt p c.mmA
    let f := r.following sw
    g.running = some r ∧ (s.port p c.port).outbound = x :: rest ∧ s.enginesRun p = true ∧ c.fn = 1 ∧
    c.stream = true ∧ g.saving = none ∧ g.saved = false ∧ s.pausing p = false ∧ x.token = false ∧
    r.staged < chunkWords c a sw r.tile r.chunk + (if f.1 < c.mTiles * nTiles sw then chunkWords c a sw f.1 f.2 else 0) ∧
    x.fmt.toNat = lgTag a ∧
    let place := if r.staged < chunkWords c a sw r.tile r.chunk then stagingOffset c a sw r.tile r.chunk r.staged
      else stagingOffset c a sw f.1 f.2 (r.staged - chunkWords c a sw r.tile r.chunk)
    went (reserveCheck (.graticule p) (windowBase + p * 0x400000 + place) 64 (Config.freeWord s.tick) s) = true :=
  ⟨(multiplying fun g => { g with running := some (grRun 0x2800 0 true) }).onPort 0 1 fun w =>
    { w with outbound := [dataWord 7 0xFFFF 1] }, 0, grRun 0x2800 0 true, dataWord 7 0xFFFF 1, [], by decide +kernel⟩
def grDrain : GrDrain := ⟨0, grCommand 3 0, 0, 0, 0, 0, 1, 1, 0, 0, true⟩
theorem witness_gr_drain : ∃ (s : State) (p : Nat) (d : GrDrain) (rest : List GrDrain) (x : FFlags × BitVec 32) (t : State),
    ((s.gr p).drains = d :: rest ∧ s.enginesRun p = true ∧ s.hasLegend p d.legend = true) ∧
    drainRows p d (s.legendAt p d.legend) d.rows 0 (0, (s.gr p).gen) s = .ok x t :=
  ⟨multiplying fun g => { g with drains := [grDrain] }, 0, grDrain, [], _, _, by decide +kernel, went_eq (by decide +kernel)⟩
theorem witness_gr_drainRow : ∃ (s : State) (p : Nat) (d : GrDrain) (rest : List GrDrain) (t : State),
    let e := s.legendAt p d.legend
    let base := ((s.regionOf p).bind fun x => s.legendBase x.1 x.2 e).getD 0
    let out := convertRow (lgFormat e) (modeOf (bits d.word.toNat 2 0)) d.cmd.ftz
      ((List.range d.cols).map fun j => s.tileCode p d.tile d.tileRow (d.tileCol + j)) (s.gr p).gen
    let data := out.1.flatMap (Decode.leBytes (lgBits e / 8))
    ((s.gr p).drains = d :: rest ∧ s.enginesRun p = true ∧ s.hasLegend p d.legend = true ∧ d.rows = 1 ∧ lgIsBlock e = false ∧
      d.cmd.shadow = false ∧ s.hasBase p e = true) ∧
    writeSpan (.graticule p) d.cmd.scope (spanFuel data.length) (rowAddress base e (d.row0, 0, 0) (elementBit e d.col0)) data s =
      .ok () t :=
  (went_unit (by decide +kernel)).elim fun t h =>
    ⟨multiplying fun g => { g with drains := [grDrain] }, 0, grDrain, [], t, by decide +kernel, h⟩
theorem witness_gr_finished : ∃ (s : State) (p : Nat) (c : GrCommand) (rest : List GrCommand), (s.gr p).finishing = c :: rest ∧
    s.enginesRun p = true ∧ (c.publish = true → s.shadowSerials p false c.target = []) ∧
    went ((if c.publish then publishCheck (.graticule p) p false c.target else pure ()) s) = true :=
  ⟨multiplying fun g => { g with finishing := [grCommand 3 0] }, 0, grCommand 3 0, [], by decide +kernel⟩
theorem witness_gr_finishedShadow : ∃ (s : State) (p : Nat) (c : GrCommand) (rest : List GrCommand), (s.gr p).finishing = c :: rest ∧
    s.enginesRun p = true ∧ c.publish = true ∧ s.shadowSerials p false c.target = [] ∧
    went (publishCheck (.graticule p) p false c.target s) = true :=
  ⟨multiplying fun g => { g with finishing := [grCommand 3 0x180000] }, 0, grCommand 3 0x180000, [], by decide +kernel⟩
theorem witness_gr_faults : ∃ (s u : State) (p : Nat) (r : GrRun) (d : GrDrain) (rest : List GrDrain),
    ((s.gr p).running = some r ∧ s.enginesRun p = true ∧ (s.gr p).saved = false) ∧
    u.enginesRun p = true ∧ (u.gr p).saved = false ∧ (u.gr p).running = none ∧ (u.gr p).drains = d :: rest :=
  ⟨multiplying fun g => { g with running := some (grRun 0 0 true) }, multiplying fun g => { g with drains := [grDrain] }, 0,
    grRun 0 0 true, grDrain, [], by decide +kernel⟩
theorem witness_gr_save : ∃ (s : State) (p : Nat) (c : GrCommand), (s.gr p).saving = some c ∧ s.enginesRun p = true ∧
    (s.gr p).drains = [] ∧ ∀ r, (s.gr p).running = some r → r.interruptible = true :=
  ⟨multiplying fun g => { g with saving := some (grCommand 5 0) }, 0, grCommand 5 0, by decide +kernel, by decide +kernel, by decide +kernel, fun r h => by
    have n : ((multiplying fun g => { g with saving := some (grCommand 5 0) }).gr 0).running = none := by decide +kernel
    rw [n] at h; cases h⟩
/-- A state whose encoder works on a row of four weights. -/
def encoder (rest : List (Nat × Byte)) : State :=
  { (seen [entryOf 9 0 0 4 (viewAt 0), entryOf 18 4 2 4 (viewAt 0x1000), entryOf 9 0 0 1 (viewAt 0x2000)] (regs 0 0 0)).onEnc 0
      fun _ => ⟨1, 0, 0, [0, 0, 1] ++ List.replicate 9 0 ++ [1] ++ List.replicate 19 0, rest, false⟩ with
    provinces := [(0, ⟨[0], [], 0⟩)] }
theorem beginRow_ok {p : Nat} {r : EncRequest} {s t u : State} {v : List Byte × Option Nat} (h : encodeRow p r s = .ok v t)
    (w : writeEncoded p r (((v.1 ++ (v.2.elim [] (Decode.leBytes 2))).zipIdx.map fun x => (x.2, x.1)).filter
      fun x => Config.rowByte s.tick x.1) t = .ok () u) :
    beginRow p r s = .ok (((v.1 ++ (v.2.elim [] (Decode.leBytes 2))).zipIdx.map fun x => (x.2, x.1)).filter
      fun x => !Config.rowByte s.tick x.1) u := by
  simp only [beginRow, bind, EStateM.bind, get, getThe, MonadStateOf.get, EStateM.get, pure, EStateM.pure, h]
  simp only [w]
theorem witness_encoder : ∃ (s : State) (prov p : Nat) (queue : List Nat) (rest : List (Nat × Byte)) (u : State),
    ((s.province prov).encQueue = p :: queue ∧ s.enginesRun p = true ∧ (s.parcel p).enc.rowsDone < (s.parcel p).enc.rows ∧
      (s.parcel p).enc.rest = []) ∧ beginRow p (s.parcel p).enc s = .ok rest u :=
  let e := encodeRow 0 ((encoder []).parcel 0).enc (encoder [])
  have he : e = .ok (valueOf e) (stateOf e) := went_eq (by decide +kernel)
  have hw := ((by decide +kernel : ∀ l ∈ (((valueOf e).1 ++ ((valueOf e).2.elim [] (Decode.leBytes 2))).zipIdx.map
    fun x => (x.2, x.1)).sublists, went (writeEncoded 0 ((encoder []).parcel 0).enc l (stateOf e)) = true))
    _ (List.mem_sublists.mpr (List.filter_sublist (p := fun x : Nat × Byte => Config.rowByte (encoder []).tick x.1)))
  ⟨encoder [], 0, 0, [], _, _, by decide +kernel, beginRow_ok he (went_eq hw)⟩
theorem witness_encoder_byte : ∃ (s : State) (prov p : Nat) (queue : List Nat) (i : Nat) (b : Byte) (u : State),
    let r := (s.parcel p).enc
    let o := s.legendAt p r.outIndex
    let base := ((s.regionOf p).bind fun x => s.legendBase x.1 x.2 o).getD 0
    ((s.province prov).encQueue = p :: queue ∧ s.enginesRun p = true ∧ r.rowsDone < r.rows ∧ r.rest = [(i, b)] ∧
      i < (twBits (lgBlock o) (lgDim o 0) + 7) / 8 ∧ r.shadow = false ∧ s.hasLegend p r.outIndex = true ∧ s.hasBase p o = true) ∧
    writeSpan (.engine p) r.scope (spanFuel 1) (rowAddress base o (lgRow o (r.first + r.rowsDone)) (8 * i)) [b] s = .ok () u :=
  (went_unit (by decide +kernel)).elim fun u h => ⟨encoder [(0, 5)], 0, 0, [], 0, 5, u, by decide +kernel, h⟩
theorem witness_encoder_rest : ∃ (s : State) (prov p : Nat) (queue : List Nat) (u : State),
    ((s.province prov).encQueue = p :: queue ∧ s.enginesRun p = true ∧ (s.parcel p).enc.rowsDone < (s.parcel p).enc.rows ∧
      (s.parcel p).enc.rest ≠ []) ∧ writeEncoded p (s.parcel p).enc (s.parcel p).enc.rest s = .ok () u :=
  (went_unit (by decide +kernel)).elim fun u h => ⟨encoder [(0, 5)], 0, 0, [], u, by decide +kernel, h⟩
theorem witness_encoder_fault : ∃ (s : State) (prov p : Nat) (rest : List Nat) (code : Byte), (s.province prov).encQueue = p :: rest ∧
    s.enginesRun p = true ∧ (s.parcel p).enc.rowsDone < (s.parcel p).enc.rows ∧ outsideCode code = true :=
  ⟨encoder [], 0, 0, [], codeLinkHole, by decide +kernel⟩

theorem witness_end_ask : ∃ (s : State) (k : Nat) (x : Nat × Nat × Word × EndLoc), s.link.asks[k]? = some x :=
  ⟨{ regs 0 0 0 with link := { (regs 0 0 0).link with asks := [(1, 0, 0, ⟨1, 0, 0⟩)] } }, 0, (1, 0, 0, ⟨1, 0, 0⟩), by decide +kernel⟩
/-- A stream whose home is parcel 0, with both ends on its ports. -/
def endStream : EndStream :=
  { (default : EndStream) with
    prod := ⟨0, some ⟨0, 0, 1⟩, false⟩, cons := ⟨0, some ⟨0, 0, 2⟩, false⟩, next := 3, delivered := 2, acked := 1,
    arrived := [(2, dataWord 7 0xFFFF 0)] }
/-- The same with its producer moving away from port 3. -/
def endMoving : EndStream := { endStream with moves := [⟨false, 1, ⟨0, 0, 3⟩, false, false, none⟩] }
def ended (e : EndStream) : State :=
  ((((regs 0 0 0).setEndRecord 0 5 e).onPort 0 1 fun w =>
    { w with outHolder := .endOf 0 5, outbound := [dataWord 8 0xFFFF 0] }).onPort 0 2 fun w => { w with inHolder := .endOf 0 5 })
/-- What the hypotheses of an item's entry share. -/
abbrev entryDue (s : State) (p port h n : Nat) (e : EndStream) (x : LinkWord) (rest : List LinkWord) : Prop :=
  s.portHolder p port true = .endOf h n ∧ (s.port p port).outbound = x :: rest ∧ s.endRecord h n = some e ∧
    s.enginesRun p = true ∧ e.prod.closed = false
theorem witness_end_item : ∃ (s : State) (p port h n : Nat) (e : EndStream) (x : LinkWord) (rest : List LinkWord),
    entryDue s p port h n e x rest ∧ e.orphaned = false ∧ e.active false = some ⟨s.link.number, p, port⟩ ∧
    (foreignOf n = none ∨ e.begun = true) ∧ e.outstanding < e.room :=
  ⟨ended endStream, 0, 1, 0, 5, endStream, dataWord 8 0xFFFF 0, [], by decide +kernel⟩
theorem witness_end_discard : ∃ (s : State) (p port h n : Nat) (e : EndStream) (x : LinkWord) (rest : List LinkWord),
    entryDue s p port h n e x rest ∧ e.orphaned = true :=
  ⟨ended { endStream with orphaned := true }, 0, 1, 0, 5, { endStream with orphaned := true }, dataWord 8 0xFFFF 0, [], by decide +kernel⟩
theorem witness_end_delivery : ∃ (s : State) (p port h n : Nat) (e : EndStream) (x : Nat × LinkWord),
    s.portHolder p port false = .endOf h n ∧ s.endRecord h n = some e ∧
    (e.arrived.find? fun y => y.1 = e.delivered) = some x ∧ s.enginesRun p = true ∧ (s.port p port).inbound = [] ∧
    (foreignOf n = none ∨ e.begun = true ∨ e.orphaned = true) ∧
    (if e.orphaned then e.cons.loc else e.active true) = some ⟨s.link.number, p, port⟩ :=
  ⟨ended endStream, 0, 2, 0, 5, endStream, (2, dataWord 7 0xFFFF 0), by decide +kernel⟩
theorem witness_end_acknowledge : ∃ (s : State) (p n : Nat) (e : EndStream), s.endRecord p n = some e ∧ e.acked < e.delivered ∧
    s.standsStill p = false ∧ e.moves.find? (s.moveReady n e) = none := ⟨ended endStream, 0, 5, endStream, by decide +kernel⟩
theorem witness_end_move : ∃ (s : State) (p n : Nat) (e : EndStream) (m : EndMove), s.endRecord p n = some e ∧
    e.moves.find? (s.moveReady n e) = some m :=
  ⟨ended endMoving, 0, 5, endMoving, ⟨false, 1, ⟨0, 0, 3⟩, false, false, none⟩, by decide +kernel⟩

/-- A state of the Compass witnesses. -/
def querying (q : Query) : State := asking q (regs 0 0 0)
theorem witness_query_admission : ∃ (s : State) (sheet : Nat) (q q1 : Query) (x : LinkWord) (rest : List LinkWord),
    let t := s.sendWaiting sheet q
    s.query sheet = some q ∧ s.queryRuns q = true ∧ t.query sheet = some q1 ∧
    (t.port q.inParcel q.inPort).outbound = x :: rest ∧ q1.admits = true ∧ t.returnsDue sheet = false ∧ x.token = false :=
  ⟨(querying default).onPort 0 0 fun w => { w with outbound := [dataWord 7 0xFFFF 7] }, 0, default, default, dataWord 7 0xFFFF 7, [],
    by decide +kernel⟩
/-- A state with a returned word and perhaps a query. -/
def returned (q : Option Query) : State := { querying default with compasses := [(0, ⟨q, [(0, dataWord 7 0xFFFF 7)]⟩)] }
theorem witness_query_return : ∃ (s u : State) (sheet p : Nat) (x : LinkWord) (rest : List (Nat × LinkWord)) (q : Query),
    ((s.compass sheet).returns = (p, x) :: rest ∧ s.enginesRun p = true ∧ s.query sheet = none) ∧
    (u.compass sheet).returns = (p, x) :: rest ∧ u.enginesRun p = true ∧ u.query sheet = some q ∧ q.record (recId x) = none :=
  ⟨returned none, returned (some default), 0, 0, dataWord 7 0xFFFF 7, [], default, by decide +kernel⟩
def awayQuery : Query :=
  { (default : Query) with records := [⟨dataWord 7 0xFFFF 7, some 1, 0, false⟩], slots := [(1, default)] }
theorem witness_query_observed : ∃ (s : State) (sheet p : Nat) (x : LinkWord) (rest : List (Nat × LinkWord)) (q : Query)
    (r : QueryRecord) (i : Nat) (o : Operator), (s.compass sheet).returns = (p, x) :: rest ∧ s.enginesRun p = true ∧
    s.query sheet = some q ∧ q.record (recId x) = some r ∧ r.away = some i ∧ q.slots.find i = some o ∧ r.waits = false ∧
    o.join = false ∧ recLength x ≤ 56 :=
  ⟨returned (some awayQuery), 0, 0, dataWord 7 0xFFFF 7, [], awayQuery, ⟨dataWord 7 0xFFFF 7, some 1, 0, false⟩, 1, default,
    by decide +kernel⟩
def joinQuery : Query :=
  { (default : Query) with
    joinQueue := [dataWord 7 0xFFFF 7], records := [⟨dataWord 7 0xFFFF 7, some 1, 0, false⟩],
    slots := [(1, { (default : Operator) with join := true })] }
theorem witness_query_join : ∃ (s : State) (sheet : Nat) (q : Query) (x : LinkWord) (rest : List LinkWord) (r : QueryRecord) (i : Nat)
    (o : Operator), s.query sheet = some q ∧ q.joinQueue = x :: rest ∧ s.queryRuns q = true ∧ q.halted = false ∧
    q.record (recId x) = some r ∧ r.away = some i ∧ q.slots.find i = some o ∧ o.size / 2 ≤ 128 * o.fill (recSide x) :=
  ⟨querying joinQuery, 0, joinQuery, dataWord 7 0xFFFF 7, [], ⟨dataWord 7 0xFFFF 7, some 1, 0, false⟩, 1,
    { (default : Operator) with join := true }, by decide +kernel⟩
/-- A query with a join whose table has room for one entry on a side, and one on the other. -/
def roomyOperator : Operator := { (default : Operator) with join := true, size := 256, fill1 := 1 }
def roomyQuery : Query := { joinQuery with slots := [(1, roomyOperator)] }
theorem witness_query_joined : ∃ (s : State) (sheet : Nat) (q : Query) (x : LinkWord) (rest : List LinkWord) (r : QueryRecord) (i : Nat)
    (o : Operator), s.query sheet = some q ∧ q.joinQueue = x :: rest ∧ s.queryRuns q = true ∧ q.halted = false ∧
    q.record (recId x) = some r ∧ r.away = some i ∧ q.slots.find i = some o ∧ 128 * o.fill (recSide x) < o.size / 2 ∧
    went (joinCheck q o (recSide x) s) = true :=
  ⟨querying roomyQuery, 0, roomyQuery, dataWord 7 0xFFFF 7, [], ⟨dataWord 7 0xFFFF 7, some 1, 0, false⟩, 1, roomyOperator,
    by decide +kernel⟩
theorem witness_query_closed : ∃ (s : State) (sheet : Nat) (q : Query), s.query sheet = some q ∧ s.queryRuns q = true ∧
    q.closing.isSome = true ∧ q.records = [] :=
  ⟨querying { (default : Query) with closing := some (0, 1, true) }, 0, { (default : Query) with closing := some (0, 1, true) },
    by decide +kernel⟩
/-- A state whose Scribe reads a source of one byte, an empty map. -/
def sourced (f : Scribe → Scribe) : State :=
  { (seen [] (regs 0 0 0)).onScribe 0 fun _ => f { Scribe.reset with
      state := 1, desc := List.replicate 7 0 ++ [1, 1] ++ List.replicate 23 0, schema := [1, 8] ++ List.replicate 30 0 } with
    mem := [(0x10000000000, 0xA0)] }
theorem witness_scribe_send : ∃ (s : State) (p : Nat), let x := s.scribe p
    s.enginesRun p = true ∧ x.state = 1 ∧ x.decoded = true ∧ x.pending ≠ [] :=
  ⟨sourced fun x => { x with offset := 1, pending := [dataWord 7 0xFFFF 7] }, 0, by decide +kernel⟩
def scanned (r : EStateM.Result Stop State (Except Nat (Except Nat (List Byte) × Nat))) : Bool :=
  match r with
  | .ok (.ok (.ok _, _)) _ => true
  | _ => false
theorem scanned_ok {r : EStateM.Result Stop State (Except Nat (Except Nat (List Byte) × Nat))} (h : scanned r = true) :
    ∃ bs pos u, r = .ok (.ok (.ok bs, pos)) u := by
  unfold scanned at h
  split at h
  · exact ⟨_, _, _, rfl⟩
  · cases h
theorem witness_scribe_decode : ∃ (s : State) (p : Nat) (bs : List Byte) (pos : Nat) (u : State),
    (s.enginesRun p = true ∧ (s.scribe p).state = 1 ∧ (s.scribe p).decoded = false ∧ (s.scribe p).pending = [] ∧
      s.scribeTurn p = true) ∧
    (decodeItem p (s.scribe p)).run s = .ok (.ok (.ok bs, pos)) u :=
  (scanned_ok (by decide +kernel)).elim fun bs h => h.elim fun pos h => h.elim fun u h =>
    ⟨sourced id, 0, bs, pos, u, by decide +kernel, h⟩
theorem witness_scribe_over : ∃ (s : State) (p : Nat), let x := s.scribe p
    s.enginesRun p = true ∧ x.state = 1 ∧ x.decoded = true ∧ x.pending = [] :=
  ⟨sourced fun x => { x with offset := 1 }, 0, by decide +kernel⟩

/-- A state with one segment of a page in parcel 0. -/
def backed (g : Segment) : State := { placed placedRegion with segments := [(3, g)] }
def pageSegment (st : SegState) (target : Option Nat) : Segment :=
  { (segmentOf 0 0x1000) with state := st, count := 0, holder := none, target := target, backing := 0x30000 }
theorem witness_segment_spill : ∃ (s : State) (d : Nat) (g : Segment) (pas : List Nat) (t : State), (s.segment d = some g ∧
    g.state = .spilling ∧ g.target = none) ∧ backingPages g .write s = .ok pas t :=
  ⟨backed (pageSegment .spilling none), 3, pageSegment .spilling none, _, _, by decide +kernel, went_eq (by decide +kernel)⟩
theorem witness_segment_reload : ∃ (s : State) (d o : Nat) (g : Segment) (pas : List Nat) (t : State), (s.segment d = some g ∧
    g.state = .reloading ∧ g.target = some o ∧ s.inTheWay d g o = [] ∧ g.waiting = []) ∧ backingPages g .read s = .ok pas t :=
  ⟨backed (pageSegment .reloading (some 0)), 3, 0, pageSegment .reloading (some 0), _, _, by decide +kernel, went_eq (by decide +kernel)⟩
theorem witness_segment_reloadWaits : ∃ (s : State) (d o : Nat) (g : Segment) (w : PendingAttach) (rest : List PendingAttach)
    (pas : List Nat) (t : State), (s.segment d = some g ∧ g.state = .reloading ∧ g.target = some o ∧ s.inTheWay d g o = [] ∧
    g.waiting = w :: rest) ∧ backingPages g .read s = .ok pas t :=
  ⟨backed { pageSegment .reloading (some 0) with waiting := [⟨0, 0, 3, true, false⟩] }, 3, 0,
    { pageSegment .reloading (some 0) with waiting := [⟨0, 0, 3, true, false⟩] }, ⟨0, 0, 3, true, false⟩, [], _, _, by decide +kernel,
    went_eq (by decide +kernel)⟩
/-- A table that maps four pages of 4096 bytes from address 0, the first of them with one more bit. -/
def fourPages (b : Byte) : Memory :=
  [(0x10000, 1), (0x10008, 0x11), (0x11000, 1), (0x11008, 0x12), (0x12000, 1), (0x12008, 0x13), (0x13000, 1), (0x13008, 0x14),
   (0x14000, 1), (0x14008, 0x15), (0x15000, 0x1B)] ++ (if b = 0 then [] else [(0x15001, b)]) ++
  [(0x15008, 0x20), (0x15010, 0x1B), (0x15018, 0x21), (0x15020, 0x1B), (0x15028, 0x22), (0x15030, 0x1B), (0x15038, 0x23)]
def paged (b : Byte) : State := { placed placedRegion with mem := fourPages b }
theorem witness_table_walk : ∃ (s : State) (asid va sz at_ : Nat) (e : BitVec 128), va < 2 ^ 56 ∧
    s.walk asid va = some (e, sz, at_) ∧ leafMigrating e = false :=
  ⟨paged 0, 0, 0x1000, 12, 0x15010, 0x21000000000000001B, by decide +kernel⟩
def invalidate (dup : Option Nat) (copying : Bool) : Invalidate := ⟨0, 0, 0, 1, 0, false, dup, 0, 0, copying, false⟩
theorem witness_invalidate : ∃ (s : State) (k : Nat) (v : Invalidate), s.invalidates[k]? = some v ∧ v.dup = none :=
  ⟨{ paged 0 with invalidates := [invalidate none false] }, 0, invalidate none false, by decide +kernel⟩
theorem witness_invalidate_dup : ∃ (s : State) (k f : Nat) (v : Invalidate), s.invalidates[k]? = some v ∧ v.dup = some f ∧
    v.copying = false :=
  ⟨{ paged 0 with invalidates := [invalidate (some 0x30) false] }, 0, 0x30, invalidate (some 0x30) false, by decide +kernel⟩
theorem witness_duplicate : ∃ (s : State) (k f sz at_ : Nat) (v : Invalidate) (e : BitVec 128), s.invalidates[k]? = some v ∧
    v.dup = some f ∧ v.copying = true ∧ s.dupLeaf v.asid (BitVec.ofNat 64 v.first) = some (e, sz, at_) :=
  ⟨{ paged 0x10 with invalidates := [invalidate (some 0x30) true] }, 0, 0x30, 12, 0x15000, invalidate (some 0x30) true,
    0x20000000000000101B, by decide +kernel⟩
theorem witness_duplicate_gone : ∃ (s : State) (k f : Nat) (v : Invalidate), s.invalidates[k]? = some v ∧
    v.dup = some f ∧ v.copying = true ∧ s.dupLeaf v.asid (BitVec.ofNat 64 v.first) = none :=
  ⟨{ regs 0 0 0 with invalidates := [invalidate (some 0x30) true] }, 0, 0x30, invalidate (some 0x30) true, by decide +kernel⟩
theorem witness_collapse : ∃ (s : State) (asid va prov sz at_ : Nat) (x : Nat × Nat × Nat) (e : BitVec 128), let page := va / 4096 * 4096
    (s.collapses.find? fun y => y.1 = asid && y.2.1 = page) = some x ∧ x.2.2 = prov ∧
    State.walk { s with collapses := s.collapses.filter fun y => !(y.1 = asid && y.2.1 = page) } asid page = some (e, sz, at_) ∧
    leafDup e = true ∧ leafMigrating e = false :=
  ⟨{ paged 8 with collapses := [(0, 0, 2)] }, 0, 0x44, 2, 12, 0x15000, (0, 0, 2), 0x20000000000000081B, by decide +kernel⟩
/-- A set at work, whose one entry names the page at address 0 and 128 stored bytes. -/
def setWith (state : BitVec 3) (landed : List Nat) : PageSet :=
  { (default : PageSet) with
    state := state, count := 1, pages := 1, entries := [BitVec.ofNat 128 (128 * 2 ^ 81 + 2 * 2 ^ 70)], landed := landed }
def sounding (x : PageSet) : State :=
  { paged 0 with sets := [(7, x)], deep := (List.range 128).map fun i => (i, 0x7F) }
theorem losslessCode_length (w : Nat) (page : List Byte) : (losslessCode w page).1.length ≤ max page.length 16384 := by
  unfold losslessCode
  dsimp only
  split
  · exact Nat.le_max_left _ _
  · show List.length (List.flatMap _ _) ≤ _; omega
theorem compressPage_length {e : BitVec 128} (h : entryFormat e = 2) (page : List Byte) :
    (compressPage e page).1.length ≤ max page.length 16384 := by
  simp only [compressPage, h, if_true]; exact losslessCode_length _ _
theorem pagesRead_length (pas : List Nat) (t : State) : (pas.flatMap fun pa => t.homeRead pa 4096).length = 4096 * pas.length := by
  induction pas with
  | nil => rfl
  | cons a l ih => rw [List.flatMap_cons, List.length_append, ih]; simp [State.homeRead, Memory.bytes]; omega
/-- The set with an extent of two deep pages. -/
def wideSet : PageSet := { setWith 2 [] with pages := 2 }
theorem witness_set_store : ∃ (s : State) (n : Nat) (pas : List Nat) (t : State), let x := s.pageSet n
    let k := x.landed.length
    let e := x.entries.getD k 0
    (x.state = 2 ∧ k < x.count) ∧ pagePieces x e .read s = .ok pas t ∧
    64 * x.offset + (compressPage e (pas.flatMap fun pa => t.homeRead pa 4096)).1.length ≤ 16384 * x.pages := by
  let r := pagePieces wideSet (wideSet.entries.getD wideSet.landed.length 0) .read (sounding wideSet)
  have hx : (sounding wideSet).pageSet 7 = wideSet := by decide +kernel
  refine ⟨sounding wideSet, 7, valueOf r, stateOf r, ?_⟩
  rw [hx]
  refine ⟨by decide +kernel, went_eq (by decide +kernel), ?_⟩
  have hn : (valueOf r).length = 4 := by decide +kernel
  have hc := compressPage_length (e := wideSet.entries.getD wideSet.landed.length 0) (by decide +kernel)
    ((valueOf r).flatMap fun pa => (stateOf r).homeRead pa 4096)
  rw [pagesRead_length, hn] at hc
  exact Nat.le_trans (Nat.add_le_add_left hc _) (by decide)
theorem witness_set_table : ∃ (s : State) (n pa : Nat) (e : BitVec 128) (t : State), let x := s.pageSet n
    (x.state = 2 ∧ x.count = 1 ∧ x.landed.length = 1 ∧ x.entries = [e]) ∧ setAddress x x.table .write s = .ok pa t :=
  ⟨sounding (setWith 2 [0]), 7, _, BitVec.ofNat 128 (128 * 2 ^ 81 + 2 * 2 ^ 70), _, by decide +kernel, went_eq (by decide +kernel)⟩
theorem witness_set_out : ∃ (s : State) (n : Nat) (t : State), let x := s.pageSet n
    (x.state = 2 ∧ x.count ≤ x.landed.length) ∧ storeTable x s = .ok () t :=
  (went_unit (by decide +kernel)).elim fun t h => ⟨sounding (setWith 2 [0]), 7, t, by decide +kernel, h⟩
theorem witness_set_land : ∃ (s : State) (n k : Nat) (pg : List Byte × FFlags) (pas : List Nat) (t : State), let x := s.pageSet n
    let e := x.entries.getD k 0
    (x.state = 4 ∧ k < x.count ∧ k ∉ x.landed ∧ 64 * entryOffset e + entryLength e ≤ 16384 * x.pages) ∧
    expandPage e (s.deep.bytes (x.deepAddress (entryOffset e)) (entryLength e)) = some pg ∧ pagePieces x e .write s = .ok pas t :=
  ⟨sounding (setWith 4 []), 7, 0, _, _, _, by decide +kernel, Option.eq_some_of_isSome (by decide +kernel), went_eq (by decide +kernel)⟩
theorem witness_set_in : ∃ (s : State) (n : Nat), let x := s.pageSet n
    x.state = 4 ∧ x.count ≤ x.landed.length ∧ x.failed = none := ⟨sounding (setWith 4 [0]), 7, by decide +kernel⟩
theorem witness_set_lost : ∃ (s : State) (n k : Nat), let x := s.pageSet n
    x.state = 4 ∧ x.count ≤ x.landed.length ∧ x.failed = some k :=
  ⟨sounding { setWith 4 [0] with failed := some 0 }, 7, 0, by decide +kernel⟩
theorem witness_set_faults : ∃ (s : State) (n : Nat) (code : Byte), (s.pageSet n).busy = true ∧
    ((s.pageSet n).state ≠ 4 ∨ code ≠ codeDeepMedia) := ⟨sounding (setWith 2 []), 7, codeDeepMedia, by decide +kernel⟩

/-- A cell with a `HIN` slot that names doorbell 2. -/
def ringing (l : List Word) : State :=
  { onCell fun c => { c with slots := [(0, (0xE70400201E000002, 0))] } with
    host := { State.reset.host with doorbells := [(2, l)] } }
theorem witness_doorbell_write : ∃ (s : State) (off k : Nat) (r : Region), s.doorbellRegion (off / 0x1000) = some (k, r) ∧
    s.boot.phase = .running ∧ off % 0x40 = 0 ∧
    (s.host.doorbells.look ([] : List Word) (k * 64 + off % 0x1000 / 0x40)).length < 16 ∧
    (s.ingressNode k r (off % 0x1000 / 0x40)).isSome = true :=
  ⟨ringing (List.replicate 15 5), 0x80, 0, placedRegion, by decide +kernel⟩
theorem witness_doorbell_deliver : ∃ (s : State) (o db p m q : Nat) (r : Region) (v : Word) (rest : List Word),
    s.regions.find o = some r ∧ s.host.doorbells.look ([] : List Word) (o * 64 + db) = v :: rest ∧
    s.ingressNode o r db = some (p, m, q) ∧ s.enginesRun p = true ∧ s.pausing p = false ∧ (s.cell p m).accepts q (ingressToken v) = true :=
  ⟨ringing [5, 6], 0, 2, 0, 0, 1, placedRegion, 5, [6], by decide +kernel⟩
theorem witness_host_window : ∃ (s : State) (off size : Nat) (bytes : List Byte), s.barsUp = true ∧ off + size ≤ hbmBytes ∧
    off + bytes.length ≤ hbmBytes := ⟨regs 0 0 0, hbmBytes - 8, 8, List.replicate 8 1, by decide +kernel⟩
theorem witness_host_completion : ∃ (s : State) (tag : Nat) (data : List Byte), (s.host.requests.find tag).isSome = true ∧
    data.length = s.requestBytes tag :=
  ⟨{ regs 0 0 0 with host := { State.reset.host with requests := [(4, .coreLoad 0 3 8 false 0x80000000 0)] } }, 4, List.replicate 8 1,
    by decide +kernel⟩
theorem witness_host_kick : ∃ (off : Nat) (bytes : List Byte), bytes.length = 8 ∧ off < 0x1000000 ∧ off % 0x1000 = 0 :=
  ⟨0xFFF000, List.replicate 8 1, by decide⟩
theorem witness_host_control : ∀ x ∈ [(0x1000000, Writer.cartouche), (0x103FFF8, .cartouche), (0x1040000, .debugger),
    (0x109FFF8, .debugger), (0x10A0000, .cartouche)], 0x1000000 ≤ x.1 ∧ x.1 + 8 ≤ 0x10A0008 ∧ x.1 % 8 = 0 ∧
    (if 0x1040000 ≤ x.1 ∧ x.1 < 0x10A0000 then privileged x.2 = true else x.2 = .cartouche) := by decide
theorem witness_host_refused : ∀ x ∈ [(0x1000000, Writer.debugger), (0x103FFF8, .host)], 0x1000000 ≤ x.1 ∧ x.1 + 8 ≤ 0x1040000 ∧
    x.2 ≠ .cartouche := by decide
/-- A running part whose port 0 has trained. -/
def linked : State := { regs 0 0 0 with link := State.reset.link.onPort 0 fun x => { x with working := true } }
theorem witness_link_flit : ∃ (s : State) (port : Nat) (good bad : Flit), s.boot.phase = .running ∧
    (s.link.port port).working = true ∧ good.crcOk = true ∧ good.kind = .data ∧ good.seq = (s.link.port port).expected ∧
    bad.crcOk = false :=
  ⟨linked, 0, { (default : Flit) with crcOk := true, kind := .data }, { (default : Flit) with crcOk := false }, by decide +kernel⟩
theorem witness_link_others : ∀ kind ∈ [FlitKind.hole, .replay], ∃ (s : State) (port : Nat) (flit : Flit), s.boot.phase = .running ∧
    (s.link.port port).working = true ∧ flit.crcOk = true ∧ flit.kind = kind ∧ flit.seq = (s.link.port port).expected :=
  fun kind _ => ⟨linked, 0, { (default : Flit) with crcOk := true, kind := kind }, by decide +kernel, by decide +kernel, rfl, rfl, (by decide +kernel :
    (default : Flit).seq = (linked.link.port 0).expected)⟩
theorem witness_link_system : ∃ (s : State) (x y z number : Nat), s.boot.phase = .running ∧ torusSize x = true ∧
    torusSize y = true ∧ torusSize z = true ∧ x * y * z ≤ 16384 ∧ number < x * y * z :=
  ⟨linked, 32, 32, 16, 16383, by decide +kernel⟩
theorem witness_debug_run : ∃ s : State, s.debugger.launch = none := ⟨regs 0 0 0, by decide +kernel⟩
/-- A state whose region is the debugger's, stopped at a task of parcel 0. -/
def debugging : State :=
  { placed { placedRegion with launch := 9, debugStop := true } with
    debugger := { State.reset.debugger with launch := some 9, stop := some (.task 0 0x40) } }
theorem witness_debug_stopped : ∃ s : State, s.stoppedParcels ≠ [] ∧ s.stoppedTask = some 0 := ⟨debugging, by decide +kernel⟩
theorem witness_debug_session : ∃ (s : State) (o : Nat) (r : Region), s.session = some (o, r) :=
  ⟨debugging, 0, { placedRegion with launch := 9, debugStop := true }, by decide +kernel⟩
theorem witness_debug_control : ∃ (s : State) (p num : Nat) (v : Word), s.stoppedTask = some p ∧ s.csrRead p num = some v :=
  ⟨debugging, 0, 8, 0, by decide +kernel⟩
theorem witness_debug_step : ∃ s : State, s.stoppedParcels ≠ [] ∧ s.stoppedTask = none :=
  ⟨{ debugging with debugger := { debugging.debugger with stop := none } }, by decide +kernel⟩
theorem witness_debug_queue : ∃ (s : State) (q : Nat) (bs : List Byte) (t : State),
    frontRead (q % 8) (s.shadow q).asid.toNat (s.shadow q).user 16 s = .ok bs t :=
  ⟨{ debugging with queues := [(3, { QueueShadow.reset with user := 0x20000 })] }, 3, _, _, went_eq (by decide +kernel)⟩
theorem witness_debug_operands : ∃ n < 16, ∃ m < 8, n = 15 ∧ m = 7 := ⟨15, by decide, 7, by decide, rfl, rfl⟩

end Sys2Proof.Tests
end

/-! The proofs of the obligations about loaded values, memory read-back and the canonical form of memory. -/

namespace Sys2Proof.Proofs

open Sys2Proof Sys2Proof.Machine Sys2Proof.Laws

/-! ### Little-endian values and their extension -/

/-- The number that `k` bytes hold takes at most `8 * k` bits. -/
theorem leNat_lt (bs : List Byte) : Decode.leNat bs < 2 ^ (8 * bs.length) := by
  induction bs with
  | nil => simp [Decode.leNat]
  | cons b bs ih =>
    have hb : b.toNat < 2 ^ 8 := b.isLt
    simp only [Decode.leNat, List.length_cons]
    rw [show 8 * (bs.length + 1) = 8 * bs.length + 8 by ring, pow_add]
    omega

/-- Without a sign, the loaded value is the number that the bytes hold. -/
theorem toNat_extend_false (bs : List Byte) (hw : 8 * bs.length ≤ 64) :
    (extend false bs).toNat = Decode.leNat bs :=
  Nat.mod_eq_of_lt (lt_of_lt_of_le (leNat_lt bs) (Nat.pow_le_pow_right (by decide) hw))

/-- The signed reading of a `w`-bit number subtracts `2 ^ w` exactly when its top bit stands. -/
theorem toInt_ofNat_of_lt {n w : Nat} (hw : 0 < w) (hn : n < 2 ^ w) :
    (BitVec.ofNat w n).toInt = if n.testBit (w - 1) then (n : Int) - 2 ^ w else n := by
  have htop : w - 1 < w := by omega
  simp only [BitVec.toInt_eq_msb_cond, BitVec.msb_eq_getLsbD_last, BitVec.getLsbD_ofNat, htop, decide_true, Bool.true_and,
    BitVec.toNat_ofNat, Nat.mod_eq_of_lt hn, Nat.cast_pow, Nat.cast_ofNat]

/-- With a sign, the loaded value is the sign extension of the number that the bytes hold. -/
theorem extend_true (bs : List Byte) (hpos : 0 < bs.length) :
    extend true bs = (BitVec.ofNat (8 * bs.length) (Decode.leNat bs)).signExtend 64 := by
  rw [BitVec.signExtend, toInt_ofNat_of_lt (by omega) (leNat_lt bs)]
  simp only [extend, Bool.true_and]
  split
  · rfl
  · exact (BitVec.ofInt_natCast 64 _).symm

/-- Settles O13: an access is of at most 8 bytes, so both readings fit the 64-bit register. -/
theorem loadExtension : Obligations.LoadExtension := by
  intro bs hlen
  refine ⟨toNat_extend_false bs (by omega), ?_⟩
  rw [extend_true bs (by omega)]
  exact BitVec.toInt_signExtend_of_le (by omega)

/-! ### What a write to memory leaves -/

/-- A write leaves every byte below it and above it. -/
theorem get_write_outside {m : Memory} (hm : m.wf = true) (a : Nat) (bs : List Byte) {j : Nat}
    (hj : j < a ∨ a + bs.length ≤ j) : (m.write a bs).get j = m.get j := by
  induction bs generalizing m a with
  | nil => rfl
  | cons b bs ih =>
    rw [List.length_cons] at hj
    calc (m.write a (b :: bs)).get j = (m.set a b).get j := ih (wf_set a b hm) (a + 1) (by omega)
      _ = m.get j := by rw [get_set hm, if_neg (by omega)]

/-- The bytes from `a` are the one at `a` and those from `a + 1`. -/
theorem bytes_succ (m : Memory) (a n : Nat) : m.bytes a (n + 1) = m.get a :: m.bytes (a + 1) n := by
  simp [Memory.bytes, List.range_succ_eq_map, Function.comp_def, Nat.add_assoc, Nat.add_comm 1]

/-- A write reads back as the bytes written. -/
theorem bytes_write {m : Memory} (hm : m.wf = true) (a : Nat) (bs : List Byte) :
    (m.write a bs).bytes a bs.length = bs := by
  induction bs generalizing m a with
  | nil => rfl
  | cons b bs ih =>
    have hset : (m.set a b).wf = true := wf_set a b hm
    have hfirst : (m.write a (b :: bs)).get a = b := by
      calc (m.write a (b :: bs)).get a = (m.set a b).get a := get_write_outside hset (a + 1) bs (by omega)
        _ = b := by rw [get_set hm, if_pos rfl]
    have hrest : (m.write a (b :: bs)).bytes (a + 1) bs.length = bs := ih hset (a + 1)
    rw [List.length_cons, bytes_succ, hfirst, hrest]

/-- Settles O50, by induction on the bytes written: each one lands on a memory still in canonical form. -/
theorem memoryReadBack : Obligations.MemoryReadBack :=
  fun _ a bs hm => ⟨wf_write a bs hm, bytes_write hm a bs, fun _ hj => get_write_outside hm a bs hj⟩

/-! ### The canonical form through one step: what carries it

`Kept s` says that both memories of `s` are in canonical form. Every function that a step calls keeps it, because it
writes memory only through `Memory.set`, `Memory.write` and `List.filter`. What follows proves this once per function,
in the model's own order, each proof citing the lemmas of the functions that its definition calls. A lemma's name tells
what the function returns: `kept_f` for a state, `keeps_f` for a piece of an instruction's effect, `keptOk_f` for a
state or a refusal, and `keptOut_f` for the outcome of a step. Where a proof is `unfold f; grind [..]`, `grind` splits
the branches of `f` and the cited lemmas answer each one. -/

/-- A piece of an instruction's effect keeps the form, whether it completes, faults or waits. -/
structure Keeps {α : Type} (k : Act α) : Prop where
  run : ∀ s, Kept s → (∀ a t, k s = .ok a t → Kept t) ∧ ∀ x t, k s = .error x t → Kept t

/-- A state that comes with no refusal is in the form. -/
structure KeptOk {ε : Type} (x : Except ε State) : Prop where
  kept : ∀ t, x = .ok t → Kept t

/-- The next state of an outcome is in the form. -/
structure KeptOut (x : Host.Outcome State Fault Refusal) : Prop where
  kept : ∀ t, x = .next t → Kept t

section

variable {α β ε : Type} {s : State}

/-! ### States -/

/-- A record update that leaves both memories alone keeps the form. It is stated of the constructor, so that it applies
whichever fields the update names. -/
theorem kept_with (h : Kept s)
    {a b c d e f g i j k l m n o p q r t u v w x y z a' b' c' d' e' f' g' i' j' k' l' m' n' o' p' q' r'} :
    Kept ⟨a, b, c, s.mem, s.deep, d, e, f, g, i, j, k, l, m, n, o, p, q, r, t, u, v, w, x, y, z, a', b', c', d', e', f',
      g', i', j', k', l', m', n', o', p', q', r'⟩ := h

/-- A record update of the memories keeps the form when the new memories have it. -/
theorem kept_mk {mem deep : Memory} (hm : mem.wf = true) (hd : deep.wf = true)
    {a b c d e f g i j k l m n o p q r t u v w x y z a' b' c' d' e' f' g' i' j' k' l' m' n' o' p' q' r'} :
    Kept ⟨a, b, c, mem, deep, d, e, f, g, i, j, k, l, m, n, o, p, q, r, t, u, v, w, x, y, z, a', b', c', d', e', f', g',
      i', j', k', l', m', n', o', p', q', r'⟩ := ⟨hm, hd⟩

theorem mem_wf_of_kept (h : Kept s) : s.mem.wf = true := h.1
theorem deep_wf_of_kept (h : Kept s) : s.deep.wf = true := h.2

/-- Storing the bytes of several runs keeps the canonical form. -/
theorem wf_writeAll (f : Nat → Nat) (runs : List (Nat × List Byte)) {m : Memory} (hm : m.wf = true) :
    (runs.foldl (fun (m : Memory) r => m.write (f r.1) r.2) m).wf = true := by
  induction runs generalizing m with
  | nil => exact hm
  | cons r rs ih => exact ih (wf_write _ _ hm)

/-- Storing listed bytes at their translated addresses keeps the canonical form. -/
theorem wf_setAll (f : Nat → Nat) (l : List (Nat × Byte)) {m : Memory} (hm : m.wf = true) :
    (l.foldl (fun (m : Memory) e => m.set (f e.1) e.2) m).wf = true := by
  induction l generalizing m with
  | nil => exact hm
  | cons e l ih => exact ih (wf_set _ _ hm)

/-- Storing a selection of another memory's cells keeps the canonical form. -/
theorem wf_place (f : Host.Cell → Bool) (g : Host.Cell → Nat) (l : Memory) {m : Memory} (hm : m.wf = true) :
    (l.foldl (fun (m : Memory) c => if f c then m else m.set (g c) c.2) m).wf = true := by
  induction l generalizing m with
  | nil => exact hm
  | cons c l ih =>
    rw [List.foldl_cons]
    refine ih ?_
    split
    · exact hm
    · exact wf_set _ _ hm

theorem kept_ite {c : Prop} [Decidable c] {t : State} (hs : Kept s) (ht : Kept t) : Kept (if c then s else t) := by
  split <;> assumption

theorem kept_elim (h : Kept s) {o : Option α} {f : α → State} (hf : ∀ a, Kept (f a)) : Kept (o.elim s f) := by
  cases o with
  | none => exact h
  | some a => exact hf a

/-- `Kept.foldl` with the start first, as the lemmas below take their states. -/
theorem kept_foldl {f : State → α → State} (h : Kept s) (hf : ∀ s a, Kept s → Kept (f s a)) (l : List α) :
    Kept (l.foldl f s) := Kept.foldl hf l s h

theorem kept_foldl_fst {f : State × β → α → State × β} (hf : ∀ x a, Kept x.1 → Kept (f x a).1) (l : List α)
    (x : State × β) (hx : Kept x.1) : Kept (l.foldl f x).1 := by
  induction l generalizing x with
  | nil => exact hx
  | cons a l ih => exact ih _ (hf x a hx)

/-! ### Pieces of an instruction's effect -/

theorem kept_of_result_ok {t : State} (h : Kept t) (a : α) :
    (∀ a' t', (.ok a t : EStateM.Result Stop State α) = .ok a' t' → Kept t') ∧
      ∀ x t', (.ok a t : EStateM.Result Stop State α) = .error x t' → Kept t' :=
  ⟨fun _ _ e => by cases e; exact h, fun _ _ e => by cases e⟩

theorem kept_of_result_error {t : State} (h : Kept t) (x : Stop) :
    (∀ a t', (.error x t : EStateM.Result Stop State α) = .ok a t' → Kept t') ∧
      ∀ x' t', (.error x t : EStateM.Result Stop State α) = .error x' t' → Kept t' :=
  ⟨fun _ _ e => (by cases e), fun _ _ e => by cases e; exact h⟩

theorem keeps_pure (a : α) : Keeps (pure a : Act α) := ⟨fun _ h => kept_of_result_ok h a⟩
theorem keeps_throw (x : Stop) : Keeps (throw x : Act α) := ⟨fun _ h => kept_of_result_error h x⟩
theorem keeps_raise (c v) : Keeps (raise c v : Act α) := keeps_throw _

theorem keeps_modify {f : State → State} (hf : ∀ s, Kept s → Kept (f s)) : Keeps (modify f : Act PUnit) :=
  ⟨fun s h => kept_of_result_ok (hf s h) _⟩

theorem keeps_set (h : Kept s) : Keeps (set s : Act PUnit) := ⟨fun _ _ => kept_of_result_ok h _⟩

theorem keeps_get {f : State → Act β} (hf : ∀ s, Kept s → Keeps (f s)) : Keeps (get >>= f) :=
  ⟨fun s h => (hf s h).run s h⟩

theorem keeps_bind {k : Act α} {f : α → Act β} (hk : Keeps k) (hf : ∀ a, Keeps (f a)) : Keeps (k >>= f) := by
  refine ⟨fun s h => ?_⟩
  have hs := hk.run s h
  simp only [bind, EStateM.bind]
  cases e : k s with
  | ok a t => exact (hf a).run t (hs.1 a t e)
  | error x t => exact kept_of_result_error (hs.2 x t e) x

theorem keeps_mapM {f : α → Act β} (hf : ∀ a, Keeps (f a)) (l : List α) : Keeps (l.mapM f) := by
  induction l with
  | nil => exact keeps_pure []
  | cons a l ih =>
    rw [List.mapM_cons]
    exact keeps_bind (hf a) fun _ => keeps_bind ih fun _ => keeps_pure _

theorem keeps_forM {f : α → Act PUnit} (hf : ∀ a, Keeps (f a)) (l : List α) : Keeps (l.forM f) := by
  induction l with
  | nil => exact keeps_pure ()
  | cons a l ih => exact keeps_bind (hf a) fun _ => ih

theorem keeps_foldlM {f : β → α → Act β} (hf : ∀ b a, Keeps (f b a)) (l : List α) (b : β) :
    Keeps (l.foldlM f b) := by
  induction l generalizing b with
  | nil => exact keeps_pure b
  | cons a l ih => rw [List.foldlM_cons]; exact keeps_bind (hf b a) fun c => ih c

/-! ### The Scribe's reader, which may run out of bytes -/

theorem keeps_scan_pure (a : α) : Keeps (pure a : Scan α).run := keeps_pure _
theorem keeps_scan_throw (n : Nat) : Keeps (throw n : Scan α).run := keeps_pure _

theorem keeps_scan_bind {k : Scan α} {f : α → Scan β} (hk : Keeps k.run) (hf : ∀ a, Keeps (f a).run) :
    Keeps (k >>= f).run := by
  refine keeps_bind hk fun x => ?_
  cases x with
  | ok a => exact hf a
  | error e => exact keeps_pure _

/-! ### States that may be refused, and outcomes -/

theorem keptOk_ok (h : Kept s) : KeptOk (.ok s : Except ε State) := ⟨fun _ e => by cases e; exact h⟩
theorem keptOk_error (x : ε) : KeptOk (.error x : Except ε State) := ⟨fun _ e => by cases e⟩

theorem keptOk_bind {k : Except ε α} {f : α → Except ε State} (hf : ∀ a, KeptOk (f a)) : KeptOk (k >>= f) := by
  cases k with
  | ok a => exact hf a
  | error x => exact keptOk_error x

theorem keptOk_bind_state {k : Except ε State} {f : State → Except ε State} (hk : KeptOk k)
    (hf : ∀ s, Kept s → KeptOk (f s)) : KeptOk (k >>= f) := by
  cases k with
  | ok s => exact hf s (hk.kept s rfl)
  | error x => exact keptOk_error x

theorem keptOk_foldlM {f : State → α → Except ε State} (hf : ∀ s a, Kept s → KeptOk (f s a)) (l : List α)
    (h : Kept s) : KeptOk (l.foldlM f s) := by
  induction l generalizing s with
  | nil => exact keptOk_ok h
  | cons a l ih => rw [List.foldlM_cons]; exact keptOk_bind_state (hf s a h) fun t k => ih k

/-- A refused state raises its code; a state that is not refused becomes the state. -/
theorem keeps_orRaise_set (value) {x : Except Byte State} (hx : KeptOk x) :
    Keeps (orRaise value x >>= fun t => set t) := by
  cases x with
  | ok t => exact keeps_set (hx.kept t rfl)
  | error c => exact keeps_raise c value

theorem keptOut_next (h : Kept s) : KeptOut (.next s) := ⟨fun _ e => by cases e; exact h⟩

/-! ### The functions of `Machine/Maps.lean` -/

theorem keeps_check (ok code value) : Keeps (Machine.check ok code value) := by
  unfold Machine.check
  grind [keeps_pure, keeps_raise]

/-! ### The functions of `Machine/Memory.lean` -/

theorem kept_onParcel (h : Kept s) (p f) : Kept (s.onParcel p f) := h
theorem kept_onCore (h : Kept s) (p f) : Kept (s.onCore p f) := h
theorem kept_onCell (h : Kept s) (p m f) : Kept (s.onCell p m f) := h
theorem kept_onRegion (h : Kept s) (o f) : Kept (s.onRegion o f) := h
theorem kept_bump (h : Kept s) (sector k) : Kept (s.bump sector k) := (sameMem_bump ..).kept h
theorem kept_setLine (h : Kept s) (key sector l) : Kept (s.setLine key sector l) := (sameMem_setLine ..).kept h

theorem kept_fill (h : Kept s) (u lvl sector path) : Kept (s.fill u lvl sector path) := by
  induction path with
  | nil => exact h
  | cons e rest ih =>
    unfold State.fill
    grind [kept_setLine]

theorem kept_scopedRead (h : Kept s) (u sc noalloc pa n) : Kept (s.scopedRead u sc noalloc pa n).2 := by
  unfold State.scopedRead
  grind [kept_fill, kept_foldl]

theorem kept_acquire (h : Kept s) (u sc) : Kept (s.acquire u sc) := (sameMem_acquire ..).kept h

theorem kept_evictLine (h : Kept s) (key sector) : Kept (s.evictLine key sector) := by
  unfold State.evictLine
  grind [kept_setLine, kept_writeOn]

theorem kept_flushRegion (h : Kept s) (o) : Kept (s.flushRegion o) := by
  unfold State.flushRegion
  grind [kept_writeOn, kept_with, kept_foldl]

/-! ### The functions of `Machine/Translate.lean` -/

theorem kept_keepTranslation (h : Kept s) (v t) : Kept (s.keepTranslation v t) := h

theorem kept_askCollapse (h : Kept s) (asid page v) : Kept (s.askCollapse asid page v) := by
  unfold State.askCollapse
  grind [kept_with]

theorem kept_askAccess (h : Kept s) (v asid va k identity e) : Kept (s.askAccess v asid va k identity e) := by
  unfold State.askAccess
  grind [kept_askCollapse]

theorem kept_holdWalk (h : Kept s) (u asid va) : Kept (s.holdWalk u asid va) := by
  unfold State.holdWalk
  grind [kept_with]

theorem kept_lookup (h : Kept s) (u region v asid va k identity) : Kept (s.lookup u region v asid va k identity).2 := by
  unfold State.lookup
  grind [kept_askAccess, kept_holdWalk, kept_keepTranslation]

theorem kept_dropTranslations (h : Kept s) (asid first pages) : Kept (s.dropTranslations asid first pages) := h
theorem kept_resumeWalks (h : Kept s) (asid first pages) : Kept (s.resumeWalks asid first pages) := h

theorem kept_reserved (h : Kept s) (u pa n) : Kept (s.reserved u pa n).2 := by
  unfold State.reserved
  grind [kept_with]

theorem kept_needMet (h : Kept s) (u code) : Kept (s.needMet u code) := by
  unfold State.needMet
  grind [kept_with]

theorem keeps_settle (x va) (hx : Kept x.2) : Keeps (Machine.settle x va) := by
  unfold Machine.settle
  grind [keeps_bind, keeps_pure, keeps_set, keeps_raise, keeps_throw]

theorem keeps_translate (u va k) : Keeps (Machine.translate u va k) := by
  unfold Machine.translate
  grind [keeps_get, keeps_raise, keeps_settle, kept_lookup]

theorem kept_probe (h : Kept s) (u va k) : Kept (s.probe u va k).2 := by
  unfold State.probe
  grind [kept_keepTranslation]

theorem kept_bareLookup (h : Kept s) (u v asid va k identity) : Kept (s.bareLookup u v asid va k identity).2 := by
  unfold State.bareLookup
  grind [kept_askAccess, kept_holdWalk]

theorem kept_frontLookup (h : Kept s) (v asid va k) : Kept (s.frontLookup v asid va k).2 := by
  unfold State.frontLookup
  grind [kept_bareLookup]

/-! ### The functions of `Machine/LinkSend.lean` -/

theorem kept_moSend (h : Kept s) (dst b) : Kept (s.moSend dst b) := h

/-! ### The functions of `Machine/Region.lean` -/

theorem kept_log (h : Kept s) (kind code p asid value) : Kept (s.log kind code p asid value) := (sameMem_log ..).kept h
theorem kept_post (h : Kept s) (dest ch two w0 w1) : Kept (s.post dest ch two w0 w1) := (sameMem_post ..).kept h

theorem kept_tell (h : Kept s) (p code engine slot handle w1) : Kept (s.tell p code engine slot handle w1) := by
  unfold State.tell
  grind [kept_post, kept_needMet]

theorem kept_report (h : Kept s) (p code engine slot handle w1) : Kept (s.report p code engine slot handle w1) := by
  unfold State.report
  grind [kept_log, kept_tell]

theorem kept_setBuffer (h : Kept s) (p handle b) : Kept (s.setBuffer p handle b) := (sameMem_setBuffer ..).kept h
theorem kept_setStation (h : Kept s) (p n b) : Kept (s.setStation p n b) := h
theorem kept_initStation (h : Kept s) (p n b) : Kept (s.initStation p n b) := h

theorem kept_pollWakes (h : Kept s) (p) : Kept (s.pollWakes p) := by
  unfold State.pollWakes
  grind [kept_acquire, kept_onCore, kept_foldl]

theorem kept_putBuffer (h : Kept s) (p handle b) : Kept (s.putBuffer p handle b) := by
  unfold State.putBuffer
  grind [kept_pollWakes, kept_setBuffer]

theorem kept_setEndRecord (h : Kept s) (handle n e) : Kept (s.setEndRecord handle n e) := h

theorem kept_tellPlace (h : Kept s) (handle n consumer serial l note) :
    Kept (s.tellPlace handle n consumer serial l note) := h

theorem kept_tellHome (h : Kept s) (n note) : Kept (s.tellHome n note) := by
  unfold State.tellHome
  grind [kept_moSend]

theorem kept_onPort (h : Kept s) (p port f) : Kept (s.onPort p port f) := h

theorem kept_freePlace (h : Kept s) (handle n consumer serial l) : Kept (s.freePlace handle n consumer serial l) := by
  unfold State.freePlace
  grind [kept_onPort, kept_tellPlace]

theorem kept_freeEnd (h : Kept s) (handle n consumer r) : Kept (s.freeEnd handle n consumer r) := by
  unfold State.freeEnd
  grind [kept_freePlace]

theorem kept_dropStream (h : Kept s) (handle n e) : Kept (s.dropStream handle n e) := by
  unfold State.dropStream
  grind [kept_freePlace, kept_freeEnd, kept_onParcel, kept_foldl]

theorem kept_orphanStream (h : Kept s) (handle n e prodDead consDead homeDead) :
    Kept (s.orphanStream handle n e prodDead consDead homeDead) := by
  unfold State.orphanStream
  grind [kept_report, kept_setEndRecord, kept_dropStream, kept_tellPlace]

theorem kept_killStream (h : Kept s) (dead hd handle n e) : Kept (s.killStream dead hd handle n e) := by
  unfold State.killStream
  grind [kept_orphanStream, kept_setEndRecord, kept_tellHome, kept_onParcel, kept_dropStream]

theorem kept_killEnds (h : Kept s) (dead deadHome) : Kept (s.killEnds dead deadHome) := by
  unfold State.killEnds
  grind [kept_killStream, kept_foldl]

theorem kept_frontWrite (h : Kept s) (v asid va data) : Kept (s.frontWrite v asid va data) := by
  unfold State.frontWrite
  grind [kept_homeWrite, kept_frontLookup, kept_with]

theorem kept_retryWrites (h : Kept s) : Kept s.retryWrites := by
  unfold State.retryWrites
  grind [kept_frontWrite, kept_with, kept_foldl]

theorem kept_stopAt (h : Kept s) (o place) : Kept (s.stopAt o place) := h
theorem kept_leaveSegments (h : Kept s) (o mine torn) : Kept (s.leaveSegments o mine torn) := h

theorem kept_freeRegion (h : Kept s) (o r) : Kept (s.freeRegion o r) := by
  unfold State.freeRegion
  grind [kept_flushRegion, kept_killEnds, kept_with]

theorem kept_keepTaken (h : Kept s) (o r) : Kept (s.keepTaken o r) := by
  unfold State.keepTaken
  grind [kept_with]

theorem kept_freeRecorded (h : Kept s) : Kept s.freeRecorded := by
  unfold State.freeRecorded
  grind [kept_with, kept_foldl]

theorem kept_endRegion (h : Kept s) (o kind code status parcel value torn) :
    Kept (s.endRegion o kind code status parcel value torn) := by
  unfold State.endRegion
  grind [kept_freeRegion, kept_log, kept_frontWrite, kept_keepTaken, kept_leaveSegments, kept_with]

theorem kept_abortAt (h : Kept s) (p code value) : Kept (s.abortAt p code value) := by
  unfold State.abortAt
  grind [kept_endRegion, kept_onCore]

/-! ### The functions of `Machine/Cartouche.lean` -/

theorem keeps_frontRead (v asid va n) : Keeps (frontRead v asid va n) := by
  unfold frontRead
  grind [keeps_get, keeps_bind, keeps_pure, keeps_settle, kept_frontLookup]

theorem kept_onShadow (h : Kept s) (q f) : Kept (s.onShadow q f) := h
theorem kept_stopQueue (h : Kept s) (q code) : Kept (s.stopQueue q code) := h

theorem kept_failLaunch (h : Kept s) (asid record kind code) : Kept (s.failLaunch asid record kind code) := by
  unfold State.failLaunch
  grind [kept_log, kept_frontWrite]

theorem kept_failDependence (h : Kept s) (k code) : Kept (s.failDependence k code) := by
  unfold State.failDependence
  grind [kept_failLaunch, kept_with]

theorem kept_makeReady (h : Kept s) (k) : Kept (s.makeReady k) := by
  unfold State.makeReady
  grind [kept_with]

theorem kept_pollLaunches (h : Kept s) (kind names) : Kept (s.pollLaunches kind names) := by
  unfold State.pollLaunches
  grind [kept_makeReady, kept_foldl]

theorem kept_launchPacket (h : Kept s) (q handle bs) : Kept (s.launchPacket q handle bs) := by
  unfold State.launchPacket
  grind [kept_failDependence, kept_makeReady, kept_failLaunch, kept_with]

theorem kept_abortPacket (h : Kept s) (asid record) : Kept (s.abortPacket asid record) := by
  unfold State.abortPacket
  grind [kept_failLaunch, kept_endRegion, kept_with]

theorem keeps_readPacket (q) : Keeps (readPacket q) := by
  unfold readPacket
  grind [keeps_get, keeps_bind, keeps_pure, keeps_frontRead, keeps_mapM]

theorem kept_wakeQueue (h : Kept s) (q) : Kept (s.wakeQueue q) := by
  unfold State.wakeQueue
  grind [kept_with]

theorem kept_examine (h : Kept s) (q) : Kept (s.examine q) := by
  have hr := (keeps_readPacket q).run s h
  unfold State.examine
  refine kept_ite (kept_stopQueue h ..) (kept_ite h ?_)
  split
  · grind
  · grind [kept_stopQueue]
  next e s1 e1 =>
    have h1 : Kept s1 := by grind
    refine kept_ite (kept_stopQueue h1 ..) <| kept_ite h1 <| kept_ite h1 <| kept_ite (kept_stopQueue h1 ..) <|
      kept_ite (kept_stopQueue h1 ..) <| kept_ite h1 <| kept_ite (kept_stopQueue h1 ..) <|
      kept_wakeQueue (kept_frontWrite (kept_onShadow ?_ ..) ..) _
    grind [kept_launchPacket, kept_abortPacket]

theorem kept_stripTurn (h : Kept s) (v) : Kept (s.stripTurn v) := by
  unfold State.stripTurn
  grind [kept_examine, kept_with]

theorem kept_stripsTurn (h : Kept s) : Kept s.stripsTurn := by
  unfold State.stripsTurn
  grind [kept_stripTurn, kept_foldl]

theorem kept_resumeFront (h : Kept s) (asid first pages) : Kept (s.resumeFront asid first pages) := by
  unfold State.resumeFront
  grind [kept_wakeQueue, kept_retryWrites, kept_resumeWalks, kept_freeRecorded, kept_foldl]

theorem kept_applyKick (h : Kept s) (q v) : Kept (s.applyKick q v).2 := by
  unfold State.applyKick
  grind [kept_wakeQueue, kept_onShadow, kept_log]

theorem kept_strip (h : Kept s) (q v issuer) : Kept (s.strip q v issuer) := by
  unfold State.strip
  grind [kept_onShadow, kept_applyKick, kept_log, kept_tell]

theorem kept_kick (h : Kept s) (q v source issuer) : Kept (s.kick q v source issuer) := by
  unfold State.kick
  grind [kept_stopAt, kept_strip, kept_with]

theorem kept_setControlWord (h : Kept s) (off v) : Kept (s.setControlWord off v) := by
  unfold State.setControlWord
  grind [kept_onShadow, kept_with]

theorem keptOk_controlWrite (h : Kept s) (u off data) : KeptOk (s.controlWrite u off data) := by
  unfold State.controlWrite
  grind [keptOk_ok, keptOk_error, kept_kick, kept_setControlWord, kept_foldl]

/-! ### The functions of `Machine/Operands.lean` -/

theorem kept_stir (h : Kept s) (p) : Kept (s.stir p) := (sameMem_stir ..).kept h
theorem kept_handOn (h : Kept s) (t) : Kept (s.handOn t) := (sameMem_handOn ..).kept h

theorem kept_sendReports (h : Kept s) : Kept s.sendReports := by
  unfold State.sendReports
  grind [kept_post, kept_log, kept_with, kept_foldl]

theorem kept_freeze (h : Kept s) (t x late) : Kept (s.freeze t x late) := (sameMem_freeze ..).kept h
theorem kept_fire (h : Kept s) (op w k) : Kept (s.fire op w k) := (sameMem_fire ..).kept h

theorem kept_cure (h : Kept s) (p m) : Kept (s.cure p m) := by
  unfold State.cure
  grind [kept_onParcel, kept_with, kept_foldl]

theorem kept_continueCell (h : Kept s) (p m) : Kept (s.continueCell p m) := by
  unfold State.continueCell
  grind [kept_cure, kept_onCell]

theorem kept_skipCell (h : Kept s) (p m) : Kept (s.skipCell p m) := by
  unfold State.skipCell
  grind [kept_cure, kept_stir, kept_onCell, kept_handOn]

theorem kept_resumeRegion (h : Kept s) (p) : Kept (s.resumeRegion p) := by
  unfold State.resumeRegion
  grind [kept_onRegion, kept_onParcel, kept_foldl]

/-! ### The functions of `Machine/CellWindow.lean` -/

theorem kept_command (h : Kept s) (p m v) : Kept (s.command p m v) := by
  unfold State.command
  grind [kept_continueCell, kept_skipCell, kept_resumeRegion]

theorem keptOk_queueWindowWrite (h : Kept s) (p m off data) : KeptOk (s.queueWindowWrite p m off data) := by
  unfold State.queueWindowWrite
  grind [keptOk_ok, keptOk_error, kept_command, kept_onCell, kept_foldl]

theorem keptOk_contextWrite (h : Kept s) (p m off data) : KeptOk (s.contextWrite p m off data) := by
  unfold State.contextWrite
  grind [keptOk_ok, keptOk_error, kept_onCell]

theorem keptOk_cellWindowWrite (h : Kept s) (p off data) : KeptOk (s.cellWindowWrite p off data) := by
  unfold State.cellWindowWrite
  grind [keptOk_ok, keptOk_error, keptOk_contextWrite, keptOk_queueWindowWrite, kept_onCell]

/-! ### The functions of `Machine/Window.lean` -/

theorem kept_armSlot (h : Kept s) (p ch cond arg time control) : Kept (s.armSlot p ch cond arg time control) := by
  unfold State.armSlot
  grind [kept_pollWakes, kept_onCore]

theorem kept_arm (h : Kept s) (p cond arg time control) : Kept (s.arm p cond arg time control) := by
  unfold State.arm
  grind [kept_armSlot]

theorem keptOk_windowRegister (h : Kept s) (p num value) : KeptOk (s.windowRegister p num value) := by
  unfold State.windowRegister
  grind [keptOk_ok, keptOk_error, kept_onCore]

theorem keptOk_windowBinding (h : Kept s) (p ch handler arg) : KeptOk (s.windowBinding p ch handler arg) := by
  unfold State.windowBinding
  grind [keptOk_ok, keptOk_error, kept_onCore]

theorem keptOk_windowSlot (h : Kept s) (p ch value) : KeptOk (s.windowSlot p ch value) := by
  unfold State.windowSlot
  grind [keptOk_ok, keptOk_error, kept_armSlot, kept_onCore]

theorem kept_windowSlotData (h : Kept s) (p ch f) : Kept (s.windowSlotData p ch f) := h

theorem keptOk_controlWindowSet (h : Kept s) (p i v) : KeptOk (s.controlWindowSet p i v) := by
  unfold State.controlWindowSet
  grind [keptOk_ok, keptOk_error, keptOk_windowBinding, keptOk_windowSlot, kept_windowSlotData, kept_pollWakes,
    keptOk_windowRegister, kept_putBuffer, kept_setStation]

theorem keptOk_controlWindowWrite (h : Kept s) (u p off data) : KeptOk (s.controlWindowWrite u p off data) := by
  unfold State.controlWindowWrite
  grind [keptOk_error, keptOk_controlWindowSet, keptOk_foldlM]

/-! ### The functions of `Machine/Ops.lean` -/

theorem keeps_reserveCheck (u pa n value) : Keeps (reserveCheck u pa n value) := by
  unfold reserveCheck
  grind [keeps_get, keeps_bind, keeps_pure, keeps_set, keeps_raise, keeps_throw, kept_reserved]

theorem keeps_orRaise (value) (x : Except Byte α) : Keeps (orRaise value x) := by
  unfold orRaise
  grind [keeps_pure, keeps_raise]

theorem kept_hostSends (h : Kept s) (write address n) : Kept (s.hostSends write address n) := h

theorem keeps_readAt (u sc m n value) : Keeps (readAt u sc m n value) := by
  unfold readAt
  grind [keeps_get, keeps_bind, keeps_pure, keeps_set, keeps_raise, keeps_orRaise, kept_hostSends, kept_scopedRead,
    keeps_reserveCheck]

theorem kept_exchangeWrite (h : Kept s) (src dest off data) : Kept (s.exchangeWrite src dest off data) := h
theorem kept_exchangeMore (h : Kept s) (off data) : Kept (s.exchangeMore off data) := h

theorem keeps_writeAt (u kind sc m data value) : Keeps (writeAt u kind sc m data value) := by
  unfold writeAt
  grind [keeps_get, keeps_bind, keeps_set, keeps_raise, keptOk_controlWindowWrite, kept_homeWrite, kept_hostSends,
    keptOk_controlWrite, kept_exchangeWrite, kept_scopedWrite, keeps_reserveCheck, keptOk_cellWindowWrite,
    keeps_orRaise_set]

theorem keeps_versionCheck (u m n value) : Keeps (versionCheck u m n value) := by
  unfold versionCheck
  grind [keeps_get, keeps_pure, keeps_raise, keeps_reserveCheck]

theorem kept_pushSector (h : Kept s) (u lvl pa) : Kept (s.pushSector u lvl pa) := by
  unfold State.pushSector
  grind [kept_writeOn, kept_foldl]

theorem kept_holdRead (h : Kept s) (u k v data) : Kept (s.holdRead u k v data) := by
  unfold State.holdRead
  grind [kept_with]

theorem kept_dropReads (h : Kept s) (u) : Kept (s.dropReads u) := by
  unfold State.dropReads
  grind [kept_with]

theorem keeps_versionedSectors (u wait m v eq value l) : Keeps (versionedSectors u wait m v eq value l) := by
  induction l with
  | nil => exact keeps_pure (some [])
  | cons x xs ih =>
    refine keeps_get fun s h => ?_
    grind [keeps_bind, keeps_pure, keeps_set, keeps_raise, kept_holdRead]

theorem keeps_loadVersion (u wait sc m n v eq value) : Keeps (loadVersion u wait sc m n v eq value) := by
  unfold loadVersion
  grind [keeps_bind, keeps_pure, keeps_modify, kept_acquire, kept_dropReads, keeps_versionedSectors, kept_pushSector,
    keeps_versionCheck, kept_foldl]

theorem kept_keepVersion (h : Kept s) (pa) : Kept (s.keepVersion pa) := h

theorem kept_storeVersion (h : Kept s) (u noalloc pa data) : Kept (s.storeVersion u noalloc pa data) := by
  unfold State.storeVersion
  grind [kept_homeWrite, kept_pushSector, kept_storeSector, kept_foldl]

theorem kept_retire (h : Kept s) (pa floor) : Kept (s.retire pa floor) := h

theorem keeps_atomicAt (u sc m bytes op b value) : Keeps (atomicAt u sc m bytes op b value) := by
  unfold atomicAt
  grind [keeps_get, keeps_bind, keeps_pure, keeps_set, kept_homeWrite, kept_pushSector, kept_storeSector,
    keeps_versionCheck]

theorem keeps_readVa (u sc va n) : Keeps (readVa u sc va n) := by
  unfold readVa
  grind [keeps_bind, keeps_translate, keeps_readAt]

theorem keeps_writeVa (u kind sc va data) : Keeps (writeVa u kind sc va data) := by
  unfold writeVa
  grind [keeps_bind, keeps_writeAt, keeps_translate]

theorem keeps_runAt (u kind sc m data value first counts) : Keeps (runAt u kind sc m data value first counts) := by
  unfold runAt
  grind [keeps_get, keeps_bind, keeps_set, kept_exchangeMore, keeps_writeAt, keeps_reserveCheck, kept_extendSector,
    wf_write, kept_mk, mem_wf_of_kept, deep_wf_of_kept]

theorem keeps_writeRuns (u kind sc va data first runs) : Keeps (writeRuns u kind sc va data first runs) := by
  induction runs generalizing first with
  | nil => exact keeps_pure ()
  | cons r rs ih =>
    unfold writeRuns
    grind [keeps_bind, keeps_translate, keeps_runAt]

theorem keeps_writeRunsAt (u kind sc m data value first runs) :
    Keeps (writeRunsAt u kind sc m data value first runs) := by
  induction runs generalizing first with
  | nil => exact keeps_pure ()
  | cons r rs ih => exact keeps_bind (keeps_runAt ..) fun _ => ih false

theorem keeps_readHome (u sc m n value) : Keeps (readHome u sc m n value) := by
  unfold readHome
  grind [keeps_get, keeps_bind, keeps_pure, keeps_modify, kept_pushSector, keeps_readAt, kept_foldl]

theorem keeps_writeMasked (u kind sc va data valid) : Keeps (writeMasked u kind sc va data valid) := by
  unfold writeMasked
  grind [keeps_writeVa, keeps_writeRuns]

theorem keeps_aligned (va n) : Keeps (aligned va n) := by
  unfold aligned
  grind [keeps_check]

theorem kept_say (h : Kept s) (x) : Kept (s.say x) := h

theorem kept_breakTrap (h : Kept s) (p) : Kept (s.breakTrap p) := by
  unfold State.breakTrap
  grind [kept_stopAt, kept_say]

theorem kept_trapEntry (h : Kept s) (p code value engine late) : Kept (s.trapEntry p code value engine late) := by
  unfold State.trapEntry
  grind [kept_needMet, kept_abortAt, kept_log, kept_breakTrap, kept_onCore]

theorem kept_trapReturn (h : Kept s) (p) : Kept (s.trapReturn p) := h
theorem kept_endTask (h : Kept s) (p) : Kept (s.endTask p) := h
theorem kept_advance (h : Kept s) (p) : Kept (s.advance p) := h
theorem kept_writeReg (h : Kept s) (rd v) : Kept (s.writeReg rd v) := h

theorem keptOut_attempt (h : Kept s) (i e) {k : Act Unit} (hk : Keeps k) : KeptOut (s.attempt i e k) := by
  have := hk.run s h
  unfold State.attempt
  grind [keptOut_next, kept_trapEntry]

theorem keeps_finish (rd v) : Keeps (finish rd v) := by
  unfold finish
  grind [keeps_modify, kept_writeReg]

theorem keeps_proceed : Keeps proceed := by
  unfold proceed
  grind [keeps_modify, kept_advance]

theorem keeps_myRegion : Keeps myRegion := by
  unfold myRegion
  grind [keeps_get, keeps_pure, keeps_raise]

theorem keeps_issueRelease (sc) : Keeps (issueRelease sc) := by
  unfold issueRelease
  grind [keeps_modify, kept_release]

theorem keeps_scopeField (code) : Keeps (scopeField code) := by
  unfold scopeField
  grind [keeps_pure, keeps_raise]

theorem kept_poisonSink (h : Kept s) (p w0 w1) : Kept (s.poisonSink p w0 w1) := by
  unfold State.poisonSink
  grind [kept_post, kept_log]

theorem keeps_readSpan (u sc fuel va n) : Keeps (readSpan u sc fuel va n) := by
  induction fuel generalizing va n with
  | zero => exact keeps_pure []
  | succ k ih =>
    unfold readSpan
    grind [keeps_bind, keeps_pure, keeps_readVa]

theorem keeps_writeSpan (u sc fuel va data) : Keeps (writeSpan u sc fuel va data) := by
  induction fuel generalizing va data with
  | zero => exact keeps_pure ()
  | succ k ih =>
    unfold writeSpan
    grind [keeps_bind, keeps_pure, keeps_writeVa]

theorem kept_sendArrival (h : Kept s) (p station engine slot) : Kept (s.sendArrival p station engine slot) := h

theorem keeps_withXa (a) {k : Act α} (hk : Keeps k) : Keeps (withXa a k) := by
  refine ⟨fun s h => ?_⟩
  have := hk.run s h
  unfold withXa
  grind

/-! ### The functions of `Machine/Fetch.lean` -/

theorem keeps_fetchLine (p) : Keeps (fetchLine p) := by
  unfold fetchLine
  grind [keeps_get, keeps_bind, keeps_pure, keeps_modify, keeps_translate, keeps_readAt, kept_onCore]

theorem kept_coreDue (h : Kept s) (p) : Kept (s.coreDue p).2 := by
  have hf := (keeps_fetchLine p).run s h
  unfold State.coreDue
  grind

theorem kept_cellDue (h : Kept s) (p m) : Kept (s.cellDue p m).2 := by
  unfold State.cellDue
  grind [kept_with]

theorem kept_due (h : Kept s) : Kept s.due.2 := by
  unfold State.due
  grind [kept_coreDue, kept_cellDue]

theorem kept_hangTick (h : Kept s) (dt) : Kept (s.hangTick dt) := by
  unfold State.hangTick
  grind [kept_with]

/-! ### The functions of `Machine/Alu.lean` -/

theorem keptOut_alu (h : Kept s) (f rd ra rb) : KeptOut (s.alu f rd ra rb) := keptOut_next (kept_writeReg h ..)
theorem keptOut_alu1 (h : Kept s) (f rd ra) : KeptOut (s.alu1 f rd ra) := keptOut_next (kept_writeReg h ..)
theorem keptOut_aluImm (h : Kept s) (f rd ra imm) : KeptOut (s.aluImm f rd ra imm) := keptOut_next (kept_writeReg h ..)

theorem keptOut_divide (h : Kept s) (i f rd ra rb) : KeptOut (s.divide i f rd ra rb) := by
  refine keptOut_attempt h _ _ ?_
  grind [keeps_bind, keeps_finish, keeps_check]

/-! ### The functions of `Machine/Dump.lean` -/

theorem kept_dumpHead (h : Kept s) (d) : Kept (s.dumpHead d) := by
  unfold State.dumpHead
  grind [kept_homeWrite, kept_with]

theorem kept_dumpPage (h : Kept s) (d page) : Kept (s.dumpPage d page) := by
  unfold State.dumpPage
  grind [kept_homeWrite, kept_with]

theorem kept_dumpMore (h : Kept s) : Kept s.dumpMore := by
  unfold State.dumpMore
  grind [kept_dumpPage]

theorem kept_continueDump (h : Kept s) : Kept s.continueDump := by
  unfold State.continueDump
  grind [kept_dumpMore, kept_foldl]

/-! ### The functions of `Machine/LoadStore.lean` -/

theorem kept_askHost (h : Kept s) (r sent) : Kept (s.askHost r sent) := h

theorem keeps_coreAsks (r sent) : Keeps (coreAsks r sent) := by
  unfold coreAsks
  grind [keeps_get, keeps_bind, keeps_set, keeps_throw, kept_askHost, kept_onCore]

theorem keptOut_load (h : Kept s) (i size signed rd ra sc off) : KeptOut (s.load i size signed rd ra sc off) := by
  refine keptOut_attempt h _ _ ?_
  grind [keeps_bind, keeps_finish, keeps_translate, keeps_aligned, keeps_readAt, keeps_coreAsks]

theorem keptOut_store (h : Kept s) (i size rd ra sc off) : KeptOut (s.store i size rd ra sc off) := by
  refine keptOut_attempt h _ _ ?_
  grind [keeps_bind, keeps_proceed, keeps_writeVa, keeps_aligned]

theorem keptOut_loadVersioned (h : Kept s) (i eq rd ra rb sx size sc) :
    KeptOut (s.loadVersioned i eq rd ra rb sx size sc) := by
  refine keptOut_attempt h _ _ ?_
  grind [keeps_bind, keeps_modify, keeps_proceed, keeps_loadVersion, keeps_finish, keeps_translate, keeps_aligned,
    kept_onCore]

theorem keptOut_storeReleasing (h : Kept s) (i keep rd ra rb size sc) :
    KeptOut (s.storeReleasing i keep rd ra rb size sc) := by
  refine keptOut_attempt h _ _ ?_
  grind [keeps_get, keeps_bind, keeps_modify, kept_keepVersion, keeps_finish, keeps_translate, keeps_check,
    keeps_aligned, keeps_versionCheck, kept_storeVersion, kept_release]

theorem kept_amoResult (h : Kept s) (p w signed rd old) : Kept (s.amoResult p w signed rd old) := h

theorem keptOut_atomic (h : Kept s) (i op signed rd ra rb w sc) : KeptOut (s.atomic i op signed rd ra rb w sc) := by
  refine keptOut_attempt h _ _ ?_
  grind [keeps_bind, keeps_modify, keeps_raise, kept_amoResult, keeps_translate, keeps_aligned, keeps_atomicAt,
    kept_advance, keeps_coreAsks]

theorem keptOut_execPref (h : Kept s) (ra scope off) : KeptOut (execPref ra scope off s) := by
  have ht := (keeps_translate (.core s.here) (s.offsetAddress ra off 64) .read).run s h
  unfold execPref
  grind [keptOut_next, kept_advance, kept_scopedRead]

theorem keptOut_execReclaim (h : Kept s) (rd ra rb) : KeptOut (execReclaim rd ra rb s) := by
  refine keptOut_attempt h _ _ (keeps_bind (keeps_aligned ..) fun _ => keeps_bind (keeps_check ..) fun _ => ?_)
  refine keeps_bind (keeps_mapM (fun _ => ?_) _) fun ms => keeps_bind (keeps_modify fun t k => ?_) fun _ => keeps_proceed
  · exact keeps_bind (keeps_translate ..) fun m => keeps_bind (keeps_versionCheck ..) fun _ => keeps_pure m
  · exact kept_foldl k (fun _ _ k => kept_ite (kept_retire k ..) k) ms

theorem keptOut_execFence (h : Kept s) (scope) : KeptOut (execFence scope s) := by
  unfold execFence
  grind [keptOut_next, kept_acquire, kept_release, kept_advance]

theorem keptOut_execFenceAcq (h : Kept s) (scope) : KeptOut (execFenceAcq scope s) := by
  unfold execFenceAcq
  grind [keptOut_next, kept_acquire, kept_advance]

theorem keptOut_execFenceRel (h : Kept s) (scope) : KeptOut (execFenceRel scope s) := by
  unfold execFenceRel
  grind [keptOut_next, kept_release, kept_advance]

/-! ### The functions of `Machine/Legend.lean` -/

theorem keeps_legendOf (p idx) : Keeps (legendOf p idx) := by
  unfold legendOf
  grind [keeps_get, keeps_pure, keeps_raise]

theorem keeps_baseOf (p e) : Keeps (baseOf p e) := by
  unfold baseOf
  grind [keeps_get, keeps_pure, keeps_raise]

theorem keeps_readRow (u p sc e row bit n) : Keeps (readRow u p sc e row bit n) := by
  unfold readRow
  grind [keeps_bind, keeps_baseOf, keeps_readSpan]

theorem keeps_writeRow (u p sc e row bit data) : Keeps (writeRow u p sc e row bit data) := by
  unfold writeRow
  grind [keeps_bind, keeps_baseOf, keeps_writeSpan]

theorem keeps_readScale (u p sc e row k n) : Keeps (readScale u p sc e row k n) := by
  unfold readScale
  grind [keeps_bind, keeps_legendOf, keeps_readRow]

theorem keeps_makeWord (p sc e starts counts row k) : Keeps (makeWord p sc e starts counts row k) := by
  unfold makeWord
  grind [keeps_bind, keeps_pure, keeps_readScale, keeps_readRow]

theorem keeps_writeElements (p sc e row mask bit data) : Keeps (writeElements p sc e row mask bit data) := by
  unfold writeElements
  grind [keeps_bind, keeps_baseOf, keeps_writeMasked]

theorem keeps_storeWord (p sc e starts counts row k x) : Keeps (storeWord p sc e starts counts row k x) := by
  unfold storeWord
  grind [keeps_bind, keeps_legendOf, keeps_readRow, keeps_writeRow, keeps_writeElements]

/-! ### The functions of `Machine/Stream.lean` -/

theorem kept_onStream (h : Kept s) (p slot f) : Kept (s.onStream p slot f) := h
theorem kept_leavePort (h : Kept s) (p slot) : Kept (s.leavePort p slot) := h
theorem kept_haltStream (h : Kept s) (p slot reason code) : Kept (s.haltStream p slot reason code) := h

theorem kept_faultStream (h : Kept s) (p slot code value) : Kept (s.faultStream p slot code value) := by
  unfold State.faultStream
  grind [kept_report, kept_haltStream]

theorem kept_dueEmit (h : Kept s) (p port) : Kept (s.dueEmit p port) := by
  unfold State.dueEmit
  grind [kept_onPort, kept_onParcel]

theorem keptOut_openStream (h : Kept s) (i outbound rd ra rb) : KeptOut (s.openStream i outbound rd ra rb) := by
  refine keptOut_attempt h _ _ (keeps_bind (keeps_check ..) fun _ => keeps_bind (keeps_scopeField ..) fun sc =>
    keeps_bind (keeps_legendOf ..) fun e => keeps_bind (keeps_aligned ..) fun _ => keeps_bind (keeps_check ..) fun _ =>
    keeps_bind (keeps_check ..) fun _ => keeps_bind (keeps_issueRelease ..) fun _ =>
      keeps_bind (keeps_readVa ..) fun d => ?_)
  grind [keeps_bind, keeps_modify, keeps_check, kept_onParcel, kept_onStream, keeps_finish]

theorem keptOut_execStrmBar (h : Kept s) (ra) : KeptOut (execStrmBar ra s) := by
  refine keptOut_attempt h _ _ ?_
  grind [keeps_bind, keeps_modify, kept_onParcel, keeps_check, kept_advance]

theorem kept_stopStream (h : Kept s) (p slot) : Kept (s.stopStream p slot) := by
  unfold State.stopStream
  grind [kept_onStream, kept_haltStream]

theorem keptOut_execStrmStop (h : Kept s) (ra) : KeptOut (execStrmStop ra s) := by
  refine keptOut_attempt h _ _ ?_
  grind [keeps_bind, keeps_modify, kept_stopStream, keeps_check, kept_advance]

theorem keptOut_execStrmStat (h : Kept s) (rd ra) : KeptOut (execStrmStat rd ra s) := by
  refine keptOut_attempt h _ _ ?_
  grind [keeps_bind, keeps_finish, keeps_check]

theorem keptOut_execStreamStart (h : Kept s) (p slot) : KeptOut (execStreamStart p slot s) := by
  unfold execStreamStart
  grind [keptOut_next, kept_onStream, kept_onPort]

theorem kept_completeStream (h : Kept s) (p slot) : Kept (s.completeStream p slot) := by
  unfold State.completeStream
  grind [kept_onStream, kept_sendArrival, kept_leavePort, kept_release]

theorem keptOut_execLoaderWord (h : Kept s) (p slot) : KeptOut (execLoaderWord p slot s) := by
  have hw := fun sc e a b r w => (keeps_makeWord p sc e a b r w).run s h
  unfold execLoaderWord
  grind [keptOut_next, kept_onPort, kept_haltStream, kept_sendArrival, kept_onStream, kept_faultStream]

theorem kept_storerPoison (h : Kept s) (p slot) : Kept (s.storerPoison p slot) := by
  unfold State.storerPoison
  grind [kept_poisonSink]

theorem keptOut_execStorerWord (h : Kept s) (p slot) : KeptOut (execStorerWord p slot s) := by
  have hp : ∀ f, Kept (s.onPort p (s.stream p slot).port f) := fun f => kept_onPort h ..
  have hw := fun sc e a b r w x f => (keeps_storeWord p sc e a b r w x).run (s.onPort p (s.stream p slot).port f) (hp f)
  unfold execStorerWord
  grind [keptOut_next, kept_onPort, kept_haltStream, kept_storerPoison, kept_onStream, kept_faultStream]

theorem keptOut_execStreamComplete (h : Kept s) (p slot) : KeptOut (execStreamComplete p slot s) := by
  unfold execStreamComplete
  grind [keptOut_next, kept_completeStream]

theorem keptOut_execStreamFault (h : Kept s) (p slot code) : KeptOut (execStreamFault p slot code s) := by
  unfold execStreamFault
  grind [keptOut_next, kept_faultStream]

/-! ### The functions of `Machine/Ends.lean` -/

theorem kept_feedConsumer (h : Kept s) (handle n e) : Kept (s.feedConsumer handle n e) := by
  unfold State.feedConsumer
  grind [kept_setEndRecord, kept_tellPlace, kept_foldl]

theorem kept_sendItem (h : Kept s) (handle n e x) : Kept (s.sendItem handle n e x) := by
  unfold State.sendItem
  grind [kept_setEndRecord, kept_tellHome, kept_feedConsumer]

theorem kept_absorb (h : Kept s) (home n k) : Kept (s.absorb home n k) := by
  induction k generalizing s with
  | zero => exact h
  | succ k ih =>
    unfold State.absorb
    grind [kept_sendItem]

theorem kept_beginProducer (h : Kept s) (handle n) : Kept (s.beginProducer handle n) := by
  unfold State.beginProducer
  grind [kept_setEndRecord, kept_tellPlace]

theorem kept_endItems (h : Kept s) (handle n) : Kept (s.endItems handle n) := by
  unfold State.endItems
  grind [kept_tellHome, kept_sendItem]

theorem kept_settleClose (h : Kept s) (handle n) : Kept (s.settleClose handle n) := by
  unfold State.settleClose
  grind [kept_freeEnd, kept_setEndRecord, kept_dropStream]

theorem kept_pumpStream (h : Kept s) (handle n) : Kept (s.pumpStream handle n) := by
  unfold State.pumpStream
  grind [kept_settleClose, kept_endItems, kept_beginProducer, kept_feedConsumer]

theorem kept_homeBind (h : Kept s) {handle loc v t} (e : s.homeBind handle loc = .ok (v, t)) : Kept t := by
  unfold State.homeBind at e
  grind [kept_pumpStream, kept_setEndRecord]

theorem keptOk_homeClose (h : Kept s) (handle device parcel) : KeptOk (s.homeClose handle device parcel) := by
  unfold State.homeClose
  grind [keptOk_ok, keptOk_error, kept_orphanStream, kept_freeEnd, kept_setEndRecord, kept_dropStream, kept_pumpStream]

theorem kept_emit (h : Kept s) (p port handle) : Kept (s.emit p port handle) := by
  unfold State.emit
  grind [kept_onPort, kept_onParcel]

theorem keeps_raiseOpen (code) : Keeps (raiseOpen code : Act α) :=
  keeps_get fun _ _ => keeps_raise _ _

theorem keptOut_execEndMake (h : Kept s) (rd ra) : KeptOut (execEndMake rd ra s) := by
  refine keptOut_attempt h _ _ ?_
  grind [keeps_bind, keeps_modify, keeps_finish, kept_setEndRecord, kept_onParcel, keeps_check, kept_emit]

theorem keeps_askHome (rd op handle ports port) : Keeps (askHome rd op handle ports port) := by
  unfold askHome
  grind [keeps_get, keeps_bind, keeps_modify, kept_moSend, keeps_coreAsks]

theorem keeps_homeLost (op handle) : Keeps (homeLost op handle) := by
  unfold homeLost
  grind [keeps_get, keeps_bind, keeps_modify, keeps_raiseOpen, keeps_proceed, kept_dropStream]

theorem kept_takeSide (h : Kept s) (p port consumer handle n) : Kept (s.takeSide p port consumer handle n) := h

theorem keptOut_execEndBind (h : Kept s) (rd ra rb) : KeptOut (execEndBind rd ra rb s) := by
  have hb : ∀ loc v t, s.homeBind (s.reg ra) loc = .ok (v, t) → Kept t := fun _ _ _ => kept_homeBind h
  refine keptOut_attempt h _ _ (keeps_bind (keeps_check ..) fun _ => keeps_bind (keeps_check ..) fun _ => ?_)
  grind [keeps_bind, keeps_set, keeps_modify, keeps_homeLost, keeps_askHome, kept_setEndRecord, kept_takeSide,
    keeps_raiseOpen, kept_emit, keeps_finish]

theorem keptOut_execEndClose (h : Kept s) (ra) : KeptOut (execEndClose ra s) := by
  have hc := (keptOk_homeClose h (s.reg ra) s.link.number s.here).kept
  refine keptOut_attempt h _ _ ?_
  grind [keeps_bind, keeps_set, keeps_homeLost, keeps_askHome, keeps_raiseOpen, keeps_proceed]

theorem keptOut_execEndStat (h : Kept s) (rd ra) : KeptOut (execEndStat rd ra s) := by
  refine keptOut_attempt h _ _ ?_
  grind [keeps_bind, keeps_raiseOpen, keeps_finish, keeps_homeLost, keeps_askHome]

theorem kept_homeAnswer (h : Kept s) (op handle loc) : Kept (s.homeAnswer op handle loc).2.2 := by
  have hb : ∀ v t, s.homeBind handle loc = .ok (v, t) → Kept t := fun _ _ => kept_homeBind h
  have hc := (keptOk_homeClose h handle loc.device loc.parcel).kept
  unfold State.homeAnswer
  grind

theorem keptOut_execBindRequest (h : Kept s) (k) : KeptOut (execBindRequest k s) := by
  unfold execBindRequest
  grind [keptOut_next, kept_moSend, kept_homeAnswer, kept_with]

theorem kept_answerRecords (h : Kept s) (p op handle port code) : Kept (s.answerRecords p op handle port code) := by
  unfold State.answerRecords
  grind [kept_setEndRecord, kept_dropStream, kept_pumpStream]

theorem kept_endAnswer (h : Kept s) (tag op handle code value) : Kept (s.endAnswer tag op handle code value) := by
  unfold State.endAnswer
  grind [kept_trapEntry, kept_moSend, kept_answerRecords, kept_onCore, kept_emit, kept_with]

theorem kept_lateAnswers (h : Kept s) : Kept s.lateAnswers := by
  unfold State.lateAnswers
  grind [kept_endAnswer, kept_with, kept_foldl]

theorem keptOut_execItemEntry (h : Kept s) (p port) : KeptOut (execItemEntry p port s) := by
  unfold execItemEntry
  grind [keptOut_next, kept_onPort, kept_setEndRecord, kept_sendItem]

theorem keptOut_execItemDelivery (h : Kept s) (p port) : KeptOut (execItemDelivery p port s) := by
  unfold execItemDelivery
  grind [keptOut_next, kept_onPort, kept_setEndRecord, kept_tellHome]

theorem kept_tellDelivered (h : Kept s) (handle n e) : Kept (s.tellDelivered handle n e) := by
  unfold State.tellDelivered
  grind [kept_tellPlace]

theorem keptOut_execItemAcknowledge (h : Kept s) (p number) : KeptOut (execItemAcknowledge p number s) := by
  unfold execItemAcknowledge
  grind [keptOut_next, kept_tellDelivered, kept_setEndRecord, kept_pumpStream]

theorem kept_moveStep (h : Kept s) (handle n e m) : Kept (s.moveStep handle n e m) := by
  unfold State.moveStep
  grind [kept_freePlace, kept_setEndRecord, kept_tellHome, kept_tellPlace, kept_pumpStream]

theorem keptOut_execMigrationMarker (h : Kept s) (p number) : KeptOut (execMigrationMarker p number s) := by
  unfold execMigrationMarker
  grind [keptOut_next, kept_moveStep, kept_pumpStream]

theorem kept_placeNote (h : Kept s) (x note) : Kept (s.placeNote x note) := by
  unfold State.placeNote
  grind [kept_orphanStream, kept_setEndRecord, kept_dropStream, kept_pumpStream]

theorem kept_homeNote (h : Kept s) (x note) : Kept (s.homeNote x note) := by
  unfold State.homeNote
  grind [kept_absorb, kept_setEndRecord, kept_killStream, kept_pumpStream]

theorem kept_tellMoved (h : Kept s) (mine) : Kept (s.tellMoved mine) := by
  unfold State.tellMoved
  grind [kept_tellHome, kept_foldl]

/-! ### The functions of `Machine/Buffer.lean` -/

theorem kept_notice (h : Kept s) (p handle) : Kept (s.notice p handle) := h

theorem kept_makeReads (h : Kept s) (p handle) : Kept (s.makeReads p handle) := by
  unfold State.makeReads
  grind [kept_onParcel]

theorem kept_freeEntry (h : Kept s) (p handle) : Kept (s.freeEntry p handle) := by
  unfold State.freeEntry
  grind [kept_setBuffer, kept_makeReads, kept_notice]

theorem keptOut_execBufSet (h : Kept s) (ra rb) : KeptOut (execBufSet ra rb s) := by
  refine keptOut_attempt h _ _ ?_
  grind [keeps_bind, keeps_modify, keeps_proceed, kept_setBuffer, keeps_check]

theorem keptOut_execBufFree (h : Kept s) (ra) : KeptOut (execBufFree ra s) := by
  refine keptOut_attempt h _ _ ?_
  grind [keeps_bind, keeps_modify, keeps_throw, keeps_proceed, kept_freeEntry, keeps_check]

theorem keptOut_execBufStat (h : Kept s) (rd ra) : KeptOut (execBufStat rd ra s) := by
  refine keptOut_attempt h _ _ ?_
  grind [keeps_bind, keeps_finish, keeps_check]

/-! ### The functions of `Machine/Traverse.lean` -/

theorem kept_setTrav (h : Kept s) (p slot t) : Kept (s.setTrav p slot t) := h
theorem kept_dropTrav (h : Kept s) (p slot) : Kept (s.dropTrav p slot) := h

theorem kept_onTrav (h : Kept s) (p slot f) : Kept (s.onTrav p slot f) := by
  unfold State.onTrav
  grind [kept_setTrav]

theorem kept_openOverlay (h : Kept s) (p buffer index) : Kept (s.openOverlay p buffer index) := by
  unfold State.openOverlay
  grind [kept_with]

theorem kept_overlayScale (h : Kept s) (p index scale) : Kept (s.overlayScale p index scale) := h

theorem kept_hide (h : Kept s) (p buffer index pa va data) : Kept (s.hide p buffer index pa va data) := by
  unfold State.hide
  grind [kept_openOverlay, kept_with]

theorem kept_discardOverlay (h : Kept s) (p buffer index) : Kept (s.discardOverlay p buffer index) := h

theorem keeps_hideAt (u p sc buffer index m data value) : Keeps (hideAt u p sc buffer index m data value) := by
  refine keeps_get fun s h => ?_
  have hw := (keeps_writeAt u .engine sc m data value).run s h
  grind [keeps_bind, keeps_set, keeps_throw, keeps_modify, kept_hide]

theorem keeps_shadowSpan (u p sc buffer index fuel va data) : Keeps (shadowSpan u p sc buffer index fuel va data) := by
  induction fuel generalizing va data with
  | zero => exact keeps_pure ()
  | succ k ih =>
    unfold shadowSpan
    grind [keeps_bind, keeps_pure, keeps_translate, keeps_hideAt]

theorem keeps_reserveAll (u l) : Keeps (reserveAll u l) := by
  induction l with
  | nil => exact keeps_pure ()
  | cons e l ih => exact keeps_bind (keeps_reserveCheck ..) fun _ => ih

theorem keeps_publishCheck (u p buffer index) : Keeps (publishCheck u p buffer index) := by
  unfold publishCheck
  grind [keeps_get, keeps_reserveAll]

theorem kept_showOverlay (h : Kept s) (p buffer index) : Kept (s.showOverlay p buffer index) := by
  unfold State.showOverlay
  split
  · exact h
  next o _ =>
    have h1 : Kept { s with mem := o.bytes.foldl (fun (m : Memory) e => m.set (s.resolve e.1) e.2) s.mem } :=
      ⟨wf_setAll s.resolve o.bytes h.1, h.2⟩
    exact kept_discardOverlay (kept_foldl h1 (fun _ _ k => kept_bump k ..) _) ..

theorem kept_endRing (h : Kept s) (p t) : Kept (s.endRing p t) := by
  unfold State.endRing
  grind [kept_setBuffer, kept_foldl]

theorem kept_releaseEntries (h : Kept s) (p slot t) : Kept (s.releaseEntries p slot t) := by
  unfold State.releaseEntries
  grind [kept_setBuffer, kept_endRing, kept_foldl]

theorem keeps_readIndex (p t k) : Keeps (readIndex p t k) := by
  unfold readIndex
  grind [keeps_bind, keeps_pure, keeps_legendOf, keeps_readRow]

theorem keeps_rowIndex (p t e k) : Keeps (rowIndex p t e k) := by
  unfold rowIndex
  grind [keeps_bind, keeps_pure, keeps_check, keeps_readIndex]

theorem keeps_srcRow (p t e r) : Keeps (srcRow p t e r) := by
  unfold srcRow
  grind [keeps_bind, keeps_pure, keeps_rowIndex]

theorem keeps_dstRow (p t e r) : Keeps (dstRow p t e r) := by
  unfold dstRow
  grind [keeps_bind, keeps_pure, keeps_rowIndex]

theorem keeps_gatherPage (p t i) : Keeps (gatherPage p t i) := by
  refine keeps_bind (keeps_check ..) fun _ => keeps_get fun s h => ?_
  grind [keeps_bind, keeps_pure, keeps_modify, keeps_translate, kept_onTrav]

theorem kept_walkAhead (h : Kept s) (p t n r) : Kept (s.walkAhead p t n r) := by
  induction n generalizing s r with
  | zero => exact h
  | succ n ih =>
    have hk : Keeps (do gatherPage p t (← readIndex p t (rowK t r)) : Act Mapping) :=
      keeps_bind (keeps_readIndex ..) fun _ => keeps_gatherPage ..
    have := hk.run s h
    unfold State.walkAhead
    grind

theorem keeps_readSource (p t e r bit n) : Keeps (readSource p t e r bit n) := by
  unfold readSource
  grind [keeps_bind, keeps_gatherPage, keeps_readRow, keeps_baseOf, keeps_srcRow, keeps_readIndex, keeps_withXa,
    keeps_readAt]

theorem keeps_readPad (p pa n) : Keeps (readPad p pa n) := by
  unfold readPad
  grind [keeps_get, keeps_bind, keeps_pure, keeps_reserveCheck]

theorem keeps_readUnit (p t k) : Keeps (readUnit p t k) := by
  unfold readUnit
  grind [keeps_get, keeps_bind, keeps_pure, keeps_readSource, keeps_readPad, keeps_legendOf]

theorem keeps_writeUnit (p t k data) : Keeps (writeUnit p t k data) := by
  unfold writeUnit
  grind [keeps_get, keeps_bind, keeps_pure, keeps_modify, keeps_dstRow, keeps_legendOf, keeps_shadowSpan, kept_hide,
    kept_homeWrite, keeps_baseOf, keeps_writeSpan, keeps_reserveCheck]

theorem keeps_redSource (p t e r off n) : Keeps (redSource p t e r off n) := by
  unfold redSource
  grind [keeps_get, keeps_readSource, keeps_readPad]

theorem keeps_redItems (p t se de base block rows) : Keeps (redItems p t se de base block rows) := by
  induction rows with
  | nil => exact keeps_pure []
  | cons r rs ih =>
    unfold redItems
    grind [keeps_bind, keeps_pure, keeps_redSource]

theorem keeps_redTile (p slot t block skip) : Keeps (redTile p slot t block skip) := by
  unfold redTile
  grind [keeps_bind, keeps_pure, keeps_legendOf, keeps_baseOf, keeps_translate, keeps_redItems]

theorem kept_sendSkips (h : Kept s) (p slot t) : Kept (s.sendSkips p slot t) := by
  unfold State.sendSkips
  have : ∀ b (st : State), Kept st → _ := fun b st k => (keeps_redTile p slot t b true).run st k
  grind [kept_foldl, kept_with]

theorem kept_stopTrav (h : Kept s) (p slot) : Kept (s.stopTrav p slot) := by
  unfold State.stopTrav
  grind [kept_releaseEntries, kept_setTrav, kept_discardOverlay, kept_onParcel, kept_sendSkips, kept_with, kept_foldl]

theorem kept_faultTrav (h : Kept s) (p slot code value) : Kept (s.faultTrav p slot code value) := by
  unfold State.faultTrav
  grind [kept_stopTrav, kept_report, kept_onParcel]

theorem keeps_hideRuns (p sc index m data value runs) : Keeps (hideRuns p sc index m data value runs) := by
  induction runs with
  | nil => exact keeps_pure ()
  | cons r rs ih => exact keeps_bind (keeps_hideAt ..) fun _ => ih

theorem keeps_combineTile (v) : Keeps (combineTile v) := by
  unfold combineTile
  grind [keeps_get, keeps_bind, keeps_pure, keeps_hideRuns, keeps_writeRunsAt, keeps_readHome]

theorem kept_landed (h : Kept s) (p slot t n) : Kept (s.landed p slot t n) := by
  unfold State.landed
  grind [kept_with]

theorem kept_takeTile (h : Kept s) (v) : Kept (s.takeTile v).2 := by
  have hc := (keeps_combineTile v).run s h
  unfold State.takeTile
  grind [kept_onParcel, kept_landed, kept_faultTrav]

theorem kept_drainHome (h : Kept s) (pa n) : Kept (s.drainHome pa n) := by
  induction n generalizing s with
  | zero => exact h
  | succ n ih =>
    unfold State.drainHome
    grind [kept_takeTile, kept_with]

theorem kept_meetTile (h : Kept s) (k) : Kept (s.meetTile k) := by
  unfold State.meetTile
  grind [kept_drainHome, kept_faultTrav, kept_takeTile, kept_with]

theorem keeps_checkDescriptor (p t) : Keeps (checkDescriptor p t) := by
  refine keeps_bind (keeps_check ..) fun _ => keeps_bind (keeps_check ..) fun _ => ?_
  extract_lets w destination source index
  have hd : ∀ r, Keeps (destination r) := by grind [keeps_bind, keeps_pure, keeps_check, keeps_legendOf]
  clear_value destination
  have hs : ∀ r, Keeps (source r) := by grind [keeps_bind, keeps_check, keeps_legendOf]
  clear_value source
  have hi : ∀ r, Keeps (index r) := by grind [keeps_bind, keeps_check, keeps_legendOf]
  clear_value index
  grind [keeps_bind, keeps_check]

theorem keeps_unitCount (p t) : Keeps (unitCount p t) := by
  unfold unitCount
  grind [keeps_get, keeps_bind, keeps_pure, keeps_legendOf, keeps_baseOf]

theorem keeps_checkEntries (p t words) : Keeps (checkEntries p t words) := by
  unfold checkEntries
  grind [keeps_get, keeps_bind, keeps_pure, keeps_check]

theorem kept_takeEntries (h : Kept s) (p slot t) : Kept (s.takeEntries p slot t) := by
  unfold State.takeEntries
  grind [kept_setBuffer, kept_foldl]

theorem keptOut_issueTrav (h : Kept s) (i kind rd ra rb) : KeptOut (s.issueTrav i kind rd ra rb) := by
  refine keptOut_attempt h _ _ (keeps_bind (keeps_check ..) fun _ => keeps_bind (keeps_scopeField ..) fun sc =>
    keeps_bind (keeps_check ..) fun _ => keeps_bind (keeps_check ..) fun _ => keeps_bind (keeps_aligned ..) fun _ =>
    keeps_bind (keeps_issueRelease ..) fun _ =>
      keeps_bind (keeps_readVa ..) fun d => keeps_bind (keeps_checkDescriptor ..) fun _ => ?_)
  extract_lets follow counted
  have hc : ∀ words, Keeps (counted words) := by
    refine fun words => keeps_bind (keeps_checkEntries ..) fun _ => keeps_bind (keeps_check ..) fun _ =>
      keeps_bind (keeps_unitCount ..) fun total => ?_
    grind [keeps_bind, keeps_modify, keeps_raise, kept_takeEntries, kept_setTrav, kept_onParcel, kept_openOverlay,
      keeps_finish]
  clear_value counted
  grind [keeps_bind, keeps_unitCount]

theorem keptOut_execTrvFollow (h : Kept s) (ra) : KeptOut (execTrvFollow ra s) := by
  refine keptOut_attempt h _ _ ?_
  grind [keeps_bind, keeps_modify, kept_onParcel, keeps_check, kept_advance]

theorem keptOut_execTrvPub (h : Kept s) (rd ra) : KeptOut (execTrvPub rd ra s) := by
  refine keptOut_attempt h _ _ ?_
  grind [keeps_bind, keeps_modify, keeps_legendOf, keeps_finish, keeps_issueRelease, keeps_check, kept_with]

theorem keptOut_execTrvXst (h : Kept s) (rd ra rb) : KeptOut (execTrvXst rd ra rb s) := by
  refine keptOut_attempt h _ _ (keeps_bind (keeps_check ..) fun _ => keeps_bind keeps_myRegion fun _ =>
    keeps_bind (keeps_check ..) fun _ => ?_)
  grind [keeps_bind, keeps_modify, keeps_aligned, keeps_check, keeps_raise, kept_setTrav, kept_onParcel, keeps_finish]

theorem keptOut_execTrvCanc (h : Kept s) (ra) : KeptOut (execTrvCanc ra s) := by
  refine keptOut_attempt h _ _ ?_
  grind [keeps_bind, keeps_modify, kept_stopTrav, keeps_check, kept_advance]

theorem keptOut_execTrvStat (h : Kept s) (rd ra) : KeptOut (execTrvStat rd ra s) := by
  refine keptOut_attempt h _ _ ?_
  grind [keeps_bind, keeps_modify, keeps_finish, kept_onParcel, keeps_check]

theorem keeps_travStep (p slot t) : Keeps (travStep p slot t) := by
  refine keeps_get fun s h => ?_
  grind [keeps_bind, keeps_pure, keeps_modify, kept_setBuffer, keeps_readPad, kept_homeWrite, kept_with,
    keeps_legendOf, keeps_baseOf, keeps_redTile, keeps_readUnit, keeps_writeUnit, kept_walkAhead]

theorem kept_afterUnit (h : Kept s) (p t) : Kept (s.afterUnit p t) := by
  unfold State.afterUnit
  grind [kept_putBuffer, kept_with]

theorem keptOut_execTraverseBytesLand (h : Kept s) (p slot) : KeptOut (execTraverseBytesLand p slot s) := by
  have ht := fun t => (keeps_travStep p slot t).run s h
  unfold execTraverseBytesLand
  grind [keptOut_next, kept_landed, kept_onTrav, kept_afterUnit, kept_faultTrav]

theorem keptOut_execTraverseComplete (h : Kept s) (p slot) : KeptOut (execTraverseComplete p slot s) := by
  unfold execTraverseComplete
  grind [keptOut_next, kept_setTrav, kept_sendArrival, kept_putBuffer, kept_freeEntry, kept_dropTrav, kept_endRing]

theorem keptOut_execTraverseFault (h : Kept s) (p slot code) : KeptOut (execTraverseFault p slot code s) := by
  unfold execTraverseFault
  grind [keptOut_next, kept_faultTrav]

theorem keptOut_execFreedSlotNotice (h : Kept s) (p handle) : KeptOut (execFreedSlotNotice p handle s) := by
  unfold execFreedSlotNotice
  grind [keptOut_next, kept_setTrav, kept_setBuffer]

theorem kept_performPublish (h : Kept s) (k v) : Kept (s.performPublish k v) := by
  unfold State.performPublish
  grind [kept_showOverlay, kept_putBuffer, kept_onParcel, kept_with]

theorem keptOut_execPublish (h : Kept s) (k) : KeptOut (execPublish k s) := by
  have hp := fun u p b i => (keeps_publishCheck u p b i).run s h
  unfold execPublish
  grind [keptOut_next, kept_performPublish, kept_faultTrav, kept_with, kept_discardOverlay, kept_report]

theorem keptOut_execReductionTile (h : Kept s) (k) : KeptOut (execReductionTile k s) := by
  unfold execReductionTile
  grind [keptOut_next, kept_meetTile]

theorem keptOut_execSkipMarker (h : Kept s) (k) : KeptOut (execSkipMarker k s) := by
  unfold execSkipMarker
  grind [keptOut_next, kept_meetTile]

/-! ### The functions of `Machine/Station.lean` -/

theorem kept_onExchange (h : Kept s) (p f) : Kept (s.onExchange p f) := h

theorem kept_exchangeSwap (h : Kept s) (p n) : Kept (s.exchangeSwap p n) := by
  unfold State.exchangeSwap
  grind [kept_bump, kept_onExchange, kept_setStation, kept_foldl]

theorem kept_enterWrite (h : Kept s) (p runs source phase) : Kept (s.enterWrite p runs source phase) :=
  ⟨wf_writeAll (s.shadowAddress p) runs h.1, h.2⟩

theorem kept_dropUnused (h : Kept s) (p c) : Kept (s.dropUnused p c) := by
  unfold State.dropUnused
  grind [kept_discardOverlay]

theorem kept_dropCommands (h : Kept s) (p code fn value) : Kept (s.dropCommands p code fn value) := by
  unfold State.dropCommands
  grind [kept_post, kept_dropUnused, kept_log, kept_onParcel, kept_foldl]

theorem kept_dropHidden (h : Kept s) (p mark) : Kept (s.dropHidden p mark) := by
  unfold State.dropHidden
  grind [kept_discardOverlay]

theorem kept_refuseSignal (h : Kept s) (code sender p n) : Kept (s.refuseSignal code sender p n) := by
  unfold State.refuseSignal
  grind [kept_dropCommands, kept_faultTrav, kept_report, kept_dropHidden]

theorem kept_testLater (h : Kept s) (p n) : Kept (s.testLater p n) := by
  unfold State.testLater
  grind [kept_with]

theorem kept_testStation (h : Kept s) (p n) : Kept (s.testStation p n) := by
  unfold State.testStation
  grind [kept_exchangeSwap, kept_pollWakes, kept_setStation, kept_pollLaunches, kept_with]

theorem kept_latch (h : Kept s) (p n sender) : Kept (s.latch p n sender) := by
  unfold State.latch
  grind [kept_setStation, kept_refuseSignal]

theorem kept_onArrive (h : Kept s) (p n sender) : Kept (s.onArrive p n sender) := by
  unfold State.onArrive
  grind [kept_testLater, kept_latch, kept_setStation]

theorem kept_onBytes (h : Kept s) (p n k sender) : Kept (s.onBytes p n k sender) := by
  unfold State.onBytes
  grind [kept_testLater, kept_latch, kept_setStation]

theorem kept_settleExchange (h : Kept s) (p fuel) : Kept (s.settleExchange p fuel) := by
  induction fuel generalizing s with
  | zero => exact h
  | succ fuel ih =>
    unfold State.settleExchange
    grind [kept_onExchange, kept_enterWrite, kept_onArrive]

theorem kept_testStations (h : Kept s) : Kept s.testStations := by
  unfold State.testStations
  grind [kept_testStation, kept_settleExchange, kept_with, kept_foldl]

theorem kept_meetSignal (h : Kept s) (k p) {f : State → State} (hf : ∀ s, Kept s → Kept (f s)) :
    Kept (s.meetSignal k p f) :=
  kept_settleExchange (hf _ (kept_with h)) p _

theorem kept_signalGone (h : Kept s) (k p n sender) : Kept (s.signalGone k p n sender) := by
  unfold State.signalGone
  grind [kept_refuseSignal, kept_with]

theorem keptOut_execStationArrival (h : Kept s) (k) : KeptOut (execStationArrival k s) := by
  unfold execStationArrival
  grind [keptOut_next, kept_onArrive, kept_meetSignal, kept_signalGone]

theorem keptOut_execStationBytes (h : Kept s) (k) : KeptOut (execStationBytes k s) := by
  unfold execStationBytes
  grind [keptOut_next, kept_meetSignal, kept_onBytes, kept_signalGone]

theorem keptOut_execExchangeWriteArrival (h : Kept s) (k) : KeptOut (execExchangeWriteArrival k s) := by
  unfold execExchangeWriteArrival
  grind [keptOut_next, kept_meetSignal, kept_onExchange]

theorem keptOut_execFenceMarkerArrival (h : Kept s) (k) : KeptOut (execFenceMarkerArrival k s) := by
  unfold execFenceMarkerArrival
  grind [keptOut_next, kept_meetSignal, kept_onExchange, kept_signalGone]

theorem keptOut_execStnInit (h : Kept s) (ra rb) : KeptOut (execStnInit ra rb s) := by
  refine keptOut_attempt h _ _ ?_
  grind [keeps_bind, keeps_modify, kept_testStation, kept_settleExchange, keeps_check, keeps_scopeField, kept_advance,
    kept_onCore, kept_initStation]

theorem keptOut_execStnArv (h : Kept s) (ra) : KeptOut (execStnArv ra s) := by
  refine keptOut_attempt h _ _ ?_
  grind [keeps_bind, keeps_modify, keeps_myRegion, keeps_proceed, kept_onExchange, keeps_issueRelease, keeps_check,
    kept_with]

theorem keptOut_execStnExp (h : Kept s) (ra rb) : KeptOut (execStnExp ra rb s) := by
  refine keptOut_attempt h _ _ ?_
  grind [keeps_bind, keeps_modify, kept_setStation, keeps_check, kept_advance]

theorem keptOut_execStnDone (h : Kept s) (ra) : KeptOut (execStnDone ra s) := by
  refine keptOut_attempt h _ _ ?_
  grind [keeps_bind, keeps_modify, kept_testStation, kept_settleExchange, kept_setStation, keeps_check, kept_advance]

theorem keptOut_execStnTest (h : Kept s) (rd ra) : KeptOut (execStnTest rd ra s) := by
  refine keptOut_attempt h _ _ ?_
  grind [keeps_bind, keeps_modify, kept_acquire, keeps_finish, keeps_check]

/-! ### The functions of `Machine/Trellis.lean` -/

theorem keeps_readWindow (u p sc e row j more) : Keeps (readWindow u p sc e row j more) := by
  unfold readWindow
  grind [keeps_get, keeps_bind, keeps_pure, keeps_modify, keeps_throw, keeps_readRow, kept_onCore]

theorem kept_useGathered (h : Kept s) (p) : Kept (s.useGathered p) := h

theorem keeps_readRowScale (u p sc e row) : Keeps (readRowScale u p sc e row) := by
  unfold readRowScale
  grind [keeps_bind, keeps_pure, keeps_legendOf, keeps_readRow]

theorem kept_setWindow (h : Kept s) (p i v) : Kept (s.setWindow p i v) := h
theorem kept_grFlags (h : Kept s) (p fl) : Kept (s.grFlags p fl) := h

theorem keptOut_execTwSeek (h : Kept s) (rd ra rb) : KeptOut (execTwSeek rd ra rb s) := by
  refine keptOut_attempt h _ _ (keeps_bind (keeps_check ..) fun _ => keeps_bind (keeps_scopeField ..) fun sc =>
    keeps_bind (keeps_legendOf ..) fun e => ?_)
  grind [keeps_bind, keeps_modify, keeps_check, keeps_readWindow, kept_useGathered, kept_setWindow, keeps_finish]

theorem keptOut_execTwRead (h : Kept s) (rd ra) : KeptOut (execTwRead rd ra s) := by
  refine keptOut_attempt h _ _ ?_
  grind [keeps_bind, keeps_modify, keeps_legendOf, kept_grFlags, keeps_finish, kept_setWindow, keeps_readRowScale,
    keeps_check, keeps_readWindow, kept_useGathered]

theorem kept_onEnc (h : Kept s) (p f) : Kept (s.onEnc p f) := h
theorem kept_onEncQueue (h : Kept s) (v f) : Kept (s.onEncQueue v f) := h

theorem keptOut_execTwEnc (h : Kept s) (rd ra rb) : KeptOut (execTwEnc rd ra rb s) := by
  refine keptOut_attempt h _ _ (keeps_bind (keeps_check ..) fun _ => keeps_bind (keeps_scopeField ..) fun sc =>
    keeps_bind (keeps_aligned ..) fun _ => keeps_bind (keeps_issueRelease ..) fun _ =>
      keeps_bind (keeps_readVa ..) fun d => ?_)
  grind [keeps_bind, keeps_modify, keeps_check, keeps_legendOf, kept_openOverlay, kept_overlayScale, kept_onEnc,
    kept_onEncQueue, keeps_finish]

theorem keptOut_execTwStat (h : Kept s) (rd ra) : KeptOut (execTwStat rd ra s) := by
  refine keptOut_attempt h _ _ ?_
  grind [keeps_bind, keeps_finish, keeps_check]

theorem keeps_writeShadowed (u p sc shadow e row bit data) : Keeps (writeShadowed u p sc shadow e row bit data) := by
  unfold writeShadowed
  grind [keeps_bind, keeps_shadowSpan, keeps_writeRow, keeps_baseOf]

theorem keeps_encodeRow (p r) : Keeps (encodeRow p r) := by
  unfold encodeRow
  refine keeps_bind (keeps_legendOf ..) fun t => keeps_bind (keeps_legendOf ..) fun o =>
    keeps_bind (keeps_readRow ..) fun bs => ?_
  grind [keeps_bind, keeps_pure, keeps_check, keeps_readRowScale]

theorem keeps_writeEncoded (p r data) : Keeps (writeEncoded p r data) := by
  unfold writeEncoded
  grind [keeps_bind, keeps_pure, keeps_legendOf, keeps_writeShadowed, keeps_forM]

theorem keeps_beginRow (p r) : Keeps (beginRow p r) := by
  unfold beginRow
  grind [keeps_get, keeps_bind, keeps_pure, keeps_writeEncoded, keeps_encodeRow]

theorem kept_leaveEncoder (h : Kept s) (p) : Kept (s.leaveEncoder p) := h

theorem kept_faultEncoder (h : Kept s) (p code value) : Kept (s.faultEncoder p code value) := by
  unfold State.faultEncoder
  grind [kept_report, kept_discardOverlay, kept_leaveEncoder]

theorem kept_finishEncoder (h : Kept s) (p) : Kept (s.finishEncoder p) := by
  have hp := (keeps_publishCheck (.engine p) p false (s.parcel p).enc.outIndex).run s h
  have hn : (pure () : Act Unit) s = .ok () s := rfl
  unfold State.finishEncoder
  grind [kept_showOverlay, kept_faultEncoder, kept_leaveEncoder, kept_release, kept_sendArrival]

theorem kept_rowEncoded (h : Kept s) (p) : Kept (s.rowEncoded p) := by
  unfold State.rowEncoded
  grind [kept_onEnc, kept_finishEncoder]

theorem keptOut_execEncoderRow (h : Kept s) (prov) : KeptOut (execEncoderRow prov s) := by
  have hb := fun p r => (keeps_beginRow p r).run s h
  have hw := fun p r d => (keeps_writeEncoded p r d).run s h
  unfold execEncoderRow
  grind [keptOut_next, kept_finishEncoder, kept_rowEncoded, kept_onEnc, kept_faultEncoder]

theorem keptOut_execEncoderFault (h : Kept s) (prov code) : KeptOut (execEncoderFault prov code s) := by
  unfold execEncoderFault
  grind [keptOut_next, kept_faultEncoder]

/-! ### The functions of `Machine/Graticule.lean` -/

theorem kept_onGr (h : Kept s) (p f) : Kept (s.onGr p f) := h

theorem kept_setTileCode (h : Kept s) (p t i j code) : Kept (s.setTileCode p t i j code) := by
  unfold State.setTileCode
  grind [kept_homeWrite]

theorem kept_zeroTile (h : Kept s) (p t) : Kept (s.zeroTile p t) := by
  unfold State.zeroTile
  grind [kept_homeWrite]

theorem keeps_readCodes (p sc e row i0 n) : Keeps (readCodes p sc e row i0 n) := by
  unfold readCodes
  grind [keeps_bind, keeps_pure, keeps_readRow]

theorem keeps_readValues (p sc e ftz row i0 n) : Keeps (readValues p sc e ftz row i0 n) := by
  unfold readValues
  grind [keeps_bind, keeps_pure, keeps_readCodes, keeps_readScale]

theorem kept_putTile (h : Kept s) (p t rows) : Kept (s.putTile p t rows) := by
  unfold State.putTile
  grind [kept_setTileCode, kept_foldl]

theorem kept_forsake (h : Kept s) (p c) : Kept (s.forsake p c) := by
  unfold State.forsake
  grind [kept_onGr, kept_discardOverlay]

theorem kept_leaveStream (h : Kept s) (p c) : Kept (s.leaveStream p c) := by
  unfold State.leaveStream
  grind [kept_onPort]

theorem kept_dropRun (h : Kept s) (p r) : Kept (s.dropRun p r) := by
  unfold State.dropRun
  grind [kept_onGr, kept_leaveStream]

theorem kept_faultGr (h : Kept s) (p c code value) : Kept (s.faultGr p c code value) := by
  unfold State.faultGr
  grind [kept_dropCommands, kept_dropRun, kept_forsake, kept_leaveStream]

theorem keptOut_grAct (h : Kept s) (p c) {k : Act Unit} (hk : Keeps k) : KeptOut (s.grAct p c k) := by
  have := hk.run s h
  unfold State.grAct
  grind [keptOut_next, kept_faultGr]

theorem keeps_openValue : Keeps (openValue) := by
  unfold openValue
  grind [keeps_get, keeps_pure]

theorem keeps_grCheck (ok code) : Keeps (grCheck ok code) := by
  unfold grCheck
  grind [keeps_bind, keeps_openValue, keeps_check]

theorem keeps_need (ok) : Keeps (need ok) := by
  unfold need
  grind [keeps_check]

theorem keeps_checkLoad (p c) : Keeps (checkLoad p c) := by
  unfold checkLoad
  grind [keeps_bind, keeps_legendOf, keeps_need]

theorem keeps_checkMultiply (p c) : Keeps (checkMultiply p c) := by
  unfold checkMultiply
  grind [keeps_bind, keeps_legendOf, keeps_need]

theorem keeps_checkScan (p c) : Keeps (checkScan p c) := by
  unfold checkScan
  grind [keeps_bind, keeps_pure, keeps_legendOf, keeps_need]

theorem keeps_checkDrain (p c) : Keeps (checkDrain p c) := by
  unfold checkDrain
  grind [keeps_bind, keeps_legendOf, keeps_need]

theorem kept_holdStream (h : Kept s) (p) : Kept (s.holdStream p) := by
  unfold State.holdStream
  grind [kept_onPort]

theorem keeps_imageAddress (p c kind) : Keeps (imageAddress p c kind) := by
  unfold imageAddress
  grind [keeps_bind, keeps_pure, keeps_translate]

theorem keeps_restoreGr (p c) : Keeps (restoreGr p c) := by
  unfold restoreGr
  grind [keeps_bind, keeps_modify, kept_onGr, kept_dropCommands, kept_homeWrite, kept_dropRun, keeps_openValue,
    keeps_readSpan, keeps_imageAddress, kept_holdStream]

theorem keeps_restoreIssued (p c) : Keeps (restoreIssued p c) := by
  refine keeps_get fun s h => ?_
  have hr := (keeps_restoreGr p c).run s h
  grind [keeps_bind, keeps_set, keeps_throw, kept_dropCommands]

theorem keeps_statGr (p a) : Keeps (statGr p a) := by
  unfold statGr
  grind [keeps_get, keeps_bind, keeps_pure, keeps_modify, kept_onGr, keeps_need]

theorem keeps_issueGr (p fn a b ftz) : Keeps (issueGr p fn a b ftz) := by
  refine keeps_bind (keeps_need ..) fun _ => ?_
  extract_lets described body
  have hd : ∀ d, Keeps (described d) := by
    refine fun d => keeps_get fun s h => ?_
    extract_lets g c free issued checked
    have hc : ∀ r, Keeps (checked r) := by
      have hi : ∀ r, Keeps (issued r) := fun _ => keeps_pure _
      clear_value issued
      grind [keeps_bind, keeps_modify, keeps_check, keeps_restoreIssued, kept_openOverlay, kept_onParcel, kept_onGr]
    clear_value checked
    grind [keeps_bind, keeps_checkLoad, keeps_checkMultiply, keeps_checkScan, keeps_checkDrain]
  clear_value described
  have hb : ∀ sc, Keeps (body sc) := by
    refine fun sc => keeps_bind (keeps_need ..) fun _ => ?_
    extract_lets read fenced
    have hr : ∀ r, Keeps (read r) := by grind [keeps_bind, keeps_readVa]
    clear_value read
    grind [keeps_bind, keeps_modify, kept_release, keeps_aligned]
  clear_value body
  grind [keeps_bind, keeps_scopeField]

theorem keptOut_grInstr (h : Kept s) (i fn rd ra rb) : KeptOut (s.grInstr i fn rd ra rb) := by
  refine keptOut_attempt h _ _ ?_
  grind [keeps_bind, keeps_finish, keeps_issueGr]

theorem keptOut_execGrStat (h : Kept s) (rd ra) : KeptOut (execGrStat rd ra s) := by
  refine keptOut_attempt h _ _ ?_
  grind [keeps_bind, keeps_finish, keeps_statGr]

theorem keeps_issueStaged (p x) : Keeps (issueStaged p x) := by
  unfold issueStaged
  grind [keeps_get, keeps_bind, keeps_pure, keeps_raise, keeps_statGr, keeps_issueGr]

theorem keptOut_execFollowOnIssue (h : Kept s) (p slot) : KeptOut (execFollowOnIssue p slot s) := by
  have hi := fun x => (keeps_issueStaged p x).run s h
  unfold execFollowOnIssue
  grind [keptOut_next, kept_dropTrav, kept_setTrav, kept_report]

theorem keeps_runLoad (p c) : Keeps (runLoad p c) := by
  unfold runLoad
  grind [keeps_bind, keeps_pure, keeps_modify, kept_onGr, keeps_legendOf, keeps_readCodes, keeps_readScale,
    kept_homeWrite, keeps_readRow, keeps_readRowScale, keeps_mapM]

theorem keeps_startMultiply (p c) : Keeps (startMultiply p c) := by
  unfold startMultiply
  grind [keeps_get, keeps_bind, keeps_legendOf, keeps_grCheck]

theorem kept_beginTile (h : Kept s) (p r) : Kept (s.beginTile p r) := by
  unfold State.beginTile
  grind [kept_onGr, kept_zeroTile]

theorem keptOut_execGraticuleCommandStart (h : Kept s) (p) : KeptOut (execGraticuleCommandStart p s) := by
  have hl := fun c => (keeps_runLoad p c).run s h
  have hq : ∀ f, Kept (s.onGr p f) := fun f => kept_onGr h ..
  have hm := fun c f => (keeps_startMultiply p c).run (s.onGr p f) (hq f)
  unfold execGraticuleCommandStart
  grind [keptOut_next, kept_onGr, kept_faultGr, kept_onPort, kept_beginTile, kept_zeroTile]

theorem keeps_chunkRows (p c a i0 rows k0 n) : Keeps (chunkRows p c a i0 rows k0 n) := by
  unfold chunkRows
  grind [keeps_bind, keeps_pure, keeps_readValues, keeps_mapM]

theorem keeps_runChunk (p r) : Keeps (runChunk p r) := by
  unfold runChunk
  grind [keeps_get, keeps_bind, keeps_pure, keeps_modify, kept_onGr, keeps_legendOf, kept_grFlags, kept_putTile,
    keeps_reserveCheck, keeps_chunkRows]

theorem keeps_writeConverted (p c e word row col0 codes gen) : Keeps (writeConverted p c e word row col0 codes gen) := by
  unfold writeConverted
  grind [keeps_bind, keeps_pure, keeps_legendOf, keeps_writeShadowed, keeps_foldlM]

theorem keeps_runStep (p r) : Keeps (runStep p r) := by
  refine keeps_get fun s h => keeps_bind (keeps_legendOf ..) fun a => keeps_bind (keeps_legendOf ..) fun b =>
    keeps_bind (keeps_mapM (fun _ => keeps_readValues ..) _) fun av =>
    keeps_bind (keeps_mapM (fun _ => keeps_readValues ..) _) fun bv => ?_
  dsimp only
  grind [keeps_bind, keeps_pure, keeps_modify, keeps_foldlM, keeps_legendOf, keeps_writeConverted, kept_putTile,
    kept_grFlags, kept_onGr]

theorem keptOut_execTileDone (h : Kept s) (p) : KeptOut (execTileDone p s) := by
  unfold execTileDone
  grind [keptOut_next, keptOut_grAct, keeps_runStep, keeps_runChunk, kept_beginTile]

theorem keptOut_execAStreamWord (h : Kept s) (p) : KeptOut (execAStreamWord p s) := by
  have hr := fun pa v => (keeps_reserveCheck (.graticule p) pa 64 v).run s h
  unfold execAStreamWord
  grind [keptOut_next, kept_onPort, kept_faultGr, kept_homeWrite, kept_onGr]

theorem keeps_drainRows (p d e n i acc) : Keeps (drainRows p d e n i acc) := by
  induction n generalizing i acc with
  | zero => exact keeps_pure acc
  | succ n ih => exact keeps_get fun s h => keeps_bind (keeps_writeConverted ..) fun _ => ih _ _

theorem keptOut_execDrainComplete (h : Kept s) (p) : KeptOut (execDrainComplete p s) := by
  unfold execDrainComplete
  split
  · exact keptOut_next h
  next d _ _ =>
    split
    · exact keptOut_next h
    extract_lets act
    have ha : Keeps act := keeps_bind (keeps_legendOf ..) fun e => keeps_drainRows ..
    have := ha.run s h
    grind [keptOut_next, kept_grFlags, kept_onGr, kept_faultGr]

theorem keptOut_execGraticuleCommandComplete (h : Kept s) (p) : KeptOut (execGraticuleCommandComplete p s) := by
  have hp := fun i => (keeps_publishCheck (.graticule p) p false i).run s h
  have hn : (pure () : Act Unit) s = .ok () s := rfl
  unfold execGraticuleCommandComplete
  grind [keptOut_next, kept_onGr, kept_faultGr, kept_showOverlay, kept_leaveStream, kept_release, kept_sendArrival]

theorem keptOut_execGraticuleFault (h : Kept s) (p code) : KeptOut (execGraticuleFault p code s) := by
  unfold execGraticuleFault
  grind [keptOut_next, kept_onGr, kept_faultGr]

theorem keptOut_execGraticulePause (h : Kept s) (p) : KeptOut (execGraticulePause p s) := by
  unfold execGraticulePause
  extract_lets g done image
  split
  · exact keptOut_next h
  next c _ =>
    split
    · exact keptOut_next h
    extract_lets act
    have ha : Keeps act := keeps_bind (keeps_writeSpan ..) fun _ => keeps_imageAddress ..
    have := ha.run s h
    clear_value act
    grind [keptOut_next, kept_onGr, kept_with, kept_faultGr]

/-! ### The functions of `Machine/Branch.lean` -/

theorem kept_jump (h : Kept s) (t) : Kept (s.jump t) := h

theorem keptOut_branch (h : Kept s) (i cond ra rb off) : KeptOut (s.branch i cond ra rb off) := by
  refine keptOut_attempt h _ _ ?_
  grind [keeps_bind, keeps_set, keeps_proceed, kept_jump, keeps_aligned]

theorem kept_linkJump (h : Kept s) (rd t) : Kept (s.linkJump rd t) := h

theorem keptOut_execJal (h : Kept s) (rd off) : KeptOut (execJal rd off s) := by
  refine keptOut_attempt h _ _ ?_
  grind [keeps_bind, keeps_set, keeps_aligned, kept_linkJump]

theorem keptOut_execJalr (h : Kept s) (rd ra imm) : KeptOut (execJalr rd ra imm s) := by
  refine keptOut_attempt h _ _ ?_
  grind [keeps_bind, keeps_set, keeps_aligned, kept_linkJump]

/-! ### The functions of `Machine/Task.lean` -/

theorem keptOut_armBy (h : Kept s) (i cond arg time control) : KeptOut (s.armBy i cond arg time control) := by
  refine keptOut_attempt h _ _ ?_
  grind [keeps_bind, keeps_modify, kept_arm, keeps_check, kept_advance]

theorem keptOut_execPost (h : Kept s) (rd ra rb) : KeptOut (execPost rd ra rb s) := by
  refine keptOut_attempt h _ _ ?_
  grind [keeps_bind, keeps_modify, keeps_throw, keeps_myRegion, keeps_check, kept_advance, kept_onCore]

theorem keptOut_execBindl (h : Kept s) (rd ra rb) : KeptOut (execBindl rd ra rb s) := by
  refine keptOut_attempt h _ _ ?_
  grind [keeps_bind, keeps_modify, keeps_check, keeps_aligned, kept_advance, kept_onCore]

theorem keptOut_execChp (h : Kept s) (ra rb) : KeptOut (execChp ra rb s) := by
  refine keptOut_attempt h _ _ ?_
  grind [keeps_bind, keeps_modify, keeps_check, kept_advance, kept_onCore]

theorem keptOut_csr (h : Kept s) (i rd num f) : KeptOut (s.csr i rd num f) := by
  refine keptOut_attempt h _ _ ?_
  split
  · exact keeps_raise ..
  next old _ =>
    extract_lets written
    have hw : ∀ r, Keeps (written r) := fun _ => keeps_finish ..
    clear_value written
    grind [keeps_bind, keeps_modify, keeps_check, kept_onCore]

theorem keptOut_execTret (h : Kept s) : KeptOut (execTret s) := by
  refine keptOut_attempt h _ _ ?_
  grind [keeps_bind, keeps_set, keeps_check, kept_trapReturn, keeps_aligned]

theorem keptOut_execEcall (h : Kept s) (ra rb) : KeptOut (execEcall ra rb s) := by
  refine keptOut_attempt h _ _ ?_
  grind [keeps_bind, keeps_set, keeps_myRegion, keeps_proceed, kept_onRegion, kept_log, keeps_check, kept_release,
    kept_advance, kept_endRegion]

theorem keptOut_execOutboundPacketSend (h : Kept s) (p dest) : KeptOut (execOutboundPacketSend p dest s) := by
  unfold execOutboundPacketSend
  grind [keptOut_next, kept_onCore, kept_with]

theorem keptOut_execPacketArrival (h : Kept s) (k) : KeptOut (execPacketArrival k s) := by
  unfold execPacketArrival
  grind [keptOut_next, kept_stopAt, kept_abortAt, kept_onCore, kept_with]

theorem kept_startTask (h : Kept s) (p k ch e rest) : Kept (s.startTask p k ch e rest) := by
  unfold State.startTask
  grind [kept_pollWakes, kept_onCore]

theorem kept_afterStart (h : Kept s) (p ch e) : Kept (s.afterStart p ch e) := by
  unfold State.afterStart
  grind [kept_trapEntry, kept_stopAt]

theorem kept_dispatchStop (h : Kept s) (p) : Kept (s.dispatchStop p) := by
  unfold State.dispatchStop
  grind [kept_startTask, kept_afterStart, kept_onCore]

theorem keptOut_execTaskDispatch (h : Kept s) (p) : KeptOut (execTaskDispatch p s) := by
  unfold execTaskDispatch
  grind [keptOut_next, kept_startTask, kept_dispatchStop, kept_afterStart]

theorem keptOut_execChannelPromotion (h : Kept s) (p ch) : KeptOut (execChannelPromotion p ch s) := by
  unfold execChannelPromotion
  grind [keptOut_next, kept_onCore]

theorem keptOut_execTimeWakeupFire (h : Kept s) (p ch) : KeptOut (execTimeWakeupFire p ch s) := by
  unfold execTimeWakeupFire
  grind [keptOut_next, kept_onCore]

theorem kept_refuseDebug (h : Kept s) (code) : Kept (s.refuseDebug code) := h

theorem kept_byDebugger (h : Kept s) {r : Except Byte State} (hr : KeptOk r) : Kept (s.byDebugger r) := by
  have := hr.kept
  unfold State.byDebugger
  grind [kept_refuseDebug]

theorem keptOut_execControlRegisterWrite (h : Kept s) (p num value) :
    KeptOut (execControlRegisterWrite p num value s) := by
  unfold execControlRegisterWrite
  grind [keptOut_next, kept_byDebugger, keptOk_windowRegister]

theorem keptOut_execBindingWrite (h : Kept s) (p ch handler arg) : KeptOut (execBindingWrite p ch handler arg s) := by
  unfold execBindingWrite
  grind [keptOut_next, keptOk_windowBinding, kept_byDebugger]

theorem keptOut_execReadyBitsWrite (h : Kept s) (p value) : KeptOut (execReadyBitsWrite p value s) := by
  unfold execReadyBitsWrite
  grind [keptOut_next]

theorem kept_windowArm (h : Kept s) (p ch cond value) : Kept (s.windowArm p ch cond value) := by
  unfold State.windowArm
  grind [kept_refuseDebug, keptOk_windowSlot, kept_byDebugger]

theorem keptOut_execWakeupSlotArgumentWrite (h : Kept s) (p ch arg time) :
    KeptOut (execWakeupSlotArgumentWrite p ch arg time s) := by
  unfold execWakeupSlotArgumentWrite
  grind [keptOut_next, kept_refuseDebug, kept_windowSlotData]

/-! ### The functions of `Machine/CellEvents.lean` -/

theorem kept_respond (h : Kept s) (p m e x) : Kept (s.respond p m e x) := by
  unfold State.respond
  grind [kept_stir, kept_onCell]

theorem keeps_hostEntry (p m e address sent) : Keeps (hostEntry p m e address sent) := by
  unfold hostEntry
  grind [keeps_get, keeps_bind, keeps_set, keeps_throw, kept_askHost, keeps_check, kept_onCell]

theorem keeps_storeSectorVersion (u m data valid keep k) : Keeps (storeSectorVersion u m data valid keep k) := by
  unfold storeSectorVersion
  grind [keeps_get, keeps_bind, keeps_pure, keeps_modify, kept_keepVersion, kept_extendSector, kept_storeVersion,
    kept_foldl, wf_write, kept_mk, mem_wf_of_kept, deep_wf_of_kept]

theorem keeps_performEntry (p m e) : Keeps (performEntry p m e) := by
  unfold performEntry
  extract_lets u
  cases e.op
  case hout w =>
    refine keeps_get fun s h => ?_
    have ht := (keeps_translate u e.va .write).run s h
    grind [keeps_bind, keeps_pure, keeps_raise, keeps_throw, keeps_set, keeps_writeMasked, kept_release]
  case proj w =>
    refine keeps_get fun s h => ?_
    have hp := kept_probe h u e.va (if w then .write else .read)
    grind [keeps_bind, keeps_pure, keeps_throw, keeps_set, kept_holdWalk, kept_elim]
  case load => grind [keeps_bind, keeps_pure, keeps_translate, keeps_hostEntry, keeps_readAt]
  case buffer =>
    grind [keeps_bind, keeps_get, keeps_pure, keeps_modify, keeps_reserveCheck, kept_freeEntry]
  case store => grind [keeps_bind, keeps_pure, keeps_writeMasked]
  case walk => exact keeps_throw _
  case atom =>
    grind [keeps_bind, keeps_pure, keeps_translate, keeps_hostEntry, keeps_check, keeps_atomicAt]
  case ldv => grind [keeps_bind, keeps_pure, keeps_throw, keeps_translate, keeps_loadVersion]
  case stv =>
    grind [keeps_bind, keeps_pure, keeps_modify, keeps_translate, keeps_versionCheck, keeps_check, kept_release,
      keeps_storeSectorVersion]

theorem kept_lateFreeze (h : Kept s) (p m e code value) : Kept (s.lateFreeze p m e code value) := by
  unfold State.lateFreeze
  grind [kept_freeze, kept_needMet, kept_dropReads, kept_onCell]

theorem kept_portResponse (h : Kept s) (p m) : Kept (s.portResponse p m) := by
  have he := fun e => (keeps_performEntry p m e).run s h
  unfold State.portResponse
  grind [kept_respond]

theorem keptOut_execHeldLdvComplete (h : Kept s) (p m) : KeptOut (execHeldLdvComplete p m s) := by
  unfold execHeldLdvComplete
  grind [keptOut_next, kept_portResponse]

theorem keeps_walkNode (p m e tag place offset limit count) : Keeps (walkNode p m e tag place offset limit count) := by
  unfold walkNode
  grind [keeps_bind, keeps_pure, keeps_translate, keeps_aligned, keeps_readAt, keeps_hostEntry]

theorem kept_walkOn (h : Kept s) (p m e tag place offset limit count x next) :
    Kept (s.walkOn p m e tag place offset limit count x next) := by
  unfold State.walkOn
  grind [kept_stir, kept_onCell]

theorem keptOut_execWalkNode (h : Kept s) (p m) : KeptOut (execWalkNode p m s) := by
  have hw := fun e tag f o l c => (keeps_walkNode p m e tag f o l c).run s h
  unfold execWalkNode
  grind [keptOut_next, kept_walkOn]

theorem keptOut_execLateFault (h : Kept s) (p m) : KeptOut (execLateFault p m s) := by
  unfold execLateFault
  grind [keptOut_next, kept_lateFreeze]

theorem keptOut_execDelayExpiry (h : Kept s) (p m q) : KeptOut (execDelayExpiry p m q s) := by
  unfold execDelayExpiry
  grind [keptOut_next, kept_onCell]

theorem kept_enterQueue (h : Kept s) (p m q x) : Kept (s.enterQueue p m q x) := by
  unfold State.enterQueue
  grind [kept_stir, kept_onCell, kept_notice]

theorem keptOut_execInputWordArrival (h : Kept s) (src) : KeptOut (execInputWordArrival src s) := by
  unfold execInputWordArrival
  grind [keptOut_next, kept_onPort, kept_enterQueue, kept_onCell, kept_dueEmit]

theorem keptOut_execOutputWordSend (h : Kept s) (p m q) : KeptOut (execOutputWordSend p m q s) := by
  unfold execOutputWordSend
  grind [keptOut_next, kept_onPort, kept_onCell]

theorem keptOut_execCellHalt (h : Kept s) (p m) : KeptOut (execCellHalt p m s) := by
  unfold execCellHalt
  grind [keptOut_next, kept_onCell]

theorem keptOut_execCellPoisoned (h : Kept s) (p m) : KeptOut (execCellPoisoned p m s) := by
  unfold execCellPoisoned
  grind [keptOut_next, kept_poisonSink, kept_onCell]

theorem keptOut_execWidenerReleaseComplete (h : Kept s) (p m) : KeptOut (execWidenerReleaseComplete p m s) := by
  unfold execWidenerReleaseComplete
  grind [keptOut_next, kept_acquire, kept_onCell, kept_release, kept_foldl]

theorem kept_writeMap (h : Kept s) (o va pages) : Kept (writeMap o va pages s).1 := by
  refine kept_foldl_fst (fun acc e k => ?_) _ _ h
  extract_lets a act
  have ha : Keeps act := by grind [keeps_bind, keeps_pure, keeps_translate, keeps_writeAt]
  have := ha.run acc.1 k
  grind

theorem kept_hangFire (h : Kept s) (o r) : Kept (s.hangFire o r) := by
  unfold State.hangFire
  grind [kept_post, kept_writeMap, kept_onRegion, kept_log, kept_onCell, kept_foldl]

theorem keptOut_execHangMonitorFire (h : Kept s) (origin) : KeptOut (execHangMonitorFire origin s) := by
  unfold execHangMonitorFire
  grind [keptOut_next, kept_hangFire]

theorem kept_windowWrite (h : Kept s) (w p) {r : Except Byte State} (hr : KeptOk r) : Kept (s.windowWrite w p r) := by
  have := hr.kept
  unfold State.windowWrite
  grind [kept_refuseDebug]

theorem keptOut_execLaneRegisterWindowWrite (h : Kept s) (p m off bytes) :
    KeptOut (execLaneRegisterWindowWrite p m off bytes s) := by
  unfold execLaneRegisterWindowWrite
  grind [keptOut_next, kept_refuseDebug, kept_onCell]

theorem keptOut_execContextStoreWrite (h : Kept s) (p m off bytes w) :
    KeptOut (execContextStoreWrite p m off bytes w s) := by
  unfold execContextStoreWrite
  grind [keptOut_next, keptOk_contextWrite, kept_windowWrite]

theorem keptOut_execQueueWindowWrite (h : Kept s) (p m off bytes w) :
    KeptOut (execQueueWindowWrite p m off bytes w s) := by
  unfold execQueueWindowWrite
  have hr : KeptOk (if 0x400 < off + bytes.length then .error codePermission else s.queueWindowWrite p m off bytes) := by
    grind [keptOk_error, keptOk_queueWindowWrite]
  exact keptOut_next (kept_windowWrite h w p hr)

/-! ### The functions of `Machine/Compass.lean` -/

theorem kept_setQuery (h : Kept s) (sheet q) : Kept (s.setQuery sheet q) := h
theorem kept_intoPort (h : Kept s) (p port xs) : Kept (s.intoPort p port xs) := h

theorem kept_sendWaiting (h : Kept s) (sheet q) : Kept (s.sendWaiting sheet q) := by
  refine kept_ite (kept_setQuery h ..) (kept_setQuery (kept_foldl_fst (fun acc r k => ?_) _ _ h) ..)
  grind [kept_enterQueue]

theorem kept_decide (h : Kept s) (sheet q x) : Kept (s.decide sheet q x) := by
  unfold State.decide
  grind [kept_intoPort, kept_setQuery, kept_sendWaiting]

theorem kept_enrol (h : Kept s) (sheet q x) : Kept (s.enrol sheet q x) := by
  unfold State.enrol
  grind [kept_setQuery, kept_decide]

theorem keptOut_execRecordAdmission (h : Kept s) (sheet) : KeptOut (execRecordAdmission sheet s) := by
  unfold execRecordAdmission
  grind [keptOut_next, kept_onPort, kept_enrol, kept_poisonSink, kept_setQuery, kept_sendWaiting]

theorem keptOut_execRecordReturn (h : Kept s) (sheet) : KeptOut (execRecordReturn sheet s) := by
  have h1 : ∀ f p g, Kept (({ s with compasses := s.compasses.alter Compass.reset sheet f } : State).onParcel p g) :=
    fun _ _ _ => kept_onParcel (kept_with h) ..
  unfold execRecordReturn
  split
  · exact keptOut_next h
  next p x rest _ =>
    split
    · exact keptOut_next h
    extract_lets s1 s2
    have h2 : Kept s2 := h1 ..
    clear_value s2
    grind [keptOut_next, kept_setQuery, kept_decide]

theorem kept_leaveSlot (h : Kept s) (q i) : Kept (s.leaveSlot q i) := by
  unfold State.leaveSlot
  grind [kept_onPort]

theorem kept_freeQuery (h : Kept s) (sheet q) : Kept (s.freeQuery sheet q) := by
  unfold State.freeQuery
  grind [kept_leaveSlot, kept_onPort, kept_onParcel, kept_setQuery, kept_foldl]

theorem kept_closeQuery (h : Kept s) (sheet q) : Kept (s.closeQuery sheet q) := by
  unfold State.closeQuery
  grind [kept_sendArrival, kept_freeQuery]

theorem kept_haltQuery (h : Kept s) (sheet q slot code) : Kept (s.haltQuery sheet q slot code) := by
  unfold State.haltQuery
  grind [kept_closeQuery, kept_report, kept_setQuery]

theorem keeps_joinCheck (q o side) : Keeps (joinCheck q o side) := by
  unfold joinCheck
  grind [keeps_bind, keeps_pure, keeps_reserveCheck]

theorem keptOut_execJoinRecord (h : Kept s) (sheet) : KeptOut (execJoinRecord sheet s) := by
  have hj := fun q o side => (keeps_joinCheck q o side).run s h
  unfold execJoinRecord
  split
  · exact keptOut_next h
  split
  · exact keptOut_next h
  split
  · exact keptOut_next h
  split
  · exact keptOut_next h
  split
  · dsimp only
    split
    · exact keptOut_next (kept_haltQuery h ..)
    split
    · grind [keptOut_next]
    · exact keptOut_next (kept_haltQuery h ..)
    · exact keptOut_next (kept_setQuery (kept_intoPort (kept_homeWrite _ _ _ h) ..) ..)
  · exact keptOut_next h

theorem keeps_cpRegion (a) : Keeps (cpRegion a) := by
  unfold cpRegion
  grind [keeps_get, keeps_bind, keeps_pure, keeps_raise, keeps_check]

theorem keeps_cpParcel (a rel) : Keeps (cpParcel a rel) := by
  unfold cpParcel
  grind [keeps_get, keeps_bind, keeps_pure, keeps_check, keeps_cpRegion]

theorem keeps_cpQuery (a) : Keeps (cpQuery a) := by
  unfold cpQuery
  grind [keeps_get, keeps_pure, keeps_raise]

theorem keeps_putQuery (q) : Keeps (putQuery q) := by
  unfold putQuery
  grind [keeps_modify, kept_setQuery]

theorem keptOut_execCpOpen (h : Kept s) (ra) : KeptOut (execCpOpen ra s) := by
  refine keptOut_attempt h _ _ (keeps_bind (keeps_cpRegion ..) fun _ => keeps_bind (keeps_check ..) fun _ =>
    keeps_bind (keeps_cpParcel ..) fun out => keeps_bind (keeps_cpParcel ..) fun inp =>
      keeps_bind (keeps_check ..) fun _ =>
    keeps_bind (keeps_putQuery ..) fun _ => keeps_bind (keeps_modify fun t k => ?_) fun _ => keeps_proceed)
  exact kept_onPort (kept_onPort k ..) ..

theorem keeps_defineSlot (a q i o) : Keeps (defineSlot a q i o) := by
  unfold defineSlot
  grind [keeps_bind, keeps_modify, keeps_proceed, kept_leaveSlot, keeps_putQuery, kept_onPort, keeps_check]

theorem keptOut_execCpOper (h : Kept s) (ra rb) : KeptOut (execCpOper ra rb s) := by
  refine keptOut_attempt h _ _ ?_
  grind [keeps_bind, keeps_cpParcel, keeps_cpQuery, keeps_check, keeps_cpRegion, keeps_defineSlot]

theorem keptOut_execCpJoin (h : Kept s) (ra rb) : KeptOut (execCpJoin ra rb s) := by
  refine keptOut_attempt h _ _ (keeps_bind (keeps_cpRegion ..) fun _ => keeps_bind (keeps_check ..) fun _ =>
    keeps_bind (keeps_check ..) fun _ => keeps_bind (keeps_cpQuery ..) fun q => keeps_bind (keeps_check ..) fun _ =>
    keeps_bind (keeps_issueRelease ..) fun _ => keeps_bind (keeps_withXa _ (keeps_readVa ..)) fun d => ?_)
  grind [keeps_bind, keeps_check, keeps_cpParcel, keeps_defineSlot]

theorem keptOut_execCpExpl (h : Kept s) (ra) : KeptOut (execCpExpl ra s) := by
  refine keptOut_attempt h _ _ ?_
  grind [keeps_bind, keeps_proceed, keeps_putQuery, keeps_cpQuery, keeps_check, keeps_cpRegion]

theorem keptOut_execCpFix (h : Kept s) (ra) : KeptOut (execCpFix ra s) := by
  refine keptOut_attempt h _ _ ?_
  grind [keeps_bind, keeps_proceed, keeps_putQuery, keeps_cpQuery, keeps_check, keeps_cpRegion]

theorem keptOut_execCpObs (h : Kept s) (rd ra) : KeptOut (execCpObs rd ra s) := by
  refine keptOut_attempt h _ _ ?_
  grind [keeps_bind, keeps_cpQuery, keeps_finish, keeps_check, keeps_cpRegion]

theorem keptOut_execCpClose (h : Kept s) (ra) : KeptOut (execCpClose ra s) := by
  refine keptOut_attempt h _ _ ?_
  grind [keeps_bind, keeps_modify, keeps_proceed, keeps_putQuery, keeps_cpQuery, kept_closeQuery, keeps_check,
    keeps_cpRegion]

theorem keptOut_execQueryClosed (h : Kept s) (sheet) : KeptOut (execQueryClosed sheet s) := by
  unfold execQueryClosed
  grind [keptOut_next, kept_closeQuery]

/-! ### The functions of `Machine/Scribe.lean` -/

theorem kept_onScribe (h : Kept s) (p f) : Kept (s.onScribe p f) := h

theorem keeps_sourceBytes (p x pos n) : Keeps (sourceBytes p x pos n).run := by
  unfold sourceBytes
  split
  · exact keeps_pure _
  · exact keeps_bind (keeps_readSpan ..) fun _ => keeps_pure _

theorem keeps_readHead (p x pos) : Keeps (readHead p x pos).run := by
  refine keeps_scan_bind (keeps_sourceBytes ..) fun bs => ?_
  grind [keeps_scan_bind, keeps_scan_pure, keeps_scan_throw, keeps_sourceBytes]

theorem keeps_untagged (p x n pos rs) : Keeps (untagged p x n pos rs).run := by
  induction n generalizing pos rs with
  | zero => exact keeps_scan_throw _
  | succ n ih =>
    unfold untagged
    grind [keeps_scan_bind, keeps_scan_pure, keeps_readHead]

theorem keeps_skipItems (p x n pos l rs) : Keeps (skipItems p x n pos l rs).run := by
  induction n generalizing pos l rs with
  | zero => cases l <;> grind [skipItems, keeps_scan_pure, keeps_scan_throw]
  | succ n ih =>
    unfold skipItems
    grind [keeps_scan_bind, keeps_scan_pure, keeps_scan_throw, keeps_untagged]

theorem keeps_readItem (p x pos) : Keeps (readItem p x pos).run := by
  refine keeps_scan_bind (keeps_untagged ..) fun hd => keeps_scan_bind (keeps_skipItems ..) fun e => ?_
  grind [keeps_scan_bind, keeps_scan_pure, keeps_sourceBytes]

theorem keeps_readPairs (p x es n k pos vals rs) : Keeps (readPairs p x es n k pos vals rs).run := by
  induction n generalizing k pos vals rs with
  | zero =>
    cases k with
    | zero => exact keeps_scan_pure _
    | succ k => exact keeps_scan_throw _
  | succ n ih =>
    unfold readPairs
    grind [keeps_scan_bind, keeps_scan_pure, keeps_readItem]

theorem keeps_decodeItem (p x) : Keeps (decodeItem p x).run := by
  refine keeps_scan_bind (keeps_untagged ..) fun hd => ?_
  grind [keeps_scan_bind, keeps_scan_pure, keeps_readPairs, keeps_skipItems]

theorem keptOut_execScrOpen (h : Kept s) (rd ra rb) : KeptOut (execScrOpen rd ra rb s) := by
  refine keptOut_attempt h _ _ (keeps_bind (keeps_check ..) fun _ => keeps_bind (keeps_scopeField ..) fun sc =>
    keeps_bind (keeps_check ..) fun _ => keeps_bind (keeps_issueRelease ..) fun _ =>
    keeps_bind (keeps_withXa _ (keeps_readVa ..)) fun d => keeps_bind (keeps_check ..) fun _ =>
      keeps_bind (keeps_check ..) fun _ =>
    keeps_bind (keeps_withXa _ (keeps_readSpan ..)) fun head => ?_)
  extract_lets n old fresh opened
  have ho : ∀ entries, Keeps (opened entries) := by
    intro entries
    unfold opened
    extract_lets schema x stored checked
    have hc : ∀ r, Keeps (checked r) := by
      refine fun _ => keeps_bind (keeps_check ..) fun _ => ?_
      grind [keeps_bind, keeps_modify, keeps_check, keeps_myRegion, kept_onPort, kept_onScribe, keeps_finish]
    clear_value checked
    grind [keeps_bind, keeps_raise]
  clear_value opened
  grind [keeps_bind, keeps_withXa, keeps_readSpan]

theorem keptOut_execScrCnt (h : Kept s) (rd ra) : KeptOut (execScrCnt rd ra s) := by
  refine keptOut_attempt h _ _ ?_
  grind [keeps_bind, keeps_modify, keeps_finish, keeps_check, kept_onScribe]

theorem kept_endSource (h : Kept s) (p) : Kept (s.endSource p) := by
  unfold State.endSource
  grind [kept_onPort, kept_onScribe]

theorem kept_sendSample (h : Kept s) (p k) : Kept (s.sendSample p k) := by
  unfold State.sendSample
  grind [kept_enrol, kept_intoPort, kept_onScribe]

theorem kept_scribeServed (h : Kept s) (p) : Kept (s.scribeServed p) := h

theorem keptOut_execScribeItem (h : Kept s) (p) : KeptOut (execScribeItem p s) := by
  have hd := (keeps_decodeItem p (s.scribe p)).run s h
  unfold execScribeItem
  grind [keptOut_next, kept_sendSample, kept_onScribe, kept_scribeServed, kept_endSource, kept_report]

theorem keptOut_execScribeSourceComplete (h : Kept s) (p) : KeptOut (execScribeSourceComplete p s) := by
  unfold execScribeSourceComplete
  grind [keptOut_next, kept_endSource, kept_sendArrival, kept_release]

/-! ### The functions of `Machine/Segment.lean` -/

theorem kept_setSegment (h : Kept s) (d g) : Kept (s.setSegment d g) := h

theorem kept_everyUnit (h : Kept s) (o r) {f : State → Writer → State} (hf : ∀ s u, Kept s → Kept (f s u)) :
    Kept (s.everyUnit o r f) :=
  kept_foldl h (fun _ _ k => kept_foldl (hf _ _ (hf _ _ k)) (fun _ _ k => hf _ _ k) _) _

theorem kept_acquireAll (h : Kept s) (o r sc) : Kept (s.acquireAll o r sc) := by
  unfold State.acquireAll
  grind [kept_acquire, kept_everyUnit]

theorem kept_releaseAll (h : Kept s) (o r sc) : Kept (s.releaseAll o r sc) := by
  unfold State.releaseAll
  grind [kept_everyUnit, kept_release]

theorem kept_segArrivals (h : Kept s) (l) : Kept (s.segArrivals l) := by
  unfold State.segArrivals
  grind [kept_sendArrival, kept_foldl]

theorem kept_attach (h : Kept s) (d g o l) : Kept (s.attach d g o l) := by
  unfold State.attach
  grind [kept_acquireAll, kept_segArrivals, kept_setSegment]

theorem keeps_backingAt (g va k) : Keeps (backingAt g va k) := by
  unfold backingAt
  grind [keeps_get, keeps_bind, keeps_pure, keeps_raise, keeps_settle, kept_frontLookup]

theorem keeps_backingPages (g k) : Keeps (backingPages g k) := by
  unfold backingPages
  grind [keeps_backingAt, keeps_mapM]

theorem kept_copyPages (h : Kept s) (src dst) : Kept (s.copyPages src dst) := by
  unfold State.copyPages
  grind [kept_homeWrite, kept_foldl]

theorem kept_tellRequests (h : Kept s) (l code va) : Kept (s.tellRequests l code va) := by
  unfold State.tellRequests
  grind [kept_report, kept_foldl]

theorem kept_serveWaiting (h : Kept s) (d l) : Kept (s.serveWaiting d l) := by
  induction l generalizing s with
  | nil => exact h
  | cons x l ih =>
    unfold State.serveWaiting
    grind [kept_tellRequests, kept_attach, kept_setSegment]

theorem kept_failReload (h : Kept s) (d g code va) : Kept (s.failReload d g code va) := by
  unfold State.failReload
  grind [kept_tellRequests, kept_log, kept_setSegment]

theorem kept_failTransfer (h : Kept s) (d g code va) : Kept (s.failTransfer d g code va) := by
  unfold State.failTransfer
  grind [kept_tellRequests, kept_serveWaiting, kept_log, kept_failReload, kept_setSegment, kept_foldl]

theorem kept_finishSpill (h : Kept s) (d g pas) : Kept (s.finishSpill d g pas) := by
  unfold State.finishSpill
  grind [kept_tellRequests, kept_copyPages, kept_segArrivals, kept_setSegment]

theorem keptOut_execSpillComplete (h : Kept s) (seg) : KeptOut (execSpillComplete seg s) := by
  have hb := fun g => (keeps_backingPages g .write).run s h
  unfold execSpillComplete
  grind [keptOut_next, kept_finishSpill, kept_failTransfer]

theorem keptOut_execReloadComplete (h : Kept s) (seg) : KeptOut (execReloadComplete seg s) := by
  unfold execReloadComplete
  split
  · exact keptOut_next h
  next g _ =>
    split
    · dsimp only
      split
      · exact keptOut_next (kept_failTransfer h ..)
      split
      · exact keptOut_next h
      split
      · exact keptOut_next (kept_setSegment h ..)
      have hb := (keeps_backingPages g .read).run s h
      grind [keptOut_next, kept_failTransfer, kept_setSegment, kept_copyPages, kept_attach]
    · exact keptOut_next h

theorem keptOut_execSegmentTransferFault (h : Kept s) (seg code) : KeptOut (execSegmentTransferFault seg code s) := by
  unfold execSegmentTransferFault
  grind [keptOut_next, kept_failTransfer]

theorem keeps_namedSegment (a) : Keeps (namedSegment a) := by
  unfold namedSegment
  grind [keeps_get, keeps_bind, keeps_pure, keeps_raise, keeps_myRegion]

theorem keptOut_execSegName (h : Kept s) (rd ra rb) : KeptOut (execSegName rd ra rb s) := by
  refine keptOut_attempt h _ _ (keeps_bind (keeps_check ..) fun _ => keeps_bind (keeps_aligned ..) fun _ =>
    keeps_bind keeps_myRegion fun r => keeps_bind (keeps_issueRelease ..) fun _ =>
      keeps_bind (keeps_withXa _ (keeps_readVa ..)) fun d => ?_)
  grind [keeps_bind, keeps_modify, keeps_check, keeps_raise, kept_setSegment, keeps_finish]

theorem keptOut_execSegAtt (h : Kept s) (rd ra rb) : KeptOut (execSegAtt rd ra rb s) := by
  refine keptOut_attempt h _ _ (keeps_bind (keeps_check ..) fun _ => keeps_bind keeps_myRegion fun r =>
    keeps_bind (keeps_namedSegment ..) fun g => keeps_bind (keeps_check ..) fun _ =>
      keeps_bind (keeps_check ..) fun _ => ?_)
  grind [keeps_bind, keeps_modify, keeps_check, kept_attach, kept_setSegment, keeps_finish]

theorem keptOut_execSegDet (h : Kept s) (ra) : KeptOut (execSegDet ra s) := by
  refine keptOut_attempt h _ _ (keeps_bind (keeps_check ..) fun _ => keeps_bind keeps_myRegion fun r =>
    keeps_bind (keeps_namedSegment ..) fun g => keeps_bind (keeps_check ..) fun _ => ?_)
  grind [keeps_bind, keeps_modify, keeps_throw, kept_onCore, kept_releaseAll, kept_setSegment, keeps_proceed]

theorem keptOut_execSegPin (h : Kept s) (ra rb) : KeptOut (execSegPin ra rb s) := by
  refine keptOut_attempt h _ _ ?_
  grind [keeps_bind, keeps_modify, keeps_myRegion, keeps_proceed, keeps_namedSegment, keeps_check, kept_setSegment]

theorem keptOut_execSegEvt (h : Kept s) (ra rb) : KeptOut (execSegEvt ra rb s) := by
  refine keptOut_attempt h _ _ ?_
  grind [keeps_bind, keeps_modify, keeps_myRegion, keeps_proceed, keeps_namedSegment, keeps_check, kept_segArrivals,
    kept_setSegment]

theorem keptOut_execSegDrop (h : Kept s) (ra) : KeptOut (execSegDrop ra s) := by
  refine keptOut_attempt h _ _ ?_
  grind [keeps_bind, keeps_modify, keeps_myRegion, keeps_proceed, keeps_namedSegment, keeps_check, kept_with]

theorem keptOut_execSegStat (h : Kept s) (rd ra) : KeptOut (execSegStat rd ra s) := by
  refine keptOut_attempt h _ _ ?_
  grind [keeps_bind, keeps_myRegion, keeps_finish, keeps_check]

/-! ### The functions of `Machine/Sounding.lean` -/

theorem kept_onSet (h : Kept s) (n f) : Kept (s.onSet n f) := h

theorem keptOut_execSndSet (h : Kept s) (ra rb) : KeptOut (execSndSet ra rb s) := by
  refine keptOut_attempt h _ _ (keeps_bind (keeps_check ..) fun _ => keeps_bind keeps_myRegion fun r =>
    keeps_bind (keeps_issueRelease ..) fun _ => ?_)
  extract_lets set
  have hs : ∀ r, Keeps (set r) := fun _ => keeps_proceed
  clear_value set
  split
  · refine keeps_bind (keeps_check ..) fun _ => keeps_bind (keeps_withXa _ (keeps_readVa ..)) fun d => ?_
    grind [keeps_bind, keeps_modify, keeps_check, kept_onSet]
  · grind [keeps_bind, keeps_modify, keeps_check, kept_with]

theorem keptOut_issueTransfer (h : Kept s) (i out rd ra) : KeptOut (s.issueTransfer i out rd ra) := by
  refine keptOut_attempt h _ _ (keeps_bind (keeps_check ..) fun _ => keeps_bind keeps_myRegion fun r =>
    keeps_bind (keeps_check ..) fun _ => keeps_bind (keeps_check ..) fun _ => keeps_bind (keeps_issueRelease ..) fun _ =>
    keeps_bind (keeps_withXa _ (keeps_readSpan ..)) fun bs => ?_)
  grind [keeps_bind, keeps_modify, keeps_check, kept_onSet, keeps_finish]

theorem keptOut_execSndStat (h : Kept s) (rd ra) : KeptOut (execSndStat rd ra s) := by
  refine keptOut_attempt h _ _ ?_
  grind [keeps_bind, keeps_myRegion, keeps_finish, keeps_check]

theorem keeps_setAddress (x va k) : Keeps (setAddress x va k) := by
  unfold setAddress
  grind [keeps_get, keeps_bind, keeps_pure, keeps_raise, kept_bareLookup, keeps_settle, kept_lookup]

theorem keeps_pagePieces (x e k) : Keeps (pagePieces x e k) := by
  unfold pagePieces
  grind [keeps_setAddress, keeps_mapM]

theorem kept_failSet (h : Kept s) (n x code word1) : Kept (s.failSet n x code word1) := h

theorem kept_setArrival (h : Kept s) (x) : Kept (s.setArrival x) := by
  unfold State.setArrival
  grind [kept_sendArrival]

theorem keeps_storePage (n x k) : Keeps (storePage n x k) := by
  unfold storePage
  grind [keeps_get, keeps_bind, keeps_modify, kept_onSet, keeps_pagePieces, keeps_check, wf_write, kept_mk,
    mem_wf_of_kept, deep_wf_of_kept]

theorem keeps_storeTable (x) : Keeps (storeTable x) := by
  unfold storeTable
  grind [keeps_bind, keeps_modify, kept_homeWrite, keeps_setAddress, keeps_forM]

theorem keptOut_execSoundingOutComplete (h : Kept s) (n) : KeptOut (execSoundingOutComplete n s) := by
  have ht := (keeps_storeTable (s.pageSet n)).run s h
  have hp := fun k => (keeps_storePage n (s.pageSet n) k).run s h
  unfold execSoundingOutComplete
  grind [keptOut_next, kept_onSet, kept_setArrival, kept_failSet]

theorem kept_failPage (h : Kept s) (n k) : Kept (s.failPage n k) := h

theorem keptOut_execSoundingPageLand (h : Kept s) (n k) : KeptOut (execSoundingPageLand n k s) := by
  have hp := fun e => (keeps_pagePieces (s.pageSet n) e .write).run s h
  unfold execSoundingPageLand
  grind [keptOut_next, kept_failPage, kept_foldl, kept_homeWrite, kept_onSet, kept_failSet]

theorem keptOut_execSoundingInComplete (h : Kept s) (n) : KeptOut (execSoundingInComplete n s) := by
  unfold execSoundingInComplete
  grind [keptOut_next, kept_onSet, kept_setArrival, kept_failSet, kept_pollLaunches]

theorem keptOut_execSoundingFault (h : Kept s) (n code word1) : KeptOut (execSoundingFault n code word1 s) := by
  unfold execSoundingFault
  grind [keptOut_next, kept_failPage, kept_failSet]

/-! ### The functions of `Machine/Preempt.lean` -/

theorem kept_moveParcels (h : Kept s) (o n o') : Kept (s.moveParcels o n o') := by
  unfold State.moveParcels
  grind [kept_onParcel, kept_with, kept_foldl]

theorem kept_moveKernel (h : Kept s) (o n o') : Kept (s.moveKernel o n o') := by
  unfold State.moveKernel
  grind [kept_moveParcels, kept_with]

theorem kept_moveBytes (h : Kept s) (o n o') : Kept (s.moveBytes o n o') := by
  unfold State.moveBytes
  exact ⟨wf_place _ _ _ (wf_filter _ h.1), h.2⟩

theorem kept_preempt (h : Kept s) (o) : Kept (s.preempt o) := by
  unfold State.preempt
  grind [kept_post, kept_onRegion, kept_stopStream, kept_foldl]

theorem keeps_writeSave (o r head) : Keeps (writeSave o r head) := by
  unfold writeSave
  grind [keeps_get, keeps_bind, keeps_writeAt, keeps_translate, keeps_check, keeps_forM]

theorem kept_saveRegion (h : Kept s) (o r) : Kept (s.saveRegion o r) := by
  unfold State.saveRegion
  grind [kept_moveBytes, kept_onRegion, kept_moveKernel, kept_flushRegion, kept_with]

theorem keptOut_execPreemptionDrained (h : Kept s) (origin) : KeptOut (execPreemptionDrained origin s) := by
  have hw := fun r => (keeps_writeSave origin r (s.saveHead origin r)).run s h
  unfold execPreemptionDrained
  grind [keptOut_next, kept_saveRegion, kept_endRegion]

theorem keeps_spillAt (d) : Keeps (spillAt d) := by
  unfold spillAt
  grind [keeps_get, keeps_bind, keeps_pure, keeps_modify, keeps_throw, keeps_backingPages, kept_finishSpill]

theorem keeps_placeHeld (o e out) : Keeps (placeHeld o e out) := by
  unfold placeHeld
  grind [keeps_modify, kept_copyPages, kept_setSegment]

theorem keeps_restoreSegments (key r o) : Keeps (restoreSegments key r o) := by
  unfold restoreSegments
  grind [keeps_get, keeps_bind, keeps_pure, keeps_modify, keeps_backingPages, keeps_placeHeld, kept_copyPages,
    keeps_spillAt, keeps_mapM, keeps_forM]

theorem kept_restoreRegion (h : Kept s) (key r o) : Kept (s.restoreRegion key r o) := by
  unfold State.restoreRegion
  grind [kept_moveBytes, kept_onRegion, kept_moveKernel, kept_pollWakes, kept_tellMoved, kept_onParcel, kept_with,
    kept_foldl]

/-! ### The functions of `Machine/Queue.lean` -/

theorem kept_landKicks (h : Kept s) : Kept s.landKicks := by
  unfold State.landKicks
  grind [kept_kick, kept_with, kept_foldl]

theorem keptOut_execQKick (h : Kept s) (ra rb) : KeptOut (execQKick ra rb s) := by
  refine keptOut_attempt h _ _ ?_
  grind [keeps_bind, keeps_modify, kept_kick, keeps_check, kept_advance, kept_with]

theorem kept_kickMisaligned (h : Kept s) (writer) : Kept (s.kickMisaligned writer) := by
  unfold State.kickMisaligned
  grind [kept_freeze, kept_trapEntry, kept_report]

theorem keptOut_execKickRegisterWrite (h : Kept s) (q size value writer) :
    KeptOut (execKickRegisterWrite q size value writer s) := by
  unfold execKickRegisterWrite
  grind [keptOut_next, kept_kick, kept_kickMisaligned]

theorem keptOut_execDependenceCounterCheck (h : Kept s) (launch) : KeptOut (execDependenceCounterCheck launch s) := by
  unfold execDependenceCounterCheck
  grind [keptOut_next, kept_makeReady]

theorem kept_wakeParcel (h : Kept s) (p) : Kept (s.wakeParcel p) := by
  unfold State.wakeParcel
  grind [kept_pollWakes, kept_onParcel]

theorem kept_takeParcels (h : Kept s) (o n f) : Kept (s.takeParcels o n f) := by
  unfold State.takeParcels
  grind [kept_wakeParcel, kept_onParcel, kept_foldl]

theorem kept_place (h : Kept s) (k l o) : Kept (s.place k l o) := by
  have hr := fun key r => (keeps_restoreSegments key r o).run s h
  unfold State.place
  grind [kept_takeParcels, kept_restoreRegion, kept_endRegion, kept_with]

theorem kept_preemptBlock (h : Kept s) (k l o) : Kept (s.preemptBlock k l o) := by
  unfold State.preemptBlock
  grind [kept_preempt, kept_with, kept_foldl]

theorem kept_decideFrom (h : Kept s) (l) : Kept (s.decideFrom l) := by
  induction l with
  | nil => exact h
  | cons e l ih =>
    unfold State.decideFrom
    grind [kept_place, kept_preemptBlock]

theorem keptOut_execRegionSchedulerDecision (h : Kept s) : KeptOut (execRegionSchedulerDecision s) := by
  unfold execRegionSchedulerDecision
  grind [keptOut_next, kept_decideFrom, kept_with]

theorem keptOut_execRegionExit (h : Kept s) (origin) : KeptOut (execRegionExit origin s) := by
  unfold execRegionExit
  grind [keptOut_next, kept_releaseAll, kept_endRegion, kept_foldl]

/-! ### The functions of `Machine/Loader.lean` -/

theorem keptOk_takePacket (h : Kept s) (o r hd pos ws) : KeptOk (s.takePacket o r hd pos ws) := by
  unfold State.takePacket
  extract_lets p m ctx slot w
  split
  · refine keptOk_bind fun _ => keptOk_bind fun _ => keptOk_ok ?_
    exact kept_onCell h ..
  · refine keptOk_bind fun _ => keptOk_ok ?_
    exact kept_onCell h ..
  · refine keptOk_bind fun _ => keptOk_ok ?_
    exact kept_onCell h ..
  · refine keptOk_bind fun _ => keptOk_ok ?_
    exact kept_onCell h ..
  · refine keptOk_bind fun _ => keptOk_ok ?_
    exact kept_onParcel h ..

theorem kept_refuseLoad (h : Kept s) (o code off) : Kept (s.refuseLoad o code off) := by
  unfold State.refuseLoad
  grind [kept_endRegion]

theorem kept_afterLoad (h : Kept s) (o r) {x : Loaded State} (hx : KeptOk x) : Kept (s.afterLoad o r x) := by
  have := hx.kept
  unfold State.afterLoad
  grind [kept_refuseLoad, kept_holdWalk]

theorem keptOk_loadPacket (h : Kept s) (o r pos) : KeptOk (s.loadPacket o r pos) := by
  unfold State.loadPacket
  refine keptOk_bind fun hd => keptOk_bind fun _ => keptOk_bind fun hb => keptOk_bind fun _ => ?_
  split
  · exact keptOk_bind fun _ => keptOk_ok (kept_onRegion h ..)
  refine keptOk_bind fun _ => keptOk_bind fun _ => keptOk_bind fun _ => keptOk_bind fun ws => ?_
  extract_lets loaded
  have hl : ∀ s1, Kept s1 → KeptOk (loaded s1) := fun _ k => keptOk_ok (kept_onRegion k ..)
  clear_value loaded
  grind [keptOk_bind_state, keptOk_error, keptOk_takePacket]

theorem keptOut_execConfigurationPacket (h : Kept s) (origin) : KeptOut (execConfigurationPacket origin s) := by
  unfold execConfigurationPacket
  split
  · exact keptOut_next h
  next r _ =>
    split
    · exact keptOut_next h
    split
    · refine keptOut_next (kept_afterLoad h _ _ ?_)
      cases s.checkHeader origin r with
      | ok _ => exact keptOk_ok (kept_onRegion h ..)
      | error x => exact keptOk_error x
    · exact keptOut_next (kept_afterLoad h _ _ (keptOk_loadPacket h ..))

theorem kept_loadCore (h : Kept s) (o r p handle bs) : Kept (s.loadCore o r p handle bs) := h

theorem keptOk_loadParcel (h : Kept s) (o r p) : KeptOk (s.loadParcel o r p) := by
  unfold State.loadParcel
  refine keptOk_bind fun hd => ?_
  extract_lets loaded
  have hl : ∀ s1, Kept s1 → KeptOk (loaded s1) := fun _ k => keptOk_bind fun _ =>
    keptOk_ok (kept_onRegion (kept_onParcel (kept_loadCore k ..) ..) ..)
  clear_value loaded
  grind [keptOk_bind, kept_onRegion]

theorem keptOut_execParcelLoad (h : Kept s) (p) : KeptOut (execParcelLoad p s) := by
  unfold execParcelLoad
  grind [keptOut_next, keptOk_loadParcel, kept_afterLoad]

theorem kept_logHost (h : Kept s) (p value) : Kept (s.logHost p value) := h
theorem kept_dropDoorbell (h : Kept s) (o value) : Kept (s.dropDoorbell o value) := h

theorem kept_judgeDoorbells (h : Kept s) (o r) : Kept (s.judgeDoorbells o r) := by
  unfold State.judgeDoorbells
  grind [kept_dropDoorbell, kept_with, kept_foldl]

theorem keptOut_execStartPacket (h : Kept s) (origin) : KeptOut (execStartPacket origin s) := by
  unfold execStartPacket
  grind [keptOut_next, kept_post, kept_onRegion, kept_judgeDoorbells, kept_foldl]

/-! ### The functions of `Machine/Host.lean` -/

theorem kept_answerHost (h : Kept s) (a) : Kept (s.answerHost a) := h

theorem keptOut_execDoorbellWrite (h : Kept s) (off size value) : KeptOut (execDoorbellWrite off size value s) := by
  unfold execDoorbellWrite
  grind [keptOut_next, kept_dropDoorbell, kept_with]

theorem keptOut_execHostIngressDeliver (h : Kept s) (origin db) : KeptOut (execHostIngressDeliver origin db s) := by
  unfold execHostIngressDeliver
  grind [keptOut_next, kept_enterQueue, kept_with]

theorem keptOut_execBar4Write (h : Kept s) (off bytes) : KeptOut (execBar4Write off bytes s) := by
  unfold execBar4Write
  grind [keptOut_next, kept_homeWrite, kept_logHost]

theorem kept_dropRequest (h : Kept s) (tag) : Kept (s.dropRequest tag) := h

theorem kept_coreAnswered (h : Kept s) (tag p va result) {done : List Byte → State → State} (hd : ∀ bs s, Kept s →
  Kept (done bs s)) :
    Kept (s.coreAnswered tag p va result done) := by
  unfold State.coreAnswered
  grind [kept_dropRequest, kept_onCore, kept_trapEntry]

theorem kept_entryAnswered (h : Kept s) (tag p m result) : Kept (s.entryAnswered tag p m result) := by
  unfold State.entryAnswered
  grind [kept_dropRequest, kept_walkOn, kept_lateFreeze, kept_respond]

theorem kept_hostEnds (h : Kept s) (tag result) : Kept (s.hostEnds tag result) := by
  unfold State.hostEnds
  grind [kept_coreAnswered, kept_entryAnswered, kept_logHost, kept_amoResult, kept_onCore]

theorem keptOut_execHostCompletion (h : Kept s) (tag status data) : KeptOut (execHostCompletion tag status data s) := by
  unfold execHostCompletion
  grind [keptOut_next, kept_hostEnds]

theorem keptOut_execHostTimeout (h : Kept s) (tag) : KeptOut (execHostTimeout tag s) := by
  unfold execHostTimeout
  grind [keptOut_next, kept_hostEnds]

theorem keptOut_execPcieConfigurationWrite (h : Kept s) (reg value) :
    KeptOut (execPcieConfigurationWrite reg value s) := by
  unfold execPcieConfigurationWrite
  grind [keptOut_next, kept_with]

theorem keptOut_execDeviceControlRangeWrite (h : Kept s) (off bytes writer) :
    KeptOut (execDeviceControlRangeWrite off bytes writer s) := by
  have hc := (keptOk_controlWrite h writer off bytes).kept
  unfold execDeviceControlRangeWrite
  grind [keptOut_next, kept_refuseDebug]

/-! ### The functions of `Machine/Link.lean` -/

theorem kept_logHole (h : Kept s) (port) : Kept (s.logHole port) := h
theorem kept_moResend (h : Kept s) (seq) : Kept (s.moResend seq) := h
theorem kept_moFree (h : Kept s) (dst seq) : Kept (s.moFree dst seq) := h

theorem kept_replaySlot (h : Kept s) (port f) : Kept (s.replaySlot port f) := by
  unfold State.replaySlot
  grind [kept_logHole, kept_moSend, kept_moResend, kept_with, kept_foldl]

theorem kept_replayFrom (h : Kept s) (port seq) : Kept (s.replayFrom port seq) := h

theorem kept_replayNext (h : Kept s) (port) : Kept (s.replayNext port) := by
  unfold State.replayNext
  grind [kept_replaySlot, kept_with]

theorem kept_packetActs (h : Kept s) (k) : Kept (s.packetActs k) := by
  unfold State.packetActs
  grind [kept_placeNote, kept_homeWrite, kept_homeNote, kept_moFree, kept_moResend, kept_endAnswer, kept_with]

theorem kept_meetPacket (h : Kept s) (k) : Kept (s.meetPacket k) := by
  unfold State.meetPacket
  grind [kept_packetActs, kept_moSend, kept_with]

theorem keptOut_execFlitReceive (h : Kept s) (port flit) : KeptOut (execFlitReceive port flit s) := by
  unfold execFlitReceive
  grind [keptOut_next, kept_meetPacket, kept_replayFrom, kept_logHole, kept_with, kept_foldl]

theorem kept_loseDevices (h : Kept s) : Kept s.loseDevices := by
  unfold State.loseDevices
  grind [kept_killStream, kept_endAnswer, kept_foldl]

theorem kept_hopDies (h : Kept s) (hop) : Kept (s.hopDies hop) := by
  unfold State.hopDies
  grind [kept_loseDevices, kept_with]

theorem kept_linkTurn (h : Kept s) : Kept s.linkTurn := by
  unfold State.linkTurn
  grind [kept_replayNext, kept_hopDies, kept_with, kept_foldl]

theorem keptOut_execPortRetrainFailure (h : Kept s) (port) : KeptOut (execPortRetrainFailure port s) := by
  unfold execPortRetrainFailure
  grind [keptOut_next, kept_loseDevices, kept_with]

theorem kept_measure (h : Kept s) (index content) : Kept (s.measure index content) := h

theorem keptOut_execSystemConfiguration (h : Kept s) (x y z number) :
    KeptOut (execSystemConfiguration x y z number s) := by
  unfold execSystemConfiguration
  grind [keptOut_next, kept_measure, kept_with]

/-! ### The functions of `Machine/Boot.lean` -/

theorem kept_startImage (h : Kept s) (image) : Kept (s.startImage image) := by
  unfold State.startImage
  grind [kept_measure, kept_with]

theorem kept_bootRom (h : Kept s) : Kept s.bootRom := by
  unfold State.bootRom
  grind [kept_startImage, kept_with]

theorem kept_afterReset (h : Kept s) : Kept s.afterReset := ⟨rfl, h.2⟩

theorem keptOut_execPowerUp (h : Kept s) : KeptOut (execPowerUp s) := by
  unfold execPowerUp
  grind [keptOut_next, kept_bootRom, kept_afterReset]

theorem keptOut_execDeviceReset (h : Kept s) : KeptOut (execDeviceReset s) := keptOut_next (kept_bootRom ⟨h.1, h.2⟩)

theorem keptOut_execStagedImageLengthWrite (h : Kept s) (image len) :
    KeptOut (execStagedImageLengthWrite image len s) := by
  unfold execStagedImageLengthWrite
  grind [keptOut_next, kept_startImage]

theorem keptOut_execSecurityVersionRaise (h : Kept s) (version) : KeptOut (execSecurityVersionRaise version s) := by
  unfold execSecurityVersionRaise
  grind [keptOut_next, kept_with]

theorem keptOut_execSpdmMeasurementRequest (h : Kept s) (index nonce) :
    KeptOut (execSpdmMeasurementRequest index nonce s) := by
  unfold execSpdmMeasurementRequest
  grind [keptOut_next, kept_with]

theorem keptOut_execIdeKeyProgramming (h : Kept s) (stream config) : KeptOut (execIdeKeyProgramming stream config s) := by
  unfold execIdeKeyProgramming
  grind [keptOut_next, kept_measure, kept_with]

theorem keptOut_execRegionFatalError (h : Kept s) (origin code parcel) :
    KeptOut (execRegionFatalError origin code parcel s) := by
  unfold execRegionFatalError
  grind [keptOut_next, kept_log, kept_endRegion]

theorem kept_beginDump (h : Kept s) (d) : Kept (s.beginDump d) := by
  unfold State.beginDump
  grind [kept_dumpPage, kept_with]

theorem keptOut_execDeviceFatalError (h : Kept s) (code) : KeptOut (execDeviceFatalError code s) := by
  unfold execDeviceFatalError
  grind [keptOut_next, kept_beginDump, kept_dumpHead, kept_log]

theorem keptOut_execParcelPowerGate (h : Kept s) (p) : KeptOut (execParcelPowerGate p s) := by
  unfold execParcelPowerGate
  grind [keptOut_next, kept_onParcel]

theorem kept_loseSegments (h : Kept s) (p) : Kept (s.loseSegments p) := by
  unfold State.loseSegments
  grind [kept_log, kept_with, kept_foldl]

theorem keptOut_execParcelReset (h : Kept s) (p) : KeptOut (execParcelReset p s) := by
  unfold execParcelReset
  grind [keptOut_next, kept_failDependence, kept_onParcel, kept_killEnds, kept_loseSegments, kept_with, kept_foldl]

/-! ### The functions of `Machine/Debug.lean` -/

theorem keptOut_execDebugRun (h : Kept s) : KeptOut (execDebugRun s) := by
  unfold execDebugRun
  grind [keptOut_next, kept_with]

theorem keptOut_execDebugCont (h : Kept s) : KeptOut (execDebugCont s) := by
  unfold execDebugCont
  grind [keptOut_next, kept_lateAnswers, kept_pollWakes, kept_strip, kept_onCore, kept_with, kept_foldl]

theorem keptOut_execDebugStep (h : Kept s) : KeptOut (execDebugStep s) := by
  unfold execDebugStep
  grind [keptOut_next, kept_lateAnswers, kept_with]

theorem kept_addBreak (h : Kept s) (b) : Kept (s.addBreak b) := h

theorem keptOut_execPrintRegister (h : Kept s) (n) : KeptOut (execPrintRegister n s) := by
  unfold execPrintRegister
  grind [keptOut_next, kept_say]

theorem keptOut_execPrintControlRegister (h : Kept s) (num) : KeptOut (execPrintControlRegister num s) := by
  unfold execPrintControlRegister
  grind [keptOut_next, kept_say]

theorem keptOut_execPrintLaneRegister (h : Kept s) (n) : KeptOut (execPrintLaneRegister n s) := by
  unfold execPrintLaneRegister
  grind [keptOut_next, kept_say]

theorem keptOut_execPrintWindowRegister (h : Kept s) (n) : KeptOut (execPrintWindowRegister n s) := by
  unfold execPrintWindowRegister
  grind [keptOut_next, kept_say]

theorem kept_sayAll (h : Kept s) (f) : Kept (s.sayAll f) := by
  unfold State.sayAll
  grind [kept_say, kept_foldl]

theorem keptOut_execShowQueue (h : Kept s) (q) : KeptOut (execShowQueue q s) := by
  unfold execShowQueue
  grind [keptOut_next, kept_say]

/-! ### The functions of `Machine/Project.lean` -/

theorem kept_writeLeaf (h : Kept s) (pos e) : Kept (s.writeLeaf pos e) := by
  unfold State.writeLeaf
  grind [kept_homeWrite]

theorem kept_performInvalidate (h : Kept s) (v) : Kept (s.performInvalidate v) := by
  unfold State.performInvalidate
  grind [kept_dropTranslations, kept_resumeFront]

theorem keptOut_execProjInv (h : Kept s) (ra rb) : KeptOut (execProjInv ra rb s) := by
  refine keptOut_attempt h _ _ ?_
  grind [keeps_bind, keeps_modify, keeps_myRegion, keeps_proceed, keeps_issueRelease, keeps_check, kept_with]

theorem keptOut_execProjProbe (h : Kept s) (rd ra rb) : KeptOut (execProjProbe rd ra rb s) := by
  refine keptOut_attempt h _ _ ?_
  grind [keeps_bind, keeps_set, keeps_modify, keeps_proceed, keeps_finish, keeps_check, kept_probe, kept_onCore]

theorem keptOut_execPageDup (h : Kept s) (ra rb) : KeptOut (execPageDup ra rb s) := by
  refine keptOut_attempt h _ _ (keeps_bind (keeps_check ..) fun _ => keeps_bind (keeps_check ..) fun _ =>
    keeps_bind keeps_myRegion fun r => ?_)
  dsimp only
  split
  · exact keeps_raise ..
  refine keeps_bind (keeps_check ..) fun _ => keeps_bind (keeps_check ..) fun _ => keeps_bind (keeps_check ..) fun _ => ?_
  grind [keeps_bind, keeps_modify, keeps_issueRelease, kept_writeLeaf, kept_with, keeps_proceed]

theorem kept_invalidateOver (h : Kept s) (k v) : Kept (s.invalidateOver k v) := by
  unfold State.invalidateOver
  grind [kept_sendArrival, kept_with]

theorem keptOut_execInvalidateComplete (h : Kept s) (k) : KeptOut (execInvalidateComplete k s) := by
  unfold execInvalidateComplete
  grind [keptOut_next, kept_performInvalidate, kept_invalidateOver, kept_with]

theorem kept_copyPage (h : Kept s) (src dst) : Kept (s.copyPage src dst) := by
  unfold State.copyPage
  grind [kept_with, kept_foldl, wf_write, kept_mk, mem_wf_of_kept, deep_wf_of_kept]

theorem kept_failDup (h : Kept s) (k v code) : Kept (s.failDup k v code) := by
  unfold State.failDup
  grind [kept_performInvalidate, kept_report, kept_writeLeaf, kept_with]

theorem keptOut_execPageDupComplete (h : Kept s) (k) : KeptOut (execPageDupComplete k s) := by
  unfold execPageDupComplete
  grind [keptOut_next, kept_performInvalidate, kept_failDup, kept_writeLeaf, kept_copyPage, kept_invalidateOver,
    kept_foldl]

theorem keptOut_execCollapse (h : Kept s) (asid va prov) : KeptOut (execCollapse asid va prov s) := by
  unfold execCollapse
  grind [keptOut_next, kept_dropTranslations, kept_resumeFront, kept_writeLeaf, kept_with]

theorem keptOut_execTableWalk (h : Kept s) (prov asid va) : KeptOut (execTableWalk prov asid va s) := by
  unfold execTableWalk
  grind [keptOut_next, kept_keepTranslation, kept_foldl]

/-! ### The functions of `Machine/Settle.lean` -/

theorem kept_sayStore (h : Kept s) (p m) : Kept (s.sayStore p m) := by
  unfold State.sayStore
  grind [kept_say]

theorem kept_stopCell (h : Kept s) (p m x k) : Kept (s.stopCell p m x k) := by
  unfold State.stopCell
  grind [kept_stopAt, kept_sayStore]

theorem kept_stepDone (h : Kept s) (turn ran) : Kept (s.stepDone turn ran) := by
  unfold State.stepDone
  grind [kept_stopAt, kept_stopCell]

theorem kept_fireHangs (h : Kept s) : Kept s.fireHangs := by
  unfold State.fireHangs
  grind [kept_hangFire, kept_foldl]

theorem kept_settle (h : Kept s) (ran) : Kept (s.settle ran) := by
  unfold State.settle
  grind [kept_continueDump, kept_stripsTurn, kept_stepDone, kept_hangTick, kept_evictLine, kept_fireHangs,
    kept_landKicks, kept_sendReports, kept_linkTurn, kept_testStations, kept_pollLaunches, kept_with]

/-! ### Every instruction, and the step -/

/-- Every instruction and every event keeps the form. -/
theorem keptOut_exec (h : Kept s) (i : Instr) : KeptOut (exec i s) := by
  unfold exec
  cases i with
  | add | sub | mul | mulh | mulhn | and | or | xor | sll | srl | sra | slt | sltn | min | max | minn | maxn =>
    exact keptOut_alu h ..
  | div | divn | rem | remn => exact keptOut_divide h ..
  | clz | ctz | popc => exact keptOut_alu1 h ..
  | addImmediate | andImmediate | orImmediate | xorImmediate | sllImmediate | srlImmediate | sraImmediate |
    sltImmediate | sltnImmediate | mulImmediate | lih => exact keptOut_aluImm h ..
  | csrr | csrw | csrs | csrc => exact keptOut_csr h ..
  | ldS8 | ldN8 | ldS16 | ldN16 | ldS32 | ldN32 | ldN64 => exact keptOut_load h ..
  | stN8 | stN16 | stN32 | stN64 => exact keptOut_store h ..
  | ldvGe | ldvEq => exact keptOut_loadVersioned h ..
  | stv | stvKeep => exact keptOut_storeReleasing h ..
  | reclaim => exact keptOut_execReclaim h ..
  | amoAdd | amoSwp | amoCas | amoMin | amoMax | amoMinn | amoMaxn | amoAnd | amoOr | amoXor =>
    exact keptOut_atomic h ..
  | pref => exact keptOut_execPref h ..
  | fence => exact keptOut_execFence h ..
  | fenceAcq => exact keptOut_execFenceAcq h ..
  | fenceRel => exact keptOut_execFenceRel h ..
  | beq | bne | blt | bge | bltn | bgen => exact keptOut_branch h ..
  | jal => exact keptOut_execJal h ..
  | jalr => exact keptOut_execJalr h ..
  | post => exact keptOut_execPost h ..
  | bindl => exact keptOut_execBindl h ..
  | armt | armb | arms => exact keptOut_armBy h ..
  | endt => exact keptOut_next (kept_endTask h ..)
  | chp => exact keptOut_execChp h ..
  | ecall => exact keptOut_execEcall h ..
  | tret => exact keptOut_execTret h ..
  | merid => exact keptOut_next (kept_writeReg h ..)
  | stnInit => exact keptOut_execStnInit h ..
  | stnArv => exact keptOut_execStnArv h ..
  | stnExp => exact keptOut_execStnExp h ..
  | stnDone => exact keptOut_execStnDone h ..
  | stnTest => exact keptOut_execStnTest h ..
  | trvCopy | trvGath | trvScat | trvRed | trvFill | trvFeed => exact keptOut_issueTrav h ..
  | trvFollow => exact keptOut_execTrvFollow h ..
  | trvPub => exact keptOut_execTrvPub h ..
  | trvXst => exact keptOut_execTrvXst h ..
  | trvCanc => exact keptOut_execTrvCanc h ..
  | trvStat => exact keptOut_execTrvStat h ..
  | bufSet => exact keptOut_execBufSet h ..
  | bufFree => exact keptOut_execBufFree h ..
  | bufStat => exact keptOut_execBufStat h ..
  | endMake => exact keptOut_execEndMake h ..
  | endBind => exact keptOut_execEndBind h ..
  | endClose => exact keptOut_execEndClose h ..
  | endStat => exact keptOut_execEndStat h ..
  | grLdw | grMm | grScan | grDrn | grZero | grSave | grRest => exact keptOut_grInstr h ..
  | grStat => exact keptOut_execGrStat h ..
  | twSeek => exact keptOut_execTwSeek h ..
  | twRead => exact keptOut_execTwRead h ..
  | twEnc => exact keptOut_execTwEnc h ..
  | twStat => exact keptOut_execTwStat h ..
  | cpOpen => exact keptOut_execCpOpen h ..
  | cpOper => exact keptOut_execCpOper h ..
  | cpExpl => exact keptOut_execCpExpl h ..
  | cpObs => exact keptOut_execCpObs h ..
  | cpFix => exact keptOut_execCpFix h ..
  | cpJoin => exact keptOut_execCpJoin h ..
  | cpClose => exact keptOut_execCpClose h ..
  | scrOpen => exact keptOut_execScrOpen h ..
  | scrCnt => exact keptOut_execScrCnt h ..
  | segName => exact keptOut_execSegName h ..
  | segAtt => exact keptOut_execSegAtt h ..
  | segDet => exact keptOut_execSegDet h ..
  | segPin => exact keptOut_execSegPin h ..
  | segEvt => exact keptOut_execSegEvt h ..
  | segDrop => exact keptOut_execSegDrop h ..
  | segStat => exact keptOut_execSegStat h ..
  | projInv => exact keptOut_execProjInv h ..
  | projProbe => exact keptOut_execProjProbe h ..
  | pageDup => exact keptOut_execPageDup h ..
  | sndSet => exact keptOut_execSndSet h ..
  | sndOut | sndIn => exact keptOut_issueTransfer h ..
  | sndStat => exact keptOut_execSndStat h ..
  | qKick => exact keptOut_execQKick h ..
  | strmIn | strmOut => exact keptOut_openStream h ..
  | strmBar => exact keptOut_execStrmBar h ..
  | strmStop => exact keptOut_execStrmStop h ..
  | strmStat => exact keptOut_execStrmStat h ..
  | iadd | isub | iadds | isubs | imul | imulh | imad | imin | imax | iabs | ineg | iavg | shl | shr | sar | rot |
    cellAnd | cellOr | cellXor | andn | not | cellClz | cellCtz | ffs | cellPopc | brev | bfx | bfi | icmp | sel | mov
    | movc | bcst | lprm | lshf | redi | scni | dot4 | dot2 | kop | enq | deq | adv | peek | qstat | cellLd | cellSt |
    walk | atom | cellLdv | cellStv | fadd | fsub | fmul | ffma | fmin | fmax | fabs | fneg | fcmp | frcp | frsq |
    fsqrt | fexp2 | flog2 | ftanh | fsigm | fsinp | frnd | fcls | redf | scnf | topk | cvt | bq | bdq | sclb | wadp |
    gate | dly | mrg | str | tag | proj | widn | hin | hout | rdon | rrte | pois | halt | trap | nop =>
    exact keptOut_next (kept_fire h ..)
  | powerUp => exact keptOut_execPowerUp h ..
  | deviceReset => exact keptOut_execDeviceReset h ..
  | stagedImageLengthWrite => exact keptOut_execStagedImageLengthWrite h ..
  | securityVersionRaise => exact keptOut_execSecurityVersionRaise h ..
  | spdmMeasurementRequest => exact keptOut_execSpdmMeasurementRequest h ..
  | regionFatalError => exact keptOut_execRegionFatalError h ..
  | deviceFatalError => exact keptOut_execDeviceFatalError h ..
  | parcelPowerGate => exact keptOut_execParcelPowerGate h ..
  | parcelWake => exact keptOut_next (kept_wakeParcel h ..)
  | kickRegisterWrite => exact keptOut_execKickRegisterWrite h ..
  | dependenceCounterCheck => exact keptOut_execDependenceCounterCheck h ..
  | regionSchedulerDecision => exact keptOut_execRegionSchedulerDecision h ..
  | configurationPacket => exact keptOut_execConfigurationPacket h ..
  | parcelLoad => exact keptOut_execParcelLoad h ..
  | startPacket => exact keptOut_execStartPacket h ..
  | preemptionDrained => exact keptOut_execPreemptionDrained h ..
  | regionExit => exact keptOut_execRegionExit h ..
  | packetArrival => exact keptOut_execPacketArrival h ..
  | outboundPacketSend => exact keptOut_execOutboundPacketSend h ..
  | taskDispatch => exact keptOut_execTaskDispatch h ..
  | channelPromotion => exact keptOut_execChannelPromotion h ..
  | timeWakeupFire => exact keptOut_execTimeWakeupFire h ..
  | controlRegisterWrite => exact keptOut_execControlRegisterWrite h ..
  | bindingWrite => exact keptOut_execBindingWrite h ..
  | readyBitsWrite p value => exact keptOut_execReadyBitsWrite h p value
  | wakeupSlotArmTime | wakeupSlotArmBuffer | wakeupSlotArmStation | wakeupSlotDisarm =>
    exact keptOut_next (kept_windowArm h ..)
  | wakeupSlotArgumentWrite => exact keptOut_execWakeupSlotArgumentWrite h ..
  | laneRegisterWindowWrite => exact keptOut_execLaneRegisterWindowWrite h ..
  | contextStoreWrite => exact keptOut_execContextStoreWrite h ..
  | queueWindowWrite => exact keptOut_execQueueWindowWrite h ..
  | cellContinue => exact keptOut_next (kept_continueCell h ..)
  | cellSkip => exact keptOut_next (kept_skipCell h ..)
  | resumeRegion => exact keptOut_next (kept_resumeRegion h ..)
  | inputWordArrival => exact keptOut_execInputWordArrival h ..
  | outputWordSend => exact keptOut_execOutputWordSend h ..
  | delayExpiry => exact keptOut_execDelayExpiry h ..
  | cellHalt => exact keptOut_execCellHalt h ..
  | cellPoisoned => exact keptOut_execCellPoisoned h ..
  | addressPortResponse => exact keptOut_next (kept_portResponse h ..)
  | lateFault => exact keptOut_execLateFault h ..
  | walkNode => exact keptOut_execWalkNode h ..
  | widenerReleaseComplete => exact keptOut_execWidenerReleaseComplete h ..
  | hangMonitorFire => exact keptOut_execHangMonitorFire h ..
  | heldLdvComplete => exact keptOut_execHeldLdvComplete h ..
  | stationArrival => exact keptOut_execStationArrival h ..
  | stationBytes => exact keptOut_execStationBytes h ..
  | exchangeWriteArrival => exact keptOut_execExchangeWriteArrival h ..
  | fenceMarkerArrival => exact keptOut_execFenceMarkerArrival h ..
  | publish => exact keptOut_execPublish h ..
  | streamStart => exact keptOut_execStreamStart h ..
  | loaderWord => exact keptOut_execLoaderWord h ..
  | storerWord => exact keptOut_execStorerWord h ..
  | streamComplete => exact keptOut_execStreamComplete h ..
  | streamFault => exact keptOut_execStreamFault h ..
  | traverseBytesLand => exact keptOut_execTraverseBytesLand h ..
  | traverseComplete => exact keptOut_execTraverseComplete h ..
  | traverseFault => exact keptOut_execTraverseFault h ..
  | freedSlotNotice => exact keptOut_execFreedSlotNotice h ..
  | followOnIssue => exact keptOut_execFollowOnIssue h ..
  | reductionTile => exact keptOut_execReductionTile h ..
  | skipMarker => exact keptOut_execSkipMarker h ..
  | graticuleCommandStart => exact keptOut_execGraticuleCommandStart h ..
  | tileDone => exact keptOut_execTileDone h ..
  | aStreamWord => exact keptOut_execAStreamWord h ..
  | drainComplete => exact keptOut_execDrainComplete h ..
  | graticuleCommandComplete => exact keptOut_execGraticuleCommandComplete h ..
  | graticuleFault => exact keptOut_execGraticuleFault h ..
  | graticulePause => exact keptOut_execGraticulePause h ..
  | encoderRow => exact keptOut_execEncoderRow h ..
  | encoderFault => exact keptOut_execEncoderFault h ..
  | bindRequest => exact keptOut_execBindRequest h ..
  | itemEntry => exact keptOut_execItemEntry h ..
  | itemDelivery => exact keptOut_execItemDelivery h ..
  | itemAcknowledge => exact keptOut_execItemAcknowledge h ..
  | migrationMarker => exact keptOut_execMigrationMarker h ..
  | recordAdmission => exact keptOut_execRecordAdmission h ..
  | recordReturn => exact keptOut_execRecordReturn h ..
  | joinRecord => exact keptOut_execJoinRecord h ..
  | queryClosed => exact keptOut_execQueryClosed h ..
  | scribeItem => exact keptOut_execScribeItem h ..
  | scribeSourceComplete => exact keptOut_execScribeSourceComplete h ..
  | spillComplete => exact keptOut_execSpillComplete h ..
  | reloadComplete => exact keptOut_execReloadComplete h ..
  | segmentTransferFault => exact keptOut_execSegmentTransferFault h ..
  | tableWalk => exact keptOut_execTableWalk h ..
  | invalidateComplete => exact keptOut_execInvalidateComplete h ..
  | collapse => exact keptOut_execCollapse h ..
  | pageDupComplete => exact keptOut_execPageDupComplete h ..
  | soundingPageLand => exact keptOut_execSoundingPageLand h ..
  | soundingOutComplete => exact keptOut_execSoundingOutComplete h ..
  | soundingInComplete => exact keptOut_execSoundingInComplete h ..
  | soundingFault => exact keptOut_execSoundingFault h ..
  | doorbellWrite => exact keptOut_execDoorbellWrite h ..
  | hostIngressDeliver => exact keptOut_execHostIngressDeliver h ..
  | bar4Read | bar2Read | hostAtomicopRequest => exact keptOut_next (kept_answerHost h ..)
  | bar4Write => exact keptOut_execBar4Write h ..
  | hostCompletion => exact keptOut_execHostCompletion h ..
  | hostTimeout => exact keptOut_execHostTimeout h ..
  | flitReceive => exact keptOut_execFlitReceive h ..
  | replayRequest => exact keptOut_next (kept_replayFrom h ..)
  | resendNotice => exact keptOut_next (kept_moResend h ..)
  | packetAcknowledge => exact keptOut_next (kept_moFree h ..)
  | portRetrainFailure => exact keptOut_execPortRetrainFailure h ..
  | debugRun => exact keptOut_execDebugRun h ..
  | debugCont => exact keptOut_execDebugCont h ..
  | debugStep => exact keptOut_execDebugStep h ..
  | breakTask | breakCell | breakFault | breakPromise | breakKick => exact keptOut_next (kept_addBreak h ..)
  | printRegister => exact keptOut_execPrintRegister h ..
  | printControlRegister => exact keptOut_execPrintControlRegister h ..
  | printLaneRegister => exact keptOut_execPrintLaneRegister h ..
  | printPredicates | printMeridian => exact keptOut_next (kept_say h ..)
  | printWindowRegister => exact keptOut_execPrintWindowRegister h ..
  | showQueues | showBuffers | showStations | showStreams | showCompass | showSegments =>
    exact keptOut_next (kept_sayAll h ..)
  | showQueue => exact keptOut_execShowQueue h ..
  | illegalInstructionWord | instructionFetchFault => exact keptOut_next (kept_trapEntry h ..)
  | parcelReset => exact keptOut_execParcelReset h ..
  | deviceControlRangeWrite => exact keptOut_execDeviceControlRangeWrite h ..
  | correctedSoftError => exact keptOut_next (kept_log h ..)
  | systemConfiguration => exact keptOut_execSystemConfiguration h ..
  | ideKeyProgramming => exact keptOut_execIdeKeyProgramming h ..
  | pcieConfigurationWrite => exact keptOut_execPcieConfigurationWrite h ..

end

/-- A step takes what is due, carries it out and lets the step end, and each of these keeps the form. -/
theorem keptOut_step {s : State} (h : Kept s) : KeptOut (step s) := by
  have hdue : Kept s.due.2 := kept_due h
  refine ⟨fun t run => ?_⟩
  unfold step at run
  split at run
  · cases run
  rcases due : s.due with ⟨i, u⟩
  rw [due] at run hdue
  cases i with
  | none => cases run; exact kept_settle hdue _
  | some i =>
    have hexec : KeptOut (exec i u) := keptOut_exec hdue i
    cases out : exec i u with
    | next v =>
      rw [out] at hexec
      simp only [out] at run
      cases run
      exact kept_settle (kept_with (hexec.kept v rfl)) _
    | fault f => simp only [out] at run; cases run
    | refused r => simp only [out] at run; cases run

/-- Settles O51: whatever the turn carries out keeps both memories in canonical form, and so does the end of the step. -/
theorem stepKeepsMemory : Obligations.StepKeepsMemory :=
  fun _ t hmem hdeep run => (keptOut_step ⟨hmem, hdeep⟩).kept t run

end Sys2Proof.Proofs

/-! The proofs of the obligations about fences and the meridian, the state after reset, and launches. -/

namespace Sys2Proof.Proofs

open Sys2Proof Sys2Proof.Machine Sys2Proof.Laws

/-! ### Prefetch (R119) -/

section

variable {s s1 : State} {ra : Reg} {sc : Scope} {off : BitVec 12}

/-- A prefetch of a line in HBM reads it along its path. -/
theorem execPref_hbm {m : Mapping} (translates : translate (.core s.here) (s.offsetAddress ra off 64) .read s = .ok m s1)
    (hbm : placeOf m.pa = .hbm) :
    execPref ra sc off s =
      .next ((s1.scopedRead (.core s.here) sc (leafNoAllocate m.leaf) (m.pa / 64 * 64) 64).2.advance s.here) := by
  simp only [execPref, translates, hbm]

/-- A prefetch of an address that does not translate leaves the state before the walk. -/
theorem execPref_untranslated {c : Stop}
    (stops : translate (.core s.here) (s.offsetAddress ra off 64) .read s = .error c s1) :
    execPref ra sc off s = .next (s.advance s.here) := by
  simp only [execPref, stops]

end

/-- Settles O16: the fences and `MERID` are their definitions, and a prefetch splits on its translation. -/
theorem orderingInstructions : Obligations.OrderingInstructions :=
  fun _ _ _ _ _ => ⟨rfl, rfl, rfl, rfl, fun _ _ translates hbm => execPref_hbm translates hbm,
    fun _ _ stops => execPref_untranslated stops⟩

/-! ### The state after reset -/

/-- Every parcel is as after a device reset. -/
theorem parcel_reset (p : Nat) : State.reset.parcel p = Parcel.reset := rfl

/-- Every core is as before a kernel is loaded. -/
theorem core_reset (p : Nat) : State.reset.core p = Core.reset := rfl

/-- Every cell is as before an image is loaded. -/
theorem cell_reset (p m : Nat) : State.reset.cell p m = Cell.reset := rfl

/-- Every register of a core before a load is 0, `x0` as always. -/
theorem get_coreReset (r : Reg) : Core.reset.get r = 0 := by
  simp [Core.get, Core.reset]

/-- No channel of a core before a load is bound. -/
theorem bound_coreReset (ch : Nat) : (Core.reset.channel ch).bound = false := rfl

/-- Every slot of a cell before a load is empty. -/
theorem slotWords_cellReset (ctx slot : Nat) : Cell.reset.slotWords ctx slot = emptySlot := rfl

/-- Settles O52: nothing is listed after reset, so that every accessor finds its unit's reset value. -/
theorem resetState : Obligations.ResetState := by
  refine ⟨rfl, rfl, rfl, rfl, rfl, rfl, rfl, rfl, rfl, fun _ => rfl, fun _ => rfl, fun _ => rfl, fun p => ?_⟩
  rw [core_reset, parcel_reset]
  exact ⟨get_coreReset, rfl, rfl, rfl, rfl, bound_coreReset, fun _ => rfl, fun _ => rfl, rfl, rfl, fun m c k => by
    rw [cell_reset]
    exact ⟨slotWords_cellReset c k, rfl⟩⟩

/-! ### Kick registers (R439) -/

section

variable {s : State} {q size : Nat} {value : Word} {writer : Writer}

/-- A doubleword kicks its queue. -/
theorem execKickRegisterWrite_doubleword (hq : q < 4096) (there : writer = .host → s.boot.phase ≠ .recovery) :
    execKickRegisterWrite q 8 value writer s = .next (s.kick q value (unitParcel writer) none) := by
  have reaches : (writer = .host && s.boot.phase = .recovery : Bool) ≠ true := by simpa using there
  rw [execKickRegisterWrite, if_neg reaches, if_pos rfl, if_pos hq]

/-- The host finds no kick registers in recovery. -/
theorem execKickRegisterWrite_recovery (recovery : s.boot.phase = .recovery) :
    execKickRegisterWrite q size value .host s = .next s := by
  simp [execKickRegisterWrite, recovery]

/-- A device unit's write of another size is misaligned. -/
theorem execKickRegisterWrite_otherSize (hsize : size ≠ 8) (device : writer ≠ .host) :
    execKickRegisterWrite q size value writer s = .next (s.kickMisaligned writer) := by
  simp [execKickRegisterWrite, device, hsize]

/-- The host's write of another size does nothing, in recovery or not. -/
theorem execKickRegisterWrite_hostOtherSize (hsize : size ≠ 8) :
    execKickRegisterWrite q size value .host s = .next s := by
  simp [execKickRegisterWrite, hsize, State.kickMisaligned]

variable {p m : Nat}

theorem kickMisaligned_runningCore (running : (s.core p).running = true) :
    s.kickMisaligned (.core p) = s.trapEntry p codeMisaligned (Config.freeWord s.tick) 0 false := if_pos running

theorem kickMisaligned_idleCore (idle : (s.core p).running = false) : s.kickMisaligned (.core p) = s := by
  simp [State.kickMisaligned, idle]

theorem kickMisaligned_cell (late : s.takesLate p m = true) :
    s.kickMisaligned (.cell p m) = s.freeze ⟨p, m, (s.cell p m).fireCtx.toNat, (s.cell p m).fireSlot.toNat⟩
      ⟨codeMisaligned, Config.freeWord s.tick, 0, true⟩ true := if_pos late

theorem kickMisaligned_engine (run : s.enginesRun p = true) :
    s.kickMisaligned (.engine p) =
      s.report p codeMisaligned 1 (Config.freeWord (s.tick + 1)).toNat none (Config.freeWord s.tick) := if_pos run

theorem kickMisaligned_graticule (run : s.enginesRun p = true) :
    s.kickMisaligned (.graticule p) =
      s.report p codeMisaligned 4 (Config.freeWord (s.tick + 1)).toNat none (Config.freeWord s.tick) := if_pos run

end

/-! ### Dependences and decisions (R449, R451) -/

section

variable {s : State}

/-- A waiting launch whose counter has come becomes ready. -/
theorem execDependenceCounterCheck_met {k : Nat} {l : Launch} (found : s.launches.find k = some l) (waits : l.ready = false)
    (unplaced : l.placed = false) (counter : l.depKind = 2) (met : s.dependenceMet l = true) :
    execDependenceCounterCheck k s = .next (s.makeReady k) := by
  simp [execDependenceCounterCheck, found, waits, unplaced, counter, met]

/-- A change that the last decision has not seen calls for one, by which the launches that stay ready age. -/
theorem execRegionSchedulerDecision_changed (running : s.boot.phase = .running) (changed : s.considered ≠ s.toConsider) :
    let u := ({ s with considered := s.toConsider } : State).decideFrom s.readyLaunches
    execRegionSchedulerDecision s = .next { u with
      decisions := u.decisions + 1
      launches := u.launches.each fun _ l => if l.ready then { l with age := l.age + 1 } else l } := by
  simp [execRegionSchedulerDecision, running, changed]

/-- Without a change there is no decision. -/
theorem execRegionSchedulerDecision_unchanged (same : s.considered = s.toConsider) :
    execRegionSchedulerDecision s = .next s := by
  simp [execRegionSchedulerDecision, same]

end

/-! ### Pieces of the load that refuse nothing -/

theorem require_ok {ok : Bool} (h : ok = true) (code : Byte) (off : Nat) : require ok code off = .ok () := by
  rw [h]; rfl

/-- Checks one after another pass when each passes. -/
theorem forM_eq_ok {α ε : Type} {f : α → Except ε Unit} {l : List α} (h : ∀ a ∈ l, f a = .ok ()) :
    l.forM f = .ok () := by
  induction l with
  | nil => rfl
  | cons a l ih =>
    calc (a :: l).forM f = (f a >>= fun _ => l.forM f) := rfl
      _ = l.forM f := by rw [h a List.mem_cons_self]; rfl
      _ = .ok () := ih fun b hb => h b (List.mem_cons_of_mem a hb)

/-- Two reads one after another. -/
theorem mapM_range_two {α ε : Type} {f : Nat → Except ε α} {a b : α} (ha : f 0 = .ok a) (hb : f 1 = .ok b) :
    (List.range 2).mapM f = .ok [a, b] := by
  calc (List.range 2).mapM f = (do let x ← f 0; let y ← f 1; pure [x, y]) := rfl
    _ = .ok [a, b] := by rw [ha, hb]; rfl

/-! ### The image's header and its packets (R221, R223, R224) -/

section

variable {s : State} {o : Nat} {r : Region} {hd : List Byte}

/-- Nothing is refused in a header whose fields are accepted and whose bindings name distinct channels of the shape. -/
theorem checkHeader_ok {bs : List (List Byte)} (header : s.imageBytes o r 0 256 = .ok hd)
    (fields : ∀ c ∈ headerChecks r.shape hd, c.2 = true) (bound : s.bindings o r hd = .ok bs)
    (entries : ∀ e ∈ bs.zipIdx, field e.1 0 2 < 512 ∧ field e.1 2 1 < 128 ∧ field e.1 3 1 = 0 ∧ field e.1 8 8 = 0 ∧
      bindHandler e.1 % 4 = 0 ∧ bindHandler e.1 < hdr hd 64 8 ∧ bindParcel e.1 < 2 ^ r.shape ∧
      ∀ a ∈ bs.take e.2, bindParcel a ≠ bindParcel e.1 ∨ bindChannel a ≠ bindChannel e.1) :
    s.checkHeader o r = .ok () := by
  have hfields : ((headerChecks r.shape hd).forM fun c => require c.2 codeIllegalWord c.1) = .ok () :=
    forM_eq_ok fun c hc => require_ok (fields c hc) _ _
  simp only [State.checkHeader, header, bound, bind, Except.bind, hfields]
  refine forM_eq_ok fun e he => ?_
  obtain ⟨parcel, channel, pad, rest, aligned, within, shape, distinct⟩ := entries e he
  have hdistinct :
      ((bs.take e.2).all fun a => bindParcel a ≠ bindParcel e.1 || bindChannel a ≠ bindChannel e.1) = true := by
    simpa using distinct
  rw [require_ok (by simp only [parcel, channel, pad, rest, aligned, within, decide_true, Bool.and_true]),
    require_ok (decide_eq_true shape), require_ok hdistinct]

/-- The loader checks the header first. -/
theorem execConfigurationPacket_header (found : s.regions.find o = some r) (running : s.boot.phase = .running)
    (loading : r.phase = .loading) (first : r.loadPos = 0) :
    execConfigurationPacket o s = .next (s.afterLoad o r ((s.checkHeader o r).map fun _ =>
      s.onRegion o fun r => { r with loadPos := 1 })) := by
  simp [execConfigurationPacket, found, running, loading, first]

/-- After the header it takes the packet that comes next. -/
theorem execConfigurationPacket_packet {pos : Nat} (found : s.regions.find o = some r) (running : s.boot.phase = .running)
    (loading : r.phase = .loading) (next : r.loadPos = pos + 1) :
    execConfigurationPacket o s = .next (s.afterLoad o r (s.loadPacket o r pos)) := by
  simp [execConfigurationPacket, found, running, loading, next]

/-- A slot's words that are allowed go into the slot that the packet's header names. -/
theorem takePacket_slot {h at_ : Nat} {w0 w1 : Word} (kind : bits h 63 60 = 0) (op : opWordOk w0 = true)
    (guard : guardOk w1 = true) (fits : guardFits w0 w1 = true) :
    s.takePacket o r h at_ [w0, w1] = .ok (s.onCell (o + bits h 59 51) (bits h 50 47) fun c =>
      { c with slots := c.slots.put (bits h 46 44 * 8 + bits h 43 41) (w0, w1) }) := by
  have hguard : (guardOk w1 && guardFits w0 w1) = true := by rw [guard, fits]; rfl
  simp only [State.takePacket, kind, List.getD_cons_zero, List.getD_cons_succ, require_ok op, require_ok hguard]
  rfl

/-- What the loader asks of a packet's place: its parcel has the turn, and no earlier packet gave the same. -/
theorem turn_ok {h : Nat} (turn : bits h 59 51 = r.loadParcel) (fresh : ∀ n ∈ r.seen, n / 2 ^ 64 ≠ packetKey h) :
    (bits h 59 51 = r.loadParcel && r.seen.all fun n => n / 2 ^ 64 ≠ packetKey h : Bool) = true := by
  simpa using ⟨turn, fresh⟩

end

section

variable {s : State} {o : Nat} {r : Region} {hd hb : List Byte} {pos h : Nat}
  (header : s.imageBytes o r 0 256 = .ok hd) (within : pos + 8 ≤ hdr hd 48 8)
  (word : s.imageWord o r (hdr hd 40 8 + pos) = .ok hb) (number : Decode.leNat hb = h)
  (fields : packetFieldsOk h = true)

include header within word number fields

/-- The end of the image comes after every parcel. -/
theorem loadPacket_imageEnd (kind : bits h 63 60 = 6) (all : r.loadParcel = 2 ^ r.shape) :
    s.loadPacket o r pos = .ok (s.onRegion o fun r => { r with phase := .loaded }) := by
  simp only [State.loadPacket, header, word, number, kind, bind, Except.bind, require_ok (decide_eq_true within),
    require_ok fields, if_pos, require_ok (decide_eq_true all)]
  rfl

variable (shape : bits h 59 51 < 2 ^ r.shape) (turn : bits h 59 51 = r.loadParcel)
  (fresh : ∀ n ∈ r.seen, n / 2 ^ 64 ≠ packetKey h)

include shape turn fresh

/-- The end of a parcel with nothing to refuse gives the turn to the next parcel. -/
theorem loadPacket_parcelEnd (kind : bits h 63 60 = 5)
    (faultless : s.parcelFaults o r (bits h 59 51) = []) :
    s.loadPacket o r pos = .ok (s.onRegion o fun r => { r with
      loadPos := 1 + (pos + 8), loadParcel := bits h 59 51 + 1,
      seen := r.seen ++ [packetKey h * 2 ^ 64 + (hdr hd 40 8 + pos)] }) := by
  have hpayload : pos + 8 + 8 * payloadWords 5 ≤ hdr hd 48 8 := within
  simp only [State.loadPacket, header, word, number, kind, bind, Except.bind, require_ok (decide_eq_true within),
    require_ok fields, require_ok (decide_eq_true shape), require_ok (turn_ok turn fresh),
    require_ok (decide_eq_true hpayload), faultless]
  rfl

/-- A slot's packet with allowed words fills the slot and leaves the turn with its parcel. -/
theorem loadPacket_slot {b0 b1 : List Byte} (kind : bits h 63 60 = 0) (long : pos + 24 ≤ hdr hd 48 8)
    (word0 : s.imageWord o r (hdr hd 40 8 + pos + 8) = .ok b0) (word1 : s.imageWord o r (hdr hd 40 8 + pos + 16) = .ok b1)
    (op : opWordOk (wordOf b0) = true) (guard : guardOk (wordOf b1) = true)
    (fits : guardFits (wordOf b0) (wordOf b1) = true) :
    s.loadPacket o r pos = .ok ((s.onCell (o + bits h 59 51) (bits h 50 47) fun c =>
        { c with slots := c.slots.put (bits h 46 44 * 8 + bits h 43 41) (wordOf b0, wordOf b1) }).onRegion o
      fun r => { r with
      loadPos := 1 + (pos + 24), loadParcel := bits h 59 51,
      seen := r.seen ++ [packetKey h * 2 ^ 64 + (hdr hd 40 8 + pos)] }) := by
  have hpayload : pos + 8 + 8 * payloadWords 0 ≤ hdr hd 48 8 := long
  have hwords : ((List.range (payloadWords 0)).mapM fun i => (s.imageWord o r (hdr hd 40 8 + pos + 8 + 8 * i)).map wordOf) =
      .ok [wordOf b0, wordOf b1] :=
    mapM_range_two (congrArg (Except.map wordOf) word0) (congrArg (Except.map wordOf) word1)
  have htake := takePacket_slot (s := s) (o := o) (r := r) (at_ := hdr hd 40 8 + pos + 8) kind op guard fits
  simp only [State.loadPacket, header, word, number, kind, bind, Except.bind, require_ok (decide_eq_true within),
    require_ok fields, require_ok (decide_eq_true shape), require_ok (turn_ok turn fresh),
    require_ok (decide_eq_true hpayload), hwords, htake]
  rfl

end

/-! ### The load of each parcel (R26, R49, R223, R282) -/

section

variable {s : State} {o p : Nat} {r : Region} {hd : List Byte} {bs : List (List Byte)}

/-- The legend table is taken where every entry is accepted. -/
theorem loadLegend_ok {es : List Legend}
    (entries : ((List.range (hdr hd 32 2)).mapM fun i => (s.imageBytes o r (hdr hd 24 8 + 32 * i) 32).map fun b =>
      BitVec.ofNat 256 (Decode.leNat b)) = .ok es) (accepted : ∀ e ∈ es, legendOk es e = true) :
    s.loadLegend o r hd = .ok es := by
  have hchecks : (es.zipIdx.forM fun e => require (legendOk es e.1) codeIllegalWord (hdr hd 24 8 + 32 * e.2)) = .ok () :=
    forM_eq_ok fun _ he => require_ok (accepted _ (List.fst_mem_of_mem_zipIdx he)) _ _
  simp only [State.loadLegend, entries, hchecks, bind, Except.bind]
  rfl

/-- The state in which a parcel of a region is loaded: the first finds the legend table there. -/
def ReadsLegend (s : State) (o : Nat) (r : Region) (hd : List Byte) (s1 : State) : Prop :=
  (r.loadedParcels ≠ 0 ∧ s1 = s) ∨ (r.loadedParcels = 0 ∧ ∃ es : List Legend, s.loadLegend o r hd = .ok es ∧
    s1 = s.onRegion o fun r => { r with
      identity := BitVec.ofNat 16 (hdr hd 6 2), legend := es.zipIdx.map fun e => (e.2, e.1), legendCount := es.length })

/-- A parcel loads its core, its generators and its priming words, and the next parcel has the turn. -/
theorem loadParcel_ok {s1 : State} (header : s.imageBytes o r 0 256 = .ok hd) (legend : ReadsLegend s o r hd s1)
    (bound : s.bindings o r hd = .ok bs) :
    s.loadParcel o r p = .ok (((s1.loadCore o r p hd bs).onParcel p fun x =>
      (x.seeded (p - o)).primed s.meridian.toNat).onRegion o fun r => { r with loadedParcels := r.loadedParcels + 1 }) := by
  obtain ⟨later, rfl⟩ | ⟨first, es, legend, rfl⟩ := legend
  · simp only [State.loadParcel, header, bound, later, bind, Except.bind, if_false]
    rfl
  · simp only [State.loadParcel, header, bound, first, legend, bind, Except.bind, if_true]
    rfl

theorem execParcelLoad_turn (found : s.regionOf p = some (o, r)) (running : s.boot.phase = .running)
    (loaded : r.phase = .loaded) (turn : p = o + r.loadedParcels) :
    execParcelLoad p s = .next (s.afterLoad o r (s.loadParcel o r p)) := by
  simp [execParcelLoad, found, running, loaded, ← turn]

end

/-! ### The start packets (R26, R464) -/

/-- The packet that starts `ch0` of a parcel of a region. -/
def startPacketOf (s : State) (w0 w1 : Word) (p : Nat) : Packet :=
  ⟨p, 0, true, w0, w1, BitVec.ofNat 16 s.link.number, 0, true, Vector.replicate 6 0⟩

/-- Posting to every bound `ch0` appends one packet for each to what is in flight, in the order of the parcels. -/
theorem foldl_post_bound (ps : List Nat) (w0 w1 : Word) (s : State) :
    ps.foldl (fun (t : State) p => if ((t.core p).channel 0).bound then t.post p 0 true w0 w1 else t) s =
      { s with flight := s.flight ++ (ps.filter fun p => ((s.core p).channel 0).bound).map (startPacketOf s w0 w1) } := by
  induction ps generalizing s with
  | nil => simp
  | cons p ps ih =>
    rw [List.foldl_cons, ih]
    by_cases bound : ((s.core p).channel 0).bound = true
    · rw [if_pos bound, List.filter_cons, if_pos bound, List.map_cons, List.append_cons]
      rfl
    · rw [if_neg bound, List.filter_cons, if_neg bound]

/-- Two states differ in nothing but the host port and the field book. -/
def SameButHost (s t : State) : Prop := ∃ host book, t = { s with host := host, book := book }

theorem SameButHost.refl (s : State) : SameButHost s s := ⟨s.host, s.book, rfl⟩

theorem SameButHost.trans {s t u : State} (h : SameButHost s t) (k : SameButHost t u) : SameButHost s u := by
  obtain ⟨_, _, rfl⟩ := h
  obtain ⟨host, book, rfl⟩ := k
  exact ⟨host, book, rfl⟩

theorem SameButHost.foldl {α : Type} {f : State → α → State} (h : ∀ s a, SameButHost s (f s a)) (l : List α)
    (s : State) : SameButHost s (l.foldl f s) := by
  induction l generalizing s with
  | nil => exact .refl s
  | cons a l ih => exact (h s a).trans (ih (f s a))

theorem sameButHost_dropDoorbell (s : State) (o : Nat) (v : Word) : SameButHost s (s.dropDoorbell o v) := ⟨_, _, rfl⟩

/-- Judging the doorbells that came before the start changes what the host port holds and logs what it drops. -/
theorem sameButHost_judgeDoorbells (s : State) (o : Nat) (r : Region) : SameButHost s (s.judgeDoorbells o r) := by
  refine SameButHost.foldl (fun t db => ?_) _ s
  split
  · exact .refl t
  · exact (SameButHost.foldl (fun u v => sameButHost_dropDoorbell u o v) _ t).trans ⟨_, _, rfl⟩

/-- What `onRegion` leaves at the region's own origin. -/
theorem find_onRegion_same (s : State) (o : Nat) (f : Region → Region) :
    (s.onRegion o f).regions.find o = (s.regions.find o).map f := by
  unfold State.onRegion
  induction s.regions with
  | nil => rfl
  | cons e t ih =>
    obtain ⟨i, v⟩ := e
    by_cases same : i = o
    · simp [Table.find, same]
    · simpa [Table.find, same] using ih

/-- A state with the start packets of a region in flight. -/
def withStartPackets (s : State) (o : Nat) (r : Region) : State :=
  { s with
    flight := s.flight ++ ((regionParcels o r).filter fun p => ((s.core p).channel 0).bound).map
      (startPacketOf s r.arg (BitVec.ofNat 64 (o + r.shape * 2 ^ 9))) }

/-- A loaded region runs, with its start packets in flight and the doorbells judged. -/
theorem execStartPacket_loaded {s : State} {o : Nat} {r : Region} (found : s.regions.find o = some r)
    (running : s.boot.phase = .running) (loaded : r.phase = .loaded) (all : r.loadedParcels = 2 ^ r.shape) :
    ∃ t, SameButHost (withStartPackets s o r) t ∧ execStartPacket o s =
      .next (t.onRegion o fun r => { r with phase := .running, hang := 0, active := false }) := by
  refine ⟨_, sameButHost_judgeDoorbells (withStartPackets s o r) o r, ?_⟩
  simp [execStartPacket, found, running, loaded, all, foldl_post_bound, withStartPackets]

/-! ### Drained and finished regions (R453, R456) -/

section

variable {s : State} {o : Nat} {r : Region}

/-- A drained region is saved; its save area decides what comes of it. -/
theorem execPreemptionDrained_drained (found : s.regions.find o = some r) (running : s.boot.phase = .running)
    (stopping : r.phase = .preempting) (calm : 64 ≤ r.calm) (quiet : s.underWay (regionParcels o r) = false)
    (sent : s.recordsSent (regionParcels o r) = true)
    (drained : ∀ p ∈ regionParcels o r, s.parcelDrained p r.unstopped = true) :
    execPreemptionDrained o s = .next (match writeSave o r (s.saveHead o r) s with
      | .ok _ t => t.saveRegion o r
      | .error (.fault code va) _ => s.endRegion o 2 code 0 o va true
      | .error .hold t => t) := by
  have hdrained : ((regionParcels o r).all fun p => s.parcelDrained p r.unstopped) = true := List.all_eq_true.mpr drained
  simp only [execPreemptionDrained, found, running, stopping, quiet, sent, hdrained, Nat.not_lt.mpr calm]
  cases writeSave o r (s.saveHead o r) s with
  | ok => rfl
  | error x => cases x <;> rfl

/-- A region whose exit is asked and whose work is over gives back its segments and ends with its status. -/
theorem execRegionExit_over (found : s.regions.find o = some r) (running : s.boot.phase = .running) (live : r.live = true)
    (asked : r.exitAsked = true) (quiet : s.underWay (regionParcels o r) = false)
    (finished : ∀ p ∈ regionParcels o r, s.parcelOver p = true)
    (written : s.heldSegments o = [] ∨ s.portWrites o r (s.tick + 1) = false) :
    execRegionExit o s = .next (((s.heldSegments o).foldl (fun (t : State) e => t.releaseAll o r e.2.scope) s).endRegion o
      0 0 r.status 0 0 false) := by
  have hover : (regionParcels o r).all s.parcelOver = true := List.all_eq_true.mpr finished
  have hwritten : (!(s.heldSegments o).isEmpty && s.portWrites o r (s.tick + 1)) = false := by
    obtain none | done := written
    · rw [none]; rfl
    · rw [done, Bool.and_false]
  simp [execRegionExit, found, running, live, asked, quiet, hover, hwritten]

end

/-! ### The obligation -/

/-- Settles O54: each clause is one of the lemmas above about its event. -/
theorem launchEvents : Obligations.LaunchEvents := by
  intro s
  refine ⟨?kick, ?recovery, ?nothing, ?core, ?cell, ?engine, ?dependence, ?decision, ?noDecision, ?header, ?packet,
    ?refused, ?parcel, ?start, ?drained, ?exit⟩
  case kick => exact fun q value writer hq there => execKickRegisterWrite_doubleword hq there
  case recovery => exact fun q size value recovery => execKickRegisterWrite_recovery recovery
  case nothing =>
    rintro q size value writer hsize (rfl | ⟨p, rfl, idle⟩)
    · exact execKickRegisterWrite_hostOtherSize hsize
    · exact (execKickRegisterWrite_otherSize hsize (by simp)).trans (congrArg _ (kickMisaligned_idleCore idle))
  case core =>
    exact fun q size value p hsize running => ⟨_, (execKickRegisterWrite_otherSize hsize (by simp)).trans
      (congrArg _ (kickMisaligned_runningCore running))⟩
  case cell =>
    exact fun q size value p m hsize late => ⟨_, (execKickRegisterWrite_otherSize hsize (by simp)).trans
      (congrArg _ (kickMisaligned_cell late))⟩
  case engine =>
    exact fun q size value p hsize run =>
      ⟨⟨_, _, (execKickRegisterWrite_otherSize hsize (by simp)).trans (congrArg _ (kickMisaligned_engine run))⟩,
        _, _, (execKickRegisterWrite_otherSize hsize (by simp)).trans (congrArg _ (kickMisaligned_graticule run))⟩
  case dependence =>
    exact fun k l found waits unplaced counter met => execDependenceCounterCheck_met found waits unplaced counter met
  case decision =>
    exact fun running changed => ⟨_, execRegionSchedulerDecision_changed running changed, rfl, rfl, rfl, rfl⟩
  case noDecision => exact execRegionSchedulerDecision_unchanged
  case header =>
    intro o r hd bs found running loading first header fields bound entries
    calc exec (.configurationPacket o) s = _ := execConfigurationPacket_header found running loading first
      _ = _ := by rw [checkHeader_ok header fields bound entries]; rfl
  case packet =>
    intro o r hd hb pos found running loading next header within word h off fields
    have taken {t : State} (ht : s.loadPacket o r pos = .ok t) : exec (.configurationPacket o) s = .next t := by
      calc exec (.configurationPacket o) s = _ := execConfigurationPacket_packet found running loading next
        _ = .next t := by rw [ht]; rfl
    exact ⟨fun kind all => taken (loadPacket_imageEnd header within word rfl fields kind all),
      fun kind shape turn fresh faultless =>
        taken (loadPacket_parcelEnd header within word rfl fields shape turn fresh kind faultless),
      fun b0 b1 kind shape turn fresh long word0 word1 op guard fits =>
        taken (loadPacket_slot header within word rfl fields shape turn fresh kind long word0 word1 op guard fits)⟩
  case refused =>
    intro o r c off found running loading first refusal
    calc exec (.configurationPacket o) s = _ := execConfigurationPacket_header found running loading first
      _ = _ := by rw [refusal]; rfl
  case parcel =>
    intro p o r hd bs s1 found running loaded turn header _ legend bound
    have hlegend : ReadsLegend s o r hd s1 :=
      legend.imp_right fun ⟨first, es, entries, accepted, hs1⟩ => ⟨first, es, loadLegend_ok entries accepted, hs1⟩
    calc exec (.parcelLoad p) s = _ := execParcelLoad_turn found running loaded turn
      _ = _ := by rw [loadParcel_ok header hlegend bound]; rfl
  case start =>
    intro o r found running loaded all
    obtain ⟨t, ⟨_, _, rfl⟩, starts⟩ := execStartPacket_loaded found running loaded all
    refine ⟨_, starts, rfl, rfl, rfl, ?_⟩
    rw [find_onRegion_same, withStartPackets, found]
    rfl
  case drained =>
    exact fun o r found running stopping calm quiet sent drained =>
      execPreemptionDrained_drained found running stopping calm quiet sent drained
  case exit =>
    exact fun o r found running live asked quiet finished written =>
      execRegionExit_over found running live asked quiet finished written

end Sys2Proof.Proofs

/-! The proof of the obligation about bit counts. -/

namespace Sys2Proof.Proofs

open Sys2Proof Sys2Proof.Machine Sys2Proof.Laws

/-! ### Bit counts (R54) -/

theorem clzNat_zero (w : Nat) : clzNat w 0 = w := by
  induction w with
  | zero => rfl
  | succ w ih => simp [clzNat, ih, Nat.add_comm]

theorem ctzNat_zero (w : Nat) : ctzNat w 0 = w := by
  induction w with
  | zero => rfl
  | succ w ih => simp [ctzNat, ih, Nat.add_comm]

/-- The highest set bit of a number of `w` bits stands at `w - 1 - clzNat w x`. -/
theorem clzNat_spec (w : Nat) {x : Nat} (hx : x < 2 ^ w) (h0 : x ≠ 0) :
    clzNat w x < w ∧ 2 ^ (w - 1 - clzNat w x) ≤ x ∧ x < 2 ^ (w - clzNat w x) := by
  induction w with
  | zero => omega
  | succ w ih =>
    by_cases small : x < 2 ^ w
    · obtain ⟨hlt, hlow, hhigh⟩ := ih small
      rw [clzNat, Nat.div_eq_of_lt small, if_neg (by decide),
        show w + 1 - 1 - (1 + clzNat w x) = w - 1 - clzNat w x by omega,
        show w + 1 - (1 + clzNat w x) = w - clzNat w x by omega]
      exact ⟨by omega, hlow, hhigh⟩
    · have top : x / 2 ^ w = 1 := Nat.div_eq_of_lt_le (by omega) (by rw [Nat.pow_succ] at hx; omega)
      simpa [clzNat, top] using ⟨Nat.not_lt.1 small, hx⟩

/-- The lowest set bit of a number of `w` bits stands at `ctzNat w x`. -/
theorem ctzNat_spec (w : Nat) {x : Nat} (hx : x < 2 ^ w) (h0 : x ≠ 0) :
    ctzNat w x < w ∧ x % 2 ^ ctzNat w x = 0 ∧ x / 2 ^ ctzNat w x % 2 = 1 := by
  induction w generalizing x with
  | zero => omega
  | succ w ih =>
    by_cases odd : x % 2 = 1
    · simp [ctzNat, odd, Nat.mod_one]
    · obtain ⟨hlt, hmod, hbit⟩ := ih (x := x / 2) (by rw [Nat.pow_succ] at hx; omega) (by omega)
      rw [ctzNat, if_neg odd, Nat.pow_add, Nat.pow_one, ← Nat.div_div_eq_div_mul, Nat.mod_mul, hmod]
      exact ⟨by omega, by omega, hbit⟩

/-- `popcNat` counts the bits that are set. -/
theorem popcNat_eq_length (w x : Nat) : popcNat w x = ((List.range w).filter fun i => x.testBit i).length := by
  induction w generalizing x with
  | zero => rfl
  | succ w ih =>
    have shift : (fun i => x.testBit i) ∘ Nat.succ = fun i => (x / 2).testBit i := by
      funext i; exact Nat.testBit_succ x i
    have rest : (((List.range w).map Nat.succ).filter fun i => x.testBit i).length = popcNat w (x / 2) := by
      rw [List.filter_map, List.length_map, shift, ih]
    rw [popcNat, List.range_succ_eq_map, List.filter_cons, Nat.testBit_zero]
    rcases Nat.mod_two_eq_zero_or_one x with low | low <;> simp [low, rest, Nat.add_comm]

/-- Settles O2: each count by induction on the width. -/
theorem bitCounts : Obligations.BitCounts := fun w x hx =>
  ⟨clzNat_spec w hx, ctzNat_spec w hx, clzNat_zero w, ctzNat_zero w, popcNat_eq_length w x⟩

end Sys2Proof.Proofs

/-! What the firings of cells read and how they end: the facts that the proofs about cell instructions share. -/

namespace Sys2Proof.Proofs

open Sys2Proof Sys2Proof.Machine Sys2Proof.Laws

/-! ### What a firing reads (R44, R189) -/

/-- The firing of an operation at the site that the state's turn names, as `State.fire` makes it. -/
abbrev firingAt (s : State) (op : Nat) (w : CellWord) : Firing := ⟨s, s.site, s.cell s.site.p s.site.m, op, w⟩

section

variable {f : Firing} {o : Operand} {os : List Operand}

/-- The tags that `checkWord` refuses are those that do not fit. -/
theorem tagRefused_eq (n : Nat) (t : Bool) :
    (9 ≤ n || (6 ≤ n && !t) : Bool) = !(n < 6 || (n < 9 && t) : Bool) := by
  rw [Bool.eq_iff_iff]
  cases t <;> simp <;> omega

/-- A token that passes the checks is of a kind that words carry, and so no orphan. -/
theorem checkWord_takes (h : f.takes o = true) : f.checkWord (f.raw o) = .ok () := by
  unfold Firing.takes at h
  unfold Firing.checkWord
  simp only [tagRefused_eq]
  cases hw : (f.raw o).word with
  | none =>
    simp only [hw] at h
    simp [h]
  | some l =>
    simp only [hw] at h
    cases ht : l.token with
    | false =>
      simp only [ht, Bool.false_eq_true, if_false] at h
      simp [ht, h]
    | true =>
      simp only [ht, if_true] at h
      have notOrphan : l.kind ≠ 3 := by rintro hk; simp [hk] at h
      simp only [ht, if_true, if_neg notOrphan, h]

theorem read_takes (h : f.takes o = true) : f.read o = .ok (f.raw o) := by
  unfold Firing.read
  rw [checkWord_takes h]

theorem takes_of_fires (h : f.fires os = true) (ho : o ∈ os) : f.takes o = true :=
  List.all_eq_true.1 (Bool.and_eq_true_iff.1 h).1 o ho

theorem mayConsume_of_fires (h : f.fires os = true) : f.c.mayConsume f.op f.w = true := (Bool.and_eq_true_iff.1 h).2

/-- An absent operand passes the checks. -/
theorem takes_none : f.takes .none = true := rfl

theorem takes_first {o : Operand} (h : f.fires (o :: os) = true) : f.takes o = true :=
  takes_of_fires h List.mem_cons_self

theorem takes_second {o o' : Operand} (h : f.fires (o :: o' :: os) = true) : f.takes o' = true :=
  takes_of_fires h (List.mem_cons_of_mem o List.mem_cons_self)

theorem takes_third {o o' o'' : Operand} (h : f.fires (o :: o' :: o'' :: os) = true) :
    f.takes o'' = true :=
  takes_of_fires h (List.mem_cons_of_mem o (List.mem_cons_of_mem o' List.mem_cons_self))

end

/-! ### Bodies that read their operands as they stand -/

section

variable {f : Firing} {o : Operand}

/-- Reading an operand that passes the checks goes on with the operand as it stands. -/
theorem read_bind {α : Type} {k : Source → Except CellStop α} (h : f.takes o = true) :
    (f.read o >>= k) = k (f.raw o) := by rw [read_takes h]; rfl

theorem operand_takes (h : f.takes o = true) : f.operand o = .ok ((f.raw o).values f.ty, (f.raw o).mask) := by
  unfold Firing.operand
  rw [read_takes h]

theorem operand_bind {α : Type} {k : List Nat × BitVec 16 → Except CellStop α} (h : f.takes o = true) :
    (f.operand o >>= k) = k ((f.raw o).values f.ty, (f.raw o).mask) := by rw [operand_takes h]; rfl

theorem marked_bind {α : Type} {k : List (Nat × Bool) → Except CellStop α} (h : f.takes o = true) :
    (f.marked o >>= k) = k (((f.raw o).values f.ty).zip (elemMask f.ty (f.raw o).ownMask)) := by
  unfold Firing.marked
  rw [read_bind h]
  rfl

/-- The masks that the three sources of a firing contribute, together (R44). -/
def sourceMask (f : Firing) : BitVec 16 :=
  (f.raw f.w.a).mask &&& (f.raw f.w.b).mask &&& (f.raw (cOperand f.op f.w)).mask

theorem operands_bind {α : Type} {k : List Nat × List Nat × List Nat × BitVec 16 → Except CellStop α}
    (ha : f.takes f.w.a = true) (hb : f.takes f.w.b = true) (hc : f.takes (cOperand f.op f.w) = true) :
    (f.operands >>= k) = k ((f.raw f.w.a).values f.ty, (f.raw f.w.b).values f.ty,
      (f.raw (cOperand f.op f.w)).values f.ty, sourceMask f) := by
  unfold Firing.operands
  rw [operand_takes ha, operand_takes hb, operand_takes hc]
  rfl

/-- An absent source C restricts no lane. -/
theorem sourceMask_two (noC : cOperand f.op f.w = .none) :
    sourceMask f = (f.raw f.w.a).mask &&& (f.raw f.w.b).mask := by
  rw [sourceMask, noC]
  exact BitVec.and_allOnes

/-- The operands of an instruction without a source C. -/
theorem operands_bind_two {α : Type} {k : List Nat × List Nat × List Nat × BitVec 16 → Except CellStop α}
    (h : f.fires [f.w.a, f.w.b] = true) (noC : cOperand f.op f.w = .none) :
    (f.operands >>= k) = k ((f.raw f.w.a).values f.ty, (f.raw f.w.b).values f.ty, (f.raw .none).values f.ty,
      (f.raw f.w.a).mask &&& (f.raw f.w.b).mask) := by
  rw [operands_bind (takes_first h) (takes_second h) (noC ▸ takes_none), sourceMask_two noC, noC]

/-- Reading an operand that a condition has chosen. -/
theorem read_bind_of_eq {α : Type} {k : Source → Except CellStop α} {o' : Operand} (chosen : o' = o)
    (h : f.takes o = true) : (f.read o' >>= k) = k (f.raw o) := by rw [chosen, read_bind h]

theorem reduced_bind {α : Type} {k : List Int × List Bool → Except CellStop α} {op : Nat}
    (h : f.takes f.w.a = true) :
    (f.reduced op >>= k) = k ((((f.raw f.w.a).values f.ty).zip (elemMask f.ty (f.raw f.w.a).ownMask)).map fun e =>
        if e.2 then intOf (CellWord.width f.ty) (signedTy f.ty) e.1 else
          reduceIdentity op (CellWord.width f.ty) (signedTy f.ty),
      (((f.raw f.w.a).values f.ty).zip (elemMask f.ty (f.raw f.w.a).ownMask)).map (·.2)) := by
  unfold Firing.reduced
  rw [marked_bind h]
  rfl

/-- The codes that a reduction combines, under the name that its statement gives them. -/
theorem combined_bind {α : Type} {k : List (Nat × Bool) → Except CellStop α} {op : Nat} {l : List (Nat × Bool)}
    (h : f.takes f.w.a = true)
    (codes : (((f.raw f.w.a).values f.ty).zip (elemMask f.ty (f.raw f.w.a).ownMask)).map
      (fun e => (if e.2 then e.1 else (floatFmt f.ty).identity op, e.2)) = l) : (f.combined op >>= k) = k l := by
  unfold Firing.combined
  rw [marked_bind h, codes]
  rfl

theorem recordWord_bind {α : Type} {k : LinkWord → Except CellStop α} (h : f.takes o = true)
    (record : (f.raw o).tag = 7) : (f.recordWord o >>= k) = k (f.raw o).link := by
  unfold Firing.recordWord
  rw [read_bind h, if_pos record]
  rfl

end

/-! ### The words that a body writes -/

section

variable {f : Firing}

/-- The word of an operand has the operand's scale lane. -/
theorem raw_link_scale {o : Operand} : (f.raw o).link.scale = (f.raw o).scale := by
  cases o with
  | special x => cases x <;> rfl
  | _ => rfl

/-- A move into anything but a lane register, or of a word that is no token, passes the word on. -/
theorem move_ok {x : LinkWord} (may : x.token = false ∨ ∀ i, f.w.dst ≠ .reg i) : f.move x = .ok (f.write x) := by
  unfold Firing.move
  split
  · rcases may with data | other
    · rw [data]; rfl
    · exact absurd ‹_› (other _)
  · rfl

theorem carry_replicate (n : Nat) (e : Nat × Bool) : f.carry (List.replicate n e) =
    f.write (resultWord f.ty (List.replicate n e.1) (lanesValid f.ty (List.replicate n e.2))) := by
  unfold Firing.carry
  rw [List.map_replicate, List.map_replicate]

theorem carry_map {α : Type} (l : List α) (g : α → Nat × Bool) : f.carry (l.map g) =
    f.write (resultWord f.ty (l.map fun i => (g i).1) (lanesValid f.ty (l.map fun i => (g i).2))) := by
  unfold Firing.carry
  rw [List.map_map, List.map_map]
  rfl

end

/-! ### Compares (R239, R268) -/

section

variable {f : Firing} {k : BitVec 3} {mask : BitVec 16} {res : List Bool}

theorem judge_any (hd : f.w.dst = .pred k) : f.judge false mask res =
    { f.quiet with pred := some ((res.zip (elemMask f.ty mask)).any fun e => e.2 && e.1) } := by
  unfold Firing.judge
  rw [hd]
  rfl

theorem judge_all (hd : f.w.dst = .pred k) : f.judge true mask res =
    { f.quiet with pred := some ((res.zip (elemMask f.ty mask)).all fun e => !e.2 || e.1) } := by
  unfold Firing.judge
  rw [hd]
  rfl

theorem judge_word {all : Bool} (hd : ∀ k, f.w.dst ≠ .pred k) : f.judge all mask res =
    f.write (resultWord f.ty (res.map fun b => if b then 2 ^ CellWord.width f.ty - 1 else 0) mask) := by
  unfold Firing.judge
  split
  · exact absurd ‹_› (hd _)
  · rfl

theorem judge_flags {all : Bool} : (f.judge all mask res).flags = 0 := by
  unfold Firing.judge
  split <;> rfl

end

/-! ### How a firing commits -/

section

variable {s : State} {op : Nat} {w : CellWord} {k : Firing → Except CellStop Effect} {e : Effect}
variable {os : List Operand}

/-- A firing whose operands and popped words pass the checks commits the effect that its body makes. -/
theorem fire_commits (h : (firingAt s op w).fires os = true) (hk : k (firingAt s op w) = .ok e) :
    Host.Outcome.next (φ := Fault) (ρ := Refusal) (s.fire op w k) = .next (s.commit s.site op w e) :=
  congrArg _ (fire_ok hk (mayConsume_of_fires h))

end

/-! ### How a float firing ends (R196, R263) -/

section

variable {f : Firing} {marks : List (BitVec 16 × FFlags)} {gen : BitVec 32} {e : Effect} {flags : FFlags}

/-- With no enabled trap among the flags raised, the effect stands with its flags and generator. -/
theorem conclude_untrapped (clear : e.flags = 0) (raised : marks.foldl (fun (a : FFlags) m => a ||| m.2) 0 = flags)
    (untrapped : flags &&& f.traps = 0) : f.conclude marks gen e = .ok { e with flags := flags, gen := gen } := by
  unfold Firing.conclude
  simp only [raised, untrapped, clear, if_true]
  rw [show (0 : FFlags) ||| flags = flags from BitVec.zero_or]

/-- With an enabled trap among them, the firing stops at the first that is: invalid, division by zero, overflow. -/
theorem conclude_trapped (raised : marks.foldl (fun (a : FFlags) m => a ||| m.2) 0 = flags)
    (trapped : flags &&& f.traps ≠ 0) : ∃ x, f.conclude marks gen e = .error x ∧
      (x.code = codeFpInvalid ∨ x.code = codeFpDivzero ∨ x.code = codeFpOverflow) ∧
      (x.code = codeFpInvalid ↔ flags &&& f.traps &&& flagInvalid ≠ 0) := by
  unfold Firing.conclude
  simp only [raised, if_neg trapped]
  refine ⟨_, rfl, ?_⟩
  dsimp only
  by_cases invalid : flags &&& f.traps &&& flagInvalid ≠ 0
  · rw [if_pos invalid]
    exact ⟨.inl rfl, fun _ => invalid, fun _ => rfl⟩
  · rw [if_neg invalid]
    split
    · exact ⟨.inr (.inl rfl), fun hcode => absurd hcode (by decide), fun hi => absurd hi invalid⟩
    · exact ⟨.inr (.inr rfl), fun hcode => absurd hcode (by decide), fun hi => absurd hi invalid⟩

/-- The flags of a single mark. -/
theorem foldl_single (m : BitVec 16) (fl : FFlags) : [(m, fl)].foldl (fun (a : FFlags) m => a ||| m.2) 0 = fl :=
  BitVec.zero_or

/-- The flags of marks made from a list. -/
theorem foldl_map_marks {α : Type} (l : List α) (lane : α → BitVec 16) (fl : α → FFlags) :
    (l.map fun e => (lane e, fl e)).foldl (fun (a : FFlags) m => a ||| m.2) 0 =
      (l.map fl).foldl (fun (a : FFlags) x => a ||| x) 0 := by
  rw [List.foldl_map, List.foldl_map]

/-- The flags of marks made from a list and its places. -/
theorem foldl_zipIdx_marks {α : Type} (l : List α) (lane : Nat → BitVec 16) (fl : α → FFlags) :
    (l.zipIdx.map fun e => (lane e.2, fl e.1)).foldl (fun (a : FFlags) m => a ||| m.2) 0 =
      (l.map fl).foldl (fun (a : FFlags) x => a ||| x) 0 := by
  conv_rhs => rw [← List.zipIdx_map_fst 0 l, List.map_map]
  exact foldl_map_marks l.zipIdx (fun e => lane e.2) (fl ∘ Prod.fst)

/-- The flags of marked elements are their flags together. -/
theorem foldl_elemMarks (t : Nat) (fl : List FFlags) :
    (elemMarks t fl).foldl (fun (a : FFlags) m => a ||| m.2) 0 = fl.foldl (fun (a : FFlags) x => a ||| x) 0 :=
  (foldl_zipIdx_marks fl (laneBit t) id).trans (by rw [List.map_id])

end

section

variable {s : State} {op : Nat} {w : CellWord} {k : Firing → Except CellStop Effect} {e : Effect}
variable {os : List Operand} {marks : List (BitVec 16 × FFlags)} {gen : BitVec 32} {flags : FFlags}

/-- A firing whose body concludes with no enabled trap among its flags commits. -/
theorem fire_concludes (h : (firingAt s op w).fires os = true)
    (hk : k (firingAt s op w) = (firingAt s op w).conclude marks gen e) (clear : e.flags = 0)
    (raised : marks.foldl (fun (a : FFlags) m => a ||| m.2) 0 = flags)
    (untrapped : flags &&& (firingAt s op w).traps = 0) :
    Host.Outcome.next (φ := Fault) (ρ := Refusal) (s.fire op w k) =
      .next (s.commit s.site op w { e with flags := flags, gen := gen }) :=
  fire_commits h (hk.trans (conclude_untrapped clear raised untrapped))

end

end Sys2Proof.Proofs

/-! The proofs of the obligations about the integer, lane and queue instructions of cells. -/

namespace Sys2Proof.Proofs

open Sys2Proof Sys2Proof.Machine Sys2Proof.Laws

/-! ### Integer operations on elements -/

section

variable {s : State} {op : Nat} {w : CellWord} {k : Firing → Except CellStop Effect}

/-- The word that an element-wise operation makes of its sources' elements. -/
def elementWord (f : Firing) (g : Nat → Nat → Nat → Nat) : LinkWord :=
  resultWord f.ty
    (zip3 g ((f.raw f.w.a).values f.ty) ((f.raw f.w.b).values f.ty) ((f.raw (cOperand f.op f.w)).values f.ty))
    (sourceMask f)

/-- An element-wise firing commits one word of the elements' results. -/
theorem fire_each {g : Nat → Nat → Nat → Nat} (h : (firingAt s op w).fires [w.a, w.b, cOperand op w] = true)
    (hk : k (firingAt s op w) = (firingAt s op w).each g) :
    Host.Outcome.next (φ := Fault) (ρ := Refusal) (s.fire op w k) =
      .next (s.commit s.site op w ((firingAt s op w).write (elementWord (firingAt s op w) g))) :=
  fire_commits h (hk.trans (operands_bind (takes_first h) (takes_second h) (takes_third h)))

/-- The result of an element-wise body may be written in another way. -/
theorem each_congr {f : Firing} {g g' : Nat → Nat → Nat → Nat} (same : ∀ a b c, g a b c = g' a b c) :
    f.each g = f.each g' :=
  congrArg f.each (funext fun a => funext fun b => funext fun c => same a b c)

end

/-! ### Integer elements modulo their width (R230, R235) -/

section

variable (w : Nat) (sg : Bool) (a b c : Nat)

theorem intOf_modEq : intOf w sg a ≡ a [ZMOD 2 ^ w] := by
  unfold intOf
  split
  · exact Int.sub_emod_right _ _
  · rfl

theorem two_pow_sub_modEq_neg : ((2 ^ w - a % 2 ^ w : Nat) : Int) ≡ -a [ZMOD 2 ^ w] := by
  have le : a % 2 ^ w ≤ 2 ^ w := (Nat.mod_lt _ (Nat.two_pow_pos w)).le
  calc ((2 ^ w - a % 2 ^ w : Nat) : Int) = 2 ^ w - (a : Int) % 2 ^ w := by push_cast [le]; rfl
    _ ≡ 0 - a [ZMOD 2 ^ w] := Int.ModEq.sub (by simp [Int.ModEq]) (Int.mod_modEq _ _)
    _ = -a := zero_sub _

variable {w} in
/-- The element that holds an integer is its remainder. -/
theorem wrapInt_of_modEq {v : Int} {x : Nat} (h : v ≡ x [ZMOD 2 ^ w]) : wrapInt w v = x % 2 ^ w := by
  unfold wrapInt
  rw [show v % 2 ^ w = ((x % 2 ^ w : Nat) : Int) by rw [h]; push_cast; rfl, Int.toNat_natCast]

theorem wrapInt_intOf : wrapInt w (intOf w sg a) = a % 2 ^ w := wrapInt_of_modEq (intOf_modEq w sg a)

theorem wrapInt_add : wrapInt w (intOf w sg a + intOf w sg b) = (a + b) % 2 ^ w :=
  wrapInt_of_modEq (by push_cast; exact (intOf_modEq w sg a).add (intOf_modEq w sg b))

theorem wrapInt_sub : wrapInt w (intOf w sg a - intOf w sg b) = (a + (2 ^ w - b % 2 ^ w)) % 2 ^ w := by
  apply wrapInt_of_modEq
  rw [Nat.cast_add, sub_eq_add_neg]
  exact (intOf_modEq w sg a).add ((intOf_modEq w sg b).neg.trans (two_pow_sub_modEq_neg w b).symm)

theorem wrapInt_mul : wrapInt w (intOf w sg a * intOf w sg b) = a * b % 2 ^ w :=
  wrapInt_of_modEq (by push_cast; exact (intOf_modEq w sg a).mul (intOf_modEq w sg b))

theorem wrapInt_mulAdd : wrapInt w (intOf w sg a * intOf w sg b + intOf w sg c) = (a * b + c) % 2 ^ w :=
  wrapInt_of_modEq (by
    push_cast; exact ((intOf_modEq w sg a).mul (intOf_modEq w sg b)).add (intOf_modEq w sg c))

theorem wrapInt_neg : wrapInt w (-intOf w sg a) = (2 ^ w - a % 2 ^ w) % 2 ^ w :=
  wrapInt_of_modEq ((intOf_modEq w sg a).neg.trans (two_pow_sub_modEq_neg w a).symm)

theorem wrapInt_min : wrapInt w (min (intOf w sg a) (intOf w sg b)) =
    if intOf w sg a ≤ intOf w sg b then a % 2 ^ w else b % 2 ^ w := by
  rw [min_def, apply_ite (wrapInt w), wrapInt_intOf, wrapInt_intOf]

theorem wrapInt_max : wrapInt w (max (intOf w sg a) (intOf w sg b)) =
    if intOf w sg a ≤ intOf w sg b then b % 2 ^ w else a % 2 ^ w := by
  rw [max_def, apply_ite (wrapInt w), wrapInt_intOf, wrapInt_intOf]

theorem wrapInt_abs : wrapInt w ((intOf w sg a).natAbs : Int) =
    if intOf w sg a < 0 then (2 ^ w - a % 2 ^ w) % 2 ^ w else a % 2 ^ w := by
  split
  · rw [Int.ofNat_natAbs_of_nonpos (by omega), wrapInt_neg]
  · rw [Int.natAbs_of_nonneg (by omega), wrapInt_intOf]

end

/-- Settles O38: each element's result is wrapped by `wrapInt`, which a congruence modulo the width turns into the
remainder that the statement gives; `ICMP` splits on its destination. -/
theorem cellIntegerElements : Obligations.CellIntegerElements := by
  intro w s
  refine ⟨?iadd, ?isub, ?iadds, ?isubs, ?imul, ?imulh, ?imad, ?imin, ?imax, ?iabs, ?ineg, ?iavg, ?shl, ?shr, ?sar,
    ?rot, ?and, ?or, ?xor, ?andn, ?not, ?clz, ?ctz, ?ffs, ?popc, ?brev, ?bfx, ?bfi, ?sel, ?icmp⟩
  case iadd => exact fun h => fire_each h (each_congr fun a b _ => wrapInt_add _ _ a b)
  case isub => exact fun h => fire_each h (each_congr fun a b _ => wrapInt_sub _ _ a b)
  case imul => exact fun h => fire_each h (each_congr fun a b _ => wrapInt_mul _ _ a b)
  case imad => exact fun h => fire_each h (each_congr fun a b c => wrapInt_mulAdd _ _ a b c)
  case imin => exact fun h => fire_each h (each_congr fun a b _ => wrapInt_min _ _ a b)
  case imax => exact fun h => fire_each h (each_congr fun a b _ => wrapInt_max _ _ a b)
  case iabs => exact fun h => fire_each h (each_congr fun a _ _ => wrapInt_abs _ _ a)
  case ineg => exact fun h => fire_each h (each_congr fun a _ _ => wrapInt_neg _ _ a)
  case sel => exact fun h => fire_each h (each_congr fun _ _ _ => ite_not ..)
  case icmp =>
    intro h
    have compares : exec (.icmp w) s = .next (s.commit s.site 0x40 w _) :=
      fire_commits h (operands_bind (takes_first h) (takes_second h) (takes_third h))
    refine ⟨fun k hd all => ?_, fun k hd all => ?_, fun hd => ?_⟩
    · rw [compares, all]; exact congrArg _ (congrArg _ (judge_any hd))
    · rw [compares, all]; exact congrArg _ (congrArg _ (judge_all hd))
    · rw [compares]; exact congrArg _ (congrArg _ (judge_word hd))
  case iadds | isubs | imulh | iavg | shl | shr | sar | rot | and | or | xor | andn | not | clz | ctz | ffs | popc |
      brev | bfx | bfi => exact fun h => fire_each h rfl

/-! ### Lanes and queues -/

/-- Settles O39: each body reads its operands as they stand, and the words of elements are brought into the form of the
statement. -/
theorem cellLaneInstructions : Obligations.CellLaneInstructions := by
  intro w s t c ty n count sg firing writes src fires marked wl
  refine ⟨?mov, ?deq, ?movc, ?bcst, ?lprm, ?lshf, ?reduce, ?dot, ?kop, ?enq, ?advPush, ?advPop, ?peek, ?qstat⟩
  case mov | deq => exact fun h may => fire_commits h ((read_bind (takes_first h)).trans (move_ok may))
  case movc => exact fun h => fire_commits h rfl
  case bcst =>
    exact fun h => fire_commits h ((marked_bind (takes_first h)).trans (congrArg _ (carry_replicate _ _)))
  case lprm =>
    exact fun h => fire_commits h ((marked_bind (takes_first h)).trans ((marked_bind (takes_second h)).trans
      (congrArg _ (carry_map _ _))))
  case lshf =>
    exact fun h => fire_commits h ((marked_bind (takes_first h)).trans (marked_bind (takes_second h)))
  case reduce =>
    intro op h xs
    refine ⟨?_, ?_⟩
    · rintro rfl total
      exact fire_commits h (reduced_bind (takes_first h))
    · rintro rfl l
      exact fire_commits h (reduced_bind (takes_first h))
  case dot =>
    rintro op i (⟨rfl, rfl⟩ | ⟨rfl, rfl⟩) h a b x prods sum <;>
      exact fire_commits h ((operand_bind (takes_first h)).trans
        ((operand_bind (takes_second h)).trans (read_bind (takes_third h))))
  case kop => exact fun h => fire_commits h rfl
  case enq => exact fun h => fire_commits h (read_bind (takes_first h))
  case advPush =>
    exact fun q dst h => fire_commits h (by rw [dst]; rfl)
  case advPop =>
    intro other h
    refine fire_commits h ?_
    split
    · exact absurd ‹_› (other _)
    · rfl
  case peek => exact congrArg Host.Outcome.next (fire_ok rfl rfl)
  case qstat => exact fun h => fire_commits h rfl

end Sys2Proof.Proofs

/-! The proofs of the obligations about the float and block instructions of cells. -/

namespace Sys2Proof.Proofs

open Sys2Proof Sys2Proof.Machine Sys2Proof.Laws

/-! ### Float operations on elements -/

/-- The elements' outcomes of a float operation, rounded in order (R263, R264). -/
def roundedElements (f : Firing) (g : FVal → FVal → FVal → Pre) : List Nat × List FFlags × BitVec 32 :=
  let outcomes := (((f.raw f.w.a).values f.ty).zip
    (((f.raw f.w.b).values f.ty).zip ((f.raw (cOperand f.op f.w)).values f.ty))).map fun e =>
      g (f.value e.1) (f.value e.2.1) (f.value e.2.2)
  roundAll ((elemMask f.ty (sourceMask f)).zip (outcomes.map fun p gen => f.round p gen)) f.c.gen

/-- The flags that a float operation's valid elements raise together. -/
def elementFlags (f : Firing) (g : FVal → FVal → FVal → Pre) : FFlags :=
  (roundedElements f g).2.1.foldl (fun (a : FFlags) x => a ||| x) 0

/-- A float operation on elements rounds each and concludes. -/
theorem float_eq_conclude {f : Firing} (g : FVal → FVal → FVal → Pre) (ha : f.takes f.w.a = true)
    (hb : f.takes f.w.b = true) (hc : f.takes (cOperand f.op f.w) = true) :
    f.float g = f.conclude (elemMarks f.ty (roundedElements f g).2.1) (roundedElements f g).2.2
      (f.write (resultWord f.ty (roundedElements f g).1 (sourceMask f))) :=
  operands_bind ha hb hc

/-- A float operation on elements commits their rounded results, or freezes the cell at an enabled trap. -/
theorem fire_float {s : State} {op : Nat} {w : CellWord} {x : Host.Outcome State Fault Refusal}
    {g : FVal → FVal → FVal → Pre} (hx : x = .next (s.fire op w fun f => f.float g))
    (h : (firingAt s op w).fires [w.a, w.b, cOperand op w] = true) :
    (elementFlags (firingAt s op w) g &&& (firingAt s op w).traps = 0 → x = .next (s.commit s.site op w
        { (firingAt s op w).write
            (resultWord w.ty.toNat (roundedElements (firingAt s op w) g).1 (sourceMask (firingAt s op w))) with
          flags := elementFlags (firingAt s op w) g, gen := (roundedElements (firingAt s op w) g).2.2 })) ∧
    (elementFlags (firingAt s op w) g &&& (firingAt s op w).traps ≠ 0 →
      ∃ y, x = .next (s.freeze s.site y false) ∧
        (y.code = codeFpInvalid ∨ y.code = codeFpDivzero ∨ y.code = codeFpOverflow) ∧
        (y.code = codeFpInvalid ↔
          elementFlags (firingAt s op w) g &&& (firingAt s op w).traps &&& flagInvalid ≠ 0)) := by
  have body := float_eq_conclude (f := firingAt s op w) g (takes_first h) (takes_second h) (takes_third h)
  refine ⟨fun untrapped => hx.trans (fire_concludes h body rfl (foldl_elemMarks _ _) untrapped), fun trapped => ?_⟩
  obtain ⟨y, stops, codes⟩ := conclude_trapped (foldl_elemMarks _ _) trapped
  exact ⟨y, hx.trans (congrArg _ (fire_error (body.trans stops))), codes⟩

/-- Settles O41: each instruction's body is `Firing.float` of the function that the statement names. -/
theorem cellFloatElements : Obligations.CellFloatElements := by
  intro w s t c ty firing each
  have rounds (i : CellWord → Instr) (op : Nat) (g : FVal → FVal → FVal → Pre)
      (body : exec (i w) s = .next (s.fire op w fun f => f.float g)) : each i op g := fire_float body
  clear_value each
  and_intros <;> exact rounds _ _ _ rfl

/-! ### Block words (R276-R279) -/

section

variable {f : Firing}

theorem blockWord_bind {α : Type} {k : Source → Except CellStop α} {o : Operand} (h : f.takes o = true)
    (block : (f.raw o).tag = 3 ∨ (f.raw o).tag = 4 ∨ (f.raw o).tag = 5) : (f.blockWord o >>= k) = k (f.raw o) := by
  have tagOk : ((f.raw o).tag = 3 || (f.raw o).tag = 4 || (f.raw o).tag = 5 : Bool) = true := by
    simpa [or_assoc] using block
  unfold Firing.blockWord
  rw [read_bind h, if_pos tagOk]
  rfl

/-- A body whose list of reads all succeed. -/
theorem mapM_ok {α β : Type} {g : α → Except CellStop β} {h : α → β} {l : List α}
    (all : ∀ i ∈ l, g i = .ok (h i)) : l.mapM g = .ok (l.map h) := by
  induction l with
  | nil => rfl
  | cons i l ih =>
    rw [List.mapM_cons, all i List.mem_cons_self, ih fun j hj => all j (List.mem_cons_of_mem i hj)]
    rfl

/-- The operands that a width adapter reads from a queue (R279). -/
def adapterOperands (w : CellWord) (q : BitVec 2) : List Operand :=
  ((List.range ((wadpSpan w).2 + 1)).drop (wadpSpan w).1).map fun i => .iq q (BitVec.ofNat 3 i)

theorem adapterWords_bind {α : Type} {k : List LinkWord → Except CellStop α} {q : BitVec 2} {j : BitVec 3}
    {tag : BitVec 4} (queue : f.w.a = .iq q j) (h : f.fires (adapterOperands f.w q) = true)
    (tags : ∀ o ∈ adapterOperands f.w q, (f.raw o).tag = tag) :
    (f.adapterWords tag >>= k) = k ((adapterOperands f.w q).map fun o => (f.raw o).link) := by
  unfold Firing.adapterWords
  rw [queue]
  dsimp only
  rw [mapM_ok (h := fun i => (f.raw (.iq q (BitVec.ofNat 3 i))).link)]
  · rw [adapterOperands, List.map_map]
    rfl
  · intro i hi
    have member : Operand.iq q (BitVec.ofNat 3 i) ∈ adapterOperands f.w q := List.mem_map_of_mem hi
    rw [read_bind (takes_of_fires h member), if_pos (tags _ member)]

end

/-- Settles O42: each body reads its operands as they stand and concludes; `TOPK`, `BQ`, `SCLB` and `WADP` bring their
words into the form that the statement gives. -/
theorem cellFloatResults : Obligations.CellFloatResults := by
  intro w s t c ty firing src els mask marked block fires traps ftz ends either
  refine ⟨?fcmp, ?frnd, ?fcls, ?redf, ?scnf, ?topk, ?cvt, ?bq, ?bdq, ?scaleBytes, ?scaleChanges, ?wadp⟩
  case fcmp =>
    exact fun h quiet => fire_concludes h (operands_bind_two h rfl) judge_flags (foldl_elemMarks _ _) quiet
  case frnd =>
    exact fun h quiet => fire_concludes h (operands_bind_two h rfl) rfl (foldl_elemMarks _ _) quiet
  case fcls =>
    exact fun h => fire_commits h (operands_bind_two h rfl)
  case redf =>
    exact fun h quiet => fire_concludes h (combined_bind (takes_first h) rfl) rfl (foldl_single _ _) quiet
  case scnf =>
    exact fun e l h split quiet =>
      fire_concludes h (combined_bind (takes_first h) split) rfl (foldl_elemMarks _ _) quiet
  case topk =>
    intro h x k d held flush old lanes isNan new best out
    have padded : out = best.map (·.value) ++ List.replicate (8 - (best.map (·.value)).length) 0 ++
        best.map (·.index) := by rw [List.length_map]
    rw [padded]
    exact fun quiet => fire_concludes h ((read_bind (takes_first h)).trans (read_bind (takes_second h))) rfl
      (foldl_map_marks _ _ _) quiet
  case cvt =>
    exact fun h quiet => fire_concludes h ((read_bind (takes_first h)).trans (marked_bind (takes_second h))) rfl
      (foldl_elemMarks _ _) quiet
  case bq =>
    intro h st wd n part q d old
    have payload : old.1 = if d.tag = tagOfWidth wd then d.payload else 0 := apply_ite Prod.fst ..
    have scale : old.2 = if d.tag = tagOfWidth wd then d.scale else 0 := apply_ite Prod.snd ..
    rw [payload, scale]
    exact fun quiet => fire_concludes h ((read_bind (takes_first h)).trans (read_bind (takes_second h))) rfl
      (foldl_single _ _) quiet
  case bdq =>
    rintro x rfl h isBlock inside wd len codes vals quiet
    have inRange : (w.cf 2 1 = 1 && wd = 8 : Bool) = false := by simpa using inside
    exact fire_concludes h ((blockWord_bind (takes_first h) isBlock).trans (if_neg (Bool.eq_false_iff.1 inRange))) rfl
      (foldl_elemMarks _ _) quiet
  case scaleBytes =>
    exact fun h isBlock op => fire_commits h ((blockWord_bind (takes_first h) isBlock).trans (by rw [op]; rfl))
  case scaleChanges =>
    rintro x y rfl rfl h isBlock valid v
    have lane : ¬(!(src w.b).ownMask.getLsbD 0) = true := by rw [valid]; decide
    refine ⟨fun op => ?_, ?_⟩
    · refine fire_commits h ((blockWord_bind (takes_first h) isBlock).trans ?_)
      rw [op]
      exact (read_bind (takes_second h)).trans (if_neg lane)
    · intro op r quiet
      obtain ⟨n, advance⟩ := Nat.exists_eq_add_of_le' op
      refine fire_concludes h ((blockWord_bind (takes_first h) isBlock).trans ?_) rfl
        (foldl_zipIdx_marks r (blockLanes (tagWidth (src w.a).tag.toNat)) _) quiet
      rw [advance]
      exact (read_bind (takes_second h)).trans ((if_neg lane).trans (if_neg (by omega)))
  case wadp =>
    intro q j queue iw ow os words h tags
    refine ⟨fun wider => ?_, ?_⟩
    · exact fire_commits h ((adapterWords_bind queue h tags).trans (if_pos wider))
    · intro narrower vals used blocks r quiet
      have raised := foldl_zipIdx_marks (r.1.zip blocks) (blockLanes ow) fun e =>
        e.1.flags ||| (if e.2.any (·.2) then flagInvalid else 0)
      exact fire_concludes h ((adapterWords_bind queue h tags).trans (if_neg narrower)) rfl raised quiet

end Sys2Proof.Proofs

/-! The proofs of the obligations about the memory operations and structural nodes of cells. -/

namespace Sys2Proof.Proofs

open Sys2Proof Sys2Proof.Machine Sys2Proof.Laws

/-! ### Requests at the address port (R252-R260) -/

section

variable {f : Firing} {n : Nat} {o : Operand}

/-- An address in valid lanes. -/
theorem address_valid (h : f.addresses n o = true) : (f.raw o).address = .ok (f.addressOf o) :=
  if_pos (Bool.and_eq_true_iff.1 h).1

theorem address_bind {α : Type} {k : Word → Except CellStop α} (h : f.takes o = true) (ha : f.addresses n o = true) :
    (f.address n o >>= k) = k (f.addressOf o) := by
  have aligned : (f.addressOf o).toNat % n = 0 := of_decide_eq_true (Bool.and_eq_true_iff.1 ha).2
  unfold Firing.address alignedTo
  rw [read_bind h, address_valid ha]
  exact congrArg (· >>= k) (if_pos aligned)

/-- An address in valid lanes that is not aligned is a fault with the address in word 1. -/
theorem address_misaligned {m : Nat} {α : Type} {k : Word → Except CellStop α} (h : f.takes o = true)
    (ha : f.addresses m o = true) (off : (f.addressOf o).toNat % n ≠ 0) :
    (f.address n o >>= k) = .error ⟨codeMisaligned, f.addressOf o, 0, true⟩ := by
  unfold Firing.address alignedTo
  rw [read_bind h, address_valid ha]
  exact congrArg (· >>= k) (if_neg off)

end

/-- `LD` of an address asks for the word there. -/
theorem execCellLd_memory {w : CellWord} {s : State} (memory : ∀ h, w.a ≠ .handle h) :
    exec (.cellLd w) s = .next (s.fire 0x65 w fun f => do
      let va ← f.address 64 w.a
      .ok (f.request (.load (memTag w 3)) va f.scope)) := by
  refine congrArg (fun k => Host.Outcome.next (s.fire 0x65 w k)) (funext fun f => ?_)
  split
  · exact absurd ‹_› (memory _)
  · rfl

/-- `LD` of a buffer handle reads the buffer. -/
theorem execCellLd_handle {w : CellWord} {s : State} {h : BitVec 7} (handle : w.a = .handle h) :
    exec (.cellLd w) s = .next (s.fire 0x65 w fun f => f.readBuffer h) := by
  refine congrArg (fun k => Host.Outcome.next (s.fire 0x65 w k)) (funext fun f => ?_)
  rw [handle]

/-- Settles O40: each body reads its operands as they stand and its address, and makes its request; `LD` splits on
whether it names a buffer. -/
theorem cellMemoryInstructions : Obligations.CellMemoryInstructions := by
  intro w s t ty firing entry sends src at_ ready sc
  refine ⟨?ld, ?ldBuffer, ?st, ?walk, ?atom, ?ldv, ?stv, ?proj, ?hout, ?misaligned⟩
  case ld =>
    exact fun memory h ha => (execCellLd_memory memory).trans (fire_commits h (address_bind (takes_first h) ha))
  case ldBuffer =>
    intro b handle h i e pa now inside
    have atOnce :
        ((s.cell t.p t.m).port.isEmpty && (s.reservers (.cell t.p t.m) pa 64).isEmpty) = true ↔ now := by
      rw [Bool.and_eq_true, List.isEmpty_iff, List.isEmpty_iff]
    exact ⟨_, fun h => if_pos (atOnce.2 h), fun h => if_neg (mt atOnce.1 h), (execCellLd_handle handle).trans
      (fire_commits h ((read_bind (takes_first h)).trans (if_neg (Nat.not_le.2 inside))))⟩
  case st | stv | hout =>
    exact fun ⟨h, ha⟩ => fire_commits h ((read_bind (takes_first h)).trans (address_bind (takes_second h) ha))
  case walk | atom | ldv =>
    exact fun ⟨h, ha⟩ => fire_commits h ((address_bind (takes_first h) ha).trans (read_bind (takes_second h)))
  case proj =>
    exact fun h ha => fire_commits h ((read_bind (takes_first h)).trans (by rw [address_valid ha]; rfl))
  case misaligned =>
    rintro op i (⟨rfl, rfl⟩ | ⟨rfl, rfl⟩ | ⟨rfl, rfl⟩) memory h ha off
    · exact (execCellLd_memory memory).trans
        (congrArg Host.Outcome.next (fire_error (address_misaligned (takes_first h) ha off)))
    · exact congrArg Host.Outcome.next (fire_error (address_misaligned (takes_first h) ha off))
    · exact congrArg Host.Outcome.next (fire_error (address_misaligned (takes_first h) ha off))

/-! ### Structural nodes (R280-R292) -/

/-- Settles O43: each body reads its operands as they stand; the predicate, the queue or the selector decides a branch. -/
theorem cellStructural : Obligations.CellStructural := by
  intro w s t c firing does k src wl fires
  refine ⟨?passes, ?closes, ?opens, ?dly, ?mergeFirst, ?mergeSecond, ?steerAway, ?steerOn, ?tag, ?widn, ?hin, ?rdon,
    ?rrte, ?pois, ?halt, ?trap, ?nop⟩
  case passes =>
    exact fun h opened more => fire_commits h ((if_pos opened).trans ((read_bind (takes_first h)).trans
      (congrArg _ (if_neg (Bool.eq_false_iff.1 more)))))
  case closes =>
    exact fun h opened last => fire_commits h ((if_pos opened).trans ((read_bind (takes_first h)).trans
      (congrArg _ (if_pos last))))
  case opens =>
    intro h closed token kind
    have completion : ((src w.b).link.token && (src w.b).link.kind = 0 : Bool) = true := by simp [token, kind]
    exact fire_commits h ((if_neg (Bool.eq_false_iff.1 closed)).trans ((read_bind (takes_first h)).trans
      (if_pos completion)))
  case mergeFirst =>
    exact fun q j queue filled h => fire_commits h
      (read_bind_of_eq (if_pos (by rw [queue]; exact decide_eq_true filled)) (takes_first h))
  case mergeSecond =>
    intro q j queue empty h
    have none : ¬1 ≤ c.iq[q.toNat].filled := by rw [empty]; decide
    exact fire_commits h (read_bind_of_eq (if_neg (by rw [queue]; exact mt of_decide_eq_true none)) (takes_first h))
  case steerAway =>
    exact fun h chosen => fire_commits h ((read_bind (takes_first h)).trans ((read_bind (takes_second h)).trans
      (congrArg _ (if_pos (decide_eq_true chosen)))))
  case steerOn =>
    exact fun h other => fire_commits h ((read_bind (takes_first h)).trans ((read_bind (takes_second h)).trans
      (congrArg _ (if_neg fun chosen => absurd other (of_decide_eq_true chosen)))))
  case dly | tag => exact fun h => fire_commits h (read_bind (takes_first h))
  case widn =>
    intro q h dst
    exact fire_commits h ((read_bind (takes_first h)).trans (by rw [dst]; rfl))
  case hin =>
    intro h token kind
    have ingress : (wl.token && wl.kind = 6 : Bool) = true := by simp [token, kind]
    exact fire_commits h ((read_bind (takes_first h)).trans (if_pos ingress))
  case rdon =>
    intro h record
    rw [← raw_link_scale]
    exact fire_commits h (recordWord_bind (takes_first h) record)
  case rrte => exact fun h record => fire_commits h (recordWord_bind (takes_first h) record)
  case trap => exact congrArg Host.Outcome.next (fire_error rfl)
  case pois | halt | nop => exact fun h => fire_commits h rfl

end Sys2Proof.Proofs

/-! The proofs of the obligations about stores, versioned loads, store-releases, reclaims and versions. -/

namespace Sys2Proof.Proofs

open Sys2Proof Sys2Proof.Machine Sys2Proof.Laws

/-! ### How pieces of an instruction's effect run -/

section

variable {α β : Type} {s t : State}

/-- What stops the first of two pieces stops both. -/
theorem act_bind_error {k : Act α} {f : α → Act β} {x : Stop} (h : k s = .error x t) : (k >>= f) s = .error x t := by
  simp [bind, EStateM.bind, h]

/-- Two pieces that complete together: what the first one leaves, the second one completes on. -/
theorem act_bind_eq_ok {k : Act α} {f : α → Act β} {b : β} (h : (k >>= f) s = .ok b t) :
    ∃ a s1, k s = .ok a s1 ∧ f a s1 = .ok b t := by
  simp only [bind, EStateM.bind] at h
  cases e : k s with
  | ok a s1 => exact ⟨a, s1, rfl, by simpa only [e] using h⟩
  | error x s1 => simp [e] at h

theorem get_eq (s : State) : (get : Act State) s = .ok s s := rfl

/-- An access at an aligned address is let through. -/
theorem aligned_ok {va : Word} {n : Nat} (h : va.toNat % n = 0) : aligned va n s = .ok () s := check_of (by simp [h])

/-- An access at a misaligned address faults with its address (R108). -/
theorem aligned_misaligned {va : Word} {n : Nat} (h : va.toNat % n ≠ 0) :
    aligned va n s = .error (.fault codeMisaligned va) s := by
  simp only [aligned, Machine.check, h, decide_false, Bool.false_eq_true, if_false]
  rfl

/-- An instruction that faults with another code than `ILLEGAL_INSTRUCTION` traps with the fault's value. -/
theorem attempt_fault_legal {i : Instr} {e : Nat} {k : Act Unit} {c : Byte} {v : Word} (h : k s = .error (.fault c v) t)
    (legal : c ≠ codeIllegal) : s.attempt i e k = .next (s.trapEntry s.here c v e false) := by
  rw [attempt_fault h, if_neg legal]

/-- An instruction whose first check finds its address misaligned traps with that address. -/
theorem attempt_misaligned {i : Instr} {e : Nat} {va : Word} {n : Nat} {f : Unit → Act Unit} (h : va.toNat % n ≠ 0) :
    s.attempt i e (aligned va n >>= f) = .next (s.trapEntry s.here codeMisaligned va e false) :=
  attempt_fault_legal (act_bind_error (aligned_misaligned h)) (by decide)

end

/-! ### Stores (R118) -/

section

variable {s s1 : State} {i : Instr} {n : Nat} {rd ra : Reg} {sc : Scope} {off : BitVec 12}

/-- A store whose write is carried out goes on. -/
theorem store_written (fits : (s.offsetAddress ra off n).toNat % n = 0)
    (written : writeVa (.core s.here) .plain sc (s.offsetAddress ra off n) (Decode.leBytes n (s.reg rd).toNat) s =
      .ok () s1) :
    s.store i n rd ra sc off = .next (s1.advance s1.here) :=
  attempt_ok ((act_bind_ok (aligned_ok fits)).trans (act_bind_ok written))

/-- A misaligned store traps. -/
theorem store_misaligned (fits : (s.offsetAddress ra off n).toNat % n ≠ 0) :
    s.store i n rd ra sc off = .next (s.trapEntry s.here 4 (s.offsetAddress ra off n) 0 false) :=
  attempt_misaligned fits

/-- A store whose translation faults traps on the state before it. -/
theorem store_untranslated {c : Byte} {v : Word} (fits : (s.offsetAddress ra off n).toNat % n = 0)
    (faults : translate (.core s.here) (s.offsetAddress ra off n) .write s = .error (.fault c v) s1) (legal : c ≠ 3) :
    s.store i n rd ra sc off = .next (s.trapEntry s.here c v 0 false) := by
  refine attempt_fault_legal (t := s1) ((act_bind_ok (aligned_ok fits)).trans (act_bind_error ?_)) legal
  exact act_bind_error faults

end

/-- Settles O14: the four stores are one operation at four sizes. -/
theorem stores : Obligations.Stores := by
  intro s rd ra sc off
  refine ⟨?_, ?_, ?_, ?_⟩ <;>
    exact ⟨fun _ => store_written, store_misaligned, fun _ _ _ => store_untranslated⟩

/-! ### Versioned loads (R64, R65, R120) -/

section

variable {s s1 : State} {i : Instr} {eq : Bool} {rd ra rb : Reg} {sx : Bool} {size : BitVec 2} {sc : Scope}

/-- The data of a versioned load, or that its version is still to come. -/
def versionedData (s : State) (eq : Bool) (ra rb : Reg) (size : BitVec 2) (sc : Scope) : Act (Option (List Byte)) := do
  let m ← translate (.core s.here) (s.reg ra) .versionRead
  loadVersion (.core s.here) false sc m (2 ^ size.toNat) ((s.reg rb).setWidth 12) eq (s.reg ra)

/-- A versioned load is its data, and what is done with them. -/
theorem loadVersioned_eq (fits : (s.reg ra).toNat % 2 ^ size.toNat = 0) {d : Option (List Byte)} :
    versionedData s eq ra rb size sc s = .ok d s1 →
    s.loadVersioned i eq rd ra rb sx size sc = .next (match d with
      | some bs => (s1.writeReg rd (extend sx bs)).onCore s.here fun c => { c with flags := c.flags &&& ~~~2 }
      | none => (s1.advance s1.here).onCore s.here fun c => { c with flags := c.flags ||| 2 }) := by
  intro data
  obtain ⟨m, s2, translates, loads⟩ := act_bind_eq_ok data
  refine attempt_ok ((act_bind_ok (aligned_ok fits)).trans ((act_bind_ok translates).trans ((act_bind_ok loads).trans ?_)))
  cases d <;> rfl

end

/-- Settles O17: both loads are one operation, which splits on whether its data came. -/
theorem versionedLoads : Obligations.VersionedLoads :=
  fun _ _ _ _ _ _ _ => ⟨
    ⟨fun _ _ fits => loadVersioned_eq fits, fun _ fits => loadVersioned_eq fits, attempt_misaligned⟩,
    ⟨fun _ _ fits => loadVersioned_eq fits, fun _ fits => loadVersioned_eq fits, attempt_misaligned⟩⟩

/-! ### The distance of a version (R63) -/

/-- Settles O18: the remainder by 4,096 names the one representative of the difference from -2,048 to 2,047. -/
theorem versionDistance : Obligations.VersionDistance := by
  intro v c
  have hv : v.toNat < 4096 := v.isLt
  have hc : c.toNat < 4096 := c.isLt
  have zero : distance v c = 0 ↔ v.toNat = c.toNat := by unfold distance; omega
  refine ⟨?_, ?_, ?_, zero.trans BitVec.toNat_inj⟩ <;> unfold distance <;> omega

/-! ### Store-releases and reclaims (R66, R67, R121, R122) -/

section

variable {s s1 s2 : State} {i : Instr} {rd ra rb : Reg} {size : BitVec 2} {sc : Scope} {m : Mapping}

/-- The store of a store-release, after its release. -/
def releasedStore (s : State) (rb : Reg) (size : BitVec 2) (sc : Scope) (m : Mapping) (t : State) : State :=
  (t.release (.core s.here) sc).storeVersion (.core s.here) (leafNoAllocate m.leaf) m.pa
    (Decode.leBytes (2 ^ size.toNat) (s.reg rb).toNat)

/-- A store-release that may be carried out stores, keeps its version where it is to, and writes the version. -/
theorem storeReleasing_eq {keep : Bool} (fits : (s.reg ra).toNat % 2 ^ size.toNat = 0)
    (translates : translate (.core s.here) (s.reg ra) .write s = .ok m s1)
    (holds : versionCheck (.core s.here) m (2 ^ size.toNat) (s.reg ra) s1 = .ok () s2)
    (may : (!keep || leafTracked m.leaf) = true) :
    let t := if keep then (releasedStore s rb size sc m s2).keepVersion m.pa else releasedStore s rb size sc m s2
    s.storeReleasing i keep rd ra rb size sc = .next (t.writeReg rd ((t.version m.pa).setWidth 64)) := by
  refine attempt_ok ((act_bind_ok (aligned_ok fits)).trans ((act_bind_ok translates).trans ((act_bind_ok holds).trans
    ((act_bind_ok (check_of may)).trans ?_))))
  cases keep <;> rfl

/-- The sectors that a reclaim names, each translated and checked before any version is retired. -/
def reclaimed (s : State) (ra : Reg) (n : Nat) : Act (List Mapping) :=
  (List.range n).mapM fun k => do
    let m ← translate (.core s.here) (s.reg ra + BitVec.ofNat 64 (32 * k)) .reclaim
    versionCheck (.core s.here) m 32 (s.reg ra + BitVec.ofNat 64 (32 * k))
    pure m

/-- Retire the versions below a floor of each sector, in pages that are tracked. -/
def retireAll (floor : BitVec 12) (ms : List Mapping) (t : State) : State :=
  ms.foldl (fun t m => if leafTracked m.leaf then State.retire t m.pa floor else t) t

/-- A reclaim whose sectors may all be reclaimed retires their versions and goes on. -/
theorem execReclaim_eq {ms : List Mapping} (fits : (s.reg ra).toNat % 32 = 0) (few : (s.reg rd).toNat ≤ 4096)
    (sectors : reclaimed s ra (s.reg rd).toNat s = .ok ms s1) :
    let t := retireAll ((s.reg rb).setWidth 12) ms s1
    execReclaim rd ra rb s = .next (t.advance t.here) :=
  attempt_ok ((act_bind_ok (aligned_ok fits)).trans ((act_bind_ok (check_of (decide_eq_true few))).trans
    (act_bind_ok sectors)))

/-- One sector that may be reclaimed. -/
theorem reclaimed_one (translates : translate (.core s.here) (s.reg ra) .reclaim s = .ok m s1)
    (holds : versionCheck (.core s.here) m 32 (s.reg ra) s1 = .ok () s2) : reclaimed s ra 1 s = .ok [m] s2 := by
  have first : s.reg ra + BitVec.ofNat 64 (32 * 0) = s.reg ra := BitVec.add_zero _
  rw [reclaimed, show List.range 1 = [0] from rfl, List.mapM_cons, first, bind_assoc, act_bind_ok translates, bind_assoc,
    act_bind_ok holds]
  rfl

/-- A reclaim of more than 4,096 sectors is illegal. -/
theorem execReclaim_many (fits : (s.reg ra).toNat % 32 = 0) (many : 4096 < (s.reg rd).toNat) :
    execReclaim rd ra rb s = .next (s.trapEntry s.here 3 (instrWord (.reclaim rd ra rb)) 0 false) := by
  have refuses : Machine.check (decide ((s.reg rd).toNat ≤ 4096)) codeIllegal 0 s = .error (.fault codeIllegal 0) s := by
    rw [decide_eq_false (Nat.not_le.2 many)]
    rfl
  exact attempt_fault ((act_bind_ok (aligned_ok fits)).trans (act_bind_error refuses))

end

/-- Settles O19: the reclaims of no sector and of one are cases of the reclaim of up to 4,096. -/
theorem storeReleases : Obligations.StoreReleases := by
  intro s rd ra rb size sc
  refine ⟨fun _ _ _ fits translates holds => ?_, fun _ _ _ fits translates holds may => ?_, fun fits none => ?_,
    fun m s1 s2 fits one translates holds => ?_, fun _ _ fits few sectors => ?_, fun fits many => ?_⟩
  · exact storeReleasing_eq (keep := false) fits translates holds rfl
  · exact storeReleasing_eq (keep := true) fits translates holds may
  · refine execReclaim_eq (ms := []) fits ?_ ?_ <;> rw [none]
    · decide
    · rfl
  · rw [show s2.here = ((if leafTracked m.leaf then s2.retire m.pa ((s.reg rb).setWidth 12) else s2)).here by
      split <;> rfl]
    refine execReclaim_eq (ms := [m]) fits ?_ ?_ <;> rw [one]
    · decide
    · exact reclaimed_one translates holds
  · exact execReclaim_eq fits few sectors
  · exact execReclaim_many fits many

/-! ### What a store to a scratchpad bank changes (R57, R62, R118) -/

/-- `t` is `s` with another state of its translation: caches of translations, collapses asked for and held walks. -/
def TranslatedFrom (s t : State) : Prop :=
  ∃ provinces collapses heldWalks, t = { s with provinces := provinces, collapses := collapses, heldWalks := heldWalks }

theorem TranslatedFrom.refl (s : State) : TranslatedFrom s s := ⟨_, _, _, rfl⟩
theorem TranslatedFrom.mem {s t : State} (h : TranslatedFrom s t) : t.mem = s.mem := by obtain ⟨_, _, _, rfl⟩ := h; rfl
theorem TranslatedFrom.versions {s t : State} (h : TranslatedFrom s t) : t.versions = s.versions := by
  obtain ⟨_, _, _, rfl⟩ := h; rfl
theorem TranslatedFrom.parcels {s t : State} (h : TranslatedFrom s t) : t.parcels = s.parcels := by
  obtain ⟨_, _, _, rfl⟩ := h; rfl

theorem translatedFrom_askAccess (s : State) (v asid va : Nat) (k : AccessKind) (identity : Option (BitVec 16))
    (e : BitVec 128) : TranslatedFrom s (s.askAccess v asid va k identity e) := by
  unfold State.askAccess State.askCollapse
  split
  · split <;> exact ⟨_, _, _, rfl⟩
  · exact .refl s

theorem translatedFrom_holdWalk (s : State) (u : Writer) (asid va : Nat) : TranslatedFrom s (s.holdWalk u asid va) := by
  unfold State.holdWalk
  split <;> exact ⟨_, _, _, rfl⟩

theorem translatedFrom_lookup (s : State) (u : Writer) (region v asid va : Nat) (k : AccessKind)
    (identity : Option (BitVec 16)) : TranslatedFrom s (s.lookup u region v asid va k identity).2 := by
  unfold State.lookup
  dsimp only
  split
  · exact .refl s
  · split
    · exact translatedFrom_askAccess ..
    · split
      · exact .refl s
      · split
        · exact translatedFrom_holdWalk ..
        · split
          · obtain ⟨p, c, h, e⟩ := translatedFrom_askAccess _ v asid va k identity _
            exact ⟨p, c, h, e⟩
          · exact translatedFrom_askAccess ..

theorem translatedFrom_settle {x : Translated × State} {va : Word} {m : Mapping} {s t : State}
    (h : settle x va s = .ok m t) : t = x.2 := by
  obtain ⟨y, u⟩ := x
  cases y <;> cases h
  rfl

/-- What a translation that succeeds changes. -/
theorem translatedFrom_translate {u : Writer} {va : Word} {k : AccessKind} {m : Mapping} {s t : State}
    (h : translate u va k s = .ok m t) : TranslatedFrom s t := by
  unfold Machine.translate at h
  obtain ⟨_, _, here, h⟩ := act_bind_eq_ok h
  cases here
  cases unit : s.unitRegion u with
  | none => rw [unit] at h; cases h
  | some x =>
    rw [unit] at h
    dsimp only at h
    split at h
    · cases h
    · split at h
      · rw [translatedFrom_settle h]; exact .refl s
      · rw [translatedFrom_settle h]; exact translatedFrom_lookup ..

@[simp] theorem serveHolds_versions (s : State) (x k : Nat) : (s.serveHolds x k).versions = s.versions := by
  unfold State.serveHolds
  dsimp only
  split <;> rfl

@[simp] theorem serveHolds_parcels (s : State) (x k : Nat) : (s.serveHolds x k).parcels = s.parcels := by
  unfold State.serveHolds
  dsimp only
  split <;> rfl

/-- A write that counts raises the version of its sector by one (R62). -/
theorem look_versions_bump (s : State) (x k : Nat) :
    (s.bump x 1).versions.look 0 k = if x = k then s.versions.look 0 k + 1 else s.versions.look 0 k := by
  simp only [State.bump, serveHolds_versions, look_put]
  split
  · rename_i e; rw [e]; rfl
  · rfl

@[simp] theorem bump_parcels (s : State) (x k : Nat) : (s.bump x k).parcels = s.parcels := serveHolds_parcels ..

/-- Raising the versions of sectors leaves every parcel. -/
theorem foldl_bump_parcels (l : List Nat) (s : State) : (l.foldl (fun t x => State.bump t x 1) s).parcels = s.parcels := by
  induction l generalizing s with
  | nil => rfl
  | cons x l ih => exact (ih _).trans (bump_parcels s x 1)

/-- Raising the version of each of some sectors once. -/
theorem look_versions_foldl_bump {l : List Nat} (distinct : l.Nodup) (s : State) (k : Nat) :
    (l.foldl (fun t x => State.bump t x 1) s).versions.look 0 k =
      if k ∈ l then s.versions.look 0 k + 1 else s.versions.look 0 k := by
  induction l generalizing s with
  | nil => simp
  | cons x l ih =>
    obtain ⟨fresh, distinct⟩ := List.nodup_cons.1 distinct
    rw [List.foldl_cons, ih distinct, look_versions_bump]
    by_cases e : x = k
    · subst e
      simp [fresh]
    · simp [e, Ne.symm e]

theorem nodup_sectorsOf (pa n : Nat) : (sectorsOf pa n).Nodup := by
  unfold sectorsOf
  split
  · exact List.nodup_nil
  · exact List.nodup_range.map fun _ _ e => Nat.add_left_cancel e

/-- A write where versions are: its bytes stand, each of its sectors counts it once, and no parcel changes. -/
theorem homeWrite_versioned (s : State) {pa : Nat} (data : List Byte) (h : versioned pa = true) :
    (s.homeWrite pa data).mem = s.mem.write (s.resolve pa) data ∧
    (∀ k, (s.homeWrite pa data).versions.look 0 k =
      if k ∈ sectorsOf (s.resolve pa) data.length then s.versions.look 0 k + 1 else s.versions.look 0 k) ∧
    (s.homeWrite pa data).parcels = s.parcels := by
  simp only [State.homeWrite, h, if_true]
  exact ⟨(SameMem.foldl (fun t x => sameMem_bump t x 1) _ _).1,
    look_versions_foldl_bump (nodup_sectorsOf _ _) _, foldl_bump_parcels _ _⟩

theorem length_leBytes (n x : Nat) : (Decode.leBytes n x).length = n := by
  induction n generalizing x with
  | zero => rfl
  | succ n ih => rw [Decode.leBytes, List.length_cons, ih]

/-- The bytes of a number, lowest first. -/
theorem getElem?_leBytes {n k : Nat} (x : Nat) (h : k < n) :
    (Decode.leBytes n x)[k]? = some (BitVec.ofNat 8 (x / 256 ^ k)) := by
  induction n generalizing x k with
  | zero => omega
  | succ n ih =>
    cases k with
    | zero => simp [Decode.leBytes]
    | succ k => rw [Decode.leBytes, List.getElem?_cons_succ, ih _ (by omega), Nat.div_div_eq_div_mul, ← Nat.pow_succ']

/-- A byte that a write put there. -/
theorem get_write_inside {m : Memory} (hm : m.wf = true) (a : Nat) {bs : List Byte} {k : Nat} {b : Byte}
    (h : bs[k]? = some b) : (m.write a bs).get (a + k) = b := by
  obtain ⟨hk, hb⟩ := List.getElem?_eq_some_iff.1 h
  have there : ((m.write a bs).bytes a bs.length)[k]? = some b := by rw [bytes_write hm, h]
  simpa [Memory.bytes, hk] using there

section

variable {s s1 t : State} {i : Instr} {n : Nat} {rd ra : Reg} {sc : Scope} {off : BitVec 12} {m : Mapping} {p o : Nat}

/-- A plain write to a scratchpad bank that no segment reserves is performed where it stands. -/
theorem writeAt_scratchpad {u : Writer} {kind : StoreKind} {data : List Byte} {value : Word}
    (place : placeOf m.pa = .parcel p o) (bank : o < 0x60000)
    (free : ∃ s2, reserveCheck u m.pa data.length value s1 = .ok () s2) :
    writeAt u kind sc m data value s1 = .ok () (s1.homeWrite m.pa data) := by
  obtain ⟨s2, free⟩ := free
  unfold writeAt
  rw [act_bind_ok (get_eq s1)]
  simp only [place, bank, if_true]
  exact act_bind_ok free

/-- A store that completes to a scratchpad bank that no segment reserves: its write at home, and then the next word. -/
theorem store_scratchpad (fits : (s.offsetAddress ra off n).toNat % n = 0)
    (translates : translate (.core s.here) (s.offsetAddress ra off n) .write s = .ok m s1)
    (place : placeOf m.pa = .parcel p o) (bank : o < 0x60000)
    (free : ∃ s2, reserveCheck (.core s.here) m.pa n (s.offsetAddress ra off n) s1 = .ok () s2) :
    let t := s1.homeWrite m.pa (Decode.leBytes n (s.reg rd).toNat)
    s.store i n rd ra sc off = .next (t.advance t.here) := by
  have free' : ∃ s2, reserveCheck (.core s.here) m.pa (Decode.leBytes n (s.reg rd).toNat).length
      (s.offsetAddress ra off n) s1 = .ok () s2 := by rwa [length_leBytes]
  exact store_written fits ((act_bind_ok translates).trans (writeAt_scratchpad place bank free'))

/-- A core that goes on keeps its registers, its flags and its trap bit. -/
theorem core_advance (q : Nat) : ((s.advance p).core q).regs = (s.core q).regs ∧
    ((s.advance p).core q).flags = (s.core q).flags ∧ ((s.advance p).core q).trap = (s.core q).trap := by
  rw [State.advance, core_onCore]
  split
  · rename_i e; subst e; exact ⟨rfl, rfl, rfl⟩
  · exact ⟨rfl, rfl, rfl⟩

/-- A buffer stands beside the core, which alone goes on. -/
theorem buffer_advance (q h : Nat) : (s.advance p).buffer q h = s.buffer q h := by
  simp only [State.buffer, State.advance, State.onCore, parcel_onParcel]
  split <;> simp_all

/-- What a store to a scratchpad bank that no segment reserves changes, whatever its size. -/
theorem store_frame (fits : (s.offsetAddress ra off n).toNat % n = 0)
    (translates : translate (.core s.here) (s.offsetAddress ra off n) .write s = .ok m s1)
    (place : placeOf m.pa = .parcel p o) (bank : o < 0x60000)
    (free : ∃ s2, reserveCheck (.core s.here) m.pa n (s.offsetAddress ra off n) s1 = .ok () s2)
    (canonical : s.mem.wf = true) (stores : s.store i n rd ra sc off = .next t) :
    (∀ a, (a < s1.resolve m.pa ∨ s1.resolve m.pa + n ≤ a) → t.mem.get a = s.mem.get a) ∧
    (∀ k < n, t.mem.get (s1.resolve m.pa + k) = BitVec.ofNat 8 ((s.reg rd).toNat / 256 ^ k)) ∧
    (∀ k, t.versions.look 0 k =
      if k ∈ sectorsOf (s1.resolve m.pa) n then s.versions.look 0 k + 1 else s.versions.look 0 k) ∧
    (∀ q, (t.core q).regs = (s.core q).regs ∧ (t.core q).flags = (s.core q).flags ∧
      (t.core q).trap = (s.core q).trap) ∧
    (∀ q k, t.cell q k = s.cell q k) ∧ (∀ q h, t.buffer q h = s.buffer q h) := by
  rw [store_scratchpad fits translates place bank free] at stores
  cases stores
  have counts : versioned m.pa = true := by
    simp only [versioned, place]
    exact decide_eq_true (by omega)
  obtain ⟨mem, versions, parcels⟩ := homeWrite_versioned s1 (Decode.leBytes n (s.reg rd).toNat) counts
  have before := translatedFrom_translate translates
  have parcel : ∀ q, (s1.homeWrite m.pa (Decode.leBytes n (s.reg rd).toNat)).parcel q = s.parcel q := fun q => by
    rw [State.parcel, parcels, before.parcels, State.parcel]
  rw [before.mem] at mem
  rw [length_leBytes, before.versions] at versions
  refine ⟨fun a outside => ?_, fun k inside => ?_, versions, fun q => ?_, fun q k => ?_, fun q h => ?_⟩
  · rw [advance_mem, mem]
    exact get_write_outside canonical _ _ (by rwa [length_leBytes])
  · rw [advance_mem, mem]
    exact get_write_inside canonical _ (getElem?_leBytes _ inside)
  · rw [show s.core q = _ from congrArg Parcel.core (parcel q).symm]
    exact core_advance q
  · rw [show s.cell q k = _ from congrArg (fun x => x.cells.look Cell.reset k) (parcel q).symm]
    exact cell_onCore _ _ _ _ _
  · rw [show s.buffer q h = _ from congrArg (fun x => x.buffers.look 0 h) (parcel q).symm]
    exact buffer_advance q h

end

/-- Settles O15: the translation changes no memory, version or parcel, and the write is one write at home. -/
theorem storeFrame : Obligations.StoreFrame :=
  fun _ _ _ _ _ _ _ _ _ _ => ⟨store_frame, store_frame, store_frame, store_frame⟩

end Sys2Proof.Proofs

/-! The proof of the obligation about translation, Sounding and kick instructions. -/

namespace Sys2Proof.Proofs

open Sys2Proof Sys2Proof.Machine Sys2Proof.Laws

/-! ### The turn through a release (R72) -/

/-- A fold of steps that leave the turn alone leaves it alone. -/
theorem foldl_next {α : Type} {f : State → α → State} (h : ∀ t a, (f t a).next = t.next) (l : List α) (s : State) :
    (l.foldl f s).next = s.next := by
  induction l generalizing s with
  | nil => rfl
  | cons a l ih => exact (ih _).trans (h s a)

theorem serveHolds_next (s : State) (x k : Nat) : (s.serveHolds x k).next = s.next := by
  unfold State.serveHolds
  dsimp only
  split <;> rfl

theorem writeOn_next (s : State) (key sector : Nat) (up : Option Nat) : (s.writeOn key sector up).next = s.next := by
  unfold State.writeOn
  dsimp only
  split
  · rfl
  · split
    · rfl
    · exact serveHolds_next ..

theorem drainPath_next (s : State) (u : Writer) (sc : Scope) : (s.drainPath u sc).next = s.next := by
  unfold State.drainPath
  split
  · exact foldl_next (fun t e => foldl_next (fun t2 x => writeOn_next ..) _ t) _ s
  · rfl

/-- A release leaves the turn with its core. -/
theorem here_release (s : State) (u : Writer) (sc : Scope) : (s.release u sc).here = s.here := by
  have next : (s.release u sc).next = s.next := by
    rw [← drainPath_next s u sc]
    cases u <;> rfl
  rw [State.here, State.site, next]
  rfl

/-! ### Translation (R412, R416, R420) -/

section

variable {s s1 : State} {rd ra rb : Reg} {o : Nat} {r : Region}

theorem myRegion_ok (region : s.regionOf s.here = some (o, r)) : myRegion s = .ok (o, r) s := by
  unfold myRegion
  rw [act_bind_ok (get_eq s), region]
  rfl

theorem modify_eq (f : State → State) (s : State) : (modify f : Act PUnit) s = .ok () (f s) := rfl
theorem issueRelease_eq (sc : Scope) (s : State) : issueRelease sc s = .ok () (s.release (.core s.here) sc) := rfl
/-- Going on names the core whose turn it is. -/
theorem proceed_eq {p : Nat} (here : s.here = p) : proceed s = .ok () (s.advance p) := by rw [← here]; rfl

/-- `PROJ.INV` with allowed operands. -/
theorem execProjInv_eq (region : s.regionOf s.here = some (o, r)) (low : wbits (s.reg rb) 23 20 = 0)
    (high : wbits (s.reg rb) 63 31 = 0) (pages : wbits (s.reg rb) 19 0 ≠ 0 ∨ s.reg ra = 0)
    (fits : wbits (s.reg ra) 11 0 = 0) :
    let t := s.release (.core s.here) .d
    execProjInv ra rb s = .next (({ t with invalidates := t.invalidates ++
      [⟨s.here, r.asid, (s.reg ra).toNat, wbits (s.reg rb) 19 0, wbits (s.reg rb) 29 24, wbit (s.reg rb) 30, none, 0, 0,
        false, true⟩] } : State).advance s.here) := by
  intro t
  refine attempt_ok ((act_bind_ok (check_of ?_)).trans ((act_bind_ok (check_of (decide_eq_true fits))).trans
    ((act_bind_ok (myRegion_ok region)).trans ((act_bind_ok (issueRelease_eq ..)).trans
      ((act_bind_ok (modify_eq ..)).trans (proceed_eq (here_release ..)))))))
  simpa [low, high] using pages

/-- `PROJ.PROBE` answers what the probe of its access finds, and leaves `FLAGS.nr` set where the page migrates. -/
theorem execProjProbe_eq {k : AccessKind} {x : Option (Byte × Nat × Nat)}
    (kind : (s.reg rb = 0 ∧ k = .read) ∨ (s.reg rb = 1 ∧ k = .write) ∨ (s.reg rb = 2 ∧ k = .fetch))
    (found : s.probe (.core s.here) (s.reg ra) k = (x, s1)) :
    execProjProbe rd ra rb s = .next (match x with
      | some (code, size, pa) => (s1.onCore s.here fun c => { c with flags := setF c.flags 1 1 0 }).writeReg rd
        (BitVec.ofNat 64 (code.toNat * 2 ^ 56 + size * 2 ^ 48 + pa))
      | none => (s1.onCore s.here fun c => { c with flags := setF c.flags 1 1 1 }).advance s1.here) := by
  have few : (s.reg rb).toNat < 3 := by
    rcases kind with ⟨b, -⟩ | ⟨b, -⟩ | ⟨b, -⟩ <;> rw [b] <;> decide
  refine attempt_ok ((act_bind_ok (check_of (decide_eq_true few))).trans ?_)
  generalize probed : s.probe (.core s.here) (s.reg ra) _ = y
  obtain rfl : y = (x, s1) := by
    rw [← probed, ← found]
    rcases kind with ⟨b, rfl⟩ | ⟨b, rfl⟩ | ⟨b, rfl⟩ <;> rw [b] <;> rfl
  cases x <;> rfl

/-- `PAGE.DUP` of a page that may be duplicated marks its leaf as migrating and asks for the copy. -/
theorem execPageDup_eq {e : BitVec 128} {at_ : Nat} (region : s.regionOf s.here = some (o, r))
    (low : wbits (s.reg rb) 14 7 = 0) (high : wbits (s.reg rb) 63 48 = 0) (fits : wbits (s.reg ra) 11 0 = 0)
    (leaf : s.dupLeaf r.asid (s.reg ra) = some (e, 12, at_)) (kind : leafKind e = 0) (writable : e.getLsbD 3 = true)
    (identity : leafIdentity e = 0 ∨ leafIdentity e = r.identity)
    (frames : ∀ i < 8, placeOf ((wbits (s.reg rb) 47 12 + i) * 4096) = .hbm) (single : leafDup e = false)
    (still : leafMigrating e = false)
    (fresh : ∀ v ∈ s.invalidates, ¬(v.dup.isSome = true ∧ v.asid = r.asid ∧ v.first = (s.reg ra).toNat)) :
    let t := (s.release (.core s.here) .d).writeLeaf at_ (setF e 12 12 1)
    execPageDup ra rb s = .next (({ t with invalidates := t.invalidates ++
      [⟨s.here, r.asid, (s.reg ra).toNat, 1, wbits (s.reg rb) 5 0, wbit (s.reg rb) 6, some (wbits (s.reg rb) 47 12), at_,
        e, false, true⟩] } : State).advance t.here) := by
  intro t
  have allowed : leafAllows .write (some r.identity) e = none := by
    simp only [leafAllows, writable, Bool.not_true, Bool.false_eq_true, if_false]
    rcases identity with h | h <;> simp [h]
  have once : (s.invalidates.any fun v => v.dup.isSome && v.asid = r.asid && v.first = (s.reg ra).toNat) = false := by
    simpa [and_assoc] using fresh
  refine attempt_ok ((act_bind_ok (check_of (by simp [low, high]))).trans
    ((act_bind_ok (check_of (decide_eq_true fits))).trans ((act_bind_ok (myRegion_ok region)).trans ?_)))
  simp only [leaf]
  refine (act_bind_ok (check_of (by simpa [kind, writable] using frames))).trans
    ((act_bind_ok (check_of (by simp [allowed]))).trans ((act_bind_ok (check_of ?_)).trans rfl))
  simp [single, still, once]

/-! ### Sounding (R434-R437) -/

/-- The low twelve bits of a word below 4,096 are all of it. -/
theorem wbits_small {a : Word} (h : a.toNat < 4096) : wbits a 11 0 = a.toNat ∧ wbits a 63 13 = 0 ∧ wbits a 63 12 = 0 ∧
    wbit a 12 = false := by
  refine ⟨?_, ?_, ?_, ?_⟩
  · simp only [wbits, bits]; omega
  · simp only [wbits, bits]; omega
  · simp only [wbits, bits]; omega
  · rw [wbit, BitVec.getLsbD, Nat.testBit_lt_two_pow h]

/-- `SND.SET` with no descriptor frees a set that is idle and the kernel's. -/
theorem execSndSet_free (region : s.regionOf s.here = some (o, r)) (small : (s.reg ra).toNat < 4096) (none : s.reg rb = 0)
    (idle : (s.pageSet (s.reg ra).toNat).state = 0 ∨
      ((s.pageSet (s.reg ra).toNat).asid = r.asid ∧ (s.pageSet (s.reg ra).toNat).busy = false)) :
    let t := s.release (.core s.here) .d
    execSndSet ra rb s = .next (({ t with sets := t.sets.drop (s.reg ra).toNat } : State).advance s.here) := by
  intro t
  obtain ⟨n, high, -, unbound⟩ := wbits_small small
  refine attempt_ok ((act_bind_ok (check_of (by simp [high, none]))).trans ((act_bind_ok (myRegion_ok region)).trans
    ((act_bind_ok (issueRelease_eq ..)).trans ?_)))
  simp only [unbound, Bool.false_eq_true, if_false, n]
  exact (act_bind_ok (check_of (by simpa using idle))).trans ((act_bind_ok (modify_eq ..)).trans
    (proceed_eq (here_release ..)))

theorem withXa_ok {α : Type} {k : Act α} {x : α} (a : Word) (h : k s = .ok x s1) : withXa a k s = .ok x s1 := by
  simp only [withXa, h]

/-- `SND.SET` with a descriptor that names free pages of the grant binds an idle set to them. -/
theorem execSndSet_bind {d : List Byte} (region : s.regionOf s.here = some (o, r)) (high : wbits (s.reg ra) 63 13 = 0)
    (bound : wbit (s.reg ra) 12 = true) (fits : (s.reg rb).toNat % 32 = 0)
    (reads : readVa (.core s.here) .d (s.reg rb) 32 (s.release (.core s.here) .d) = .ok d s1)
    (count : field d 8 4 < 65536) (some : 1 ≤ field d 16 4) (most : field d 16 4 ≤ 2 ^ 29) (tail : field d 20 12 = 0)
    (table : (wordOf (slice d 0 8)).toNat % 16 = 0) (granted : s.granted r.asid (field d 12 4) (field d 16 4) = true)
    (idle : (s.pageSet (wbits (s.reg ra) 11 0)).state = 0)
    (apart : ∀ e ∈ s.sets, e.2.state ≠ 0 →
      e.2.first + e.2.pages ≤ field d 12 4 ∨ field d 12 4 + field d 16 4 ≤ e.2.first) :
    let t := s1.onSet (wbits (s.reg ra) 11 0) fun _ =>
      { PageSet.reset with state := 1, asid := r.asid, table := wordOf (slice d 0 8), count := field d 8 4 + 1,
                           first := field d 12 4, pages := field d 16 4 }
    execSndSet ra rb s = .next (t.advance t.here) := by
  intro t
  have free : (s.sets.any fun (e : Nat × PageSet) => e.2.state ≠ 0 && field d 12 4 < e.2.first + e.2.pages &&
      e.2.first < field d 12 4 + field d 16 4) = false := by
    rw [List.any_eq_false]
    intro e he
    simp only [Bool.and_eq_true, decide_eq_true_eq, not_and, and_imp]
    intro taken above
    have := apart e he taken
    omega
  refine attempt_ok ((act_bind_ok (check_of (by simp [high, bound]))).trans ((act_bind_ok (myRegion_ok region)).trans
    ((act_bind_ok (issueRelease_eq ..)).trans ?_)))
  simp only [bound, if_true]
  exact (act_bind_ok (check_of (decide_eq_true fits))).trans ((act_bind_ok (withXa_ok _ reads)).trans
    ((act_bind_ok (check_of (by simp [count, some, tail, show field d 16 4 ≤ 536870912 from most]))).trans
    ((act_bind_ok (check_of (decide_eq_true table))).trans ((act_bind_ok (check_of granted)).trans
    ((act_bind_ok (check_of (by simp only [idle, free]; rfl))).trans rfl)))))

/-- `SND.OUT` and `SND.IN` of a set within its grant start a transfer. -/
theorem issueTransfer_eq {i : Instr} {out : Bool} {bs : List Byte} (region : s.regionOf s.here = some (o, r))
    (high : wbits (s.reg ra) 63 19 = 0) (named : (s.pageSet (wbits (s.reg ra) 11 0)).state ≠ 0)
    (mine : (s.pageSet (wbits (s.reg ra) 11 0)).asid = r.asid) (idle : (s.pageSet (wbits (s.reg ra) 11 0)).busy = false)
    (stored : out = true ∨ (s.pageSet (wbits (s.reg ra) 11 0)).state ≠ 1)
    (granted : s.granted r.asid (s.pageSet (wbits (s.reg ra) 11 0)).first (s.pageSet (wbits (s.reg ra) 11 0)).pages = true)
    (reads : readSpan (.core s.here) .d (spanFuel (16 * (s.pageSet (wbits (s.reg ra) 11 0)).count))
      (s.pageSet (wbits (s.reg ra) 11 0)).table (16 * (s.pageSet (wbits (s.reg ra) 11 0)).count)
      (s.release (.core s.here) .d) = .ok bs s1)
    (entries : ((List.range (s.pageSet (wbits (s.reg ra) 11 0)).count).map fun k =>
      BitVec.ofNat 128 (field bs (16 * k) 16)).all entryOk = true) :
    s.issueTransfer i out rd ra = .next ((s1.onSet (wbits (s.reg ra) 11 0) fun y =>
      { y with
        state := if out then 2 else 4, identity := r.identity,
        entries := (List.range (s.pageSet (wbits (s.reg ra) 11 0)).count).map fun k =>
          BitVec.ofNat 128 (field bs (16 * k) 16),
        used := if out then 0 else y.used, code := 0, flags := 0, parcel := s.here, station := wbits (s.reg ra) 17 12,
        counted := wbit (s.reg ra) 18, told := true, landed := [], offset := 0, failed := none }).writeReg rd
          s.newPromise) :=
  attempt_ok ((act_bind_ok (check_of (decide_eq_true high))).trans ((act_bind_ok (myRegion_ok region)).trans
    ((act_bind_ok (check_of (by simpa [mine, idle] using ⟨named, stored⟩))).trans ((act_bind_ok (check_of granted)).trans
    ((act_bind_ok (issueRelease_eq ..)).trans ((act_bind_ok (withXa_ok _ reads)).trans
    ((act_bind_ok (check_of entries)).trans rfl)))))))

/-- `SND.STAT` reads a set that is free or the kernel's. -/
theorem execSndStat_eq (region : s.regionOf s.here = some (o, r)) (small : (s.reg ra).toNat < 4096)
    (mine : (s.pageSet (s.reg ra).toNat).state = 0 ∨ (s.pageSet (s.reg ra).toNat).asid = r.asid) :
    execSndStat rd ra s = .next (s.writeReg rd (s.pageSet (s.reg ra).toNat).status) := by
  obtain ⟨n, -, high, -⟩ := wbits_small small
  refine attempt_ok ((act_bind_ok (check_of (decide_eq_true high))).trans ((act_bind_ok (myRegion_ok region)).trans ?_))
  simp only [n]
  exact (act_bind_ok (check_of (by simpa using mine))).trans rfl

/-! ### Kicks (R82, R457) -/

/-- `Q.KICK` waits behind the packets that a release parts from it, and is performed at once where there are none. -/
theorem execQKick_eq (small : (s.reg ra).toNat < 4096) :
    execQKick ra rb s = .next
      (if s.postsBefore s.here (s.core s.here).fences || s.lateKicks.any fun k => k.parcel = s.here then
        ({ s with lateKicks := s.lateKicks ++
          [⟨s.here, (s.core s.here).asid, (s.reg ra).toNat, s.reg rb, (s.core s.here).fences⟩] } : State).advance s.here
      else (s.kick (s.reg ra).toNat (s.reg rb) (some s.here) (some (s.here, (s.core s.here).asid))).advance s.here) := by
  obtain ⟨-, -, high, -⟩ := wbits_small small
  refine attempt_ok ((act_bind_ok (check_of (decide_eq_true high))).trans ?_)
  split <;> rfl

end

/-- Settles O37: each instruction's checks pass in turn, and what is left is its effect. -/
theorem translationInstructions : Obligations.TranslationInstructions := by
  intro s rd ra rb o r region
  refine ⟨execProjInv_eq region, fun k s1 kind => ⟨fun _ _ _ => execProjProbe_eq kind, execProjProbe_eq kind⟩,
    fun e at_ low high fits leaf kind writable identity frames single still fresh =>
      ⟨_, execPageDup_eq region low high fits leaf kind writable identity frames single still fresh, rfl, rfl⟩,
    execSndSet_free region, fun d s1 high bound fits reads count some most tail table granted idle apart t => ?_,
    fun i out bs s1 which high named mine idle stored granted reads entries => ?_, execSndStat_eq region,
    fun waits same small => ⟨fun no => ?_, fun yes => ?_⟩⟩
  · rintro rfl
    exact execSndSet_bind region high bound fits reads count some most tail table granted idle apart
  · rcases which with ⟨rfl, rfl⟩ | ⟨rfl, rfl⟩ <;>
      exact issueTransfer_eq region high named mine idle stored granted reads entries
  · exact (execQKick_eq small).trans (by rw [← same, no]; rfl)
  · exact (execQKick_eq small).trans (by rw [← same, yes]; rfl)

end Sys2Proof.Proofs

/-! The proof of the obligation about packets, promotions, wakeups and the control window. -/

namespace Sys2Proof.Proofs

open Sys2Proof Sys2Proof.Machine Sys2Proof.Laws

/-! ### Packets (R82, R97) -/

section

variable {s : State} {p dest k i : Nat} {pk : Packet}

/-- What an earliest packet needs to leave: an entry at its target, and no earlier packet that must precede it. -/
def mayLeave (s : State) (p dest i : Nat) (pk : Packet) : Prop :=
  ((s.core dest).storeEntry pk.ch.toNat).isSome = true ∧ ∀ x ∈ (s.core p).outbound.take i, x.before pk = false

theorem waits_iff_not_mayLeave : (((s.core dest).storeEntry pk.ch.toNat).isNone ||
    ((s.core p).outbound.take i).any fun x => x.before pk) = true ↔ ¬mayLeave s p dest i pk := by
  simp only [mayLeave, Bool.or_eq_true, List.any_eq_true, Option.isNone_iff_eq_none, Option.isSome_iff_ne_none,
    not_and_or, not_not, not_forall, Bool.not_eq_false, exists_prop]

/-- The earliest packet for a core leaves its sender where it may, and waits otherwise. -/
theorem execOutboundPacketSend_earliest
    (earliest : (s.core p).outbound.zipIdx.find? (fun e => e.1.dest = dest) = some (pk, i)) :
    (mayLeave s p dest i pk → execOutboundPacketSend p dest s = .next
      { s.onCore p fun c => { c with outbound := c.outbound.eraseIdx i } with flight := s.flight ++ [pk] }) ∧
    (¬mayLeave s p dest i pk → execOutboundPacketSend p dest s = .next s) := by
  simp only [execOutboundPacketSend, earliest]
  exact ⟨fun may => if_neg fun waits => waits_iff_not_mayLeave.1 waits may,
    fun waits => if_pos (waits_iff_not_mayLeave.2 waits)⟩

/-- A packet that nothing must precede enters its channel's FIFO. -/
theorem execPacketArrival_enters {o : Nat} {r : Region} {shared : Bool} (flies : s.flight[k]? = some pk)
    (first : ∀ x ∈ s.flight.take k, x.before pk = false) (noKick : s.kickFirst pk = false)
    (free : s.boot.phase ≠ .held) (region : s.regionOf pk.dest = some (o, r))
    (plain : ¬(pk.frontEnd = true ∧ pk.ch = 127))
    (entry : (s.core pk.dest).storeEntry pk.ch.toNat = some shared) :
    execPacketArrival k s = .next (({ s with flight := s.flight.eraseIdx k } : State).onCore pk.dest fun c =>
      c.onChannel pk.ch.toNat fun h => h.push s.meridian.toNat (.packet pk shared)) := by
  have none : ((s.flight.take k).any fun x => x.before pk) = false := by
    simpa only [List.any_eq_false, Bool.not_eq_true] using first
  have plain' : (pk.frontEnd && decide (pk.ch.toNat = 127)) = false := by
    rw [← Bool.not_eq_true, Bool.and_eq_true, decide_eq_true_eq]
    exact fun both => plain ⟨both.1, BitVec.eq_of_toNat_eq both.2⟩
  simp only [execPacketArrival, flies, none, noKick, free, region, plain', entry, Bool.or_self, Bool.false_and,
    Bool.false_eq_true, if_false, Option.isNone_some]

end

/-! ### Promotions and time wakeups (R98, R102) -/

section

variable {s : State} {p ch : Nat}

/-- A ready channel that does not run is promoted when it has aged 65,536 s-cycles. -/
theorem execChannelPromotion_aged (ready : ((s.core p).channel ch).ready = true)
    (idle : ¬((s.core p).running = true ∧ (s.core p).ch.toNat = ch))
    (aged : 65536 ≤ ((s.core p).channel ch).age + 2 * (s.meridian.toNat - ((s.core p).channel ch).since)) :
    execChannelPromotion p ch s = .next (s.onCore p fun c => c.onChannel ch fun h =>
      { h with boost := h.boost + 1,
               age := ((s.core p).channel ch).age + 2 * (s.meridian.toNat - ((s.core p).channel ch).since) - 65536,
               since := s.meridian.toNat }) := by
  have other : (!((s.core p).running && decide ((s.core p).ch.toNat = ch))) = true := by
    rwa [Bool.not_eq_true', ← Bool.not_eq_true, Bool.and_eq_true, decide_eq_true_eq]
  refine if_pos ?_
  simp only [ready, other, aged, decide_true, Bool.and_self]

/-- A time wakeup whose time has come fires. -/
theorem execTimeWakeupFire_due {o : Nat} {r : Region} (region : s.regionOf p = some (o, r)) (runs : r.debugStop = false)
    (live : r.live = true) (timed : ((s.core p).channel ch).wake.cond = 1)
    (unfired : ((s.core p).channel ch).wake.pending = false)
    (due : ((s.core p).channel ch).wake.time.toNat ≤ s.meridian.toNat) :
    execTimeWakeupFire p ch s = .next (s.onCore p fun c => c.onChannel ch fun h => h.fire s.meridian.toNat 1
      (if ((s.core p).channel ch).wake.time.toNat ≤ ((s.core p).channel ch).wake.armed.toNat
        then ((s.core p).channel ch).wake.armed + 1 else ((s.core p).channel ch).wake.time)) := by
  refine if_pos ?_
  simp [region, runs, live, timed, unfired, due]

/-! ### The control window (R488) -/

/-- A control register that may be written is. -/
theorem execControlRegisterWrite_writes {num : Nat} {value : Word} (known : num ≤ 8) (legal : csrValueOk num value = true)
    (writable : csrReadOnly num = false) :
    execControlRegisterWrite p num value s = .next (s.onCore p fun c => c.csrSet num value) := by
  simp [execControlRegisterWrite, State.windowRegister, Nat.not_lt.2 known, legal, writable, State.byDebugger]

/-- A read-only register takes any value. -/
theorem csrValueOk_readOnly {num : Nat} (readOnly : csrReadOnly num = true) (value : Word) :
    csrValueOk num value = true := by
  simp only [csrReadOnly, Bool.or_eq_true, decide_eq_true_eq] at readOnly
  rcases readOnly with (rfl | rfl) | rfl <;> rfl

/-- A read-only register ignores a write. -/
theorem execControlRegisterWrite_ignores {num : Nat} {value : Word} (known : num ≤ 8) (readOnly : csrReadOnly num = true) :
    execControlRegisterWrite p num value s = .next s := by
  simp [execControlRegisterWrite, State.windowRegister, Nat.not_lt.2 known, csrValueOk_readOnly readOnly, readOnly,
    State.byDebugger]

/-- A binding to an aligned handler is bound. -/
theorem execBindingWrite_binds {handler arg : Word} (known : ch ≤ 127) (fits : handler.toNat % 4 = 0) :
    execBindingWrite p ch handler arg s = .next (s.onCore p fun c => c.bind s.meridian.toNat ch handler arg) := by
  simp [execBindingWrite, State.windowBinding, Nat.not_lt.2 known, fits, State.byDebugger]

/-- A write of a slot's control bytes arms it with the argument and time that it holds. -/
theorem windowArm_arms {cond : Nat} {value : Word} (known : ch ≤ 127) (named : wbits value 17 16 = cond)
    (high : wbits value 63 19 = 0) (some : cond ≠ 0)
    (legal : (value.setWidth 16).setWidth 64 &&& wakeReserved cond = 0) :
    s.windowArm p ch cond value = s.armSlot p ch cond ((s.core p).channel ch).wake.arg ((s.core p).channel ch).wake.time
      ((value.setWidth 16).setWidth 64) := by
  simp [State.windowArm, State.windowSlot, named, high, legal, Nat.not_lt.2 known, some, State.byDebugger]

/-- The bits of a control word that R102 reserves in an empty slot are bit 7 alone. -/
theorem wakeReserved_empty {value : Word} (clear : wbit value 7 = false) :
    (value.setWidth 16).setWidth 64 &&& wakeReserved 0 = 0 := by
  have bit7 : ((value.setWidth 16).setWidth 64 : Word).getLsbD 7 = false := by simpa [wbit] using clear
  rw [show wakeReserved 0 = BitVec.twoPow 64 7 from rfl, BitVec.and_twoPow, bit7]
  rfl

/-- A write of a slot's control bytes without a condition disarms it. -/
theorem windowArm_disarms {value : Word} (known : ch ≤ 127) (none : wbits value 17 16 = 0) (high : wbits value 63 19 = 0)
    (clear : wbit value 7 = false) :
    s.windowArm p ch 0 value = s.onCore p fun c => c.onChannel ch fun h =>
      { h with wake := { h.wake with cond := 0, control := value.setWidth 16 } } := by
  simp [State.windowArm, State.windowSlot, none, high, wakeReserved_empty clear, Nat.not_lt.2 known, State.byDebugger]

end

/-! ### The windows of a cell (R59, R203, R219) -/

section

variable {s t : State} {p m off : Nat} {bytes : List Byte} {writer : Writer}

/-- A window write that is not refused takes effect. -/
theorem windowWrite_allowed (may : s.mayUseWindows writer p = true) : s.windowWrite writer p (.ok t) = t := by
  simp [State.windowWrite, may]

/-- A cell with the words of its context store that a write touches (R219). -/
def contextWritten (s : State) (p m off : Nat) (bytes : List Byte) : Cell :=
  (touchedWords ((s.parcel p).contextWord m) off bytes).foldl (fun c e => c.contextSet e.1 e.2) (s.cell p m)

/-- A write to the context store of a frozen cell that the loader would take. -/
theorem execContextStoreWrite_frozen (may : s.mayUseWindows writer p = true) (fits : off + bytes.length ≤ 0x500)
    (frozen : (s.cell p m).mode = .frozen)
    (each : ∀ e ∈ touchedWords ((s.parcel p).contextWord m) off bytes,
      (contextWritten s p m off bytes).contextOk e.1 = true)
    (all : s.contextFits p m (contextWritten s p m off bytes) = true) :
    execContextStoreWrite p m off bytes writer s = .next (s.onCell p m fun _ => contextWritten s p m off bytes) := by
  unfold contextWritten at each all ⊢
  simp only [execContextStoreWrite, State.contextWrite, Nat.not_lt.2 fits, if_false, frozen, ne_eq, not_true_eq_false,
    List.all_eq_true.2 each, all, Bool.and_self, if_true, windowWrite_allowed may]

/-- The commands in the status words that a write to a queue window touches (R200, R204). -/
def commands (s : State) (p m : Nat) (ws : List (Nat × Nat)) : State :=
  ws.foldl (fun t e => if e.1 = 0 then t.command p m e.2 else t) s

/-- A write to a cell's queue window of words that it may hold is the write that the cell's mode allows, and the commands. -/
theorem execQueueWindowWrite_words (may : s.mayUseWindows writer p = true) (fits : off + bytes.length ≤ 0x400)
    (each : ∀ e ∈ touchedWords (s.cell p m).queueWindowWord off bytes, (s.cell p m).queueWordOk e.1 e.2 = true) :
    let ws := touchedWords (s.cell p m).queueWindowWord off bytes
    ((s.cell p m).mode = .frozen ∨ (s.cell p m).mode = .halted →
      execQueueWindowWrite p m off bytes writer s = .next (commands (s.onCell p m fun c =>
        ws.foldl (fun c e => c.queueWordSet s.meridian.toNat e.1 e.2) c) p m ws)) ∧
    ((s.cell p m).mode = .running →
      execQueueWindowWrite p m off bytes writer s = .next (commands (s.onCell p m fun c =>
        ws.foldl (fun c e => if e.1 = 0 then { c with flags := BitVec.ofNat 5 e.2 } else c) c) p m ws)) := by
  have ok := List.all_eq_true.2 each
  refine ⟨?_, fun mode => ?_⟩
  · rintro (mode | mode) <;>
      simp only [execQueueWindowWrite, Nat.not_lt.2 fits, if_false, State.queueWindowWrite, ok, mode, Bool.not_true,
        Bool.false_eq_true, windowWrite_allowed may, commands]
  · simp only [execQueueWindowWrite, Nat.not_lt.2 fits, if_false, State.queueWindowWrite, ok, mode, Bool.not_true,
      Bool.false_eq_true, windowWrite_allowed may, commands]

end

/-! ### Commands to a cell and to its region (R204, R207) -/

section

variable {s : State} {p m : Nat}

/-- A frozen cell that continues runs again. -/
theorem continueCell_faulted (faulted : (s.cell p m).faulted = true) : s.continueCell p m =
    (s.cure p m).onCell p m fun c => { c with mode := .running, faultReg := 0, faultAddr := 0 } := by
  simp [State.continueCell, faulted]

/-- Skipping a late fault answers the request that took it with zeros. -/
theorem skipCell_late {e : PortEntry} {rest : List PortEntry} (faulted : (s.cell p m).faulted = true)
    (late : (s.cell p m).lateFault = true) (port : (s.cell p m).port = e :: rest) :
    s.skipCell p m = ((s.cure p m).onCell p m fun c =>
      { c with mode := .running, faultReg := 0, faultAddr := 0 }).onCell p m fun x =>
        { x.answer s.meridian.toNat e (dataWord 0 0 0) with port := rest } := by
  simp [State.skipCell, faulted, late, port]

/-- Where the precise fault of a frozen cell stands (R201). -/
def faultSite (s : State) (p m : Nat) : Site :=
  ⟨p, m, getF (s.cell p m).faultReg 22 20, getF (s.cell p m).faultReg 19 17⟩

/-- Skipping a precise fault pops what its instruction would have popped. -/
theorem skipCell_precise {i : Instr} {op : Byte} {w : CellWord} (faulted : (s.cell p m).faulted = true)
    (precise : (s.cell p m).lateFault = false)
    (decodes : Decode.cell ((s.cell p m).faultWords (faultSite s p m)).1 = .ok i) (parts : i.cellParts? = some (op, w)) :
    s.skipCell p m = ((((s.cure p m).onCell p m fun c =>
        { c with mode := .running, faultReg := 0, faultAddr := 0 }).onCell p m fun x =>
      ((popBit op.toNat w ++ ownPops (s.cell p m) op.toNat w).foldl (fun c e => c.pop e.1 e.2) x).settleGuard
        (faultSite s p m) ((s.cell p m).faultWords (faultSite s p m)).2).stir p).handOn (faultSite s p m) := by
  unfold faultSite at decodes ⊢
  simp only [State.skipCell, faulted, precise, decodes, parts, Bool.not_true, Bool.false_eq_true, if_false]

/-- Resuming a region that the hang monitor did not freeze does nothing. -/
theorem resumeRegion_still {o : Nat} {r : Region} (region : s.regionOf p = some (o, r)) (still : r.hungUp = false) :
    s.resumeRegion p = s := by
  simp [State.resumeRegion, region, still]

/-- Resuming a region lets the cells that its hang froze run again. -/
theorem resumeRegion_hung {o : Nat} {r : Region} (region : s.regionOf p = some (o, r)) (hung : r.hungUp = true) :
    s.resumeRegion p = ((regionParcels o r).foldl (fun t n =>
      t.onParcel n fun x => { x with cells := x.cells.each fun _ c =>
        if c.mode = .frozen && c.hung.isSome then { c with mode := .running, hung := none, faultReg := 0 } else c })
      s).onRegion o fun r => { r with hang := 0, hungUp := false } := by
  simp only [State.resumeRegion, region, hung, Bool.not_true, Bool.false_eq_true, if_false]

end

/-- Settles O55: each event's conditions choose its branch. -/
theorem taskEvents : Obligations.TaskEvents := by
  intro s
  refine ⟨fun p dest k i => execOutboundPacketSend_earliest, fun k pk o r shared => execPacketArrival_enters,
    fun p ch => execChannelPromotion_aged, fun p ch o r => execTimeWakeupFire_due,
    fun p num value => execControlRegisterWrite_writes, fun p num value => execControlRegisterWrite_ignores,
    fun p ch handler arg => execBindingWrite_binds, fun _ _ => rfl, fun p ch cond value i which known named high legal => ?_,
    fun p ch value high none clear known => congrArg _ (windowArm_disarms known none high clear),
    fun p ch arg time known => if_neg (Nat.not_lt.2 known),
    fun p m off bytes fits => if_neg (Nat.not_lt.2 fits), fun p m off bytes writer => execContextStoreWrite_frozen,
    fun p m off bytes writer => execQueueWindowWrite_words,
    fun p m faulted => congrArg _ (continueCell_faulted faulted),
    fun p m e rest faulted late port => congrArg _ (skipCell_late faulted late port),
    fun p m i op w faulted precise decodes parts => congrArg _ (skipCell_precise faulted precise decodes parts),
    fun p m o r region still => congrArg _ (resumeRegion_still region still),
    fun p m o r region hung => congrArg _ (resumeRegion_hung region hung)⟩
  rcases which with ⟨rfl, rfl⟩ | ⟨rfl, rfl⟩ | ⟨rfl, rfl⟩ <;>
    exact congrArg Host.Outcome.next (windowArm_arms known named high (by decide) legal)

end Sys2Proof.Proofs

/-! The proof of the obligation about the host port, MoLink and the debugger. -/

namespace Sys2Proof.Proofs

open Sys2Proof Sys2Proof.Machine Sys2Proof.Laws

/-! ### Doorbells and the memory window (R463, R464) -/

section

variable {s : State} {off size : Nat}

/-- A doorbell of a running region with room in its FIFO takes a token. -/
theorem execDoorbellWrite_takes {k : Nat} {r : Region} {value : Word}
    (region : s.doorbellRegion (off / 0x1000) = some (k, r)) (running : s.boot.phase = .running) (fits : off % 0x40 = 0)
    (room : (s.host.doorbells.look ([] : List Word) (k * 64 + off % 0x1000 / 0x40)).length < 16)
    (node : (s.ingressNode k r (off % 0x1000 / 0x40)).isSome = true) :
    let db := k * 64 + off % 0x1000 / 0x40
    execDoorbellWrite off 8 value s = .next { s with host := { s.host with
      doorbells := s.host.doorbells.put db (s.host.doorbells.look ([] : List Word) db ++ [value]) } } := by
  simp [execDoorbellWrite, region, running, fits, Nat.not_le.2 room, node]

/-- The oldest token of a doorbell enters its queue. -/
theorem execHostIngressDeliver_enters {o db p m q : Nat} {r : Region} {v : Word} {rest : List Word}
    (region : s.regions.find o = some r) (tokens : s.host.doorbells.look ([] : List Word) (o * 64 + db) = v :: rest)
    (node : s.ingressNode o r db = some (p, m, q)) (runs : s.enginesRun p = true) (stays : s.pausing p = false)
    (accepts : (s.cell p m).accepts q (ingressToken v) = true) :
    execHostIngressDeliver o db s = .next (State.enterQueue
      { s with host := { s.host with doorbells := s.host.doorbells.put (o * 64 + db) rest } } p m q (ingressToken v)) := by
  simp [execHostIngressDeliver, region, tokens, node, runs, stays, accepts]

/-- A read of HBM through BAR4 answers with the bytes at the device home. -/
theorem execBar4Read_home (up : s.barsUp = true) (within : off + size ≤ hbmBytes) :
    execBar4Read off size s = .next (s.answerHost (.data (s.homeRead off size))) := by
  simp [execBar4Read, State.hostRead, up, within]

/-- A read beyond HBM through BAR4 is an Unsupported Request. -/
theorem execBar4Read_beyond (beyond : hbmBytes < off + size) :
    execBar4Read off size s = .next (s.answerHost .unsupported) := by
  simp [execBar4Read, State.hostRead, Nat.not_le.2 beyond]

/-- All of a list's bytes. -/
theorem slice_zero (bs : List Byte) : slice bs 0 bs.length = bs := by
  apply List.ext_getElem
  · simp [slice]
  · intro i h _
    have hi : i < bs.length := by simpa [slice] using h
    simp [slice, hi]

/-- A read of a kick page's register through BAR0 answers with the queue's kick maximum. -/
theorem hostRead_kick {q : Nat} (known : q < 4096) (up : s.barsUp = true) :
    s.hostRead 0 (0x1000 * q) 8 = .data (Decode.leBytes 8 (s.shadow q).kick.toNat) := by
  have within : 0x1000 * q < 0x1000000 := by omega
  have all := slice_zero (Decode.leBytes 8 (s.shadow q).kick.toNat)
  rw [length_leBytes] at all
  simp [State.hostRead, up, State.controlRead, within, all]

/-- A write through BAR4 is performed at the device home. -/
theorem execBar4Write_home {bytes : List Byte} (up : s.barsUp = true) (within : off + bytes.length ≤ hbmBytes) :
    execBar4Write off bytes s = .next (s.homeWrite off bytes) := by
  simp [execBar4Write, up, within]

/-- A completion that brings as many bytes as were asked for ends its request, and so does a timeout. -/
theorem execHostCompletion_ends {tag : Nat} {status : CompletionStatus} {data : List Byte}
    (outstanding : (s.host.requests.find tag).isSome = true) (whole : data.length = s.requestBytes tag) :
    execHostCompletion tag status data s = .next (s.hostEnds tag fun atomic => hostResult atomic status data) ∧
      execHostTimeout tag s = .next (s.hostEnds tag fun _ => .error codeHostTimeout) := by
  simp [execHostCompletion, execHostTimeout, outstanding, whole]

end

/-! ### The control range (R439, R441) -/

section

variable {s : State} {off : Nat} {bytes : List Byte} {writer : Writer}

/-- A write of 8 bytes to a kick register kicks its queue. -/
theorem controlWrite_kick (long : bytes.length = 8) (kicks : off < 0x1000000) (fits : off % 0x1000 = 0) :
    s.controlWrite writer off bytes = .ok (s.kick (off / 0x1000) (wordOf bytes) (unitParcel writer) none) := by
  simp [State.controlWrite, kicks, fits, long]

/-- Eight bytes written over eight are all the bytes that stand. -/
theorem overwrite_all (long : bytes.length = 8) (old : List Byte) :
    ((List.range 8).map fun b =>
      if off ≤ off + b && off + b < off + bytes.length then bytes.getD (off + b - off) 0 else old.getD b 0) = bytes := by
  apply List.ext_getElem
  · simp [long]
  · intro i h _
    have hi : i < bytes.length := by simpa [long] using h
    simp [hi]

/-- A write of an aligned word of the privileged tables by who may write it. -/
theorem controlWrite_table (long : bytes.length = 8) (low : 0x1000000 ≤ off) (high : off + 8 ≤ 0x10A0008)
    (fits : off % 8 = 0)
    (may : if 0x1040000 ≤ off ∧ off < 0x10A0000 then privileged writer = true else writer = .cartouche) :
    s.controlWrite writer off bytes = .ok (s.setControlWord off (Decode.leNat bytes)) := by
  have allowed : (if 0x1040000 ≤ off && off < 0x10A0000 then privileged writer
      else decide (writer = .cartouche)) = true := by
    by_cases table : 0x1040000 ≤ off ∧ off < 0x10A0000
    · rw [if_pos table] at may
      simp [table, may]
    · rw [if_neg table] at may
      rw [if_neg (by simpa using table), may]
      rfl
  have one : (off + bytes.length + 7) / 8 - off / 8 = 1 := by omega
  have there : (off / 8 + 0) * 8 = off := by omega
  have words := overwrite_all (off := off) long
  simp only [State.controlWrite, Nat.not_lt.2 low, if_false, long, Nat.not_lt.2 high, allowed] at one words ⊢
  rw [one]
  simp only [List.range_one, List.foldl_cons, List.foldl_nil, there, words, Bool.not_true, Bool.false_eq_true, if_false]

/-- A write of a shadow half by another than the Cartouche core is refused. -/
theorem controlWrite_shadow (long : bytes.length = 8) (low : 0x1000000 ≤ off) (high : off + 8 ≤ 0x1040000)
    (other : writer ≠ .cartouche) : s.controlWrite writer off bytes = .error codePrivilege := by
  have within : ¬0x10A0008 < off + 8 := by omega
  have shadow : ¬0x1040000 ≤ off := by omega
  simp [State.controlWrite, Nat.not_lt.2 low, long, within, shadow, other]

theorem execDeviceControlRangeWrite_ok {t : State} (writes : s.controlWrite writer off bytes = .ok t) :
    execDeviceControlRangeWrite off bytes writer s = .next t := by
  simp only [execDeviceControlRangeWrite, writes]

theorem execDeviceControlRangeWrite_error {c : Byte} (refuses : s.controlWrite writer off bytes = .error c) :
    execDeviceControlRangeWrite off bytes writer s = .next (if writer = .debugger then s.refuseDebug c else s) := by
  simp only [execDeviceControlRangeWrite, refuses]

/-- Registers of the configuration space that act on nothing keep what is written (R462, R465). -/
theorem execPcieConfigurationWrite_keeps {reg : Nat} {value : BitVec 64} (control : reg ≠ 0x08) (control2 : reg ≠ 0x28) :
    execPcieConfigurationWrite reg value s = .next
      { s with host := { s.host with registers := s.host.registers.put reg value } } := by
  simp only [execPcieConfigurationWrite, control, control2, if_false]

end

/-! ### Flits (R467-R470) -/

section

variable {s : State} {port : Nat} {flit : Flit}

/-- A flit's acknowledgement and credits, as a working port takes them. -/
def takesAck (s : State) (port : Nat) (flit : Flit) : State :=
  { s with link := s.link.onPort port fun x => x.acknowledged flit.ack flit.credits }

variable (running : s.boot.phase = .running) (works : (s.link.port port).working = true)
include running works

/-- A flit that arrives damaged is asked for again. -/
theorem execFlitReceive_damaged (damaged : flit.crcOk = false) :
    execFlitReceive port flit s = .next { s with link := s.link.onPort port LinkPort.ask } := by
  simp [execFlitReceive, running, works, damaged]

variable (whole : flit.crcOk = true)
include whole

/-- The data flit that a port expects: its packets that are whole act. -/
theorem execFlitReceive_data (data : flit.kind = .data) (next : flit.seq = (s.link.port port).expected) :
    execFlitReceive port flit s = .next ((wholePackets flit (s.link.port port).torn).foldl
      (fun (t : State) k => t.meetPacket k) { takesAck s port flit with
        link := (takesAck s port flit).link.onPort port
          (fun y => y.accept ((s.link.port port).torn && flit.cont && flit.packets.isEmpty)) }) := by
  simp [execFlitReceive, running, works, whole, data, next, takesAck]

/-- The hole that a port expects is accepted and logged. -/
theorem execFlitReceive_hole (hole : flit.kind = .hole) (next : flit.seq = (s.link.port port).expected) :
    execFlitReceive port flit s = .next (State.logHole { takesAck s port flit with
      link := (takesAck s port flit).link.onPort port fun y => y.accept true } port) := by
  simp [execFlitReceive, running, works, whole, hole, next, takesAck]

/-- A replay request begins a replay. -/
theorem execFlitReceive_replay (replay : flit.kind = .replay) :
    execFlitReceive port flit s = .next ((takesAck s port flit).replayFrom port flit.seq) := by
  simp [execFlitReceive, running, works, whole, replay, takesAck]

end

/-! ### Packets on their way change no configuration (R470, R471) -/

/-- The configuration of the torus, what is retained, and which ports work. -/
structure SameRing (l l' : MoLink) : Prop where
  shape : l'.shape = l.shape
  number : l'.number = l.number
  dead : l'.dead = l.dead
  retained : l'.retained = l.retained
  ports : ∀ n, (l'.port n).working = (l.port n).working ∧ (l'.port n).failed = (l.port n).failed

theorem port_onPort (l : MoLink) (n k : Nat) (f : LinkPort → LinkPort) :
    (l.onPort n f).port k = if n = k then f (l.port n) else l.port k := look_put ..

theorem put_works (x : LinkPort) (f : Flit) : (x.put f).working = x.working ∧ (x.put f).failed = x.failed := by
  unfold LinkPort.put
  split
  · exact ⟨rfl, rfl⟩
  · dsimp only
    split <;> exact ⟨rfl, rfl⟩

theorem idle_works (x : LinkPort) : x.idle.working = x.working ∧ x.idle.failed = x.failed := by
  unfold LinkPort.idle
  split <;> exact ⟨rfl, rfl⟩

theorem foldl_put_works (l : List Flit) (x : LinkPort) :
    (l.foldl (fun (y : LinkPort) f => y.put f) x).working = x.working ∧
    (l.foldl (fun (y : LinkPort) f => y.put f) x).failed = x.failed := by
  induction l generalizing x with
  | nil => exact ⟨rfl, rfl⟩
  | cons f l ih => exact ⟨(ih _).1.trans (put_works x f).1, (ih _).2.trans (put_works x f).2⟩

theorem send_works (x : LinkPort) (k : MoPacket) : (x.send k).working = x.working ∧ (x.send k).failed = x.failed :=
  ⟨(idle_works _).1.trans (foldl_put_works _ x).1, (idle_works _).2.trans (foldl_put_works _ x).2⟩

theorem sameRing_transmit (l : MoLink) (k : MoPacket) : SameRing l (l.transmit k) := by
  unfold MoLink.transmit
  split
  · refine ⟨rfl, rfl, rfl, rfl, fun n => ?_⟩
    rw [port_onPort]
    split
    · rename_i same
      subst same
      exact send_works ..
    · exact ⟨rfl, rfl⟩
  · exact ⟨rfl, rfl, rfl, rfl, fun _ => ⟨rfl, rfl⟩⟩

theorem sameRing_transmitAll (ks : List MoPacket) (l : MoLink) :
    SameRing l (ks.foldl (fun (l : MoLink) k => l.transmit k) l) := by
  induction ks generalizing l with
  | nil => exact ⟨rfl, rfl, rfl, rfl, fun _ => ⟨rfl, rfl⟩⟩
  | cons k ks ih =>
    have first := sameRing_transmit l k
    have rest := ih (l.transmit k)
    exact ⟨rest.shape.trans first.shape, rest.number.trans first.number, rest.dead.trans first.dead,
      rest.retained.trans first.retained,
      fun n => ⟨(rest.ports n).1.trans (first.ports n).1, (rest.ports n).2.trans (first.ports n).2⟩⟩

/-- Training some ports sets those up, and leaves up what is. -/
theorem foldl_train (ns : List Nat) (l : MoLink) :
    let t := ns.foldl (fun (l : MoLink) n => l.onPort n fun x => { x with working := true, failed := false }) l
    t.shape = l.shape ∧ t.number = l.number ∧ t.dead = l.dead ∧ t.retained = l.retained ∧
    ∀ n, (n ∈ ns ∨ ((l.port n).working = true ∧ (l.port n).failed = false)) →
      (t.port n).working = true ∧ (t.port n).failed = false := by
  induction ns generalizing l with
  | nil => exact ⟨rfl, rfl, rfl, rfl, fun n up => up.resolve_left (by simp)⟩
  | cons k ns ih =>
    obtain ⟨shape, number, dead, retained, ports⟩ := ih (l.onPort k fun x => { x with working := true, failed := false })
    refine ⟨shape, number, dead, retained, fun n up => ports n ?_⟩
    rw [port_onPort]
    by_cases same : k = n
    · exact .inr (by simp [same])
    · rw [if_neg same]
      exact up.imp_left fun mem => (List.mem_cons.1 mem).resolve_left (Ne.symm same)

/-- The link of a torus that firmware configures, its ports trained. -/
def trainedLink (s : State) (x y z number : Nat) : MoLink :=
  MoLink.train { s.link with shape := (x, y, z), number := number, dead := [] }

/-- The link of a configured torus, its retained packets sent again. -/
def configuredLink (s : State) (x y z number : Nat) : MoLink :=
  (trainedLink s x y z number).retained.foldl (fun (l : MoLink) k => l.transmit k) (trainedLink s x y z number)

/-- Firmware's configuration of the torus: its shape and number stand, its ports train, and it is measured. -/
theorem execSystemConfiguration_configures {s : State} {x y z number : Nat} (running : s.boot.phase = .running)
    (sizeX : torusSize x = true) (sizeY : torusSize y = true) (sizeZ : torusSize z = true) (most : x * y * z ≤ 16384)
    (within : number < x * y * z) : ∃ t, execSystemConfiguration x y z number s = .next t ∧
      t.link.shape = (x, y, z) ∧ t.link.number = number ∧ t.link.dead = [] ∧ t.link.retained = s.link.retained ∧
      (∀ n < 16, n ∉ sparePorts → (t.link.port n).working = true ∧ (t.link.port n).failed = false) ∧
      t.boot.measures = s.boot.measures.put 3 (shakeDigest ([x, y, z, number].flatMap (Decode.leBytes 2))) ∧
      t.mem = s.mem ∧ t.parcels = s.parcels ∧ t.regions = s.regions := by
  obtain ⟨shape, device, dead, retained, up⟩ := foldl_train ((List.range 16).filter (· ∉ sparePorts))
    { s.link with shape := (x, y, z), number := number, dead := [] }
  have ring : SameRing (trainedLink s x y z number) (configuredLink s x y z number) := sameRing_transmitAll _ _
  have measured : (configuredLink s x y z number).measured = [x, y, z, number].flatMap (Decode.leBytes 2) := by
    rw [MoLink.measured, ring.shape.trans shape, ring.number.trans device]
  refine ⟨_, if_neg ?_, ring.shape.trans shape, ring.number.trans device, ring.dead.trans dead,
    ring.retained.trans retained, fun n few main => ?_,
    congrArg (fun m => s.boot.measures.put 3 (shakeDigest m)) measured, rfl, rfl, rfl⟩
  · simp [running, sizeX, sizeY, sizeZ, Nat.not_lt.2 most, Nat.not_le.2 within]
  · have trained := up n (.inl (List.mem_filter.2 ⟨List.mem_range.2 few, by simpa using main⟩))
    exact ⟨(ring.ports n).1.trans trained.1, (ring.ports n).2.trans trained.2⟩

/-- A port that fails to retrain gives way to its spare, and its packets are sent again. -/
theorem execPortRetrainFailure_spare {s : State} {port : Nat} (running : s.boot.phase = .running)
    (works : (s.link.port port).working = true) :
    let x := s.link.port port
    let for_ := x.spareFor.getD port
    let failed := s.link.onPort port fun _ => { LinkPort.reset with failed := true, out := x.out }
    let swapped := match s.link.spareOf for_ with
      | some k => failed.onPort k fun y => { y with working := true, spareFor := some for_ }
      | none => failed
    execPortRetrainFailure port s = .next (State.loseDevices { s with
      link := ((x.replay ++ x.waiting).flatMap fun f => f.packets).foldl (fun (l : MoLink) k => l.transmit k) swapped }) :=
  if_neg (by simp [running, works])

/-! ### Run control (R297, R298) -/

/-- `run` launches the session's kernel. -/
theorem execDebugRun_launches {s : State} (free : s.debugger.launch = none) : ∃ t l, execDebugRun s = .next t ∧
    t.launches = s.launches.put s.launchCount l ∧ l.ready = true ∧ t.debugger.launch = some s.launchCount ∧
    t.mem = s.mem :=
  ⟨_, _, if_neg (by simp [free]), rfl, rfl, rfl, rfl⟩

/-- `cont` lets what a breakpoint stopped run again, and gives held kicks to their strips. -/
theorem execDebugCont_continues {s : State} (stopped : s.stoppedParcels ≠ [] ∨ s.debugger.held ≠ []) :
    let armed := s.stoppedParcels.foldl (fun (t : State) p => t.onCore p fun c => c.rearm s.meridian) s
    let going : State := { armed with
      regions := armed.regions.each fun _ r => { r with debugStop := false }
      debugger := { armed.debugger with stop := none, stepping := false, held := [] } }
    let awake := s.stoppedParcels.foldl (fun (t : State) p => if (t.parcel p).gated then t else t.pollWakes p)
      (State.lateAnswers going)
    execDebugCont s = .next (s.debugger.held.foldl (fun (t : State) e =>
      t.strip e.1 e.2.1 (e.2.2.map fun p => (p, (t.core p).asid))) awake) :=
  if_neg (by rwa [Bool.and_eq_true, List.isEmpty_iff, List.isEmpty_iff, not_and_or])

/-- `step` makes the stopped task, or the stop that stands, the one that steps. -/
theorem execDebugStep_steps {s : State} (stopped : s.stoppedParcels ≠ []) :
    (∀ p, s.stoppedTask = some p → execDebugStep s = .next (State.lateAnswers { s with debugger := { s.debugger with
      stop := some (.task p (s.core p).pc), stepping := true } })) ∧
    (s.stoppedTask = none → execDebugStep s = .next (State.lateAnswers
      { s with debugger := { s.debugger with stepping := true } })) := by
  have some : s.stoppedParcels.isEmpty = false := by simpa using stopped
  exact ⟨fun p task => by simp [execDebugStep, some, task], fun task => by simp [execDebugStep, some, task]⟩

/-! ### Prints (R298, R361, R461, R474) -/

/-- `t` is `s` with another debugger. -/
def SameButDebugger (s t : State) : Prop := ∃ d, t = { s with debugger := d }

theorem SameButDebugger.restore {s t : State} (h : SameButDebugger s t) : { t with debugger := s.debugger } = s := by
  obtain ⟨d, rfl⟩ := h
  rfl

theorem sameButDebugger_say (s : State) (x : Printed) : SameButDebugger s (s.say x) := ⟨_, rfl⟩

theorem sameButDebugger_foldl_say (l : List Printed) (s : State) :
    SameButDebugger s (l.foldl (fun (t : State) x => t.say x) s) := by
  induction l generalizing s with
  | nil => exact ⟨s.debugger, rfl⟩
  | cons x l ih =>
    obtain ⟨d, e⟩ := ih (s.say x)
    exact ⟨d, e⟩

theorem sameButDebugger_sayAll (s : State) (f : Nat → Region → List Printed) : SameButDebugger s (s.sayAll f) := by
  unfold State.sayAll
  split
  · exact ⟨s.debugger, rfl⟩
  · exact sameButDebugger_foldl_say ..

/-- What a session shows is said line by line. -/
theorem sayAll_session {s : State} {o : Nat} {r : Region} (f : Nat → Region → List Printed)
    (session : s.session = some (o, r)) : s.sayAll f = (f o r).foldl (fun (t : State) x => t.say x) s := by
  simp only [State.sayAll, session]

section

variable {s : State} {p n : Nat}

theorem execPrintRegister_stopped (task : s.stoppedTask = some p) :
    execPrintRegister n s = .next (s.say (.value "x" n ((s.core p).get (BitVec.ofNat 5 n)))) := by
  simp only [execPrintRegister, task]

theorem execPrintControlRegister_stopped {v : Word} (task : s.stoppedTask = some p) (known : s.csrRead p n = some v) :
    execPrintControlRegister n s = .next (s.say (.value "control" n v)) := by
  simp only [execPrintControlRegister, task, known]

theorem execPrintWindowRegister_session {o : Nat} {r : Region} (session : s.session = some (o, r)) (known : n < 8) :
    execPrintWindowRegister n s = .next
      (let w := (s.parcel (s.stoppedTask.getD o)).windows.toList.getD n 0
       s.say (.window n w (wbit w 63) (wbits w 62 53) (wbits w 52 31) (wbits w 30 28) (wbits w 27 12) (wbits w 11 0))) := by
  simp only [execPrintWindowRegister, session, known, if_true]

/-- `show queue` prints the user half that the front end reads. -/
theorem execShowQueue_reads {q : Nat} {bs : List Byte} {t : State}
    (reads : frontRead (q % 8) (s.shadow q).asid.toNat (s.shadow q).user 16 s = .ok bs t) :
    execShowQueue q s = .next (s.say (.queue q (s.shadow q) (BitVec.ofNat 32 (field bs 8 4))
      (BitVec.ofNat 32 (field bs 0 4)))) := by
  simp only [execShowQueue, reads]

/-- `print xN` changes nothing but what the debugger has printed. -/
theorem execPrintRegister_quiet : ∃ t, execPrintRegister n s = .next t ∧ SameButDebugger s t := by
  unfold execPrintRegister
  split
  · exact ⟨_, rfl, s.debugger, rfl⟩
  · exact ⟨_, rfl, sameButDebugger_say ..⟩

end

/-- Settles O60: each event's conditions choose its branch; what packets on their way and prints leave alone are frames of
their own. -/
theorem hostEvents : Obligations.HostEvents := by
  intro s quiet
  have quiets : ∀ {i f}, exec i s = .next (s.sayAll f) → quiet i :=
    fun e => ⟨_, e, (sameButDebugger_sayAll ..).restore⟩
  refine ⟨fun off value k r region running fits => execDoorbellWrite_takes region running fits,
    fun o db r v rest p m q => execHostIngressDeliver_enters,
    fun off size => ⟨execBar4Read_home, execBar4Read_beyond⟩,
    fun q => hostRead_kick, fun off bytes => execBar4Write_home, fun bar off => ⟨rfl, rfl⟩,
    fun tag status data => execHostCompletion_ends,
    fun value => ⟨rfl, rfl, fun reg => execPcieConfigurationWrite_keeps⟩,
    fun off bytes writer long =>
      ⟨fun kicks fits => execDeviceControlRangeWrite_ok (controlWrite_kick long kicks fits),
        fun low high fits may => execDeviceControlRangeWrite_ok (controlWrite_table long low high fits may),
        fun low high other => execDeviceControlRangeWrite_error (controlWrite_shadow long low high other)⟩,
    fun port flit running works whole => ⟨execFlitReceive_data running works whole,
      execFlitReceive_hole running works whole, execFlitReceive_replay running works whole⟩,
    fun port flit => execFlitReceive_damaged, fun port dest seq => ⟨rfl, rfl, rfl⟩,
    fun port => execPortRetrainFailure_spare, fun x y z number => execSystemConfiguration_configures,
    execDebugRun_launches, execDebugCont_continues, execDebugStep_steps, fun _ _ _ _ _ => ⟨rfl, rfl, rfl, rfl, rfl⟩,
    fun p n => execPrintRegister_stopped, fun p num v => execPrintControlRegister_stopped,
    fun n known => congrArg Host.Outcome.next (if_pos known), rfl, fun o r n => execPrintWindowRegister_session, rfl,
    fun o r session => ?_, fun q bs t => execShowQueue_reads, quiets rfl, quiets rfl, quiets rfl,
    quiets rfl, quiets rfl, quiets rfl, fun q => ⟨_, rfl, (sameButDebugger_say ..).restore⟩,
    ⟨_, rfl, (sameButDebugger_say ..).restore⟩, fun n => ?_⟩
  · refine ⟨?_, ?_, ?_, ?_, ?_, ?_⟩ <;> exact congrArg Host.Outcome.next (sayAll_session _ session)
  · obtain ⟨t, prints, same⟩ := execPrintRegister_quiet (s := s) (n := n)
    exact ⟨t, prints, same.restore⟩

end Sys2Proof.Proofs

/-! The proofs of the obligations about the encoding: the decoder and the encoder undo each other. -/

namespace Sys2Proof.Proofs

open Sys2Proof Sys2Proof.Decode Sys2Proof.Laws

/-! ### Encode, then decode -/

/-- Every constructor's round trip: Surveyor words each by their own format, cell operations by their one word format, and
the rest has no word. -/
theorem roundTrip_statement (i : Instr) : RoundTrip.Statement i := by
  cases i with
  | add => apply RoundTrip.add | sub => apply RoundTrip.sub | mul => apply RoundTrip.mul | mulh => apply RoundTrip.mulh
  | mulhn => apply RoundTrip.mulhn | div => apply RoundTrip.div | divn => apply RoundTrip.divn
  | rem => apply RoundTrip.rem | remn => apply RoundTrip.remn | and => apply RoundTrip.and | or => apply RoundTrip.or
  | xor => apply RoundTrip.xor | sll => apply RoundTrip.sll | srl => apply RoundTrip.srl | sra => apply RoundTrip.sra
  | slt => apply RoundTrip.slt | sltn => apply RoundTrip.sltn | min => apply RoundTrip.min | max => apply RoundTrip.max
  | minn => apply RoundTrip.minn | maxn => apply RoundTrip.maxn | clz => apply RoundTrip.clz
  | ctz => apply RoundTrip.ctz | popc => apply RoundTrip.popc | addImmediate => apply RoundTrip.addImmediate
  | andImmediate => apply RoundTrip.andImmediate | orImmediate => apply RoundTrip.orImmediate
  | xorImmediate => apply RoundTrip.xorImmediate | sllImmediate => apply RoundTrip.sllImmediate
  | srlImmediate => apply RoundTrip.srlImmediate | sraImmediate => apply RoundTrip.sraImmediate
  | sltImmediate => apply RoundTrip.sltImmediate | sltnImmediate => apply RoundTrip.sltnImmediate
  | mulImmediate => apply RoundTrip.mulImmediate | lih => apply RoundTrip.lih | csrr => apply RoundTrip.csrr
  | csrw => apply RoundTrip.csrw | csrs => apply RoundTrip.csrs | csrc => apply RoundTrip.csrc
  | ldS8 => apply RoundTrip.ldS8 | ldN8 => apply RoundTrip.ldN8 | ldS16 => apply RoundTrip.ldS16
  | ldN16 => apply RoundTrip.ldN16 | ldS32 => apply RoundTrip.ldS32 | ldN32 => apply RoundTrip.ldN32
  | ldN64 => apply RoundTrip.ldN64 | stN8 => apply RoundTrip.stN8 | stN16 => apply RoundTrip.stN16
  | stN32 => apply RoundTrip.stN32 | stN64 => apply RoundTrip.stN64 | ldvGe => apply RoundTrip.ldvGe
  | ldvEq => apply RoundTrip.ldvEq | stv => apply RoundTrip.stv | stvKeep => apply RoundTrip.stvKeep
  | reclaim => apply RoundTrip.reclaim | amoAdd => apply RoundTrip.amoAdd | amoSwp => apply RoundTrip.amoSwp
  | amoCas => apply RoundTrip.amoCas | amoMin => apply RoundTrip.amoMin | amoMax => apply RoundTrip.amoMax
  | amoMinn => apply RoundTrip.amoMinn | amoMaxn => apply RoundTrip.amoMaxn | amoAnd => apply RoundTrip.amoAnd
  | amoOr => apply RoundTrip.amoOr | amoXor => apply RoundTrip.amoXor | pref => apply RoundTrip.pref
  | fence => apply RoundTrip.fence | fenceAcq => apply RoundTrip.fenceAcq | fenceRel => apply RoundTrip.fenceRel
  | beq => apply RoundTrip.beq | bne => apply RoundTrip.bne | blt => apply RoundTrip.blt | bge => apply RoundTrip.bge
  | bltn => apply RoundTrip.bltn | bgen => apply RoundTrip.bgen | jal => apply RoundTrip.jal
  | jalr => apply RoundTrip.jalr | post => apply RoundTrip.post | bindl => apply RoundTrip.bindl
  | armt => apply RoundTrip.armt | armb => apply RoundTrip.armb | arms => apply RoundTrip.arms
  | chp => apply RoundTrip.chp | ecall => apply RoundTrip.ecall | merid => apply RoundTrip.merid
  | stnInit => apply RoundTrip.stnInit | stnArv => apply RoundTrip.stnArv | stnExp => apply RoundTrip.stnExp
  | stnDone => apply RoundTrip.stnDone | stnTest => apply RoundTrip.stnTest | trvCopy => apply RoundTrip.trvCopy
  | trvGath => apply RoundTrip.trvGath | trvScat => apply RoundTrip.trvScat | trvRed => apply RoundTrip.trvRed
  | trvFill => apply RoundTrip.trvFill | trvFeed => apply RoundTrip.trvFeed | trvFollow => apply RoundTrip.trvFollow
  | trvPub => apply RoundTrip.trvPub | trvXst => apply RoundTrip.trvXst | trvCanc => apply RoundTrip.trvCanc
  | trvStat => apply RoundTrip.trvStat | bufSet => apply RoundTrip.bufSet | bufFree => apply RoundTrip.bufFree
  | bufStat => apply RoundTrip.bufStat | endMake => apply RoundTrip.endMake | endBind => apply RoundTrip.endBind
  | endClose => apply RoundTrip.endClose | endStat => apply RoundTrip.endStat | grLdw => apply RoundTrip.grLdw
  | grMm => apply RoundTrip.grMm | grScan => apply RoundTrip.grScan | grDrn => apply RoundTrip.grDrn
  | grZero => apply RoundTrip.grZero | grSave => apply RoundTrip.grSave | grRest => apply RoundTrip.grRest
  | grStat => apply RoundTrip.grStat | twSeek => apply RoundTrip.twSeek | twRead => apply RoundTrip.twRead
  | twEnc => apply RoundTrip.twEnc | twStat => apply RoundTrip.twStat | cpOpen => apply RoundTrip.cpOpen
  | cpOper => apply RoundTrip.cpOper | cpExpl => apply RoundTrip.cpExpl | cpObs => apply RoundTrip.cpObs
  | cpFix => apply RoundTrip.cpFix | cpJoin => apply RoundTrip.cpJoin | cpClose => apply RoundTrip.cpClose
  | scrOpen => apply RoundTrip.scrOpen | scrCnt => apply RoundTrip.scrCnt | segName => apply RoundTrip.segName
  | segAtt => apply RoundTrip.segAtt | segDet => apply RoundTrip.segDet | segPin => apply RoundTrip.segPin
  | segEvt => apply RoundTrip.segEvt | segDrop => apply RoundTrip.segDrop | segStat => apply RoundTrip.segStat
  | projInv => apply RoundTrip.projInv | projProbe => apply RoundTrip.projProbe | pageDup => apply RoundTrip.pageDup
  | sndSet => apply RoundTrip.sndSet | sndOut => apply RoundTrip.sndOut | sndIn => apply RoundTrip.sndIn
  | sndStat => apply RoundTrip.sndStat | qKick => apply RoundTrip.qKick | strmIn => apply RoundTrip.strmIn
  | strmOut => apply RoundTrip.strmOut | strmBar => apply RoundTrip.strmBar | strmStop => apply RoundTrip.strmStop
  | strmStat => apply RoundTrip.strmStat | endt => apply RoundTrip.endt | tret => apply RoundTrip.tret
  | iadd | isub | iadds | isubs | imul | imulh | imad | imin | imax | iabs | ineg | iavg | shl | shr | sar
    | rot | cellAnd | cellOr | cellXor | andn | not | cellClz | cellCtz | ffs | cellPopc | brev | bfx | bfi
    | icmp | sel | mov | movc | bcst | lprm | lshf | redi | scni | dot4 | dot2 | kop | enq | deq | adv
    | peek | qstat | cellLd | cellSt | walk | atom | cellLdv | cellStv | fadd | fsub | fmul | ffma | fmin
    | fmax | fabs | fneg | fcmp | frcp | frsq | fsqrt | fexp2 | flog2 | ftanh | fsigm | fsinp | frnd | fcls
    | redf | scnf | topk | cvt | bq | bdq | sclb | wadp | gate | dly | mrg | str | tag | proj | widn | hin
    | hout | rdon | rrte | pois | halt | trap | nop => exact RoundTrip.word64 rfl rfl rfl
  | _ => exact RoundTrip.noWord rfl rfl

/-- Settles O48, constructor by constructor. -/
theorem encodeDecode : Obligations.EncodeDecode := roundTrip_statement

/-! ### Words put together again from their fields -/

section

variable {n : Nat} {x : BitVec n}

/-- Two neighbouring fields are one. -/
theorem fld_append (lo k m : Nat) : fld x (lo + k) m ++ fld x lo k = fld x lo (m + k) := by
  simp only [fld]
  ext i hi
  simp only [BitVec.getElem_append, BitVec.getElem_extractLsb']
  split
  · rfl
  · congr 1; omega

/-- A field of a field. -/
theorem fld_fld {lo k a m : Nat} (h : a + m ≤ k) : fld (fld x lo k) a m = fld x (lo + a) m := by
  simp only [fld]
  ext i hi
  simp only [BitVec.getElem_extractLsb', BitVec.getLsbD_extractLsb']
  rw [Nat.add_assoc]
  simp; omega

/-- Inside a field that is zero every field is zero. -/
theorem fld_eq_zero {lo k : Nat} (h : fld x lo k = 0) (a m : Nat) (within : a + m ≤ k) : fld x (lo + a) m = 0 := by
  rw [← fld_fld within, h]
  simp [fld]

end

section

variable {w : BitVec 32} {maj : BitVec 6} {rd ra rb : Reg}

/-- A word is its format R, whose fields fill it. -/
theorem encode_r {f : BitVec 11} (hm : (fld w 26 6).toNat = maj.toNat) (hd : fld w 21 5 = rd) (ha : fld w 16 5 = ra)
    (hb : fld w 11 5 = rb) (hf : fld w 0 11 = f) : Encode.r maj rd ra rb f = w := by
  have h1 : fld w 26 6 ++ fld w 21 5 = fld w 21 11 := fld_append 21 5 6
  have h2 : fld w 21 11 ++ fld w 16 5 = fld w 16 16 := fld_append 16 5 11
  have h3 : fld w 16 16 ++ fld w 11 5 = fld w 11 21 := fld_append 11 5 16
  have h4 : fld w 11 21 ++ fld w 0 11 = fld w 0 32 := fld_append 0 11 21
  rw [Encode.r, ← BitVec.eq_of_toNat_eq hm, ← hd, ← ha, ← hb, ← hf, h1, h2, h3, h4, fld_all]

/-- A word is its format I, whose fields fill it. -/
theorem encode_i {imm : BitVec 16} (hm : (fld w 26 6).toNat = maj.toNat) (hd : fld w 21 5 = rd) (ha : fld w 16 5 = ra)
    (hi : fld w 0 16 = imm) : Encode.i maj rd ra imm = w := by
  have h1 : fld w 26 6 ++ fld w 21 5 = fld w 21 11 := fld_append 21 5 6
  have h2 : fld w 21 11 ++ fld w 16 5 = fld w 16 16 := fld_append 16 5 11
  have h3 : fld w 16 16 ++ fld w 0 16 = fld w 0 32 := fld_append 0 16 16
  rw [Encode.i, ← BitVec.eq_of_toNat_eq hm, ← hd, ← ha, ← hi, h1, h2, h3, fld_all]

/-- A word is its format J, whose fields fill it. -/
theorem encode_j (hm : (fld w 26 6).toNat = maj.toNat) : Encode.j maj (fld w 21 5) (fld w 0 21) = w := by
  have h1 : fld w 26 6 ++ fld w 21 5 = fld w 21 11 := fld_append 21 5 6
  have h2 : fld w 21 11 ++ fld w 0 21 = fld w 0 32 := fld_append 0 21 11
  rw [Encode.j, ← BitVec.eq_of_toNat_eq hm, h1, h2, fld_all]

/-- A scope's code is the code that names it (R108). -/
theorem scopeCode_of_scopeOf {k : Nat} {sc : Scope} (h : scopeOf k = some sc) : scopeCode sc = k := by
  unfold scopeOf at h
  split at h <;> cases h <;> rfl

/-- A field that names a scope is the scope's code. -/
theorem fld_of_scopeOf {m lo : Nat} {x : BitVec m} {sc : Scope} (h : scopeOf (fld x lo 4).toNat = some sc) :
    fld x lo 4 = BitVec.ofNat 4 (scopeCode sc) := by
  rw [scopeCode_of_scopeOf h, BitVec.ofNat_toNat, BitVec.setWidth_eq]

/-- A word is its format M, whose fields fill it. -/
theorem encode_m {sc : Scope} (hm : (fld w 26 6).toNat = maj.toNat) (hd : fld w 21 5 = rd)
    (hs : scopeOf (fld w 12 4).toNat = some sc) : Encode.m maj rd (fld w 16 5) sc (fld w 0 12) = w := by
  have h1 : fld w 26 6 ++ fld w 21 5 = fld w 21 11 := fld_append 21 5 6
  have h2 : fld w 21 11 ++ fld w 16 5 = fld w 16 16 := fld_append 16 5 11
  have h3 : fld w 16 16 ++ fld w 12 4 = fld w 12 20 := fld_append 12 4 16
  have h4 : fld w 12 20 ++ fld w 0 12 = fld w 0 32 := fld_append 0 12 20
  rw [Encode.m, ← BitVec.eq_of_toNat_eq hm, ← hd, ← fld_of_scopeOf hs, h1, h2, h3, h4, fld_all]

/-- A word is its format E, whose fields fill it. -/
theorem encode_e {eng : BitVec 4} {f : BitVec 7} (hm : (fld w 26 6).toNat = 0x3E) (he : (fld w 22 4).toNat = eng.toNat)
    (hd : fld w 17 5 = rd) (hb : fld w 7 5 = rb) (hf : (fld w 0 7).toNat = f.toNat) :
    Encode.e eng rd (fld w 12 5) rb f = w := by
  have h1 : fld w 26 6 ++ fld w 22 4 = fld w 22 10 := fld_append 22 4 6
  have h2 : fld w 22 10 ++ fld w 17 5 = fld w 17 15 := fld_append 17 5 10
  have h3 : fld w 17 15 ++ fld w 12 5 = fld w 12 20 := fld_append 12 5 15
  have h4 : fld w 12 20 ++ fld w 7 5 = fld w 7 25 := fld_append 7 5 20
  have h5 : fld w 7 25 ++ fld w 0 7 = fld w 0 32 := fld_append 0 7 25
  have h0 : fld w 26 6 = 0x3E#6 := BitVec.eq_of_toNat_eq hm
  rw [Encode.e, ← h0, ← BitVec.eq_of_toNat_eq he, ← hd, ← hb, ← BitVec.eq_of_toNat_eq hf, h1, h2, h3, h4, h5, fld_all]

/-- One bit is the Boolean that it reads as. -/
theorem ofBool_beq_one (b : BitVec 1) : BitVec.ofBool (b == 1) = b := by revert b; decide

/-- The function field of a versioned access, put together (R120, R121). -/
theorem encode_vf {b8 b7 : Bool} {sc : Scope} (h9 : fld w 9 2 = 0) (h8 : fld w 8 1 = BitVec.ofBool b8)
    (h7 : fld w 7 1 = BitVec.ofBool b7) (h6 : fld w 6 1 = 0) (hs : scopeOf (fld w 0 4).toNat = some sc) :
    fld w 0 11 = Encode.vf b8 b7 (fld w 4 2) sc := by
  have h1 : fld w 9 2 ++ fld w 8 1 = fld w 8 3 := fld_append 8 1 2
  have h2 : fld w 8 3 ++ fld w 7 1 = fld w 7 4 := fld_append 7 1 3
  have h3 : fld w 7 4 ++ fld w 6 1 = fld w 6 5 := fld_append 6 1 4
  have h4 : fld w 6 5 ++ fld w 4 2 = fld w 4 7 := fld_append 4 2 5
  have h5 : fld w 4 7 ++ fld w 0 4 = fld w 0 11 := fld_append 0 4 7
  have z9 : fld w 9 2 = 0#2 := h9
  have z6 : fld w 6 1 = 0#1 := h6
  rw [Encode.vf, ← z9, ← h8, ← h7, ← z6, ← fld_of_scopeOf hs, h1, h2, h3, h4, h5]

/-- The width of an atomic has the code that names it (R123). -/
theorem fld_of_amoWidthOf {wd : AmoWidth} (h : Decode.amoWidthOf (fld w 4 2).toNat = some wd) :
    fld w 4 2 = BitVec.ofNat 2 (amoWidthCode wd) := by
  have code : amoWidthCode wd = (fld w 4 2).toNat := by
    unfold Decode.amoWidthOf at h
    split at h <;> cases h <;> simp_all [amoWidthCode]
  rw [code, BitVec.ofNat_toNat, BitVec.setWidth_eq]

/-- The function field of an atomic, put together (R123). -/
theorem encode_af {op : BitVec 4} {wd : AmoWidth} {sc : Scope} (h10 : fld w 10 1 = 0) (ho : (fld w 6 4).toNat = op.toNat)
    (hw : Decode.amoWidthOf (fld w 4 2).toNat = some wd) (hs : scopeOf (fld w 0 4).toNat = some sc) :
    fld w 0 11 = Encode.af op wd sc := by
  have h1 : fld w 10 1 ++ fld w 6 4 = fld w 6 5 := fld_append 6 4 1
  have h2 : fld w 6 5 ++ fld w 4 2 = fld w 4 7 := fld_append 4 2 5
  have h3 : fld w 4 7 ++ fld w 0 4 = fld w 0 11 := fld_append 0 4 7
  have z : fld w 10 1 = 0#1 := h10
  rw [Encode.af, ← z, ← BitVec.eq_of_toNat_eq ho, ← fld_of_amoWidthOf hw, ← fld_of_scopeOf hs, h1, h2, h3]

/-- The number that a field holds. -/
theorem toNat_fld {n : Nat} (x : BitVec n) (lo k : Nat) : (fld x lo k).toNat = x.toNat / 2 ^ lo % 2 ^ k := by
  rw [fld, BitVec.extractLsb'_toNat, Nat.shiftRight_eq_div_pow]

/-- The function field of a fence, put together (R125). -/
theorem encode_ff {kind : BitVec 2} {sc : Scope} (h8 : (fld w 0 11).toNat / 256 = 1)
    (hk : (fld w 4 4).toNat = kind.toNat) (hs : scopeOf (fld w 0 4).toNat = some sc) :
    fld w 0 11 = Encode.ff kind sc := by
  have h1 : fld w 8 3 ++ fld w 6 2 = fld w 6 5 := fld_append 6 2 3
  have h2 : fld w 6 5 ++ fld w 4 2 = fld w 4 7 := fld_append 4 2 5
  have h3 : fld w 4 7 ++ fld w 0 4 = fld w 0 11 := fld_append 0 4 7
  have small : kind.toNat < 4 := kind.isLt
  simp only [toNat_fld] at h8 hk
  have high : fld w 8 3 = 1#3 := BitVec.eq_of_toNat_eq (by rw [toNat_fld]; norm_num at h8 ⊢; omega)
  have zero : fld w 6 2 = 0#2 := BitVec.eq_of_toNat_eq (by rw [toNat_fld]; norm_num at hk ⊢; omega)
  have mid : fld w 4 2 = kind := BitVec.eq_of_toNat_eq (by rw [toNat_fld]; norm_num at hk ⊢; omega)
  rw [Encode.ff, ← high, ← zero, ← mid, ← fld_of_scopeOf hs, h1, h2, h3]

end

/-! ### What the decoder accepts is written back as the word that it read -/

/-- The instruction is well formed and its word is `w`. -/
structure Writes (i : Instr) (w : BitVec 32) : Prop where
  word : encode32 i = some w
  formed : i.wellFormed = true

/-- An answer of the decoder to `w` that is no refusal is an instruction whose word is `w`. -/
def Faithful (x : Except DecodeError Instr) (w : BitVec 32) : Prop := ∀ i, x = .ok i → Writes i w

section

variable {w : BitVec 32} {maj : BitVec 6}

theorem faithful_ok {i : Instr} {v : BitVec 32} (h : Writes i v) (e : v = w) : Faithful (.ok i) w := by
  rintro _ ⟨⟩
  exact e ▸ h

theorem faithful_error {e : DecodeError} : Faithful (.error e) w := by simp [Faithful]

theorem faithful_guard {c : Prop} [Decidable c] {x : Except DecodeError Instr} {e : DecodeError}
    (h : c → Faithful x w) : Faithful (if c then x else .error e) w := by
  split
  · exact h ‹c›
  · exact faithful_error

/-! ### Formats -/

theorem faithful_rrr {k : Reg → Reg → Reg → Instr} {f : BitVec 11}
    (h : ∀ rd ra rb, Writes (k rd ra rb) (Encode.r maj rd ra rb f)) (hm : (fld w 26 6).toNat = maj.toNat)
    (hf : (fld w 0 11).toNat = f.toNat) : Faithful (rrr w k) w :=
  faithful_ok (h ..) (encode_r hm rfl rfl rfl (BitVec.eq_of_toNat_eq hf))

theorem faithful_rr {k : Reg → Reg → Instr} {f : BitVec 11}
    (h : ∀ rd ra, Writes (k rd ra) (Encode.r maj rd ra 0 f)) (hm : (fld w 26 6).toNat = maj.toNat)
    (hf : (fld w 0 11).toNat = f.toNat) : Faithful (rr w k) w :=
  faithful_guard fun hb => faithful_ok (h ..) (encode_r hm rfl rfl hb (BitVec.eq_of_toNat_eq hf))

theorem faithful_rab {k : Reg → Reg → Instr} {f : BitVec 11}
    (h : ∀ ra rb, Writes (k ra rb) (Encode.r maj 0 ra rb f)) (hm : (fld w 26 6).toNat = maj.toNat)
    (hf : (fld w 0 11).toNat = f.toNat) : Faithful (rab w k) w :=
  faithful_guard fun hd => faithful_ok (h ..) (encode_r hm hd rfl rfl (BitVec.eq_of_toNat_eq hf))

theorem faithful_immI {k : Reg → Reg → BitVec 16 → Instr} (h : ∀ rd ra imm, Writes (k rd ra imm) (Encode.i maj rd ra imm))
    (hm : (fld w 26 6).toNat = maj.toNat) : Faithful (immI w k) w :=
  faithful_ok (h ..) (encode_i hm rfl rfl rfl)

theorem faithful_immSh {k : Reg → Reg → BitVec 6 → Instr}
    (h : ∀ rd ra sh, Writes (k rd ra sh) (Encode.i maj rd ra (0#10 ++ sh))) (hm : (fld w 26 6).toNat = maj.toNat) :
    Faithful (immSh w k) w :=
  faithful_guard fun hz => faithful_ok (h ..) (encode_i hm rfl rfl (by
    have high : fld w 6 10 = 0#10 := hz
    rw [← high]; exact (fld_append 0 6 10).symm))

theorem faithful_fmtB {k : Reg → Reg → BitVec 16 → Instr} (h : ∀ ra rb off, Writes (k ra rb off) (Encode.i maj ra rb off))
    (hm : (fld w 26 6).toNat = maj.toNat) : Faithful (fmtB w k) w :=
  faithful_ok (h ..) (encode_i hm rfl rfl rfl)

theorem faithful_fmtM {k : Reg → Reg → Scope → BitVec 12 → Instr} {rd : Reg} (hd : fld w 21 5 = rd)
    (h : ∀ ra sc off, Writes (k rd ra sc off) (Encode.m maj rd ra sc off)) (hm : (fld w 26 6).toNat = maj.toNat) :
    Faithful (fmtM w k) w := by
  unfold fmtM
  split
  case h_1 sc hs => exact faithful_ok (hd ▸ h ..) (encode_m hm rfl hs)
  case h_2 => exact faithful_error

theorem faithful_eng3 {k : Reg → Reg → Reg → Instr} {eng : BitVec 4} {f : BitVec 7}
    (h : ∀ rd ra rb, Writes (k rd ra rb) (Encode.e eng rd ra rb f)) (hm : (fld w 26 6).toNat = 0x3E)
    (he : (fld w 22 4).toNat = eng.toNat) (hf : (fld w 0 7).toNat = f.toNat) : Faithful (eng3 w k) w :=
  faithful_ok (h ..) (encode_e hm he rfl rfl hf)

theorem faithful_engDA {k : Reg → Reg → Instr} {eng : BitVec 4} {f : BitVec 7}
    (h : ∀ rd ra, Writes (k rd ra) (Encode.e eng rd ra 0 f)) (hm : (fld w 26 6).toNat = 0x3E)
    (he : (fld w 22 4).toNat = eng.toNat) (hf : (fld w 0 7).toNat = f.toNat) : Faithful (engDA w k) w :=
  faithful_guard fun hb => faithful_ok (h ..) (encode_e hm he rfl hb hf)

theorem faithful_engAB {k : Reg → Reg → Instr} {eng : BitVec 4} {f : BitVec 7}
    (h : ∀ ra rb, Writes (k ra rb) (Encode.e eng 0 ra rb f)) (hm : (fld w 26 6).toNat = 0x3E)
    (he : (fld w 22 4).toNat = eng.toNat) (hf : (fld w 0 7).toNat = f.toNat) : Faithful (engAB w k) w :=
  faithful_guard fun hd => faithful_ok (h ..) (encode_e hm he hd rfl hf)

theorem faithful_engA {k : Reg → Instr} {eng : BitVec 4} {f : BitVec 7}
    (h : ∀ ra, Writes (k ra) (Encode.e eng 0 ra 0 f)) (hm : (fld w 26 6).toNat = 0x3E)
    (he : (fld w 22 4).toNat = eng.toNat) (hf : (fld w 0 7).toNat = f.toNat) : Faithful (engA w k) w :=
  faithful_guard fun hz => faithful_ok (h ..) (encode_e hm he hz.1 hz.2 hf)

/-! ### Majors -/

/-- Zero fields 25:11 of format R. -/
theorem encode_r_zero {f : BitVec 11} (hz : fld w 11 15 = 0) (hm : (fld w 26 6).toNat = maj.toNat)
    (hf : fld w 0 11 = f) : Encode.r maj 0 0 0 f = w :=
  encode_r hm (fld_eq_zero hz 10 5 (by decide)) (fld_eq_zero hz 5 5 (by decide)) (fld_eq_zero hz 0 5 (by decide)) hf

theorem faithful_arith (hm : (fld w 26 6).toNat = 0x01) : Faithful (arith w) w := by
  unfold arith
  split
  iterate 21 · next hf => exact faithful_rrr (fun _ _ _ => ⟨rfl, rfl⟩) hm hf
  iterate 3 · next hf => exact faithful_rr (fun _ _ => ⟨rfl, rfl⟩) hm hf
  · exact faithful_error

theorem faithful_task (hm : (fld w 26 6).toNat = 0x02) : Faithful (task w) w := by
  unfold task
  split
  iterate 3 · next hf => exact faithful_rrr (fun _ _ _ => ⟨rfl, rfl⟩) hm hf
  iterate 2 · next hf => exact faithful_rr (fun _ _ => ⟨rfl, rfl⟩) hm hf
  · next hf => exact faithful_guard fun hz => faithful_ok ⟨rfl, rfl⟩ (encode_r_zero hz hm (BitVec.eq_of_toNat_eq hf))
  · next hf => exact faithful_rab (fun _ _ => ⟨rfl, rfl⟩) hm hf
  · exact faithful_error

theorem faithful_fence (hm : (fld w 26 6).toNat = 0x03) (hf : (fld w 0 11).toNat / 256 = 1) :
    Faithful (fence w) w := by
  refine faithful_guard fun hz => ?_
  split
  iterate 3 · next hs hk => exact faithful_ok ⟨rfl, rfl⟩ (encode_r_zero hz hm (encode_ff hf hk hs))
  iterate 2 · exact faithful_error

theorem faithful_system (hm : (fld w 26 6).toNat = 0x03) : Faithful (system w) w := by
  unfold system
  split
  · next hf => exact faithful_rab (fun _ _ => ⟨rfl, rfl⟩) hm hf
  · next hf => exact faithful_guard fun hz => faithful_ok ⟨rfl, rfl⟩ (encode_r_zero hz hm (BitVec.eq_of_toNat_eq hf))
  · next hf => exact faithful_guard fun hz => faithful_ok ⟨rfl, rfl⟩ (encode_r hm rfl (fld_eq_zero hz 5 5 (by decide))
      (fld_eq_zero hz 0 5 (by decide)) (BitVec.eq_of_toNat_eq hf))
  · exact faithful_guard (faithful_fence hm)

end

section

variable {w : BitVec 32}

theorem faithful_unless {c : Prop} [Decidable c] {x : Except DecodeError Instr} {e : DecodeError}
    (h : ¬c → Faithful x w) : Faithful (if c then .error e else x) w := by
  split
  · exact faithful_error
  · exact h ‹¬c›

/-- A bit that is not 0 is 1. -/
theorem bit_eq_one {b : BitVec 1} (h : ¬b = 0) : b = BitVec.ofBool true := by revert b; decide

theorem faithful_ldv (hm : (fld w 26 6).toNat = 0x24) : Faithful (ldv w) w := by
  refine faithful_guard fun ⟨h9, h6⟩ => ?_
  split
  · next sc hs =>
    refine faithful_unless fun hb => ?_
    have formed : (!(fld w 7 1 == 1 && fld w 4 2 == 3)) = true := by simpa [imp_iff_not_or] using hb
    have h7 := (ofBool_beq_one (fld w 7 1)).symm
    split
    · next h8 => exact faithful_ok ⟨rfl, formed⟩ (encode_r hm rfl rfl rfl (encode_vf h9 h8 h7 h6 hs))
    · next h8 => exact faithful_ok ⟨rfl, formed⟩ (encode_r hm rfl rfl rfl (encode_vf h9 (bit_eq_one h8) h7 h6 hs))
  · exact faithful_error

theorem faithful_stv (hm : (fld w 26 6).toNat = 0x25) : Faithful (stv w) w := by
  refine faithful_guard fun ⟨h9, h67⟩ => ?_
  have h7 : fld w 7 1 = BitVec.ofBool false := fld_eq_zero h67 1 1 (by decide)
  have h6 : fld w 6 1 = 0 := fld_eq_zero h67 0 1 (by decide)
  split
  · next sc hs =>
    split
    · next h8 => exact faithful_ok ⟨rfl, rfl⟩ (encode_r hm rfl rfl rfl (encode_vf h9 h8 h7 h6 hs))
    · next h8 => exact faithful_ok ⟨rfl, rfl⟩ (encode_r hm rfl rfl rfl (encode_vf h9 (bit_eq_one h8) h7 h6 hs))
  · exact faithful_error

/-- An atomic whose operation is not the compare-and-swap (R123). -/
theorem faithful_amo_op {k : Reg → Reg → Reg → AmoWidth → Scope → Instr} {op : BitVec 4} {wd : AmoWidth} {sc : Scope}
    (h : ∀ rd ra rb, wd ≠ .n128 → Writes (k rd ra rb wd sc) (Encode.r 0x27 rd ra rb (Encode.af op wd sc)))
    (hm : (fld w 26 6).toNat = 0x27) (h10 : fld w 10 1 = 0) (hs : scopeOf (fld w 0 4).toNat = some sc)
    (hw : Decode.amoWidthOf (fld w 4 2).toNat = some wd) (ho : (fld w 6 4).toNat = op.toNat) (hop : op ≠ 2)
    (hb : ¬(wd = .n128 ∧ ¬((fld w 6 4).toNat = 2 ∧ amoPairOk (fld w 21 5) (fld w 11 5)))) :
    Faithful (.ok (k (fld w 21 5) (fld w 16 5) (fld w 11 5) wd sc)) w := by
  have narrow : wd ≠ .n128 := fun e => hb ⟨e, fun h2 => hop (BitVec.eq_of_toNat_eq (ho.symm.trans h2.1))⟩
  exact faithful_ok (h _ _ _ narrow) (encode_r hm rfl rfl rfl (encode_af h10 ho hw hs))

theorem faithful_amo (hm : (fld w 26 6).toNat = 0x27) : Faithful (amo w) w := by
  refine faithful_guard fun h10 => ?_
  split
  · next sc wd hs hw =>
    refine faithful_unless fun hb => ?_
    split
    case h_3 ho =>
      have formed : (wd != .n128 || amoPairOk (fld w 21 5) (fld w 11 5)) = true := by
        simpa [ho, imp_iff_not_or] using hb
      exact faithful_ok ⟨rfl, formed⟩ (encode_r hm rfl rfl rfl (encode_af h10 ho hw hs))
    case h_11 => exact faithful_error
    all_goals
      next ho =>
        exact faithful_amo_op (fun _ _ _ narrow => ⟨rfl, bne_iff_ne.mpr narrow⟩) hm h10 hs hw ho (by decide) hb
  · exact faithful_error
  · exact faithful_error

theorem faithful_engine (hm : (fld w 26 6).toNat = 0x3E) : Faithful (engine w) w := by
  unfold engine
  split
  case h_6 | h_7 | h_8 | h_9 | h_10 | h_11 | h_14 | h_21 | h_24 | h_25 | h_26 | h_27 | h_29 | h_30 | h_32 | h_34
      | h_43 | h_45 | h_46 | h_53 | h_60 | h_61 =>
    exact faithful_eng3 (fun _ _ _ => ⟨rfl, rfl⟩) hm (by assumption) (by assumption)
  case h_5 | h_13 | h_16 | h_19 | h_20 | h_23 | h_31 | h_33 | h_35 | h_39 | h_44 | h_51 | h_56 | h_57 | h_58
      | h_64 =>
    exact faithful_engDA (fun _ _ => ⟨rfl, rfl⟩) hm (by assumption) (by assumption)
  case h_1 | h_3 | h_17 | h_37 | h_41 | h_48 | h_49 | h_52 | h_54 | h_55 | h_59 =>
    exact faithful_engAB (fun _ _ => ⟨rfl, rfl⟩) hm (by assumption) (by assumption)
  case h_2 | h_4 | h_12 | h_15 | h_18 | h_22 | h_28 | h_36 | h_38 | h_40 | h_42 | h_47 | h_50 | h_62 | h_63 =>
    exact faithful_engA (fun _ => ⟨rfl, rfl⟩) hm (by assumption) (by assumption)
  case h_65 => split <;> exact faithful_error

/-- Every Surveyor word that the decoder accepts is the word of the instruction that it reads. -/
theorem faithful_surveyor : Faithful (surveyor w) w := by
  unfold surveyor
  split
  · exact faithful_arith ‹_›
  · exact faithful_task ‹_›
  · exact faithful_system ‹_›
  · next hm => exact faithful_guard fun ha => faithful_ok ⟨rfl, rfl⟩ (encode_i hm rfl ha rfl)
  iterate 7 · next hm => exact faithful_immI (fun _ _ _ => ⟨rfl, rfl⟩) hm
  iterate 3 · next hm => exact faithful_immSh (fun _ _ _ => ⟨rfl, rfl⟩) hm
  iterate 4 · next hm => exact faithful_immI (fun _ _ _ => ⟨rfl, rfl⟩) hm
  iterate 11 · next hm => exact faithful_fmtM rfl (fun _ _ _ => ⟨rfl, rfl⟩) hm
  · exact faithful_ldv ‹_›
  · exact faithful_stv ‹_›
  · next hm => exact faithful_guard fun hf => faithful_rrr (fun _ _ _ => ⟨rfl, rfl⟩) hm (congrArg BitVec.toNat hf)
  · exact faithful_amo ‹_›
  · next hm => exact faithful_guard fun hd => faithful_fmtM hd (fun _ _ _ => ⟨rfl, rfl⟩) hm
  iterate 6 · next hm => exact faithful_fmtB (fun _ _ _ => ⟨rfl, rfl⟩) hm
  · next hm => exact faithful_ok ⟨rfl, rfl⟩ (encode_j hm)
  · next hm => exact faithful_immI (fun _ _ _ => ⟨rfl, rfl⟩) hm
  · exact faithful_engine ‹_›
  · exact faithful_error

end

/-! ### Cell operation words -/

/-- A kind of operand, zeros and an index fill the field (R211). -/
theorem operand_padded {x : BitVec 12} {kind : BitVec 3} {k m : Nat} (hk : fld x (m + k) 3 = kind) (hz : fld x m k = 0#k) :
    kind ++ 0#k ++ fld x 0 m = fld x 0 (3 + k + m) := by
  rw [← hk, ← hz, fld_append m k 3, ← fld_append 0 m (3 + k), Nat.zero_add]

/-- A special operand has the code that names it (R213). -/
theorem fld_of_specialOf {x : BitVec 12} {y : Special} (h : specialOf (fld x 0 9).toNat = some y) :
    fld x 0 9 = BitVec.ofNat 9 (specialCode y) := by
  have code : specialCode y = (fld x 0 9).toNat := by
    unfold specialOf at h
    split at h <;> cases h <;> simp_all [specialCode]
  rw [code, BitVec.ofNat_toNat, BitVec.setWidth_eq]

/-- A kind of operand and the rest fill the field (R211). -/
theorem operand_whole {x : BitVec 12} {kind : BitVec 3} {rest : BitVec 9} (hk : (fld x 9 3).toNat = kind.toNat)
    (hr : fld x 0 9 = rest) : kind ++ rest = x := by
  rw [← BitVec.eq_of_toNat_eq hk, ← hr]
  exact (fld_append 0 9 3).trans (fld_all x)

/-- An operand field that is read is the field of its operand (R211). -/
theorem operand_of_operandOf {x : BitVec 12} {o : Operand} (h : operandOf x = some o) : Encode.operand o = x := by
  unfold operandOf at h
  split at h
  case h_1 hk =>
    obtain ⟨hz, rfl⟩ : fld x 4 5 = 0 ∧ .reg (fld x 0 4) = o := by simpa using h
    exact (operand_padded (k := 5) (m := 4) (BitVec.eq_of_toNat_eq hk) hz).trans (fld_all x)
  case h_2 hk =>
    obtain ⟨hz, rfl⟩ : fld x 5 4 = 0 ∧ .iq (fld x 0 2) (fld x 2 3) = o := by simpa using h
    have h1 : fld x 9 3 ++ fld x 5 4 = fld x 5 7 := fld_append 5 4 3
    have h2 : fld x 5 7 ++ fld x 2 3 = fld x 2 10 := fld_append 2 3 7
    have h3 : fld x 2 10 ++ fld x 0 2 = fld x 0 12 := fld_append 0 2 10
    have kind : fld x 9 3 = 1#3 := BitVec.eq_of_toNat_eq hk
    have zeros : fld x 5 4 = 0#4 := hz
    rw [Encode.operand, ← kind, ← zeros, h1, h2, h3, fld_all]
  case h_3 hk =>
    obtain ⟨hz, rfl⟩ : fld x 2 7 = 0 ∧ .oq (fld x 0 2) = o := by simpa using h
    exact (operand_padded (k := 7) (m := 2) (BitVec.eq_of_toNat_eq hk) hz).trans (fld_all x)
  case h_4 hk =>
    obtain ⟨hz, rfl⟩ : fld x 3 6 = 0 ∧ .pred (fld x 0 3) = o := by simpa using h
    exact (operand_padded (k := 6) (m := 3) (BitVec.eq_of_toNat_eq hk) hz).trans (fld_all x)
  case h_5 hk =>
    obtain ⟨hz, rfl⟩ : fld x 3 6 = 0 ∧ .const (fld x 0 3) = o := by simpa using h
    exact (operand_padded (k := 6) (m := 3) (BitVec.eq_of_toNat_eq hk) hz).trans (fld_all x)
  case h_6 hk =>
    split at h
    · next h8 =>
      obtain ⟨hz, rfl⟩ : fld x 0 8 = 0 ∧ .ap = o := by simpa using h
      exact operand_whole hk (by rw [← fld_append 0 8 1, hz, Nat.zero_add, h8]; rfl)
    · next h8 =>
      obtain ⟨hz, rfl⟩ : fld x 7 1 = 0 ∧ .handle (fld x 0 7) = o := by simpa using h
      have h1 : fld x 9 3 ++ fld x 8 1 = fld x 8 4 := fld_append 8 1 3
      have h2 : fld x 8 4 ++ fld x 7 1 = fld x 7 5 := fld_append 7 1 4
      have h3 : fld x 7 5 ++ fld x 0 7 = fld x 0 12 := fld_append 0 7 5
      have kind : fld x 9 3 = 5#3 := BitVec.eq_of_toNat_eq hk
      have one : fld x 8 1 = 1#1 := bit_eq_one h8
      have zero : fld x 7 1 = 0#1 := hz
      rw [Encode.operand, ← kind, ← one, ← zero, h1, h2, h3, fld_all]
  case h_7 hk =>
    obtain ⟨y, hy, rfl⟩ := Option.map_eq_some_iff.mp h
    exact operand_whole hk (fld_of_specialOf hy)
  case h_8 h0 h1 h2 h3 h4 h5 h6 =>
    obtain ⟨hz, rfl⟩ : fld x 0 9 = 0 ∧ .none = o := by simpa using h
    have bound := (fld x 9 3).isLt
    simp only [imp_false] at h0 h1 h2 h3 h4 h5 h6
    exact operand_whole (kind := 7#3) (by norm_num; omega) hz

/-- A rounding field that is read is the code of its mode (R45). -/
theorem fld_of_roundingOf {n lo : Nat} {x : BitVec n} {r : Rounding} (h : roundingOf (fld x lo 3).toNat = some r) :
    fld x lo 3 = BitVec.ofNat 3 (roundingCode r) := by
  have code : roundingCode r = (fld x lo 3).toNat := by
    unfold roundingOf at h
    split at h <;> cases h <;> simp_all [roundingCode]
  rw [code, BitVec.ofNat_toNat, BitVec.setWidth_eq]

/-- The constructor that an opcode names has that opcode and no other fields than the word's (R215). -/
theorem cellParts_of_ofOpcode {op : BitVec 8} {w : CellWord} {i : Instr} (h : ofOpcode op.toNat w = some i) :
    i.cellParts? = some (op, w) := by
  unfold ofOpcode at h
  split at h
  case h_94 => cases h
  all_goals
    next ho =>
      cases h
      exact congrArg (fun op => some (op, w)) (BitVec.eq_of_toNat_eq ho.symm)

/-- A cell operation word is its format, whose fields fill it (R210). -/
theorem encode_cellWord {w : BitVec 64} {d a b : Operand} {r : Rounding} (hd : operandOf (fld w 40 12) = some d)
    (ha : operandOf (fld w 28 12) = some a) (hb : operandOf (fld w 16 12) = some b)
    (hr : roundingOf (fld w 13 3).toNat = some r) :
    Encode.cellWord (fld w 56 8) ⟨fld w 52 4, d, a, b, r, fld w 12 1 == 1, fld w 0 12⟩ = w := by
  have h1 : fld w 56 8 ++ fld w 52 4 = fld w 52 12 := fld_append 52 4 8
  have h2 : fld w 52 12 ++ fld w 40 12 = fld w 40 24 := fld_append 40 12 12
  have h3 : fld w 40 24 ++ fld w 28 12 = fld w 28 36 := fld_append 28 12 24
  have h4 : fld w 28 36 ++ fld w 16 12 = fld w 16 48 := fld_append 16 12 36
  have h5 : fld w 16 48 ++ fld w 13 3 = fld w 13 51 := fld_append 13 3 48
  have h6 : fld w 13 51 ++ fld w 12 1 = fld w 12 52 := fld_append 12 1 51
  have h7 : fld w 12 52 ++ fld w 0 12 = fld w 0 64 := fld_append 0 12 52
  rw [Encode.cellWord, operand_of_operandOf hd, operand_of_operandOf ha, operand_of_operandOf hb, ← fld_of_roundingOf hr,
    ofBool_beq_one, h1, h2, h3, h4, h5, h6, h7, fld_all]

/-- Every cell operation word that the decoder accepts is the word of the instruction that it reads. -/
theorem encode64_of_cell {w : BitVec 64} {i : Instr} (h : cell w = .ok i) : encode64 i = some w ∧ i.wellFormed = true := by
  unfold cell at h
  split at h
  · next r d a b hr hd ha hb =>
    dsimp only at h
    split at h
    · next j hj =>
      split at h
      · next formed =>
        cases h
        refine ⟨?_, formed⟩
        rw [encode64, cellParts_of_ofOpcode hj]
        exact congrArg some (encode_cellWord hd ha hb hr)
      · cases h
    · cases h
  · cases h
  · cases h

/-- Settles O49: word by word over the decoder's tables, each format of which keeps every bit. -/
theorem decodeEncode : Obligations.DecodeEncode :=
  ⟨fun _ _ h => let ⟨word, formed⟩ := faithful_surveyor _ h; ⟨word, formed⟩, fun _ _ => encode64_of_cell⟩

end Sys2Proof.Proofs

/-! The proofs of the obligations about registers, branches, loads, traps, control registers and task instructions. -/

namespace Sys2Proof.Proofs

open Sys2Proof Sys2Proof.Machine Sys2Proof.Laws

/-! ### What an update of a core leaves beside it -/

section

variable {s : State} {p : Nat} {f : Core → Core}

theorem buffer_onCore (q h : Nat) : (s.onCore p f).buffer q h = s.buffer q h := by
  simp only [State.buffer, State.onCore, parcel_onParcel]
  split <;> simp_all

theorem station_onCore (q n : Nat) : (s.onCore p f).station q n = s.station q n := by
  simp only [State.station, State.onCore, parcel_onParcel]
  split <;> simp_all

end

/-- The running core after a register is written. -/
theorem core_writeReg_here (s : State) (rd : Reg) (v : Word) :
    (s.writeReg rd v).core s.here = { (s.core s.here).put rd v with pc := (s.core s.here).pc + 4 } := by
  simp [State.writeReg]

/-- Settles O5: the write is an update of the running core, whose other fields `put` leaves. -/
theorem writeRegisterFrame : Obligations.WriteRegisterFrame := by
  intro s rd v
  dsimp only
  rw [core_writeReg_here]
  refine ⟨fun r => reg_writeReg s rd r v, rfl, ?_, ?_, core_writeReg_other s rd v, fun q m => cell_onCore ..,
    fun q h => buffer_onCore .., fun q n => station_onCore .., fun a => rfl, rfl, rfl, rfl⟩
  · simp only [put_tcause, put_tval, put_tepc, put_hangiv, put_asid, put_chprio, put_flags]
  · simp only [put_trap, put_wake, put_cls, put_ch, put_running, put_channels]

/-! ### Branches (R110, R126) -/

/-- Where a branch leads: to its target or into a trap where its condition holds, on where it fails. -/
def branched (s : State) (off : BitVec 16) (c : Bool) : State :=
  if c then (if (s.target off).toNat % 4 = 0 then s.jump (s.target off) else s.trapEntry s.here 4 (s.target off) 0 false)
  else s.advance s.here

theorem branch_eq (s : State) (i : Instr) (cond : Word → Word → Bool) (ra rb : Reg) (off : BitVec 16) :
    s.branch i cond ra rb off = .next (branched s off (cond (s.reg ra) (s.reg rb))) := by
  unfold State.branch branched
  split
  · split
    · next fits => exact attempt_ok (act_bind_ok (aligned_ok fits))
    · next fits => exact attempt_misaligned fits
  · exact attempt_ok rfl

/-- Settles O6: the six branches are one operation, and their conditions compare as the words' numbers do. -/
theorem branches : Obligations.Branches := by
  intro s ra rb off a b
  have signed : (!a.slt b) = decide (b.toInt ≤ a.toInt) := by rw [BitVec.slt, ← decide_not]; simp only [not_lt]
  have natural : (!a.ult b) = decide (b.toNat ≤ a.toNat) := by rw [BitVec.ult, ← decide_not]; simp only [not_lt]
  refine ⟨branch_eq s _ (fun a b => a = b) .., branch_eq s _ (fun a b => a ≠ b) .., branch_eq s _ (fun a b => a.slt b) ..,
    ?_, branch_eq s _ (fun a b => a.ult b) .., ?_⟩
  · rw [← signed]
    exact branch_eq s _ (fun a b => !a.slt b) ..
  · rw [← natural]
    exact branch_eq s _ (fun a b => !a.ult b) ..

/-! ### Traps (R104 to R106) -/

section

variable {s : State} {p : Nat} {code : Byte} {value : Word} {engine : Nat} {late : Bool}

/-- No breakpoint stops a core whose region no debugger watches. -/
theorem breakTrap_undebugged (free : ∀ x, s.regionOf p = some x → s.debugged x.1 = false) : s.breakTrap p = s := by
  unfold State.breakTrap
  split
  · next found => rw [free _ found]; rfl
  · rfl

/-- A trap of a core that has a handler for it and is not inside another. -/
def trapped (s : State) (p : Nat) (code : Byte) (value : Word) (engine : Nat) (late : Bool) : State :=
  ((s.log 1 code p (s.core p).asid value).needMet (.core p) code).onCore p fun c =>
    { c with tepc := c.pc, tcause := BitVec.ofNat 64 (engine * 256 + code.toNat), tval := value, trap := true, wake := late,
             pc := ((s.core p).channel 127).handler, since := none, gathered := [] }

theorem trapEntry_handled (first : (s.core p).trap = false) (bound : ((s.core p).channel 127).bound = true) :
    s.trapEntry p code value engine late = (trapped s p code value engine late).breakTrap p := by
  simp only [State.trapEntry, first, bound]
  rfl

theorem core_trapped (q : Nat) : (trapped s p code value engine late).core q =
    if p = q then { s.core p with
      tepc := (s.core p).pc, tcause := BitVec.ofNat 64 (engine * 256 + code.toNat), tval := value, trap := true,
      wake := late, pc := ((s.core p).channel 127).handler, since := none, gathered := [] } else s.core q := by
  rw [trapped, core_onCore, needMet_core, needMet_core]
  rfl

/-- A trap of a core whose region no debugger watches stops at no breakpoint. -/
theorem trapEntry_undebugged (first : (s.core p).trap = false) (bound : ((s.core p).channel 127).bound = true)
    (free : ∀ x, s.regionOf p = some x → s.debugged x.1 = false) :
    s.trapEntry p code value engine late = trapped s p code value engine late := by
  rw [trapEntry_handled first bound]
  refine breakTrap_undebugged fun x found => ?_
  have regions : (trapped s p code value engine late).regions = s.regions := by simp [trapped]
  have debugger : (trapped s p code value engine late).debugger = s.debugger := by simp [trapped]
  have same : (trapped s p code value engine late).regionOf p = s.regionOf p := by simp only [State.regionOf, regions]
  have watched : (trapped s p code value engine late).debugged x.1 = s.debugged x.1 := by
    simp only [State.debugged, regions, debugger]
  rw [watched]
  exact free x (same ▸ found)

end

/-- Settles O8: the whole entry is one update of the core. -/
theorem trapEntry : Obligations.TrapEntry := by
  intro s p code value engine late first bound free
  dsimp only
  rw [trapEntry_undebugged first bound free, core_trapped, if_pos rfl]
  exact ⟨rfl, rfl, rfl, rfl, rfl, rfl, rfl, rfl, rfl, rfl, rfl, rfl,
    fun q other => by rw [core_trapped, if_neg other.symm], fun a => by simp [trapped], by simp [trapped]⟩

/-- Settles O9: either reason takes the first branch of the entry. -/
theorem trapInsideTrap : Obligations.TrapInsideTrap := by
  intro s p code value engine late reason
  have second : ((s.core p).trap || !((s.core p).channel 127).bound) = true := by
    rcases reason with inside | unbound
    · rw [inside]; rfl
    · rw [unbound, Bool.not_false, Bool.or_true]
  exact if_pos second

/-! ### Wakeups that fire leave the task of a core (R102) -/

/-- `d` runs the same task as `c`, on channels with the same handlers. -/
def SameTask (c d : Core) : Prop :=
  (∃ l, d = { c with channels := l }) ∧
    ∀ ch, (d.channel ch).bound = (c.channel ch).bound ∧ (d.channel ch).handler = (c.channel ch).handler

/-- Every core runs the same task in both states, and the buffers are the same. -/
def SameTasks (s t : State) : Prop :=
  (∀ q, SameTask (s.core q) (t.core q)) ∧ ∀ q h, t.buffer q h = s.buffer q h

theorem SameTask.refl (c : Core) : SameTask c c := ⟨⟨_, rfl⟩, fun _ => ⟨rfl, rfl⟩⟩

theorem SameTask.trans {c d e : Core} (h : SameTask c d) (k : SameTask d e) : SameTask c e := by
  obtain ⟨⟨l, rfl⟩, same⟩ := h
  obtain ⟨⟨m, rfl⟩, same'⟩ := k
  exact ⟨⟨m, rfl⟩, fun ch => ⟨(same' ch).1.trans (same ch).1, (same' ch).2.trans (same ch).2⟩⟩

theorem SameTasks.refl (s : State) : SameTasks s s := ⟨fun _ => .refl _, fun _ _ => rfl⟩

theorem SameTasks.trans {s t u : State} (h : SameTasks s t) (k : SameTasks t u) : SameTasks s u :=
  ⟨fun q => (h.1 q).trans (k.1 q), fun q b => (k.2 q b).trans (h.2 q b)⟩

theorem SameTasks.of_parcels {s t : State} (h : t.parcels = s.parcels) : SameTasks s t := by
  have parcel : ∀ q, t.parcel q = s.parcel q := fun q => by rw [State.parcel, h, State.parcel]
  exact ⟨fun q => by rw [State.core, State.core, parcel]; exact .refl _,
    fun q b => by rw [State.buffer, parcel, State.buffer]⟩

/-- A change of a channel that keeps its binding. -/
theorem sameTask_onChannel (c : Core) (ch : Nat) {f : Channel → Channel}
    (h : ∀ x, (f x).bound = x.bound ∧ (f x).handler = x.handler) : SameTask c (c.onChannel ch f) := by
  refine ⟨⟨_, rfl⟩, fun k => ?_⟩
  simp only [Core.onChannel, Core.channel, look_put]
  split
  · next e => subst e; exact h _
  · exact ⟨rfl, rfl⟩

theorem sameTasks_onCore (s : State) (p : Nat) {f : Core → Core} (h : ∀ c, SameTask c (f c)) :
    SameTasks s (s.onCore p f) := by
  refine ⟨fun q => ?_, fun q b => buffer_onCore q b⟩
  rw [core_onCore]
  split
  · next e => subst e; exact h _
  · exact .refl _

theorem parcels_acquire (s : State) (u : Writer) (sc : Scope) : (s.acquire u sc).parcels = s.parcels := by
  unfold State.acquire
  split
  · exact List.foldlRecOn _ _ (motive := fun t : State => t.parcels = s.parcels) rfl fun _ h _ _ => h
  · rfl

theorem fire_binding (h : Channel) (now : Nat) (kind : BitVec 2) (time : Word) :
    (h.fire now kind time).bound = h.bound ∧ (h.fire now kind time).handler = h.handler := by
  unfold Channel.fire Channel.push
  dsimp only
  split <;> exact ⟨rfl, rfl⟩

/-- Wakeups that fire enter their channels' FIFOs and change no task. -/
theorem sameTasks_pollWakes (s : State) (p : Nat) : SameTasks s (s.pollWakes p) := by
  unfold State.pollWakes
  split
  · exact .refl s
  · refine List.foldlRecOn _ _ (motive := SameTasks s) (.refl s) fun t h e _ => h.trans ?_
    have fires (u : State) : SameTasks u (u.onCore p fun c => c.onChannel e.1 fun x =>
        x.fire s.meridian.toNat e.2.wake.cond (wakeTime e.2.wake s.meridian)) :=
      sameTasks_onCore u p fun c => sameTask_onChannel c e.1 fun x => fire_binding ..
    dsimp only
    split
    · exact (SameTasks.of_parcels (parcels_acquire ..)).trans (fires _)
    · exact fires t

/-! ### Starting a task (R90, R98 to R103) -/

/-- The registers with which a task starts (R90, R99, R100). -/
def dispatchWords (s : State) (p ch : Nat) (e : ChannelEvent) (promoted : Bool) : Vector Word 32 :=
  (((Vector.replicate 32 0).set 1 (eventWords e).1).set 2 (eventWords e).2
    |>.set 3 (infoWord s.link.number p ch promoted e)).set 4 ((s.core p).channel ch).arg

/-- The core as its task starts. -/
def dispatched (s : State) (p k ch : Nat) (e : ChannelEvent) (rest : List ChannelEvent) : Core :=
  let c := s.core p
  { (c.onChannel ch fun h => h.take s.meridian rest e) with
    regs := dispatchWords s p ch e (chClass c.chprio ch < c.effClass s.meridian.toNat ch), pc := (c.channel ch).handler,
    running := true, cls := BitVec.ofNat 2 k, ch := BitVec.ofNat 7 ch, trap := false, wake := false,
    last := c.last.setIfInBounds k ch }

section

variable {s : State} {p k ch : Nat} {e : ChannelEvent} {rest : List ChannelEvent}

theorem sameTask_startTask : SameTask (dispatched s p k ch e rest) ((s.startTask p k ch e rest).core p) := by
  have before : (s.onCore p fun _ => dispatched s p k ch e rest).core p = dispatched s p k ch e rest := by
    rw [core_onCore, if_pos rfl]
  exact before ▸ (sameTasks_pollWakes (s.onCore p fun _ => dispatched s p k ch e rest) p).1 p

theorem buffer_startTask (q h : Nat) : (s.startTask p k ch e rest).buffer q h = s.buffer q h :=
  ((sameTasks_pollWakes _ p).2 q h).trans (buffer_onCore q h)

/-- The channels of the core have the handlers that they had before the task started. -/
theorem binding_startTask (n : Nat) :
    (((s.startTask p k ch e rest).core p).channel n).bound = ((s.core p).channel n).bound ∧
    (((s.startTask p k ch e rest).core p).channel n).handler = ((s.core p).channel n).handler := by
  have taken : SameTask (s.core p) ((s.core p).onChannel ch fun h => h.take s.meridian rest e) :=
    sameTask_onChannel _ _ fun _ => ⟨rfl, rfl⟩
  obtain ⟨bound, handler⟩ := sameTask_startTask.2 n
  obtain ⟨bound', handler'⟩ := taken.2 n
  exact ⟨bound.trans bound', handler.trans handler'⟩

/-- A checked wakeup that finds its entry FREE or FILLING (R103). -/
def LateWakeup (s : State) (p : Nat) (e : ChannelEvent) : Prop :=
  ∃ time arg control, e = .wakeup 1 time arg control ∧ control.getLsbD 15 = true ∧
    bufState (s.buffer p (getF control 14 8)) ≤ 1

/-- What follows a start in the region's debugger leaves the core. -/
theorem core_breakTrap (q : Nat) : (s.breakTrap p).core q = s.core q := by
  unfold State.breakTrap
  split
  · dsimp only
    split <;> rfl
  · rfl

/-- Whether a start is late, as `afterStart` reads it off the event. -/
def lateBit (s : State) (p : Nat) : ChannelEvent → Bool
  | .wakeup kind _ _ control => kind = 1 && control.getLsbD 15 && bufState (s.buffer p (getF control 14 8)) ≤ 1
  | _ => false

theorem lateBit_iff : lateBit s p e = true ↔ LateWakeup s p e := by
  cases e with
  | packet k shared => simp [lateBit, LateWakeup]
  | wakeup kind time arg control =>
    constructor
    · intro h
      simp only [lateBit, Bool.and_eq_true, decide_eq_true_eq] at h
      obtain ⟨⟨rfl, checked⟩, unfilled⟩ := h
      exact ⟨time, arg, control, rfl, checked, unfilled⟩
    · rintro ⟨_, _, _, ⟨⟩, checked, unfilled⟩
      simp [lateBit, checked, unfilled]

/-- The entry that a checked wakeup asks about, as `afterStart` reads it off the event. -/
def lateEntry : ChannelEvent → Nat
  | .wakeup _ _ _ control => getF control 14 8
  | _ => 0

/-- What a start does to the core after it: the trap of a late wakeup, and nothing in time. -/
theorem core_afterStart : (s.afterStart p ch e).core p =
    (if lateBit s p e then s.trapEntry p codeLatePromise (s.latePromise p (lateEntry e)) 0 true
      else s).core p := by
  unfold State.afterStart
  cases e with
  | packet k shared =>
    dsimp only [lateBit]
    split
    · rfl
    · split_ifs <;> rfl
  | wakeup kind time arg control =>
    dsimp only [lateBit]
    generalize trap : (if (decide (kind = 1) && control.getLsbD 15 &&
        decide (bufState (s.buffer p (getF control 14 8)) ≤ 1)) = true
      then s.trapEntry p codeLatePromise (s.latePromise p (getF control 14 8)) 0 true else s) = s1
    refine Eq.trans (b := s1.core p) ?_ (congrArg (State.core · p) trap.symm)
    split
    · rfl
    · split_ifs <;> rfl

/-- A task that starts in time stands as it was started. -/
theorem core_afterStart_inTime (inTime : ¬LateWakeup s p e) : (s.afterStart p ch e).core p = s.core p := by
  rw [core_afterStart, if_neg (mt lateBit_iff.mp inTime)]

/-- A late wakeup takes the trap `LATE_PROMISE` where it starts (R103). -/
theorem core_afterStart_late {time arg : Word} {control : BitVec 16} (checked : control.getLsbD 15 = true)
    (unfilled : bufState (s.buffer p (getF control 14 8)) ≤ 1) (first : (s.core p).trap = false)
    (bound : ((s.core p).channel 127).bound = true) :
    (s.afterStart p ch (.wakeup 1 time arg control)).core p =
      (trapped s p codeLatePromise (s.latePromise p (getF control 14 8)) 0 true).core p := by
  rw [core_afterStart, if_pos (lateBit_iff.mpr ⟨time, arg, control, rfl, checked, unfilled⟩),
    trapEntry_handled first bound, core_breakTrap]
  rfl

end

/-! ### Returning from a trap (R105) -/

/-- Settles O10: `TRET` passes or fails its checks; a task ends, and another starts, with its flags cleared. -/
theorem trapReturn : Obligations.TrapReturn := by
  refine ⟨fun s inside fits => attempt_ok ((act_bind_ok (check_of inside)).trans (act_bind_ok (aligned_ok fits))),
    fun s outside => ?_, fun s => ⟨_, rfl, ?_⟩, fun s p k ch e rest => ?_⟩
  · have refused : Machine.check (s.core s.here).trap codeIllegal 0 s = .error (.fault codeIllegal 0) s := by
      rw [outside]; rfl
    exact attempt_fault (act_bind_error refused)
  · simp [State.endTask, State.onCore, Core.onChannel, State.core]
  · obtain ⟨⟨l, started⟩, -⟩ := sameTask_startTask (s := s) (p := p) (k := k) (ch := ch) (e := e) (rest := rest)
    rw [started]
    exact ⟨rfl, rfl⟩

/-! ### Tasks (R90, R98 to R103) -/

section

variable {s : State} {p o k ch : Nat} {r : Region} {e : ChannelEvent} {rest : List ChannelEvent}

/-- An idle core that may run takes the first event of the channel that it picks. -/
theorem execTaskDispatch_starts (region : s.regionOf p = some (o, r)) (runs : s.coreRuns p = true)
    (idle : (s.core p).running = false) (stopped : (s.core p).stopped = false) (phase : r.phase ≠ .preempting)
    (exit : r.exitAsked = false) (picks : (s.core p).pick s.meridian.toNat = some (k, ch))
    (fifo : ((s.core p).channel ch).fifo = e :: rest) :
    execTaskDispatch p s = .next ((s.startTask p k ch e rest).afterStart p ch e) := by
  simp [execTaskDispatch, region, runs, idle, stopped, phase, exit, picks, fifo]

/-- The registers of a core that starts a task. -/
theorem get_dispatchWords {c : Core} {promoted : Bool} (h : c.regs = dispatchWords s p ch e promoted) :
    c.get 1 = (eventWords e).1 ∧ c.get 2 = (eventWords e).2 ∧ c.get 3 = infoWord s.link.number p ch promoted e ∧
    c.get 4 = ((s.core p).channel ch).arg ∧ ∀ n : Reg, n = 0 ∨ 5 ≤ n.toNat → c.get n = 0 := by
  simp only [Core.get, h, dispatchWords]
  refine ⟨rfl, rfl, rfl, rfl, fun n cleared => ?_⟩
  split
  · rfl
  · next nonzero =>
    have high : 5 ≤ n.toNat := cleared.resolve_left nonzero
    rw [Vector.getElem_set_ne _ _ (by omega), Vector.getElem_set_ne _ _ (by omega), Vector.getElem_set_ne _ _ (by omega),
      Vector.getElem_set_ne _ _ (by omega), Vector.getElem_replicate]

/-- A late wakeup traps at its handler's address, with its registers as they start a task (R103). -/
theorem core_late {time arg : Word} {control : BitVec 16} (checked : control.getLsbD 15 = true)
    (unfilled : bufState (s.buffer p (getF control 14 8)) ≤ 1) (bound : ((s.core p).channel 127).bound = true) :
    ∃ l, ((s.startTask p k ch (.wakeup 1 time arg control) rest).afterStart p ch (.wakeup 1 time arg control)).core p =
      { dispatched s p k ch (.wakeup 1 time arg control) rest with
        channels := l, tepc := ((s.core p).channel ch).handler, tcause := 0x30, tval := s.latePromise p (getF control 14 8),
        trap := true, wake := true, pc := ((s.core p).channel 127).handler, since := none, gathered := [] } := by
  obtain ⟨⟨l, started⟩, -⟩ := sameTask_startTask (s := s) (p := p) (k := k) (ch := ch) (e := .wakeup 1 time arg control)
    (rest := rest)
  obtain ⟨bound', handler⟩ := binding_startTask (s := s) (p := p) (k := k) (ch := ch) (e := .wakeup 1 time arg control)
    (rest := rest) 127
  have promise : (s.startTask p k ch (.wakeup 1 time arg control) rest).latePromise p (getF control 14 8) =
      s.latePromise p (getF control 14 8) := by
    simp only [State.latePromise, buffer_startTask]
  refine ⟨l, ?_⟩
  rw [core_afterStart_late checked (by rwa [buffer_startTask]) (by rw [started]; rfl) (bound'.trans bound), core_trapped,
    if_pos rfl, handler, promise, started]
  rfl

end

/-- Settles O45: the start of the task, and for a late wakeup the trap that follows it, on one core. -/
theorem taskStart : Obligations.TaskStart := by
  intro s p o k ch r e rest region runs idle stopped phase exit picks fifo late handled
  set promoted := decide (chClass (s.core p).chprio ch < (s.core p).effClass s.meridian.toNat ch)
  set c := ((s.startTask p k ch e rest).afterStart p ch e).core p with hc
  suffices core : c.regs = dispatchWords s p ch e promoted ∧ c.running = true ∧
      (¬late → c.pc = ((s.core p).channel ch).handler ∧ c.trap = false ∧ c.wake = false) ∧
      (∀ time arg control, e = .wakeup 1 time arg control → control.getLsbD 15 = true →
        bufState (s.buffer p (getF control 14 8)) ≤ 1 → c.trap = true ∧ c.wake = true ∧ c.tcause = 0x30 ∧
          c.tepc = ((s.core p).channel ch).handler ∧ c.pc = ((s.core p).channel 127).handler ∧
          c.tval = s.latePromise p (getF control 14 8)) by
    obtain ⟨regs, running, inTime, trap⟩ := core
    obtain ⟨x1, x2, x3, x4, others⟩ := get_dispatchWords regs
    refine ⟨_, promoted, execTaskDispatch_starts region runs idle stopped phase exit picks fifo, ?_, ?_, x3, x4, others,
      running, inTime, trap⟩
    · rintro pk shared rfl
      exact ⟨x1, x2⟩
    · rintro kind time arg control rfl
      exact ⟨x1, x2⟩
  by_cases isLate : late
  · obtain ⟨time, arg, control, rfl, checked, unfilled⟩ := id isLate
    obtain ⟨l, core⟩ := core_late (k := k) (ch := ch) (rest := rest) (time := time) (arg := arg) checked unfilled
      (handled isLate)
    rw [hc, core]
    refine ⟨rfl, rfl, fun inTime => absurd isLate inTime, ?_⟩
    rintro _ _ _ ⟨⟩ - -
    exact ⟨rfl, rfl, rfl, rfl, rfl, rfl⟩
  · have inTime : ¬LateWakeup (s.startTask p k ch e rest) p e := by simpa only [LateWakeup, buffer_startTask] using isLate
    obtain ⟨⟨l, started⟩, -⟩ := sameTask_startTask (s := s) (p := p) (k := k) (ch := ch) (e := e) (rest := rest)
    rw [hc, core_afterStart_inTime inTime, started]
    exact ⟨rfl, rfl, fun _ => ⟨rfl, rfl, rfl⟩,
      fun time arg control wakeup checked unfilled => absurd ⟨time, arg, control, wakeup, checked, unfilled⟩ isLate⟩

/-! ### Words and fetches that trap (R110, R111) -/

/-- Settles O11: both events are traps at once. -/
theorem fetchTraps : Obligations.FetchTraps := fun _ _ _ => ⟨rfl, rfl⟩

/-- Settles O47: each word is closed, and is decoded. -/
theorem decodedWords : Obligations.DecodedWords := ⟨rfl, rfl, rfl, rfl, rfl, rfl⟩

/-! ### Steps (R89, R183, R184, R479) -/

section

variable {s t u : State} {i : Instr}

/-- A step of a device that is not held carries out what is due, and then what passes with every step. -/
theorem step_due (free : s.held = false) (due : s.due = (some i, t)) (runs : exec i t = .next u) :
    step s = .next (({ u with tick := t.tick, next := t.next } : State).settle true) := by
  simp only [step, free, due, runs, Bool.false_eq_true, if_false]

/-- The instruction at the program counter of a core that runs is due at its turn. -/
theorem coreDue_decoded {p : Nat} {bs : List Byte} (runs : s.coreRuns p = true) (task : (s.core p).running = true)
    (stopped : (s.core p).stopped = false) (waiting : (s.core p).waiting = none) (fetched : fetchLine p s = .ok bs t)
    (decoded : Decode.surveyor (BitVec.ofNat 32 (field bs ((s.core p).pc.toNat % 64) 4)) = .ok i) :
    s.coreDue p = (some i, t) := by
  simp [State.coreDue, runs, task, stopped, waiting, fetched, decoded]

/-- The operation of the slot that fires is due at the turn of a cell that runs. -/
theorem cellDue_decoded {p m x k : Nat} (runs : s.cellRuns p m = true) (fires : s.firingOf p m = some (x, k))
    (decoded : Decode.cell ((s.cell p m).slotWords x k).1 = .ok i) :
    s.cellDue p m = (some i, { s with next := .firing p m x k }) := by
  simp [State.cellDue, runs, fires, decoded]

end

/-- Settles O46: a step is `step_due` of what the turn's agent has due; no event's turn is held. -/
theorem stepRunsInstruction : Obligations.StepRunsInstruction := by
  refine ⟨fun s t u p bs i free turn runs task stopped waiting fetched decoded done => ?_,
    fun s u p m x k i free turn runs fires decoded done => ?_, fun s u i turn done => ?_, fun s held => if_pos held⟩
  · refine step_due free ?_ done
    rw [State.due, turn]
    exact coreDue_decoded runs task stopped waiting fetched decoded
  · refine step_due (t := { s with next := .firing p m x k }) free ?_ done
    rw [State.due, turn]
    exact cellDue_decoded runs fires decoded
  · have free : s.held = false := by simp [State.held, turn]
    have due : s.due = (some i, s) := by rw [State.due, turn]
    rw [← turn]
    exact step_due free due done

/-! ### Loads (R118, R465) -/

section

variable {s s1 s2 : State} {i : Instr} {size : Nat} {signed : Bool} {rd ra : Reg} {sc : Scope} {off : BitVec 12} {m : Mapping}

/-- A load of bytes of the device writes them extended. -/
theorem load_read {bs : List Byte} (fits : (s.offsetAddress ra off size).toNat % size = 0)
    (translates : translate (.core s.here) (s.offsetAddress ra off size) .read s = .ok m s1)
    (inside : ∀ x, placeOf m.pa ≠ .host x)
    (reads : readAt (.core s.here) sc m size (s.offsetAddress ra off size) s1 = .ok bs s2) :
    s.load i size signed rd ra sc off = .next (s2.writeReg rd (extend signed bs)) := by
  refine attempt_ok ((act_bind_ok (aligned_ok fits)).trans ((act_bind_ok translates).trans ?_))
  cases place : placeOf m.pa with
  | host x => exact absurd place (inside x)
  | _ => exact act_bind_ok reads

/-- A request of the running core takes a tag that is there, and the core waits (R462). -/
theorem coreAsks_tag {q : HostRequest} {sent : List HostSend} (tag : s.hostFull = false) :
    coreAsks q sent s = .ok () ((s.askHost q sent).onCore s.here fun c => { c with waiting := some s.host.nextTag }) := by
  unfold coreAsks
  rw [act_bind_ok (get_eq s)]
  simp only [tag, Bool.false_eq_true, if_false]
  rfl

/-- A load of host memory asks the host, and its core waits. -/
theorem load_host {x : Nat} (fits : (s.offsetAddress ra off size).toNat % size = 0)
    (translates : translate (.core s.here) (s.offsetAddress ra off size) .read s = .ok m s1)
    (outside : placeOf m.pa = .host x) (tag : s1.hostFull = false) :
    s.load i size signed rd ra sc off = .next ((s1.askHost (.coreLoad s.here rd size signed (s.offsetAddress ra off size) x)
      [.read x size]).onCore s1.here fun c => { c with waiting := some s1.host.nextTag }) := by
  refine attempt_ok ((act_bind_ok (aligned_ok fits)).trans ((act_bind_ok translates).trans ?_))
  rw [outside]
  exact coreAsks_tag tag

/-- A misaligned load traps. -/
theorem load_misaligned (misfits : (s.offsetAddress ra off size).toNat % size ≠ 0) :
    s.load i size signed rd ra sc off = .next (s.trapEntry s.here 4 (s.offsetAddress ra off size) 0 false) :=
  attempt_misaligned misfits

end

/-- Settles O12: the seven loads are one operation at their sizes. -/
theorem loads : Obligations.Loads := by
  intro s rd ra sc off
  refine ⟨?_, ?_, ?_, ?_, ?_, ?_, ?_⟩ <;>
    exact ⟨fun _ _ _ _ => load_read, fun _ _ _ => load_host, load_misaligned⟩

/-! ### Control registers (R91, R92, R133) -/

section

variable {s : State} {i : Instr} {rd : Reg} {num : BitVec 16} {old : Word} {g : Word → Word}

/-- A control register is read. -/
theorem csr_reads (known : s.csrRead s.here num.toNat = some old) : s.csr i rd num none = .next (s.writeReg rd old) :=
  attempt_ok (by rw [known]; rfl)

/-- A read-write register takes a value that keeps its reserved bits zero. -/
theorem csr_writes (known : s.csrRead s.here num.toNat = some old) (writable : csrReadOnly num.toNat = false)
    (legal : csrValueOk num.toNat (g old) = true) :
    s.csr i rd num (some g) = .next ((s.onCore s.here fun c => c.csrSet num.toNat (g old)).writeReg rd old) := by
  refine attempt_ok ?_
  rw [known]
  exact (act_bind_ok (check_of (by rw [writable]; rfl))).trans (act_bind_ok (check_of legal))

/-- A check that fails is a fault. -/
theorem check_fails {c : Bool} {code : Byte} {value : Word} (h : c = false) :
    Machine.check c code value s = .error (.fault code value) s := by
  rw [h]
  rfl

/-- A number outside the table is illegal. -/
theorem csr_unknown {f : Option (Word → Word)} (unknown : s.csrRead s.here num.toNat = none) :
    s.csr i rd num f = .next (s.trapEntry s.here 3 (instrWord i) 0 false) :=
  attempt_fault (t := s) (c := codeIllegal) (v := 0) (by rw [unknown]; rfl)

/-- A value that would leave a reserved bit nonzero is illegal. -/
theorem csr_reserved (known : s.csrRead s.here num.toNat = some old) (writable : csrReadOnly num.toNat = false)
    (illegal : csrValueOk num.toNat (g old) = false) :
    s.csr i rd num (some g) = .next (s.trapEntry s.here 3 (instrWord i) 0 false) := by
  refine attempt_fault (t := s) (c := codeIllegal) (v := 0) ?_
  rw [known]
  exact (act_bind_ok (check_of (by rw [writable]; rfl))).trans (act_bind_error (check_fails illegal))

/-- A write of a read-only register raises `PRIVILEGE` with its number. -/
theorem csr_readOnly (known : s.csrRead s.here num.toNat = some old) (readOnly : csrReadOnly num.toNat = true) :
    s.csr i rd num (some g) = .next (s.trapEntry s.here 5 (num.setWidth 64) 0 false) := by
  refine attempt_fault_legal (t := s) (c := codePrivilege) ?_ (by decide)
  rw [known]
  exact act_bind_error (check_fails (by rw [readOnly]; rfl))

/-- The read-write registers are in the table. -/
theorem csrRead_writable (writable : num = 1 ∨ num = 2 ∨ num = 3 ∨ num = 5 ∨ num = 7 ∨ num = 8) :
    s.csrRead s.here num.toNat = some ((s.csrRead s.here num.toNat).getD 0) ∧ csrReadOnly num.toNat = false := by
  rcases writable with rfl | rfl | rfl | rfl | rfl | rfl <;> exact ⟨rfl, rfl⟩

/-- The read-only registers are in the table. -/
theorem csrRead_readOnly (readOnly : num = 0 ∨ num = 4 ∨ num = 6) :
    s.csrRead s.here num.toNat = some ((s.csrRead s.here num.toNat).getD 0) ∧ csrReadOnly num.toNat = true := by
  rcases readOnly with rfl | rfl | rfl <;> exact ⟨rfl, rfl⟩

/-- Numbers above 8 are outside the table. -/
theorem csrRead_beyond (beyond : 8 < num.toNat) : s.csrRead s.here num.toNat = none := by
  unfold State.csrRead
  split
  iterate 9 · omega
  · rfl

/-! The four instructions as that operation. -/

variable {ra : Reg}

theorem exec_csrr : exec (.csrr rd num) s = s.csr (.csrr rd num) rd num none := rfl

theorem exec_csrw : exec (.csrw rd ra num) s = s.csr (.csrw rd ra num) rd num (some fun _ => s.reg ra) := rfl

theorem exec_csrs (other : ra ≠ 0) :
    exec (.csrs rd ra num) s = s.csr (.csrs rd ra num) rd num (some fun v => v ||| s.reg ra) :=
  congrArg (s.csr (.csrs rd ra num) rd num) (if_neg other)

theorem exec_csrc (other : ra ≠ 0) :
    exec (.csrc rd ra num) s = s.csr (.csrc rd ra num) rd num (some fun v => v &&& ~~~(s.reg ra)) :=
  congrArg (s.csr (.csrc rd ra num) rd num) (if_neg other)

/-- `CSRS` and `CSRC` are illegal at a number outside the table, whether they would write or only read. -/
theorem exec_csr_unknown (unknown : s.csrRead s.here num.toNat = none) :
    exec (.csrs rd ra num) s = .next (s.trapEntry s.here 3 (instrWord (.csrs rd ra num)) 0 false) ∧
    exec (.csrc rd ra num) s = .next (s.trapEntry s.here 3 (instrWord (.csrc rd ra num)) 0 false) :=
  ⟨csr_unknown (i := .csrs rd ra num) (rd := rd) unknown, csr_unknown (i := .csrc rd ra num) (rd := rd) unknown⟩

end

/-- Settles O21: the four instructions are one operation on the register that the number names, which writes or only
reads. -/
theorem controlRegisters : Obligations.ControlRegisters := by
  intro s rd ra num
  have reads (n : BitVec 16) {v : Word} (known : s.csrRead s.here n.toNat = some v) :
      exec (.csrr rd n) s = .next (s.writeReg rd v) := exec_csrr.trans (csr_reads known)
  refine ⟨reads 0 rfl, reads 1 rfl, reads 2 rfl, reads 3 rfl, reads 4 rfl, reads 5 rfl, reads 6 rfl, reads 7 rfl, reads 8 rfl,
    fun writable legal => ?_, fun writable other legal => ?_, fun writable other legal => ?_,
    fun v known => ⟨?_, ?_⟩, ⟨fun beyond => ?_, fun writable illegal => ?_, fun writable other illegal => ?_,
    fun writable other illegal => ?_⟩, fun listed => ⟨?_, fun other => ⟨?_, ?_⟩⟩⟩
  · obtain ⟨known, writable⟩ := csrRead_writable writable
    exact exec_csrw.trans (csr_writes known writable legal)
  · obtain ⟨known, writable⟩ := csrRead_writable writable
    exact (exec_csrs other).trans (csr_writes known writable legal)
  · obtain ⟨known, writable⟩ := csrRead_writable writable
    exact (exec_csrc other).trans (csr_writes known writable legal)
  · exact csr_reads (i := .csrs rd 0 num) known
  · exact csr_reads (i := .csrc rd 0 num) known
  · have unknown := csrRead_beyond (s := s) beyond
    exact ⟨exec_csrr.trans (csr_unknown unknown), exec_csrw.trans (csr_unknown unknown), exec_csr_unknown unknown⟩
  · obtain ⟨known, writable⟩ := csrRead_writable writable
    exact exec_csrw.trans (csr_reserved known writable illegal)
  · obtain ⟨known, writable⟩ := csrRead_writable writable
    exact (exec_csrs other).trans (csr_reserved known writable illegal)
  · obtain ⟨known, writable⟩ := csrRead_writable writable
    exact (exec_csrc other).trans (csr_reserved known writable illegal)
  · obtain ⟨known, readOnly⟩ := csrRead_readOnly listed
    exact exec_csrw.trans (csr_readOnly known readOnly)
  · obtain ⟨known, readOnly⟩ := csrRead_readOnly listed
    exact (exec_csrs other).trans (csr_readOnly known readOnly)
  · obtain ⟨known, readOnly⟩ := csrRead_readOnly listed
    exact (exec_csrc other).trans (csr_readOnly known readOnly)

/-! ### Posts, bindings, wakeups and priorities (R95, R102, R128 to R132) -/

section

variable {s : State} {rd ra rb : Reg}

/-- The packet that `POST` enters. -/
def posted (s : State) (o : Nat) (rd ra rb : Reg) : Packet :=
  let d := s.reg rd
  ⟨o + wbits d 15 7, d.extractLsb' 0 7, wbit d 16, s.reg ra, if wbit d 16 then s.reg rb else 0,
    BitVec.ofNat 16 s.link.number, s.here, false, (s.core s.here).fences⟩

/-- `POST` to a parcel of the region, with a place in the outbound queue. -/
theorem execPost_enters {o : Nat} {r : Region} (region : s.regionOf s.here = some (o, r))
    (reserved : wbits (s.reg rd) 63 17 = 0) (inside : wbits (s.reg rd) 15 7 < 2 ^ r.shape)
    (place : (s.core s.here).outbound.length < 16) :
    execPost rd ra rb s = .next ((s.onCore s.here fun c =>
      { c with outbound := c.outbound ++ [posted s o rd ra rb] }).advance s.here) := by
  refine attempt_ok ((act_bind_ok (check_of (decide_eq_true reserved))).trans ((act_bind_ok (myRegion_ok region)).trans
    ((act_bind_ok (check_of (decide_eq_true inside))).trans ?_)))
  rw [if_neg (show ¬outboundEntries ≤ _ from Nat.not_le.mpr place)]
  rfl

/-- `BINDL` of a channel to an aligned handler. -/
theorem execBindl_binds (known : (s.reg rd).toNat < 128) (fits : (s.reg ra).toNat % 4 = 0) :
    execBindl rd ra rb s = .next ((s.onCore s.here fun c =>
      c.bind s.meridian.toNat (s.reg rd).toNat (s.reg ra) (s.reg rb)).advance s.here) := by
  have channel : wbits (s.reg rd) 63 7 = 0 := by
    rw [wbits, bits, Nat.div_eq_of_lt (b := 2 ^ 7) known, Nat.zero_mod]
  exact attempt_ok ((act_bind_ok (check_of (decide_eq_true channel))).trans (act_bind_ok (aligned_ok fits)))

/-- An arming instruction whose reserved bits are zero. -/
theorem armBy_arms {i : Instr} {cond : Nat} {arg time control : Word} (clear : control &&& wakeReserved cond = 0) :
    s.armBy i cond arg time control = .next ((s.arm s.here cond arg time control).advance s.here) :=
  attempt_ok (act_bind_ok (check_of (decide_eq_true clear)))

/-- `CHP` of a group to a class. -/
theorem execChp_writes (group : (s.reg ra).toNat ≤ 31) (cls : (s.reg rb).toNat ≤ 3) :
    execChp ra rb s = .next ((s.onCore s.here fun c => { c with
      chprio := setF c.chprio (2 * (s.reg ra).toNat + 1) (2 * (s.reg ra).toNat) (s.reg rb).toNat }).advance s.here) :=
  attempt_ok (act_bind_ok (check_of (by rw [decide_eq_true group, decide_eq_true cls]; rfl)))

end

/-- Settles O22: each instruction passes its checks and makes one update. -/
theorem taskInstructions : Obligations.TaskInstructions := by
  intro s rd ra rb
  refine ⟨fun o r region reserved inside place => ⟨posted s o rd ra rb, execPost_enters region reserved inside place, rfl, ?_,
    rfl, rfl, rfl, rfl, rfl⟩, execBindl_binds, armBy_arms (cond := 1),
    armBy_arms (cond := 2), armBy_arms (cond := 3), execChp_writes⟩
  exact toNat_fld (s.reg rd) 0 7

end Sys2Proof.Proofs

/-! The proof of the obligation about Traverse requests. -/

namespace Sys2Proof.Proofs

open Sys2Proof Sys2Proof.Machine Sys2Proof.Laws

/-! ### The regions through a release and a read (R71, R72) -/

section

variable {s t : State} {u : Writer} {sc : Scope} {m : Mapping} {n : Nat} {va : Word} {d : List Byte}

/-- A fold of steps that leave the regions alone leaves them alone. -/
theorem foldl_regions {α : Type} {f : State → α → State} (h : ∀ t a, (f t a).regions = t.regions) (l : List α)
    (s : State) : (l.foldl f s).regions = s.regions :=
  List.foldlRecOn l f (motive := fun t => t.regions = s.regions) rfl fun t kept a _ => (h t a).trans kept

theorem serveHolds_regions (s : State) (x k : Nat) : (s.serveHolds x k).regions = s.regions := by
  unfold State.serveHolds
  dsimp only
  split <;> rfl

theorem writeOn_regions (s : State) (key sector : Nat) (up : Option Nat) :
    (s.writeOn key sector up).regions = s.regions := by
  unfold State.writeOn
  dsimp only
  split
  · rfl
  · split
    · rfl
    · exact serveHolds_regions ..

theorem drainPath_regions (s : State) (u : Writer) (sc : Scope) : (s.drainPath u sc).regions = s.regions := by
  unfold State.drainPath
  split
  · exact foldl_regions (fun t e => foldl_regions (fun t2 x => writeOn_regions ..) _ t) _ s
  · rfl

/-- A release moves bytes between slices and memory; the regions stay. -/
theorem release_regions (s : State) (u : Writer) (sc : Scope) : (s.release u sc).regions = s.regions := by
  rw [← drainPath_regions s u sc]
  cases u <;> rfl

theorem fill_regions (s : State) (u : Writer) (lvl sector : Nat) (path : List (Nat × Nat)) :
    (s.fill u lvl sector path).regions = s.regions := by
  induction path with
  | nil => rfl
  | cons e rest ih =>
    unfold State.fill
    dsimp only
    split
    · exact ih
    · exact ih

theorem scopedRead_regions (s : State) (u : Writer) (sc : Scope) (noalloc : Bool) (pa n : Nat) :
    (s.scopedRead u sc noalloc pa n).2.regions = s.regions := by
  unfold State.scopedRead
  dsimp only
  split
  · rfl
  · exact foldl_regions (fun t x => fill_regions ..) _ s

/-- A check of a reservation that lets an access through changes nothing. -/
theorem reserveCheck_passes {pa : Nat} {a : Unit} (h : reserveCheck u pa n va s = .ok a t) : t = s := by
  unfold reserveCheck at h
  obtain ⟨_, _, here, h⟩ := act_bind_eq_ok h
  cases here
  rcases held : s.reserved u pa n with ⟨_ | stop, s1⟩
  · rw [held] at h; cases h; rfl
  · rw [held] at h; cases stop <;> cases h

theorem orRaise_passes {α : Type} {x : Except Byte α} {a : α} (h : orRaise va x s = .ok a t) : t = s := by
  cases x <;> cases h
  rfl

/-- A read behind a check of a reservation changes nothing. -/
theorem reserved_read {pa : Nat} {bytes : List Byte}
    (h : (do reserveCheck u pa n va; pure bytes : Act (List Byte)) s = .ok d t) : t = s := by
  obtain ⟨_, s1, free, done⟩ := act_bind_eq_ok h
  cases done
  exact reserveCheck_passes free

theorem TranslatedFrom.regions (h : TranslatedFrom s t) : t.regions = s.regions := by obtain ⟨_, _, _, rfl⟩ := h; rfl

/-- A read may leave copies in slices and ask the host; the regions stay. -/
theorem readAt_regions (h : readAt u sc m n va s = .ok d t) : t.regions = s.regions := by
  unfold readAt at h
  obtain ⟨_, _, here, h⟩ := act_bind_eq_ok h
  cases here
  cases place : placeOf m.pa with
  | hbm => rw [place] at h; cases h; exact scopedRead_regions ..
  | parcel p off =>
    rw [place] at h
    dsimp only at h
    split at h
    · rw [reserved_read h]
    split at h
    · cases h; rfl
    split at h
    · cases h
    split at h
    · split at h
      · cases h
      · cases h; rfl
    split at h
    · split at h
      · rw [orRaise_passes h]
      · cases h
    split at h
    · cases h
    · rw [orRaise_passes h]
  | bank level node off =>
    rw [place] at h
    cases region : s.unitRegion u with
    | none => rw [region] at h; cases h
    | some x =>
      rw [region] at h
      dsimp only at h
      split at h
      · rw [reserved_read h]
      · cases h
  | control off => rw [place] at h; rw [orRaise_passes h]
  | host a => rw [place] at h; cases h; rfl
  | reserved => rw [place] at h; cases h

/-- A read at a virtual address leaves the regions as they were. -/
theorem readVa_regions (h : readVa u sc va n s = .ok d t) : t.regions = s.regions := by
  obtain ⟨m, s1, translates, reads⟩ := act_bind_eq_ok h
  rw [readAt_regions reads, (translatedFrom_translate translates).regions]

end

/-! ### Requests of the Traverse engine (R147 to R151, R156) -/

section

variable {s s1 : State} {kind : TravKind} {c va : Word} {d : List Byte} {p slot : Nat} {r : TravSlot}

/-- The request that a core issues, as captured (R147). -/
def capturedRequest (s : State) (kind : TravKind) (c : Word) (d : List Byte) : TravSlot :=
  ⟨kind, c, d, (s.parcel s.here).serial, (s.core s.here).flags.getLsbD 0, 0, 0, s.newPromise, false, false, none, [],
    false, []⟩

/-- A captured request as its slot takes it: with the units that it will perform and its staged command (R156, R157). -/
def takenRequest (s s1 : State) (r : TravSlot) : TravSlot :=
  { r with total := s1.travUnits s.here r, follow := if wbit r.control 25 then (s.parcel s.here).staged else none }

/-- What the control word and the descriptor's address of a request must be (R147, R148). -/
def RequestAllowed (kind : TravKind) (c va : Word) : Prop :=
  wbits c 63 30 = 0 ∧ wbits c 11 9 = 0 ∧ (kind = .feed ∨ wbits c 29 26 = 0) ∧ wbits c 24 21 ≤ 6 ∧
  (wbit c 20 = true → wbit c 19 = true) ∧ (wbit c 8 = true → wbit c 7 = true) ∧
  (wbit c 8 = false → wbit c 7 = true → wbits c 6 0 = 0) ∧ ¬(kind = .fill ∧ wbit c 8 = true) ∧
  ¬(kind = .red ∧ wbit c 7 = false) ∧ ¬(kind = .feed ∧ wbit c 7 = true) ∧ va.toNat % 32 = 0

/-- The reserved bits of an allowed control word are zero. -/
theorem RequestAllowed.reserved (h : RequestAllowed kind c va) :
    (wbits c 63 30 = 0 && wbits c 11 9 = 0 && (kind = .feed || wbits c 29 26 = 0)) = true := by
  obtain ⟨high, mid, ring, -⟩ := h
  simp [high, mid, ring]

/-- The fields of an allowed control word go together. -/
theorem RequestAllowed.fields (h : RequestAllowed kind c va) :
    ((!wbit c 20 || wbit c 19) && (!wbit c 8 || wbit c 7) && (wbit c 8 || !wbit c 7 || wbits c 6 0 = 0)) = true := by
  obtain ⟨-, -, -, -, publish, source, whole, -⟩ := h
  cases tensor : wbit c 7 <;> cases buffer : wbit c 8 <;> simp_all [imp_iff_not_or]

/-- The ends of an allowed request are ones that its kind has. -/
theorem RequestAllowed.suits (h : RequestAllowed kind c va) :
    (!(kind = .fill && wbit c 8) && !(kind = .red && !wbit c 7) && !(kind = .feed && wbit c 7)) = true := by
  obtain ⟨-, -, -, -, -, -, -, fill, red, feed, -⟩ := h
  simp_all [imp_iff_not_or]

theorem RequestAllowed.scope (h : RequestAllowed kind c va) : wbits c 24 21 ≤ 6 := by
  obtain ⟨-, -, -, scope, -⟩ := h
  exact scope

theorem RequestAllowed.aligned (h : RequestAllowed kind c va) : va.toNat % 32 = 0 := by
  obtain ⟨-, -, -, -, -, -, -, -, -, -, aligned⟩ := h
  exact aligned

/-- An allowed reduction writes a tensor (R151). -/
theorem RequestAllowed.reduces (h : RequestAllowed kind c va) :
    (capturedRequest s kind c d).kind = .red → (capturedRequest s kind c d).toTensor = true := by
  intro (k : kind = .red)
  obtain ⟨-, -, -, -, -, -, -, -, red, -⟩ := h
  have tensor : wbit c 7 = true := by simpa [k] using red
  simp [TravSlot.toTensor, capturedRequest, k, tensor]

/-- The rest of an instruction on the words of its request's pattern, which a reduction counts in the legend as it stood
at issue. -/
def onIssueWords (s : State) (kind : TravKind) (p : Nat) (r : TravSlot) (rest : Nat → Act Unit) : Act Unit :=
  match kind with
  | .red => pure (patWords (s.legendAt p r.srcIndex) r.counts) >>= rest
  | _ => unitCount p r >>= rest

/-- A request in its slot, with what it takes for itself: entries, a staged command and an overlay (R155, R156, R78). -/
def withRequest (st : State) (p slot : Nat) (r r' : TravSlot) : State :=
  let st1 := (st.takeEntries p slot r).setTrav p slot r'
  let st2 := st1.onParcel p fun y =>
    { y with serial := y.serial + 1, trvFault := y.trvFault.erase r.identity,
             staged := if wbit r.control 25 then none else y.staged }
  if r.shadow then st2.openOverlay p (!r.toTensor) (if r.toTensor then r.dstIndex else r.handle) else st2

theorem trav_onParcel {f : Parcel → Parcel} {q : Nat} (keeps : ∀ x, (f x).travs = x.travs) :
    (s.onParcel q f).trav p slot = s.trav p slot := by
  rw [State.trav, parcel_onParcel]
  split
  · rename_i e; subst e; rw [keeps]; rfl
  · rfl

theorem trav_setTrav : (s.setTrav p slot r).trav p slot = some r := by
  rw [State.trav, State.setTrav, parcel_onParcel, if_pos rfl, find_put, if_pos rfl]

theorem trav_openOverlay (q : Nat) (buffer : Bool) (index : Nat) :
    (s.openOverlay q buffer index).trav p slot = s.trav p slot := by
  unfold State.openOverlay
  split <;> rfl

theorem trav_writeReg (rd : Reg) (v : Word) : (s.writeReg rd v).trav p slot = s.trav p slot :=
  trav_onParcel fun _ => rfl

/-- The slot holds the request that was put there. -/
theorem trav_withRequest (r' : TravSlot) : (withRequest s p slot r r').trav p slot = some r' := by
  unfold withRequest
  dsimp only
  split
  · refine (trav_openOverlay ..).trans ((trav_onParcel ?_).trans trav_setTrav)
    intro; rfl
  · refine (trav_onParcel ?_).trans trav_setTrav
    intro; rfl

/-- The scopes of control words are 0 to 6 (R108). -/
theorem scopeField_ok {code : Nat} (known : code ≤ 6) : scopeField code s = .ok (scopeOfCode code) s := by
  interval_cases code <;> rfl

/-- A legend that no region changed reads as before. -/
theorem legendAt_congr (same : s1.regions = s.regions) (p i : Nat) : s1.legendAt p i = s.legendAt p i := by
  rw [State.legendAt, State.regionOf, same]
  rfl

/-- The words that an instruction counts are those of the request, where its read left the regions. -/
theorem onIssueWords_ok {rest : Nat → Act Unit} (same : s1.regions = s.regions) (describes : s1.describes p r = true)
    (tensor : r.kind = .red → r.toTensor = true) :
    onIssueWords s r.kind p r rest s1 = rest (s1.travWords p r) s1 := by
  have counted := unitCount_ok describes tensor
  unfold State.travUnits at counted
  unfold onIssueWords
  cases k : r.kind with
  | red =>
    rw [State.travWords, k, if_neg (by decide), legendAt_congr same]
    rfl
  | _ => exact act_bind_ok (by simpa only [k, reduceCtorEq, if_false] using counted)

/-- A request that passes every check takes its slot. -/
theorem issueTrav_takes {i : Instr} {rd ra rb : Reg} (allowed : RequestAllowed kind (s.reg ra) (s.reg rb))
    (reads : readVa (.engine s.here) (scopeOfCode (wbits (s.reg ra) 24 21)) (s.reg rb) 32
      (s.release (.core s.here) (scopeOfCode (wbits (s.reg ra) 24 21))) = .ok d s1)
    (describes : s1.describes s.here (capturedRequest s kind (s.reg ra) d) = true)
    (names : s1.namesEntries s.here (capturedRequest s kind (s.reg ra) d) = true)
    (staged : wbit (s.reg ra) 25 = true → (s.parcel s.here).staged.isSome = true)
    (free : s.freeTrav s.here = some slot) :
    ∃ t, s.issueTrav i kind rd ra rb = .next t ∧
      t.trav s.here slot = some (takenRequest s s1 (capturedRequest s kind (s.reg ra) d)) ∧
      t.reg rd = (if rd = 0 then 0 else s.newPromise) := by
  have tensor := allowed.reduces (s := s) (d := d)
  have same : s1.regions = s.regions := (readVa_regions reads).trans (release_regions ..)
  refine ⟨(withRequest s1 s.here slot (capturedRequest s kind (s.reg ra) d)
    (takenRequest s s1 (capturedRequest s kind (s.reg ra) d))).writeReg rd s.newPromise, attempt_ok ?_,
    (trav_writeReg ..).trans (trav_withRequest _), by rw [reg_writeReg, if_pos rfl]⟩
  refine (act_bind_ok (check_of allowed.reserved)).trans ?_
  refine (act_bind_ok (scopeField_ok allowed.scope)).trans ?_
  refine (act_bind_ok (check_of allowed.fields)).trans ?_
  refine (act_bind_ok (check_of allowed.suits)).trans ?_
  refine (act_bind_ok (aligned_ok allowed.aligned)).trans ?_
  refine (act_bind_ok (k := issueRelease _) rfl).trans ?_
  refine (act_bind_ok reads).trans ?_
  refine (act_bind_ok (checkDescriptor_ok describes)).trans ?_
  refine (onIssueWords_ok same describes tensor).trans ?_
  refine (act_bind_ok (checkEntries_ok names)).trans ?_
  refine (act_bind_ok (check_of ?_)).trans ?_
  · cases follows : wbit (s.reg ra) 25 with
    | false => rfl
    | true => exact staged follows
  refine (act_bind_ok (unitCount_ok describes tensor)).trans ?_
  rw [free]
  rfl

end

/-- Settles O28: every kind of request passes its checks and takes the slot that is free. -/
theorem traverseRequests : Obligations.TraverseRequests := by
  intro s rd ra rb
  exact ⟨fun d s1 slot => issueTrav_takes, fun d s1 slot => issueTrav_takes, fun d s1 slot => issueTrav_takes,
    fun d s1 slot => issueTrav_takes, fun d s1 slot => issueTrav_takes, fun d s1 slot => issueTrav_takes⟩

end Sys2Proof.Proofs

/-! The proofs of the obligations about the Surveyor's arithmetic, jumps, atomics and environment calls. -/

namespace Sys2Proof.Proofs

open Sys2Proof Sys2Proof.Machine Sys2Proof.Laws

/-! ### Arithmetic (R115 to R117) -/

section

variable {s : State} {i : Instr} {f : Word → Word → Word} {rd ra rb : Reg}

/-- A division by another number than 0 completes. -/
theorem divide_nonzero (nonzero : s.reg rb ≠ 0) :
    s.divide i f rd ra rb = .next (s.writeReg rd (f (s.reg ra) (s.reg rb))) :=
  attempt_ok (act_bind_ok (check_of (decide_eq_true nonzero)))

/-- A division by 0 traps with the dividend. -/
theorem divide_zero (zero : s.reg rb = 0) : s.divide i f rd ra rb = .next (s.trapEntry s.here 0x13 (s.reg ra) 0 false) :=
  attempt_fault_legal (t := s) (c := codeIntDivzero) (act_bind_error (check_fails (decide_eq_false (not_not.mpr zero))))
    (by decide)

/-- The quotient of signed words, rounded toward zero. -/
theorem sdiv_eq_tdiv (a b : Word) : a.sdiv b = BitVec.ofInt 64 (a.toInt.tdiv b.toInt) :=
  BitVec.eq_of_toInt_eq (by rw [BitVec.toInt_sdiv, BitVec.toInt_ofInt])

/-- The remainder of signed words, with the sign of the dividend. -/
theorem srem_eq_tmod (a b : Word) : a.srem b = BitVec.ofInt 64 (a.toInt.tmod b.toInt) := by
  rw [← BitVec.toInt_srem, BitVec.ofInt_toInt]

/-- An immediate shift count is the whole of its six bits. -/
theorem shiftCount_setWidth (sh : BitVec 6) : shiftCount (sh.setWidth 64) = sh.toNat := by
  unfold shiftCount
  rw [BitVec.toNat_setWidth]
  omega

end

/-- Settles O1: each form writes its operation; the divisions pass their check, and the comparisons are those of the numbers
that the words stand for. -/
theorem registerArithmetic : Obligations.RegisterArithmetic := by
  intro s rd ra rb a b
  simp only [← sdiv_eq_tdiv, ← srem_eq_tmod, ← BitVec.udiv_def, ← BitVec.umod_def, ← BitVec.slt_iff_toInt_lt,
    ← BitVec.ult_iff_toNat_lt]
  exact ⟨rfl, rfl, rfl, rfl, rfl, divide_nonzero, divide_nonzero, divide_nonzero, divide_nonzero, rfl, rfl, rfl, rfl, rfl,
    rfl, rfl, rfl, rfl, rfl, rfl, rfl, rfl, rfl, rfl⟩

/-- Settles O3: the four divisions share one check, which a divisor of -1 passes. -/
theorem divisionByZero : Obligations.DivisionByZero := by
  intro s rd ra rb
  refine ⟨fun zero => ⟨divide_zero zero, divide_zero zero, divide_zero zero, divide_zero zero⟩, fun lowest minusOne => ?_⟩
  have nonzero : s.reg rb ≠ 0 := by
    rw [minusOne]
    decide
  have quotient : (s.reg ra).sdiv (s.reg rb) = 0x8000000000000000 := by
    rw [lowest, minusOne]
    decide
  have remainder : (s.reg ra).srem (s.reg rb) = 0 := by
    rw [lowest, minusOne]
    decide
  exact ⟨quotient ▸ divide_nonzero nonzero, remainder ▸ divide_nonzero nonzero⟩

/-- Settles O4: each immediate form is its register form's operation on the extended immediate. -/
theorem immediateArithmetic : Obligations.ImmediateArithmetic := by
  intro s rd ra imm sh a sx zx
  simp only [← shiftCount_setWidth sh, ← BitVec.slt_iff_toInt_lt, ← BitVec.ult_iff_toNat_lt]
  exact ⟨rfl, rfl, rfl, rfl, rfl, rfl, rfl, rfl, rfl, rfl, rfl⟩

/-! ### Jumps (R127) -/

/-- Settles O7: each jump checks its target, then links and goes there. -/
theorem jumps : Obligations.Jumps := by
  intro s rd ra off imm pc t u
  exact ⟨fun fits => attempt_ok (act_bind_ok (aligned_ok fits)), fun fits => attempt_ok (act_bind_ok (aligned_ok fits)),
    attempt_misaligned, attempt_misaligned⟩

/-! ### Environment calls (R135) -/

section

variable {s : State} {ra rb : Reg} {o : Nat} {r : Region}

/-- What `ECALL` does in a region, by its code: it logs, it only goes on where an exit was asked for, it exits or it aborts. -/
def called (s : State) (o : Nat) (r : Region) (code value : Word) : State :=
  if code = 2 then (s.log 0 0 s.here r.asid value).advance s.here
  else if r.exitAsked then s.advance s.here
  else if code = 0 then ((s.release (.core s.here) .y).onRegion o fun r =>
    { r with exitAsked := true, status := value.setWidth 32 }).advance s.here
  else s.endRegion o 1 0 (value.setWidth 32) 0 0 true

theorem execEcall_called (region : s.regionOf s.here = some (o, r)) (known : (s.reg ra).toNat ≤ 2) :
    execEcall ra rb s = .next (called s o r (s.reg ra) (s.reg rb)) := by
  refine attempt_ok ((act_bind_ok (check_of (decide_eq_true known))).trans ((act_bind_ok (myRegion_ok region)).trans ?_))
  unfold called
  dsimp only
  split_ifs <;> rfl

/-- A code above 2 is illegal. -/
theorem execEcall_unknown (unknown : 2 < (s.reg ra).toNat) :
    execEcall ra rb s = .next (s.trapEntry s.here 3 (instrWord (.ecall ra rb)) 0 false) :=
  attempt_fault (t := s) (c := codeIllegal) (v := 0)
    (act_bind_error (check_fails (decide_eq_false (Nat.not_le.mpr unknown))))

end

/-- Settles O23: the code and the region's exit choose the branch of `called`. -/
theorem ecall : Obligations.Ecall := by
  intro s ra rb o r region
  have runs : (s.reg ra).toNat ≤ 2 → exec (.ecall ra rb) s = .next (called s o r (s.reg ra) (s.reg rb)) :=
    execEcall_called region
  refine ⟨fun log => ?_, fun exit fresh => ?_, fun abort fresh => ?_, fun few asked => ?_, execEcall_unknown⟩
  · rw [runs (by rw [log]; decide), called, if_pos log]
  · rw [runs (by rw [exit]; decide), called, exit, fresh]
    rfl
  · rw [runs (by rw [abort]; decide), called, abort, fresh]
    rfl
  · have other : s.reg ra ≠ 2 := fun two => by rw [two] at few; exact absurd few (by decide)
    rw [runs (few.trans (by decide)), called, if_neg other, asked]
    rfl

/-! ### Atomics (R123, R124, R462, R465) -/

section

variable {s s1 s2 t : State} {u : Writer} {i : Instr} {op : AtomOp} {signed : Bool} {rd ra rb : Reg} {w : AmoWidth}
  {sc : Scope} {m : Mapping} {n b old : Nat} {va : Word}

/-- What is left where an atomic has stored what it makes of the old value, where it stores at all (R123). -/
def stored (t : State) (write : Nat → State) : Option Nat → State
  | some v => write v
  | none => t

/-- An atomic on HBM is performed at the home of its scope, the unit's own earlier stores of the sector first. -/
theorem atomicAt_hbm (place : placeOf m.pa = .hbm) :
    let lvl := scopeLevel u sc
    let s2 := s.pushSector u lvl m.pa
    let path := s2.path u (leafNoAllocate m.leaf) m.pa
    let home := path.filter fun e => lvl ≤ e.1
    let old := Decode.leNat ((List.range n).map fun k => s2.pathByte u lvl (m.pa / 32) (m.pa % 32 + k) home)
    atomicAt u sc m n op b va s =
      .ok old (stored s2 (fun v => s2.storeSector u lvl m.pa (Decode.leBytes n v) path) (op.apply (8 * n) old b)) := by
  have free : versionCheck u m n va s = .ok () s := by
    unfold versionCheck
    rw [act_bind_ok (get_eq s), place]
    rfl
  refine (act_bind_ok free).trans ((act_bind_ok (get_eq s)).trans ?_)
  rw [place]
  dsimp only
  generalize op.apply (8 * n) _ b = new
  cases new <;> rfl

/-- An atomic elsewhere in the device is performed at the holder of its bytes. -/
theorem atomicAt_elsewhere (place : placeOf m.pa ≠ .hbm) (free : versionCheck u m n va s = .ok () s1) :
    let old := Decode.leNat (s1.homeRead m.pa n)
    atomicAt u sc m n op b va s =
      .ok old (stored s1 (fun v => s1.homeWrite m.pa (Decode.leBytes n v)) (op.apply (8 * n) old b)) := by
  refine (act_bind_ok free).trans ((act_bind_ok (get_eq s1)).trans ?_)
  cases home : placeOf m.pa with
  | hbm => exact absurd home place
  | _ =>
    dsimp only
    generalize op.apply (8 * n) _ b = new
    cases new <;> rfl

/-- An atomic that is performed in the device writes the old value and goes on. -/
theorem atomic_performed (fits : (s.reg ra).toNat % amoBytes w = 0)
    (translates : translate (.core s.here) (s.reg ra) .atomic s = .ok m s1) (inside : ∀ x, placeOf m.pa ≠ .host x)
    (performed : atomicAt (.core s.here) sc m (amoBytes w) op (s.amoOperand w rb) (s.reg ra) s1 = .ok old t) :
    s.atomic i op signed rd ra rb w sc = .next ((t.amoResult s.here w signed rd old).advance s.here) := by
  refine attempt_ok ((act_bind_ok (aligned_ok fits)).trans ((act_bind_ok translates).trans ?_))
  cases place : placeOf m.pa with
  | host x => exact absurd place (inside x)
  | _ => exact act_bind_ok performed

theorem atomic_hbm (fits : (s.reg ra).toNat % amoBytes w = 0)
    (translates : translate (.core s.here) (s.reg ra) .atomic s = .ok m s1) (place : placeOf m.pa = .hbm) :
    let u := Writer.core s.here
    let lvl := scopeLevel u sc
    let s2 := s1.pushSector u lvl m.pa
    let path := s2.path u (leafNoAllocate m.leaf) m.pa
    let home := path.filter fun e => lvl ≤ e.1
    let n := amoBytes w
    let old := Decode.leNat ((List.range n).map fun k => s2.pathByte u lvl (m.pa / 32) (m.pa % 32 + k) home)
    let t := stored s2 (fun v => s2.storeSector u lvl m.pa (Decode.leBytes n v) path)
      (op.apply (8 * n) old (s.amoOperand w rb))
    s.atomic i op signed rd ra rb w sc = .next ((t.amoResult s.here w signed rd old).advance s.here) :=
  atomic_performed fits translates (fun _ => place ▸ Place.noConfusion) (atomicAt_hbm place)

theorem atomic_elsewhere (fits : (s.reg ra).toNat % amoBytes w = 0)
    (translates : translate (.core s.here) (s.reg ra) .atomic s = .ok m s1) (place : placeOf m.pa ≠ .hbm)
    (inside : ∀ x, placeOf m.pa ≠ .host x) (free : versionCheck (.core s.here) m (amoBytes w) (s.reg ra) s1 = .ok () s2) :
    let n := amoBytes w
    let old := Decode.leNat (s2.homeRead m.pa n)
    let t := stored s2 (fun v => s2.homeWrite m.pa (Decode.leBytes n v)) (op.apply (8 * n) old (s.amoOperand w rb))
    s.atomic i op signed rd ra rb w sc = .next ((t.amoResult s.here w signed rd old).advance s.here) :=
  atomic_performed fits translates inside (atomicAt_elsewhere place free)

/-- An atomic to host memory that the host performs is asked of it, and its core waits (R124, R462). -/
theorem atomic_asked {x cmp : Nat} {o : HostAtomic} (fits : (s.reg ra).toNat % amoBytes w = 0)
    (translates : translate (.core s.here) (s.reg ra) .atomic s = .ok m s1) (outside : placeOf m.pa = .host x)
    (request : op.hostRequest = some (o, cmp)) (enabled : s.host.atomicEnable = true) (tag : s1.hostFull = false) :
    s.atomic i op signed rd ra rb w sc = .next ((s1.askHost
      (.coreAmo s.here rd (amoBytes w) signed (s.reg ra) x o (s.amoOperand w rb) cmp) [.atomic x (amoBytes w)]).onCore s1.here
        fun c => { c with waiting := some s1.host.nextTag }) := by
  refine attempt_ok ((act_bind_ok (aligned_ok fits)).trans ((act_bind_ok translates).trans ?_))
  rw [outside, request]
  simp only [enabled, Bool.not_true, Bool.false_eq_true, if_false]
  exact coreAsks_tag tag

/-- An atomic to host memory that has no request there is illegal (R124). -/
theorem atomic_refused {x : Nat} (fits : (s.reg ra).toNat % amoBytes w = 0)
    (translates : translate (.core s.here) (s.reg ra) .atomic s = .ok m s1) (outside : placeOf m.pa = .host x)
    (noRequest : op.hostRequest = none) :
    s.atomic i op signed rd ra rb w sc = .next (s.trapEntry s.here 3 (instrWord i) 0 false) := by
  refine attempt_fault (t := s1) (c := codeIllegal) (v := s.reg ra)
    ((act_bind_ok (aligned_ok fits)).trans ((act_bind_ok translates).trans ?_))
  rw [outside, noRequest]
  rfl

end

/-- Settles O20: the ten instructions are one operation, which splits on where its address translates to. -/
theorem atomics : Obligations.Atomics := by
  refine ⟨?_, fun w old b cmp => ⟨rfl, rfl, rfl, rfl, rfl, congrArg some ((min_comm ..).trans (min_def_lt ..)).symm,
    congrArg some (max_def_lt ..).symm, rfl, rfl, rfl⟩⟩
  intro s rd ra rb w sc u va n b lvl done
  have each : ∀ i op signed, exec i s = s.atomic i op signed rd ra rb w sc → done i op signed op.hostRequest := by
    intro i op signed is
    dsimp only [done]
    rw [is]
    exact ⟨fun _ _ => atomic_hbm, fun _ _ _ => atomic_elsewhere,
      fun _ _ _ _ _ => atomic_asked, fun _ _ _ => atomic_refused, attempt_misaligned⟩
  exact ⟨each _ .add false rfl, each _ .swap false rfl, each _ (.cas (s.amoOperand w rd)) false rfl,
    each _ (.min true) true rfl, each _ (.max true) true rfl, each _ (.min false) false rfl, each _ (.max false) false rfl,
    each _ .and false rfl, each _ .or false rfl, each _ .xor false rfl⟩

end Sys2Proof.Proofs

/-! The proof of the obligation about stream instructions. -/

namespace Sys2Proof.Proofs

open Sys2Proof Sys2Proof.Machine Sys2Proof.Laws

/-! ### Stream slots (R136, R145) -/

section

variable {s s2 : State} {p slot : Nat} {outbound : Bool} {c : Word} {d : List Byte}

theorem stream_onStream (f : Stream → Stream) : (s.onStream p slot f).stream p slot = f (s.stream p slot) := by
  rw [State.stream, State.onStream, parcel_onParcel, if_pos rfl, look_put_same]
  rfl

theorem stream_writeReg (rd : Reg) (v : Word) (q : Nat) : (s.writeReg rd v).stream q slot = s.stream q slot := by
  rw [State.stream, State.writeReg, State.onCore, parcel_onParcel]
  split
  · next same => rw [same]; rfl
  · rfl

/-! ### Opening a stream (R137 to R140, R302, R333) -/

/-- The streams that a stream opened now waits for: those its core's barriers name and that are not over (R143). -/
def barriersOf (s : State) (p : Nat) : List Nat := (s.parcel p).barrier.filter fun n => n ∈ (s.parcel p).liveSerials

/-- The stream that an instruction opens: queued, with its pattern as captured. -/
def openedStream (s : State) (p : Nat) (outbound : Bool) (c : Word) (d : List Byte) : Stream :=
  ⟨1, outbound, c, wordOf (d.take 8), wordOf (d.drop 8), 0, 0, 0, (s.parcel p).serial, barriersOf s p⟩

/-- A stream in its slot. -/
def withStream (s : State) (p slot : Nat) (outbound : Bool) (c : Word) (d : List Byte) : State :=
  (s.onParcel p fun y => { y with serial := y.serial + 1, barrier := barriersOf s p }).onStream p slot fun _ =>
    openedStream s p outbound c d

/-- What a control word and the state must be for a stream to be opened (R137, R302, R333). -/
structure StreamAllowed (s : State) (outbound : Bool) (c va : Word) (e : Legend) : Prop where
  reserved : wbits c 63 31 = 0
  clear : wbit c 23 = false
  inner : outbound = true → wbits c 22 20 = 0
  scope : wbits c 15 12 ≤ 6
  legend : ((s.regionOf s.here).bind fun x => x.2.entry (wbits c 9 0)) = some e
  aligned : va.toNat % 16 = 0
  idle : (s.stream s.here (wbits c 19 16)).busy = false
  side : s.portHolder s.here (wbits c 11 10) outbound = .free ∨
    (s.portHolder s.here (wbits c 11 10) outbound).isStream = true ∨
    (s.portHolder s.here (wbits c 11 10) outbound).isGraticule = true

theorem legendOf_eq {e : Legend} {idx : Nat} (h : ((s.regionOf p).bind fun x => x.2.entry idx) = some e) :
    legendOf p idx s = .ok e s := by
  refine (act_bind_ok (get_eq s)).trans ?_
  rw [h]
  rfl

/-- A stream that is allowed and whose pattern fits its tensor takes its slot. -/
theorem openStream_opens {i : Instr} {rd ra rb : Reg} {e : Legend}
    (allowed : StreamAllowed s outbound (s.reg ra) (s.reg rb) e)
    (reads : readVa (.engine s.here) (scopeOfCode (wbits (s.reg ra) 15 12)) (s.reg rb) 16
      (s.release (.core s.here) (scopeOfCode (wbits (s.reg ra) 15 12))) = .ok d s2)
    (fits : patternOk e (wordOf (d.take 8)) (wordOf (d.drop 8)) = true) :
    s.openStream i outbound rd ra rb =
      .next ((withStream s2 s.here (wbits (s.reg ra) 19 16) outbound (s.reg ra) d).writeReg rd s.newPromise) := by
  obtain ⟨reserved, clear, inner, scope, legend, aligned, idle, side⟩ := allowed
  refine attempt_ok ?_
  refine (act_bind_ok (check_of ?_)).trans ?_
  · cases outbound <;> simp_all
  refine (act_bind_ok (scopeField_ok scope)).trans ?_
  refine (act_bind_ok (legendOf_eq legend)).trans ?_
  refine (act_bind_ok (aligned_ok aligned)).trans ?_
  refine (act_bind_ok (check_of (by rw [idle]; rfl))).trans ?_
  refine (act_bind_ok (check_of ?_)).trans ?_
  · rcases side with free | stream | graticule <;> simp_all
  refine (act_bind_ok (k := issueRelease _) rfl).trans ?_
  refine (act_bind_ok reads).trans ?_
  exact act_bind_ok (check_of fits)

/-- A number below a power of two has no bits from there on. -/
theorem wbits_high {w : Word} {hi lo : Nat} (h : w.toNat < 2 ^ lo) : wbits w hi lo = 0 := by
  rw [wbits, bits, Nat.div_eq_of_lt h, Nat.zero_mod]

end

/-- Settles O30: both opening instructions are one operation, and the others pass their check and make one update. -/
theorem streamInstructions : Obligations.StreamInstructions := by
  intro s rd ra rb p c va slot sc done
  have opens : ∀ i outbound, exec i s = s.openStream i outbound rd ra rb → done i outbound := by
    intro i outbound is e d s2 reserved clear inner scope legend aligned idle side reads fits
    refine ⟨_, _, is.trans (openStream_opens ⟨reserved, clear, inner, scope, legend, aligned, idle, side⟩ reads fits), rfl, ?_⟩
    rw [stream_writeReg, withStream, stream_onStream, reg_writeReg, if_pos rfl]
    exact ⟨rfl, rfl, rfl, rfl, rfl, rfl, rfl⟩
  refine ⟨opens _ false rfl, opens _ true rfl, fun few => ?_, fun few => ?_, fun few => ?_⟩
  · exact attempt_ok (act_bind_ok (check_of (decide_eq_true (wbits_high few))))
  · exact attempt_ok (act_bind_ok (check_of (decide_eq_true (wbits_high (lo := 4) few))))
  · exact attempt_ok (act_bind_ok (check_of (decide_eq_true (wbits_high (lo := 4) few))))

end Sys2Proof.Proofs

/-! The proof of the obligation about signals, streams, Traverse transfers and publishes. -/

namespace Sys2Proof.Proofs

open Sys2Proof Sys2Proof.Machine Sys2Proof.Laws

/-! ### Signals (R161, R165) -/

section

variable {s : State} {k p n : Nat}

theorem execStationArrival_meets {sender : Nat × Nat × Nat} (waits : s.signals[k]? = some (.arrive p n sender))
    (present : (s.parcel p).wasReset = false) :
    execStationArrival k s = .next (s.meetSignal k p fun t => t.onArrive p n sender) := by
  simp only [execStationArrival, waits, present, Bool.false_eq_true, if_false]

theorem execStationBytes_meets {b : Nat} {sender : Nat × Nat × Nat} (waits : s.signals[k]? = some (.bytes p n b sender))
    (present : (s.parcel p).wasReset = false) :
    execStationBytes k s = .next (s.meetSignal k p fun t => t.onBytes p n b sender) := by
  simp only [execStationBytes, waits, present, Bool.false_eq_true, if_false]

theorem execExchangeWriteArrival_meets {runs : List (Nat × List Byte)} {source phase : Nat} {sender : Nat × Nat × Nat}
    (waits : s.signals[k]? = some (.write p runs source phase sender)) :
    execExchangeWriteArrival k s = .next (s.meetSignal k p fun t => t.onExchange p fun e =>
      { e with parked := e.parked ++ [(source, phase, runs)] }) := by
  simp only [execExchangeWriteArrival, waits]

theorem execFenceMarkerArrival_meets {source phase count : Nat}
    (waits : s.signals[k]? = some (.marker p n source phase count)) (present : (s.parcel p).wasReset = false) :
    execFenceMarkerArrival k s = .next (s.meetSignal k p fun t => t.onExchange p fun e =>
      { e with markers := e.markers ++ [(source, phase, count, n)] }) := by
  simp only [execFenceMarkerArrival, waits, present, Bool.false_eq_true, if_false]

end

/-! ### Streams at work (R137 to R144) -/

section

variable {s u taken : State} {p slot : Nat} {t : Stream} {x : LinkWord} {rest : List LinkWord} {bs : List Byte} {e : Legend}
  {starts counts : Word} {row : Row} {k : Nat} {sc : Scope}

/-- A queued stream whose turn it is runs and holds its side of the port. -/
theorem execStreamStart_starts (runs : s.enginesRun p = true) (queued : (s.stream p slot).state = 1)
    (free : s.portHolder p (s.stream p slot).port (s.stream p slot).outbound = .free)
    (first : ((s.parcel p).streams.all fun (e : Nat × Stream) => !(e.2.busy && e.2.outbound = (s.stream p slot).outbound &&
      e.2.port = (s.stream p slot).port && e.2.serial < (s.stream p slot).serial)) = true)
    (done : ((s.stream p slot).waits.all fun n => n ∉ (s.parcel p).liveSerials) = true) :
    execStreamStart p slot s = .next ((s.onStream p slot fun t => { t with state := 2 }).onPort p (s.stream p slot).port
      fun w => if (s.stream p slot).outbound then { w with outHolder := .stream slot }
        else { w with inHolder := .stream slot }) := by
  unfold execStreamStart
  exact if_pos (by simp only [runs, queued, first, free, done, decide_true, Bool.and_self])

/-- The link word of an element format: its bytes, masked to its valid bits (R139). -/
theorem makeWord_plain (plain : lgIsBlock e = false) (based : s.hasBase p e = true)
    (reads : readSpan (.engine p) sc (spanFuel (wordPlace e starts counts k).2.1)
      (rowAddress (((s.regionOf p).bind fun x => s.legendBase x.1 x.2 e).getD 0) e row (wordPlace e starts counts k).1)
      (wordPlace e starts counts k).2.1 s = .ok bs u) :
    makeWord p sc e starts counts row k s = .ok (dataWord (BitVec.ofNat 512
      (Decode.leNat bs % 2 ^ (wordPlace e starts counts k).2.2))
      (if lgFormat e = 19 then 0xE000FFFF else lanesFor (wordPlace e starts counts k).2.2) (BitVec.ofNat 4 (lgTag e))) u := by
  unfold makeWord
  refine (act_bind_ok ((act_bind_ok (baseOf_ok based)).trans reads)).trans ?_
  simp only [plain, Bool.false_eq_true, if_false]
  split <;> rfl

/-- A running loader's next word enters its port. -/
theorem execLoaderWord_enters (runs : s.enginesRun p = true) (working : (s.stream p slot).state = 2)
    (inbound : (s.stream p slot).outbound = false) (empty : (s.port p (s.stream p slot).port).inbound = [])
    (unstopped : (s.stream p slot).reason ≠ 1) (more : (s.stream p slot).pos < s.streamTotal p (s.stream p slot))
    (made : let t := s.stream p slot
      let e := s.streamEntry p t
      let words := rowWords e t.counts
      makeWord p t.scope e t.starts t.counts (patRow t.starts t.counts (t.pos / words)) (t.pos % words) s = .ok x u) :
    let t := s.stream p slot
    execLoaderWord p slot s = .next ((u.onPort p t.port fun w =>
      { w with inbound := w.inbound ++
        [{ x with last := t.pos + 1 = s.streamTotal p t, ctx := t.control.extractLsb' 20 3 }] }).onStream
          p slot fun t => { t with pos := t.pos + 1 }) := by
  unfold execLoaderWord
  simp only [runs, working, inbound, empty, unstopped, Nat.not_le.mpr more, made, Bool.not_true, ne_eq, not_true_eq_false,
    decide_false, Bool.or_self, List.isEmpty_nil, Bool.false_eq_true, if_false]

/-- A link word of an element format is stored by the elements whose lanes are all valid (R139). -/
theorem storeWord_plain (noTcw : lgIsTcw e = false) (plain : lgIsBlock e = false) (whole : lgFormat e ≠ 19)
    (based : s.hasBase p e = true)
    (writes : writeMasked (.engine p) .engine sc
      (rowAddress (((s.regionOf p).bind fun x => s.legendBase x.1 x.2 e).getD 0) e row (wordPlace e starts counts k).1)
      ((payloadBytes x.payload).take (wordPlace e starts counts k).2.1)
      (fun i => validElement (linkMask x) (lgBits e) (i / (lgBits e / 8))) s = .ok () u) :
    storeWord p sc e starts counts row k x s = .ok () u := by
  unfold storeWord
  simp only [noTcw, plain, whole, Bool.false_eq_true, if_false]
  exact (act_bind_ok (baseOf_ok based)).trans writes

/-- A running storer takes a word of its tensor's format from its port and stores it. -/
theorem execStorerWord_stores (runs : s.enginesRun p = true) (working : (s.stream p slot).state = 2)
    (outbound : (s.stream p slot).outbound = true) (more : (s.stream p slot).pos < s.streamTotal p (s.stream p slot))
    (first : (s.port p (s.stream p slot).port).outbound = x :: rest) (data : x.token = false)
    (format : x.fmt.toNat = lgTag (s.streamEntry p (s.stream p slot)))
    (stores : let t := s.stream p slot
      let e := s.streamEntry p t
      let words := rowWords e t.counts
      storeWord p t.scope e t.starts t.counts (patRow t.starts t.counts (t.pos / words)) (t.pos % words) x
        (s.onPort p t.port fun w => { w with outbound := rest }) = .ok () u) :
    execStorerWord p slot s = .next (u.onStream p slot fun t => { t with pos := t.pos + 1 }) := by
  unfold execStorerWord
  simp only [runs, working, outbound, first, data, format, Nat.not_le.mpr more, stores, Bool.not_true, ne_eq,
    not_true_eq_false, decide_false, Bool.or_self, Bool.false_eq_true, if_false]

/-- A finished stream frees its slot and makes its arrival. -/
theorem execStreamComplete_completes (runs : s.enginesRun p = true) (working : (s.stream p slot).state = 2)
    (unstopped : (s.stream p slot).reason = 0) (done : s.streamTotal p (s.stream p slot) ≤ (s.stream p slot).pos) :
    execStreamComplete p slot s = .next (s.completeStream p slot) := by
  unfold execStreamComplete
  exact if_pos (by simp only [runs, working, unstopped, done, decide_true, Bool.and_self])

/-- A fault at the next word of a running stream stops it. -/
theorem execStreamFault_stops {code : Byte} (runs : s.enginesRun p = true) (working : (s.stream p slot).state = 2)
    (more : (s.stream p slot).pos < s.streamTotal p (s.stream p slot)) :
    execStreamFault p slot code s =
      .next (s.faultStream p slot code (s.streamAddress p (s.stream p slot) (s.stream p slot).pos)) := by
  unfold execStreamFault
  exact if_pos (by simp only [runs, working, more, decide_true, Bool.and_self])

end

/-! ### Requests at work (R147, R151, R152, R155 to R159) -/

section

variable {s u : State} {p slot n : Nat} {t : TravSlot}

/-- The state after a unit of a request, whose `n` bytes have landed. -/
def unitLanded (p slot : Nat) (t : TravSlot) (u : State) (n : Nat) : State :=
  ((if n = 0 then u else u.landed p slot t n).onTrav p slot fun x => { x with pos := x.pos + 1 }).afterUnit p t

/-- The next unit of a request that nothing holds back is performed. -/
theorem execTraverseBytesLand_lands (taken : s.trav p slot = some t) (runs : s.enginesRun p = true) (more : t.pos < t.total)
    (ahead : s.heldBack p slot t = false)
    (fed : t.kind = .feed → s.tileStarted p slot t = true ∧ s.feedHalted p t = false)
    (step : travStep p slot t s = .ok n u) :
    execTraverseBytesLand p slot s = .next (unitLanded p slot t u n) := by
  have goes : (!s.enginesRun p || decide (t.total ≤ t.pos) || s.heldBack p slot t ||
      (decide (t.kind = .feed) && (!s.tileStarted p slot t || s.feedHalted p t))) = false := by
    simp only [runs, ahead, Nat.not_le.mpr more, Bool.not_true, decide_false, Bool.or_self, Bool.false_or,
      Bool.and_eq_false_imp, decide_eq_true_eq]
    intro feed
    obtain ⟨started, unhalted⟩ := fed feed
    rw [started, unhalted]
    rfl
  simp only [execTraverseBytesLand, taken, goes, step, Bool.false_eq_true, if_false]
  rfl

/-- The 64 bytes of a unit of a fill (R149). -/
def fillBytes (t : TravSlot) : List Byte := (List.range 64).map fun i => BitVec.ofNat 8 (t.opWord / 2 ^ (8 * (i % 4)))

theorem readUnit_fill {k : Nat} (fill : t.kind = .fill) : readUnit p t k s = .ok (fillBytes t) s := by
  unfold readUnit
  rw [act_bind_ok (get_eq s), if_pos fill]
  rfl

/-- A unit goes to a buffer entry that no segment reserves, or into the entry's overlay. -/
theorem writeUnit_entry {k : Nat} {data : List Byte} (entry : t.toTensor = false)
    (free : reserveCheck (.engine p) (s.entryAddress p (s.fillPlace p t k).1 (s.fillPlace p t k).2) 64
      (Config.freeWord s.tick) s = .ok () u) :
    let place := s.fillPlace p t k
    let pa := s.entryAddress p place.1 place.2
    writeUnit p t k data s =
      .ok 64 (if t.shadow then u.hide p true place.1 pa none data else u.homeWrite pa data) := by
  unfold writeUnit
  rw [act_bind_ok (get_eq s)]
  simp only [entry, Bool.not_false, if_true]
  refine (act_bind_ok free).trans ?_
  split_ifs <;> rfl

/-- A unit of a fill of a buffer entry writes its bytes there, or hides them. -/
theorem travStep_fill (fill : t.kind = .fill) (entry : t.toTensor = false) (noSource : t.fromBuffer = false)
    (free : reserveCheck (.engine p) (s.entryAddress p (s.fillPlace p t t.pos).1 (s.fillPlace p t t.pos).2) 64
      (Config.freeWord s.tick) s = .ok () u) :
    let pa := s.entryAddress p (s.fillPlace p t t.pos).1 (s.fillPlace p t t.pos).2
    travStep p slot t s =
      .ok 64 (if t.shadow then u.hide p true t.handle pa none (fillBytes t) else u.homeWrite pa (fillBytes t)) := by
  have place : (s.fillPlace p t t.pos).1 = t.handle := by
    rw [State.fillPlace, if_neg (by rw [fill]; decide)]
  have noPages : t.pageMode = false := by
    rw [TravSlot.pageMode, fill]
    rfl
  unfold travStep
  rw [act_bind_ok (get_eq s)]
  simp only [noSource, fill, noPages, Bool.false_and, Bool.false_eq_true, if_false]
  refine (act_bind_ok (readUnit_fill fill)).trans ((act_bind_ok (writeUnit_entry entry free)).trans ?_)
  rw [place]
  rfl

/-- A wait for the second of two flags, which the first one asks for, is over where it brings the second. -/
theorem and_not_of_imp {a b : Bool} (brings : a = true → b = true) : (a && !b) = false := by
  cases a with
  | false => rfl
  | true => rw [brings rfl]; rfl

/-- A request that has done everything completes: its entries change their states, its slot is freed or kept for its follow-on
command, and its arrival is made. -/
theorem execTraverseComplete_completes (taken : s.trav p slot = some t) (runs : s.enginesRun p = true) (live : t.done = false)
    (done : s.travOver p slot t = true) (shown : t.publish = true → t.published = true) :
    let b := s.buffer p t.handle
    let u := if t.fills && t.kind ≠ .feed && !t.shadow then s.putBuffer p t.handle (setF b 63 62 2)
      else if t.fromBuffer && bufState b = 3 then s.freeEntry p t.handle
      else s.endRing p t
    let v := if t.follow.isSome then u.setTrav p slot { t with done := true } else u.dropTrav p slot
    execTraverseComplete p slot s = .next (if t.counted then v.sendArrival p t.station 1 (t.mark slot) else v) := by
  simp only [execTraverseComplete, taken, runs, live, done, and_not_of_imp shown, Bool.not_true, Bool.or_self,
    Bool.false_eq_true, if_false]

/-- A fault at the next unit of a request ends it. -/
theorem execTraverseFault_ends {code : Byte} (taken : s.trav p slot = some t) (runs : s.enginesRun p = true)
    (more : t.pos < t.total) : execTraverseFault p slot code s = .next (s.faultTrav p slot code (s.unitVa p t)) := by
  simp only [execTraverseFault, taken, runs, Nat.not_le.mpr more, Bool.not_true, decide_false, Bool.or_self,
    Bool.false_eq_true, if_false]

end

/-! ### Fields of bit vectors -/

section

variable {w : Nat} {x : BitVec w} {hi lo v : Nat}

theorem getLsbD_setF {i : Nat} (inside : i < w) : (setF x hi lo v).getLsbD i =
    if lo ≤ i ∧ i < lo + (hi + 1 - lo) then v.testBit (i - lo) else x.getLsbD i := by
  simp only [setF, BitVec.getLsbD_or, BitVec.getLsbD_and, BitVec.getLsbD_not, BitVec.getLsbD_ofNat, Nat.testBit_mul_two_pow,
    Nat.testBit_two_pow_sub_one, Nat.testBit_mod_two_pow, inside, decide_true, Bool.true_and]
  by_cases above : lo ≤ i
  · by_cases below : i - lo < hi + 1 - lo
    · have : i < lo + (hi + 1 - lo) := by omega
      simp [above, below, this]
    · have : ¬i < lo + (hi + 1 - lo) := by omega
      simp [above, below, this]
  · simp [above]

/-- The field that was replaced. -/
theorem extractLsb'_setF_same {k : Nat} (whole : k = hi + 1 - lo) (inside : lo + k ≤ w) :
    (setF x hi lo v).extractLsb' lo k = BitVec.ofNat k v := by
  ext i below
  rw [BitVec.getElem_extractLsb', getLsbD_setF (by omega), if_pos (by omega), Nat.add_sub_cancel_left,
    ← BitVec.getLsbD_eq_getElem, BitVec.getLsbD_ofNat, decide_eq_true below, Bool.true_and]

/-- A field beside the one that was replaced. -/
theorem extractLsb'_setF_other {a k : Nat} (inside : a + k ≤ w) (apart : a + k ≤ lo ∨ hi < a ∧ lo ≤ hi) :
    (setF x hi lo v).extractLsb' a k = x.extractLsb' a k := by
  ext i below
  rw [BitVec.getElem_extractLsb', BitVec.getElem_extractLsb', getLsbD_setF (by omega), if_neg (by omega)]

end

/-! ### The ring of a feed (R156) -/

section

variable {s : State} {p h slot : Nat} {t : TravSlot}

/-- An entry that is FILLING for a tile of a feed. -/
def tileEntry (b : BitVec 128) (t : TravSlot) (slot : Nat) : BitVec 128 :=
  setF (setF (setF (setF b 63 62 1) 61 56 slot) 127 64 t.promise.toNat) 55 54 ((if t.shadow then 2 else 0) + 1)

theorem bufState_tileEntry (b : BitVec 128) : bufState (tileEntry b t slot) = 1 := by
  rw [bufState, getF, tileEntry, extractLsb'_setF_other (by decide) (by decide),
    extractLsb'_setF_other (by decide) (by decide), extractLsb'_setF_other (by decide) (by decide),
    extractLsb'_setF_same rfl (by decide)]
  rfl

theorem bufSlot_tileEntry (b : BitVec 128) : bufSlot (tileEntry b t slot) = slot % 64 := by
  rw [bufSlot, getF, tileEntry, extractLsb'_setF_other (by decide) (by decide),
    extractLsb'_setF_other (by decide) (by decide), extractLsb'_setF_same rfl (by decide), BitVec.toNat_ofNat]

theorem promise_tileEntry (b : BitVec 128) : (tileEntry b t slot).extractLsb' 64 64 = t.promise := by
  rw [tileEntry, extractLsb'_setF_other (by decide) (by decide), extractLsb'_setF_same (hi := 127) rfl (by decide),
    BitVec.ofNat_toNat, BitVec.setWidth_eq]

theorem bufShadow_tileEntry (b : BitVec 128) : bufShadow (tileEntry b t slot) = t.shadow := by
  rw [bufShadow, tileEntry, getLsbD_setF (by decide), if_pos (by decide)]
  cases t.shadow <;> rfl

theorem bufFeed_tileEntry (b : BitVec 128) : bufFeed (tileEntry b t slot) = true := by
  rw [bufFeed, tileEntry, getLsbD_setF (by decide), if_pos (by decide)]
  cases t.shadow <;> rfl

/-- A tile leaves the fields of its entry below its state's alone. -/
theorem low_tileEntry (b : BitVec 128) {lo k : Nat} (low : lo + k ≤ 54) :
    (tileEntry b t slot).extractLsb' lo k = b.extractLsb' lo k := by
  rw [tileEntry, extractLsb'_setF_other (by omega) (by omega), extractLsb'_setF_other (by omega) (by omega),
    extractLsb'_setF_other (by omega) (by omega), extractLsb'_setF_other (by omega) (by omega)]

/-- How many words a tile of a feed has. -/
def tileWords (s : State) (p : Nat) (t : TravSlot) : Nat := max 1 (bufSize (s.buffer p t.handle) / 64)
/-- The place of an entry in a ring. -/
def ringPlace (t : TravSlot) (h : Nat) : Nat := (h + 128 - t.handle) % 128
/-- The first tile of a feed, from the one at work on, that goes to a place of its ring. -/
def nextTile (s : State) (p : Nat) (t : TravSlot) (place : Nat) : Nat :=
  let tile := t.pos / tileWords s p t
  (tile / t.ringLen + (if tile % t.ringLen ≤ place then 0 else 1)) * t.ringLen + place

theorem handle_lt : t.handle < 128 := Nat.mod_lt _ (by decide)

/-- The entries of a ring, counted from its first one, come back to the entry that was asked for. -/
theorem handle_add_ringPlace (known : h < 128) : (t.handle + ringPlace t h) % 128 = h := by
  have bound := handle_lt (t := t)
  unfold ringPlace
  omega

/-- The words of the next tile for an entry go to that entry, one after another. -/
theorem fillPlace_nextTile {i : Nat} (feed : t.kind = .feed) (inside : ringPlace t h < t.ringLen) (known : h < 128)
    (word : i < tileWords s p t) :
    s.fillPlace p t (nextTile s p t (ringPlace t h) * tileWords s p t + i) = (h, 64 * i) := by
  have tile : (nextTile s p t (ringPlace t h) * tileWords s p t + i) / tileWords s p t = nextTile s p t (ringPlace t h) := by
    rw [Nat.mul_comm, Nat.mul_add_div (by omega), Nat.div_eq_of_lt word, Nat.add_zero]
  have place : nextTile s p t (ringPlace t h) % t.ringLen = ringPlace t h := by
    rw [nextTile, Nat.mul_comm, Nat.mul_add_mod, Nat.mod_eq_of_lt inside]
  have offset : (nextTile s p t (ringPlace t h) * tileWords s p t + i) % tileWords s p t = i := by
    rw [Nat.mul_comm, Nat.mul_add_mod, Nat.mod_eq_of_lt word]
  rw [State.fillPlace, if_pos feed]
  change ((t.handle + _ / tileWords s p t % t.ringLen) % 128, 64 * (_ % tileWords s p t)) = _
  rw [tile, place, offset, handle_add_ringPlace known]

/-- A request in whose live ring an entry is, is a feed and has a place for it. -/
theorem inRing_feed (ring : t.inRing h = true) : t.kind = .feed ∧ ringPlace t h < t.ringLen := by
  simp only [TravSlot.inRing, Bool.and_eq_true, decide_eq_true_eq] at ring
  obtain ⟨⟨feed, -⟩, place⟩ := ring
  exact ⟨feed, place⟩

/-- A notice of a free ring entry starts the feed's next tile there, where one is left. -/
theorem execFreedSlotNotice_starts
    (noticed : ((s.parcel p).travs.find? fun (e : Nat × TravSlot) => e.2.inRing h && h ∈ e.2.notices) = some (slot, t))
    (runs : s.enginesRun p = true) (free : bufState (s.buffer p h) = 0) :
    let s1 := s.setTrav p slot { t with notices := t.notices.erase h }
    execFreedSlotNotice p h s = .next (if nextTile s p t (ringPlace t h) * tileWords s p t < t.total
      then s1.setBuffer p h (tileEntry (s.buffer p h) t slot) else s1) := by
  have next : ∀ tile place, (if tile % t.ringLen ≤ place then tile / t.ringLen * t.ringLen + place
      else (tile / t.ringLen + 1) * t.ringLen + place) =
      (tile / t.ringLen + (if tile % t.ringLen ≤ place then 0 else 1)) * t.ringLen + place := by
    intro tile place
    split_ifs <;> rfl
  simp only [execFreedSlotNotice, noticed, runs, free, Bool.not_true, ne_eq, not_true_eq_false, decide_false, Bool.or_self,
    Bool.false_eq_true, if_false, next]
  rfl

end

/-! ### Follow-on commands, publishes and tiles (R157 to R159, R168, R169) -/

section

variable {s u : State} {p slot k : Nat} {t : TravSlot} {x : Staged}

/-- A request without its follow-on command: gone where it is over. -/
def withoutFollow (p slot : Nat) (t : TravSlot) (u : State) : State :=
  if t.done then u.dropTrav p slot else u.setTrav p slot { t with follow := none }

/-- The follow-on command of a request that is over is issued. -/
theorem execFollowOnIssue_issues (taken : s.trav p slot = some t) (follows : t.follow = some x)
    (runs : s.enginesRun p = true) (done : s.travOver p slot t = true) (shown : t.shadow = true → t.published = true)
    (room : (s.gr p).queue.length < 8) (issued : issueStaged p x s = .ok () u) :
    execFollowOnIssue p slot s = .next (withoutFollow p slot t u) := by
  simp only [execFollowOnIssue, taken, follows, runs, done, and_not_of_imp shown, Nat.not_le.mpr room, issued, Bool.not_true,
    decide_false, Bool.or_self, Bool.false_eq_true, if_false]
  rfl

/-- The state after `GR.ZERO` is queued. -/
def zeroQueued (s : State) (p : Nat) (a b : Word) : State :=
  (s.onParcel p fun y => { y with serial := y.serial + 1 }).onGr p fun g =>
    { g with queue := g.queue ++ [⟨(s.parcel p).serial, 4, a, [], b, (s.core p).flags.getLsbD 0⟩] }

/-- A bit outside a mask that a word keeps to is clear. -/
theorem wbit_outside {a : Word} {mask i : Nat} (keeps : a.toNat &&& mask = a.toNat) (outside : mask.testBit i = false) :
    wbit a i = false := by
  rw [wbit, ← BitVec.testBit_toNat, ← keeps, Nat.testBit_and, outside, Bool.and_false]

/-- `GR.ZERO` enters the queue (R336). -/
theorem issueGr_zero {a b : Word} (reserved : wbits a 63 32 = 0) (mask : a.toNat &&& grMask 4 = a.toNat)
    (room : (s.gr p).queue.length < 8) (saving : (s.gr p).saving = none) (saved : (s.gr p).saved = false) :
    issueGr p 4 a b ((s.core p).flags.getLsbD 0) s = .ok s.newPromise (zeroQueued s p a b) := by
  have noPublish : wbit a 20 = false := wbit_outside mask (by decide)
  have noShadow : wbit a 19 = false := wbit_outside mask (by decide)
  unfold issueGr
  refine (act_bind_ok (need_of (by rw [reserved, mask]; simp))).trans ?_
  refine (act_bind_ok (a := Scope.y) rfl).trans ?_
  refine (act_bind_ok (need_of (by rw [noPublish]; rfl))).trans ?_
  refine (act_bind_ok (a := []) rfl).trans ?_
  refine (act_bind_ok (get_eq s)).trans ?_
  refine (act_bind_ok (check_of ?_)).trans ?_
  · simp [GrCommand.shadow, noShadow, saving, saved, room]
  rw [GrCommand.shadow, noShadow]
  rfl

/-- A staged `GR.ZERO` enters the queue (R336). -/
theorem issueStaged_zero (zero : stagedFn x.word = some 4) (reserved : wbits x.a 63 32 = 0)
    (mask : x.a.toNat &&& grMask 4 = x.a.toNat) (room : (s.gr p).queue.length < 8) (saving : (s.gr p).saving = none)
    (saved : (s.gr p).saved = false) : issueStaged p x s = .ok () (zeroQueued s p x.a x.b) := by
  unfold issueStaged
  rw [act_bind_ok (get_eq s), zero]
  exact act_bind_ok (issueGr_zero reserved mask room saving saved)

/-- A publish that is due and that no segment holds back or refuses is performed. -/
theorem execPublish_performs {v : Publish} (asked : s.publishes[k]? = some v) (due : s.publishDue k v = true)
    (free : publishCheck (.engine v.parcel) v.parcel v.buffer v.index s = .ok () u) :
    execPublish k s = .next (s.performPublish k v) := by
  simp only [execPublish, asked, due, free, Bool.not_true, Bool.false_eq_true, if_false]

/-- A tile on its way meets its home. -/
theorem execReductionTile_meets {v : RedTile} (sent : s.tiles[k]? = some v) (bytes : v.skip = false)
    (runs : s.enginesRun v.parcel = true ∨ v.parcel = strayParcel) : execReductionTile k s = .next (s.meetTile k) := by
  have goes : (v.skip || !(s.enginesRun v.parcel || decide (v.parcel = strayParcel))) = false := by
    rw [bytes]
    rcases runs with runs | stray
    · rw [runs]; rfl
    · rw [decide_eq_true stray, Bool.or_true]; rfl
  simp only [execReductionTile, sent, goes, Bool.false_eq_true, if_false]

/-- A skip marker on its way meets its home. -/
theorem execSkipMarker_meets {v : RedTile} (sent : s.tiles[k]? = some v) (skips : v.skip = true)
    (runs : s.enginesRun v.parcel = true) : execSkipMarker k s = .next (s.meetTile k) := by
  simp only [execSkipMarker, sent, skips, runs, Bool.and_self, if_true]

end

/-- Settles O57: each event's conditions choose its branch. -/
theorem transferEvents : Obligations.TransferEvents := by
  intro s
  refine ⟨fun k p n sender => execStationArrival_meets, fun k p n b sender => execStationBytes_meets,
    fun k p runs src phase sender => execExchangeWriteArrival_meets,
    fun k p n src phase count => execFenceMarkerArrival_meets, fun p slot => ?_, fun p slot => ?_, fun p slot x rest => ?_,
    fun p slot => execStreamComplete_completes, fun p slot code => execStreamFault_stops, fun p slot t => ?_,
    fun p slot t => execTraverseComplete_completes, fun p slot t code => execTraverseFault_ends, fun p h slot t => ?_,
    fun p slot t x => ?_, fun k v u => execPublish_performs, fun k v sent runs =>
      ⟨fun bytes => execReductionTile_meets sent bytes runs, execSkipMarker_meets sent⟩⟩
  · exact execStreamStart_starts
  · intro t e words row place base enter runs working inbound empty unstopped more
    exact ⟨fun bs u plain based reads => execLoaderWord_enters runs working inbound empty unstopped more
        (makeWord_plain plain based reads),
      fun x u => execLoaderWord_enters runs working inbound empty unstopped more⟩
  · intro t e words row place base data taken runs working outbound more first word format
    exact ⟨fun u noTcw plain whole based writes => execStorerWord_stores runs working outbound more first word format
        (storeWord_plain noTcw plain whole based writes),
      fun u => execStorerWord_stores runs working outbound more first word format⟩
  · intro taken runs more ahead fed pa data forth
    exact ⟨fun u fill entry noSource free =>
        execTraverseBytesLand_lands taken runs more ahead fed (travStep_fill fill entry noSource free),
      fun n u => execTraverseBytesLand_lands taken runs more ahead fed⟩
  · intro noticed runs free known words place next s1
    have found := List.find?_some noticed
    obtain ⟨ring, -⟩ := Bool.and_eq_true_iff.mp found
    obtain ⟨feed, inside⟩ := inRing_feed ring
    have starts := execFreedSlotNotice_starts noticed runs free
    refine ⟨fun last => starts.trans (congrArg _ (if_neg (Nat.not_lt.mpr last))), fun more => ⟨tileEntry (s.buffer p h) t slot,
      starts.trans (congrArg _ (if_pos more)), bufState_tileEntry _, bufSlot_tileEntry _, promise_tileEntry _,
      bufShadow_tileEntry _, bufFeed_tileEntry _, ?_, ?_, fun i word => fillPlace_nextTile feed inside known word⟩⟩
    · exact congrArg BitVec.toNat (low_tileEntry _ (by decide))
    · exact congrArg BitVec.toNat (low_tileEntry _ (by decide))
  · intro taken follows runs done shown room gone
    exact ⟨fun zero reserved mask saving saved => execFollowOnIssue_issues taken follows runs done shown room
        (issueStaged_zero zero reserved mask room saving saved),
      fun w u => execFollowOnIssue_issues taken follows runs done shown room⟩

end Sys2Proof.Proofs

/-! The proof of the obligation about the life of buffer entries. -/

namespace Sys2Proof.Proofs

open Sys2Proof Sys2Proof.Machine Sys2Proof.Laws

/-! ### What leaves the buffer entries alone -/

section

variable {s : State} {p h q : Nat}

theorem buffer_onParcel {f : Parcel → Parcel} (keeps : ∀ x, (f x).buffers = x.buffers) :
    (s.onParcel q f).buffer p h = s.buffer p h := by
  rw [State.buffer, parcel_onParcel]
  split
  · next e => subst e; rw [keeps]; rfl
  · rfl

theorem buffer_onCell (m : Nat) (f : Cell → Cell) : (s.onCell q m f).buffer p h = s.buffer p h :=
  buffer_onParcel fun _ => rfl

theorem buffer_acquire (u : Writer) (sc : Scope) : (s.acquire u sc).buffer p h = s.buffer p h := by
  rw [State.buffer, State.parcel, parcels_acquire]
  rfl

theorem buffer_pollWakes : (s.pollWakes q).buffer p h = s.buffer p h :=
  let ⟨_, same⟩ := sameTasks_pollWakes s q
  same p h

theorem buffer_returnRecord (w : LinkWord) : (s.returnRecord q w).buffer p h = s.buffer p h := rfl

theorem buffer_stir : (s.stir q).buffer p h = s.buffer p h := by
  unfold State.stir
  split <;> rfl

theorem buffer_handOn (t : Site) : (s.handOn t).buffer p h = s.buffer p h := by
  unfold State.handOn
  split
  · exact buffer_onCell ..
  · rfl

theorem buffer_setTrav (slot : Nat) (t : TravSlot) : (s.setTrav q slot t).buffer p h = s.buffer p h :=
  buffer_onParcel fun _ => rfl

theorem buffer_dropTrav (slot : Nat) : (s.dropTrav q slot).buffer p h = s.buffer p h := buffer_onParcel fun _ => rfl

theorem buffer_makeReads (k : Nat) : (s.makeReads q k).buffer p h = s.buffer p h := by
  unfold State.makeReads
  dsimp only
  split
  · exact buffer_onParcel fun _ => rfl
  · rfl

theorem buffer_notice (k : Nat) : (s.notice q k).buffer p h = s.buffer p h := buffer_onParcel fun _ => rfl

theorem core_makeReads (k r : Nat) : (s.makeReads q k).core r = s.core r := by
  unfold State.makeReads
  dsimp only
  split
  · rw [core_onParcel]
    split
    · next e => subst e; rfl
    · rfl
  · rfl

theorem core_notice (k r : Nat) : (s.notice q k).core r = s.core r := by
  rw [State.notice, core_onParcel]
  split
  · next e => subst e; rfl
  · rfl

theorem core_setBuffer (k r : Nat) (b : BitVec 128) : (s.setBuffer q k b).core r = s.core r := by
  rw [State.setBuffer, core_onParcel]
  split
  · next e => subst e; rfl
  · rfl

end

/-! ### The words of buffer entries (R154) -/

section

variable {b c d : BitVec 128} {hi lo v slot : Nat} {x : TravSlot}

/-- Two entry words name the same piece of the scratchpad. -/
def SamePiece (b c : BitVec 128) : Prop := bufBase c = bufBase b ∧ bufSize c = bufSize b

theorem SamePiece.refl (b : BitVec 128) : SamePiece b b := ⟨rfl, rfl⟩

theorem SamePiece.trans (h : SamePiece b c) (k : SamePiece c d) : SamePiece b d := ⟨k.1.trans h.1, k.2.trans h.2⟩

/-- The fields from bit 39 on do not name the piece. -/
theorem samePiece_setF (high : 39 ≤ lo) : SamePiece b (setF b hi lo v) :=
  ⟨congrArg BitVec.toNat (extractLsb'_setF_other (by decide) (.inl (by omega))),
    congrArg BitVec.toNat (extractLsb'_setF_other (by decide) (.inl (by omega)))⟩

/-- The two bits of a state are what a write puts there. -/
theorem bufState_setF (small : v < 4) : bufState (setF b 63 62 v) = v := by
  rw [bufState, getF, extractLsb'_setF_same rfl (by decide), BitVec.toNat_ofNat, Nat.mod_eq_of_lt small]

/-- An entry whose feed bit is clear. -/
def unringed (b : BitVec 128) : BitVec 128 := setF b 54 54 0

theorem bufState_unringed : bufState (unringed b) = bufState b :=
  congrArg BitVec.toNat (extractLsb'_setF_other (by decide) (by decide))

theorem bufSlot_unringed : bufSlot (unringed b) = bufSlot b :=
  congrArg BitVec.toNat (extractLsb'_setF_other (by decide) (by decide))

theorem promise_unringed : (unringed b).extractLsb' 64 64 = b.extractLsb' 64 64 :=
  extractLsb'_setF_other (by decide) (by decide)

theorem bufShadow_unringed : bufShadow (unringed b) = bufShadow b := by
  rw [bufShadow, unringed, getLsbD_setF (by decide), if_neg (by decide), bufShadow]

theorem bufFeed_unringed : bufFeed (unringed b) = false := by
  rw [bufFeed, unringed, getLsbD_setF (by decide), if_pos (by decide)]
  rfl

theorem samePiece_unringed : SamePiece b (unringed b) := samePiece_setF (by decide)

theorem samePiece_tileEntry : SamePiece b (tileEntry b x slot) :=
  ⟨congrArg BitVec.toNat (low_tileEntry b (by decide)), congrArg BitVec.toNat (low_tileEntry b (by decide))⟩

/-- An entry word that a request has taken: FILLING under its slot and promise (R155, R156). -/
def takenEntry (b : BitVec 128) (x : TravSlot) (slot : Nat) : BitVec 128 :=
  setF (setF (setF (setF b 63 62 1) 61 56 slot) 127 64 x.promise.toNat) 55 54
    ((if x.shadow then 2 else 0) + (if x.kind = .feed then 1 else 0))

/-- Clearing the feed bit of a shadow and a feed bit written together leaves the shadow bit. -/
theorem unringed_setF (even : v = 0 ∨ v = 2) : unringed (setF b 55 54 (v + 1)) = setF b 55 54 v := by
  refine BitVec.eq_of_getLsbD_eq fun i below => ?_
  rw [unringed, getLsbD_setF below, getLsbD_setF below, getLsbD_setF below]
  by_cases feed : i = 54
  · subst feed
    rcases even with rfl | rfl <;> rfl
  · by_cases shadow : i = 55
    · subst shadow
      rcases even with rfl | rfl <;> rfl
    · rw [if_neg (by omega), if_neg (by omega), if_neg (by omega)]

/-- A feed takes its entries as its tiles do, and any other request sets no feed bit. -/
theorem takenEntry_eq : takenEntry b x slot = if x.kind = .feed then tileEntry b x slot else unringed (tileEntry b x slot) := by
  unfold takenEntry
  by_cases feed : x.kind = .feed
  · rw [if_pos feed, if_pos feed, tileEntry]
  · rw [if_neg feed, if_neg feed, tileEntry, unringed_setF (ite_eq_or_eq _ _ _).symm]
    rfl

/-- What a tile's entry reads and the feed bit does not touch, a taken entry reads too. -/
theorem takenEntry_reads {α : Type} {f : BitVec 128 → α} {y : α} (tile : f (tileEntry b x slot) = y)
    (beside : ∀ b, f (unringed b) = f b) : f (takenEntry b x slot) = y := by
  rw [takenEntry_eq]
  split
  · exact tile
  · exact (beside _).trans tile

theorem bufState_takenEntry : bufState (takenEntry b x slot) = 1 :=
  takenEntry_reads (bufState_tileEntry b) fun _ => bufState_unringed

theorem bufSlot_takenEntry (known : slot < 64) : bufSlot (takenEntry b x slot) = slot :=
  takenEntry_reads ((bufSlot_tileEntry b).trans (Nat.mod_eq_of_lt known)) fun _ => bufSlot_unringed

theorem promise_takenEntry : (takenEntry b x slot).extractLsb' 64 64 = x.promise :=
  takenEntry_reads (promise_tileEntry b) fun _ => promise_unringed

theorem bufShadow_takenEntry : bufShadow (takenEntry b x slot) = x.shadow :=
  takenEntry_reads (bufShadow_tileEntry b) fun _ => bufShadow_unringed

theorem bufFeed_takenEntry : bufFeed (takenEntry b x slot) = decide (x.kind = .feed) := by
  rw [takenEntry_eq]
  split
  · next feed => rw [bufFeed_tileEntry, decide_eq_true feed]
  · next other => rw [bufFeed_unringed, decide_eq_false other]

theorem samePiece_takenEntry : SamePiece b (takenEntry b x slot) := by
  rw [takenEntry_eq]
  split
  · exact samePiece_tileEntry
  · exact samePiece_tileEntry.trans samePiece_unringed

theorem bufState_emptyEntry (ring : Bool) : bufState (emptyEntry b ring) = 0 := by
  rw [bufState, getF, emptyEntry, extractLsb'_setF_other (by decide) (by decide), extractLsb'_setF_same rfl (by decide)]
  rfl

theorem bufShadow_emptyEntry (ring : Bool) : bufShadow (emptyEntry b ring) = false := by
  rw [bufShadow, emptyEntry, getLsbD_setF (by decide), if_pos (by decide)]
  cases ring <;> rfl

theorem bufFeed_emptyEntry (ring : Bool) : bufFeed (emptyEntry b ring) = ring := by
  rw [bufFeed, emptyEntry, getLsbD_setF (by decide), if_pos (by decide)]
  cases ring <;> rfl

theorem samePiece_emptyEntry (ring : Bool) : SamePiece b (emptyEntry b ring) :=
  (samePiece_setF (by decide)).trans (samePiece_setF (by decide))

end

/-! ### The entries that a request names (R155, R156) -/

section

variable {s : State} {p h slot : Nat} {x : TravSlot} {g : BitVec 128 → BitVec 128}

/-- How many entries a request that fills buffers names. -/
def entryCount (x : TravSlot) : Nat := if x.kind = .feed then x.ringLen else 1

theorem entryCount_le : entryCount x ≤ 128 := by
  have ring : wbits x.control 29 26 < 2 ^ 4 := Nat.mod_lt _ (by decide)
  unfold entryCount TravSlot.ringLen
  split <;> omega

/-- A change of one entry, as every entry of the parcel sees it. -/
theorem buffer_setBuffer_of (k : Nat) : (s.setBuffer p k (g (s.buffer p k))).buffer p h =
    if k = h then g (s.buffer p h) else s.buffer p h := by
  rw [buffer_setBuffer]
  by_cases here : k = h
  · rw [if_pos ⟨rfl, here⟩, if_pos here, here]
  · rw [if_neg fun e => here e.2, if_neg here]

/-- A step for each of the entries from the request's handle on changes each of them once, and no other entry. -/
theorem buffer_foldl_entries {f : State → Nat → State} {n : Nat} (known : h < 128) (few : n ≤ 128)
    (step : ∀ t i, (f t i).buffer p h = if (x.handle + i) % 128 = h then g (t.buffer p h) else t.buffer p h) :
    ((List.range n).foldl f s).buffer p h = if ringPlace x h < n then g (s.buffer p h) else s.buffer p h := by
  have start := handle_lt (t := x)
  induction n with
  | zero => rfl
  | succ n ih =>
    rw [List.range_succ, List.foldl_append, List.foldl_cons, List.foldl_nil, step, ih (by omega)]
    have last : (x.handle + n) % 128 = h ↔ ringPlace x h = n := by
      unfold ringPlace
      omega
    by_cases place : ringPlace x h = n
    · rw [if_pos (last.2 place), if_neg (by omega), if_pos (by omega)]
    · rw [if_neg (mt last.1 place)]
      exact if_congr (by omega) rfl rfl

theorem buffer_takeEntries (known : h < 128) (fills : x.fills = true) : (s.takeEntries p slot x).buffer p h =
    if ringPlace x h < entryCount x then takenEntry (s.buffer p h) x slot else s.buffer p h := by
  rw [State.takeEntries, fills]
  exact buffer_foldl_entries (g := fun b => takenEntry b x slot) known entryCount_le fun t i =>
    buffer_setBuffer_of (g := fun b => takenEntry b x slot) _

/-- What the end of a request leaves of an entry that it names: FREE where the request still fills it (R155). -/
def releasedEntry (slot : Nat) (b : BitVec 128) : BitVec 128 :=
  if bufState b = 1 ∧ bufSlot b = slot then emptyEntry b false else b

theorem buffer_releaseOne (k : Nat) : (if bufState (s.buffer p k) = 1 && bufSlot (s.buffer p k) = slot
      then s.setBuffer p k (emptyEntry (s.buffer p k) false) else s).buffer p h =
    if k = h then releasedEntry slot (s.buffer p h) else s.buffer p h := by
  rw [← buffer_setBuffer_of (g := releasedEntry slot), releasedEntry]
  by_cases still : bufState (s.buffer p k) = 1 ∧ bufSlot (s.buffer p k) = slot
  · simp only [still, and_self, if_true, decide_true, Bool.and_self]
  · rw [if_neg still, if_neg (by simpa using still), buffer_setBuffer]
    split
    · next here => rw [here.2]
    · rfl

theorem buffer_endRing (known : h < 128) : (s.endRing p x).buffer p h =
    if x.kind = .feed ∧ ringPlace x h < x.ringLen then unringed (s.buffer p h) else s.buffer p h := by
  unfold State.endRing
  by_cases feed : x.kind = .feed
  · have few : x.ringLen ≤ 128 := by simpa only [entryCount, feed, if_true] using entryCount_le (x := x)
    simp only [feed, ne_eq, not_true_eq_false, if_false, true_and]
    exact buffer_foldl_entries (g := unringed) known few fun t i => buffer_setBuffer_of (g := unringed) _
  · simp only [feed, ne_eq, not_false_eq_true, if_true, false_and, if_false]

/-- An entry after the end of a request that names it: its ring ends too, where it has one. -/
theorem buffer_releaseEntries (known : h < 128) (fills : x.fills = true) (named : ringPlace x h < entryCount x) :
    (s.releaseEntries p slot x).buffer p h =
      if x.kind = .feed then unringed (releasedEntry slot (s.buffer p h)) else releasedEntry slot (s.buffer p h) := by
  have released := buffer_foldl_entries (s := s) (p := p) (g := releasedEntry slot) known (entryCount_le (x := x)) fun t i =>
    buffer_releaseOne (s := t) ((x.handle + i) % 128)
  rw [if_pos named] at released
  rw [State.releaseEntries, fills, ← released]
  refine (buffer_endRing known).trans (if_congr ⟨And.left, fun feed => ⟨feed, ?_⟩⟩ rfl rfl)
  simpa only [entryCount, feed, if_true] using named

theorem samePiece_releasedEntry {b : BitVec 128} : SamePiece b (releasedEntry slot b) := by
  unfold releasedEntry
  split
  · exact samePiece_emptyEntry _
  · exact .refl b

theorem bufState_releasedEntry {b : BitVec 128} (filling : bufState b = 1) (mine : bufSlot b = slot) :
    bufState (releasedEntry slot b) = 0 := by
  rw [releasedEntry, if_pos ⟨filling, mine⟩, bufState_emptyEntry]

end

/-! ### The steps of an entry's life (R155, R156) -/

section

variable {s : State} {p h slot : Nat} {x : TravSlot}

/-- The entry of a plain fill that completes. -/
theorem execTraverseComplete_fills (taken : s.trav p slot = some x) (runs : s.enginesRun p = true) (live : x.done = false)
    (landed : s.travOver p slot x = true) (shown : x.publish = true → x.published = true) (fills : x.fills = true)
    (plain : x.kind ≠ .feed) (visible : x.shadow = false) : ∃ t, exec (.traverseComplete p slot) s = .next t ∧
      t.buffer p x.handle = setF (s.buffer p x.handle) 63 62 2 := by
  refine ⟨_, execTraverseComplete_completes taken runs live landed shown, ?_⟩
  have full : (s.putBuffer p x.handle (setF (s.buffer p x.handle) 63 62 2)).buffer p x.handle =
      setF (s.buffer p x.handle) 63 62 2 := by
    rw [State.putBuffer, buffer_pollWakes, buffer_setBuffer, if_pos ⟨rfl, rfl⟩]
  have plainFill : (x.fills && decide (x.kind ≠ .feed) && !x.shadow) = true := by
    rw [fills, decide_eq_true plain, visible]
    rfl
  have kept : ∀ u : State, (if x.follow.isSome then u.setTrav p slot { x with done := true }
      else u.dropTrav p slot).buffer p x.handle = u.buffer p x.handle := by
    intro u
    split
    · exact buffer_setTrav ..
    · exact buffer_dropTrav ..
  simp only [plainFill, if_true]
  split <;> exact (kept _).trans full

/-- What the first read of an entry by a cell's firing makes of it (R155). -/
theorem buffer_commit {c : Site} {op : Nat} {w : CellWord} {e : Effect} (reads : e.drain = some (BitVec.ofNat 7 h))
    (known : h < 128) (full : bufState (s.buffer c.p h) = 2) :
    (s.commit c op w e).buffer c.p h = setF (s.buffer c.p h) 63 62 3 := by
  have number : (BitVec.ofNat 7 h).toNat = h := by rw [BitVec.toNat_ofNat, Nat.mod_eq_of_lt known]
  have start : ∀ f : Cell → Cell, (if e.acquireY then (s.onCell c.p c.m f).acquire (.cell c.p c.m) .y
      else s.onCell c.p c.m f).buffer c.p h = s.buffer c.p h := by
    intro f
    split
    · exact (buffer_acquire ..).trans (buffer_onCell ..)
    · exact buffer_onCell ..
  have drains : ∀ u : State, (u.setBuffer c.p h (setF (s.buffer c.p h) 63 62 3)).buffer c.p h =
      setF (s.buffer c.p h) 63 62 3 := fun u => by rw [buffer_setBuffer, if_pos ⟨rfl, rfl⟩]
  unfold State.commit
  rw [buffer_handOn, buffer_stir, reads]
  simp only [number, start, full, if_true]
  split
  · rw [buffer_returnRecord, buffer_onParcel, drains]
    intro
    rfl
  · exact drains _

theorem buffer_freeEntry (q k : Nat) : (s.freeEntry p h).buffer q k =
    if p = q ∧ h = k then emptyEntry (s.buffer p h) (s.inLiveRing p h) else s.buffer q k := by
  rw [State.freeEntry, buffer_notice, buffer_setBuffer, buffer_makeReads]

theorem core_freeEntry (q : Nat) : (s.freeEntry p h).core q = s.core q := by
  rw [State.freeEntry, core_notice, core_setBuffer, core_makeReads]

end

/-- Settles O27: each step is one change of the entry's word, whose lower fields stay. -/
theorem bufferLife : Obligations.BufferLife := by
  intro s p h known keeps named
  have names : ∀ x : TravSlot, named x = true ↔ ringPlace x h < entryCount x := fun x => decide_eq_true_iff
  refine ⟨fun slot x fits fills => ?_, fun slot x taken runs live landed shown fills plain visible here => ?_,
    fun slot x fills named => ?_, fun c op w e here reads full => ?_, ?_⟩
  · have after := buffer_takeEntries (s := s) (p := p) (slot := slot) known fills
    by_cases name : ringPlace x h < entryCount x
    · rw [if_pos name] at after
      dsimp only [keeps]
      rw [after]
      exact ⟨samePiece_takenEntry, fun other => absurd ((names x).2 name) (by simp [other]), fun _ =>
        ⟨bufState_takenEntry, bufSlot_takenEntry fits, promise_takenEntry, bufShadow_takenEntry, bufFeed_takenEntry⟩⟩
    · rw [if_neg name] at after
      dsimp only [keeps]
      rw [after]
      exact ⟨SamePiece.refl _, fun _ => rfl, fun yes => absurd ((names x).1 yes) name⟩
  · subst here
    obtain ⟨t, done, after⟩ := execTraverseComplete_fills taken runs live landed shown fills plain visible
    refine ⟨t, done, ?_, ?_⟩
    · rw [after, bufState_setF (by decide)]
    · dsimp only [keeps]
      rw [after]
      exact samePiece_setF (by decide)
  · have after := buffer_releaseEntries (s := s) (p := p) (slot := slot) known fills ((names x).1 named)
    dsimp only [keeps]
    rw [after]
    split
    · exact ⟨samePiece_releasedEntry.trans samePiece_unringed, fun filling mine =>
        bufState_unringed.trans (bufState_releasedEntry filling mine)⟩
    · exact ⟨samePiece_releasedEntry, bufState_releasedEntry⟩
  · subst here
    have after := buffer_commit (op := op) (w := w) reads known full
    dsimp only [keeps]
    rw [after]
    exact ⟨bufState_setF (by decide), samePiece_setF (by decide)⟩
  · have after := buffer_freeEntry (s := s) (p := p) (h := h) p h
    rw [if_pos ⟨rfl, rfl⟩] at after
    dsimp only [keeps]
    rw [after]
    refine ⟨bufState_emptyEntry _, bufShadow_emptyEntry _, bufFeed_emptyEntry _, samePiece_emptyEntry _,
      fun q k other => ?_, core_freeEntry⟩
    rw [buffer_freeEntry, if_neg fun e => other (by rw [e.1, e.2])]

end Sys2Proof.Proofs

/-! The proofs of the obligations about stations. -/

namespace Sys2Proof.Proofs

open Sys2Proof Sys2Proof.Machine Sys2Proof.Laws

/-! ### The word of a station (R160, R175) -/

theorem getF_lt {w : Nat} (x : BitVec w) (hi lo : Nat) : getF x hi lo < 2 ^ (hi + 1 - lo) := BitVec.isLt _

theorem stationFields_lt (x : BitVec 128) : stnPending x < 2 ^ 36 ∧ stnArrivals x < 2 ^ 16 ∧ stnPhase x < 2 ^ 2 :=
  ⟨getF_lt x 95 60, getF_lt x 111 96, getF_lt x 59 58⟩

/-- A bit of a word, as a digit of its number. -/
theorem wbit_eq (v : Word) (i : Nat) : wbit v i = decide (v.toNat / 2 ^ i % 2 = 1) := by
  rw [wbit, ← BitVec.testBit_toNat, Nat.testBit_eq_decide_div_mod_eq]

/-- The fields of the word do not run into each other, and together they fit. -/
theorem toNat_stationWord (x : BitVec 128) : (stationWord x).toNat =
    stnPending x * 2 ^ 28 + stnArrivals x * 2 ^ 12 + stnCompletions x % 128 * 2 ^ 5 + stnPhase x * 2 ^ 3 +
      (stnFault x).toNat * 4 + (stnForced x).toNat * 2 + (stnComplete x).toNat := by
  obtain ⟨pending, arrivals, phase⟩ := stationFields_lt x
  have fault := (stnFault x).toNat_lt
  have forced := (stnForced x).toNat_lt
  have complete := (stnComplete x).toNat_lt
  have place : ∀ (b : Bool) (n : Nat), (if b then n else 0) = b.toNat * n := by
    intro b n
    cases b <;> simp
  rw [stationWord, BitVec.toNat_ofNat, place, place, place, Nat.mul_one, Nat.mod_eq_of_lt (by omega)]

/-- Settles O25: each field of the word is a run of digits of a number whose lower parts are smaller than its place. -/
theorem stationWord : Obligations.StationWord := by
  intro x v
  have number := toNat_stationWord x
  obtain ⟨pending, arrivals, phase⟩ := stationFields_lt x
  have fault := (stnFault x).toNat_lt
  have forced := (stnForced x).toNat_lt
  have complete := (stnComplete x).toNat_lt
  have flag : ∀ (b : Bool) (n : Nat), n % 2 = b.toNat → decide (n % 2 = 1) = b := by
    intro b n digit
    rw [digit]
    cases b <;> rfl
  simp only [wbits, bits, wbit_eq, v]
  exact ⟨by omega, by omega, by omega, by omega, flag _ _ (by omega), flag _ _ (by omega), flag _ _ (by omega)⟩

/-! ### Control words (R108) -/

section

variable {a : Word} {k i : Nat}

/-- A word with no bit from a place on is a small number. -/
theorem toNat_lt_of_wbits (known : k ≤ 64) (clear : wbits a 63 k = 0) : a.toNat < 2 ^ k := by
  have whole : a.toNat < 2 ^ k * 2 ^ (64 - k) := by
    rw [← Nat.pow_add, Nat.add_sub_cancel' known]
    exact a.isLt
  rw [wbits, bits, Nat.mod_eq_of_lt (Nat.div_lt_of_lt_mul whole)] at clear
  exact (Nat.div_eq_zero_iff.1 clear).resolve_left (by positivity)

/-- A small number has no bit from a place on. -/
theorem wbit_high (small : a.toNat < 2 ^ i) : wbit a i = false := by
  rw [wbit_eq, Nat.div_eq_of_lt small]
  rfl

/-- A small number is its low bits. -/
theorem wbits_low (small : a.toNat < 2 ^ (i + 1)) : wbits a i 0 = a.toNat := by
  rw [wbits, bits, pow_zero, Nat.div_one, Nat.sub_zero, Nat.mod_eq_of_lt small]

end

/-! ### Station instructions (R161, R165, R171 to R175) -/

section

variable {s : State} {rd ra rb : Reg}

/-- Parked writes and markers enter a parcel's exchange as long as one may (R165, R166). -/
def settled (s : State) (p : Nat) : State := s.settleExchange p (s.exchangeFuel p)

theorem execStnInit_writes (low : wbits (s.reg ra) 7 6 = 0) (mid : wbits (s.reg ra) 15 14 = 0)
    (high : wbits (s.reg ra) 63 32 = 0) (bytes : wbits (s.reg rb) 63 36 = 0) (scope : wbits (s.reg ra) 11 8 ≤ 6)
    (one : wbit (s.reg ra) 13 = false ∨
      ∀ e ∈ (s.parcel s.here).stations, e.1 ≠ wbits (s.reg ra) 5 0 → stnExchange e.2 = false) :
    let n := wbits (s.reg ra) 5 0
    exec (.stnInit ra rb) s = .next ((settled (((s.initStation s.here n
      (stationInit (s.station s.here n) (s.reg ra) (s.reg rb))).onCore s.here fun c => c.recount n).testStation s.here n)
        s.here).advance s.here) := by
  refine attempt_ok ?_
  refine (act_bind_ok (check_of ?_)).trans ?_
  · simp only [low, mid, high, bytes, decide_true, Bool.and_self]
  refine (act_bind_ok (scopeField_ok scope)).trans ?_
  refine (act_bind_ok (check_of ?_)).trans rfl
  rcases one with plain | others
  · rw [plain]; rfl
  · rw [Bool.or_eq_true]
    refine .inr ?_
    simpa using others

/-- A signal on its way, after a release at the scope of its station (R165, R172). -/
def signalled (s : State) (p q n : Nat) (g : Signal) : State :=
  let t := s.release (.core p) (scopeOfCode (stnScope (s.station q n)))
  { t with signals := t.signals ++ [g] }

theorem here_signalled (p q n : Nat) (g : Signal) : (signalled s p q n g).here = s.here :=
  here_release s (.core p) (scopeOfCode (stnScope (s.station q n)))

theorem execStnArv_own {o : Nat} {r : Region} (region : s.regionOf s.here = some (o, r)) (own : wbits (s.reg ra) 63 6 = 0) :
    let n := wbits (s.reg ra) 5 0
    exec (.stnArv ra) s = .next ((signalled s s.here s.here n (.arrive s.here n (s.here, 0, 0))).advance s.here) := by
  have small : (s.reg ra).toNat < 64 := toNat_lt_of_wbits (by decide) own
  have near : wbit (s.reg ra) 6 = false := wbit_high small
  have place : wbits (s.reg ra) 15 7 = 0 := wbits_high (by omega)
  have high : wbits (s.reg ra) 63 16 = 0 := wbits_high (by omega)
  refine attempt_ok ?_
  refine (act_bind_ok (check_of ?_)).trans ?_
  · simp only [high, place, decide_true, Bool.or_true, Bool.and_self]
  refine (act_bind_ok (myRegion_ok region)).trans ?_
  refine (act_bind_ok (check_of ?_)).trans ?_
  · rw [place]; simp
  rw [near]
  exact proceed_eq (here_signalled ..)

/-- The marker that follows a parcel's writes to an exchange station, after which it counts them anew (R165). -/
def marked (s : State) (p q n : Nat) : State :=
  let key := q * 4 + s.exchangePhase p
  (signalled s p q n (.marker q n p (s.exchangePhase p) ((s.parcel p).exch.sent.look 0 key))).onExchange p fun e =>
    { e with sent := e.sent.drop key }

theorem here_marked (p q n : Nat) : (marked s p q n).here = s.here := by
  rw [marked, State.onExchange, here_onParcel, here_signalled]

theorem execStnArv_other {o : Nat} {r : Region} (region : s.regionOf s.here = some (o, r))
    (high : wbits (s.reg ra) 63 16 = 0) (named : wbit (s.reg ra) 6 = true) (inside : wbits (s.reg ra) 15 7 < 2 ^ r.shape) :
    let n := wbits (s.reg ra) 5 0
    let q := o + wbits (s.reg ra) 15 7
    exec (.stnArv ra) s = .next ((if stnExchange (s.station q n) then marked s s.here q n
      else signalled s s.here q n (.arrive q n (s.here, 0, 0))).advance s.here) := by
  refine attempt_ok ?_
  refine (act_bind_ok (check_of ?_)).trans ?_
  · simp only [high, named, decide_true, Bool.true_or, Bool.and_self]
  refine (act_bind_ok (myRegion_ok region)).trans ?_
  refine (act_bind_ok (check_of (decide_eq_true inside))).trans ?_
  simp only [named, if_true, Bool.true_and]
  cases exchange : stnExchange (s.station (o + wbits (s.reg ra) 15 7) (wbits (s.reg ra) 5 0))
  · exact proceed_eq (here_signalled ..)
  · exact proceed_eq (here_marked ..)

theorem execStnExp_adds (high : wbits (s.reg ra) 63 6 = 0) (bytes : wbits (s.reg rb) 63 36 = 0)
    (fits : stnPending (s.station s.here (wbits (s.reg ra) 5 0)) + (s.reg rb).toNat < 2 ^ 36)
    (live : stnComplete (s.station s.here (wbits (s.reg ra) 5 0)) = false)
    (sound : stnFault (s.station s.here (wbits (s.reg ra) 5 0)) = false) :
    let n := wbits (s.reg ra) 5 0
    let x := s.station s.here n
    exec (.stnExp ra rb) s =
      .next ((s.setStation s.here n (setF x 95 60 (stnPending x + (s.reg rb).toNat))).advance s.here) := by
  refine attempt_ok ?_
  refine (act_bind_ok (check_of (by rw [high, bytes]; rfl))).trans ?_
  refine (act_bind_ok (check_of ?_)).trans rfl
  rw [decide_eq_true fits, live, sound]
  rfl

theorem execStnExp_refuses (high : wbits (s.reg ra) 63 6 = 0) (bytes : wbits (s.reg rb) 63 36 = 0)
    (refused : let x := s.station s.here (wbits (s.reg ra) 5 0)
      2 ^ 36 ≤ stnPending x + (s.reg rb).toNat ∨ stnComplete x = true ∨ stnFault x = true) :
    exec (.stnExp ra rb) s = .next (s.trapEntry s.here codeStationRange (s.reg ra) 0 false) := by
  refine attempt_fault_legal (t := s) ?_ (by decide)
  refine (act_bind_ok (check_of (by rw [high, bytes]; rfl))).trans ?_
  refine act_bind_error (check_fails ?_)
  rcases refused with much | complete | fault
  · rw [decide_eq_false (Nat.not_lt.2 much)]; rfl
  · rw [complete]; simp
  · rw [fault]; simp

theorem execStnDone_forces (high : wbits (s.reg ra) 63 6 = 0) :
    let n := wbits (s.reg ra) 5 0
    let x := s.station s.here n
    exec (.stnDone ra) s = .next ((settled ((s.setStation s.here n
      (setF (setF (setF x 111 96 (stnExpected x)) 95 60 0) 50 50 1)).testStation s.here n) s.here).advance s.here) :=
  attempt_ok (act_bind_ok (check_of (decide_eq_true high)))

theorem execStnTest_reads (high : wbits (s.reg ra) 63 6 = 0) :
    let x := s.station s.here (wbits (s.reg ra) 5 0)
    exec (.stnTest rd ra) s = .next ((if stnComplete x then s.acquire (.core s.here) (scopeOfCode (stnScope x))
      else s).writeReg rd (Machine.stationWord x)) := by
  have number : wbits (s.reg ra) 5 0 = (s.reg ra).toNat := wbits_low (toNat_lt_of_wbits (by decide) high)
  refine attempt_ok ?_
  refine (act_bind_ok (check_of (decide_eq_true high))).trans ?_
  dsimp only
  rw [number]
  cases complete : stnComplete (s.station s.here (s.reg ra).toNat) <;> rfl

end

/-- Settles O24: each instruction passes its checks and makes one update. -/
theorem stationInstructions : Obligations.StationInstructions := by
  intro s rd ra rb p a b n x settled
  refine ⟨execStnInit_writes, fun o r region own => execStnArv_own region own, ?_, execStnExp_adds, execStnExp_refuses,
    execStnDone_forces, ?_, ?_⟩
  · intro o r q t region high named inside there after
    have arrives := execStnArv_other region high named inside
    subst there after
    exact ⟨fun plain => arrives.trans (by rw [if_neg (by rw [plain]; decide)]; rfl),
      fun exchange => arrives.trans (by rw [if_pos exchange]; rfl)⟩
  · intro high live
    exact (execStnTest_reads high).trans (by rw [if_neg (by rw [live]; decide)])
  · intro high complete
    exact (execStnTest_reads high).trans (by rw [if_pos complete])

end Sys2Proof.Proofs

/-! The proofs of the obligations about buffer instructions and the other Traverse instructions. -/

namespace Sys2Proof.Proofs

open Sys2Proof Sys2Proof.Machine Sys2Proof.Laws

/-! ### Buffer instructions (R154 to R156, R176) -/

section

variable {s : State} {rd ra rb : Reg}

theorem here_freeEntry (p h : Nat) : (s.freeEntry p h).here = s.here := by
  unfold State.freeEntry State.makeReads
  dsimp only
  split <;> rfl

theorem execBufSet_sets (known : (s.reg ra).toNat < 128) (high : wbits (s.reg rb) 63 39 = 0)
    (mid : wbit (s.reg rb) 19 = false) (free : bufState (s.buffer s.here (s.reg ra).toNat) = 0)
    (baseAligned : wbits (s.reg rb) 18 0 % 64 = 0) (sizeAligned : wbits (s.reg rb) 38 20 % 64 = 0)
    (nonempty : wbits (s.reg rb) 38 20 ≠ 0) (fits : wbits (s.reg rb) 18 0 + wbits (s.reg rb) 38 20 ≤ 0x60000) :
    let h := (s.reg ra).toNat
    exec (.bufSet ra rb) s = .next ((s.setBuffer s.here h (setF (setF (s.buffer s.here h) 38 20
      (wbits (s.reg rb) 38 20)) 18 0 (wbits (s.reg rb) 18 0))).advance s.here) := by
  refine attempt_ok ?_
  refine (act_bind_ok (check_of ?_)).trans ?_
  · rw [wbits_high (lo := 7) known, high, mid]; rfl
  refine (act_bind_ok (check_of (decide_eq_true free))).trans ?_
  refine (act_bind_ok (check_of ?_)).trans rfl
  simp only [baseAligned, sizeAligned, nonempty, fits, decide_true, ne_eq, not_false_eq_true, Bool.and_self]

theorem execBufSet_refuses (known : (s.reg ra).toNat < 128) (high : wbits (s.reg rb) 63 39 = 0)
    (mid : wbit (s.reg rb) 19 = false) (taken : bufState (s.buffer s.here (s.reg ra).toNat) ≠ 0) :
    exec (.bufSet ra rb) s = .next (s.trapEntry s.here codeBufferState (s.reg ra) 2 false) := by
  refine attempt_fault_legal (t := s) ?_ (by decide)
  refine (act_bind_ok (check_of ?_)).trans ?_
  · rw [wbits_high (lo := 7) known, high, mid]; rfl
  exact act_bind_error (check_fails (decide_eq_false taken))

theorem execBufFree_frees (known : (s.reg ra).toNat < 128) (used : 2 ≤ bufState (s.buffer s.here (s.reg ra).toNat))
    (read : s.readsWait s.here (s.reg ra).toNat = false) :
    exec (.bufFree ra) s = .next ((s.freeEntry s.here (s.reg ra).toNat).advance s.here) := by
  refine attempt_ok ?_
  refine (act_bind_ok (check_of (decide_eq_true (wbits_high (lo := 7) known)))).trans ?_
  refine (act_bind_ok (check_of (decide_eq_true used))).trans ?_
  rw [read]
  exact proceed_eq (here_freeEntry ..)

theorem execBufFree_waits (known : (s.reg ra).toNat < 128) (used : 2 ≤ bufState (s.buffer s.here (s.reg ra).toNat))
    (read : s.readsWait s.here (s.reg ra).toNat = true) : exec (.bufFree ra) s = .next s := by
  refine attempt_hold ?_
  refine (act_bind_ok (check_of (decide_eq_true (wbits_high (lo := 7) known)))).trans ?_
  refine (act_bind_ok (check_of (decide_eq_true used))).trans ?_
  rw [read]
  rfl

theorem execBufFree_refuses (known : (s.reg ra).toNat < 128)
    (unused : bufState (s.buffer s.here (s.reg ra).toNat) < 2) :
    exec (.bufFree ra) s = .next (s.trapEntry s.here codeBufferState (s.reg ra) 2 false) := by
  refine attempt_fault_legal (t := s) ?_ (by decide)
  refine (act_bind_ok (check_of (decide_eq_true (wbits_high (lo := 7) known)))).trans ?_
  exact act_bind_error (check_fails (decide_eq_false (Nat.not_le.2 unused)))

theorem execBufStat_reads (known : (s.reg ra).toNat < 128) : exec (.bufStat rd ra) s =
    .next (s.writeReg rd ((s.buffer s.here (s.reg ra).toNat).setWidth 64)) :=
  attempt_ok (act_bind_ok (check_of (decide_eq_true (wbits_high (lo := 7) known))))

end

/-- Settles O26: the state of the entry chooses between the update, the wait and the trap. -/
theorem bufferInstructions : Obligations.BufferInstructions := by
  intro s rd ra rb h number known
  subst number
  exact ⟨execBufSet_sets known, execBufSet_refuses known, execBufFree_frees known, execBufFree_waits known,
    execBufFree_refuses known, execBufStat_reads known⟩

/-! ### The other Traverse instructions (R150, R153, R157, R158, R163, R177) -/

section

variable {s : State} {rd ra rb : Reg} {u : TravSlot}

theorem execTrvFollow_stages (high : wbits (s.reg ra) 63 32 = 0) (major : wbits (s.reg ra) 31 26 = 0x3E)
    (engine : wbits (s.reg ra) 25 22 = 4) (mid : wbits (s.reg ra) 21 17 = 0) :
    exec (.trvFollow ra) s = .next ((s.onParcel s.here fun x => { x with
      staged := some ⟨(s.reg ra).setWidth 32, s.reg ((s.reg ra).extractLsb' 12 5), s.reg ((s.reg ra).extractLsb' 7 5)⟩
      }).advance s.here) :=
  attempt_ok (act_bind_ok (check_of (by rw [high, major, engine, mid]; rfl)))

/-- A publish that a core asks for waits in its place, after a release at `.d` (R158, R159). -/
def published (s : State) (p : Nat) (buffer : Bool) (index : Nat) : State :=
  let t := s.release (.core p) .d
  { t with publishes := t.publishes ++ [⟨p, buffer, index, s.shadowSerials p buffer index, none⟩] }

theorem execTrvPub_buffer (high : wbits (s.reg ra) 63 7 = 0) : exec (.trvPub rd ra) s =
    .next ((published s s.here true (wbits (s.reg ra) 6 0)).writeReg rd s.newPromise) := by
  have buffer : wbit (s.reg ra) 7 = false := wbit_high (toNat_lt_of_wbits (by decide) high)
  refine attempt_ok ?_
  dsimp only
  rw [buffer]
  exact act_bind_ok (check_of (decide_eq_true high))

theorem execTrvPub_tensor (high : wbits (s.reg ra) 63 18 = 0) (tensor : wbit (s.reg ra) 7 = true)
    (low : wbits (s.reg ra) 6 0 = 0) (legend : s.hasLegend s.here (wbits (s.reg ra) 17 8) = true) :
    exec (.trvPub rd ra) s =
      .next ((published s s.here false (wbits (s.reg ra) 17 8)).writeReg rd s.newPromise) := by
  refine attempt_ok ?_
  dsimp only
  rw [tensor]
  refine (act_bind_ok (check_of (by rw [high, low]; rfl))).trans ?_
  exact (act_bind_ok (legendOf_ok legend)).trans rfl

/-- A finished request, or none, leaves a cancel nothing to do (log 103). -/
theorem execTrvCanc_eq (known : (s.reg ra).toNat < 64) : exec (.trvCanc ra) s =
    .next ((if ((s.trav s.here (s.reg ra).toNat).map (·.done)).getD true then s
      else s.stopTrav s.here (s.reg ra).toNat).advance s.here) := by
  refine attempt_ok ?_
  refine (act_bind_ok (check_of (decide_eq_true (wbits_high (lo := 6) known)))).trans ?_
  cases s.trav s.here (s.reg ra).toNat <;> rfl

theorem execTrvStat_slot (known : (s.reg ra).toNat < 64) : exec (.trvStat rd ra) s =
    .next (s.writeReg rd (((s.trav s.here (s.reg ra).toNat).map fun t =>
      if s.takenTrav s.here (s.reg ra).toNat then t.promise else 0).getD 0)) := by
  have slot : wbit (s.reg ra) 8 = false := wbit_high (by omega)
  refine attempt_ok ?_
  dsimp only
  rw [slot]
  refine (act_bind_ok (check_of (decide_eq_true (wbits_high (lo := 6) known)))).trans ?_
  cases s.trav s.here (s.reg ra).toNat <;> rfl

/-- What `TRV.STAT` reads of the engine: its flags, and how many slots are in use (R153). -/
def engineStatus (s : State) (p : Nat) : Word := BitVec.ofNat 64 ((s.parcel p).trvFlags.toNat + s.travCount p * 2 ^ 8)

theorem execTrvStat_engine (engine : wbit (s.reg ra) 8 = true) (high : wbits (s.reg ra) 63 10 = 0)
    (low : wbits (s.reg ra) 7 0 = 0) : exec (.trvStat rd ra) s =
    .next ((if wbit (s.reg ra) 9 then s.onParcel s.here fun y => { y with trvFlags := 0 } else s).writeReg rd
      (engineStatus s s.here)) := by
  refine attempt_ok ?_
  dsimp only
  rw [engine]
  refine (act_bind_ok (check_of (by rw [high, low]; rfl))).trans ?_
  cases wbit (s.reg ra) 9 <;> rfl

/-- An exchange transfer to a parcel as its slot takes it: the control word, the source offset and the place of its count
(R163, R165). -/
def exchangeRequest (s : State) (dest : Nat) (a src : Word) : TravSlot :=
  { kind := .xst, control := a,
    desc := Decode.leBytes 8 src.toNat ++ Decode.leBytes 8 (dest * 4 + s.exchangePhase s.here) ++ List.replicate 16 0,
    serial := (s.parcel s.here).serial, ftz := false, pos := 0, total := wbits a 31 21 + 1, promise := s.newPromise,
    done := false, published := false, follow := none, notices := [], stopped := false, pages := [] }

/-- An exchange transfer in its slot; sectors for another parcel count in the sender's phase (R165). -/
def withExchange (s : State) (slot dest : Nat) (a src : Word) : State :=
  let t := exchangeRequest s dest a src
  (s.setTrav s.here slot t).onParcel s.here fun y =>
    { y with serial := y.serial + 1, trvFault := y.trvFault.erase t.identity,
             exch := if dest = s.here then y.exch
               else { y.exch with sent := y.exch.sent.alter 0 (dest * 4 + s.exchangePhase s.here) (· + t.total) } }

theorem trav_withExchange (slot dest : Nat) (a src : Word) :
    (withExchange s slot dest a src).trav s.here slot = some (exchangeRequest s dest a src) := by
  refine (trav_onParcel ?_).trans trav_setTrav
  intro
  rfl

theorem execTrvXst_takes {o slot : Nat} {r : Region} (region : s.regionOf s.here = some (o, r))
    (high : wbits (s.reg ra) 63 32 = 0) (mid : wbit (s.reg ra) 9 = false) (inside : wbits (s.reg ra) 8 0 < 2 ^ r.shape)
    (fits : (s.reg rb).toNat % 32 = 0) (half : wbits (s.reg ra) 20 10 + (wbits (s.reg ra) 31 21 + 1) ≤ 2048)
    (pad : (s.reg rb).toNat + 32 * (wbits (s.reg ra) 31 21 + 1) ≤ 0x60000) (free : s.freeTrav s.here = some slot) :
    exec (.trvXst rd ra rb) s =
      .next ((withExchange s slot (o + wbits (s.reg ra) 8 0) (s.reg ra) (s.reg rb)).writeReg rd s.newPromise) := by
  refine attempt_ok ?_
  refine (act_bind_ok (check_of (by rw [high, mid]; rfl))).trans ?_
  refine (act_bind_ok (myRegion_ok region)).trans ?_
  refine (act_bind_ok (check_of (decide_eq_true inside))).trans ?_
  refine (act_bind_ok (aligned_ok fits)).trans ?_
  refine (act_bind_ok (check_of (by rw [decide_eq_true half, decide_eq_true pad]; rfl))).trans ?_
  rw [free]
  rfl

end

/-- Settles O29: each instruction passes its checks; what its slot or its control word says chooses the update. -/
theorem traverseInstructions : Obligations.TraverseInstructions := by
  intro s rd ra rb p a b
  refine ⟨execTrvFollow_stages, ?_, ?_, ?_, ?_, ?_, ?_, ?_, ?_, ?_, ?_⟩
  · intro t released high
    subst released
    exact execTrvPub_buffer high
  · intro t released high tensor low legend
    subst released
    exact execTrvPub_tensor high tensor low legend
  · intro o r slot region high mid inside fits half pad free
    exact ⟨_, _, execTrvXst_takes region high mid inside fits half pad free,
      (trav_writeReg ..).trans (trav_withExchange ..), rfl, rfl, rfl, rfl, by rw [reg_writeReg, if_pos rfl]⟩
  · intro u known taken live
    exact (execTrvCanc_eq known).trans (by rw [taken, Option.map_some, Option.getD_some, live]; rfl)
  · intro known empty
    exact (execTrvCanc_eq known).trans (by rw [empty]; rfl)
  · intro u known taken done
    exact (execTrvCanc_eq known).trans (by rw [taken, Option.map_some, Option.getD_some, done]; rfl)
  · intro u known taken used
    exact (execTrvStat_slot known).trans (by rw [taken, used]; rfl)
  · intro known unused
    refine (execTrvStat_slot known).trans ?_
    rw [unused]
    cases s.trav s.here (s.reg ra).toNat <;> rfl
  · intro named
    refine (execTrvStat_engine ?_ ?_ ?_).trans ?_
    all_goals rw [show s.reg ra = 0x100 from named]; rfl
  · intro named
    refine (execTrvStat_engine ?_ ?_ ?_).trans ?_
    all_goals rw [show s.reg ra = 0x300 from named]; rfl

end Sys2Proof.Proofs

/-! The proof of the obligation about boot, measurement, fatal errors, power and resets. -/

namespace Sys2Proof.Proofs

open Sys2Proof Sys2Proof.Machine Sys2Proof.Laws

/-! ### What a write at home leaves alone (R62, R65) -/

/-- Only memory, its versions and the reads held for them differ. -/
def SameButMemory (s t : State) : Prop :=
  ∃ mem versions kept holds, t = { s with mem := mem, versions := versions, kept := kept, holds := holds }

theorem SameButMemory.trans {s t u : State} (h : SameButMemory s t) (k : SameButMemory t u) : SameButMemory s u := by
  obtain ⟨_, _, _, _, rfl⟩ := h
  obtain ⟨_, _, _, _, rfl⟩ := k
  exact ⟨_, _, _, _, rfl⟩

theorem sameButMemory_bump (s : State) (x k : Nat) : SameButMemory s (s.bump x k) := by
  unfold State.bump State.serveHolds
  dsimp only
  split <;> exact ⟨_, _, _, _, rfl⟩

theorem sameButMemory_homeWrite (s : State) (pa : Nat) (data : List Byte) : SameButMemory s (s.homeWrite pa data) := by
  have written : SameButMemory s { s with mem := s.mem.write (s.resolve pa) data } := ⟨_, _, _, _, rfl⟩
  unfold State.homeWrite
  dsimp only
  split
  · exact List.foldlRecOn _ _ (motive := SameButMemory s) written fun _ kept _ _ => kept.trans (sameButMemory_bump ..)
  · exact written

/-! ### Launches whose dependence fails leave every parcel (R449, R450) -/

section

variable (s : State)

theorem parcels_homeWrite (pa : Nat) (data : List Byte) : (s.homeWrite pa data).parcels = s.parcels := by
  obtain ⟨_, _, _, _, same⟩ := sameButMemory_homeWrite s pa data
  rw [same]

theorem translatedFrom_frontLookup (v asid : Nat) (va : Word) (k : AccessKind) :
    TranslatedFrom s (s.frontLookup v asid va k).2 := by
  unfold State.frontLookup State.bareLookup
  split
  · exact .refl s
  split
  · exact .refl s
  split
  · exact .refl s
  split
  · exact .refl s
  split
  · exact translatedFrom_holdWalk ..
  · exact translatedFrom_askAccess ..

theorem parcels_frontWrite (v asid : Nat) (va : Word) (data : List Byte) :
    (s.frontWrite v asid va data).parcels = s.parcels := by
  have looks := (translatedFrom_frontLookup s v asid va .write).parcels
  unfold State.frontWrite
  split
  · rfl
  split
  · next found => rw [found] at looks; rw [parcels_homeWrite, looks]
  · next found => rw [found] at looks; exact looks
  · next found => rw [found] at looks; exact looks

theorem parcels_failDependence (k : Nat) (code : Byte) : (s.failDependence k code).parcels = s.parcels := by
  unfold State.failDependence State.failLaunch
  split
  · rfl
  · dsimp only
    split
    · exact parcels_frontWrite ..
    · rfl

end

/-! ### The boot ROM (R476, R478) -/

section

variable {s : State} {image : List Byte}

/-- An image that the ROM has started is measured, and runs; flash and fuses stay. -/
theorem startImage_eq (s : State) (image : List Byte) : ∃ b, s.startImage image = { s with boot := b } ∧
    b.phase = .running ∧ b.image = image ∧ b.flash = s.boot.flash ∧ b.fused = s.boot.fused := by
  unfold State.startImage State.measure
  exact ⟨_, rfl, rfl, rfl, rfl, rfl⟩

/-- The ROM changes the boot record alone: the partition's image runs where it passes. -/
theorem bootRom_eq (s : State) : ∃ b, s.bootRom = { s with boot := b } ∧
    b.phase = (if s.imagePasses s.boot.flash then .running else .recovery) ∧ b.flash = s.boot.flash ∧
    b.fused = s.boot.fused := by
  unfold State.bootRom
  split
  · obtain ⟨b, starts, phase, -, flash, fused⟩ := startImage_eq s s.boot.flash
    exact ⟨b, starts, phase, flash, fused⟩
  · exact ⟨_, rfl, rfl, rfl, rfl⟩

theorem execPowerUp_boots (s : State) : ∃ t, exec .powerUp s = .next t ∧ t.meridian = 0 ∧ t.regions = [] ∧ t.mem = [] ∧
    t.book = [] ∧ t.deep = s.deep ∧ t.boot.fused = s.boot.fused ∧ t.boot.flash = s.boot.flash ∧
    t.boot.phase = (if s.imagePasses s.boot.flash then .running else .recovery) := by
  obtain ⟨b, boots, phase, flash, fused⟩ := bootRom_eq s.afterReset
  exact ⟨_, congrArg Host.Outcome.next boots, rfl, rfl, rfl, rfl, rfl, fused, flash, phase⟩

theorem execDeviceReset_boots (s : State) : ∃ t, exec .deviceReset s = .next t ∧ t.meridian = 0 ∧ t.regions = [] ∧
    t.segments = [] ∧ t.versions = [] ∧ t.parcels = [] ∧ t.book = s.book ∧ t.deep = s.deep ∧
    t.boot.fused = s.boot.fused ∧ t.boot.phase = (if s.imagePasses s.boot.flash then .running else .recovery) := by
  obtain ⟨b, boots, phase, flash, fused⟩ := bootRom_eq { s.afterReset with
    mem := s.mem, book := s.book, boot := { s.afterReset.boot with dump := s.boot.dump } }
  exact ⟨_, congrArg Host.Outcome.next boots, rfl, rfl, rfl, rfl, rfl, rfl, rfl, fused, phase⟩

theorem execStagedImageLengthWrite_judges {len : Nat} (recovery : s.boot.phase = .recovery) (fits : len ≤ 0xFFFFF8) :
    let passes := s.imagePasses (image.take len)
    ∃ t, exec (.stagedImageLengthWrite image len) s = .next t ∧ t.boot.phase = (if passes then .running else .recovery) ∧
      t.boot.image = (if passes then image.take len else s.boot.image) ∧ t.boot.flash = s.boot.flash := by
  have judged : exec (.stagedImageLengthWrite image len) s =
      .next (if s.imagePasses (image.take len) then s.startImage (image.take len) else s) := by
    show execStagedImageLengthWrite image len s = _
    rw [execStagedImageLengthWrite, decide_eq_true recovery, decide_eq_true fits]
    rfl
  dsimp only
  cases passes : s.imagePasses (image.take len) with
  | true =>
    obtain ⟨b, starts, phase, running, flash, -⟩ := startImage_eq s (image.take len)
    rw [passes, if_pos rfl, starts] at judged
    exact ⟨_, judged, phase, running, flash⟩
  | false =>
    rw [passes, if_neg (by decide)] at judged
    exact ⟨_, judged, recovery, rfl, rfl⟩

theorem execSecurityVersionRaise_raises {version : Nat} (running : s.boot.phase = .running) :
    exec (.securityVersionRaise version) s = .next { s with boot := { s.boot with
      fused := max s.boot.fused version, flash := Config.installedImage s.tick } } :=
  congrArg Host.Outcome.next (if_pos running)

theorem execSpdmMeasurementRequest_answers {index nonce : Nat} {d : BitVec 512} (measured : s.boot.measures.find index = some d) :
    exec (.spdmMeasurementRequest index nonce) s = .next { s with boot := { s.boot with
      answers := s.boot.answers ++ [(index, d, nonce,
        slhSign s.boot.attestKey (Config.signRandom s.tick) (Config.spdmMessage index d nonce))] } } := by
  show execSpdmMeasurementRequest index nonce s = _
  rw [execSpdmMeasurementRequest, measured]

theorem execIdeKeyProgramming_programs {stream config : Nat} (known : stream < 4) :
    ∃ t, exec (.ideKeyProgramming stream config) s = .next t ∧ t.boot.ide = s.boot.ide.put stream config ∧
      t.boot.phase = s.boot.phase :=
  ⟨_, if_neg (Nat.not_le.2 known), rfl, rfl⟩

end

/-! ### The field book and fatal errors (R479, R482, R483, R485) -/

section

variable {s : State} {code : Byte}

/-- An event later than the book's last goes in front of the newest. -/
theorem bookInsert_later {e : BookEvent} {l : List BookEvent} (later : ∀ x ∈ l.head?, x.meridian ≠ e.meridian) :
    bookInsert e l = e :: l := by
  cases l with
  | nil => rfl
  | cons x xs =>
    have other : x.meridian ≠ e.meridian := later x rfl
    simp only [bookInsert, other, decide_false, Bool.false_and, Bool.false_eq_true, if_false]

/-- The book keeps the last 16,384 events, the newest behind those that stand there. -/
theorem book_log_later {kind p : Nat} {asid : BitVec 14} {value : Word}
    (later : ∀ x ∈ s.book.getLast?, x.meridian ≠ s.meridian) : (s.log kind code p asid value).book =
      (s.book ++ [(⟨s.meridian, kind, code, p, asid, value⟩ : BookEvent)]).drop (s.book.length + 1 - 16384) := by
  show ((bookInsert _ s.book.reverse).take 16384).reverse = _
  rw [bookInsert_later (by rwa [List.head?_reverse]), List.reverse_take, List.reverse_cons, List.reverse_reverse,
    List.length_cons, List.length_reverse]

theorem execCorrectedSoftError_logs (s : State) (parcel : Nat) (value : Word) : exec (.correctedSoftError parcel value) s =
    .next (s.log 7 0 parcel (((s.regionOf parcel).map fun x => x.2.asid).getD 0) value) := by
  show execCorrectedSoftError parcel value s = _
  unfold execCorrectedSoftError
  cases s.regionOf parcel <;> rfl

theorem execRegionFatalError_found {o parcel : Nat} {r : Region} (found : s.regions.find o = some r)
    (low : 0xF0 ≤ code.toNat) (high : code.toNat ≤ 0xF7) : exec (.regionFatalError o code parcel) s =
    .next (if s.boot.phase = .held then s
      else (s.log 8 code parcel r.asid 0).endRegion o 2 code 0 parcel (Config.freeWord s.tick) true) := by
  show execRegionFatalError o code parcel s = _
  rw [execRegionFatalError, found]
  dsimp only
  rw [decide_eq_false (Nat.not_lt.2 low), decide_eq_false (Nat.not_lt.2 high), Bool.or_false, Bool.or_false]
  by_cases held : s.boot.phase = .held
  · rw [if_pos (decide_eq_true held), if_pos held]
  · rw [if_neg (by rw [decide_eq_false held]; decide), if_neg held]

/-- A page of a dump changes memory and how far the dump has come. -/
theorem dumpPage_eq (s : State) (d : Dump) (page : Nat) : ∃ t, SameButMemory s t ∧
    s.dumpPage d page = { t with boot := { t.boot with dump := some { d with written := 4096 * (page + 1) } } } := by
  unfold State.dumpPage
  exact ⟨_, sameButMemory_homeWrite .., rfl⟩

theorem execDeviceFatalError_holds (fatal : 0xF8 ≤ code.toNat) (live : s.boot.phase ≠ .held) :
    ∃ t, exec (.deviceFatalError code) s = .next t ∧ t.boot.phase = .held ∧ t.regions = s.regions ∧
      t.parcels = s.parcels ∧ t.book = (s.log 8 code 0 0 0).book ∧
      ∃ d, t.boot.dump = some d ∧ d.codes = [code] ∧ d.meridian = s.meridian ∧ d.written = 4096 := by
  have dumps : exec (.deviceFatalError code) s =
      .next ((s.log 8 code 0 0 0).beginDump ((s.log 8 code 0 0 0).dumpNow code)) := by
    show execDeviceFatalError code s = _
    rw [execDeviceFatalError, if_neg (Nat.not_lt.2 fatal), if_neg live]
  rw [State.beginDump] at dumps
  obtain ⟨t, ⟨_, _, _, _, same⟩, page⟩ := dumpPage_eq
    { s.log 8 code 0 0 0 with boot := { (s.log 8 code 0 0 0).boot with phase := .held } }
    ((s.log 8 code 0 0 0).dumpNow code) 0
  subst same
  rw [page] at dumps
  exact ⟨_, dumps, rfl, rfl, rfl, rfl, _, rfl, rfl, rfl, rfl⟩

theorem execDeviceFatalError_second {d : Dump} (fatal : 0xF8 ≤ code.toNat) (held : s.boot.phase = .held)
    (dump : s.boot.dump = some d) : exec (.deviceFatalError code) s = .next (if d.length ≤ d.written
      then s.log 8 code 0 0 0
      else (s.log 8 code 0 0 0).dumpHead { d with codes := d.codes ++ [code], length := d.written }) := by
  show execDeviceFatalError code s = _
  rw [execDeviceFatalError, if_neg (Nat.not_lt.2 fatal), if_pos held, dump]

end

/-! ### Power gating and the reset of a parcel (R162, R484) -/

section

variable {s : State} {p : Nat}

theorem execParcelPowerGate_gates (running : s.boot.phase = .running) (known : p < 512) (free : s.parcelFree p = true) :
    exec (.parcelPowerGate p) s = .next (s.onParcel p fun x => { x with gated := true }) := by
  show execParcelPowerGate p s = _
  rw [execParcelPowerGate, decide_eq_true running, decide_eq_true known, free]
  rfl

theorem execParcelWake_wakes (gated : (s.parcel p).gated = true) :
    exec (.parcelWake p) s = .next ((s.onParcel p fun x => { x with gated := false }).pollWakes p) :=
  congrArg Host.Outcome.next (if_pos gated)

/-- What a reset leaves of a parcel: the records of the streams that it is home to, and its gate (R162, log 87). -/
def resetParcel (x : Parcel) : Parcel :=
  { Parcel.reset with endCount := x.endCount, ends := x.ends, gated := x.gated, wasReset := true }

/-- A fold of steps that leave the parcels alone leaves them alone. -/
theorem foldl_parcels {α : Type} {f : State → α → State} (h : ∀ t a, (f t a).parcels = t.parcels) (l : List α) (s : State) :
    (l.foldl f s).parcels = s.parcels :=
  List.foldlRecOn l f (motive := fun t => t.parcels = s.parcels) rfl fun t kept a _ => (h t a).trans kept

/-- Launches that waited for a station of the parcel fail, which leaves the reset parcel as it is. -/
theorem execParcelReset_resets (s : State) (known : p < 512) :
    ∃ t x, exec (.parcelReset p) s = .next t ∧ t.parcel p = resetParcel x := by
  let u := (s.killEnds (fun l => l.device = s.link.number && l.parcel = p) (fun h => h = p)).loseSegments p
  refine ⟨_, u.parcel p, if_neg (Nat.not_le.2 known), ?_⟩
  refine (congrArg (fun l => Table.look Parcel.reset l p) (foldl_parcels (fun t e => ?_) _ _)).trans
    ((parcel_onParcel u p p resetParcel).trans (if_pos rfl))
  split
  · exact parcels_failDependence ..
  · rfl

end

/-- Settles O53: each event's conditions choose its branch, and a reset leaves what its own fields say. -/
theorem bootEvents : Obligations.BootEvents := by
  intro s
  refine ⟨execPowerUp_boots s, execDeviceReset_boots s, fun image len => execStagedImageLengthWrite_judges, fun version running =>
    ⟨_, execSecurityVersionRaise_raises running, rfl, rfl, rfl, rfl, rfl⟩, fun index nonce d =>
    execSpdmMeasurementRequest_answers, fun stream config => execIdeKeyProgramming_programs, fun o r code parcel found low high =>
    ⟨fun live => ?_, fun held => ?_⟩, fun code => execDeviceFatalError_holds, fun code d fatal held dump =>
    ⟨fun more => ?_, fun whole => ?_⟩, fun p => execParcelPowerGate_gates, fun p => execParcelWake_wakes, fun p known => ?_,
    fun parcel value => ⟨_, execCorrectedSoftError_logs s parcel value, rfl, book_log_later⟩⟩
  · exact (execRegionFatalError_found found low high).trans (congrArg _ (if_neg live))
  · exact (execRegionFatalError_found found low high).trans (congrArg _ (if_pos held))
  · exact ⟨_, (execDeviceFatalError_second fatal held dump).trans (congrArg _ (if_neg (Nat.not_le.2 more))), rfl⟩
  · exact (execDeviceFatalError_second fatal held dump).trans (congrArg _ (if_pos whole))
  · obtain ⟨t, x, resets, parcel⟩ := execParcelReset_resets s known
    refine ⟨t, resets, fun m => ?_, fun n => ?_, fun r => ?_, ?_⟩
    · rw [State.cell, parcel]; rfl
    · rw [State.station, parcel]; rfl
    · rw [State.core, parcel]; exact get_coreReset r
    · rw [parcel]; rfl

end Sys2Proof.Proofs

/-! The proof of the obligation about what a cell instruction leaves alone. -/

namespace Sys2Proof.Proofs

open Sys2Proof Sys2Proof.Machine Sys2Proof.Laws

/-! ### The entry that a firing drains (R155, R254) -/

/-- The effect of a firing, where there is one, drains no entry but the one that an operand names. -/
structure Drains (a : Operand) (x : Except CellStop Effect) : Prop where
  named : ∀ e h, x = .ok e → e.drain = some h → a = .handle h

section

variable {α : Type} {f : Firing} {a : Operand} {e : Effect}

theorem drains_ok (none : e.drain = none) : Drains a (.ok e) :=
  ⟨fun _ _ made some => by cases made; rw [none] at some; cases some⟩

theorem drains_error (x : CellStop) : Drains a (.error x) := ⟨fun _ _ made => by cases made⟩

theorem drains_bind {x : Except CellStop α} {k : α → Except CellStop Effect} (h : ∀ y, Drains a (k y)) :
    Drains a (x >>= k) := by
  cases x with
  | ok y => exact h y
  | error x => exact drains_error x

theorem drains_ite {c : Prop} [Decidable c] {x y : Except CellStop Effect} (hx : Drains a x) (hy : Drains a y) :
    Drains a (if c then x else y) := by
  split <;> assumption

theorem drains_each (g : Nat → Nat → Nat → Nat) : Drains a (f.each g) := drains_bind fun _ => drains_ok rfl

theorem drains_dot : Drains a f.dot := drains_bind fun _ => drains_bind fun _ => drains_bind fun _ => drains_ok rfl

theorem drains_move (x : LinkWord) : Drains a (f.move x) := by
  unfold Firing.move
  split
  · exact drains_ite (drains_error _) (drains_ok rfl)
  · exact drains_ok rfl

theorem judge_drain (all : Bool) (mask : BitVec 16) (res : List Bool) : (f.judge all mask res).drain = none := by
  unfold Firing.judge
  split <;> rfl

theorem drains_conclude {marks : List (BitVec 16 × FFlags)} {gen : BitVec 32} (none : e.drain = none) :
    Drains a (f.conclude marks gen e) := drains_ite (drains_ok none) (drains_error _)

theorem drains_emit (mask : BitVec 16) (ks : List (BitVec 32 → Rounded)) : Drains a (f.emit mask ks) :=
  drains_conclude rfl

theorem drains_float (g : FVal → FVal → FVal → Pre) : Drains a (f.float g) := drains_bind fun _ => drains_emit ..

theorem drains_readBuffer (h : BitVec 7) : Drains (.handle h) (f.readBuffer h) := by
  unfold Firing.readBuffer
  refine ⟨fun e k made drained => ?_⟩
  cases read : f.read f.w.b with
  | error x => rw [read] at made; cases made
  | ok b =>
    rw [read] at made
    change (if _ then _ else _) = _ at made
    split at made
    · cases made
    · cases made
      cases drained
      rfl

end

/-- Every cell instruction fires an operation that drains at most the entry that its source A names. -/
theorem exec_fires {i : Instr} {op : BitVec 8} {w : CellWord} (s : State) (cell : i.cellParts? = some (op, w)) :
    ∃ n k, exec i s = .next (s.fire n w k) ∧ ∀ f, Drains w.a (k f) := by
  cases i with
  | iadd | isub | iadds | isubs | imul | imulh | imad | imin | imax | iabs | ineg | iavg | shl | shr | sar | rot |
    cellAnd | cellOr | cellXor | andn | not | cellClz | cellCtz | ffs | cellPopc | brev | bfx | bfi | sel =>
    cases cell; exact ⟨_, _, rfl, fun _ => drains_each _⟩
  | fadd | fsub | fmul | ffma | fmin | fmax | fabs | fneg | frcp | frsq | fsqrt | fexp2 | flog2 | ftanh | fsigm | fsinp =>
    cases cell; exact ⟨_, _, rfl, fun _ => drains_float _⟩
  | dot4 | dot2 => cases cell; exact ⟨_, _, rfl, fun _ => drains_dot⟩
  | icmp | fcls => cases cell; exact ⟨_, _, rfl, fun _ => drains_bind fun _ => drains_ok (judge_drain ..)⟩
  | fcmp => cases cell; exact ⟨_, _, rfl, fun _ => drains_bind fun _ => drains_conclude (judge_drain ..)⟩
  | frnd => cases cell; exact ⟨_, _, rfl, fun _ => drains_bind fun _ => drains_emit ..⟩
  | mov | deq => cases cell; exact ⟨_, _, rfl, fun _ => drains_bind fun _ => drains_move _⟩
  | movc | kop | peek | qstat | pois | halt | nop => cases cell; exact ⟨_, _, rfl, fun _ => drains_ok rfl⟩
  | trap => cases cell; exact ⟨_, _, rfl, fun _ => drains_error _⟩
  | bcst | redi | scni | enq | dly | mrg | tag | rdon | rrte =>
    cases cell; exact ⟨_, _, rfl, fun _ => drains_bind fun _ => drains_ok rfl⟩
  | lprm | lshf | proj | walk | atom | cellLdv | cellSt | cellStv | hout =>
    cases cell; exact ⟨_, _, rfl, fun _ => drains_bind fun _ => drains_bind fun _ => drains_ok rfl⟩
  | redf => cases cell; exact ⟨_, _, rfl, fun _ => drains_bind fun _ => drains_conclude rfl⟩
  | topk | cvt | bq =>
    cases cell; exact ⟨_, _, rfl, fun _ => drains_bind fun _ => drains_bind fun _ => drains_conclude rfl⟩
  | bdq =>
    cases cell; exact ⟨_, _, rfl, fun _ => drains_bind fun _ => drains_ite (drains_error _) (drains_conclude rfl)⟩
  | wadp => cases cell; exact ⟨_, _, rfl, fun _ => drains_bind fun _ => drains_ite (drains_ok rfl) (drains_conclude rfl)⟩
  | hin => cases cell; exact ⟨_, _, rfl, fun _ => drains_bind fun _ => drains_ite (drains_ok rfl) (drains_error _)⟩
  | gate =>
    cases cell
    refine ⟨_, _, rfl, fun _ => drains_ite (drains_bind fun _ => drains_ok ?_)
      (drains_bind fun _ => drains_ite (drains_ok rfl) (drains_error _))⟩
    split <;> rfl
  | str =>
    cases cell
    refine ⟨_, _, rfl, fun _ => drains_bind fun _ => drains_bind fun _ => drains_ok ?_⟩
    split <;> rfl
  | scnf =>
    cases cell
    refine ⟨_, _, rfl, fun _ => drains_bind fun _ => ?_⟩
    split
    · exact drains_ok rfl
    · exact drains_conclude rfl
  | sclb =>
    cases cell
    refine ⟨_, _, rfl, fun _ => drains_bind fun _ => ?_⟩
    dsimp only
    split
    · exact drains_ok rfl
    · exact drains_bind fun _ => drains_ite (drains_error _) (drains_ite (drains_ok rfl) (drains_conclude rfl))
  | adv =>
    cases cell
    refine ⟨_, _, rfl, fun _ => ?_⟩
    split <;> exact drains_ok rfl
  | widn =>
    cases cell
    refine ⟨_, _, rfl, fun _ => drains_bind fun _ => ?_⟩
    split <;> exact drains_ok rfl
  | cellLd =>
    cases cell
    refine ⟨_, _, rfl, fun _ => ?_⟩
    split
    · next handle => rw [handle]; exact drains_readBuffer _
    · exact drains_bind fun _ => drains_ok rfl
  | _ => cases cell

/-! ### What a firing may change (R184, R192, R197, R252, R291) -/

/-- What two states share where cells of parcel `p` have fired or frozen in between: of that parcel only the cells in
`own`, the entry that `a` names and the credits may differ, and of the device no more than that parcel, the held
sectors, the Compasses, the regions and the reports. -/
structure CellFramed (p : Nat) (own : Nat → Prop) (a : Operand) (s t : State) : Prop where
  memory : t.mem = s.mem ∧ t.deep = s.deep ∧ t.versions = s.versions ∧ t.kept = s.kept
  device : t.queues = s.queues ∧ t.segments = s.segments ∧ t.sets = s.sets ∧ t.launches = s.launches ∧
    t.meridian = s.meridian
  others : ∀ q, q ≠ p → t.parcel q = s.parcel q
  units : (t.parcel p).core = (s.parcel p).core ∧ (t.parcel p).stations = (s.parcel p).stations ∧
    (t.parcel p).streams = (s.parcel p).streams ∧ (t.parcel p).travs = (s.parcel p).travs ∧
    (t.parcel p).ports = (s.parcel p).ports
  cells : ∀ m, ¬ own m → t.cell p m = s.cell p m
  unnamed : (∀ h, a ≠ .handle h) → (t.parcel p).buffers = (s.parcel p).buffers
  named : ∀ h n, a = .handle h → n ≠ h.toNat → t.buffer p n = s.buffer p n

section

variable {p m : Nat} {own own' : Nat → Prop} {a : Operand} {s t u : State}

theorem CellFramed.trans (h : CellFramed p own a s t) (k : CellFramed p own a t u) : CellFramed p own a s u where
  memory :=
    let ⟨m1, m2, m3, m4⟩ := h.memory
    let ⟨n1, n2, n3, n4⟩ := k.memory
    ⟨n1.trans m1, n2.trans m2, n3.trans m3, n4.trans m4⟩
  device :=
    let ⟨d1, d2, d3, d4, d5⟩ := h.device
    let ⟨e1, e2, e3, e4, e5⟩ := k.device
    ⟨e1.trans d1, e2.trans d2, e3.trans d3, e4.trans d4, e5.trans d5⟩
  others q other := (k.others q other).trans (h.others q other)
  units :=
    let ⟨u1, u2, u3, u4, u5⟩ := h.units
    let ⟨v1, v2, v3, v4, v5⟩ := k.units
    ⟨v1.trans u1, v2.trans u2, v3.trans u3, v4.trans u4, v5.trans u5⟩
  cells m other := (k.cells m other).trans (h.cells m other)
  unnamed none := (k.unnamed none).trans (h.unnamed none)
  named n i handle other := (k.named n i handle other).trans (h.named n i handle other)

/-- More cells may differ. -/
theorem CellFramed.mono (h : CellFramed p own a s t) (more : ∀ m, own m → own' m) : CellFramed p own' a s t :=
  { h with cells := fun m other => h.cells m fun mine => other (more m mine) }

/-- Held sectors, Compasses, regions and reports stand beside what a firing leaves alone. -/
theorem cellFramed_aside {slices compasses regions reports} : CellFramed p own a s
    { s with slices := slices, compasses := compasses, regions := regions, reports := reports } where
  memory := ⟨rfl, rfl, rfl, rfl⟩
  device := ⟨rfl, rfl, rfl, rfl, rfl⟩
  others _ _ := rfl
  units := ⟨rfl, rfl, rfl, rfl, rfl⟩
  cells _ _ := rfl
  unnamed _ := rfl
  named _ _ _ _ := rfl

theorem CellFramed.refl : CellFramed p own a s s := cellFramed_aside

/-- A change of the parcel that keeps its other units, the cells out of `own` and the entries that `a` does not name. -/
theorem cellFramed_onParcel {f : Parcel → Parcel}
    (units : ∀ x, (f x).core = x.core ∧ (f x).stations = x.stations ∧ (f x).streams = x.streams ∧
      (f x).travs = x.travs ∧ (f x).ports = x.ports)
    (cells : ∀ x m, ¬ own m → (f x).cells.look Cell.reset m = x.cells.look Cell.reset m)
    (unnamed : (∀ h, a ≠ .handle h) → ∀ x, (f x).buffers = x.buffers)
    (named : ∀ h n, a = .handle h → n ≠ h.toNat → ∀ x, (f x).buffers.look 0 n = x.buffers.look 0 n) :
    CellFramed p own a s (s.onParcel p f) := by
  have here : (s.onParcel p f).parcel p = f (s.parcel p) := by rw [parcel_onParcel, if_pos rfl]
  refine ⟨⟨rfl, rfl, rfl, rfl⟩, ⟨rfl, rfl, rfl, rfl, rfl⟩, fun q other => ?_, ?_, fun m other => ?_,
    fun none => ?_, fun h n handle other => ?_⟩
  · rw [parcel_onParcel, if_neg (Ne.symm other)]
  · rw [here]; exact units _
  · rw [State.cell, here]; exact cells _ _ other
  · rw [here]; exact unnamed none _
  · rw [State.buffer, here]; exact named h n handle other _

theorem cellFramed_onCell {f : Cell → Cell} (mine : own m) : CellFramed p own a s (s.onCell p m f) :=
  cellFramed_onParcel (fun _ => ⟨rfl, rfl, rfl, rfl, rfl⟩)
    (fun _ n other => (look_put ..).trans (if_neg fun same : m = n => other (same ▸ mine)))
    (fun _ _ => rfl) fun _ _ _ _ _ => rfl

theorem cellFramed_credits {f : Parcel → Nat} :
    CellFramed p own a s (s.onParcel p fun y => { y with credits := f y }) :=
  cellFramed_onParcel (fun _ => ⟨rfl, rfl, rfl, rfl, rfl⟩) (fun _ _ _ => rfl) (fun _ _ => rfl) fun _ _ _ _ _ => rfl

theorem cellFramed_setBuffer {h : BitVec 7} {b : BitVec 128} (handle : a = .handle h) :
    CellFramed p own a s (s.setBuffer p h.toNat b) :=
  cellFramed_onParcel (fun _ => ⟨rfl, rfl, rfl, rfl, rfl⟩) (fun _ _ _ => rfl) (fun none => absurd handle (none h))
    fun k n handle' other _ => (look_put ..).trans
      (if_neg fun e => other (by cases handle.symm.trans handle'; exact e.symm))

/-- An acquire changes nothing but what slices hold. -/
theorem acquire_eq (s : State) (u : Writer) (sc : Scope) : ∃ l, s.acquire u sc = { s with slices := l } := by
  unfold State.acquire
  split
  · refine List.foldlRecOn _ _ (motive := fun t : State => ∃ l, t = { s with slices := l }) ⟨s.slices, rfl⟩ ?_
    rintro _ ⟨l, rfl⟩ e -
    exact ⟨_, rfl⟩
  · exact ⟨s.slices, rfl⟩

theorem cellFramed_acquire (w : Writer) (sc : Scope) : CellFramed p own a s (s.acquire w sc) := by
  obtain ⟨l, h⟩ := acquire_eq s w sc
  rw [h]
  exact cellFramed_aside

theorem cellFramed_stir (q : Nat) : CellFramed p own a s (s.stir q) := by
  unfold State.stir
  split
  · exact cellFramed_aside
  · exact .refl

/-- The cell after one in snake order is another one. -/
theorem next_ne_of_snake {i n : Nat} (here : snake.idxOf? m = some i) (next : snake[i + 1]? = some n) : n ≠ m := by
  rintro rfl
  obtain ⟨inside, same, -⟩ := List.findIdx?_eq_some_iff_getElem.1 here
  obtain ⟨inside', next⟩ := List.getElem?_eq_some_iff.1 next
  have distinct : snake.Nodup := by decide
  have := (distinct.getElem_inj_iff (hi := inside') (hj := inside)).1 (next.trans (eq_of_beq same).symm)
  omega

/-- Whether a cell has a follower, and which, does not depend on the cell itself. -/
theorem followerOf_congr (h : ∀ n, n ≠ m → t.cell p n = s.cell p n) : t.followerOf p m = s.followerOf p m := by
  unfold State.followerOf
  split
  · rfl
  · next i here =>
    split
    · next n next => rw [h n (next_ne_of_snake here next)]
    · rfl

theorem cellFramed_handOn {c : Site} (follows : ∀ n, s.followerOf c.p c.m = some n → own n) :
    CellFramed c.p own a s (s.handOn c) := by
  unfold State.handOn
  split
  · next n follower => exact cellFramed_onCell (follows n follower)
  · exact .refl

/-- The cells that a firing of a cell may change: the cell and its follower (R184, R192). -/
def firingCells (s : State) (p m n : Nat) : Prop := n = m ∨ s.followerOf p m = some n

/-- The acquire of an effect that asks for one, at its cell (R287). -/
def acquiring (c : Site) (e : Effect) (s : State) : State := if e.acquireY then s.acquire (.cell c.p c.m) .y else s

/-- The first read of a full entry that an effect drains (R155). -/
def draining (c : Site) (e : Effect) (s : State) : State :=
  match e.drain with
  | some h => if bufState (s.buffer c.p h.toNat) = 2
    then s.setBuffer c.p h.toNat (setF (s.buffer c.p h.toNat) 63 62 3) else s
  | none => s

/-- The record that an effect gives back, and the credit it takes (R291). -/
def recording (c : Site) (e : Effect) (s : State) : State :=
  match e.record with
  | some x => (s.onParcel c.p fun y => { y with credits := y.credits - 1 }).returnRecord c.p x
  | none => s

theorem commit_eq (s : State) (c : Site) (op : Nat) (w : CellWord) (e : Effect) : s.commit c op w e =
    ((recording c e (draining c e (acquiring c e (s.onCell c.p c.m (e.onCell s.meridian.toNat c op w))))).stir
      c.p).handOn c := rfl

theorem cellFramed_acquiring (c : Site) (e : Effect) : CellFramed p own a s (acquiring c e s) := by
  unfold acquiring
  split
  · exact cellFramed_acquire ..
  · exact .refl

theorem cellFramed_draining {c : Site} {e : Effect} (drains : ∀ h, e.drain = some h → a = .handle h) :
    CellFramed c.p own a s (draining c e s) := by
  unfold draining
  split
  · next h some =>
    split
    · exact cellFramed_setBuffer (drains h some)
    · exact .refl
  · exact .refl

theorem cellFramed_recording (c : Site) (e : Effect) : CellFramed c.p own a s (recording c e s) := by
  unfold recording
  split
  · exact cellFramed_credits.trans cellFramed_aside
  · exact .refl

/-- All of a commit but the hand-on stays within its own cell, so the follower is the one that the cell had before. -/
theorem cellFramed_commit {c : Site} {op : Nat} {w : CellWord} {e : Effect}
    (drains : ∀ h, e.drain = some h → a = .handle h) :
    CellFramed c.p (firingCells s c.p c.m) a s (s.commit c op w e) := by
  rw [commit_eq]
  have cell : CellFramed c.p (· = c.m) a s (s.onCell c.p c.m (e.onCell s.meridian.toNat c op w)) := cellFramed_onCell rfl
  have fired := (((cell.trans (cellFramed_acquiring c e)).trans (cellFramed_draining drains)).trans
    (cellFramed_recording c e)).trans (cellFramed_stir c.p)
  refine (fired.mono fun _ => .inl).trans (cellFramed_handOn fun n follower => .inr ?_)
  rwa [followerOf_congr fired.cells] at follower

theorem cellFramed_freeze {c : Site} {x : CellStop} {late : Bool} (mine : own c.m) :
    CellFramed c.p own a s (s.freeze c x late) := by
  unfold State.freeze
  dsimp only
  split
  · exact cellFramed_onCell mine
  · exact (cellFramed_onCell mine).trans cellFramed_aside

/-- A firing changes its cell, the follower, and the entry that its effect drains. -/
theorem cellFramed_fire {n : Nat} {w : CellWord} {k : Firing → Except CellStop Effect} (drains : ∀ f, Drains a (k f)) :
    CellFramed s.site.p (firingCells s s.site.p s.site.m) a s (s.fire n w k) := by
  rcases fire_cases s n w k with ⟨e, made, -, fired⟩ | ⟨x, froze⟩
  · rw [fired]
    exact cellFramed_commit fun h => (drains _).named e h made
  · rw [froze]
    exact cellFramed_freeze (.inl rfl)

end

/-- Settles O44: every cell instruction fires, and a firing's pieces each stay within the frame. -/
theorem cellFrame : Obligations.CellFrame := by
  intro i op w s cell p
  obtain ⟨n, k, run, drains⟩ := exec_fires s cell
  obtain ⟨⟨mem, deep, versions, kept⟩, ⟨queues, segments, sets, launches, meridian⟩, others,
    ⟨core, stations, streams, travs, ports⟩, cells, unnamed, named⟩ :=
    cellFramed_fire (s := s) (n := n) (w := w) drains
  refine ⟨_, run, mem, deep, versions, kept, fun q => ?_, others, stations, streams, travs, ports,
    fun m other unfollowed => cells m (not_or.2 ⟨other, unfollowed⟩), unnamed, named, queues, segments, sets, launches,
    meridian⟩
  by_cases here : q = p
  · subst here; exact core
  · exact congrArg Parcel.core (others q here)

end Sys2Proof.Proofs

/-! The proof of the obligation about words on the fabric, the address port and the hang monitor. -/

namespace Sys2Proof.Proofs

open Sys2Proof Sys2Proof.Machine Sys2Proof.Laws

/-! ### Words on the fabric (R188, R216) -/

section

variable {s : State} {p m q port : Nat} {x : LinkWord} {rest : List LinkWord} {o : Queue}

/-- A delayed word whose delay is over enters its queue. -/
theorem execDelayExpiry_enters {at_ : Nat} {delayed : List (LinkWord × Nat)} (queue : (s.cell p m).oq.toList[q]? = some o)
    (first : o.delay = (x, at_) :: delayed) (runs : s.enginesRun p = true) (room : o.words.length < 8)
    (passed : at_ + (s.cell p m).depth (BitVec.ofNat 2 q) ≤ s.meridian.toNat) :
    execDelayExpiry p m q s = .next (s.onCell p m fun c =>
      { c with oq := c.oq.setIfInBounds q { o with words := o.words ++ [x], delay := delayed } }) := by
  simp only [execDelayExpiry, queue, first, runs, Nat.not_le.2 room, Nat.not_lt.2 passed, Bool.not_true, decide_false,
    Bool.or_self, Bool.false_eq_true, if_false]

/-- The word on a route enters the input queue that takes it. -/
theorem execInputWordArrival_cell {tp tm tq : Nat} (word : (s.cell p m).wires.toList.getD q none = some x)
    (target : s.routeTarget p m q = some (tp, tm, tq)) (runs : s.enginesRun p = true)
    (accepts : (s.cell tp tm).accepts tq x = true) :
    execInputWordArrival (.cell p m q) s = .next
      ((s.onCell p m fun c => { c with wires := c.wires.setIfInBounds q none }).enterQueue tp tm tq x) := by
  simp only [execInputWordArrival, word, target, runs, accepts, Bool.not_true, Bool.or_self, Bool.false_eq_true, if_false]

/-- Where a port delivers: the word that names the cell and the input queue (R217). -/
abbrev ingressWord (s : State) (p port : Nat) : Word := (s.parcel p).ingress.toList.getD port 0

/-- The first word of a port enters the input queue that the port's ingress word names. -/
theorem execInputWordArrival_port (first : (s.port p port).inbound = x :: rest) (runs : s.enginesRun p = true)
    (valid : (ingressWord s p port).getLsbD 63 = true)
    (accepts : (s.cell p (getF (ingressWord s p port) 62 59)).accepts (getF (ingressWord s p port) 58 57) x = true) :
    execInputWordArrival (.port p port) s = .next ((s.onPort p port fun w => { w with inbound := rest }).enterQueue p
      (getF (ingressWord s p port) 62 59) (getF (ingressWord s p port) 58 57) x) := by
  simp only [execInputWordArrival, first, runs, valid, accepts, Bool.not_true, Bool.or_self, Bool.false_eq_true, if_false]

/-- The routing word of an output queue (R216). -/
abbrev routeWord (s : State) (p m q : Nat) : Word := (s.cell p m).routes.toList.getD q 0

/-- A word with the context tag of a routing word, unless that keeps the word's own (R216). -/
abbrev routedWord (route : Word) (x : LinkWord) : LinkWord :=
  if route.getLsbD 54 then x else { x with ctx := route.extractLsb' 55 3 }

/-- The state after an output queue has given its oldest word (R188). -/
abbrev afterSend (s : State) (p m q : Nat) (o : Queue) (rest : List LinkWord) : State :=
  s.onCell p m fun c => { c with oq := c.oq.setIfInBounds q { o with words := rest, head := o.head + 1 } }

/-- The oldest word of an output queue goes onto its empty route. -/
theorem execOutputWordSend_route (queue : (s.cell p m).oq.toList[q]? = some o) (first : o.words = x :: rest)
    (runs : s.enginesRun p = true) (valid : (routeWord s p m q).getLsbD 63 = true)
    (inside : (s.routeTarget p m q).isSome = true) (empty : (s.cell p m).wires.toList.getD q none = none) :
    execOutputWordSend p m q s = .next ((afterSend s p m q o rest).onCell p m fun c =>
      { c with wires := c.wires.setIfInBounds q (some (routedWord (routeWord s p m q) x)) }) := by
  simp only [execOutputWordSend, queue, first, runs, valid, inside, empty, Option.isSome_none, Bool.not_true, Bool.or_self,
    Bool.false_eq_true, if_false, if_true]

/-- The oldest word of an output queue with no route inside the region goes to its empty port. -/
theorem execOutputWordSend_port (queue : (s.cell p m).oq.toList[q]? = some o) (first : o.words = x :: rest)
    (runs : s.enginesRun p = true) (valid : (routeWord s p m q).getLsbD 63 = true) (outside : s.routeTarget p m q = none)
    (empty : (s.port p (getF (routeWord s p m q) 62 59 - 4)).outbound = []) :
    execOutputWordSend p m q s = .next ((afterSend s p m q o rest).onPort p (getF (routeWord s p m q) 62 59 - 4) fun w =>
      { w with outbound := w.outbound ++ [routedWord (routeWord s p m q) x] }) := by
  simp only [execOutputWordSend, queue, first, runs, valid, outside, empty, Option.isSome_none, List.isEmpty_nil,
    Bool.not_true, Bool.or_self, Bool.false_eq_true, if_false]

end

/-! ### Halting, poison and wideners (R190, R197, R205, R287) -/

section

variable {s : State} {p m : Nat}

/-- A running cell with a stop token at a head and nothing left to fire halts. -/
theorem execCellHalt_halts (runs : s.enginesRun p = true) (running : (s.cell p m).mode = .running)
    (still : (s.cell p m).widening = none) (stop : (s.cell p m).headToken 1 = true) (idle : s.someSlot p m = false) :
    ∃ t, execCellHalt p m s = .next t ∧ (t.cell p m).mode = .halted ∧ t.mem = s.mem := by
  simp only [execCellHalt, runs, running, still, stop, idle, Option.isSome_none, ne_eq, not_true_eq_false, decide_false,
    Bool.not_true, Bool.or_self, Bool.false_eq_true, if_false]
  exact ⟨_, rfl, by rw [cell_onCell, if_pos ⟨rfl, rfl⟩], rfl⟩

/-- The report of poison at a sink is in the field book and at the origin core alone. -/
theorem poisonSink_eq (w0 w1 : Nat → Nat) :
    ∃ book flight, s.poisonSink p w0 w1 = { s with book := book, flight := flight } := by
  unfold State.poisonSink
  split
  · exact ⟨s.book, s.flight, rfl⟩
  · split
    · exact ⟨s.book, s.flight, rfl⟩
    · exact ⟨_, _, rfl⟩

theorem poisonSink_mem (w0 w1 : Nat → Nat) : (s.poisonSink p w0 w1).mem = s.mem := by
  obtain ⟨book, flight, h⟩ := poisonSink_eq (s := s) (p := p) w0 w1
  rw [h]

theorem poisonSink_cell (w0 w1 : Nat → Nat) (q n : Nat) : (s.poisonSink p w0 w1).cell q n = s.cell q n := by
  obtain ⟨book, flight, h⟩ := poisonSink_eq (s := s) (p := p) w0 w1
  rw [h]
  rfl

/-- A running cell with poison at a head, and no late fault due, is poisoned. -/
theorem execCellPoisoned_poisons (runs : s.enginesRun p = true) (running : (s.cell p m).mode = .running)
    (poison : (s.cell p m).headToken 2 = true) (late : s.lateDue p m = none) :
    ∃ t, execCellPoisoned p m s = .next t ∧ (t.cell p m).mode = .poisoned ∧ t.mem = s.mem := by
  simp only [execCellPoisoned, runs, running, poison, late, Option.isSome_none, ne_eq, not_true_eq_false, decide_false,
    Bool.not_true, Bool.or_self, Bool.false_eq_true, if_false]
  refine ⟨_, rfl, ?_⟩
  split
  · exact ⟨by rw [cell_onCell, if_pos ⟨rfl, rfl⟩], rfl⟩
  · exact ⟨by rw [poisonSink_cell, cell_onCell, if_pos ⟨rfl, rfl⟩], poisonSink_mem ..⟩

/-- A widener forwards a word that is no poison once no write that the inner subgraph had issued before is still to be
performed. -/
theorem execWidenerReleaseComplete_forwards {w : Widening} (taken : (s.cell p m).widening = some w)
    (runs : s.enginesRun p = true) (thawed : (s.cell p m).mode ≠ .frozen)
    (clean : w.word.token = false ∨ w.word.kind ≠ 2)
    (performed : w.out = true → ∀ x ∈ s.innerCells p m, ∀ e ∈ (s.cell x.1 x.2).port, e.writes = true →
      w.stamp ≤ e.stamp) :
    execWidenerReleaseComplete p m s = .next
      (((s.innerCells p m).foldl (fun (t : State) x =>
        if w.out then t.release (.cell x.1 x.2) w.scope else t.acquire (.cell x.1 x.2) w.scope) s).onCell p m fun c =>
        { c.push s.meridian.toNat w.queue c.fireCtx.toNat false w.word with widening := none }) := by
  have noPoison : (w.word.token && decide (w.word.kind = 2)) = false := by
    rcases clean with data | other
    · rw [data]; rfl
    · rw [decide_eq_false other, Bool.and_false]
  have done : (w.out && (s.innerCells p m).any fun x => (s.cell x.1 x.2).port.any fun e => e.writes && e.stamp < w.stamp) =
      false := by
    cases out : w.out with
    | false => rfl
    | true => simpa using performed out
  simp only [execWidenerReleaseComplete, taken, runs, thawed, noPoison, done, Bool.not_true, decide_false, Bool.or_self,
    Bool.false_and, Bool.false_eq_true, if_false]

end

/-! ### The address port (R193, R194, R196, R252 to R258, R286) -/

section

variable {s s1 s2 : State} {p m : Nat} {e : PortEntry} {rest : List PortEntry} {tag : BitVec 4} {a : Mapping}
  {bs : List Byte} {x : LinkWord}

/-- The oldest request of a port, which is no walk, is performed and answered. -/
theorem portResponse_responds (port : (s.cell p m).port = e :: rest) (runs : s.portRuns p m = true)
    (plain : e.isWalk = false) (performs : performEntry p m e s = .ok x s1) : s.portResponse p m = s1.respond p m e x := by
  simp only [State.portResponse, port, runs, plain, performs, Bool.not_true, Bool.or_self, Bool.false_eq_true, if_false]

theorem performEntry_load (op : e.op = .load tag) (translates : translate (.cell p m) e.va .read s = .ok a s1)
    (device : ∀ x, placeOf a.pa ≠ .host x) (reads : readAt (.cell p m) e.scope a 64 e.va s1 = .ok bs s2) :
    performEntry p m e s = .ok (memWord tag (bytesPayload bs)) s2 := by
  unfold performEntry
  rw [op]
  refine (act_bind_ok translates).trans ?_
  generalize placeOf a.pa = l at device ⊢
  cases l with
  | host x => exact absurd rfl (device x)
  | _ => exact act_bind_ok reads

theorem performEntry_load_fault {c : Byte} {v : Word} (op : e.op = .load tag)
    (faults : translate (.cell p m) e.va .read s = .error (.fault c v) s1) :
    performEntry p m e s = .error (.fault c v) s1 := by
  unfold performEntry
  rw [op]
  exact act_bind_error faults

theorem performEntry_proj {write : Bool} {code : Byte} {size pa : Nat} (op : e.op = .proj write)
    (found : s.probe (.cell p m) e.va (if write then .write else .read) = (some (code, size, pa), s1)) :
    performEntry p m e s = .ok (dataWord (BitVec.ofNat 512 (pa + (code.toNat + size * 2 ^ 8) * 2 ^ 64)) 7 0) s1 := by
  unfold performEntry
  rw [op]
  refine (act_bind_ok (get_eq s)).trans ?_
  simp only [found]
  rfl

theorem performEntry_ldv {eq : Bool} {v : BitVec 12} (op : e.op = .ldv tag eq v)
    (translates : translate (.cell p m) e.va .versionRead s = .ok a s1)
    (come : loadVersion (.cell p m) true e.scope a 64 v eq e.va s1 = .ok (some bs) s2) :
    performEntry p m e s = .ok (memWord tag (bytesPayload bs)) s2 := by
  unfold performEntry
  rw [op]
  exact (act_bind_ok translates).trans (act_bind_ok come)

/-- A held versioned load whose version has come is answered. -/
theorem execHeldLdvComplete_responds {eq : Bool} {v : BitVec 12} (port : (s.cell p m).port = e :: rest)
    (runs : s.portRuns p m = true) (op : e.op = .ldv tag eq v) (performs : performEntry p m e s = .ok x s1) :
    execHeldLdvComplete p m s = .next (s1.respond p m e x) := by
  have held : (s.cell p m).port.head?.any PortEntry.isLdv = true := by
    rw [port, List.head?_cons, Option.any_some, PortEntry.isLdv, op]
  have plain : e.isWalk = false := by rw [PortEntry.isWalk, op]
  rw [execHeldLdvComplete, if_pos held, portResponse_responds port runs plain performs]

/-- A node of a walk in device memory: its word, and the address that its field gives, none at the end (R256). -/
theorem walkNode_memory {f limit count : Nat} {off : Word} (fits : e.va.toNat % 64 = 0)
    (translates : translate (.cell p m) e.va .read s = .ok a s1) (device : ∀ x, placeOf a.pa ≠ .host x)
    (reads : readAt (.cell p m) e.scope a 64 e.va s1 = .ok bs s2) :
    let next := wordOf (slice bs (8 * f) 8) + off
    let last : Bool := next = 0 || count + 1 = limit
    walkNode p m e tag f off limit count s =
      .ok ({ memWord tag (bytesPayload bs) with last := last }, if last then none else some next) s2 := by
  unfold walkNode
  refine (act_bind_ok (aligned_ok fits)).trans ((act_bind_ok translates).trans ?_)
  generalize placeOf a.pa = l at device ⊢
  cases l with
  | host x => exact absurd rfl (device x)
  | _ => exact act_bind_ok reads

/-- A walk that has room goes on by a node. -/
theorem execWalkNode_goesOn {f limit count : Nat} {off : Word} {next : Option Word} (port : (s.cell p m).port = e :: rest)
    (op : e.op = .walk tag f off limit count) (runs : s.portRuns p m = true) (stays : s.pausing p = false)
    (room : (s.cell p m).walkRoom e count = true) (node : walkNode p m e tag f off limit count s = .ok (x, next) s1) :
    execWalkNode p m s = .next (s1.walkOn p m e tag f off limit count x next) := by
  simp only [execWalkNode, port, op, runs, stays, room, node, Bool.not_true, Bool.or_self, Bool.false_eq_true, if_false]

/-- A load that does not translate freezes its cell. -/
theorem execLateFault_load {c : Byte} {v : Word} (port : (s.cell p m).port = e :: rest) (op : e.op = .load tag)
    (takes : s.takesLate p m = true) (faults : translate (.cell p m) e.va .read s = .error (.fault c v) s1) :
    execLateFault p m s = .next (s.lateFreeze p m e c v) := by
  have due : s.lateDue p m = some (e, c, v) := by
    simp only [State.lateDue, port, op, takes, performEntry_load_fault op faults, Bool.not_true, Bool.false_eq_true,
      if_false]
  rw [execLateFault, due]

end

/-! ### The hang monitor (R206, R207) -/

/-- The monitor of a running region with no frozen cell fires at its interval. -/
theorem execHangMonitorFire_fires {s : State} {o : Nat} {r : Region} (found : s.regions.find o = some r)
    (running : r.phase = .running) (free : r.debugStop = false) (fresh : r.hungUp = false) (on : (s.core o).hangiv ≠ 0)
    (passed : (s.core o).hangiv.toNat ≤ r.hang)
    (sound : ((regionParcels o r).any fun p => (s.parcel p).cells.any fun e => e.2.faulted) = false) :
    execHangMonitorFire o s = .next (s.hangFire o r) := by
  have ready : s.hangReady o r = true := by
    have limit : (s.core o).hangiv.toNat ≠ 0 := fun zero => on (BitVec.eq_of_toNat_eq zero)
    simp only [State.hangReady, running, free, fresh, limit, passed, sound, decide_true, ne_eq, not_false_eq_true,
      Bool.not_false, Bool.and_self]
  simp only [execHangMonitorFire, found, ready, if_true]

/-- Settles O56: each event's conditions choose its branch. -/
theorem cellEvents : Obligations.CellEvents := by
  intro s
  refine ⟨fun p m q o x at_ rest => execDelayExpiry_enters, fun p m q x tp tm tq => execInputWordArrival_cell,
    fun p port x rest => execInputWordArrival_port, fun p m q o x rest queue first runs valid =>
      ⟨execOutputWordSend_route queue first runs valid, execOutputWordSend_port queue first runs valid⟩,
    fun p m => execCellHalt_halts, fun p m => execCellPoisoned_poisons, fun p m w => execWidenerReleaseComplete_forwards,
    fun p m e rest port runs => ⟨?load, ?proj, ?ldv, ?walk, ?late⟩, fun o r => execHangMonitorFire_fires⟩
  case load =>
    intro tag a s1 bs s2 op translates device reads
    exact congrArg _ (portResponse_responds port runs (by rw [PortEntry.isWalk, op])
      (performEntry_load op translates device reads))
  case proj =>
    intro write code size pa s1 op found
    exact congrArg _ (portResponse_responds port runs (by rw [PortEntry.isWalk, op]) (performEntry_proj op found))
  case ldv =>
    intro tag eq v a s1 bs s2 op translates come
    exact execHeldLdvComplete_responds port runs op (performEntry_ldv op translates come)
  case walk =>
    intro tag f off limit count a s1 bs s2 op stays room fits translates device reads
    exact execWalkNode_goesOn port op runs stays room (walkNode_memory fits translates device reads)
  case late =>
    intro tag c v t op takes faults
    exact execLateFault_load port op takes faults

end Sys2Proof.Proofs

/-! The proof of the obligation about end instructions. -/

namespace Sys2Proof.Proofs

open Sys2Proof Sys2Proof.Machine Sys2Proof.Laws

section

variable {s : State} {h : Word} {loc : EndLoc} {e : EndStream} {p : Nat} {rd ra rb : Reg}

/-! ### Operations of a home (R304, R310, R311) -/

/-- The handle names a live end of a stream of this device. -/
structure LiveEnd (s : State) (h : Word) (e : EndStream) : Prop where
  record : s.endRecord (handleHome h) (handleNumber h) = some e
  opened : (e.end_ (handleConsumer h)).closed = false
  serial : handleSerial h = (e.end_ (handleConsumer h)).serial

/-- What a bind writes of its end: the next serial number, at its place (R304). -/
def boundEnd (e : EndStream) (k : Bool) (loc : EndLoc) : EndRec :=
  { e.end_ k with serial := (e.end_ k).serial + 1, loc := some loc }

/-- The record after a bind: the move of a bound end has begun (R304, R305). -/
def boundStream (e : EndStream) (k : Bool) (loc : EndLoc) : EndStream :=
  { e.setEnd k (boundEnd e k loc) with
    moves := match (e.end_ k).loc with
      | some old => e.moves ++ [⟨k, (e.end_ k).serial, old, if k then e.given.isSome else e.begun, false, none⟩]
      | none => e.moves
    begun := k && e.begun, given := if k then none else e.given }

/-- The handle that a bind writes. -/
def boundHandle (s : State) (h : Word) (e : EndStream) (loc : EndLoc) : Word :=
  endHandle s.link.number (handleHome h) (handleNumber h) (handleConsumer h) (boundEnd e (handleConsumer h) loc)

/-- The state after a bind at the home. -/
def afterBind (s : State) (h : Word) (e : EndStream) (loc : EndLoc) : State :=
  (s.setEndRecord (handleHome h) (handleNumber h) (boundStream e (handleConsumer h) loc)).pumpStream (handleHome h)
    (handleNumber h)

theorem homeBind_live (live : LiveEnd s h e) (sound : e.orphaned = false) :
    s.homeBind h loc = .ok (boundHandle s h e loc, afterBind s h e loc) := by
  obtain ⟨record, opened, serial⟩ := live
  have current : ¬((e.end_ (handleConsumer h)).closed ||
      decide (handleSerial h ≠ (e.end_ (handleConsumer h)).serial)) := by simp [opened, serial]
  unfold State.homeBind
  dsimp only
  rw [record]
  dsimp only
  rw [if_neg (by simp [sound]), if_neg current]
  rfl

/-- What a close of a live end does to its stream: a survivor's frees it, a consumer's orphans it, and a producer's takes
no more items (R310, R311). -/
def afterClose (s : State) (h : Word) (e : EndStream) : State :=
  if e.orphaned then s.dropStream (handleHome h) (handleNumber h) e
  else if handleConsumer h then
    (s.freeEnd (handleHome h) (handleNumber h) true e.cons).orphanStream (handleHome h) (handleNumber h) e false true false
  else (s.setEndRecord (handleHome h) (handleNumber h) { e with prod := { e.prod with closed := true } }).pumpStream
    (handleHome h) (handleNumber h)

theorem afterClose_survivor (orphaned : e.orphaned = true) :
    afterClose s h e = s.dropStream (handleHome h) (handleNumber h) e := if_pos orphaned

theorem afterClose_consumer (sound : e.orphaned = false) (consumer : handleConsumer h = true) :
    afterClose s h e = (s.freeEnd (handleHome h) (handleNumber h) true e.cons).orphanStream (handleHome h) (handleNumber h) e
      false true false := by
  rw [afterClose, sound, consumer, if_neg Bool.false_ne_true, if_pos rfl]

theorem afterClose_producer (sound : e.orphaned = false) (producer : handleConsumer h = false) :
    afterClose s h e = (s.setEndRecord (handleHome h) (handleNumber h)
      { e with prod := { e.prod with closed := true } }).pumpStream (handleHome h) (handleNumber h) := by
  rw [afterClose, sound, producer, if_neg Bool.false_ne_true, if_neg Bool.false_ne_true]

/-- A close by whom its end stands at, or of an end that stands nowhere, is carried out. -/
theorem homeClose_live {device : Nat} (live : LiveEnd s h e)
    (stands : ∀ l, (e.end_ (handleConsumer h)).loc = some l → l.device = device ∧ l.parcel = p) :
    s.homeClose h device p = .ok (afterClose s h e) := by
  obtain ⟨record, opened, serial⟩ := live
  unfold State.homeClose
  dsimp only
  rw [record]
  refine (if_neg ?_).trans ?_
  · cases at_ : (e.end_ (handleConsumer h)).loc with
    | none => simp [opened, serial]
    | some l =>
      obtain ⟨sameDevice, sameParcel⟩ := stands l at_
      simp [opened, serial, sameDevice, sameParcel]
  · cases sound : e.orphaned with
    | true => rw [afterClose_survivor sound, if_pos rfl]
    | false =>
      cases kind : handleConsumer h with
      | true => rw [afterClose_consumer sound kind]; rfl
      | false => rw [afterClose_producer sound kind, sound]; rfl

/-! ### Where the home is (R15, R301, R309) -/

theorem outOfReach_eq {o q : Nat} {r : Region} (region : s.regionOf p = some (o, r)) (inside : q ∈ regionParcels o r) :
    s.outOfReach p q = false := by
  simp only [State.outOfReach, region, inside, not_true_eq_false, decide_false]

theorem not_route_isNone {d : Nat} (linked : (s.link.route d).isSome = true) : ¬(s.link.route d).isNone = true := by
  rw [← Option.not_isSome, linked]
  exact Bool.false_ne_true

/-- A home on another device is asked, and the instruction waits. -/
def askedHome (s : State) (rd : Reg) (op : Nat) (h ports : Word) (port : Nat) : State :=
  ((s.askHost (.endAsk s.here rd op h ports) []).onCore s.here fun c =>
    { c with waiting := some s.host.nextTag }).moSend (handleDevice h) (.ask s.host.nextTag op h s.here port)

theorem askHome_tag {op port : Nat} {ports : Word} (tag : s.hostFull = false) :
    askHome rd op h ports port s = .ok () (askedHome s rd op h ports port) := by
  refine (act_bind_ok (get_eq s)).trans ?_
  exact (act_bind_ok (coreAsks_tag tag)).trans (modify_eq ..)

/-! ### The instructions (R313, R314) -/

/-- `END.MAKE` writes the record of a stream whose ends stand nowhere. -/
theorem execEndMake_makes (reserved : wbits (s.reg ra) 63 7 = 0) (kind : wbits (s.reg ra) 2 0 ≤ 5)
    (room : ((s.parcel s.here).ends.filter fun e => e.1 < 2 ^ 20).length < 32) :
    ∃ e : EndStream, (e.cap = (s.reg ra).extractLsb' 0 3 ∧ e.prod.loc = none ∧ e.cons.loc = none ∧ e.next = 0 ∧
        e.orphaned = false) ∧
      ∀ t, t = (s.setEndRecord s.here (s.parcel s.here).endCount e).onParcel s.here (fun x =>
          { x with endCount := ((s.parcel s.here).endCount + 1) % 2 ^ 20 }) →
        execEndMake rd ra s = .next ((if wbit (s.reg ra) 3 then t.emit s.here (wbits (s.reg ra) 5 4)
          (endHandle s.link.number s.here (s.parcel s.here).endCount (wbit (s.reg ra) 6) ⟨0, none, false⟩)
          else t).writeReg rd (endHandle s.link.number s.here (s.parcel s.here).endCount false ⟨0, none, false⟩)) := by
  refine ⟨⟨(s.reg ra).extractLsb' 0 3, false, ⟨0, none, false⟩, ⟨0, none, false⟩, 0, 0, 0, [], [], [], [], false, none,
    none, 0⟩, ⟨rfl, rfl, rfl, rfl, rfl⟩, ?_⟩
  rintro t rfl
  refine attempt_ok ?_
  refine (act_bind_ok (check_of (by simp [reserved, kind]))).trans ?_
  refine (act_bind_ok (check_of (decide_eq_true room))).trans ?_
  refine (act_bind_ok (modify_eq ..)).trans ?_
  cases wbit (s.reg ra) 3 with
  | true => exact (act_bind_ok (modify_eq ..)).trans (modify_eq ..)
  | false => exact modify_eq ..

/-- `END.BIND` of a live end of a stream of this device, all of it within the region. -/
theorem execEndBind_binds {o : Nat} {r : Region} (device : handleDevice (s.reg ra) = s.link.number)
    (region : s.regionOf s.here = some (o, r)) (inside : handleHome (s.reg ra) ∈ regionParcels o r)
    (reserved : wbits (s.reg rb) 63 5 = 0)
    (side : s.sideFree s.here (wbits (s.reg rb) 1 0) (handleConsumer (s.reg ra)) = true)
    (live : LiveEnd s (s.reg ra) e) (sound : e.orphaned = false)
    (reach : ∀ l ∈ e.places, l.device = s.link.number → l.parcel ∈ regionParcels o r) :
    let loc : EndLoc := ⟨s.link.number, s.here, wbits (s.reg rb) 1 0⟩
    let v := boundHandle s (s.reg ra) e loc
    let t := (afterBind s (s.reg ra) e loc).takeSide s.here (wbits (s.reg rb) 1 0) (handleConsumer (s.reg ra))
      (handleHome (s.reg ra)) (handleNumber (s.reg ra))
    execEndBind rd ra rb s =
      .next ((if wbit (s.reg rb) 2 then t.emit s.here (wbits (s.reg rb) 4 3) v else t).writeReg rd v) := by
  intro loc v t
  have near : ((e.places.filter fun (l : EndLoc) => l.device = s.link.number).any fun l => s.outOfReach s.here l.parcel) =
      false := by
    simp only [List.any_eq_false, List.mem_filter, decide_eq_true_eq]
    rintro l ⟨place, own⟩
    rw [outOfReach_eq region (reach l place own)]
    exact Bool.false_ne_true
  refine attempt_ok ?_
  refine (act_bind_ok (check_of (decide_eq_true reserved))).trans ?_
  refine (act_bind_ok (check_of side)).trans ?_
  rw [if_neg (not_not_intro device)]
  rw [live.record]
  refine (congrFun (if_neg ?_) s).trans ?_
  · simp [near, outOfReach_eq region inside]
  rw [homeBind_live live sound]
  refine (act_bind_ok (k := set _) rfl).trans ?_
  cases wbit (s.reg rb) 2 with
  | true => exact (act_bind_ok (modify_eq ..)).trans (modify_eq ..)
  | false => exact modify_eq ..

/-- `END.BIND` of an end whose home is another device. -/
theorem execEndBind_asks (device : handleDevice (s.reg ra) ≠ s.link.number)
    (linked : (s.link.route (handleDevice (s.reg ra))).isSome = true) (tag : s.hostFull = false)
    (reserved : wbits (s.reg rb) 63 5 = 0)
    (side : s.sideFree s.here (wbits (s.reg rb) 1 0) (handleConsumer (s.reg ra)) = true) :
    let port := wbits (s.reg rb) 1 0
    let x := boundName (s.reg ra) s.here port
    execEndBind rd ra rb s = .next (((askedHome s rd 1 (s.reg ra) (s.reg rb) port).setEndRecord s.here (foreignNumber x)
      (placeRecord x ⟨s.link.number, s.here, port⟩)).takeSide s.here port (handleConsumer (s.reg ra)) s.here
        (foreignNumber x)) := by
  refine attempt_ok ?_
  refine (act_bind_ok (check_of (decide_eq_true reserved))).trans ?_
  refine (act_bind_ok (check_of side)).trans ?_
  rw [if_pos device, if_neg (not_route_isNone linked)]
  exact (act_bind_ok (askHome_tag tag)).trans (modify_eq ..)

/-- `END.CLOSE` of a live end of a stream of this device. -/
theorem execEndClose_closes {o : Nat} {r : Region} (device : handleDevice (s.reg ra) = s.link.number)
    (region : s.regionOf s.here = some (o, r)) (inside : handleHome (s.reg ra) ∈ regionParcels o r)
    (live : LiveEnd s (s.reg ra) e)
    (stands : ∀ l, (e.end_ (handleConsumer (s.reg ra))).loc = some l → l.device = s.link.number ∧ l.parcel = s.here) :
    execEndClose ra s = .next ((afterClose s (s.reg ra) e).advance
      (afterClose s (s.reg ra) e).here) := by
  refine attempt_ok ?_
  rw [if_neg (not_not_intro device)]
  refine (congrFun (if_neg ?_) s).trans ?_
  · simp [outOfReach_eq region inside]
  rw [homeClose_live live stands]
  rfl

theorem execEndClose_asks (device : handleDevice (s.reg ra) ≠ s.link.number)
    (linked : (s.link.route (handleDevice (s.reg ra))).isSome = true) (tag : s.hostFull = false) :
    execEndClose ra s = .next (askedHome s 0 2 (s.reg ra) 0 0) := by
  refine attempt_ok ?_
  rw [if_pos device, if_neg (not_route_isNone linked)]
  exact askHome_tag tag

theorem execEndStat_reads {o : Nat} {r : Region} (device : handleDevice (s.reg ra) = s.link.number)
    (region : s.regionOf s.here = some (o, r)) (inside : handleHome (s.reg ra) ∈ regionParcels o r)
    (record : s.endRecord (handleHome (s.reg ra)) (handleNumber (s.reg ra)) = some e) :
    execEndStat rd ra s = .next (s.writeReg rd (s.endStatus e (handleConsumer (s.reg ra)))) := by
  refine attempt_ok ?_
  rw [if_neg (not_not_intro device)]
  refine (congrFun (if_neg ?_) s).trans ?_
  · simp [outOfReach_eq region inside]
  rw [record]
  rfl

theorem execEndStat_asks (device : handleDevice (s.reg ra) ≠ s.link.number)
    (linked : (s.link.route (handleDevice (s.reg ra))).isSome = true) (tag : s.hostFull = false) :
    execEndStat rd ra s = .next (askedHome s rd 3 (s.reg ra) 0 0) := by
  refine attempt_ok ?_
  rw [if_pos device, if_neg (not_route_isNone linked)]
  exact askHome_tag tag

end

/-- Settles O31: each instruction passes its checks here, or asks the home on its device. -/
theorem endInstructions : Obligations.EndInstructions := by
  intro s rd ra rb p h b home n k port asks local_ away live
  refine ⟨?make, ?bind, ?bindAway, ?close, ?closeAway, ?stat, ?statAway⟩
  case make =>
    intro reserved kind room
    obtain ⟨e, ⟨cap, prod, cons, next, orphaned⟩, makes⟩ := execEndMake_makes reserved kind room
    exact ⟨e, cap, prod, cons, next, orphaned, makes⟩
  case bind =>
    rintro e o r device region inside reserved side ⟨record, opened, serial⟩ sound reach
    exact execEndBind_binds device region inside reserved side ⟨record, opened, serial⟩ sound reach
  case bindAway =>
    rintro ⟨device, linked, tag⟩ reserved side
    exact execEndBind_asks device linked tag reserved side
  case close =>
    rintro e ⟨device, o, r, region, inside⟩ ⟨record, opened, serial⟩ stands done
    have closes := execEndClose_closes device region inside ⟨record, opened, serial⟩ stands
    refine ⟨fun orphaned => ?_, fun sound consumer => ?_, fun sound producer => ?_⟩
    · rwa [afterClose_survivor orphaned] at closes
    · rwa [afterClose_consumer sound consumer] at closes
    · rwa [afterClose_producer sound producer] at closes
  case closeAway =>
    rintro ⟨device, linked, tag⟩
    exact execEndClose_asks device linked tag
  case stat =>
    rintro e ⟨device, o, r, region, inside⟩ record
    exact execEndStat_reads device region inside record
  case statAway =>
    rintro ⟨device, linked, tag⟩
    exact execEndStat_asks device linked tag

end Sys2Proof.Proofs

/-! The Graticule's events, for the obligation about the Graticule, the encoder, ends, Compass and Scribe at work. -/

namespace Sys2Proof.Proofs

open Sys2Proof Sys2Proof.Machine Sys2Proof.Laws

/-! ### The engine through updates of the state -/

theorem gr_onGr (s : State) (p : Nat) (f : Graticule → Graticule) : (s.onGr p f).gr p = f (s.gr p) := by
  rw [State.gr, State.onGr, parcel_onParcel, if_pos rfl]
  rfl

theorem gr_grFlags (s : State) (p : Nat) (flags : FFlags) :
    (s.grFlags p flags).gr p = { s.gr p with flags := (s.gr p).flags ||| flags } :=
  gr_onGr s p fun g => { g with flags := g.flags ||| flags }

theorem setTile_finishing (g : Graticule) (t : Nat) (v : BitVec 2) : (g.setTile t v).finishing = g.finishing := rfl

theorem parcels_setTileCode (s : State) (p t i j code : Nat) : (s.setTileCode p t i j code).parcels = s.parcels := by
  rw [State.setTileCode, parcels_homeWrite]

theorem parcels_putRow (s : State) (p t i : Nat) (row : List (Nat × Nat)) :
    (row.foldl (fun st c => st.setTileCode p t i c.2 c.1) s).parcels = s.parcels := by
  induction row generalizing s with
  | nil => rfl
  | cons c row ih => rw [List.foldl_cons, ih, parcels_setTileCode]

theorem parcels_putTile (s : State) (p t : Nat) (rows : List (List Nat)) : (s.putTile p t rows).parcels = s.parcels := by
  unfold State.putTile
  generalize rows.zipIdx = l
  induction l generalizing s with
  | nil => rfl
  | cons r l ih => rw [List.foldl_cons, ih, parcels_putRow]

theorem gr_putTile (s : State) (p t : Nat) (rows : List (List Nat)) : (s.putTile p t rows).gr p = s.gr p := by
  rw [State.gr, State.parcel, parcels_putTile]
  rfl

section

variable {s t u : State} {p : Nat} {c : GrCommand} {r : GrRun} {d : GrDrain} {x : LinkWord}

/-! ### Commands start (R323, R336) -/

/-- `GR.ZERO` starts, and is done. -/
theorem execGraticuleCommandStart_zero {rest : List GrCommand} (queue : (s.gr p).queue = c :: rest)
    (runs : s.enginesRun p = true) (idle : (s.gr p).running = none) (unsaving : (s.gr p).saving = none)
    (unsaved : (s.gr p).saved = false) (stays : s.pausing p = false) (zero : c.fn = 4) (free : (s.gr p).tile c.tile ≠ 3) :
    execGraticuleCommandStart p s = .next
      (((s.onGr p fun g => { g with queue := rest }).zeroTile p c.tile).onGr p fun g => g.setTile c.tile 2) := by
  simp only [execGraticuleCommandStart, queue, runs, idle, unsaving, unsaved, stays, zero, free, Option.isSome_none,
    Bool.not_true, Bool.or_self, Bool.false_eq_true, if_false]

/-! ### Tiles (R324, R325, R333) -/

/-- The sequencer of an engine that is neither saved nor asked to pause may go on. -/
structure Sequencing (s : State) (p : Nat) (r : GrRun) : Prop where
  running : (s.gr p).running = some r
  runs : s.enginesRun p = true
  unsaved : (s.gr p).saved = false
  unsaving : (s.gr p).saving = none
  stays : s.pausing p = false
  multiplies : r.cmd.fn ≠ 2
  undrained : s.drainWaits p r.cmd (s.runBlocks p r) = false

/-- The A words of the chunk in progress. -/
abbrev chunkNeeds (s : State) (p : Nat) (r : GrRun) : Nat :=
  chunkWords r.cmd (s.legendAt p r.cmd.mmA) ((s.gr p).slotWord r.cmd.slot) r.tile r.chunk

/-- Where the A words of the chunk in progress are staged. -/
abbrev chunkAddress (s : State) (p : Nat) (r : GrRun) : Nat :=
  stagingAddress p r.cmd (s.legendAt p r.cmd.mmA) ((s.gr p).slotWord r.cmd.slot) r.tile r.chunk 0

/-- How a staged chunk leaves the engine: its words are used, and what comes next is the next chunk or, after the last chunk of
the last tile of a command without autodrain, the command's end. -/
structure ChunkDone (s t : State) (p : Nat) (r : GrRun) : Prop where
  goesOn : r.chunk + 1 < kChunks ((s.gr p).slotWord r.cmd.slot) →
    (t.gr p).running = some { r with staged := r.staged - chunkNeeds s p r, chunk := r.chunk + 1 }
  ends : kChunks ((s.gr p).slotWord r.cmd.slot) ≤ r.chunk + 1 →
    r.tile + 1 = r.cmd.mTiles * nTiles ((s.gr p).slotWord r.cmd.slot) → r.cmd.autodrain = false →
    (t.gr p).running = none ∧ (t.gr p).finishing = (s.gr p).finishing ++ [r.cmd]

theorem execTileDone_begins (h : Sequencing s p r) (fresh : r.begun = false)
    (free : (s.gr p).tile ((r.cmd.tile + r.tile) % 2) ≠ 3) : execTileDone p s = .next (s.beginTile p r) := by
  obtain ⟨running, runs, unsaved, unsaving, stays, multiplies, undrained⟩ := h
  simp only [execTileDone, running, runs, unsaved, unsaving, stays, multiplies, undrained, fresh, free, Option.isSome_none,
    Bool.not_true, Bool.not_false, Bool.or_self, Bool.false_and, Bool.false_eq_true, if_false, if_true]

/-- A tile that has begun goes on with its chunk once that is staged. -/
theorem execTileDone_runs (h : Sequencing s p r) (begun : r.begun = true)
    (staged : r.cmd.stream = true → chunkNeeds s p r ≤ r.staged) :
    execTileDone p s = s.grAct p r.cmd (runChunk p r) := by
  obtain ⟨running, runs, unsaved, unsaving, stays, multiplies, undrained⟩ := h
  have ready : (r.cmd.stream && decide (r.staged < chunkNeeds s p r)) = false := by
    cases stream : r.cmd.stream with
    | false => rfl
    | true => simpa using staged stream
  simp only [execTileDone, running, runs, unsaved, unsaving, stays, multiplies, undrained, begun, ready, Option.isSome_none,
    Bool.not_true, Bool.or_self, Bool.false_and, Bool.false_eq_true, if_false]

theorem grAct_ok {k : Act Unit} (h : k s = .ok () t) : s.grAct p c k = .next t := by
  rw [State.grAct, h]

/-- A chunk whose A words are staged is multiplied. -/
theorem runChunk_staged (stream : r.cmd.stream = true) (legend : s.hasLegend p r.cmd.mmA = true)
    (free : reserveCheck (.graticule p) (chunkAddress s p r) (64 * chunkNeeds s p r) (Config.freeWord s.tick) s = .ok () u) :
    ∃ t, runChunk p r s = .ok () t ∧ ChunkDone s t p r := by
  obtain rfl := reserveCheck_passes free
  refine ⟨_, (act_bind_ok (get_eq _)).trans ((act_bind_ok (legendOf_ok legend)).trans ((congrFun (if_pos stream) _).trans
    ((act_bind_ok free).trans ((congrFun (if_pos stream) _).trans ((act_bind_ok (k := pure _) rfl).trans
      (modify_eq ..)))))), ⟨?_, ?_⟩⟩
  · intro more
    dsimp only
    rw [if_pos more, gr_onGr, if_pos stream]
  · intro last final plain
    dsimp only
    rw [if_neg (Nat.not_lt.2 last), if_neg (by simp [final]), gr_onGr]
    simp [plain, gr_onGr, gr_grFlags, gr_putTile, setTile_finishing]

/-- A tile goes on with a streamed chunk that is staged whole. -/
theorem execTileDone_staged (h : Sequencing s p r) (begun : r.begun = true) (stream : r.cmd.stream = true)
    (legend : s.hasLegend p r.cmd.mmA = true) (staged : chunkNeeds s p r ≤ r.staged)
    (free : reserveCheck (.graticule p) (chunkAddress s p r) (64 * chunkNeeds s p r) (Config.freeWord s.tick) s = .ok () u) :
    ∃ t, execTileDone p s = .next t ∧ ChunkDone s t p r := by
  obtain ⟨t, ran, done⟩ := runChunk_staged stream legend free
  exact ⟨t, (execTileDone_runs h begun fun _ => staged).trans (grAct_ok ran), done⟩

/-- A tile goes on with a chunk that is read from its tensor. -/
theorem execTileDone_read (h : Sequencing s p r) (begun : r.begun = true) (unstreamed : r.cmd.stream = false)
    (ran : runChunk p r s = .ok () t) : execTileDone p s = .next t :=
  (execTileDone_runs h begun fun stream => by rw [unstreamed] at stream; cases stream).trans (grAct_ok ran)

/-! ### Streamed words (R333) -/

/-- Where in the scratchpad the next word of the port is staged. -/
abbrev stagingPlace (s : State) (p : Nat) (r : GrRun) : Nat :=
  if r.staged < chunkNeeds s p r
  then stagingOffset r.cmd (s.legendAt p r.cmd.mmA) ((s.gr p).slotWord r.cmd.slot) r.tile r.chunk r.staged
  else stagingOffset r.cmd (s.legendAt p r.cmd.mmA) ((s.gr p).slotWord r.cmd.slot)
    (r.following ((s.gr p).slotWord r.cmd.slot)).1 (r.following ((s.gr p).slotWord r.cmd.slot)).2
    (r.staged - chunkNeeds s p r)

/-- The A words of the chunk after the one in progress. -/
abbrev followingNeeds (s : State) (p : Nat) (r : GrRun) : Nat :=
  let sw := (s.gr p).slotWord r.cmd.slot
  if (r.following sw).1 < r.cmd.mTiles * nTiles sw
  then chunkWords r.cmd (s.legendAt p r.cmd.mmA) sw (r.following sw).1 (r.following sw).2 else 0

theorem execAStreamWord_stages {rest : List LinkWord} (running : (s.gr p).running = some r)
    (port : (s.port p r.cmd.port).outbound = x :: rest) (runs : s.enginesRun p = true) (multiplies : r.cmd.fn = 1)
    (stream : r.cmd.stream = true) (unsaving : (s.gr p).saving = none) (unsaved : (s.gr p).saved = false)
    (stays : s.pausing p = false) (data : x.token = false) (room : r.staged < chunkNeeds s p r + followingNeeds s p r)
    (format : x.fmt.toNat = lgTag (s.legendAt p r.cmd.mmA))
    (free : reserveCheck (.graticule p) (windowBase + p * 0x400000 + stagingPlace s p r) 64 (Config.freeWord s.tick) s =
      .ok () u) :
    execAStreamWord p s = .next (((s.onPort p r.cmd.port fun w => { w with outbound := rest }).homeWrite
      (windowBase + p * 0x400000 + stagingPlace s p r) (payloadBytes x.payload)).onGr p fun g =>
        { g with running := some { r with staged := r.staged + 1 }, lanes := g.lanes.put (stagingPlace s p r) x.scale }) := by
  unfold execAStreamWord
  dsimp only
  rw [running]
  dsimp only
  rw [port]
  dsimp only
  rw [if_neg (by simp [runs, multiplies, stream, unsaving, unsaved, stays]), if_neg (by simp [data]),
    if_neg (Nat.not_le.2 room), if_neg (not_not_intro format), free]

/-! ### Drains and ends (R326, R327) -/

/-- A drain that writes its rows ends. -/
theorem execDrainComplete_writes {rest : List GrDrain} {f : FFlags} {gen : BitVec 32} (drains : (s.gr p).drains = d :: rest)
    (runs : s.enginesRun p = true) (legend : s.hasLegend p d.legend = true)
    (writes : drainRows p d (s.legendAt p d.legend) d.rows 0 (0, (s.gr p).gen) s = .ok (f, gen) t) :
    execDrainComplete p s = .next ((t.grFlags p f).onGr p fun g => { g.endDrain d with gen := gen }) := by
  unfold execDrainComplete
  rw [drains]
  dsimp only
  rw [if_neg (by simp [runs]), (act_bind_ok (legendOf_ok legend)).trans writes]

/-- A row of plain elements is converted and written. -/
theorem writeConverted_plain {e : Legend} {word col0 : Nat} {row : Row} {codes : List Nat} {gen : BitVec 32}
    (plain : lgIsBlock e = false) (shown : c.shadow = false) (based : s.hasBase p e = true)
    (writes : writeSpan (.graticule p) c.scope
      (spanFuel ((convertRow (lgFormat e) (modeOf (bits word 2 0)) c.ftz codes gen).1.flatMap
        (Decode.leBytes (lgBits e / 8))).length)
      (rowAddress (((s.regionOf p).bind fun x => s.legendBase x.1 x.2 e).getD 0) e row (elementBit e col0))
      ((convertRow (lgFormat e) (modeOf (bits word 2 0)) c.ftz codes gen).1.flatMap (Decode.leBytes (lgBits e / 8))) s =
        .ok () t) :
    writeConverted p c e word row col0 codes gen s =
      .ok (convertRow (lgFormat e) (modeOf (bits word 2 0)) c.ftz codes gen).2 t := by
  unfold writeConverted
  dsimp only
  rw [if_neg (by simp [plain]), if_neg (by simp [shown])]
  exact act_bind_ok ((act_bind_ok (baseOf_ok based)).trans writes)

/-- One row is left to drain. -/
theorem drainRows_one {e : Legend} {i : Nat} {gen gen1 : BitVec 32} {f : FFlags}
    (writes : writeConverted p d.cmd e d.word.toNat (d.row0 + i, 0, 0) d.col0
      ((List.range d.cols).map fun j => s.tileCode p d.tile (d.tileRow + i) (d.tileCol + j)) gen s = .ok (f, gen1) t) :
    drainRows p d e 1 i (0, gen) s = .ok (f, gen1) t := by
  refine (act_bind_ok (get_eq s)).trans ((act_bind_ok writes).trans ?_)
  exact congrArg (fun g => EStateM.Result.ok (g, gen1) t) BitVec.zero_or

theorem execGraticuleCommandComplete_ends {rest : List GrCommand} (finishing : (s.gr p).finishing = c :: rest)
    (runs : s.enginesRun p = true) (alone : c.publish = true → s.shadowSerials p false c.target = [])
    (free : (if c.publish then publishCheck (.graticule p) p false c.target else pure ()) s = .ok () u) :
    let t := ((if c.publish then s.showOverlay p false c.target else s).onGr p fun g =>
      { g with finishing := rest }).leaveStream p c
    execGraticuleCommandComplete p s = .next
      (if c.counted then (t.release (.graticule p) c.scope).sendArrival p (wbits c.control 31 26) 4
        (hiddenMark c.fn (if c.shadow && !c.publish then some c.target else none)) else t) := by
  have first : (c.publish && !(s.shadowSerials p false c.target).isEmpty) = false := by
    cases publish : c.publish with
    | false => rfl
    | true => rw [alone publish]; rfl
  unfold execGraticuleCommandComplete
  rw [finishing]
  dsimp only
  rw [if_neg (by simp [runs, first]), free]

/-! ### Faults and saves (R331, R337) -/

/-- The address of a tensor, for a fault at it. -/
abbrev faultBase (s : State) (p i : Nat) : Word :=
  ((s.regionOf p).bind fun x => s.legendBase x.1 x.2 (s.legendAt p i)).getD 0

theorem execGraticuleFault_running {code : Byte} (runs : s.enginesRun p = true) (unsaved : (s.gr p).saved = false)
    (running : (s.gr p).running = some r) :
    execGraticuleFault p code s = .next (s.faultGr p r.cmd code (faultBase s p r.cmd.mmA)) := by
  simp only [execGraticuleFault, runs, unsaved, running, Bool.not_true, Bool.or_self, Bool.false_eq_true, if_false]

theorem execGraticuleFault_drain {code : Byte} {rest : List GrDrain} (runs : s.enginesRun p = true)
    (unsaved : (s.gr p).saved = false) (idle : (s.gr p).running = none) (drains : (s.gr p).drains = d :: rest) :
    execGraticuleFault p code s = .next ((s.onGr p fun g => g.endDrain { d with final := false }).faultGr p d.cmd code
      (faultBase s p d.legend)) := by
  simp only [execGraticuleFault, runs, unsaved, idle, drains, Bool.not_true, Bool.or_self, Bool.false_eq_true, if_false]

/-- What a save writes: the header, both tiles and the weights. -/
abbrev savedImage (s : State) (p : Nat) : List Byte :=
  (s.gr p).header ++ s.homeRead (tileAddress p 0 0 0) 0x40000 ++ s.homeRead (weightAddress p 0) 0x40000

/-- A save writes its image, and finds where its first page stands. -/
def writeImage (s : State) (p : Nat) (c : GrCommand) : Act Nat := do
  writeSpan (.graticule p) c.scope (spanFuel (savedImage s p).length) c.va (savedImage s p)
  imageAddress p c .write

/-- The save is no longer under way. -/
abbrev saveDone (p : Nat) (t : State) : State := t.onGr p fun g => { g with saving := none }

/-- A save at an interruption point with every drain performed comes to its image. -/
theorem execGraticulePause_saves (saving : (s.gr p).saving = some c) (runs : s.enginesRun p = true)
    (drained : (s.gr p).drains = []) (stands : ∀ r, (s.gr p).running = some r → r.interruptible = true) :
    execGraticulePause p s = .next (match writeImage s p c s with
      | .ok at_ t => ({ saveDone p t with images := t.images.put at_ (s.gr p).lanes } : State).onGr p fun g =>
          { g with saved := true, finishing := g.finishing ++ [c] }
      | .error (.fault code v) _ => (saveDone p s).faultGr p c code v
      | .error .hold t => t) := by
  have still : (s.gr p).running.elim true GrRun.interruptible = true := by
    cases running : (s.gr p).running with
    | none => rfl
    | some r => exact stands r running
  unfold execGraticulePause
  dsimp only
  rw [saving]
  dsimp only
  rw [if_neg (by simp [runs, drained, still])]
  cases image : writeImage s p c s with
  | ok at_ t =>
    unfold writeImage at image
    rw [image]
  | error stop t =>
    unfold writeImage at image
    rw [image]
    cases stop with
    | hold => rfl
    | fault code v => rfl

end

end Sys2Proof.Proofs

/-! The events of the encoder, of ends, of Compass and of Scribe, and the proof of the obligation about these and the
Graticule at work. -/

namespace Sys2Proof.Proofs

open Sys2Proof Sys2Proof.Machine Sys2Proof.Laws

/-! ### The encoder (R351, R355) -/

section

variable {s u : State} {prov p : Nat} {queue : List Nat}

theorem execEncoderRow_begins {rest : List (Nat × Byte)} (first : (s.province prov).encQueue = p :: queue)
    (runs : s.enginesRun p = true) (left : (s.parcel p).enc.rowsDone < (s.parcel p).enc.rows)
    (fresh : (s.parcel p).enc.rest = []) (begins : beginRow p (s.parcel p).enc s = .ok rest u) :
    execEncoderRow prov s = .next
      (if rest.isEmpty then u.rowEncoded p else u.onEnc p fun r => { r with state := 2, rest := rest }) := by
  simp only [execEncoderRow, first, runs, Nat.not_le.2 left, fresh, begins, List.isEmpty_nil, Bool.not_true,
    Bool.false_eq_true, if_false, if_true]

theorem execEncoderRow_ends (first : (s.province prov).encQueue = p :: queue) (runs : s.enginesRun p = true)
    (left : (s.parcel p).enc.rowsDone < (s.parcel p).enc.rows) (begun : (s.parcel p).enc.rest ≠ [])
    (writes : writeEncoded p (s.parcel p).enc (s.parcel p).enc.rest s = .ok () u) :
    execEncoderRow prov s = .next (u.rowEncoded p) := by
  have unfinished : ¬(s.parcel p).enc.rest.isEmpty = true := by simpa using begun
  simp only [execEncoderRow, first, runs, Nat.not_le.2 left, unfinished, writes, Bool.not_true, Bool.false_eq_true, if_false]

/-- One byte of a row that is not shadowed is written. -/
theorem writeEncoded_byte {r : EncRequest} {i : Nat} {b : Byte}
    (inside : i < (twBits (lgBlock (s.legendAt p r.outIndex)) (lgDim (s.legendAt p r.outIndex) 0) + 7) / 8)
    (shown : r.shadow = false) (legend : s.hasLegend p r.outIndex = true)
    (based : s.hasBase p (s.legendAt p r.outIndex) = true)
    (writes : writeSpan (.engine p) r.scope (spanFuel 1)
      (rowAddress (((s.regionOf p).bind fun x => s.legendBase x.1 x.2 (s.legendAt p r.outIndex)).getD 0)
        (s.legendAt p r.outIndex) (lgRow (s.legendAt p r.outIndex) (r.first + r.rowsDone)) (8 * i)) [b] s = .ok () u) :
    writeEncoded p r [(i, b)] s = .ok () u := by
  refine (act_bind_ok (legendOf_ok legend)).trans ?_
  have row : [(i, b)].filter (fun x => x.1 < (twBits (lgBlock (s.legendAt p r.outIndex))
      (lgDim (s.legendAt p r.outIndex) 0) + 7) / 8) = [(i, b)] := by simp [inside]
  have scale : [(i, b)].filter (fun x => (twBits (lgBlock (s.legendAt p r.outIndex))
      (lgDim (s.legendAt p r.outIndex) 0) + 7) / 8 ≤ x.1) = [] := by simp [inside]
  dsimp only
  rw [row, scale, if_neg (by simp [shown])]
  refine (act_bind_ok (t := u) (a := ()) ?_).trans (congrFun (if_neg Bool.false_ne_true) u)
  exact act_bind_ok ((act_bind_ok (baseOf_ok based)).trans writes)

theorem execEncoderFault_faults {code : Byte} (first : (s.province prov).encQueue = p :: queue)
    (runs : s.enginesRun p = true) (left : (s.parcel p).enc.rowsDone < (s.parcel p).enc.rows)
    (outside : outsideCode code = true) :
    execEncoderFault prov code s = .next (s.faultEncoder p code (s.encoderAddress p (s.parcel p).enc)) := by
  simp only [execEncoderFault, first, runs, Nat.not_le.2 left, outside, decide_false, Bool.not_true, Bool.or_self,
    Bool.false_eq_true, if_false]

end

/-! ### Ends (R302 to R308) -/

section

variable {s : State} {p port h n : Nat} {e : EndStream} {x : LinkWord}

theorem execBindRequest_answers {k tag op : Nat} {handle : Word} {loc : EndLoc}
    (asked : s.link.asks[k]? = some (tag, op, handle, loc)) :
    let a := State.homeAnswer { s with link := { s.link with asks := s.link.asks.eraseIdx k } } op handle loc
    execBindRequest k s = .next (a.2.2.moSend loc.device (.answer tag op handle a.1 a.2.1)) := by
  simp only [execBindRequest, asked]

/-- What an item finds at the side of a port that it enters by. -/
structure ItemWaits (s : State) (p port h n : Nat) (e : EndStream) (x : LinkWord) (rest : List LinkWord) : Prop where
  side : s.portHolder p port true = .endOf h n
  first : (s.port p port).outbound = x :: rest
  record : s.endRecord h n = some e
  runs : s.enginesRun p = true
  opened : e.prod.closed = false

variable {rest : List LinkWord}

theorem execItemEntry_orphaned (waits : ItemWaits s p port h n e x rest) (orphaned : e.orphaned = true) :
    execItemEntry p port s = .next ((s.onPort p port fun w => { w with outbound := rest }).setEndRecord h n
      { e with discarded := e.discarded + 1 }) := by
  obtain ⟨side, first, record, runs, opened⟩ := waits
  simp only [execItemEntry, side, first, record, runs, opened, orphaned, Bool.not_true, Bool.or_self, Bool.false_eq_true,
    if_false, if_true]

theorem execItemEntry_sends (waits : ItemWaits s p port h n e x rest) (sound : e.orphaned = false)
    (active : e.active false = some ⟨s.link.number, p, port⟩) (begun : foreignOf n = none ∨ e.begun = true)
    (room : e.outstanding < e.room) :
    execItemEntry p port s = .next ((s.onPort p port fun w => { w with outbound := rest }).sendItem h n e x) := by
  obtain ⟨side, first, record, runs, opened⟩ := waits
  have going : ((foreignOf n).isSome && !e.begun) = false := by
    rcases begun with home | begun
    · rw [home]; rfl
    · rw [begun, Bool.not_true, Bool.and_false]
  simp only [execItemEntry, side, first, record, runs, opened, sound, active, going, Nat.not_le.2 room, ne_eq,
    not_true_eq_false, decide_false, Bool.not_true, Bool.or_self, Bool.false_eq_true, if_false]

theorem execItemDelivery_delivers {item : Nat × LinkWord} (side : s.portHolder p port false = .endOf h n)
    (record : s.endRecord h n = some e) (arrived : (e.arrived.find? fun y => y.1 = e.delivered) = some item)
    (runs : s.enginesRun p = true) (empty : (s.port p port).inbound = [])
    (begun : foreignOf n = none ∨ e.begun = true ∨ e.orphaned = true)
    (stands : (if e.orphaned then e.cons.loc else e.active true) = some ⟨s.link.number, p, port⟩) :
    execItemDelivery p port s = .next (((s.onPort p port fun w => { w with inbound := [item.2] }).setEndRecord h n
      { e with delivered := e.delivered + 1, arrived := e.arrived.erase item }).tellHome n (.delivered (e.delivered + 1))) := by
  have going : ((foreignOf n).isSome && !e.begun && !e.orphaned) = false := by
    rcases begun with home | begun | orphaned
    · rw [home]; rfl
    · rw [begun, Bool.not_true, Bool.and_false, Bool.false_and]
    · rw [orphaned, Bool.not_true, Bool.and_false]
  simp only [execItemDelivery, side, record, arrived, runs, empty, going, stands, List.isEmpty_nil, ne_eq,
    not_true_eq_false, decide_false, Bool.not_true, Bool.or_self, Bool.false_eq_true, if_false]

theorem execItemAcknowledge_frees (record : s.endRecord p n = some e) (due : e.acked < e.delivered)
    (goes : s.standsStill p = false) :
    let e1 : EndStream := { e with acked := e.acked + 1, retained := e.retained.filter fun x => x.1 ≠ e.acked }
    execItemAcknowledge p n s = .next (((s.setEndRecord p n e1).tellDelivered p n e1).pumpStream p n) := by
  simp only [execItemAcknowledge, record, Nat.not_le.2 due, goes, decide_false, Bool.or_self, Bool.false_eq_true, if_false]

theorem execMigrationMarker_steps {m : EndMove} (record : s.endRecord p n = some e)
    (ready : e.moves.find? (s.moveReady n e) = some m) :
    execMigrationMarker p n s = .next (s.moveStep p n e m) := by
  simp only [execMigrationMarker, record, ready]

theorem execMigrationMarker_pumps (record : s.endRecord p n = some e) (still : e.moves.find? (s.moveReady n e) = none) :
    execMigrationMarker p n s = .next (s.pumpStream p n) := by
  simp only [execMigrationMarker, record, still]

end

/-! ### Compass (R363 to R369, R382) -/

section

variable {s : State} {sheet p : Nat} {q : Query} {x : LinkWord} {r : QueryRecord} {i : Nat} {o : Operator}

theorem execRecordAdmission_admits {q1 : Query} {rest : List LinkWord} (query : s.query sheet = some q)
    (runs : s.queryRuns q = true) (after : (s.sendWaiting sheet q).query sheet = some q1)
    (first : ((s.sendWaiting sheet q).port q.inParcel q.inPort).outbound = x :: rest) (admits : q1.admits = true)
    (clear : (s.sendWaiting sheet q).returnsDue sheet = false) (data : x.token = false) :
    execRecordAdmission sheet s = .next
      (((s.sendWaiting sheet q).onPort q1.inParcel q1.inPort fun w => { w with outbound := rest }).enrol sheet q1 x) := by
  simp only [execRecordAdmission, query, runs, after, first, admits, clear, data, Bool.not_true, Bool.or_self,
    Bool.false_eq_true, if_false]

/-- The Compass has accepted the oldest returned word, and its credit is back. -/
def afterReturn (s : State) (sheet p : Nat) (rest : List (Nat × LinkWord)) : State :=
  State.onParcel { s with compasses := s.compasses.alter Compass.reset sheet fun c => { c with returns := rest } } p
    fun y => { y with credits := y.credits + 1 }

theorem query_afterReturn (s : State) (sheet p : Nat) (rest : List (Nat × LinkWord)) :
    (afterReturn s sheet p rest).query sheet = s.query sheet := by
  rw [State.query, State.compass, afterReturn, onParcel_compasses, Table.alter, look_put_same]
  rfl

variable {returned : List (Nat × LinkWord)}

theorem execRecordReturn_closed (first : (s.compass sheet).returns = (p, x) :: returned) (runs : s.enginesRun p = true)
    (closed : s.query sheet = none) : execRecordReturn sheet s = .next (afterReturn s sheet p returned) := by
  have query := (query_afterReturn s sheet p returned).trans closed
  unfold afterReturn at query ⊢
  simp only [execRecordReturn, first, runs, query, Bool.not_true, Bool.false_eq_true, if_false]

theorem execRecordReturn_stray (first : (s.compass sheet).returns = (p, x) :: returned) (runs : s.enginesRun p = true)
    (open_ : s.query sheet = some q) (unknown : q.record (recId x) = none) :
    execRecordReturn sheet s =
      .next ((afterReturn s sheet p returned).setQuery sheet (some { q with stray := q.stray + 1 })) := by
  have query := (query_afterReturn s sheet p returned).trans open_
  unfold afterReturn at query ⊢
  simp only [execRecordReturn, first, runs, query, unknown, Bool.not_true, Bool.false_eq_true, if_false]

/-- A returned record that was away at an operator's slot is discarded or routed on. -/
theorem execRecordReturn_routes (first : (s.compass sheet).returns = (p, x) :: returned) (runs : s.enginesRun p = true)
    (open_ : s.query sheet = some q) (known : q.record (recId x) = some r) (away : r.away = some i)
    (slot : q.slots.find i = some o) (sent : r.waits = false) (operator : o.join = false) (short : recLength x ≤ 56) :
    let u := afterReturn s sheet p returned
    let q1 := q.observe i (if recDiscard x then 1 else 0) (u.meridian.toNat - r.sent)
    execRecordReturn sheet s = .next (if recDiscard x
      then u.setQuery sheet (some { q1.without (recId x) with discarded := q1.discarded + 1 })
      else u.decide sheet q1 { setStamp x (recStamp r.word) with
        scale := setF (setF x.scale 25 25 (recSide r.word)) 23 16 (recDone x ||| BitVec.ofNat 8 (2 ^ i)).toNat }) := by
  have query := (query_afterReturn s sheet p returned).trans open_
  unfold afterReturn at query ⊢
  dsimp only
  unfold execRecordReturn
  rw [first]
  dsimp only
  rw [if_neg (by simp [runs]), query]
  dsimp only
  rw [known]
  dsimp only
  rw [away, Option.bind_some, slot]
  dsimp only
  rw [if_neg (by simp [sent, operator, short])]
  cases discard : recDiscard x with
  | true => rfl
  | false => rfl

/-- A record stands first in the queue of a join that is not halted. -/
structure JoinWaits (s : State) (sheet : Nat) (q : Query) (x : LinkWord) (rest : List LinkWord) (r : QueryRecord) (i : Nat)
    (o : Operator) : Prop where
  query : s.query sheet = some q
  first : q.joinQueue = x :: rest
  runs : s.queryRuns q = true
  going : q.halted = false
  known : q.record (recId x) = some r
  away : r.away = some i
  slot : q.slots.find i = some o

variable {rest : List LinkWord}

/-- The slot of a join after the stamp that it gives a record. -/
abbrev stamped (o : Operator) : Operator := { o with stamp := (o.stamp + 1) % 2 ^ 32 }

theorem execJoinRecord_full (waits : JoinWaits s sheet q x rest r i o) (full : o.size / 2 ≤ 128 * o.fill (recSide x)) :
    execJoinRecord sheet s = .next (s.haltQuery sheet { q.without (recId x) with
      slots := q.slots.put i (stamped o)
      records := (q.without (recId x)).records ++ [⟨setStamp x o.stamp, none, r.sent, false⟩]
      joinQueue := rest } i codeBufferState) := by
  obtain ⟨query, first, runs, going, known, away, slot⟩ := waits
  simp only [execJoinRecord, query, first, runs, going, known, away, slot, full, Option.bind_some, Bool.not_true,
    Bool.or_self, Bool.false_eq_true, if_false, if_true]
  rfl

theorem execJoinRecord_joins {u : State} (waits : JoinWaits s sheet q x rest r i o)
    (room : 128 * o.fill (recSide x) < o.size / 2) (free : joinCheck q o (recSide x) s = .ok () u) :
    let side := recSide x
    let y := setStamp x o.stamp
    let o1 := stamped o
    let found := ((List.range (o.fill (1 - side))).map (s.joinEntry o (1 - side))).filter fun e =>
      o.key e.payload = o.key y.payload && dist32 (recStamp e) o.stamp < 0
    let o2 := if side = 0 then { o1 with fill0 := o.fill0 + 1 } else { o1 with fill1 := o.fill1 + 1 }
    let q1 := { q.without (recId x) with slots := q.slots.put i o2, joinQueue := rest, joined := q.joined + 1 }
    execJoinRecord sheet s = .next (((s.homeWrite (o.entryAddress side (o.fill side)) (recordEntry y)).intoPort
      o.matchParcel o.matchPort (found.flatMap fun e => [plainRecord e false, plainRecord y true])).setQuery sheet
        (some (q1.observe i (if found.isEmpty then 1 else 0) (s.meridian.toNat - r.sent)))) := by
  obtain ⟨query, first, runs, going, known, away, slot⟩ := waits
  simp only [execJoinRecord, query, first, runs, going, known, away, slot, Nat.not_le.2 room, free, Option.bind_some,
    Bool.not_true, Bool.or_self, Bool.false_eq_true, if_false]

theorem execQueryClosed_closes (query : s.query sheet = some q) (runs : s.queryRuns q = true)
    (closing : q.closing.isSome = true) (empty : q.records = []) :
    execQueryClosed sheet s = .next (s.closeQuery sheet q) := by
  have asked : q.closing.isNone = false := by rw [← Option.not_isSome, closing]; rfl
  simp only [execQueryClosed, query, runs, asked, empty, List.isEmpty_nil, Bool.not_true, Bool.or_self,
    Bool.false_eq_true, if_false]

end

/-! ### Scribe (R370 to R374, R384) -/

section

variable {s u : State} {p : Nat}

/-- The sample that the model's order sends next, if it is one (log 86). -/
abbrev nextSample (s : State) (p : Nat) : Nat := Config.scribeOrder s.tick % ((s.scribe p).pending.length + 1)

theorem execScribeItem_sends (runs : s.enginesRun p = true) (opened : (s.scribe p).state = 1)
    (decoded : (s.scribe p).decoded = true) :
    execScribeItem p s = .next
      (s.sendSample p (if nextSample s p < (s.scribe p).pending.length then nextSample s p else 0)) := by
  simp only [execScribeItem, runs, opened, decoded, ne_eq, not_true_eq_false, decide_false, Bool.not_true, Bool.or_self,
    Bool.or_true, Bool.false_eq_true, if_false, if_true]

theorem execScribeItem_decodes {bs : List Byte} {pos : Nat} (runs : s.enginesRun p = true) (opened : (s.scribe p).state = 1)
    (more : (s.scribe p).decoded = false) (empty : (s.scribe p).pending = []) (turn : s.scribeTurn p = true)
    (decodes : (decodeItem p (s.scribe p)).run s = .ok (.ok (.ok bs, pos)) u) :
    execScribeItem p s = .next ((u.onScribe p fun y =>
      { y with seq := y.seq + 1, offset := pos, passed := y.passed + 1
               pending := y.pending ++ [recordOf (s.scribe p) bs] }).scribeServed p) := by
  unfold execScribeItem
  dsimp only
  rw [if_neg (by simp [runs, opened]), if_neg (by simp [empty, more]), if_neg (by simp [turn]), decodes]

theorem execScribeSourceComplete_ends (runs : s.enginesRun p = true) (opened : (s.scribe p).state = 1)
    (decoded : (s.scribe p).decoded = true) (empty : (s.scribe p).pending = []) :
    execScribeSourceComplete p s = .next (if wbit (s.scribe p).control 6
      then ((s.endSource p).release (.engine p) (s.scribe p).scope).sendArrival p (wbits (s.scribe p).control 5 0) 7 0
      else s.endSource p) := by
  simp only [execScribeSourceComplete, runs, opened, decoded, empty, List.isEmpty_nil, ne_eq, not_true_eq_false,
    decide_false, Bool.not_true, Bool.or_self, Bool.false_eq_true, if_false]

end

/-- Settles O58: each event's conditions choose its branch. -/
theorem engineEvents : Obligations.EngineEvents := by
  intro s
  refine ⟨fun p c rest => execGraticuleCommandStart_zero, ?tile, ?word, ?drain, ?complete, ?fault, ?save, ?row,
    fun prov p rest code => execEncoderFault_faults, fun k tag op h loc => execBindRequest_answers, ?entry,
    fun p port h n e x => execItemDelivery_delivers, fun p n e => execItemAcknowledge_frees,
    fun p n e record => ⟨fun m => execMigrationMarker_steps record, execMigrationMarker_pumps record⟩,
    fun sheet q q1 x rest query runs => execRecordAdmission_admits query runs, ?returned, ?join,
    fun sheet q => execQueryClosed_closes, ?sample, fun p bs pos u => execScribeItem_decodes,
    fun p => execScribeSourceComplete_ends⟩
  case tile =>
    intro p r g c sw a tile running runs unsaved unsaving stays multiplies undrained
    have ready : Sequencing s p r := ⟨running, runs, unsaved, unsaving, stays, multiplies, undrained⟩
    refine ⟨execTileDone_begins ready, fun u begun stream legend staged free => ?_, fun t => execTileDone_read ready⟩
    obtain ⟨t, done, goesOn, ends⟩ := execTileDone_staged ready begun stream legend staged free
    exact ⟨t, done, goesOn, ends⟩
  case word =>
    intro p r x rest g c sw a first f second place running port runs multiplies stream unsaving unsaved stays data room
      format u free
    exact execAStreamWord_stages running port runs multiplies stream unsaving unsaved stays data room format free
  case drain =>
    intro p d rest drains runs legend e base ended
    refine ⟨?_, fun f gen t => execDrainComplete_writes drains runs legend⟩
    intro t one plain shown based out data writes
    refine execDrainComplete_writes drains runs legend ?_
    rw [one]
    exact drainRows_one (writeConverted_plain plain shown based writes)
  case complete =>
    intro p c rest finishing runs alone u free
    exact execGraticuleCommandComplete_ends finishing runs alone free
  case fault =>
    intro p code runs unsaved base
    exact ⟨fun r => execGraticuleFault_running runs unsaved, fun d rest => execGraticuleFault_drain runs unsaved⟩
  case save =>
    intro p c image saving runs drained stands done write
    exact execGraticulePause_saves saving runs drained stands
  case row =>
    intro prov p queue first runs r o row base left
    refine ⟨fun rest u => execEncoderRow_begins first runs left, fun i b u one inside shown legend based writes => ?_,
      fun u => execEncoderRow_ends first runs left⟩
    refine execEncoderRow_ends first runs left (by rw [one]; exact List.cons_ne_nil _ _) ?_
    rw [one]
    exact writeEncoded_byte inside shown legend based writes
  case entry =>
    intro p port h n e x rest side first record runs opened u
    have waits : ItemWaits s p port h n e x rest := ⟨side, first, record, runs, opened⟩
    exact ⟨execItemEntry_orphaned waits, execItemEntry_sends waits⟩
  case returned =>
    intro sheet p x rest first runs u
    exact ⟨execRecordReturn_closed first runs, fun q => execRecordReturn_stray first runs, fun q r i o =>
      execRecordReturn_routes first runs⟩
  case join =>
    intro sheet q x rest r i o query first runs going known away slot side y o1
    have waits : JoinWaits s sheet q x rest r i o := ⟨query, first, runs, going, known, away, slot⟩
    exact ⟨execJoinRecord_full waits, fun u => execJoinRecord_joins waits⟩
  case sample =>
    intro p x k runs opened decoded pending
    exact execScribeItem_sends runs opened decoded

end Sys2Proof.Proofs

/-! The proof of the obligation about Graticule instructions. -/

namespace Sys2Proof.Proofs

open Sys2Proof Sys2Proof.Machine Sys2Proof.Laws

section

variable {s s1 : State} {p fn : Nat} {a b : Word} {ftz : Bool} {d : List Byte} {c : GrCommand} {rd ra rb : Reg}

/-! ### Issue of a command (R322, R329, R330) -/

/-- What the control word of a command must be (R329). -/
def ControlAllowed (fn : Nat) (a : Word) : Prop :=
  wbits a 63 32 = 0 ∧ a.toNat &&& grMask fn = a.toNat ∧ (wbit a 20 = true → wbit a 19 = true) ∧
  (fn = 4 ∨ wbits a 24 21 ≤ 6)

/-- Only the fields that the function uses are set. -/
theorem ControlAllowed.reserved (h : ControlAllowed fn a) :
    (wbits a 63 32 = 0 && a.toNat &&& grMask fn = a.toNat) = true := by
  obtain ⟨high, fields, -⟩ := h
  rw [decide_eq_true high, decide_eq_true fields]
  rfl

/-- A publish goes with a shadow. -/
theorem ControlAllowed.publishes (h : ControlAllowed fn a) : (!wbit a 20 || wbit a 19) = true := by
  obtain ⟨-, -, publish, -⟩ := h
  cases published : wbit a 20 with
  | false => rfl
  | true => exact publish published

/-- Every function but `GR.ZERO` has a scope. -/
theorem ControlAllowed.scope (h : ControlAllowed fn a) (other : fn ≠ 4) : wbits a 24 21 ≤ 6 := by
  obtain ⟨-, -, -, scope⟩ := h
  exact scope.resolve_left other

/-- The state in which a command is captured: its issue has released at its scope (R75, R330). -/
abbrev issueReleased (s : State) (p : Nat) (a : Word) : State := s.release (.core p) (scopeOfCode (wbits a 24 21))

/-- A command as the queue captures it in a state (R323). -/
abbrev captured (s : State) (p fn : Nat) (a : Word) (d : List Byte) (b : Word) (ftz : Bool) : GrCommand :=
  ⟨(s.parcel p).serial, fn, a, d, b, ftz⟩

/-- What the descriptor of a queued command is checked for, by its function (R332 to R335). -/
def descriptorCheck (fn p : Nat) (c : GrCommand) : Act Unit :=
  match fn with
  | 0 => checkLoad p c
  | 1 => checkMultiply p c
  | 2 => checkScan p c
  | _ => checkDrain p c

/-- The overlay of a command's target is not another requester's (R331). -/
theorem target_free (free : c.shadow = true → s.overlayTaken p false c.target = false) :
    (!(c.shadow && s.overlayTaken p false c.target)) = true := by
  cases shadow : c.shadow with
  | false => rfl
  | true => rw [free shadow]; rfl

/-- A command that is taken opens its overlay and takes a number. -/
def numbered (s : State) (p : Nat) (c : GrCommand) : State :=
  (if c.shadow then s.openOverlay p false c.target else s).onParcel p fun x => { x with serial := x.serial + 1 }

theorem numbered_direct (direct : c.shadow = false) :
    numbered s p c = s.onParcel p fun x => { x with serial := x.serial + 1 } := by
  rw [numbered, direct, if_neg Bool.false_ne_true]

theorem gr_numbered : (numbered s p c).gr p = s.gr p := by
  rw [State.gr, numbered, parcel_onParcel, if_pos rfl, State.openOverlay]
  split
  · split <;> rfl
  · rfl

/-- A command at the end of its queue. -/
def queued (s : State) (p : Nat) (c : GrCommand) : State :=
  (numbered s p c).onGr p fun g => { g with queue := g.queue ++ [c] }

theorem queue_queued : ((queued s p c).gr p).queue = (s.gr p).queue ++ [c] := by
  rw [queued, gr_onGr, gr_numbered]

/-- A save that is asked for. -/
def savingWith (s : State) (p : Nat) (c : GrCommand) : State :=
  (numbered s p c).onGr p fun g => { g with saving := some c }

theorem saving_savingWith : ((savingWith s p c).gr p).saving = some c := by
  rw [savingWith, gr_onGr]

/-- The queue takes a command: no save or restore is in the way, and a place is free (R322, R337). -/
structure QueueOpen (s : State) (p : Nat) : Prop where
  unsaving : (s.gr p).saving = none
  unsaved : (s.gr p).saved = false
  room : (s.gr p).queue.length < 8

theorem QueueOpen.accepts (h : QueueOpen s p) (free : c.shadow = true → s.overlayTaken p false c.target = false) :
    (((s.gr p).saving.isNone && (!(s.gr p).saved && (s.gr p).queue.length < 8)) &&
      !(c.shadow && s.overlayTaken p false c.target)) = true := by
  obtain ⟨unsaving, unsaved, room⟩ := h
  rw [target_free free, unsaving, unsaved, decide_eq_true room]
  rfl

/-- Every issue but that of `GR.ZERO` begins alike: its word and its address pass, and it releases (R330). -/
theorem issueGr_begins {α : Type} {n : Nat} {rest : Scope → Act α} (allowed : ControlAllowed fn a) (other : fn ≠ 4)
    (fits : b.toNat % n = 0) :
    (do need (wbits a 63 32 = 0 && a.toNat &&& grMask fn = a.toNat)
        let sc ← scopeField (wbits a 24 21)
        need (!wbit a 20 || wbit a 19)
        aligned b n
        modify fun (t : State) => t.release (.core p) sc
        rest sc) s = rest (scopeOfCode (wbits a 24 21)) (issueReleased s p a) := by
  refine (act_bind_ok (check_of allowed.reserved)).trans ?_
  refine (act_bind_ok (scopeField_ok (allowed.scope other))).trans ?_
  refine (act_bind_ok (check_of allowed.publishes)).trans ?_
  exact (act_bind_ok (aligned_ok fits)).trans rfl

/-- A command with a descriptor is queued as captured, where the descriptor passes its check. -/
theorem issueGr_queues (reading : fn < 4) (allowed : ControlAllowed fn a) (fits : b.toNat % 32 = 0)
    (reads : readVa (.graticule p) (scopeOfCode (wbits a 24 21)) b 32 (issueReleased s p a) = .ok d s1)
    (described : descriptorCheck fn p (captured s1 p fn a d b ftz) s1 = .ok () s1) (accepts : QueueOpen s1 p)
    (free : (captured s1 p fn a d b ftz).shadow = true →
      s1.overlayTaken p false (captured s1 p fn a d b ftz).target = false) :
    issueGr p fn a b ftz s = .ok s1.newPromise (queued s1 p (captured s1 p fn a d b ftz)) := by
  have room := accepts.accepts free
  interval_cases fn
  all_goals
    refine (issueGr_begins allowed (by decide) fits).trans ?_
    refine (act_bind_ok reads).trans ?_
    refine (act_bind_ok described).trans ?_
    exact (act_bind_ok (check_of room)).trans rfl

/-- A core's issue writes the promise. -/
theorem grInstr_issues {i : Instr} {v : Word} {t : State}
    (issues : issueGr s.here fn (s.reg ra) (s.reg rb) ((s.core s.here).flags.getLsbD 0) s = .ok v t) :
    s.grInstr i fn rd ra rb = .next (t.writeReg rd v) :=
  attempt_ok (act_bind_ok issues)

theorem gr_writeReg {v : Word} : (s.writeReg rd v).gr p = s.gr p := by
  rw [State.gr, State.writeReg, State.onCore, parcel_onParcel]
  split
  · next here => rw [here]; rfl
  · rfl

/-- What a core sees of a command that is queued or kept for a save: its promise, with the engine as the issue left it. -/
theorem grInstr_promises {i : Instr} {v : Word} {t : State}
    (issues : issueGr s.here fn (s.reg ra) (s.reg rb) ((s.core s.here).flags.getLsbD 0) s = .ok v t) :
    ∃ u, s.grInstr i fn rd ra rb = .next u ∧ u.gr s.here = t.gr s.here ∧ u.reg rd = (if rd = 0 then 0 else v) :=
  ⟨t.writeReg rd v, grInstr_issues issues, gr_writeReg, by rw [reg_writeReg, if_pos rfl]⟩

/-! ### Save and restore (R337) -/

/-- `GR.SAVE` asks for a save. -/
theorem issueGr_save (allowed : ControlAllowed 5 a) (fits : b.toNat % 4096 = 0)
    (unsaving : ((issueReleased s p a).gr p).saving = none) (unsaved : ((issueReleased s p a).gr p).saved = false)
    (direct : (captured (issueReleased s p a) p 5 a [] b ftz).shadow = false) :
    let released := issueReleased s p a
    issueGr p 5 a b ftz s = .ok released.newPromise (savingWith released p (captured released p 5 a [] b ftz)) := by
  refine (issueGr_begins allowed (by decide) fits).trans ?_
  refine (act_bind_ok (check_of ?_)).trans rfl
  rw [unsaving, unsaved, direct]
  rfl

/-- The engine without its running command. -/
def withoutRun (s : State) (p : Nat) : State :=
  match (s.gr p).running with
  | some r => s.dropRun p r
  | none => s

/-- The engine, the accumulators and the weights of an image, with the scale lanes staged when it was written (log 41). -/
def restoredFrom (s : State) (p : Nat) (c : GrCommand) (bs : List Byte) (place : Nat) : State :=
  ((((withoutRun s p).homeWrite (tileAddress p 0 0 0) (slice bs 0x1000 0x40000)).homeWrite (weightAddress p 0)
    (slice bs 0x41000 0x40000)).onGr p fun g => { graticuleOf bs with
      finishing := g.finishing ++ [c], lanes := (s.images.find place).getD g.lanes }).holdStream p

/-- The engine after a restore from what is no image: idle, with the report (log 8). -/
def restoreReported (s : State) (p : Nat) : State :=
  ((withoutRun s p).onGr p fun g => { g with saved := false }).dropCommands p codeIllegal 6 (Config.freeWord s.tick)

/-- A restore whose reads complete takes the image, or reports that there is none. -/
theorem restoreGr_reads {s0 : State} {bs : List Byte} {place : Nat}
    (reads : readSpan (.graticule p) c.scope (spanFuel 0x81000) c.va 0x81000 s = .ok bs s0)
    (address : imageAddress p c .read s0 = .ok place s1) :
    restoreGr p c s = .ok () (if field bs 0 8 = 0x47520001 then restoredFrom s1 p c bs place else restoreReported s1 p) := by
  refine (act_bind_ok reads).trans ?_
  exact (act_bind_ok address).trans rfl

/-- An issued restore that completes is the restore itself (log 117). -/
theorem restoreIssued_restores {t : State} (restores : restoreGr p c s = .ok () t) : restoreIssued p c s = .ok () t := by
  refine (act_bind_ok (get_eq s)).trans ?_
  rw [restores]
  rfl

/-- `GR.REST` of an idle or a saved engine carries out the restore. -/
theorem issueGr_restores {t : State} (allowed : ControlAllowed 6 a) (fits : b.toNat % 4096 = 0)
    (unsaving : ((issueReleased s p a).gr p).saving = none)
    (stands : ((issueReleased s p a).gr p).saved = true ∨ ((issueReleased s p a).gr p).busy = false)
    (direct : (captured (issueReleased s p a) p 6 a [] b ftz).shadow = false)
    (restores : restoreGr p (captured (issueReleased s p a) p 6 a [] b ftz)
      ((issueReleased s p a).onParcel p fun x => { x with serial := x.serial + 1 }) = .ok () t) :
    issueGr p 6 a b ftz s = .ok (issueReleased s p a).newPromise t := by
  rw [← numbered_direct direct] at restores
  refine (issueGr_begins allowed (by decide) fits).trans ?_
  refine (act_bind_ok (check_of ?_)).trans ?_
  · rw [unsaving, direct]
    rcases stands with saved | idle
    · rw [saved]; rfl
    · rw [idle, Bool.not_false, Bool.or_true]; rfl
  refine Eq.trans (act_bind_ok (k := modify _) rfl) ?_
  exact (act_bind_ok (restoreIssued_restores restores)).trans rfl

/-! ### `GR.STAT` (R338) -/

theorem execGrStat_reads {v : Word} {t : State} (selects : s.reg ra = a) (reads : statGr s.here a s = .ok v t) :
    exec (.grStat rd ra) s = .next (t.writeReg rd v) := by
  subst selects
  exact attempt_ok (act_bind_ok reads)

/-- The last four values are the words of the weight slots. -/
theorem statGr_slot (low : 4 ≤ a.toNat) (high : a.toNat < 8) :
    statGr p a s = .ok ((s.gr p).slotWord (a.toNat - 4)) s := by
  unfold statGr
  generalize a.toNat = k at low high
  interval_cases k <;> rfl

end

/-- Settles O33: each instruction passes its checks; what the command, the image or the selector says chooses the update. -/
theorem graticuleInstructions : Obligations.GraticuleInstructions := by
  intro s rd ra rb p a b sc ftz released allowed open_ queue
  have queues : ∀ i fn allows, fn < 4 → exec i s = s.grInstr i fn rd ra rb →
      (∀ s1 c, allows s1 c = true → descriptorCheck fn p c s1 = .ok () s1) → queue i fn allows := by
    intro i fn allows reading runs passes d s1 control fits reads c described accepts free
    obtain ⟨unsaving, unsaved, room⟩ := accepts
    obtain ⟨t, done, engine, promise⟩ := grInstr_promises (i := i) (rd := rd) (issueGr_queues reading control fits reads
      (passes s1 c described) ⟨unsaving, unsaved, room⟩ free)
    exact ⟨t, runs.trans done, (congrArg _ engine).trans queue_queued, promise⟩
  refine ⟨queues _ 0 _ (by decide) rfl fun _ _ => checkLoad_ok, queues _ 1 _ (by decide) rfl fun _ _ => checkMultiply_ok,
    queues _ 2 _ (by decide) rfl fun _ _ => checkScan_ok, queues _ 3 _ (by decide) rfl fun _ _ => checkDrain_ok,
    ?zero, ?save, ?restore, fun status => execGrStat_reads status rfl, fun position => execGrStat_reads position rfl,
    fun clear => execGrStat_reads clear rfl, fun low high => execGrStat_reads rfl (statGr_slot low high)⟩
  case zero =>
    rintro ⟨reserved, mask, -⟩ ⟨unsaving, unsaved, room⟩ c direct
    obtain ⟨t, done, engine, -⟩ := grInstr_promises (i := .grZero ra) (rd := 0) (rb := 0)
      (issueGr_zero reserved mask room unsaving unsaved)
    refine ⟨t, done, (congrArg _ engine).trans ?_⟩
    rw [zeroQueued, gr_onGr, State.gr, parcel_onParcel, if_pos rfl]
  case save =>
    intro control fits unsaving unsaved c direct
    obtain ⟨t, done, engine, promise⟩ := grInstr_promises (i := .grSave rd ra rb) (rd := rd)
      (issueGr_save control fits unsaving unsaved direct)
    exact ⟨t, done, (congrArg _ engine).trans saving_savingWith, promise⟩
  case restore =>
    intro bs s0 s1 t place control fits unsaving stands c direct reads address is
    have restores : exec (.grRest rd ra rb) s = _ := grInstr_issues (rd := rd) (i := .grRest rd ra rb)
      (issueGr_restores control fits unsaving stands direct (restoreGr_reads reads address))
    subst is
    refine ⟨fun image => restores.trans ?_, fun other => restores.trans ?_⟩
    · rw [if_pos image]; rfl
    · rw [if_neg other]; rfl

end Sys2Proof.Proofs

/-! The proof of the obligation about Trellis instructions. -/

namespace Sys2Proof.Proofs

open Sys2Proof Sys2Proof.Machine Sys2Proof.Laws

section

variable {s s1 s2 : State} {u : Writer} {p i j w rs : Nat} {sc : Scope} {e te oe : Legend} {row : Row} {more : Bool}
  {rest : List Nat} {bs d : List Byte} {a b v : Word} {rd ra rb : Reg} {r : EncRequest}

/-- An instruction ends as its body does on the state that it starts in. -/
theorem attempt_congr {n : Instr} {engine : Nat} {k k' : Act Unit} (same : k s = k' s) :
    s.attempt n engine k = s.attempt n engine k' := by
  rw [State.attempt, State.attempt, same]

/-! ### The bytes of a window (R353, R358) -/

/-- A state in which one more byte than another had is gathered for a window. -/
def withGathered (s t : State) (p i : Nat) (bs : List Byte) : State :=
  t.onCore p fun c => { c with gathered := (s.core p).gathered ++ [(i, bs.headD 0)] }

/-- A byte that is not the last thing to be read is kept, and the instruction holds for the others. -/
theorem readWindow_gathers (due : (weightBytes e j).drop (s.core p).gathered.length = i :: rest)
    (others : (more || !rest.isEmpty) = true) (reads : readRow u p sc e row (8 * i) 1 s = .ok bs s1) :
    readWindow u p sc e row j more s = .error .hold (withGathered s s1 p i bs) := by
  refine (act_bind_ok (get_eq s)).trans ?_
  dsimp only
  rw [due]
  refine (act_bind_ok reads).trans ?_
  refine (act_bind_ok (modify_eq ..)).trans ?_
  rw [if_pos others]
  rfl

/-! ### `TW.SEEK` (R353) -/

/-- The words name a window, a scope, and a row and position inside a trellis tensor (R353). -/
structure SeekAllowed (s : State) (a b : Word) (e : Legend) : Prop where
  fields : wbits a 7 3 = 0 ∧ wbits a 19 18 = 0 ∧ wbits a 63 23 = 0 ∧ wbits b 31 22 = 0 ∧ wbits b 63 48 = 0
  scope : wbits a 22 20 ≤ 6
  legend : ((s.regionOf s.here).bind fun x => x.2.entry (wbits a 17 8)) = some e
  trellis : lgIsTcw e = true
  row : wbits b 21 0 < lgRows e
  position : wbits b 47 32 < lgDim e 0

/-- The word that a seek writes and puts into its window register. -/
abbrev soughtWord (a b : Word) (w : Nat) : Word :=
  windowWord (wbits a 17 8) (wbits b 21 0) (wbits a 22 20) (wbits b 47 32) w

/-- A seek that is allowed reads its window, and then fills the register and writes it. -/
theorem execTwSeek_begins (allowed : SeekAllowed s (s.reg ra) (s.reg rb) e) :
    exec (.twSeek rd ra rb) s = s.attempt (.twSeek rd ra rb) 5 (do
      let w ← readWindow (.core s.here) s.here (scopeOfCode (wbits (s.reg ra) 22 20)) e
        (lgRow e (wbits (s.reg rb) 21 0)) (wbits (s.reg rb) 47 32) false
      modify fun t => (t.useGathered s.here).setWindow s.here (wbits (s.reg ra) 2 0)
        (soughtWord (s.reg ra) (s.reg rb) w)
      finish rd (soughtWord (s.reg ra) (s.reg rb) w)) := by
  obtain ⟨⟨a1, a2, a3, b1, b2⟩, scope, legend, trellis, row, position⟩ := allowed
  refine attempt_congr ?_
  refine (act_bind_ok (check_of (by rw [a1, a2, a3, b1, b2]; rfl))).trans ?_
  refine (act_bind_ok (scopeField_ok scope)).trans ?_
  refine (act_bind_ok (legendOf_eq legend)).trans ?_
  refine (act_bind_ok (check_of trellis)).trans ?_
  exact act_bind_ok (check_of (by rw [decide_eq_true row, decide_eq_true position]; rfl))

theorem execTwSeek_fills (allowed : SeekAllowed s (s.reg ra) (s.reg rb) e)
    (reads : readWindow (.core s.here) s.here (scopeOfCode (wbits (s.reg ra) 22 20)) e
      (lgRow e (wbits (s.reg rb) 21 0)) (wbits (s.reg rb) 47 32) false s = .ok w s1) :
    exec (.twSeek rd ra rb) s = .next (((s1.useGathered s.here).setWindow s.here (wbits (s.reg ra) 2 0)
      (soughtWord (s.reg ra) (s.reg rb) w)).writeReg rd (soughtWord (s.reg ra) (s.reg rb) w)) :=
  (execTwSeek_begins allowed).trans (attempt_ok (act_bind_ok reads))

theorem execTwSeek_gathers {k : Nat} (allowed : SeekAllowed s (s.reg ra) (s.reg rb) e)
    (due : (weightBytes e (wbits (s.reg rb) 47 32)).drop (s.core s.here).gathered.length = i :: k :: rest)
    (reads : readRow (.core s.here) s.here (scopeOfCode (wbits (s.reg ra) 22 20)) e (lgRow e (wbits (s.reg rb) 21 0))
      (8 * i) 1 s = .ok bs s1) :
    exec (.twSeek rd ra rb) s = .next (withGathered s s1 s.here i bs) :=
  (execTwSeek_begins allowed).trans (attempt_hold (act_bind_error (readWindow_gathers due rfl reads)))

/-! ### `TW.READ` (R344, R346, R354) -/

/-- The word names a window register that holds a filled window of a tensor (R346, R354). -/
structure ReadAllowed (s : State) (a v : Word) (e : Legend) : Prop where
  register : a.toNat < 16
  holds : v = s.window s.here (wbits a 2 0)
  filled : wbit v 63 = true
  legend : ((s.regionOf s.here).bind fun x => x.2.entry (wbits v 62 53)) = some e

/-- The position of the window after a read: the next of its row, unless the read is told to stay. -/
def movedPosition (e : Legend) (a v : Word) : Nat :=
  if wbit a 3 then wbits v 27 12 else (wbits v 27 12 + 1) % lgDim e 0

/-- What a read does with its window and its scale: it gathers the flags and moves the window. -/
def afterRead (t : State) (p : Nat) (e : Legend) (a v : Word) (w rs : Nat) : State :=
  ((t.useGathered p).grFlags p (twDecode w rs).flags).setWindow p (wbits a 2 0)
    (windowWord (wbits v 62 53) (wbits v 52 31) (wbits v 30 28) (movedPosition e a v) w)

/-- The word that a read writes: the value, its window and its position. -/
def readWord (v : Word) (w rs : Nat) : Word :=
  BitVec.ofNat 64 ((twDecode w rs).code + w * 2 ^ 16 + wbits v 27 12 * 2 ^ 32)

/-- A read that is allowed reads its window and its scale, and then moves the window and writes the weight. -/
theorem execTwRead_begins (allowed : ReadAllowed s (s.reg ra) v e) :
    exec (.twRead rd ra) s = s.attempt (.twRead rd ra) 5 (do
      let w ← readWindow (.core s.here) s.here (scopeOfCode (wbits v 30 28)) e (lgRow e (wbits v 52 31)) (wbits v 27 12) true
      let rs ← readRowScale (.core s.here) s.here (scopeOfCode (wbits v 30 28)) e (lgRow e (wbits v 52 31))
      modify fun t => afterRead t s.here e (s.reg ra) v w rs
      finish rd (readWord v w rs)) := by
  obtain ⟨register, rfl, filled, legend⟩ := allowed
  refine attempt_congr ?_
  refine (act_bind_ok (check_of (decide_eq_true (wbits_high (lo := 4) register)))).trans ?_
  refine (act_bind_ok (check_of filled)).trans ?_
  exact act_bind_ok (legendOf_eq legend)

theorem execTwRead_decodes (allowed : ReadAllowed s (s.reg ra) v e)
    (reads : readWindow (.core s.here) s.here (scopeOfCode (wbits v 30 28)) e (lgRow e (wbits v 52 31)) (wbits v 27 12)
      true s = .ok w s1)
    (scales : readRowScale (.core s.here) s.here (scopeOfCode (wbits v 30 28)) e (lgRow e (wbits v 52 31)) s1 = .ok rs s2) :
    exec (.twRead rd ra) s = .next ((afterRead s2 s.here e (s.reg ra) v w rs).writeReg rd (readWord v w rs)) :=
  (execTwRead_begins allowed).trans (attempt_ok ((act_bind_ok reads).trans (act_bind_ok scales)))

/-- Every byte of a read's window is kept and held for, since the scale is read after the last. -/
theorem execTwRead_gathers (allowed : ReadAllowed s (s.reg ra) v e)
    (due : (weightBytes e (wbits v 27 12)).drop (s.core s.here).gathered.length = i :: rest)
    (reads : readRow (.core s.here) s.here (scopeOfCode (wbits v 30 28)) e (lgRow e (wbits v 52 31)) (8 * i) 1 s =
      .ok bs s1) :
    exec (.twRead rd ra) s = .next (withGathered s s1 s.here i bs) :=
  (execTwRead_begins allowed).trans (attempt_hold (act_bind_error (readWindow_gathers due rfl reads)))

/-! ### `TW.ENC` (R351, R355) -/

/-- The request that the encoder is asked for with a control word and a descriptor. -/
abbrev encRequest (s : State) (a : Word) (d : List Byte) : EncRequest :=
  ⟨1, 0, a, d, [], (s.core s.here).flags.getLsbD 0⟩

/-- The control word and the descriptor's address are allowed (R351). -/
structure EncControl (a b : Word) : Prop where
  high : wbits a 63 32 = 0
  low : wbits a 18 0 = 0
  publish : wbit a 20 = true → wbit a 19 = true
  scope : wbits a 24 21 ≤ 6
  fits : b.toNat % 32 = 0

/-- The fields of a descriptor are in their range, and the rest of it is clear (R351). -/
structure EncFields (d : List Byte) : Prop where
  first : field d 4 4 < 2 ^ 22
  rows : field d 8 4 < 2 ^ 22
  auto : field d 12 1 ≤ 1
  clear : field d 13 19 = 0

theorem EncFields.fits (h : EncFields d) :
    (field d 4 4 < 2 ^ 22 && field d 8 4 < 2 ^ 22 && field d 12 1 ≤ 1 && field d 13 19 = 0) = true := by
  obtain ⟨first, rows, auto, clear⟩ := h
  rw [decide_eq_true first, decide_eq_true rows, decide_eq_true auto, decide_eq_true clear]
  rfl

/-- The tensors are one of targets and a trellis tensor of the same shape that has the rows asked for (R351). -/
structure EncTensors (r : EncRequest) (te oe : Legend) : Prop where
  target : lgFormat te = 9
  trellis : lgIsTcw oe = true
  shape : ∀ k < 4, lgDim te k = lgDim oe k
  width : lgDim oe 0 ≤ 4096
  rows : r.first + r.rows ≤ lgRows oe

theorem EncTensors.fits (h : EncTensors r te oe) :
    (lgFormat te = 9 && lgIsTcw oe && ((List.range 4).all fun k => lgDim te k = lgDim oe k) && lgDim oe 0 ≤ 4096 &&
      r.first + r.rows ≤ lgRows oe) = true := by
  obtain ⟨target, trellis, shape, width, rows⟩ := h
  have same : ((List.range 4).all fun k => lgDim te k = lgDim oe k) = true :=
    List.all_eq_true.2 fun k hk => decide_eq_true (shape k (List.mem_range.1 hk))
  rw [decide_eq_true target, trellis, same, decide_eq_true width, decide_eq_true rows]
  rfl

/-- The overlays that a shadowed request opens, of its output and with auto scale of its scale, are not another requester's. -/
theorem encOverlays_free (idle : (s.parcel p).enc.state = 0)
    (free : r.shadow = true → s.overlayTaken p false r.outIndex = false ∧
      (r.autoScale = true → s.overlayTaken p false (lgScaleEntry oe) = false)) :
    ((s.parcel p).enc.state = 0 && !(r.shadow &&
      (s.overlayTaken p false r.outIndex || (r.scaleIndex oe).any (s.overlayTaken p false)))) = true := by
  rw [decide_eq_true idle]
  cases shadow : r.shadow with
  | false => rfl
  | true =>
    obtain ⟨output, scale⟩ := free shadow
    rw [output, EncRequest.scaleIndex]
    cases auto : r.autoScale with
    | false => rfl
    | true =>
      rw [if_pos rfl, Option.any_some, scale auto]
      rfl

/-- A shadowed request opens the overlay of its output. -/
def encOverlay (t : State) (p : Nat) (r : EncRequest) (oe : Legend) : State :=
  if r.shadow then (t.openOverlay p false r.outIndex).overlayScale p r.outIndex (r.scaleIndex oe) else t

theorem provinces_encOverlay (t : State) : (encOverlay t p r oe).provinces = t.provinces := by
  rw [encOverlay, State.openOverlay]
  split
  · split <;> rfl
  · rfl

/-- The request stands at its parcel and at the end of its province's queue. -/
def encoderAsked (t : State) (p : Nat) (r : EncRequest) (oe : Legend) : State :=
  ((encOverlay t p r oe).onEnc p fun _ => r).onEncQueue (p / 64) (· ++ [p])

theorem enc_encoderAsked (t : State) : ((encoderAsked t p r oe).parcel p).enc = r := by
  have asked : (encoderAsked t p r oe).parcel p = ((encOverlay t p r oe).onEnc p fun _ => r).parcel p := rfl
  rw [asked, State.onEnc, parcel_onParcel, if_pos rfl]

theorem encQueue_encoderAsked (t : State) :
    ((encoderAsked t p r oe).province (p / 64)).encQueue = (t.province (p / 64)).encQueue ++ [p] := by
  rw [State.province, State.province, ← provinces_encOverlay t]
  exact congrArg Province.encQueue (look_put_same ..)

theorem enc_writeReg : ((s.writeReg rd v).parcel p).enc = (s.parcel p).enc := by
  rw [State.writeReg, State.onCore, parcel_onParcel]
  split
  · next here => rw [here]
  · rfl

/-- The promise of a request: an estimate from its rows and their width. -/
def encPromise (s : State) (r : EncRequest) (oe : Legend) : Word :=
  s.meridian + BitVec.ofNat 64 (max 16 (16 + r.rows * (2 * lgDim oe 0 + 64)) + Config.promise s.tick)

theorem execTwEnc_asks (control : EncControl (s.reg ra) (s.reg rb))
    (reads : readVa (.engine s.here) (scopeOfCode (wbits (s.reg ra) 24 21)) (s.reg rb) 32
      (s.release (.core s.here) (scopeOfCode (wbits (s.reg ra) 24 21))) = .ok d s1)
    (fields : EncFields d)
    (target : ((s1.regionOf s.here).bind fun x => x.2.entry (encRequest s (s.reg ra) d).targetIndex) = some te)
    (output : ((s1.regionOf s.here).bind fun x => x.2.entry (encRequest s (s.reg ra) d).outIndex) = some oe)
    (tensors : EncTensors (encRequest s (s.reg ra) d) te oe) (idle : (s.parcel s.here).enc.state = 0)
    (free : (encRequest s (s.reg ra) d).shadow = true →
      s.overlayTaken s.here false (encRequest s (s.reg ra) d).outIndex = false ∧
      ((encRequest s (s.reg ra) d).autoScale = true → s.overlayTaken s.here false (lgScaleEntry oe) = false)) :
    exec (.twEnc rd ra rb) s = .next ((encoderAsked s1 s.here (encRequest s (s.reg ra) d) oe).writeReg rd
      (encPromise s (encRequest s (s.reg ra) d) oe)) := by
  obtain ⟨high, low, publish, scope, fits⟩ := control
  have published : (!wbit (s.reg ra) 20 || wbit (s.reg ra) 19) = true := by
    cases asked : wbit (s.reg ra) 20 with
    | false => rfl
    | true => exact publish asked
  refine attempt_ok ?_
  refine (act_bind_ok (check_of (by rw [high, low, published]; rfl))).trans ?_
  refine (act_bind_ok (scopeField_ok scope)).trans ?_
  refine (act_bind_ok (aligned_ok fits)).trans ?_
  refine (act_bind_ok (issueRelease_eq ..)).trans ?_
  refine (act_bind_ok reads).trans ?_
  refine (act_bind_ok (check_of fields.fits)).trans ?_
  refine (act_bind_ok (legendOf_eq target)).trans ?_
  refine (act_bind_ok (legendOf_eq output)).trans ?_
  refine (act_bind_ok (check_of tensors.fits)).trans ?_
  exact (act_bind_ok (check_of (encOverlays_free idle free))).trans rfl

/-! ### `TW.STAT` (R356) -/

theorem execTwStat_window (window : (s.reg ra).toNat < 8) :
    exec (.twStat rd ra) s = .next (s.writeReg rd (s.window s.here (s.reg ra).toNat)) := by
  refine attempt_ok ((act_bind_ok (check_of (decide_eq_true (Nat.le_of_lt window)))).trans ?_)
  rw [if_neg (Nat.ne_of_lt window)]
  rfl

theorem execTwStat_encoder (encoder : s.reg ra = 8) :
    exec (.twStat rd ra) s = .next (s.writeReg rd (s.encStatus s.here)) := by
  have eight : (s.reg ra).toNat = 8 := congrArg BitVec.toNat encoder
  refine attempt_ok ((act_bind_ok (check_of (decide_eq_true (Nat.le_of_eq eight)))).trans ?_)
  rw [if_pos eight]
  rfl

end

/-- Settles O32: each instruction passes its checks; what is still to be read of a window chooses between holding and
completing. -/
theorem trellisInstructions : Obligations.TrellisInstructions := by
  intro s rd ra rb p a b gathers
  refine ⟨?seek, ?read, ?encode, execTwStat_window, execTwStat_encoder⟩
  case seek =>
    intro e a1 a2 a3 b1 b2 scope legend trellis inRow inside sc row j
    have allowed : SeekAllowed s a b e := ⟨⟨a1, a2, a3, b1, b2⟩, scope, legend, trellis, inRow, inside⟩
    exact ⟨fun w s1 => execTwSeek_fills allowed, fun i k rest bs s1 => execTwSeek_gathers allowed⟩
  case read =>
    intro e v register filled legend sc row j
    have allowed : ReadAllowed s a v e := ⟨register, rfl, filled, legend⟩
    exact ⟨fun w rs s1 s2 => execTwRead_decodes allowed, fun i rest bs s1 => execTwRead_gathers allowed⟩
  case encode =>
    intro d s1 te oe r high low publish scope fits reads first rows auto clear target output format trellis shape width
      inside idle free
    refine ⟨_, execTwEnc_asks ⟨high, low, publish, scope, fits⟩ reads ⟨first, rows, auto, clear⟩ target output
      ⟨format, trellis, shape, width, inside⟩ idle free, ?_, ?_⟩
    · exact enc_writeReg.trans (enc_encoderAsked s1)
    · exact encQueue_encoderAsked s1

end Sys2Proof.Proofs

/-! The proof of the obligation about Compass instructions. -/

namespace Sys2Proof.Proofs

open Sys2Proof Sys2Proof.Machine Sys2Proof.Laws

/-! ### The turn through a read (R55 to R60, R407) -/

section

variable {s t : State} {u : Writer} {sc : Scope} {m : Mapping} {n : Nat} {va : Word} {d : List Byte}

/-- The core whose turn it is follows from the turn. -/
theorem here_congr (same : t.next = s.next) : t.here = s.here := by
  rw [State.here, State.site, same]
  rfl

/-- A read that completes leaves the state as it was, fills slices on its path, or asks the host. -/
theorem readAt_leaves (h : readAt u sc m n va s = .ok d t) :
    t = s ∨ t = (s.scopedRead u sc (leafNoAllocate m.leaf) m.pa n).2 ∨ ∃ address, t = s.hostSends false address n := by
  unfold readAt at h
  obtain ⟨_, _, here, h⟩ := act_bind_eq_ok h
  cases here
  cases place : placeOf m.pa with
  | hbm => rw [place] at h; cases h; exact .inr (.inl rfl)
  | parcel p off =>
    rw [place] at h
    dsimp only at h
    split at h
    · exact .inl (reserved_read h)
    split at h
    · cases h; exact .inl rfl
    split at h
    · cases h
    split at h
    · split at h
      · cases h
      · cases h; exact .inl rfl
    split at h
    · split at h
      · exact .inl (orRaise_passes h)
      · cases h
    split at h
    · cases h
    · exact .inl (orRaise_passes h)
  | bank level node off =>
    rw [place] at h
    cases region : s.unitRegion u with
    | none => rw [region] at h; cases h
    | some x =>
      rw [region] at h
      dsimp only at h
      split at h
      · exact .inl (reserved_read h)
      · cases h
  | control off => rw [place] at h; exact .inl (orRaise_passes h)
  | host a => rw [place] at h; cases h; exact .inr (.inr ⟨a, rfl⟩)
  | reserved => rw [place] at h; cases h

theorem fill_next (s : State) (u : Writer) (lvl sector : Nat) (path : List (Nat × Nat)) :
    (s.fill u lvl sector path).next = s.next := by
  induction path with
  | nil => rfl
  | cons e rest ih =>
    unfold State.fill
    dsimp only
    split <;> exact ih

theorem scopedRead_next (s : State) (u : Writer) (sc : Scope) (noalloc : Bool) (pa n : Nat) :
    (s.scopedRead u sc noalloc pa n).2.next = s.next := by
  unfold State.scopedRead
  dsimp only
  split
  · rfl
  · exact foldl_next (fun t x => fill_next ..) _ s

/-- A read at a virtual address leaves the turn with its core. -/
theorem here_readVa (h : readVa u sc va n s = .ok d t) : t.here = s.here := by
  obtain ⟨m, s1, translates, reads⟩ := act_bind_eq_ok h
  obtain ⟨_, _, _, translated⟩ := translatedFrom_translate translates
  have same : s1.next = s.next := by rw [translated]
  rcases readAt_leaves reads with rfl | rfl | ⟨_, rfl⟩
  · exact here_congr same
  · exact here_congr ((scopedRead_next ..).trans same)
  · exact here_congr same

end

/-! ### The sides of ports (R302) -/

section

variable {s t : State} {p q port k : Nat} {f : WidePort → WidePort}

theorem portHolder_congr (same : (t.parcel p).ports = (s.parcel p).ports) (outbound : Bool) :
    t.portHolder p port outbound = s.portHolder p port outbound := by
  rw [State.portHolder, same]
  rfl

/-- An update of a parcel that keeps its ports keeps their holders. -/
theorem portHolder_onParcel {g : Parcel → Parcel} (keeps : ∀ x, (g x).ports = x.ports) (outbound : Bool) :
    (s.onParcel p g).portHolder q port outbound = s.portHolder q port outbound := by
  refine portHolder_congr ?_ outbound
  rw [parcel_onParcel]
  split
  · next same => rw [keeps, same]
  · rfl

theorem portHolder_writeReg (rd : Reg) (v : Word) (outbound : Bool) :
    (s.writeReg rd v).portHolder q port outbound = s.portHolder q port outbound := by
  unfold State.writeReg State.onCore
  exact portHolder_onParcel (fun _ => by rfl) outbound

theorem portHolder_advance (n : Nat) (outbound : Bool) :
    (s.advance n).portHolder q port outbound = s.portHolder q port outbound := by
  unfold State.advance State.onCore
  exact portHolder_onParcel (fun _ => by rfl) outbound

theorem portHolder_onScribe {g : Scribe → Scribe} (outbound : Bool) :
    (s.onScribe p g).portHolder q port outbound = s.portHolder q port outbound := by
  unfold State.onScribe
  exact portHolder_onParcel (fun _ => by rfl) outbound

/-- A port of a parcel holds its two sides. -/
theorem portHolder_eq (inside : port < 4) (outbound : Bool) : s.portHolder p port outbound =
    if outbound then (s.port p port).outHolder else (s.port p port).inHolder := by
  have there : (s.parcel p).ports.toList[port]? = some (s.parcel p).ports[port] := by simp [inside]
  rw [State.portHolder, State.port, there]
  rfl

theorem widePort_onPort (inside : port < 4) :
    (s.onPort p port f).port q k = if p = q ∧ port = k then f (s.port p port) else s.port q k := by
  have there : (s.parcel p).ports.toList[port]? = some (s.parcel p).ports[port] := by simp [inside]
  unfold State.port State.onPort
  rw [parcel_onParcel, there]
  by_cases same : p = q
  · subst same
    rw [if_pos rfl]
    dsimp only
    by_cases at_ : port = k
    · subst at_; simp [inside]
    · simp [at_]
  · rw [if_neg same, if_neg fun both => same both.1]

end

/-! ### Queries (R363, R382) -/

section

variable {s t : State} {sheet : Nat} {q : Query}

theorem query_sendArrival (p station engine slot : Nat) :
    (s.sendArrival p station engine slot).query sheet = s.query sheet := rfl

theorem query_setQuery (s : State) (sheet : Nat) (q : Option Query) : (s.setQuery sheet q).query sheet = q :=
  congrArg Compass.query (look_put_same ..)

theorem query_onPort (p port : Nat) (f : WidePort → WidePort) : (s.onPort p port f).query sheet = s.query sheet := rfl

theorem query_freeQuery (s : State) (sheet : Nat) (q : Query) : (s.freeQuery sheet q).query sheet = none := by
  simp only [State.freeQuery, query_setQuery]

theorem query_closeQuery (s : State) (sheet : Nat) (q : Query) : (s.closeQuery sheet q).query sheet = none := by
  unfold State.closeQuery
  dsimp only
  split
  · rw [query_sendArrival]
    exact query_freeQuery ..
  · exact query_freeQuery ..

theorem leaveSlot_next (s : State) (q : Query) (i : Nat) : (s.leaveSlot q i).next = s.next := by
  unfold State.leaveSlot
  split
  · split <;> rfl
  · rfl

theorem freeQuery_next (s : State) (sheet : Nat) (q : Query) : (s.freeQuery sheet q).next = s.next := by
  unfold State.freeQuery
  extract_lets s1 s2 s3 lose
  calc _ = s3.next := foldl_next (f := fun t k => lose t (4 * sheet + k)) (fun _ _ => rfl) ..
    _ = s.next := foldl_next (fun _ _ => leaveSlot_next ..) _ s

theorem here_closeQuery (s : State) (sheet : Nat) (q : Query) : (s.closeQuery sheet q).here = s.here := by
  refine here_congr (Eq.trans ?_ (freeQuery_next s sheet q))
  unfold State.closeQuery
  dsimp only
  split <;> rfl

end

/-! ### The query and its slots (R378, R379) -/

section

variable {s s1 : State} {a : Word} {o rel : Nat} {r : Region} {q : Query} {i : Nat} {x : Operator} {ra rb rd : Reg}

theorem cpQuery_ok (query : s.query (s.here / 4) = some q) : cpQuery a s = .ok q s := by
  refine (act_bind_ok (get_eq s)).trans ?_
  rw [query]
  rfl

theorem putQuery_eq (q : Option Query) (s : State) : putQuery q s = .ok () (s.setQuery (s.here / 4) q) := rfl

/-- A slot that no record is away at is defined. -/
theorem defineSlot_defines (home : (q.records.any fun x => x.away = some i) = false) :
    ∃ t, defineSlot a q i x s = .ok () t ∧ t.query (s.here / 4) = some { q with slots := q.slots.put i x } := by
  have left : (s.leaveSlot q i).here = s.here := here_congr (leaveSlot_next ..)
  unfold defineSlot
  rw [act_bind_ok (check_of (by rw [home]; rfl)), act_bind_ok (modify_eq ..), act_bind_ok (putQuery_eq ..), ← left]
  dsimp only
  split
  · exact ⟨_, rfl, query_setQuery ..⟩
  · exact ⟨_, rfl, query_setQuery ..⟩

/-! ### What the instructions make (R363, R377 to R380, R382) -/

/-- The query that an open starts. -/
abbrev startedQuery (s : State) (a : Word) (o : Nat) : Query :=
  { opener := s.here, mask0 := a.extractLsb' 32 8, mask1 := a.extractLsb' 40 8, inParcel := o + wbits a 20 12,
    inPort := wbits a 11 10, outParcel := o + wbits a 31 23, outPort := wbits a 22 21, shift := wbits a 2 0, explore := 0,
    decisions := 0, rr := 7, fixed := none, slots := [], records := [], joinQueue := [], admitted := 0, emitted := 0,
    discarded := 0, joined := 0, stray := 0, halted := false, stopped := false, poisoned := false, closing := none }

/-- A query at the issuer's sheet, with its two port sides held. -/
def withQuery (s : State) (q : Query) : State :=
  ((s.setQuery (s.here / 4) (some q)).onPort q.inParcel q.inPort fun w => { w with outHolder := .query }).onPort
    q.outParcel q.outPort fun w => { w with inHolder := .query }

theorem query_withQuery (s : State) (q : Query) : (withQuery s q).query (s.here / 4) = some q := by
  rw [withQuery, query_onPort, query_onPort, query_setQuery]

/-- The query holds the outbound side of its input port, whichever port it puts its records into. -/
theorem portHolder_withQuery (inside : q.inPort < 4) (outside : q.outPort < 4) :
    (withQuery s q).portHolder q.inParcel q.inPort true = .query := by
  rw [portHolder_eq inside, if_pos rfl, withQuery, widePort_onPort outside]
  split
  · next same =>
    obtain ⟨parcel, port⟩ := same
    rw [parcel, port, widePort_onPort inside, if_pos ⟨rfl, rfl⟩]
  · rw [widePort_onPort inside, if_pos ⟨rfl, rfl⟩]

/-- The operator that a slot gets. -/
abbrev operatorOf (a b : Word) (o : Nat) : Operator :=
  { slotCommon a (wbits b 15 0) with
    parcel := o + wbits a 26 18, cell := wbits a 30 27, queue := wbits a 32 31, ctx := a.extractLsb' 33 3 }

/-- The fields of a join's descriptor are allowed: the key inside the payload, and tables of whole entries (R379). -/
structure JoinFields (d : List Byte) : Prop where
  key : 8 ≤ field d 0 1
  some_ : 1 ≤ field d 1 1
  short : field d 1 1 ≤ 8
  inside : field d 0 1 + field d 1 1 ≤ 64
  place : field d 4 4 % 128 = 0
  whole : field d 8 4 % 256 = 0
  room : 256 ≤ field d 8 4
  clear : field d 3 1 < 8
  tail : field d 14 18 = 0

theorem JoinFields.fits {d : List Byte} (h : JoinFields d) :
    (8 ≤ field d 0 1 && 1 ≤ field d 1 1 && field d 1 1 ≤ 8 && field d 0 1 + field d 1 1 ≤ 64 && field d 4 4 % 128 = 0 &&
      field d 8 4 % 256 = 0 && 256 ≤ field d 8 4 && field d 3 1 < 8 && field d 14 18 = 0) = true := by
  obtain ⟨key, some_, short, inside, place, whole, room, clear, tail⟩ := h
  simp only [key, some_, short, inside, place, whole, room, clear, tail, decide_true, Bool.and_self]

/-- The join that a slot gets: both tables empty, and the next stamp 1. -/
abbrev joinOf (s : State) (a : Word) (d : List Byte) (o : Nat) : Operator :=
  { slotCommon a (field d 12 2) with
    join := true, keyOff := field d 0 1, keyLen := field d 1 1, matchParcel := o + field d 2 2 % 512,
    matchPort := field d 2 2 / 512 % 4, area := sheetAddress s.here (field d 4 4), size := field d 8 4 }

/-- The slot has a join already that puts its matches there. -/
def matchesHere (q : Query) (i m port : Nat) : Bool :=
  match q.slots.find i with
  | some x => x.join && x.matchParcel = m && x.matchPort = port
  | none => false

theorem matchesHere_of {m port : Nat} (slot : q.slots.find i = some x) (join : x.join = true) (parcel : x.matchParcel = m)
    (at_ : x.matchPort = port) : matchesHere q i m port = true := by
  rw [matchesHere, slot]
  dsimp only
  rw [join, decide_eq_true parcel, decide_eq_true at_]
  rfl

/-- The bits of a word from bit 0 on are its remainder. -/
theorem wbits_from_zero (w : Word) (hi : Nat) : wbits w hi 0 = w.toNat % 2 ^ (hi + 1) :=
  congrArg (· % 2 ^ (hi + 1)) (Nat.div_one w.toNat)

/-- The order of slots that a word fixes (R380). -/
abbrev fixedOrder (a : Word) : List Nat := (List.range (wbits a 27 24)).map fun k => wbits a (3 * k + 2) (3 * k)

/-- A list without repetitions has no repetitions to be erased. -/
theorem eraseDups_of_nodup {l : List Nat} (distinct : l.Nodup) : l.eraseDups = l := by
  induction l with
  | nil => exact List.eraseDups_nil
  | cons x l ih =>
    obtain ⟨fresh, rest⟩ := List.nodup_cons.1 distinct
    have others : l.filter (fun y => !y == x) = l :=
      List.filter_eq_self.2 fun y mem => by simpa using fun same : y = x => fresh (same ▸ mem)
    rw [List.eraseDups_cons, others, ih rest]

/-- The query that is asked to close, by the parcel that issued it (log 44). -/
abbrev asksToClose (s : State) (a : Word) (q : Query) : Query := { q with closing := some (s.here, wbits a 5 0, wbit a 6) }

/-! ### The checks of an instruction (R376) -/

variable (region : s.regionOf s.here = some (o, r)) (wide : 2 ≤ r.shape)

include region wide

theorem cpRegion_ok : cpRegion a s = .ok (o, r) s := by
  refine (act_bind_ok (get_eq s)).trans ?_
  rw [region]
  exact act_bind_ok (check_of (decide_eq_true wide))

/-- A parcel of the issuer's region and sheet may be named. -/
theorem cpParcel_ok (mine : rel < 2 ^ r.shape ∧ (o + rel) / 4 = s.here / 4) : cpParcel a rel s = .ok (o + rel) s := by
  obtain ⟨inside, near⟩ := mine
  refine (act_bind_ok (get_eq s)).trans ?_
  refine (act_bind_ok (cpRegion_ok region wide)).trans ?_
  exact act_bind_ok (check_of (by rw [decide_eq_true inside, decide_eq_true near]; rfl))

/-- An instruction on an open query begins alike: its word passes, and the query is found. -/
theorem cpQuery_begins {α : Type} {rest : Query → Act α} {c : Bool} (word : c = true)
    (query : s.query (s.here / 4) = some q) :
    (do let _ ← cpRegion a
        check c codeIllegal 0
        let y ← cpQuery a
        rest y) s = rest q s := by
  refine (act_bind_ok (cpRegion_ok region wide)).trans ?_
  refine (act_bind_ok (check_of word)).trans ?_
  exact act_bind_ok (cpQuery_ok query)

/-! ### `CP.OPEN` (R363, R377) -/

theorem execCpOpen_opens (high : wbits (s.reg ra) 63 48 = 0) (low : wbits (s.reg ra) 9 3 = 0)
    (outMine : wbits (s.reg ra) 31 23 < 2 ^ r.shape ∧ (o + wbits (s.reg ra) 31 23) / 4 = s.here / 4)
    (inMine : wbits (s.reg ra) 20 12 < 2 ^ r.shape ∧ (o + wbits (s.reg ra) 20 12) / 4 = s.here / 4)
    (closed : s.query (s.here / 4) = none)
    (inFree : s.sideFree (o + wbits (s.reg ra) 20 12) (wbits (s.reg ra) 11 10) false = true)
    (outFree : s.sideFree (o + wbits (s.reg ra) 31 23) (wbits (s.reg ra) 22 21) true = true) :
    exec (.cpOpen ra) s = .next ((withQuery s (startedQuery s (s.reg ra) o)).advance s.here) := by
  refine attempt_ok ?_
  refine (act_bind_ok (cpRegion_ok region wide)).trans ?_
  refine (act_bind_ok (check_of (by rw [high, low]; rfl))).trans ?_
  refine (act_bind_ok (cpParcel_ok region wide outMine)).trans ?_
  refine (act_bind_ok (cpParcel_ok region wide inMine)).trans ?_
  refine (act_bind_ok (check_of (by rw [closed, inFree, outFree]; rfl))).trans ?_
  refine (act_bind_ok (putQuery_eq ..)).trans ?_
  exact (act_bind_ok (modify_eq ..)).trans rfl

/-! ### `CP.OPER` (R378) -/

theorem execCpOper_defines (query : s.query (s.here / 4) = some q) (high : wbits (s.reg ra) 63 36 = 0)
    (low : wbits (s.reg ra) 7 3 = 0) (hint : wbits (s.reg rb) 63 16 = 0)
    (other : wbit (s.reg ra) (8 + wbits (s.reg ra) 2 0) = false) (sides : wbits (s.reg ra) 17 16 ≠ 0)
    (mine : wbits (s.reg ra) 26 18 < 2 ^ r.shape ∧ (o + wbits (s.reg ra) 26 18) / 4 = s.here / 4)
    (unowned : s.queueOwned (o + wbits (s.reg ra) 26 18) (wbits (s.reg ra) 30 27) (wbits (s.reg ra) 32 31) = false)
    (home : (q.records.any fun x => x.away = some (wbits (s.reg ra) 2 0)) = false) :
    ∃ t, exec (.cpOper ra rb) s = .next t ∧ t.query (s.here / 4) =
      some { q with slots := q.slots.put (wbits (s.reg ra) 2 0) (operatorOf (s.reg ra) (s.reg rb) o) } := by
  obtain ⟨t, defines, found⟩ :=
    defineSlot_defines (s := s) (a := s.reg ra) (x := operatorOf (s.reg ra) (s.reg rb) o) home
  refine ⟨t, attempt_ok ?_, found⟩
  refine (act_bind_ok (cpRegion_ok region wide)).trans ?_
  refine (act_bind_ok (check_of (by rw [high, low, hint]; rfl))).trans ?_
  refine (act_bind_ok (check_of (by rw [other, decide_eq_true sides]; rfl))).trans ?_
  refine (act_bind_ok (cpParcel_ok region wide mine)).trans ?_
  refine (act_bind_ok (cpQuery_ok query)).trans ?_
  exact (act_bind_ok (check_of (by rw [unowned]; rfl))).trans defines

/-! ### `CP.JOIN` (R379) -/

theorem execCpJoin_defines {d : List Byte} (query : s.query (s.here / 4) = some q) (high : wbits (s.reg ra) 63 18 = 0)
    (low : wbits (s.reg ra) 7 3 = 0) (other : wbit (s.reg ra) (8 + wbits (s.reg ra) 2 0) = false)
    (sides : wbits (s.reg ra) 17 16 ≠ 0) (fits : (s.reg rb).toNat % 32 = 0)
    (reads : readVa (.core s.here) .s (s.reg rb) 32 (s.release (.core s.here) .s) = .ok d s1)
    (kept : s1.regionOf s1.here = some (o, r)) (fields : JoinFields d)
    (first : heldWay o r 2 (s.here / 4) (field d 4 4) = true)
    (last : heldWay o r 2 (s.here / 4) (field d 4 4 + field d 8 4 - 1) = true)
    (mine : field d 2 2 % 512 < 2 ^ r.shape ∧ (o + field d 2 2 % 512) / 4 = s.here / 4)
    (free : (matchesHere q (wbits (s.reg ra) 2 0) (o + field d 2 2 % 512) (field d 2 2 / 512 % 4) ||
      s.sideFree (o + field d 2 2 % 512) (field d 2 2 / 512 % 4) true) = true)
    (home : (q.records.any fun x => x.away = some (wbits (s.reg ra) 2 0)) = false) :
    ∃ t, exec (.cpJoin ra rb) s = .next t ∧ t.query (s.here / 4) =
      some { q with slots := q.slots.put (wbits (s.reg ra) 2 0) (joinOf s (s.reg ra) d o) } := by
  have here : s1.here = s.here := (here_readVa reads).trans (here_release ..)
  obtain ⟨t, defines, found⟩ := defineSlot_defines (s := s1) (a := s.reg ra) (x := joinOf s (s.reg ra) d o) home
  rw [here] at found
  refine ⟨t, attempt_ok ?_, found⟩
  refine (act_bind_ok (cpRegion_ok region wide)).trans ?_
  refine (act_bind_ok (check_of (by rw [high, low]; rfl))).trans ?_
  refine (act_bind_ok (check_of (by rw [other, decide_eq_true sides]; rfl))).trans ?_
  refine (act_bind_ok (cpQuery_ok query)).trans ?_
  refine (act_bind_ok (check_of (decide_eq_true fits))).trans ?_
  refine (act_bind_ok (issueRelease_eq ..)).trans ?_
  refine (act_bind_ok (withXa_ok _ reads)).trans ?_
  refine (act_bind_ok (check_of fields.fits)).trans ?_
  refine (act_bind_ok (check_of (by rw [first, last]; rfl))).trans ?_
  refine (act_bind_ok (cpParcel_ok kept wide (by rw [here]; exact mine))).trans ?_
  exact (act_bind_ok (check_of free)).trans defines

/-! ### `CP.EXPL`, `CP.FIX`, `CP.OBS` and `CP.CLOSE` (R380 to R382) -/

theorem execCpExpl_sets (query : s.query (s.here / 4) = some q) (small : (s.reg ra).toNat < 16) :
    exec (.cpExpl ra) s = .next ((s.setQuery (s.here / 4)
      (some { q with explore := (s.reg ra).toNat % 16, decisions := 0 })).advance s.here) := by
  have rate : wbits (s.reg ra) 3 0 = (s.reg ra).toNat % 16 := wbits_from_zero ..
  refine attempt_ok ((cpQuery_begins region wide (decide_eq_true (wbits_high (lo := 4) small)) query).trans ?_)
  rw [rate]
  exact (act_bind_ok (putQuery_eq ..)).trans rfl

theorem execCpFix_sets (query : s.query (s.here / 4) = some q) (high : wbits (s.reg ra) 63 28 = 0)
    (few : wbits (s.reg ra) 27 24 ≤ 8) (distinct : (fixedOrder (s.reg ra)).Nodup) :
    exec (.cpFix ra) s = .next ((s.setQuery (s.here / 4) (some { q with
      fixed := if wbits (s.reg ra) 27 24 = 0 then none else some (fixedOrder (s.reg ra)) })).advance s.here) := by
  have whole : (fixedOrder (s.reg ra)).eraseDups.length = wbits (s.reg ra) 27 24 := by
    rw [eraseDups_of_nodup distinct, List.length_map, List.length_range]
  refine attempt_ok ((cpQuery_begins region wide ?_ query).trans ?_)
  · rw [high, decide_eq_true few, decide_eq_true whole]
    rfl
  · exact (act_bind_ok (putQuery_eq ..)).trans rfl

theorem execCpObs_reads (query : s.query (s.here / 4) = some q) (known : (s.reg ra).toNat < 14) :
    exec (.cpObs rd ra) s = .next (s.writeReg rd (q.observation (s.reg ra).toNat)) :=
  attempt_ok ((cpQuery_begins region wide (decide_eq_true known) query).trans rfl)

theorem execCpClose_asks (query : s.query (s.here / 4) = some q) (small : (s.reg ra).toNat < 128)
    (runs : q.halted = false) :
    exec (.cpClose ra) s = .next ((s.setQuery (s.here / 4) (some (asksToClose s (s.reg ra) q))).advance s.here) := by
  refine attempt_ok ((cpQuery_begins region wide (decide_eq_true (wbits_high (lo := 7) small)) query).trans ?_)
  rw [if_neg (by rw [runs]; exact Bool.false_ne_true)]
  rfl

theorem execCpClose_frees (query : s.query (s.here / 4) = some q) (small : (s.reg ra).toNat < 128)
    (halted : q.halted = true) :
    exec (.cpClose ra) s = .next ((s.closeQuery (s.here / 4) (asksToClose s (s.reg ra) q)).advance s.here) := by
  refine attempt_ok ((cpQuery_begins region wide (decide_eq_true (wbits_high (lo := 7) small)) query).trans ?_)
  rw [if_pos halted]
  exact (act_bind_ok (modify_eq ..)).trans (proceed_eq (here_closeQuery ..))

end

/-- Settles O34: each instruction passes its checks, and what it does to the query follows from its words. -/
theorem compassInstructions : Obligations.CompassInstructions := by
  intro s rd ra rb o r region wide p a b sheet mine
  refine ⟨?opens, ?operator, ?join, fun q => execCpExpl_sets region wide, ?frees, ?fixes,
    fun q => execCpObs_reads region wide, fun q => execCpClose_asks region wide, ?closes⟩
  case opens =>
    intro high low outMine inMine closed inFree outFree
    refine ⟨_, _, execCpOpen_opens region wide high low outMine inMine closed inFree outFree,
      query_withQuery s (startedQuery s a o), rfl, rfl, rfl, rfl, rfl, rfl, rfl, rfl, rfl, rfl, ?_⟩
    exact (portHolder_advance ..).trans (portHolder_withQuery (Nat.mod_lt _ (by decide)) (Nat.mod_lt _ (by decide)))
  case operator =>
    intro q query high low hint other sides named unowned home
    obtain ⟨t, done, found⟩ := execCpOper_defines region wide query high low hint other sides named unowned home
    exact ⟨t, _, _, done, found, (find_put ..).trans (if_pos rfl), rfl, rfl, rfl, rfl, rfl, rfl⟩
  case join =>
    intro q d s1 query high low other sides fits reads kept key some_ short inside place whole room clear tail first last
      named free home
    have available : (matchesHere q (wbits a 2 0) (o + field d 2 2 % 512) (field d 2 2 / 512 % 4) ||
        s.sideFree (o + field d 2 2 % 512) (field d 2 2 / 512 % 4) true) = true := by
      rcases free with side | ⟨x, slot, join, parcel, at_⟩
      · rw [side, Bool.or_true]
      · rw [matchesHere_of slot join parcel at_, Bool.true_or]
    obtain ⟨t, done, found⟩ := execCpJoin_defines region wide query high low other sides fits reads kept
      ⟨key, some_, short, inside, place, whole, room, clear, tail⟩ first last named available home
    exact ⟨t, _, _, done, found, (find_put ..).trans (if_pos rfl), rfl, rfl, rfl, rfl, rfl⟩
  case frees =>
    intro q query zero
    have empty : wbits (s.reg ra) 27 24 = 0 := by rw [show s.reg ra = 0 from zero]; rfl
    have high : wbits (s.reg ra) 63 28 = 0 := by rw [show s.reg ra = 0 from zero]; rfl
    refine (execCpFix_sets region wide query high (by omega) (by rw [fixedOrder, empty]; exact List.nodup_nil)).trans ?_
    rw [if_pos empty]
  case fixes =>
    rintro q order query high some_ few rfl distinct
    exact (execCpFix_sets region wide query high few distinct).trans (by rw [if_neg (Nat.one_le_iff_ne_zero.1 some_)])
  case closes =>
    intro q query small halted
    exact ⟨_, execCpClose_frees region wide query small halted, rfl, query_closeQuery ..⟩

end Sys2Proof.Proofs

/-! The proof of the obligation about Scribe instructions. -/

namespace Sys2Proof.Proofs

open Sys2Proof Sys2Proof.Machine Sys2Proof.Laws

section

variable {s s1 s2 s3 t : State} {rd ra rb : Reg} {o sel : Nat} {r : Region} {a b : Word} {d head entries : List Byte}

/-! ### `SCR.OPEN` (R372, R383) -/

/-- The source that an open starts: at its first item, with the counts kept. -/
abbrev openedSource (s : State) (a : Word) (d schema : List Byte) : Scribe :=
  { Scribe.reset with state := 1, control := a, desc := d, schema := schema, counts := (s.scribe s.here).counts }

/-- The words of an open are allowed, its descriptor and schema read and are allowed, and the parcel has no source. -/
structure SourceAllowed (s : State) (a b : Word) (d : List Byte) (s1 : State) (head : List Byte) (s2 : State)
    (entries : List Byte) (s3 : State) : Prop where
  high : wbits a 63 25 = 0
  clear : wbit a 7 = false
  scope : wbits a 11 8 ≤ 6
  fits : b.toNat % 32 = 0
  described : readVa (.core s.here) (scopeOfCode (wbits a 11 8)) b 32
    (s.release (.core s.here) (scopeOfCode (wbits a 11 8))) = .ok d s1
  length : field d 8 8 < 2 ^ 40
  tail : field d 28 4 = 0
  place : (wordOf (slice d 16 8)).toNat % 64 = 0
  headed : readSpan (.core s.here) (scopeOfCode (wbits a 11 8)) 2 (wordOf (slice d 16 8)) 16 s1 = .ok head s2
  some_ : 1 ≤ field head 0 1
  few : field head 0 1 ≤ 15
  listed : readSpan (.core s.here) (scopeOfCode (wbits a 11 8)) 2 (wordOf (slice d 16 8) + 16) (16 * field head 0 1) s2 =
    .ok entries s3
  good : schemaBad (head ++ entries) = none
  idle : (s.scribe s.here).state ≠ 1

/-- A source takes its target, its sheet's open query or a free side of a port of the region, and goes on. -/
def takeTarget (s : State) (a : Word) (x : Scribe) (rest : Act Unit) : Act Unit :=
  if x.toQuery then do
    check (s.query (s.here / 4)).isSome codeBufferState a
    rest
  else do
    let (o, r) ← myRegion
    check (x.targetRel < 2 ^ r.shape) codeScope a
    check (s.portHolder (o + x.targetRel) x.targetPort false = .free) codeBufferState a
    modify fun t => t.onPort (o + x.targetRel) x.targetPort fun w => { w with inHolder := .source }
    rest

/-- The source stands at its parcel, and the promise is written. -/
def startSource (s : State) (rd : Reg) (x : Scribe) : Act Unit := do
  modify fun t => t.onScribe s.here fun _ => x
  finish rd s.newPromise

theorem execScrOpen_begins (allowed : SourceAllowed s (s.reg ra) (s.reg rb) d s1 head s2 entries s3)
    (opens : takeTarget s (s.reg ra) (openedSource s (s.reg ra) d (head ++ entries))
      (startSource s rd (openedSource s (s.reg ra) d (head ++ entries))) s3 = .ok () t) :
    exec (.scrOpen rd ra rb) s = .next t := by
  obtain ⟨high, clear, scope, fits, described, length, tail, place, headed, some_, few, listed, good, idle⟩ := allowed
  refine attempt_ok ?_
  refine (act_bind_ok (check_of (by rw [high, clear]; rfl))).trans ?_
  refine (act_bind_ok (scopeField_ok scope)).trans ?_
  refine (act_bind_ok (check_of (decide_eq_true fits))).trans ?_
  refine (act_bind_ok (issueRelease_eq ..)).trans ?_
  refine (act_bind_ok (withXa_ok _ described)).trans ?_
  refine (act_bind_ok (check_of (by rw [decide_eq_true length, decide_eq_true tail]; rfl))).trans ?_
  refine (act_bind_ok (check_of (decide_eq_true place))).trans ?_
  refine (act_bind_ok (withXa_ok _ headed)).trans ?_
  dsimp only
  rw [if_pos few, if_neg (by omega)]
  refine (act_bind_ok (withXa_ok _ listed)).trans ?_
  rw [good]
  exact (act_bind_ok (check_of (decide_eq_true idle))).trans opens

theorem takeTarget_query {x : Scribe} {rest : Act Unit} (toQuery : x.toQuery = true)
    (query : (s.query (s.here / 4)).isSome = true) : takeTarget s a x rest s1 = rest s1 := by
  rw [takeTarget, if_pos toQuery]
  exact act_bind_ok (check_of query)

theorem takeTarget_port {x : Scribe} {rest : Act Unit} (toPort : x.toQuery = false)
    (region : s1.regionOf s1.here = some (o, r)) (inside : x.targetRel < 2 ^ r.shape)
    (free : s.portHolder (o + x.targetRel) x.targetPort false = .free) :
    takeTarget s a x rest s1 =
      rest (s1.onPort (o + x.targetRel) x.targetPort fun w => { w with inHolder := .source }) := by
  rw [takeTarget, if_neg (by rw [toPort]; exact Bool.false_ne_true)]
  refine (act_bind_ok (myRegion_ok region)).trans ?_
  refine (act_bind_ok (check_of (decide_eq_true inside))).trans ?_
  refine (act_bind_ok (check_of (decide_eq_true free))).trans ?_
  exact act_bind_ok (modify_eq ..)

theorem targetPort_lt (x : Scribe) : x.targetPort < 4 := Nat.mod_lt _ (by decide)

/-- The inbound side of a port that a source takes. -/
theorem portHolder_source {p port : Nat} (inside : port < 4) :
    (s.onPort p port fun w => { w with inHolder := .source }).portHolder p port false = .source := by
  rw [portHolder_eq inside, if_neg Bool.false_ne_true, widePort_onPort inside, if_pos ⟨rfl, rfl⟩]

theorem scribe_onScribe {p : Nat} {f : Scribe → Scribe} : (s.onScribe p f).scribe p = f (s.scribe p) := by
  rw [State.scribe, State.onScribe, parcel_onParcel, if_pos rfl]
  rfl

theorem scribe_writeReg {p : Nat} {v : Word} : (s.writeReg rd v).scribe p = s.scribe p := by
  rw [State.scribe, State.writeReg, State.onCore, parcel_onParcel]
  split
  · next here => rw [here]; rfl
  · rfl

/-- What is left when the source stands: the source, the promise, and the ports as they were. -/
theorem startSource_starts (x : Scribe) : ∃ t, startSource s rd x s1 = .ok () t ∧ t.scribe s.here = x ∧
    (∀ p port outbound, t.portHolder p port outbound = s1.portHolder p port outbound) ∧
    t.reg rd = (if rd = 0 then 0 else s.newPromise) := by
  refine ⟨_, rfl, scribe_writeReg.trans scribe_onScribe, fun p port outbound => ?_, by rw [reg_writeReg, if_pos rfl]⟩
  exact (portHolder_writeReg ..).trans (portHolder_onScribe ..)

/-! ### `SCR.CNT` (R384) -/

/-- The fields of a selector: its number, and bit 3 to clear (R384). -/
theorem selector_fields (small : a.toNat < 16) :
    wbits a 63 4 = 0 ∧ wbits a 2 0 = a.toNat % 8 ∧ wbit a 3 = decide (8 ≤ a.toNat) := by
  refine ⟨wbits_high (lo := 4) small, wbits_from_zero .., ?_⟩
  rw [wbit, BitVec.getLsbD]
  generalize a.toNat = k at small
  interval_cases k <;> rfl

/-- Without bit 3 the instruction reads only. -/
theorem execScrCnt_reads (known : (s.reg ra).toNat < 7) :
    exec (.scrCnt rd ra) s = .next (s.writeReg rd (if (s.reg ra).toNat = 6 then
      BitVec.ofNat 64 ((s.scribe s.here).seq % 2 ^ 32 * 2 ^ 32 + (s.scribe s.here).state.toNat)
      else BitVec.ofNat 64 ((s.scribe s.here).counts.toList.getD (s.reg ra).toNat 0))) := by
  obtain ⟨reserved, number, clears⟩ := selector_fields (a := s.reg ra) (by omega)
  rw [Nat.mod_eq_of_lt (by omega)] at number
  rw [decide_eq_false (by omega)] at clears
  refine attempt_ok ((act_bind_ok (check_of ?_)).trans ?_)
  · rw [reserved, number, clears, decide_eq_true (Nat.ne_of_lt known)]
    rfl
  · rw [number, clears]
    rfl

/-- With bit 3 it clears the count that it reads. -/
theorem execScrCnt_clears (low : 8 ≤ (s.reg ra).toNat) (known : (s.reg ra).toNat < 14) :
    exec (.scrCnt rd ra) s = .next ((s.onScribe s.here fun y =>
      { y with counts := y.counts.setIfInBounds ((s.reg ra).toNat - 8) 0 }).writeReg rd
        (BitVec.ofNat 64 ((s.scribe s.here).counts.toList.getD ((s.reg ra).toNat - 8) 0))) := by
  obtain ⟨reserved, number, clears⟩ := selector_fields (a := s.reg ra) (by omega)
  rw [show (s.reg ra).toNat % 8 = (s.reg ra).toNat - 8 by omega] at number
  rw [decide_eq_true low] at clears
  have count : (s.reg ra).toNat - 8 < 6 := by omega
  refine attempt_ok ((act_bind_ok (check_of ?_)).trans ?_)
  · rw [reserved, number, clears, decide_eq_true (by omega : (s.reg ra).toNat - 8 ≠ 7),
      decide_eq_false (by omega : ¬(s.reg ra).toNat - 8 = 6)]
    rfl
  · rw [number, clears, if_neg (Nat.ne_of_lt count)]
    rfl

end

/-- Settles O35: an open passes its checks and takes its target, and a selector's bits choose what a count reads. -/
theorem scribeInstructions : Obligations.ScribeInstructions := by
  intro s rd ra rb p a b sc
  refine ⟨?port, ?query, fun low high => ?_, fun low => ?_, fun six => ?_⟩
  case port =>
    intro d s1 head s2 entries s3 o r high clear scope fits described length tail place headed some_ few listed good idle x
      toPort region inside free
    have allowed : SourceAllowed s a b d s1 head s2 entries s3 :=
      ⟨high, clear, scope, fits, described, length, tail, place, headed, some_, few, listed, good, idle⟩
    obtain ⟨t, starts, source, ports, promise⟩ := startSource_starts (s := s) (rd := rd)
      (s1 := s3.onPort (o + x.targetRel) x.targetPort fun w => { w with inHolder := .source }) x
    refine ⟨t, execScrOpen_begins allowed ((takeTarget_port toPort region inside free).trans starts), source, ?_, promise⟩
    exact (ports ..).trans (portHolder_source (targetPort_lt x))
  case query =>
    intro d s1 head s2 entries s3 high clear scope fits described length tail place headed some_ few listed good idle
      toQuery query
    have allowed : SourceAllowed s a b d s1 head s2 entries s3 :=
      ⟨high, clear, scope, fits, described, length, tail, place, headed, some_, few, listed, good, idle⟩
    have named : (openedSource s a d (head ++ entries)).toQuery = true := toQuery
    obtain ⟨t, starts, source, -⟩ := startSource_starts (s := s) (rd := rd) (s1 := s3)
      (openedSource s a d (head ++ entries))
    exact ⟨t, execScrOpen_begins allowed ((takeTarget_query named query).trans starts), source⟩
  · exact execScrCnt_clears low high
  · exact (execScrCnt_reads (Nat.lt_succ_of_lt low)).trans (by rw [if_neg (Nat.ne_of_lt low)])
  · have number : (s.reg ra).toNat = 6 := congrArg BitVec.toNat six
    exact (execScrCnt_reads (by omega)).trans (by rw [if_pos number])

end Sys2Proof.Proofs

/-! The proof of the obligation about segment instructions. -/

namespace Sys2Proof.Proofs

open Sys2Proof Sys2Proof.Machine Sys2Proof.Laws

section

variable {s s1 : State} {rd ra rb : Reg} {o d k : Nat} {r : Region} {g : Segment} {a : Word} {bs : List Byte}

/-! ### Named segments (R389, R402) -/

/-- An attach or an evict that the running core asks for. -/
abbrev askedBy (s : State) (o : Nat) (b : Word) (evict : Bool) : PendingAttach :=
  ⟨o, s.here, wbits b 5 0, wbit b 6, evict⟩

/-- Attaches that wait for a segment. -/
abbrev waitingAttaches (g : Segment) : Nat := (g.waiting.filter fun x => !x.evict).length

/-- The running core's region has a segment of the name in `ra`. -/
structure Names (s : State) (ra : Reg) (o : Nat) (r : Region) (d : Nat) (g : Segment) : Prop where
  region : s.regionOf s.here = some (o, r)
  name : s.reg ra ≠ 0
  segment : s.segmentNamed r.asid (s.reg ra) = some (d, g)

theorem Names.found (h : Names s ra o r d g) : namedSegment (s.reg ra) s = .ok (d, g) s := by
  refine (act_bind_ok (get_eq s)).trans ?_
  refine (act_bind_ok (myRegion_ok h.region)).trans ?_
  dsimp only
  rw [h.segment]
  rfl

/-- The name and the other words of an instruction pass its first check. -/
theorem Names.words (h : Names s ra o r d g) {c : Bool} (words : c = true) : (s.reg ra ≠ 0 && c) = true := by
  rw [decide_eq_true h.name, words]
  rfl

/-- Every instruction on a named segment begins alike: its words pass, and the segment is found. -/
theorem Names.begins {α : Type} {rest : Nat × Region → Nat × Segment → Act α} {c : Bool} (h : Names s ra o r d g)
    (words : c = true) :
    (do check c codeIllegal 0
        let x ← myRegion
        let y ← namedSegment (s.reg ra)
        rest x y) s = rest (o, r) (d, g) s := by
  refine (act_bind_ok (check_of words)).trans ?_
  refine (act_bind_ok (myRegion_ok h.region)).trans ?_
  exact act_bind_ok h.found

/-! ### `SEG.NAME` (R390, R391, R403) -/

/-- The place that a descriptor gives a segment (R390). -/
abbrev describedPlace (bs : List Byte) : SegmentPlace :=
  ⟨field bs 8 2 % 2 = 1, bits (field bs 8 2) 2 1, bits (field bs 8 2) 6 3, bits (field bs 8 2) 15 7, field bs 12 4,
    field bs 16 4⟩

/-- The segment that a name makes: attached once, by the region of the issuer. -/
abbrev describedSegment (s : State) (a : Word) (o : Nat) (r : Region) (bs : List Byte) : Segment :=
  { asid := r.asid, name := a, place := describedPlace bs, backing := wordOf (slice bs 0 8), state := .attached, count := 1,
    version := 0, stamp := s.meridian, pinned := false, torn := false, tornClear := false, origin := o, holder := some o,
    target := none, waiting := [], asked := false, needers := [], failed := [] }

/-- The fields of a segment's descriptor are allowed (R390). -/
structure PlaceAllowed (g : Segment) (bs : List Byte) : Prop where
  backing : wbits g.backing 63 57 = 0
  clear : field bs 10 2 = 0
  tail : field bs 20 12 = 0
  parcels : g.place.j ≤ 9
  kind : g.place.slice = false ∧ g.place.level = 0 ∧ g.place.off + g.place.size ≤ 0x60000 ∨
    g.place.slice = true ∧ g.place.level ≠ 0 ∧ g.place.j = 0
  first : g.place.r0 % segUnits g = 0
  offset : g.place.off % 4096 = 0
  size : g.place.size % 4096 = 0
  pages : wbits g.backing 11 0 = 0
  some_ : g.place.size ≠ 0

theorem PlaceAllowed.fits (h : PlaceAllowed g bs) :
    (wbits g.backing 63 57 = 0 && field bs 10 2 = 0 && field bs 20 12 = 0 && g.place.j ≤ 9 &&
      (if g.place.slice then g.place.level ≠ 0 && g.place.j = 0 else g.place.level = 0) &&
      g.place.r0 % segUnits g = 0 && g.place.off % 4096 = 0 && g.place.size % 4096 = 0 && wbits g.backing 11 0 = 0 &&
      g.place.size ≠ 0 && (g.place.slice || g.place.off + g.place.size ≤ 0x60000)) = true := by
  obtain ⟨backing, clear, tail, parcels, kind, first, offset, size, pages, some_⟩ := h
  rcases kind with ⟨bank, level, inside⟩ | ⟨slice, level, parcel⟩
  · simp [backing, clear, tail, parcels, bank, level, inside, first, offset, size, pages, some_]
  · simp [backing, clear, tail, slice, level, parcel, first, offset, size, pages, some_]

theorem execSegName_names (region : s.regionOf s.here = some (o, r)) (name : s.reg ra ≠ 0)
    (fits : (s.reg rb).toNat % 32 = 0)
    (reads : readVa (.core s.here) .d (s.reg rb) 32 (s.release (.core s.here) .d) = .ok bs s1)
    (allowed : PlaceAllowed (describedSegment s (s.reg ra) o r bs) bs)
    (place : (describedSegment s (s.reg ra) o r bs).fits r = true)
    (free : (s.inTheWay 65536 (describedSegment s (s.reg ra) o r bs) o).isEmpty = true) (room : s.segments.length < 65536)
    (unnamed : s.segmentNamed r.asid (s.reg ra) = none)
    (first : (List.range (s.segments.length + 1)).find? (fun k => (s.segment k).isNone) = some k) :
    exec (.segName rd ra rb) s =
      .next ((s1.setSegment k (describedSegment s (s.reg ra) o r bs)).writeReg rd (viewAddress k)) := by
  refine attempt_ok ?_
  refine (act_bind_ok (check_of (decide_eq_true name))).trans ?_
  refine (act_bind_ok (aligned_ok fits)).trans ?_
  refine (act_bind_ok (myRegion_ok region)).trans ?_
  refine (act_bind_ok (issueRelease_eq ..)).trans ?_
  refine (act_bind_ok (withXa_ok _ reads)).trans ?_
  refine (act_bind_ok (check_of allowed.fits)).trans ?_
  refine (act_bind_ok (check_of (by rw [place, free, decide_eq_true room]; rfl))).trans ?_
  refine (act_bind_ok (check_of (by rw [unnamed]; rfl))).trans ?_
  rw [first]
  rfl

/-! ### `SEG.ATT` and `SEG.DET` (R392 to R394, R397 to R399) -/

theorem execSegAtt_attaches (names : Names s ra o r d g) (words : wbits (s.reg rb) 63 8 = 0)
    (few : g.count + waitingAttaches g < 1023)
    (inPlace : (g.state = .attached ∧ g.holder = some o) ∨ (g.state = .resident ∧ g.inside o r = true)) :
    exec (.segAtt rd ra rb) s =
      .next ((s.attach d g o [askedBy s o (s.reg rb) false]).writeReg rd (viewAddress d)) := by
  refine attempt_ok ((names.begins (names.words (decide_eq_true words))).trans ?_)
  refine (act_bind_ok (check_of ?_)).trans ?_
  · rcases inPlace with ⟨state, holder⟩ | ⟨state, inside⟩
    · rw [state, holder]; simp
    · rw [state, inside]; simp
  refine (act_bind_ok (check_of (decide_eq_true few))).trans ?_
  rw [if_pos (by rcases inPlace with ⟨state, holder⟩ | ⟨state, inside⟩ <;> simp [*])]
  rfl

/-- The place of a spilled segment is free for its reload: what stands in the way can be spilled (R394). -/
theorem execSegAtt_reloads (names : Names s ra o r d g) (words : wbits (s.reg rb) 63 8 = 0)
    (few : g.count + waitingAttaches g < 1023) (state : g.state = .spilled) (holder : g.holder = none)
    (target : g.target = none) (may : wbit (s.reg rb) 7 = false) (fits : g.fits r = true)
    (free : ∀ e ∈ s.inTheWay d g o, e.2.state ≠ .attached ∧ ¬(e.2.state = .resident ∧ e.2.pinned = true)) :
    exec (.segAtt rd ra rb) s = .next ((s.setSegment d
      { g with state := .reloading, target := some o, holder := some o,
               waiting := g.waiting ++ [askedBy s o (s.reg rb) false] }).writeReg rd (viewAddress d)) := by
  have asked : (g.asked || decide (g.state = .resident)) = g.asked := by rw [state]; exact Bool.or_false _
  have unblocked : ((s.inTheWay d g o).any fun e =>
      e.2.state = .attached || (e.2.state = .resident && e.2.pinned)) = false := by
    simpa using free
  refine attempt_ok ((names.begins (names.words (decide_eq_true words))).trans ?_)
  refine (act_bind_ok (check_of (by rw [state]; rfl))).trans ?_
  refine (act_bind_ok (check_of (decide_eq_true few))).trans ?_
  rw [if_neg (by simp [state]), if_neg (by simp [state])]
  refine (act_bind_ok (check_of (by rw [may]; rfl))).trans ?_
  refine (act_bind_ok (check_of (by rw [fits, unblocked]; rfl))).trans ?_
  rw [asked, state, holder, target]
  rfl

/-- With the cells' earlier writes performed, a detach releases for the region and ends one attachment. -/
theorem execSegDet_detaches (names : Names s ra o r d g) (state : g.state = .attached) (holder : g.holder = some o)
    (performed : s.portWrites o r ((s.core s.here).since.getD s.tick) = false) :
    let t := ((s.releaseAll o r g.scope).setSegment d (g.detach s.meridian)).onCore s.here fun c => { c with since := none }
    exec (.segDet ra) s = .next (t.advance t.here) := by
  refine attempt_ok ((names.begins (decide_eq_true names.name)).trans ?_)
  refine (act_bind_ok (check_of (by rw [state, holder]; simp))).trans ?_
  rw [if_neg (by rw [performed]; exact Bool.false_ne_true)]
  rfl

/-! ### `SEG.PIN`, `SEG.EVT`, `SEG.DROP` and `SEG.STAT` (R402, R404) -/

theorem execSegPin_pins (names : Names s ra o r d g) (words : wbits (s.reg rb) 63 1 = 0)
    (mine : g.state ≠ .attached ∨ g.holder = some o) :
    exec (.segPin ra rb) s = .next ((s.setSegment d { g with pinned := wbit (s.reg rb) 0 }).advance s.here) := by
  refine attempt_ok ((names.begins (names.words (decide_eq_true words))).trans ?_)
  exact (act_bind_ok (check_of (by simpa using mine))).trans rfl

theorem execSegEvt_spills (names : Names s ra o r d g) (words : wbits (s.reg rb) 63 7 = 0) (state : g.state = .resident)
    (loose : g.pinned = false) :
    exec (.segEvt ra rb) s = .next ((s.setSegment d
      { g with state := .spilling, asked := true, waiting := g.waiting ++ [askedBy s o (s.reg rb) true] }).advance
        s.here) := by
  have asked : (g.asked || decide (g.state = .resident)) = true := by rw [state]; exact Bool.or_true _
  refine attempt_ok ((names.begins (names.words (decide_eq_true words))).trans ?_)
  refine (act_bind_ok (check_of (by rw [state, loose]; rfl))).trans ?_
  rw [if_neg (by simp [state]), asked]
  rfl

theorem execSegEvt_arrives (names : Names s ra o r d g) (words : wbits (s.reg rb) 63 7 = 0) (state : g.state = .spilled)
    (loose : g.pinned = false) :
    let t := s.segArrivals [askedBy s o (s.reg rb) true]
    exec (.segEvt ra rb) s = .next (t.advance t.here) := by
  refine attempt_ok ((names.begins (names.words (decide_eq_true words))).trans ?_)
  refine (act_bind_ok (check_of (by rw [state, loose]; rfl))).trans ?_
  rw [if_pos state]
  rfl

theorem execSegDrop_removes (names : Names s ra o r d g) (still : g.state ≠ .reloading)
    (mine : g.state ≠ .attached ∨ (g.holder = some o ∧ g.count = 1)) :
    exec (.segDrop ra) s = .next ({ s with segments := s.segments.drop d }.advance s.here) := by
  refine attempt_ok ((names.begins (decide_eq_true names.name)).trans ?_)
  exact (act_bind_ok (check_of (by simpa [still] using mine))).trans rfl

/-- A name that is not in the directory reads as zero. -/
theorem execSegStat_reads (region : s.regionOf s.here = some (o, r)) (name : s.reg ra ≠ 0) :
    exec (.segStat rd ra) s = .next (s.writeReg rd (match s.segmentNamed r.asid (s.reg ra) with
      | some (_, g) => g.status (some o)
      | none => 0)) := by
  refine attempt_ok ((act_bind_ok (check_of (decide_eq_true name))).trans ?_)
  exact (act_bind_ok (myRegion_ok region)).trans rfl

end

/-- Settles O36: each instruction's checks pass in turn, and the state of the segment chooses its effect. -/
theorem segmentInstructions : Obligations.SegmentInstructions := by
  intro s rd ra rb o r region name p a b me attaches
  have names : ∀ {d g}, s.segmentNamed r.asid a = some (d, g) → Names s ra o r d g :=
    fun found => ⟨region, name, found⟩
  refine ⟨?name, fun d g found => execSegAtt_attaches (names found), fun d g found => execSegAtt_reloads (names found),
    ?detach, fun d g found => execSegPin_pins (names found), fun d g found => execSegEvt_spills (names found), ?arrive,
    fun d g found => execSegDrop_removes (names found), ?status, ?absent⟩
  case name =>
    intro bs s1 k fits reads w pl back g _ high clear tail parcels kind first offset size pages some_ place free room unnamed
      number
    have allowed : PlaceAllowed g bs := ⟨high, clear, tail, parcels, kind, first, offset, size, pages, some_⟩
    exact execSegName_names region name fits reads allowed place free room unnamed number
  case detach =>
    rintro d g found state holder performed t rfl
    exact execSegDet_detaches (names found) state holder performed
  case arrive =>
    rintro d g found words state loose t rfl
    exact execSegEvt_arrives (names found) words state loose
  case status =>
    intro d g found
    rw [execSegStat_reads region name, found]
  case absent =>
    intro unnamed
    rw [execSegStat_reads region name, unnamed]

end Sys2Proof.Proofs

/-! The proof of the obligation about segments, translation and Sounding at work. -/

namespace Sys2Proof.Proofs

open Sys2Proof Sys2Proof.Machine Sys2Proof.Laws

/-! ### Spills and reloads (R392, R394, R395, R405) -/

section

variable {s t : State} {d o : Nat} {g : Segment} {pas : List Nat}

theorem execSpillComplete_copies (segment : s.segment d = some g) (spilling : g.state = .spilling)
    (pages : backingPages g .write s = .ok pas t) : execSpillComplete d s = .next (t.finishSpill d g pas) := by
  simp only [execSpillComplete, segment, spilling, pages, ne_eq, not_true_eq_false, if_false]

/-- The segment when its bytes are in the target region (R394). -/
abbrev reloaded (g : Segment) (o : Nat) : Segment := { g with state := .resident, origin := o, target := none, waiting := [] }

theorem execReloadComplete_copies (segment : s.segment d = some g) (reloading : g.state = .reloading)
    (target : g.target = some o) (free : s.inTheWay d g o = []) (pages : backingPages g .read s = .ok pas t) :
    execReloadComplete d s = .next (match g.waiting with
      | w :: _ => (t.copyPages pas (g.pages o)).attach d (reloaded g o) w.origin g.waiting
      | [] => (t.copyPages pas (g.pages o)).setSegment d { reloaded g o with holder := none, count := 0 }) := by
  unfold execReloadComplete
  rw [segment]
  dsimp only
  rw [reloading, target]
  dsimp only
  rw [free]
  dsimp only [List.any_nil, oldestOf]
  rw [pages]
  cases g.waiting <;> rfl

theorem execSegmentTransferFault_fails (code : Byte) (segment : s.segment d = some g) :
    execSegmentTransferFault d code s = .next (s.failTransfer d g code
      (g.backing + BitVec.ofNat 64 ((Config.freeWord s.tick).toNat % max 1 g.bytes))) := by
  rw [execSegmentTransferFault, segment]

end

/-! ### Table walks, invalidates and page duplications (R414, R420) -/

section

variable {s : State} {k prov asid va sz at_ f : Nat} {e : BitVec 128} {v : Invalidate}

theorem execTableWalk_keeps (inside : va < 2 ^ 56) (walk : s.walk asid va = some (e, sz, at_))
    (still : leafMigrating e = false) :
    execTableWalk prov asid va s = .next ((s.regions.filter fun (x : Nat × Region) =>
        x.2.phase ≠ .held && x.2.asid.toNat = asid && x.1 / 64 ≤ prov && prov ≤ (x.1 + 2 ^ x.2.shape - 1) / 64).foldl
      (fun t (x : Nat × Region) =>
        t.keepTranslation prov ⟨x.1, asid, x.2.identity.toNat, va / 2 ^ sz * 2 ^ sz, sz, leafFrame e, e⟩) s) := by
  simp only [execTableWalk, Nat.not_le.2 inside, walk, still, List.foldl_map, Bool.false_eq_true, if_false]

theorem execInvalidateComplete_ends (first : s.invalidates[k]? = some v) (plain : v.dup = none) :
    execInvalidateComplete k s = .next ((s.performInvalidate v).invalidateOver k v) := by
  simp only [execInvalidateComplete, first, plain, Option.isSome_none, Bool.false_eq_true, if_false]

theorem execInvalidateComplete_copies (first : s.invalidates[k]? = some v) (dup : v.dup = some f)
    (begins : v.copying = false) :
    execInvalidateComplete k s = .next { s.performInvalidate v with
      invalidates := (s.performInvalidate v).invalidates.set k { v with copying := true } } := by
  simp only [execInvalidateComplete, first, dup, begins, Option.isSome_some, Bool.false_eq_true, if_false, if_true]

theorem execPageDupComplete_copies (first : s.invalidates[k]? = some v) (dup : v.dup = some f) (copying : v.copying = true)
    (leaf : s.dupLeaf v.asid (BitVec.ofNat 64 v.first) = some (e, sz, at_)) :
    execPageDupComplete k s = .next (((((List.range 8).foldl (fun (t : State) i =>
      t.copyPage (leafFrame e * 4096) ((f + i) * 4096)) s).writeLeaf at_
        (setF (setF (setF e 115 64 f) 11 11 1) 12 12 0)).performInvalidate v).invalidateOver k v) := by
  simp only [execPageDupComplete, first, dup, copying, leaf]

theorem execPageDupComplete_fails (first : s.invalidates[k]? = some v) (dup : v.dup = some f) (copying : v.copying = true)
    (gone : s.dupLeaf v.asid (BitVec.ofNat 64 v.first) = none) :
    execPageDupComplete k s = .next (s.failDup k v codeAbsent) := by
  simp only [execPageDupComplete, first, dup, copying, gone]

/-! ### Collapses (R417) -/

/-- The state in which the collapses asked for at a page are taken. -/
def collapseTaken (s : State) (asid page : Nat) : State :=
  { s with collapses := s.collapses.filter fun y => !(y.1 = asid && y.2.1 = page) }

theorem execCollapse_moves {x : Nat × Nat × Nat}
    (first : (s.collapses.find? fun y => y.1 = asid && y.2.1 = va / 4096 * 4096) = some x) (mine : x.2.2 = prov)
    (leaf : (collapseTaken s asid (va / 4096 * 4096)).walk asid (va / 4096 * 4096) = some (e, sz, at_))
    (dup : leafDup e = true) (still : leafMigrating e = false) :
    execCollapse asid va prov s = .next (((((collapseTaken s asid (va / 4096 * 4096)).dropTranslations asid
      (va / 4096 * 4096) 1).writeLeaf at_ (setF (setF e 115 64 (leafFrame e + prov)) 11 11 0))).resumeFront asid
        (va / 4096 * 4096) 1) := by
  unfold collapseTaken at leaf ⊢
  simp only [execCollapse, first, mine, leaf, dup, still, ne_eq, not_true_eq_false, Bool.not_false,
    Bool.and_self, if_false, if_true]

end

/-! ### Page sets (R428, R431 to R433) -/

section

variable {s t u : State} {n k pa : Nat} {pas : List Nat} {e : BitVec 128} {x : PageSet}

/-- A page of a set is stored at the set's offset in the deep tier, where the extent holds it (R431). -/
theorem storePage_stores (pages : pagePieces x (x.entries.getD k 0) .read s = .ok pas t)
    (room : 64 * x.offset + (compressPage (x.entries.getD k 0) (pas.flatMap fun pa => t.homeRead pa 4096)).1.length ≤
      16384 * x.pages) :
    ∃ u, storePage n x k s = .ok () u ∧ u.mem = t.mem ∧ u.deep = t.deep.write (x.deepAddress x.offset)
      (compressPage (x.entries.getD k 0) (pas.flatMap fun pa => t.homeRead pa 4096)).1 := by
  refine ⟨_, (act_bind_ok pages).trans ((act_bind_ok (get_eq t)).trans ((act_bind_ok (check_of (decide_eq_true room))).trans
    (modify_eq ..))), rfl, rfl⟩

/-- The table of a set of one page: one write of its stored bits (R431). -/
theorem storeTable_one (entries : x.entries = [e]) (address : setAddress x x.table .write s = .ok pa t) :
    storeTable x s = .ok () (t.homeWrite (pa + 10) (Decode.leBytes 6 (getF e 127 80))) := by
  have first : setAddress x (x.table + BitVec.ofNat 64 (16 * 0)) .write s = .ok pa t := by
    rw [← address, Nat.mul_zero, BitVec.add_zero]
  unfold storeTable
  rw [entries]
  exact (act_bind_ok ((act_bind_ok first).trans (modify_eq ..))).trans rfl

theorem execSoundingOutComplete_stores (out : (s.pageSet n).state = 2)
    (more : (s.pageSet n).landed.length < (s.pageSet n).count)
    (stores : storePage n (s.pageSet n) (s.pageSet n).landed.length s = .ok () u) :
    execSoundingOutComplete n s = .next u := by
  simp only [execSoundingOutComplete, out, Nat.not_le.2 more, stores, ne_eq, not_true_eq_false, if_false]

theorem execSoundingOutComplete_ends (out : (s.pageSet n).state = 2)
    (all : (s.pageSet n).count ≤ (s.pageSet n).landed.length) (writes : storeTable (s.pageSet n) s = .ok () t) :
    execSoundingOutComplete n s =
      .next ((t.onSet n fun y => { y with state := 3 }).setArrival (s.pageSet n)) := by
  simp only [execSoundingOutComplete, out, all, writes, ne_eq, not_true_eq_false, if_false, if_true]

theorem execSoundingPageLand_lands {page : List Byte} {fl : FFlags} (comes : (s.pageSet n).state = 4)
    (named : k < (s.pageSet n).count) (fresh : k ∉ (s.pageSet n).landed)
    (inside : 64 * entryOffset ((s.pageSet n).entries.getD k 0) + entryLength ((s.pageSet n).entries.getD k 0) ≤
      16384 * (s.pageSet n).pages)
    (expands : expandPage ((s.pageSet n).entries.getD k 0) (s.deep.bytes
      ((s.pageSet n).deepAddress (entryOffset ((s.pageSet n).entries.getD k 0)))
      (entryLength ((s.pageSet n).entries.getD k 0))) = some (page, fl))
    (pages : pagePieces (s.pageSet n) ((s.pageSet n).entries.getD k 0) .write s = .ok pas t) :
    execSoundingPageLand n k s = .next ((pas.zipIdx.foldl (fun (t : State) p =>
      t.homeWrite p.1 (slice page (4096 * p.2) 4096)) t).onSet n fun y =>
        { y with landed := y.landed ++ [k], flags := y.flags ||| fl }) := by
  simp only [execSoundingPageLand, comes, Nat.not_le.2 named, fresh, Nat.not_lt.2 inside, expands, pages, ne_eq,
    not_true_eq_false, decide_false, Bool.or_self, Bool.false_eq_true, if_false]

theorem execSoundingInComplete_loads (comes : (s.pageSet n).state = 4)
    (all : (s.pageSet n).count ≤ (s.pageSet n).landed.length) (good : (s.pageSet n).failed = none) :
    execSoundingInComplete n s = .next (((s.onSet n fun y => { y with state := 5 }).setArrival
      (s.pageSet n)).pollLaunches 3 fun w => wbits w 11 0 = n) := by
  simp only [execSoundingInComplete, comes, Nat.not_lt.2 all, good, ne_eq, not_true_eq_false, decide_false, Bool.or_self,
    Bool.false_eq_true, if_false]

theorem execSoundingInComplete_fails (comes : (s.pageSet n).state = 4)
    (all : (s.pageSet n).count ≤ (s.pageSet n).landed.length) (failed : (s.pageSet n).failed = some k) :
    execSoundingInComplete n s = .next (s.failSet n (s.pageSet n) codeDeepMedia (BitVec.ofNat 64 k)) := by
  simp only [execSoundingInComplete, comes, Nat.not_lt.2 all, failed, ne_eq, not_true_eq_false, decide_false, Bool.or_self,
    Bool.false_eq_true, if_false]

theorem execSoundingFault_fails {code : Byte} {word : Word} (busy : (s.pageSet n).busy = true)
    (ends : (s.pageSet n).state ≠ 4 ∨ code ≠ codeDeepMedia) :
    execSoundingFault n code word s = .next (s.failSet n (s.pageSet n) code word) := by
  have whole : ((s.pageSet n).state = 4 && code = codeDeepMedia : Bool) = false :=
    Bool.and_eq_false_iff.2 (ends.imp decide_eq_false decide_eq_false)
  simp only [execSoundingFault, busy, whole, Bool.not_true, Bool.false_eq_true, if_false]

end

/-- Settles O59: what the segment, the invalidate or the page set holds chooses the branch of each event. -/
theorem directoryEvents : Obligations.DirectoryEvents := by
  intro s
  refine ⟨fun d g pas t segment spilling pages => execSpillComplete_copies segment spilling pages, ?reload, ?fault,
    fun prov asid va e sz at_ => execTableWalk_keeps, fun k v => execInvalidateComplete_ends,
    fun k v f => execInvalidateComplete_copies,
    fun k v f first dup copying => ⟨fun e sz at_ => execPageDupComplete_copies first dup copying,
      execPageDupComplete_fails first dup copying⟩,
    fun asid va prov x e sz at_ => execCollapse_moves, ?out, fun n k page fl pas t => execSoundingPageLand_lands,
    fun n comes all => ⟨execSoundingInComplete_loads comes all, fun k => execSoundingInComplete_fails comes all⟩,
    fun n code word => execSoundingFault_fails⟩
  case reload =>
    intro d g o pas t segment reloading target free pages g1
    have copies := execReloadComplete_copies segment reloading target free pages
    refine ⟨fun none_ => copies.trans ?_, fun w rest waits => copies.trans ?_⟩
    · rw [none_]
    · rw [waits]
  case fault =>
    intro d g code segment
    exact ⟨_, Nat.mod_lt _ (by omega), execSegmentTransferFault_fails code segment⟩
  case out =>
    intro n x k e out
    refine ⟨fun pas t more pages room => ?_, fun e pa t one last entries address => ?_,
      fun t all => execSoundingOutComplete_ends out all⟩
    · obtain ⟨u, stores, mem, deep⟩ := storePage_stores (n := n) pages room
      exact ⟨u, execSoundingOutComplete_stores out more stores, mem, deep⟩
    · exact execSoundingOutComplete_ends out (one.trans last.symm).le (storeTable_one entries address)

end Sys2Proof.Proofs
